-- ==== Sys2Proof/Word.lean ====
section
/-! DEFINITION. The word types of the T12 (00 R4: bits from 0 at the least significant; little-endian). -/

namespace Sys2Proof

abbrev Byte := BitVec 8
abbrev Half := BitVec 16
abbrev Word := BitVec 32
abbrev DWord := BitVec 64

end Sys2Proof
end

