-- ==== Sys2Proof/Syntax.lean ====
section
/-! DEFINITION. The syntax of the machine: one constructor of `Instr` per row of spec/opcode_table.json.
The first 170 are the encoded instructions of 05 R103 and R105; the others are the events of the table, which have no word. -/

namespace Sys2Proof

/-! Operands (05 R84, R86, R87). -/

/-- A register field: direct register, queue register, register through an index register, or a literal of one or two words. -/
inductive Operand where
  | v (n : Fin 112)
  | q (k : Fin 8)
  | x (k : Fin 7)
  | lit (w : Word)
  | lit2 (lo hi : Word)
deriving DecidableEq, Repr

/-- A guard or a predicate number: 0 means always (05 R81). -/
abbrev Guard := Fin 8

/-- Rounding field of an arithmetic prefix (05 R97). -/
inductive Rnd where
  | dflt | rne | rz | ru | rd | rna | rs
deriving DecidableEq, Repr

/-- An arithmetic prefix word (05 R97); `c` is the fourth operand when CUSE = 1. -/
structure APfx where
  rnd : Rnd
  sat : Bool
  ftz : Bool
  c : Option Operand
deriving DecidableEq, Repr

/-- ORD of 05 R94. -/
inductive MemOrd where
  | rlx | acq | rel | acqRel
deriving DecidableEq, Repr

/-- SCOPE of 05 R94. -/
inductive Scope where
  | group | team | cluster | partition | system
deriving DecidableEq, Repr

/-- SPACE of 05 R94. -/
inductive Space where
  | glb | spad | wbuf | abuf | cbuf | cspad | cnst
deriving DecidableEq, Repr

/-- POL of 05 R94. -/
inductive Pol where
  | dflt | stream | pin | noalloc | deep
deriving DecidableEq, Repr

/-- FE of 05 R94. -/
inductive Fe where
  | none | consume | peek | setFull
deriving DecidableEq, Repr

/-- The prefix of a memory instruction: none, a memory prefix (05 R94) or an offset prefix (05 R93). -/
inductive MPfx where
  | none
  | mem (ord : MemOrd) (scope : Scope) (space : Space) (pol : Pol) (fe : Fe) (promo : Bool) (off9 : BitVec 9)
  | off (off23 : BitVec 23)
deriving DecidableEq, Repr

/-! Code fields (05 R85, R107). -/

/-- unop functions (09 R146). -/
inductive UnFn where
  | not | neg | abs | popc | clz | ctz | brev | bswap | sext8 | sext16 | sext32
deriving DecidableEq, Repr

/-- ffn functions (09 R161). -/
inductive FfnFn where
  | rcp | rsqrt | exp2 | log2 | sinpi | cospi | tanh | sigm | erf
deriving DecidableEq, Repr

/-- Kinds of the immediate shift (09 R143). -/
inductive ShiKind where
  | shl | shr | sar | rol
deriving DecidableEq, Repr

/-- Number types of the conversions (07 R121, R123). -/
inductive NumTy where
  | f64 | f32 | f16 | bf16 | e4m3 | e5m2 | e2m1
  | s8 | z8 | s16 | z16 | s32 | z32 | s64 | z64
deriving DecidableEq, Repr

/-- Access widths of ld and st (05 R104). -/
inductive MemW where
  | s8 | z8 | s16 | z16 | b32 | b64 | b128 | b256
deriving DecidableEq, Repr

/-- Operations of atom and red (15 R245). -/
inductive AtomOp where
  | add32 | add64 | minS | maxS | minZ | maxZ | and | or | xor | exch | cas32 | cas64
  | fadd32 | fadd64 | maxZ64 | minZ64
deriving DecidableEq, Repr

/-- Functions of xacc (15 R250). -/
inductive XaccFn where
  | addF64 | subF64 | addF32 | subF32 | merge | clrF64 | clrF32
deriving DecidableEq, Repr

/-- Rounding modes of xrnd (15 R253). -/
inductive XrndMode where
  | rne | rz | ru | rd | rna
deriving DecidableEq, Repr

/-- Functions of fe (15 R254); `test p` writes predicate p + 1, p = 0 to 6. -/
inductive FeFn where
  | clr | set | test (p : Fin 7)
deriving DecidableEq, Repr

/-- Result widths of tld and smp (19 R296). -/
inductive TexW where
  | b32 | b64 | b128
deriving DecidableEq, Repr

/-- Reduction operations (11 R177). -/
inductive RedFn where
  | add32 | add64 | mins | maxs | minz | maxz | and | or | xor | fadd32 | fadd64 | fmin32 | fmax32 | fmin64 | fmax64
deriving DecidableEq, Repr

/-- Kinds of vote (11 R176). -/
inductive VoteKind where
  | mask | every | some | same | count | first
deriving DecidableEq, Repr

/-- Special registers (11 R170). -/
inductive SpReg where
  | lane | thread | group | team | teamdim | cluster | clpos | grid | corelog | slicelog | bin
  | time | vtime | clock | link | seed | mrow
  | trapcode | trappc | trapaddr | trapaux | subcnt | feedlost | assure
deriving DecidableEq, Repr

/-- Control registers (11 R171). -/
inductive CtlReg where
  | memdef | fpdef | trapbase | bintime | wdogBar | wdogHang | wdogRos | rastthr
  | feedbase | feedsize | feedhead | feedtail | cpytab | restab | migwait | pairwait
deriving DecidableEq, Repr

/-- Roles of phreg and phdereg (11 R184). -/
inductive PhRole where
  | sig | wait | both
deriving DecidableEq, Repr

/-- Counters named by waitc (11 R191). -/
inductive Ctr where
  | ldc | stc | batc | engc | resc
deriving DecidableEq, Repr

/-! Parameters of the events. -/

/-- The function through which a register access reaches the device: the (primary) physical function, the physical function of the
second link of a bifurcated port, or slice `s`'s virtual function (01 R32, R34). -/
inductive Func where
  | pf
  | pf2
  | vf (s : Nat)
deriving DecidableEq, Repr

/-- An ML-DSA-65 key pair, each key by 64 bytes that stand for it (29 R436). -/
structure KeyPair where
  secret : BitVec 512 := 0
  pub : BitVec 512 := 0
deriving DecidableEq, Repr, Inhabited

/-- A certificate: the key certified, the key that certifies it, and the signature (29 R436). -/
structure Cert where
  subject : BitVec 512 := 0
  issuer : BitVec 512 := 0
  sig : BitVec 512 := 0
deriving DecidableEq, Repr, Inhabited

/-- The cache levels that write back or drop lines on their own (13 R208). -/
inductive CacheLvl where
  | l1 | constant | cluster | deep
deriving DecidableEq, Repr

/-- How a copy or a tile read fails after acceptance (17 R269, 19 R322). -/
inductive JobFail where
  | cancelled | poison | gate
deriving DecidableEq, Repr

/-- Where an uncorrectable error strikes (25 R372). -/
inductive ErrLoc where
  | gddr (sector : Nat)
  | deep (slice sector : Nat)
  | cluster (slice sector : Nat)
  | l1 (core sector : Nat)
  | constant (core sector : Nat)
  | localStore (team : Nat) (space : Space) (sector : Nat)
  | reg (tid : Nat) (n : Nat)
deriving DecidableEq, Repr

/-- An access of a Rosux Link peer (01 R36). -/
inductive LinkAcc where
  | read (size : Nat)
  | write (bytes : List Byte)
  | atomic (op : AtomOp) (x : DWord) (y : DWord)
deriving DecidableEq, Repr

/-- A sealed link (29 R421): a slice's UCIe end, or its Rosux Link port, per direction. -/
inductive LinkId where
  | ucie (stack : Nat) (tx : Bool)
  | rosux (port : Nat) (tx : Bool)
deriving DecidableEq, Repr

/-- SPDM requests the security processor answers (29 R438, R439). -/
inductive SpdmReq where
  | getVersion | getCapabilities | negotiate | getDigests | getCertificate
  | challenge (nonce : Nat)
  | getMeasurements (index : Option Nat)
  | keyExchange (nonce : Nat) | finish (session : Nat) | endSession (session : Nat)
  | openWorld (session first : Nat)
  | ideKm (session stream : Nat)
deriving DecidableEq, Repr

/-- What a world owner's session sets (29 R432, R433). -/
inductive SessChange where
  | compMask (ctx : Nat) (mask : BitVec 8)
  | gate (id : Nat) (value : BitVec 32)
deriving DecidableEq, Repr

/-- Conversion codes (09 R162): destination type, source type, number of elements converted. -/
structure CvtCode where
  dst : NumTy
  src : NumTy
  count : Nat
deriving DecidableEq, Repr

/-- The assigned conversion codes, with their numbers (09 R162). -/
def cvtTable : List (Nat × CvtCode) :=
  [(0x00, ⟨.f64, .f32, 1⟩), (0x01, ⟨.f32, .f64, 1⟩), (0x02, ⟨.f32, .f16, 1⟩), (0x03, ⟨.f16, .f32, 1⟩), (0x04, ⟨.f32, .bf16, 1⟩), (0x05, ⟨.bf16, .f32, 1⟩), (0x06, ⟨.f64, .f16, 1⟩), (0x07, ⟨.f16, .f64, 1⟩)] ++
  [(0x08, ⟨.f32, .f16, 2⟩), (0x09, ⟨.f16, .f32, 2⟩), (0x0A, ⟨.f32, .bf16, 2⟩), (0x0B, ⟨.bf16, .f32, 2⟩), (0x0C, ⟨.f32, .e4m3, 1⟩), (0x0D, ⟨.e4m3, .f32, 1⟩), (0x0E, ⟨.f32, .e5m2, 1⟩), (0x0F, ⟨.e5m2, .f32, 1⟩)] ++
  [(0x10, ⟨.f32, .e2m1, 1⟩), (0x11, ⟨.e2m1, .f32, 1⟩), (0x12, ⟨.e4m3, .f32, 4⟩), (0x13, ⟨.e5m2, .f32, 4⟩), (0x14, ⟨.e2m1, .f32, 8⟩), (0x15, ⟨.f32, .e4m3, 4⟩), (0x16, ⟨.f32, .e5m2, 4⟩), (0x17, ⟨.f32, .e2m1, 8⟩)] ++
  [(0x20, ⟨.s32, .f32, 1⟩), (0x21, ⟨.z32, .f32, 1⟩), (0x22, ⟨.s64, .f32, 1⟩), (0x23, ⟨.z64, .f32, 1⟩), (0x24, ⟨.s32, .f64, 1⟩), (0x25, ⟨.z32, .f64, 1⟩), (0x26, ⟨.s64, .f64, 1⟩), (0x27, ⟨.z64, .f64, 1⟩)] ++
  [(0x28, ⟨.s16, .f32, 1⟩), (0x29, ⟨.z16, .f32, 1⟩), (0x2A, ⟨.s8, .f32, 1⟩), (0x2B, ⟨.z8, .f32, 1⟩), (0x30, ⟨.f32, .s32, 1⟩), (0x31, ⟨.f32, .z32, 1⟩), (0x32, ⟨.f32, .s64, 1⟩), (0x33, ⟨.f32, .z64, 1⟩)] ++
  [(0x34, ⟨.f64, .s32, 1⟩), (0x35, ⟨.f64, .z32, 1⟩), (0x36, ⟨.f64, .s64, 1⟩), (0x37, ⟨.f64, .z64, 1⟩), (0x40, ⟨.s64, .s32, 1⟩), (0x41, ⟨.z64, .z32, 1⟩), (0x42, ⟨.s32, .s64, 1⟩), (0x43, ⟨.z32, .z64, 1⟩)] ++
  [(0x44, ⟨.s32, .z32, 1⟩), (0x45, ⟨.z32, .s32, 1⟩), (0x46, ⟨.s64, .z64, 1⟩), (0x47, ⟨.z64, .s64, 1⟩), (0x48, ⟨.s16, .s32, 1⟩), (0x49, ⟨.z16, .s32, 1⟩), (0x4A, ⟨.s8, .s32, 1⟩), (0x4B, ⟨.z8, .s32, 1⟩)]

/-- The instructions and events of spec/opcode_table.json, in the spec's rules. -/
inductive Instr where
  /-- R142. 32-bit integer add per active lane. -/
  | addB32 (g : Guard) (d a b : Operand)
  /-- R142. 32-bit integer subtract per active lane. -/
  | subB32 (g : Guard) (d a b : Operand)
  /-- R142. 64-bit integer add on register pairs. -/
  | addB64 (g : Guard) (d a b : Operand)
  /-- R142. 64-bit integer subtract on register pairs. -/
  | subB64 (g : Guard) (d a b : Operand)
  /-- R142. Low 32 bits of a 32-bit product. -/
  | mulB32 (g : Guard) (d a b : Operand)
  /-- R142. High 32 bits of a signed product. -/
  | mulhS32 (g : Guard) (d a b : Operand)
  /-- R142. High 32 bits of an unsigned product. -/
  | mulhZ32 (g : Guard) (d a b : Operand)
  /-- R142. Full 64-bit signed product into a pair. -/
  | mulxS32 (g : Guard) (d a b : Operand)
  /-- R142. 32-bit multiply-accumulate into D. -/
  | macB32 (g : Guard) (d a b : Operand)
  /-- R142. Signed 64-bit multiply-accumulate into a pair. -/
  | macxS32 (g : Guard) (d a b : Operand)
  /-- R142. Bitwise and. -/
  | andB32 (g : Guard) (d a b : Operand)
  /-- R142. Bitwise or. -/
  | orB32 (g : Guard) (d a b : Operand)
  /-- R142. Bitwise exclusive or. -/
  | xorB32 (g : Guard) (d a b : Operand)
  /-- R142. A and not B. -/
  | andn (g : Guard) (d a b : Operand)
  /-- R143. Logical shift left by register count. -/
  | shl (g : Guard) (d a b : Operand)
  /-- R143. Logical shift right by register count. -/
  | shr (g : Guard) (d a b : Operand)
  /-- R143. Arithmetic shift right by register count. -/
  | sar (g : Guard) (d a b : Operand)
  /-- R143. Rotate left by register count. -/
  | rol (g : Guard) (d a b : Operand)
  /-- R142. Signed minimum. -/
  | minS32 (g : Guard) (d a b : Operand)
  /-- R142. Signed maximum. -/
  | maxS32 (g : Guard) (d a b : Operand)
  /-- R142. Unsigned minimum. -/
  | minZ32 (g : Guard) (d a b : Operand)
  /-- R142. Unsigned maximum. -/
  | maxZ32 (g : Guard) (d a b : Operand)
  /-- R147. Signed 32-bit compare writing a true-sense and a false-sense predicate. -/
  | cmpS32 (g pt pf : Guard) (lt : Bool) (a b : Operand)
  /-- R147. Signed 64-bit compare into predicates. -/
  | cmpS64 (g pt pf : Guard) (lt : Bool) (a b : Operand)
  /-- R147. Unsigned 32-bit compare into predicates. -/
  | cmpZ32 (g pt pf : Guard) (lt : Bool) (a b : Operand)
  /-- R147. Unsigned 64-bit compare into predicates. -/
  | cmpZ64 (g pt pf : Guard) (lt : Bool) (a b : Operand)
  /-- R147. f32 compare into predicates. -/
  | cmpF32 (g pt pf : Guard) (lt : Bool) (a b : Operand)
  /-- R147. f64 compare into predicates. -/
  | cmpF64 (g pt pf : Guard) (lt : Bool) (a b : Operand)
  /-- R149. Select one register by a predicate named in G. -/
  | selB32 (s : Guard) (d a b : Operand)
  /-- R149. Select a pair by a predicate named in G. -/
  | selB64 (s : Guard) (d a b : Operand)
  /-- R146. 32-bit unary bit function selected by B. -/
  | unopB32 (g : Guard) (d a : Operand) (fn : UnFn)
  /-- R146. 64-bit unary bit function selected by B. -/
  | unopB64 (g : Guard) (d a : Operand) (fn : UnFn)
  /-- R145. Bit-field extract with optional sign. -/
  | bfe (g : Guard) (d a b : Operand)
  /-- R145. Bit-field insert into D. -/
  | bfi (g : Guard) (d a b : Operand)
  /-- R152. Read A from an indexed lane of the set. -/
  | shflIdx (g : Guard) (d a b : Operand)
  /-- R152. Read A from the lane l xor B. -/
  | shflXor (g : Guard) (d a b : Operand)
  /-- R142. Add a sign-extended 32-bit offset to a 64-bit address. -/
  | addrS (g : Guard) (d a b : Operand)
  /-- R142. Add a zero-extended 32-bit offset to a 64-bit address. -/
  | addrZ (g : Guard) (d a b : Operand)
  /-- R144. Add a sign-extended 8-bit immediate. -/
  | addi (g : Guard) (d a : Operand) (imm : BitVec 8)
  /-- R144. And with a sign-extended 8-bit immediate. -/
  | andi (g : Guard) (d a : Operand) (imm : BitVec 8)
  /-- R144. Or with a sign-extended 8-bit immediate. -/
  | ori (g : Guard) (d a : Operand) (imm : BitVec 8)
  /-- R144. Exclusive or with a sign-extended 8-bit immediate. -/
  | xori (g : Guard) (d a : Operand) (imm : BitVec 8)
  /-- R143. Shift or rotate by an immediate count, kind in IMM8<7:6>. -/
  | shi (g : Guard) (d a : Operand) (k : ShiKind) (n : BitVec 6)
  /-- R144. Move a sign-extended 15-bit immediate. -/
  | movi (g : Guard) (d : Operand) (imm : BitVec 15)
  /-- R153. Copy one register. -/
  | movB32 (g : Guard) (d a : Operand)
  /-- R153. Copy a register pair. -/
  | movB64 (g : Guard) (d a : Operand)
  /-- R162. Convert between types by conversion code in B. -/
  | cvt (p : Option APfx) (g : Guard) (d a : Operand) (c : CvtCode)
  /-- R162. Saturating conversion by conversion code in B. -/
  | cvtSat (p : Option APfx) (g : Guard) (d a : Operand) (c : CvtCode)
  /-- R156. f32 add. -/
  | faddF32 (p : Option APfx) (g : Guard) (d a b : Operand)
  /-- R156. f32 subtract. -/
  | fsubF32 (p : Option APfx) (g : Guard) (d a b : Operand)
  /-- R156. f32 multiply. -/
  | fmulF32 (p : Option APfx) (g : Guard) (d a b : Operand)
  /-- R156. f32 correctly rounded divide. -/
  | fdivF32 (p : Option APfx) (g : Guard) (d a b : Operand)
  /-- R156. f32 fused multiply-add. -/
  | fmaF32 (p : Option APfx) (g : Guard) (d a b : Operand)
  /-- R156. f32 fused multiply-subtract. -/
  | fmsF32 (p : Option APfx) (g : Guard) (d a b : Operand)
  /-- R156. f32 minnum. -/
  | fminF32 (p : Option APfx) (g : Guard) (d a b : Operand)
  /-- R156. f32 maxnum. -/
  | fmaxF32 (p : Option APfx) (g : Guard) (d a b : Operand)
  /-- R156. f64 add. -/
  | faddF64 (p : Option APfx) (g : Guard) (d a b : Operand)
  /-- R156. f64 subtract. -/
  | fsubF64 (p : Option APfx) (g : Guard) (d a b : Operand)
  /-- R156. f64 multiply. -/
  | fmulF64 (p : Option APfx) (g : Guard) (d a b : Operand)
  /-- R156. f64 correctly rounded divide. -/
  | fdivF64 (p : Option APfx) (g : Guard) (d a b : Operand)
  /-- R156. f64 fused multiply-add. -/
  | fmaF64 (p : Option APfx) (g : Guard) (d a b : Operand)
  /-- R156. f64 fused multiply-subtract. -/
  | fmsF64 (p : Option APfx) (g : Guard) (d a b : Operand)
  /-- R156. f64 minnum. -/
  | fminF64 (p : Option APfx) (g : Guard) (d a b : Operand)
  /-- R156. f64 maxnum. -/
  | fmaxF64 (p : Option APfx) (g : Guard) (d a b : Operand)
  /-- R156. f32 correctly rounded square root. -/
  | fsqrtF32 (p : Option APfx) (g : Guard) (d a : Operand)
  /-- R156. f64 correctly rounded square root. -/
  | fsqrtF64 (p : Option APfx) (g : Guard) (d a : Operand)
  /-- R161. f32 special function selected by B. -/
  | ffnF32 (p : Option APfx) (g : Guard) (d a : Operand) (fn : FfnFn)
  /-- R161. Special function on both f16 elements. -/
  | ffnF16 (p : Option APfx) (g : Guard) (d a : Operand) (fn : FfnFn)
  /-- R159. Packed f32x2 fused multiply-add. -/
  | pfmaF32x2 (p : Option APfx) (g : Guard) (d a b : Operand)
  /-- R159. Packed bf16x2 fused multiply-add. -/
  | pfmaBf16x2 (p : Option APfx) (g : Guard) (d a b : Operand)
  /-- R159. Packed f32x2 add. -/
  | paddF32x2 (p : Option APfx) (g : Guard) (d a b : Operand)
  /-- R159. Packed f32x2 multiply. -/
  | pmulF32x2 (p : Option APfx) (g : Guard) (d a b : Operand)
  /-- R157. Classify an f32 value, masked by B. -/
  | fclass (p : Option APfx) (g : Guard) (d a b : Operand)
  /-- R158. Multiply an f32 by a power of two. -/
  | fscale (p : Option APfx) (g : Guard) (d a b : Operand)
  /-- R150. Combine two predicates through a truth table. -/
  | plog (g : Guard) (lut : BitVec 4) (pd pa pb : Guard)
  /-- R151. Exchange predicates with a register under a mask. -/
  | pmov (g : Guard) (d a : Operand) (mask : BitVec 7)
  /-- R154. Write an index register after a window check. -/
  | xset (g : Guard) (k : Fin 7) (a : Operand)
  /-- R154. Read an index register. -/
  | xget (g : Guard) (d : Operand) (k : Fin 7)
  /-- R160. Four-way s8 dot product with accumulate. -/
  | dot4S8 (p : Option APfx) (g : Guard) (d a b : Operand)
  /-- R160. Two-way bf16 dot product into f32. -/
  | dot2Bf16 (p : Option APfx) (g : Guard) (d a b : Operand)
  /-- R242. Load from a memory space, with optional full/empty wait and acquire. -/
  | ld (p : MPfx) (g : Guard) (l : Fin 16) (d a : Operand) (w : MemW)
  /-- R243. Store to a memory space, with optional set-full and release. -/
  | st (p : MPfx) (g : Guard) (l : Fin 16) (d a : Operand) (w : MemW)
  /-- R246. Atomic read-modify-write returning the old value. -/
  | atom (p : MPfx) (g : Guard) (l : Fin 16) (d a : Operand) (op : AtomOp)
  /-- R247. Atomic reduction without a returned value. -/
  | red (p : MPfx) (g : Guard) (l : Fin 16) (d a : Operand) (op : AtomOp)
  /-- R250. Add, subtract, merge or clear on an exact accumulator. -/
  | xacc (p : MPfx) (g : Guard) (l : Fin 16) (d a : Operand) (fn : XaccFn)
  /-- R253. Rounding read of an exact accumulator. -/
  | xrnd (p : MPfx) (g : Guard) (l : Fin 16) (d a : Operand) (f32 : Bool) (m : XrndMode)
  /-- R297. Texel load with residency fallback and feedback. -/
  | tld (g : Guard) (l : Fin 16) (d a : Operand) (w : TexW) (nofb : Bool)
  /-- R297. Filtered texture sample with residency fallback and feedback. -/
  | smp (g : Guard) (l : Fin 16) (d a : Operand) (w : TexW) (nofb : Bool)
  /-- R316. Ray or box test against the four children of a tree node. -/
  | rtbox (g : Guard) (l : Fin 16) (d a : Operand) (box spill : Bool)
  /-- R317. Watertight ray-triangle test. -/
  | rttri (g : Guard) (l : Fin 16) (d a : Operand) (cullb : Bool)
  /-- R254. Clear, set or test the full/empty bits of a granule range. -/
  | fe (p : MPfx) (g : Guard) (l : Fin 16) (d a : Operand) (fn : FeFn)
  /-- R167. Uniform 32-bit add from the leader lane. -/
  | gaddB32 (g : Guard) (d a b : Operand)
  /-- R167. Uniform 32-bit subtract. -/
  | gsubB32 (g : Guard) (d a b : Operand)
  /-- R167. Uniform 64-bit add. -/
  | gaddB64 (g : Guard) (d a b : Operand)
  /-- R167. Uniform 64-bit subtract. -/
  | gsubB64 (g : Guard) (d a b : Operand)
  /-- R167. Uniform 32-bit multiply. -/
  | gmulB32 (g : Guard) (d a b : Operand)
  /-- R167. Uniform signed high multiply. -/
  | gmulhS32 (g : Guard) (d a b : Operand)
  /-- R167. Uniform bitwise and. -/
  | gand (g : Guard) (d a b : Operand)
  /-- R167. Uniform bitwise or. -/
  | gor (g : Guard) (d a b : Operand)
  /-- R167. Uniform exclusive or. -/
  | gxor (g : Guard) (d a b : Operand)
  /-- R167. Uniform A and not B. -/
  | gandn (g : Guard) (d a b : Operand)
  /-- R167. Uniform shift left. -/
  | gshl (g : Guard) (d a b : Operand)
  /-- R167. Uniform logical shift right. -/
  | gshr (g : Guard) (d a b : Operand)
  /-- R167. Uniform signed minimum. -/
  | gminS32 (g : Guard) (d a b : Operand)
  /-- R167. Uniform signed maximum. -/
  | gmaxS32 (g : Guard) (d a b : Operand)
  /-- R169. Uniform signed compare writing predicates in every live lane. -/
  | gcmpS32 (g pt pf : Guard) (lt : Bool) (a b : Operand)
  /-- R169. Uniform unsigned compare writing predicates. -/
  | gcmpZ32 (g pt pf : Guard) (lt : Bool) (a b : Operand)
  /-- R167. Uniform add of an 8-bit immediate. -/
  | gaddi (g : Guard) (d a : Operand) (imm : BitVec 8)
  /-- R167. Uniform move of a 15-bit immediate. -/
  | gmovi (g : Guard) (d : Operand) (imm : BitVec 15)
  /-- R167. Uniform move from the leader lane. -/
  | gmov (g : Guard) (d a : Operand)
  /-- R168. Uniform select by the leader's predicate named in G. -/
  | gsel (s : Guard) (d a b : Operand)
  /-- R170. Read a special register. -/
  | sreg (g : Guard) (d : Operand) (r : SpReg)
  /-- R170. Write a special register. -/
  | sregw (g : Guard) (r : SpReg) (b : Operand)
  /-- R171. Uniform read of a context control register. -/
  | ctl (g : Guard) (d : Operand) (r : CtlReg)
  /-- R173. Uniform write of a context control register, completing on every core. -/
  | ctlw (g : Guard) (r : CtlReg) (b : Operand)
  /-- R174. PC-relative branch per thread. -/
  | bra (g : Guard) (off : BitVec 22)
  /-- R174. PC-relative call writing LINK. -/
  | call (g : Guard) (off : BitVec 22)
  /-- R174. Jump to a register-held word offset. -/
  | jmpr (g : Guard) (a : Operand)
  /-- R174. Return to LINK. -/
  | ret (g : Guard)
  /-- R58. Set the thread's bit in a lane mask. -/
  | join (g : Guard) (k : Fin 12)
  /-- R58. Clear the thread's bit in a lane mask. -/
  | leave (g : Guard) (k : Fin 12)
  /-- R59. Wait until every thread set in a mask waits on it. -/
  | waitm (g : Guard) (k : Fin 12)
  /-- R175. Uniform read of a lane mask. -/
  | mrd (g : Guard) (d : Operand) (k : Fin 12)
  /-- R175. Uniform write of a lane mask. -/
  | mwr (g : Guard) (k : Fin 12) (a : Operand)
  /-- R176. Collective vote over a predicate of all 32 lanes. -/
  | vote (g : Guard) (d : Operand) (p : Guard) (kind : VoteKind)
  /-- R178. Uniform fixed-tree reduction over active lanes. -/
  | gred (g : Guard) (d a : Operand) (op : RedFn)
  /-- R179. Inclusive or exclusive scan in ascending lane order. -/
  | gscan (g : Guard) (d a : Operand) (ex : Bool) (op : RedFn)
  /-- R180. Create child threads into spawn bins of the core. -/
  | spawn (g : Guard) (a b : Operand)
  /-- R66. Send spawn records through the hardware task queue to the owning core. -/
  | spawnh (g : Guard) (a b : Operand)
  /-- R61. End the thread after its accesses complete. -/
  | exit (g : Guard)
  /-- R182. Make the thread not ready for 16 clocks. -/
  | yield (g : Guard)
  /-- R184. Register in phaser roles. -/
  | phreg (g : Guard) (role : PhRole) (a : Operand)
  /-- R184. Deregister from phaser roles. -/
  | phdereg (g : Guard) (role : PhRole) (a : Operand)
  /-- R186. Initialise a phaser. -/
  | phInit (g : Guard) (l : Fin 16) (d a : Operand)
  /-- R71. Arrive on a phaser, possibly completing its phase. -/
  | phArrive (g : Guard) (l : Fin 16) (d a : Operand)
  /-- R72. Arrive on a phaser and wait for the phase to change. -/
  | phArrwait (g : Guard) (l : Fin 16) (p : Guard) (a : Operand)
  /-- R72. Wait for a phaser's phase to change. -/
  | phWait (g : Guard) (l : Fin 16) (p : Guard) (a : Operand)
  /-- R185. Test whether a phaser has passed a phase. -/
  | phTest (g : Guard) (l : Fin 16) (p : Guard) (a : Operand)
  /-- R72. Drop a phaser, releasing its waiters. -/
  | phDrop (g : Guard) (l : Fin 16) (a : Operand)
  /-- R190. Bind a queue register to a port. -/
  | qbind (g : Guard) (k : Fin 8) (a : Operand)
  /-- R190. Unbind a queue register. -/
  | qfree (g : Guard) (k : Fin 8)
  /-- R191. Wait until a counter is at or below a value. -/
  | waitc (g : Guard) (c : Ctr) (val : BitVec 18)
  /-- R192. Seal pushed copies into a numbered batch. -/
  | seal (g : Guard) (d : Operand)
  /-- R193. Read the oldest unfinished batch number. -/
  | bquery (g : Guard) (d : Operand)
  /-- R194. Write back a range of cached lines. -/
  | cflush (p : Option (Scope × Space)) (g : Guard) (a b : Operand)
  /-- R194. Drop clean cached lines of a range. -/
  | cinval (p : Option (Scope × Space)) (g : Guard) (a b : Operand)
  /-- R279. Matrix multiply-accumulate of A rows into a C tile. -/
  | mmaMma (g : Guard) (l : Fin 16) (d a : Operand)
  /-- R281. Multiply 32 register rows by the bound B block into a result queue. -/
  | mmaMmar (g : Guard) (l : Fin 16) (k : Fin 8) (a : Operand)
  /-- R284. Paired matrix command over a 256-wide B block across two teams. -/
  | mmaMpair (g : Guard) (l : Fin 16) (d a : Operand)
  /-- R278. Bind a B block to the group. -/
  | mmaMload (g : Guard) (l : Fin 16) (a : Operand)
  /-- R280. Clear a C tile to +0. -/
  | mmaMclear (g : Guard) (l : Fin 16) (a : Operand)
  /-- R280. Set MROW after earlier commands finish. -/
  | mmaMrow (g : Guard) (l : Fin 16) (a : Operand)
  /-- R264. Check and install a copy template in the table. -/
  | tmplInst (g : Guard) (l : Fin 16) (d a : Operand)
  /-- R264. Check a tensor shape record and return its tile count. -/
  | tmplValid (g : Guard) (l : Fin 16) (d a : Operand)
  /-- R264. Mark a template entry invalid. -/
  | tmplDrop (g : Guard) (l : Fin 16) (d : Operand)
  /-- R312. Enter a raster-ordered section once earlier tickets are released. -/
  | rosin (g : Guard)
  /-- R312. Release the thread's raster-ordered ticket. -/
  | rosout (g : Guard)
  /-- R304. Collective command sending 32 triangles to the rasteriser. -/
  | rastTri (g : Guard) (l : Fin 16) (d a : Operand)
  /-- R321. Hand a frame tile to the encoder lane. -/
  | foutTile (g : Guard) (l : Fin 16) (d a : Operand)
  /-- R321. End the current frame of a stream. -/
  | foutEnd (g : Guard) (l : Fin 16) (d a : Operand)
  /-- R293. Make pages of a levelled resource resident. -/
  | resmapSet (g : Guard) (l : Fin 16) (d a : Operand)
  /-- R294. Make pages non-resident and raise RESC. -/
  | resmapClear (g : Guard) (l : Fin 16) (d a : Operand)
  /-- R294. Wait until RESC is zero. -/
  | resmapDrain (g : Guard) (l : Fin 16)
  /-- R197. Raise software trap 0x0E. -/
  | trap (g : Guard) (a : Operand)
  /-- R197. Raise breakpoint trap 0x0F. -/
  | brk (g : Guard) (a : Operand)
  /-- R199. Leave handler mode and resume at TRAPPC. -/
  | rte (g : Guard)
  /-- R196. Migration point where a pending migration stop is taken. -/
  | migpt (g : Guard)
  /-- R196. No operation. -/
  | nop (g : Guard)
  /-- R195. Team barrier. -/
  | bar (g : Guard)
  /-- R195. Cluster barrier. -/
  | clbar (g : Guard)
  /-- R101. A cause found after issue is delivered at the thread's next instruction boundary. -/
  | deferredTrapDelivery (t : Nat)
  /-- R100. A load-class result is written to its registers or queue and LDC falls. -/
  | loadComplete (id : Nat)
  /-- R215. A store is performed at its scope and STC falls. -/
  | storePerformed (id : Nat)
  /-- R226. A core receives a promotion request, writes back narrow releases and answers. -/
  | promotionRequest (core id : Nat)
  /-- R173. A control-register write is held on every core of the context. -/
  | ctlwComplete (id : Nat)
  /-- R64. A spawn bin's BINTIME elapses and its group launches. -/
  | binTimerExpiry (core bin : Nat)
  /-- R63. A waiting spawn is served once a bin and its reservation become available. -/
  | spawnWaitServed (core : Nat)
  /-- R66. A task-queue record reaches its owner core and is handled as a spawn. -/
  | taskQueueDelivery (part : Nat)
  /-- R182. A yielding thread becomes ready again after 16 clocks. -/
  | yieldExpiry (t : Nat)
  /-- R268. A copy channel accepts a push, snapshots and checks template, record and gate. -/
  | copyAccept (core chan : Nat)
  /-- R270. A copy has written all its bytes and counts toward its batch. -/
  | copyComplete (id : Nat)
  /-- R269. A copy fails after acceptance and the pushing thread takes 0x0B. -/
  | copyFailure (id : Nat) (why : JobFail)
  /-- R274. The array's command queue accepts a matrix command after acceptance checks. -/
  | matrixCommandAccept (core : Nat)
  /-- R276. The array takes the oldest allowed command and reads its B binding and MROW. -/
  | matrixCommandStart (core : Nat)
  /-- R279. A row of C is written and MROW advances. -/
  | matrixRowComplete (core : Nat)
  /-- R285. An mpair side waits PAIRWAIT clocks alone and finishes PAIR_TIMEOUT. -/
  | pairwaitExpiry (core : Nat)
  /-- R281. A held mmar result is pushed as a queue entry frees. -/
  | mmarResultPush (gid k : Nat)
  /-- R306. The slice rasteriser accepts a rast command and checks its raster state. -/
  | rastAccept (slice : Nat)
  /-- R307. The rasteriser classifies one triangle and spawns its quads or software thread. -/
  | rastTriangle (slice : Nat)
  /-- R313. An oldest unreleased ticket exceeds WDOG_ROS and the context ends with 0x11. -/
  | wdogRosExpiry (slice id : Nat)
  /-- R322. The encoder has read every byte of a handed tile. -/
  | tileReadComplete (slice stream : Nat) (fail : Option JobFail)
  /-- R323. A frame finishes encoding and its completion entry is appended. -/
  | frameComplete (slice stream : Nat)
  /-- R350. A translation walk completes with a translation, fault or trap. -/
  | tableWalk (id : Nat)
  /-- R361. Run-ahead ends, the checkpoint is restored and a fault batch is sent. -/
  | runAheadEnd (gid : Nat)
  /-- R364. A fault batch is written to the fault queue once it has room. -/
  | faultBatchWrite (part : Nat)
  /-- R356. All agents acknowledge an invalidation and BUSY clears. -/
  | tinvComplete (slice : Nat)
  /-- R368. A thread's counted wait reaches WDOG_BAR and the context ends with 0x10. -/
  | wdogBarExpiry (t : Nat)
  /-- R368. A context makes no progress for WDOG_HANG clocks and ends with 0x11. -/
  | wdogHangExpiry (ctx : Nat)
  /-- R401. A reset finishes and the partition enters CONFIG_OPEN. -/
  | sliceResetComplete (slice : Nat)
  /-- R406. A pool engine finishes or fails a descriptor. -/
  | ceDescriptorComplete (e : Nat)
  /-- R330. The controller takes and checks a launch record. -/
  | launchRecordTake (part q : Nat)
  /-- R335. The scheduler offers free capacity to waiting clusters and places teams. -/
  | placementDecision (part : Nat)
  /-- R340. Every victim is saved and the claimant is placed. -/
  | preemptSaveComplete (part : Nat)
  /-- R336. A chosen rectangle closes after AGE_LIMIT clocks. -/
  | ageLimitExpiry (cluster : Nat)
  /-- R332. A grid ends, its bytes are written back and its completion pair written. -/
  | gridComplete (grid : Nat)
  /-- R196. MIGWAIT elapses and the migration stop is taken. -/
  | migwaitExpiry (team : Nat)
  /-- R343. A migrated team's state is installed and it resumes on the destination. -/
  | migrationTransferComplete (team : Nat)
  /-- R384. The interval elapses and the next core is drained for testing. -/
  | whetstonePassStart
  /-- R385. After 10 ms remaining teams are moved or saved. -/
  | whetstoneDrainTimeout
  /-- R386. The scan passes or fails the core. -/
  | whetstoneScanComplete (passed : Bool)
  /-- R386. A team cannot be placed within 100 ms and the pass is skipped. -/
  | whetstoneSkip
  /-- R416. The array scrub ends and the core reopens. -/
  | leaseScrubComplete (slice k : Nat)
  /-- R411. Every 1 us the power balance updates and throttling is decided. -/
  | powerMeterTick (slice : Nat)
  /-- R418. A pause completes when no team of the context is resident or saved. -/
  | pauseComplete (ctx : Nat)
  /-- R420. The new firmware image takes over the slice controller. -/
  | fwupdComplete
  /-- R423. The metadata flush ends and FLUSHING clears. -/
  | sealFlushComplete (slice : Nat)
  /-- R428. A sweep commits one line under the new counters. -/
  | sweepLineCommit (slice page : Nat)
  /-- R108. A fetched word or word sequence with a reserved major, minor, code, prefix or MBZ field raises 0x01 whatever the guard. -/
  | illegalInstruction (aux : Word)
  /-- R110. An instruction whose first word lies beyond the code image, or any of whose words lies on a page without X, raises 0x06 at its PC. -/
  | fetchProtection (addr : DWord)
  /-- R264. The engine accepts a tmpl command, checks its image and record, and updates the template state on every core before completion. -/
  | tmplAccept (core : Nat)
  /-- R293. A resmap set or clear acts on every core of the partition and is then accepted, which fixes the clock that divides old from new residency. -/
  | resmapAccept (part : Nat)
  /-- R321. The encoder lane accepts a fout command, writes D and hands over the tile or ends the frame. -/
  | foutAccept (slice : Nat)
  /-- R211. A cache writes back dirty bytes or drops clean lines at any clock. -/
  | cacheWriteback (lvl : CacheLvl) (unit line : Nat) (drop : Bool)
  /-- R282. A multiplier residue mismatch maps a spare column and recomputes the row. -/
  | residueMismatch (core half : Nat)
  /-- R320. A write to a stream's ENC_CFG configures or ends the stream. -/
  | encCfgWrite (fn : Func) (slice stream : Nat) (value : Word)
  /-- R365. A fault answer replays or cancels the records of a batch. -/
  | slcFresp (slice : Nat) (value : DWord)
  /-- R356. Invalidate translations of a virtual page range. -/
  | tinvInval (slice : Nat) (value : Word)
  /-- R357. Invalidate a range and write back, drop and unpin its frames. -/
  | tinvRelease (slice : Nat) (value : Word)
  /-- R356. Invalidate every translation of a context. -/
  | tinvInvalContext (slice : Nat) (value : Word)
  /-- R39. Package reset release runs the power-up sequence through slice configuration. -/
  | powerUp
  /-- R5. A write to a register without behaviour of its own, with locked, partial and reserved-value handling. -/
  | registerWrite (fn : Func) (bar off size : Nat) (value : DWord)
  /-- R399. Request CONFIG_LOCKED after binding and locked-register checks. -/
  | lock (slice : Nat)
  /-- R398. Request RUN from CONFIG_LOCKED or abandon a drain. -/
  | run (slice : Nat)
  /-- R400. Request DRAIN, optionally saving resident teams. -/
  | drain (slice : Nat) (save : Bool)
  /-- R401. Request a partition reset. -/
  | reset (slice : Nat)
  /-- R398. Remove power from the partition's slices. -/
  | powerOff (fn : Func) (slice : Nat)
  /-- R398. Power a slice and boot its controller to CONFIG_OPEN. -/
  | powerOn (fn : Func) (slice : Nat)
  /-- R403. Fuse or split slices into a partition. -/
  | partCmd (value : Word)
  /-- R405. Change ownership of a pool copy engine. -/
  | ceOwnWrite (e : Nat) (value : Word)
  /-- R406. Queue pool-engine descriptors as a system-scope release. -/
  | ceTailWrite (e : Nat) (value : Word)
  /-- R325. Create a context from its record. -/
  | contextCreate (slice : Nat) (value : Word)
  /-- R325. Reload a context's record copies, registers and entry table. -/
  | contextReload (slice : Nat) (value : Word)
  /-- R325. Destroy an idle context. -/
  | contextDestroy (slice : Nat) (value : Word)
  /-- R328. A doorbell write moves a work queue's tail. -/
  | doorbell (slice q size : Nat) (value : DWord)
  /-- R342. A core's temperature passes MIGTEMP and migration requests are set. -/
  | migtempPass (core : Nat) (temp : Int)
  /-- R395. A monitor takes a sample into its statistics. -/
  | monitorSample (slice src core ctx : Nat) (x : Int)
  /-- R393. Write a monitor's control, clearing statistics on a source or filter change. -/
  | monCtlWrite (slice n : Nat) (value : Word)
  /-- R393. Return a monitor's statistics to reset. -/
  | monClr (slice n : Nat)
  /-- R414. Lease an idle core's array to a context. -/
  | leaseGrant (slice : Nat) (value : Word)
  /-- R416. Reclaim a leased array, cutting its command. -/
  | leaseReclaim (slice k : Nat)
  /-- R412. Set a fabric guarantee, rejected on overcommit. -/
  | qosFabWrite (fn : Func) (slice : Nat) (value : Word)
  /-- R417. Advance TIME to a larger value. -/
  | timeSet (value : DWord)
  /-- R418. Pause a context and stop its VTIME. -/
  | pause (slice : Nat) (value : Word)
  /-- R418. Resume a paused context's VTIME and scheduling. -/
  | resume (slice : Nat) (value : Word)
  /-- R418. Set a paused context's VTIME. -/
  | slcVtvalWrite (slice : Nat) (value : DWord)
  /-- R418. Set a paused context's CLOCK. -/
  | slcCkvalWrite (slice : Nat) (value : DWord)
  /-- R420. Start verification and update of a slice's firmware. -/
  | fwupdGo (value : Word)
  /-- R423. Set the sealed data range size in CONFIG_OPEN without a world. -/
  | sealSizeWrite (fn : Func) (slice : Nat) (value : Word)
  /-- R423. Write back dirty counter lines and nodes of the metadata cache. -/
  | sealFlush (fn : Func) (slice : Nat) (value : Word)
  /-- R422. A sealed link flit is checked, retried or poisons its lines. -/
  | linkFlitReceive (link : LinkId) (tagOk : Bool) (lines : List Nat)
  /-- R36. A peer access through a Rosux Link inbound window is served or refused. -/
  | linkInboundAccess (port off : Nat) (acc : LinkAcc)
  /-- R430. Create a world with its keys on a partition. -/
  | worldCreate (value : Word)
  /-- R430. Destroy a world and discard its keys and sealed data. -/
  | worldDestroy (value : Word)
  /-- R441. Read and verify a sealing counter for diagnostics. -/
  | ctrread (fn : Func) (slice : Nat) (value : Word)
  /-- R441. Flip bits of a line's stored tag for testing. -/
  | tagflip (fn : Func) (slice : Nat) (value : Word)
  /-- R438. The security processor answers an SPDM request over DOE. -/
  | spdmRequest (req : SpdmReq)
  /-- R439. A world-owner session sets a COMPMASK or gate. -/
  | worldSessionChange (session first : Nat) (chg : SessChange)
  /-- R209. A host access by physical address to device memory goes through the home, waits for a resetting slice, or completes unsupported on a sealed range. -/
  | hostAccess (pa : Nat) (wr : Option (List Byte)) (size : Nat)
  /-- R36. A Rosux Link port becomes trained and keyed, or loses that state, changing LINK_ST.UP and whether peer addresses are backed. -/
  | linkUpChange (port : Nat) (up : Bool) (lanes : Nat)
  /-- R421. A UCIe or Rosux Link direction takes a new key before its 64-bit flit counter reaches 2^48. -/
  | linkKeyChange (link : LinkId)
  /-- R372. An uncorrectable error marks a storage sector, or one register of one lane, poisoned. -/
  | uncorrectableError (loc : ErrLoc)
  /-- R342. A core's temperature falls below MIGTEMP minus 5 degrees and its migration trigger re-arms. -/
  | migtempRearm (core : Nat) (temp : Int)
  /-- R39. Package reset is asserted or host or board power is removed, so the security processor and all worlds lose their state. -/
  | packageReset
deriving DecidableEq, Repr

end Sys2Proof
end

