-- ==== Sys2Proof/Config.lean ====
section
/-! DEFINITION. What the spec leaves to the implementation: constants with no body, so that no proof can see their values
(log 2, log 7 to log 12). -/

namespace Sys2Proof.Config

/-- Draws of open values, one per value of the counter `freeCtr` (log 2). -/
opaque freeValue : Nat → BitVec 64

/-- ffn results within the bounds of 09 R161, one per function, format (f16 or f32) and input bits (log 7). -/
opaque ffnResult : FfnFn → Bool → Nat → BitVec 32

/-- The set of a slice's deep cache that a physical line lies in, taken modulo the number of sets (27 R409, log 8). -/
opaque deepSet : Nat → Nat

/-- Whether the link peer answers an access to a peer address in a clock with an error (01 R36, log 8). -/
opaque peerRefuses : Nat → Nat → Bool

/-- AES-256 under the key a world (0: the device) holds for a compartment 0-7, or 8 for K_M, on a 128-bit block (29 R425, R430, log 9). -/
opaque aes256 : Nat → Nat → BitVec 128 → BitVec 128

/-- The SEC-DED codes of 29 R425: 64 check bits over a line, 8 over a tag (log 9). -/
opaque secdedLine : BitVec 512 → BitVec 64
opaque secdedTag : BitVec 56 → BitVec 8

/-- SHAKE256 with 64 bytes of output over a measured value, the previous digest included (29 R437, log 10). -/
opaque shake256 : BitVec 512 → Nat → BitVec 512

/-- The fused unique secret, ML-DSA-65 key pairs by seed, and signatures by secret key over a digest (29 R436, log 10). -/
opaque fusedSecret : BitVec 512
opaque mldsaKeys : BitVec 512 → KeyPair
opaque mldsaSign : BitVec 512 → BitVec 512 → BitVec 512

/-- The certificates that are made outside the device: the Ouvem root, the model's intermediate, and the identity's (29 R436, log 10). -/
opaque rootCert : Cert
opaque modelCert : Cert
opaque identityCert : BitVec 512 → Cert

/-- What else an answer to an SPDM request says, by draw (29 R438, log 10). -/
opaque spdmBody : SpdmReq → Nat → BitVec 512

/-- What the answer to a change that a world owner's session asks for says, by draw (29 R439, log 10). -/
opaque changeBody : SessChange → Nat → BitVec 512

/-- The encoder's frame size in bytes and its bitstream bytes, by stream, frame and draw (19 R320, log 11). -/
opaque frameBytes : Nat → Nat
opaque frameByte : Nat → Nat → BitVec 8

/-- Energy in nanojoules that a slice used in a microsecond, by draw (27 R411, log 12). -/
opaque energy : Nat → Nat

/-- Whether a firmware image at a host address carries a valid signature (27 R420, 29 R437, log 10). -/
opaque firmwareSigned : Nat → Nat → Bool

end Sys2Proof.Config
end

