-- ==== Sys2Proof/Machine/Float.lean ====
section
/-! DEFINITION. Number formats and exact arithmetic (07 R121-R137): decoding, the rounding helper, float operations,
conversions and the exact accumulators. Nothing here depends on the machine's state. -/

namespace Sys2Proof.Machine

/-- The shape of a floating format (07 R121). `special` is how E all ones is read: 0 infinities and NaNs, 1 as e4m3, 2 none. -/
structure Fmt where
  ebits : Nat
  fbits : Nat
  bias : Nat
  special : Nat
deriving DecidableEq, Repr

def f64 : Fmt := ⟨11, 52, 1023, 0⟩
def f32 : Fmt := ⟨8, 23, 127, 0⟩
def f16 : Fmt := ⟨5, 10, 15, 0⟩
def bf16 : Fmt := ⟨8, 7, 127, 0⟩
def e4m3 : Fmt := ⟨4, 3, 7, 1⟩
def e5m2 : Fmt := ⟨5, 2, 15, 0⟩
def e2m1 : Fmt := ⟨2, 1, 1, 2⟩

/-- Width of the format in bits. -/
def Fmt.width (f : Fmt) : Nat := 1 + f.ebits + f.fbits

/-- Encoding of the canonical NaN (07 R121, R129); nan(e2m1) is +0 (R126). -/
def Fmt.nan (f : Fmt) : Nat :=
  match f.special with
  | 0 => (2 ^ f.ebits - 1) * 2 ^ f.fbits + 2 ^ (f.fbits - 1)
  | 1 => 2 ^ (f.ebits + f.fbits) - 1
  | _ => 0

/-- Encoding of the largest finite value (07 R121). -/
def Fmt.maxFinite (f : Fmt) : Nat :=
  match f.special with
  | 0 => (2 ^ f.ebits - 1) * 2 ^ f.fbits - 1
  | 1 => 2 ^ (f.ebits + f.fbits) - 2
  | _ => 2 ^ (f.ebits + f.fbits) - 1

/-- Encoding of +infinity, of a format that has one. -/
def Fmt.inf (f : Fmt) : Nat := (2 ^ f.ebits - 1) * 2 ^ f.fbits

/-- The sign bit placed on a magnitude encoding. -/
def Fmt.signed (f : Fmt) (neg : Bool) (m : Nat) : Nat := if neg then m + 2 ^ (f.ebits + f.fbits) else m

/-- An exact value: NaN, an infinity, or sign and the rational `num / den`. -/
inductive Fv where
  | nan
  | inf (neg : Bool)
  | fin (neg : Bool) (num den : Nat)
deriving DecidableEq, Repr

/-- The value `m × 2^(p - q)`. -/
def Fv.scaled (neg : Bool) (m p q : Nat) : Fv :=
  if q ≤ p then .fin neg (m * 2 ^ (p - q)) 1 else .fin neg m (2 ^ (q - p))

def Fmt.field (f : Fmt) (x : Nat) : Nat := x % 2 ^ f.fbits
def Fmt.expo (f : Fmt) (x : Nat) : Nat := x / 2 ^ f.fbits % 2 ^ f.ebits
def Fmt.neg (f : Fmt) (x : Nat) : Bool := x / 2 ^ (f.ebits + f.fbits) % 2 == 1

/-- An encoding is subnormal: E = 0 and F not 0. -/
def Fmt.isSub (f : Fmt) (x : Nat) : Bool := f.expo x == 0 && f.field x != 0

/-- An encoding is a NaN (07 R121). -/
def Fmt.isNan (f : Fmt) (x : Nat) : Bool :=
  match f.special with
  | 0 => f.expo x == 2 ^ f.ebits - 1 && f.field x != 0
  | 1 => x % 2 ^ (f.ebits + f.fbits) == 2 ^ (f.ebits + f.fbits) - 1
  | _ => false

/-- The value of an encoding (07 R121). -/
def Fmt.value (f : Fmt) (x : Nat) : Fv :=
  if f.isNan x then .nan
  else if f.special = 0 ∧ f.expo x = 2 ^ f.ebits - 1 then .inf (f.neg x)
  else if f.expo x = 0 then .scaled (f.neg x) (f.field x) 1 (f.bias + f.fbits)
  else .scaled (f.neg x) (2 ^ f.fbits + f.field x) (f.expo x) (f.bias + f.fbits)

/-- fread of 09 R155: the value of an operand, with subnormals read as zero when flushing. -/
def Fmt.read (f : Fmt) (flush : Bool) (x : Nat) : Fv :=
  if flush && f.isSub x then .fin (f.neg x) 0 1 else f.value x

/-- A rounding mode; stochastic rounding carries the 24 drawn bits (07 R128). -/
inductive Mode where
  | rne | rz | ru | rd | rna
  | rs (draw : Nat)
deriving DecidableEq, Repr

/-- floor(log2(num / den)) for positive num, biased by `2^12` so that it stays a natural number. -/
def ilog2 (num den : Nat) : Nat :=
  let e := 4096 + Nat.log2 num - Nat.log2 den
  if (if 4096 ≤ e then den * 2 ^ (e - 4096) ≤ num else den ≤ num * 2 ^ (4096 - e)) then e else e - 1

/-- Whether a magnitude whose remainder above the lower neighbour `lo` is `rem / unit` rounds up (07 R125). -/
def roundsUp (mode : Mode) (neg : Bool) (lo rem unit : Nat) : Bool :=
  match mode with
  | .rne => decide (unit < 2 * rem) || (decide (2 * rem = unit) && lo % 2 == 1)
  | .rna => decide (unit ≤ 2 * rem)
  | .rz => false
  | .ru => decide (0 < rem) && !neg
  | .rd => decide (0 < rem) && neg
  | .rs d => decide (d * unit < rem * 2 ^ 24)

/-- overflow of 07 R126: the encoding; `infinite` tells an infinite x from a finite one. -/
def Fmt.overflow (f : Fmt) (neg : Bool) (mode : Mode) (sat infinite : Bool) : Nat :=
  match f.special with
  | 2 => f.signed neg f.maxFinite
  | 1 => if sat then f.signed neg f.maxFinite else f.nan
  | _ =>
    if sat then f.signed neg f.maxFinite
    else if infinite then f.signed neg f.inf
    else match mode with
      | .rz => f.signed neg f.maxFinite
      | .ru => if neg then f.signed neg f.maxFinite else f.inf
      | .rd => if neg then f.signed neg f.inf else f.maxFinite
      | _ => f.signed neg f.inf

/-- round of 07 R125, answering the encoding. The magnitude is an integer multiple `n` of the spacing `2^(e - fbits)`,
so its encoding is `n` plus the exponent field above `emin`. -/
def Fmt.round (f : Fmt) (mode : Mode) (sat : Bool) (x : Fv) : Nat :=
  match x with
  | .nan => f.nan
  | .inf s => f.overflow s mode sat true
  | .fin s num den =>
    if num = 0 then f.signed s 0
    else
      let emin := 4097 - f.bias
      let e := Nat.max (ilog2 num den) emin
      -- spacing 2^(e - 4096 - fbits)
      let up := e - (4096 + f.fbits)
      let down := (4096 + f.fbits) - e
      let unit := den * 2 ^ up
      let n := num * 2 ^ down
      let lo := n / unit
      let y := if roundsUp mode s lo (n % unit) unit then lo + 1 else lo
      let enc := (e - emin) * 2 ^ f.fbits + y
      if f.maxFinite < enc then f.overflow s mode sat false else f.signed s enc

/-- A subnormal result replaced by zero of its sign when flushing (07 R130). -/
def Fmt.flushed (f : Fmt) (flush : Bool) (x : Nat) : Nat :=
  if flush && f.isSub x then f.signed (f.neg x) 0 else x

/-- fround of 09 R155. -/
def Fmt.fround (f : Fmt) (mode : Mode) (sat flush : Bool) (y : Fv) : Nat :=
  f.flushed flush (f.round mode sat y)

/-! Exact operations (IEEE 754-2019, with the zero signs of 07 R127; `rd` tells that the mode is RD). -/

def Fv.neg : Fv → Fv
  | .nan => .nan
  | .inf s => .inf (!s)
  | .fin s n d => .fin (!s) n d

/-- The sum of two signed rationals; an exact zero of opposite signs is +0, or -0 under RD. -/
def finAdd (rd : Bool) (s : Bool) (n d : Nat) (t : Bool) (m c : Nat) : Fv :=
  let l := Nat.lcm d c
  let a := n * (l / d)
  let b := m * (l / c)
  if s = t then .fin s (a + b) l
  else if b < a then .fin s (a - b) l
  else if a < b then .fin t (b - a) l
  else .fin rd 0 1

def Fv.add (rd : Bool) : Fv → Fv → Fv
  | .nan, _ => .nan
  | _, .nan => .nan
  | .inf s, .inf t => if s = t then .inf s else .nan
  | .inf s, .fin _ _ _ => .inf s
  | .fin _ _ _, .inf t => .inf t
  | .fin s n d, .fin t m c => finAdd rd s n d t m c

def Fv.sub (rd : Bool) (x y : Fv) : Fv := x.add rd y.neg

def Fv.mul : Fv → Fv → Fv
  | .nan, _ => .nan
  | _, .nan => .nan
  | .inf s, .inf t => .inf (s != t)
  | .inf s, .fin t m _ => if m = 0 then .nan else .inf (s != t)
  | .fin s n _, .inf t => if n = 0 then .nan else .inf (s != t)
  | .fin s n d, .fin t m c => .fin (s != t) (n * m) (d * c)

def Fv.div : Fv → Fv → Fv
  | .nan, _ => .nan
  | _, .nan => .nan
  | .inf _, .inf _ => .nan
  | .inf s, .fin t _ _ => .inf (s != t)
  | .fin s _ _, .inf t => .fin (s != t) 0 1
  | .fin s n d, .fin t m c =>
    if m = 0 then (if n = 0 then .nan else .inf (s != t)) else .fin (s != t) (n * c) (d * m)

/-- floor(√n), one result bit at a time; `fuel` bounds the number of result bits. -/
def isqrt (fuel n : Nat) : Nat :=
  match fuel with
  | 0 => 0
  | k + 1 =>
    let r := isqrt k (n / 4)
    if (2 * r + 1) * (2 * r + 1) ≤ n then 2 * r + 1 else 2 * r

/-- The square root to enough places that rounding it into a format of `fb` fraction bits gives the correctly rounded root:
exact when the root is, otherwise the middle of an interval no rounding boundary lies in. -/
def Fv.sqrt (fb : Nat) : Fv → Fv
  | .nan => .nan
  | .inf s => if s then .nan else .inf false
  | .fin s n d =>
    if n = 0 then .fin s 0 1
    else if s then .nan
    else
      -- e is the exponent halved and biased by 2048; the scaled root has at least fb + 4 bits
      let e := ilog2 n d / 2
      let t := fb + 4 + 2048
      let up := t - e
      let down := e - t
      let a := n * 4 ^ up
      let b := d * 4 ^ down
      let r := isqrt (fb + 8) (a / b)
      let num := if r * r * b = a then 2 * r else 2 * r + 1
      .fin false (num * 2 ^ down) (2 * 2 ^ up)

/-- Numeric order on numbers: `none` when an operand is NaN; otherwise whether x < y. -/
def Fv.lt? : Fv → Fv → Option Bool
  | .nan, _ => none
  | _, .nan => none
  | .inf s, .inf t => some (s && !t)
  | .inf s, .fin _ _ _ => some s
  | .fin _ _ _, .inf t => some (!t)
  | .fin s n d, .fin t m c =>
    let a := n * c
    let b := m * d
    some (if a = 0 ∧ b = 0 then false
      else match s, t with
        | true, false => true
        | false, true => false
        | false, false => decide (a < b)
        | true, true => decide (b < a))

/-- lt and eq of 09 R147: false when either operand is NaN. -/
def Fv.lt (x y : Fv) : Bool := (Fv.lt? x y).getD false
def Fv.eq (x y : Fv) : Bool :=
  match Fv.lt? x y, Fv.lt? y x with
  | some false, some false => true
  | _, _ => false

def Fv.isNeg : Fv → Bool
  | .nan => false
  | .inf s => s
  | .fin s _ _ => s

/-- minnum of 09 R156: -0 is below +0. -/
def Fv.minnum (x y : Fv) : Fv :=
  match x, y with
  | .nan, y => y
  | x, .nan => x
  | x, y => if x.lt y then x else if y.lt x then y else if x.isNeg then x else y

/-- maxnum of 09 R156. -/
def Fv.maxnum (x y : Fv) : Fv :=
  match x, y with
  | .nan, y => y
  | x, .nan => x
  | x, y => if x.lt y then y else if y.lt x then x else if x.isNeg then y else x

/-- x × 2^n, n signed (09 R158). -/
def Fv.scale (x : Fv) (n : Int) : Fv :=
  match x with
  | .fin s a d =>
    -- beyond 2^1024 in either direction the rounded result no longer changes
    let k := if 1024 < n then 1024 else if n < -1024 then -1024 else n
    if 0 ≤ k then .fin s (a * 2 ^ k.toNat) d else .fin s a (d * 2 ^ (-k).toNat)
  | v => v

/-- class of 09 R157: the number of its one bit. -/
def fclassBit (flush : Bool) (x : Nat) : Nat :=
  let n := f32.neg x
  if f32.isNan x then (if x / 2 ^ 22 % 2 = 0 then 8 else 9)
  else if f32.expo x = 255 then (if n then 0 else 7)
  else if f32.expo x = 0 then
    (if f32.field x = 0 || flush then (if n then 3 else 4) else (if n then 2 else 5))
  else (if n then 1 else 6)

/-! Integers. -/

def sext (w x : Nat) : Int := if x % 2 ^ w < 2 ^ (w - 1) then (x % 2 ^ w : Nat) else ((x % 2 ^ w : Nat) : Int) - 2 ^ w
/-- The low `w` bits of an integer. -/
def low (w : Nat) (x : Int) : Nat := (x % (2 ^ w : Nat)).toNat

def clampI (lo hi x : Int) : Int := if x < lo then lo else if hi < x then hi else x

/-! Conversions (07 R131, 09 R162, R163). -/

/-- What a number type is: a float format, or an integer of a width with or without a sign. -/
inductive TyShape where
  | flt (f : Fmt)
  | int (w : Nat) (signed : Bool)
deriving DecidableEq, Repr

def shapeOf : NumTy → TyShape
  | .f64 => .flt f64
  | .f32 => .flt f32
  | .f16 => .flt f16
  | .bf16 => .flt bf16
  | .e4m3 => .flt e4m3
  | .e5m2 => .flt e5m2
  | .e2m1 => .flt e2m1
  | .s8 => .int 8 true
  | .z8 => .int 8 false
  | .s16 => .int 16 true
  | .z16 => .int 16 false
  | .s32 => .int 32 true
  | .z32 => .int 32 false
  | .s64 => .int 64 true
  | .z64 => .int 64 false

def intMin (w : Nat) (signed : Bool) : Int := if signed then -(2 ^ (w - 1) : Int) else 0
def intMax (w : Nat) (signed : Bool) : Int := if signed then 2 ^ (w - 1) - 1 else 2 ^ w - 1

/-- An exact finite value rounded to an integer. -/
def roundInt (mode : Mode) (neg : Bool) (num den : Nat) : Int :=
  let lo := num / den
  let m := if roundsUp mode neg lo (num % den) den then lo + 1 else lo
  if neg then -(m : Int) else m

/-- An integer as an exact value. -/
def Fv.ofInt (x : Int) : Fv := .fin (decide (x < 0)) x.natAbs 1

/-- The result of a conversion as the integer placed in a register of the destination's width (09 R163):
bits for a float, a sign- or zero-extended value for an integer. -/
def cvtElem (dst src : NumTy) (mode : Mode) (sat flush : Bool) (x : Nat) : Int :=
  match shapeOf src, shapeOf dst with
  | .flt a, .flt b => (b.fround mode (sat && decide (b.width < a.width)) flush (a.read flush x) : Nat)
  | .flt a, .int w sg =>
    let bad : Int := if sg then intMin w true else intMax w false
    match a.read flush x with
    | .nan => if sat then 0 else bad
    | .inf s => if sat then (if s then intMin w sg else intMax w sg) else bad
    | .fin s n d =>
      let r := roundInt mode s n d
      if intMin w sg ≤ r ∧ r ≤ intMax w sg then r
      else if sat then clampI (intMin w sg) (intMax w sg) r else bad
  | .int w sg, .flt b =>
    (b.fround mode sat flush (.ofInt (if sg then sext w x else (x % 2 ^ w : Nat))) : Nat)
  | .int w sg, .int v tg =>
    let n : Int := if sg then sext w x else (x % 2 ^ w : Nat)
    if sat then clampI (intMin v tg) (intMax v tg) n
    else if tg then sext v (low v n) else (low v n : Nat)

/-! Block sums of the matrix arrays (07 R133) and dot2 (09 R160). -/

/-- A sum with the special values of 07 R133: NaN or infinities of both signs give NaN, otherwise an infinity stands. -/
def exactSum (rd : Bool) (xs : List Fv) : Fv :=
  match xs with
  | [] => .fin false 0 1
  | x :: r => r.foldl (Fv.add rd) x

/-! Exact accumulators (07 R135-R137), as the little-endian number of their bytes. -/

/-- Which accumulator: f64 (320 bytes, body 2,176 bits) or f32 (64 bytes, body 320 bits). -/
structure AccKind where
  code : Nat
  bytes : Nat
  bodyBits : Nat
  wexp : Nat
deriving DecidableEq, Repr

def acc64 : AccKind := ⟨1, 320, 2176, 1074⟩
def acc32 : AccKind := ⟨2, 64, 320, 149⟩

/-- The parts of an accumulator (07 R135). -/
structure Acc where
  pinf : Bool
  ninf : Bool
  nan : Bool
  ovf : Bool
  count : Nat
  body : Nat
deriving DecidableEq, Repr

/-- KIND as found in an object's bytes. -/
def accKindField (obj : Nat) : Nat := obj / 2 ^ 8 % 16

def AccKind.read (_ : AccKind) (obj : Nat) : Acc :=
  { pinf := obj % 2 == 1, ninf := obj / 2 % 2 == 1, nan := obj / 4 % 2 == 1, ovf := obj / 8 % 2 == 1,
    count := obj / 2 ^ 16 % 2 ^ 48, body := obj / 2 ^ 64 }

def bit (b : Bool) : Nat := if b then 1 else 0

def AccKind.write (k : AccKind) (a : Acc) : Nat :=
  bit a.pinf + 2 * bit a.ninf + 4 * bit a.nan + 8 * bit a.ovf + k.code * 2 ^ 8 + a.count % 2 ^ 48 * 2 ^ 16
    + a.body % 2 ^ k.bodyBits * 2 ^ 64

/-- The MBZ bits and bytes of the object are zero and KIND is right. -/
def AccKind.ok (k : AccKind) (obj : Nat) : Bool :=
  obj / 16 % 16 == 0 && obj / 2 ^ 12 % 16 == 0 && accKindField obj == k.code && obj / 2 ^ (64 + k.bodyBits) == 0

def cap48 (n : Nat) : Nat := if 2 ^ 48 - 1 < n then 2 ^ 48 - 1 else n

/-- The body plus an integer, modulo the width, with OVF when the exact result leaves the range. -/
def AccKind.addBody (k : AccKind) (a : Acc) (x : Int) : Acc :=
  let s := sext k.bodyBits a.body + x
  let out := decide (s < -(2 ^ (k.bodyBits - 1) : Int)) || decide ((2 ^ (k.bodyBits - 1) : Int) ≤ s)
  { a with body := low k.bodyBits s, ovf := a.ovf || out }

/-- add or subtract one value (07 R136). -/
def AccKind.add (k : AccKind) (a : Acc) (x : Fv) : Acc :=
  let a1 := { a with count := cap48 (a.count + 1) }
  match x with
  | .nan => { a1 with nan := true }
  | .inf s => if s then { a1 with ninf := true } else { a1 with pinf := true }
  | .fin s n d =>
    let m := n * 2 ^ k.wexp / d
    k.addBody a1 (if s then -(m : Int) else m)

/-- merge a into b (07 R136). -/
def AccKind.merge (k : AccKind) (a b : Acc) : Acc :=
  let s := k.addBody b (sext k.bodyBits a.body)
  { s with pinf := a.pinf || b.pinf, ninf := a.ninf || b.ninf, nan := a.nan || b.nan,
           ovf := a.ovf || s.ovf, count := cap48 (a.count + b.count) }

/-- The rounding read (07 R137). -/
def AccKind.rnd (k : AccKind) (a : Acc) (f : Fmt) (mode : Mode) : Nat :=
  if a.nan || (a.pinf && a.ninf) then f.nan
  else if a.pinf then f.inf
  else if a.ninf then f.signed true f.inf
  else if a.ovf then f.nan
  else
    let v := sext k.bodyBits a.body
    if v = 0 then 0 else f.round mode false (.fin (decide (v < 0)) v.natAbs (2 ^ k.wexp))

end Sys2Proof.Machine
end

