-- ==== Sys2Proof/Machine/Sparse.lean ====
section
/-! DEFINITION. Finite maps as sorted lists of (key, value) pairs, in one canonical form: keys strictly rising and, for the maps
with a default value, no entry equal to the default. Equal maps are then equal lists. -/

namespace Sys2Proof.Machine

/-- A finite map from numbers, sorted by key. -/
abbrev Sp (α : Type) := List (Nat × α)

/-- The entry at a key. -/
def spGet {α : Type} (m : Sp α) (k : Nat) : Option α :=
  match m with
  | [] => none
  | (j, v) :: r => if j = k then some v else if k < j then none else spGet r k

/-- Insert or replace an entry. -/
def spPut {α : Type} (m : Sp α) (k : Nat) (v : α) : Sp α :=
  match m with
  | [] => [(k, v)]
  | (j, w) :: r => if k < j then (k, v) :: (j, w) :: r else if j = k then (k, v) :: r else (j, w) :: spPut r k v

/-- Remove an entry. -/
def spDel {α : Type} (m : Sp α) (k : Nat) : Sp α :=
  match m with
  | [] => []
  | (j, w) :: r => if j = k then r else if k < j then (j, w) :: r else (j, w) :: spDel r k

/-- Replace the entry at a key by a function of it; an absent entry stays absent. -/
def spMod {α : Type} (m : Sp α) (k : Nat) (f : α → α) : Sp α :=
  m.map (fun e => if e.1 = k then (e.1, f e.2) else e)

/-- Read of a map with a default value. -/
def spRead {α : Type} (d : α) (m : Sp α) (k : Nat) : α := (spGet m k).getD d

/-- Write of a map with a default value: writing the default removes the entry. -/
def spWrite {α : Type} [DecidableEq α] (d : α) (m : Sp α) (k : Nat) (v : α) : Sp α :=
  if v = d then spDel m k else spPut m k v

/-- Keys strictly rising, all above `lo`. -/
def spRising {α : Type} (lo : Option Nat) : Sp α → Bool
  | [] => true
  | (k, _) :: r => (match lo with | none => true | some l => decide (l < k)) && spRising (some k) r

/-- The canonical form of a map with a default value. -/
def spWf {α : Type} [DecidableEq α] (d : α) (m : Sp α) : Bool := spRising none m && m.all (fun e => decide (e.2 ≠ d))

/-- The numbers `a, a + 1, …` of a range. -/
def upto (a n : Nat) : List Nat := (List.range n).map (a + ·)

end Sys2Proof.Machine
end

