-- ==== Sys2Proof/Machine/State.lean ====
section
/-! DEFINITION. The state of the machine as plain data, and the state after reset.
Records are reached through sparse maps: cores by 16 × slice + logical position, contexts by 1024 × FIRST + number,
teams, clusters and grids by handle, groups by 65536 × team + GROUP, threads by 32 × group + LANE (log 1). -/

namespace Sys2Proof.Machine

/-! Stops of the model. No instruction or event of the spec ends in one of them (NOTES.md, Stops). -/

/-- Faults of the model. -/
inductive Fault where
  /-- Raised by no meaning: every row of the table ends in a next state. Safe: the machine would stop where the hardware goes on. -/
  | impossible
deriving DecidableEq, Repr

/-- Refusals of the model. -/
inductive Refusal where
  /-- An instruction whose meaning is not written, by its mnemonic. Raised by a refused arm of exec only. Safe: the machine stops. -/
  | notModelled (mnemonic : String)
deriving DecidableEq, Repr

/-! Threads and groups (03 R40, R57, R75). -/

/-- A trap cause: code, TRAPADDR and TRAPAUX (11 R170, R198). -/
structure Cause where
  code : Nat
  addr : DWord := 0
  aux : Word := 0
deriving DecidableEq, Repr

/-- A cause found after issue, with the PC of the instruction that caused it (05 R101). -/
structure Deferred where
  cause : Cause
  pc : Word
deriving DecidableEq, Repr

/-- Where a phaser lies: SPAD of a team at an offset, or global memory at a physical address (11 R183). -/
inductive PhLoc where
  | spad (team off : Nat)
  | glb (pa : Nat)
deriving DecidableEq, Repr

/-- What a thread waits for (03 R75). `retry` is a wait whose condition is tested again at each attempt to issue. -/
inductive Wait where
  | none
  | mask (k : Nat)
  | bar
  | clbar
  | phaser (loc : PhLoc) (phase : Word) (p : Nat)
  | collective
  | fullEmpty (seq : Nat)
  | retry
  | migpt
  | ctlw
  | spawn
  | translate
  | engine
deriving DecidableEq, Repr

/-- An entry of a queue register: `val` is none while it is reserved and not filled (05 R89). -/
structure QEnt where
  k : Nat
  id : Nat
  val : Option DWord
  /-- a job's result: its pop is an acquire at the job's scope (13 R232) -/
  acq : Option Scope := none
deriving DecidableEq, Repr

/-- A scoreboard bit: operation `op` will write register (or predicate) `n` (03 R45). -/
structure SbEnt where
  op : Nat
  isPred : Bool
  n : Nat
deriving DecidableEq, Repr

/-- A sealed batch of copies: number, the copies not finished, and the scopes of those that have (11 R192; 13 R229). -/
structure Batch where
  num : Word
  copies : List Nat
  scopes : List Scope := []
deriving DecidableEq, Repr

/-- A thread (03 R40; 11 R170, R191; 07 R128; 23 R360). Registers, index registers: absent = 0. -/
structure Thread where
  pc : Word := 0
  regs : Sp Word := []
  preds : BitVec 8 := 0
  xs : Sp Word := []
  qs : List QEnt := []
  link : Word := 0
  seed : Word := 0
  trapcode : Word := 0
  trappc : Word := 0
  trapaddr : DWord := 0
  trapaux : Word := 0
  handler : Bool := false
  ldc : Nat := 0
  stc : Nat := 0
  batc : Nat := 0
  engc : Nat := 0
  resc : Nat := 0
  nextBatch : Word := 0
  openCopies : List Nat := []
  batches : List Batch := []
  /-- scopes of finished copies not sealed yet, and of the jobs counted in BATC and in ENGC that no waitc has acquired (13 R232) -/
  openDone : List Scope := []
  batcDone : List Scope := []
  engcDone : List Scope := []
  /-- the acquire that the thread's first instruction makes (03 R67; 21 R331) -/
  startAcq : Option Scope := none
  wait : Wait := .none
  waitLen : Nat := 1
  waitWord : Word := 0
  wdogBar : Nat := 0
  readyAt : Nat := 0
  since : Nat := 0
  look : List (Nat × Nat) := []
  sb : List SbEnt := []
  ticket : Option Nat := none
  deferred : List Deferred := []
  poisonRegs : List Nat := []
  acqPending : List Nat := []
  raEnded : Bool := false
  unkRegs : List Nat := []
  unkPreds : List Nat := []
  unkXs : List Nat := []
deriving DecidableEq, Repr

/-- A queue binding (11 R188). -/
structure QBind where
  kind : Nat
  chan : Nat
deriving DecidableEq, Repr

/-- A record to be written to the fault queue (23 R363). -/
structure FRec where
  va : Nat
  kind : Nat
  acc : Nat
  ra : Bool
  pc : Word
deriving DecidableEq, Repr

/-- A parked group: the checkpoint of its threads, masks and MROW, what it gathered, and its batch once sent (23 R359-R361). -/
structure Park where
  threads : Sp Thread := []
  masks : Sp Word := []
  binds : Sp QBind := []
  pages : List FRec := []
  translated : List Nat := []
  issued : Nat := 0
  running : Bool := true
  batch : Option Nat := none
  /-- masks of unknown value -/
  unkMasks : List Nat := []
deriving DecidableEq, Repr

/-- A group (03 R57; 11 R188; 17 R278, R280). Masks: absent = 0. -/
structure Group where
  team : Nat := 0
  idx : Nat := 0
  slot : Nat := 0
  masks : Sp Word := []
  /-- bits that join, and that leave and exit, have changed in this clock (11 R175) -/
  joined : Sp Word := []
  left : Sp Word := []
  mrow : Nat := 0
  bword : Option DWord := none
  binds : Sp QBind := []
  results : List (Nat × Nat × DWord × Scope) := []
  cancel : List Nat := []
  park : Option Park := none
  bin : Option Nat := none
  launched : Nat := 32
  /-- the team whose move this group's matrix pair has stopped it for (03 R77; 21 R344) -/
  halt : Option Nat := none
deriving DecidableEq, Repr

/-- A migration request and its destination (21 R343); `saved` while the team's state is being carried. -/
structure Mig where
  dest : Nat
  since : Nat
  moving : Bool
deriving DecidableEq, Repr

/-- Where a team stands with stops: resident, stopping for a save, or saved in a block of the save area (21 R340, R341). -/
inductive TeamState where
  | resident
  | stopping
  | saved (base len : Nat)
deriving DecidableEq, Repr

/-- Local-store needs of a team in bytes (21 R329). -/
structure Sizes where
  spad : Nat := 0
  wbuf : Nat := 0
  abuf : Nat := 0
  cbuf : Nat := 0
deriving DecidableEq, Repr

/-- A spawn record: entry, arguments, and what the child's grid, ticket and parent are (03 R62, 19 R307). -/
structure SpawnRec where
  entry : Word
  args : List Word
  grid : Nat
  ctx : Nat
  ticketKey : Option (Nat × Nat) := none
  /-- while it waits: its thread, whether it goes through the task queue, whether it is one of a quad's four, and its raster command with
  the group that issued it -/
  parent : Option Nat := none
  hw : Bool := false
  quad : Bool := false
  raster : Option (Nat × Nat) := none
deriving DecidableEq, Repr

/-- A spawn bin (03 R63, R64). -/
structure Bin where
  no : Nat
  entry : Word
  ctx : Nat
  team : Nat
  slot : Nat
  first : Nat
  kids : List SpawnRec
  quads : Bool := false
deriving DecidableEq, Repr

/-- A full/empty load waiting at a bank: `got` is the data once it has been served (13 R206). -/
structure FeWait where
  id : Nat
  tid : Nat
  sp : Nat
  off : Nat
  n : Nat
  consume : Bool
  got : Option Nat
deriving DecidableEq, Repr

/-- A team (03 R40-R43, 13 R202, R205, R212). `bytes`, `full`, `poison` are keyed by space number × 2^24 + offset
(byte, 16-byte granule, 32-byte sector). -/
structure Team where
  cluster : Nat := 0
  grid : Nat := 0
  ctx : Nat := 0
  idx : Nat := 0
  core : Nat := 0
  corelog : Nat := 0
  slicelog : Nat := 0
  clpos : Nat := 0
  nregs : Nat := 8
  nthreads : Nat := 32
  sizes : Sizes := {}
  bytes : Sp Byte := []
  full : List Nat := []
  feq : List FeWait := []
  poison : List Nat := []
  acqStamp : Nat := 0
  sysStamp : Nat := 0
  state : TeamState := .resident
  mig : Option Mig := none
  binEntry : Option Word := none
  nextGroup : Nat := 0
  /-- the open bins of a stopped bin team, `first` holding the clocks since the first child -/
  carried : List Bin := []
deriving DecidableEq, Repr

/-- Phase of a cluster's life (21 R333-R340, 25 R376). -/
inductive ClState where
  | waiting
  | running
  | stopping
  | stopped
  | killed
deriving DecidableEq, Repr

/-- Capacity of a core, or a need of it: group slots, registers, local stores (03 R42). -/
structure Cap where
  groups : Nat := 0
  regs : Nat := 0
  sizes : Sizes := {}
deriving DecidableEq, Repr

/-- A cluster of a launch, or a bin team's cluster of one (03 R65). `chosen` is the origin stop 16 × Y + X of its chosen rectangle and
the clock at which it was set; `held` is the capacity reserved for it since, by core (21 R335). -/
structure Cluster where
  grid : Nat := 0
  ctx : Nat := 0
  idx : Word := 0
  bin : Bool := false
  w : Nat := 1
  h : Nat := 1
  teams : List Nat := []
  state : ClState := .waiting
  chosen : Option (Nat × Nat) := none
  held : Sp Cap := []
  closed : Bool := false
  outside : Bool := false
  relaunches : Nat := 0
  killing : Bool := false
deriving DecidableEq, Repr

/-- A launch record as read (21 R329). -/
structure Launch where
  entry : Word := 0
  threads : Nat := 32
  cw : Nat := 1
  ch : Nat := 1
  nregs : Nat := 8
  clusters : Nat := 1
  deadlineClass : Bool := false
  relaunch : Bool := false
  migrate : Bool := false
  serial : Bool := false
  weight : Nat := 0
  deadline : Nat := 0
  sizes : Sizes := {}
  foot0 : Nat × Nat := (0, 0)
  foot1 : Nat × Nat := (0, 0)
  doneAddr : Nat := 0
  doneVal : DWord := 0
  args : List Word := []
deriving DecidableEq, Repr

/-- A grid (03 R40, 21 R332, R333). -/
structure Grid where
  ctx : Nat := 0
  part : Nat := 0
  queue : Nat := 0
  number : Word := 0
  lrec : Launch := {}
  passedAt : Nat := 0
  nextCluster : Nat := 0
  ended : Nat := 0
  service : Nat := 0
  relaunches : Nat := 0
  /-- 0 running, 1 ended and its pair not yet written. -/
  phase : Nat := 0
  /-- the launch taken before it from its queue; 0 where that was rejected or is the first (21 R333) -/
  prev : Nat := 0
deriving DecidableEq, Repr

/-! Caches and translation (13 R208-R213, 23 R353). -/

/-- A 64-byte line of an L1, constant cache or cluster cache. `refresh` marks the clean bytes for refresh (13 R219); `comp` is the
compartment of the mapping it was last filled or written through (29 R432); `victim` marks the next line to evict (15 R238). -/
structure Line where
  data : BitVec 512 := 0
  valid : BitVec 64 := 0
  dirty : BitVec 64 := 0
  fillers : List Nat := []
  writers : List Nat := []
  refresh : Bool := false
  poison : BitVec 2 := 0
  stamp : Nat := 0
  comp : Nat := 0
  victim : Bool := false
deriving DecidableEq, Repr

/-- A line of a deep cache (13 R208, 15 R238, 27 R409, 29 R431). `ctx` allocated it, `writers` are the contexts whose dirty bytes
it holds, `pins` the pins on it, each by its context and the cluster that asked for it. -/
structure DLine where
  data : BitVec 512 := 0
  dirty : BitVec 64 := 0
  poison : BitVec 2 := 0
  stamp : Nat := 0
  ctx : Nat := 0
  writers : List Nat := []
  pins : List (Nat × Nat) := []
  world : Nat := 0
  comp : Nat := 0
  use : Nat := 0
deriving DecidableEq, Repr

/-- A translation held by a TLB or a last-page register (23 R353). -/
structure TlbEnt where
  ctx : Nat := 0
  base : Nat := 0
  size : Nat := 65536
  leaf : DWord := 0
  leafAddr : Nat := 0
deriving DecidableEq, Repr

/-! The front end (03 R46-R49, R63, R64; 27 R408). -/

/-- An issue-table entry (03 R49). Those past the 512th of a core are requests for an entry. -/
structure TableEnt where
  team : Nat
  pc : Word
  age : Nat
  /-- a set of the entry has issued in this clock -/
  hit : Bool := false
deriving DecidableEq, Repr

/-- Issue counts of a core in the current clock, by class (03 R48). -/
structure Slots where
  lane : Nat := 0
  mem : Nat := 0
  group : Nat := 0
  engine : Nat := 0
deriving DecidableEq, Repr

/-! Engines. -/

/-- A byte range in a named space, 5 for spad reached as cspad; for local spaces `team` tells whose (13 R228). -/
structure Foot where
  space : Nat
  team : Nat
  base : Nat
  len : Nat
deriving DecidableEq, Repr

/-- Functions of the matrix array (17 R273). -/
inductive MFn where
  | mma | mmar | mpair | mload | mclear | mrow
deriving DecidableEq, Repr

/-- A tile header's fields (17 R257). -/
structure Hdr where
  fmt : Nat
  smode : Nat
  role : Nat
  fe : Bool
  mbz : Bool
  rows : Nat
  cols : Nat
  stride : Nat
  scaleoff : Nat
deriving DecidableEq, Repr

/-- A matrix command, issued or accepted, with the register sources it holds (17 R273-R281). -/
structure MCmd where
  id : Nat
  gid : Nat
  fn : MFn
  pc : Word
  ctl : Word := 0
  aw : DWord := 0
  cw : DWord := 0
  q : Nat := 0
  rows : List (List Word) := []
  /-- poisoned registers among an mmar's rows: thread, and place from the first register on -/
  bad : List (Nat × Nat) := []
  dreg : Nat := 0
  flush : Bool := false
  /-- acceptance number, 0 before acceptance -/
  acc : Nat := 0
  ah : Option Hdr := none
  ch : Option Hdr := none
  reads : List Foot := []
  writes : List Foot := []
  onLease : Option Nat := none
  started : Bool := false
  bw : Option DWord := none
  bh : Option Hdr := none
  row : Nat := 0
  partner : Option Nat := none
  aloneSince : Option Nat := none
  skip : Bool := false
  batch : Option Nat := none
  cancelled : Bool := false
  /-- address of the fault reported last -/
  faultVa : Nat := 0
deriving DecidableEq, Repr

/-- A copy template, decoded (17 R262). -/
structure Tmpl where
  recVa : Nat
  dir : Bool
  fe : Bool
  phv : Bool
  tsp : Bool
  tilesp : Nat
  tbase : Nat
  phaser : DWord
  gate : Nat
  mbz : Bool
deriving DecidableEq, Repr

/-- A tensor shape record, decoded (17 R259). -/
structure Tsr where
  base : Nat
  rank : Nat
  esz : Nat
  ovlr : Bool
  mirrorEdge : Bool
  mbz : Bool
  ext : List Nat
  tile : List Nat
  str : List Nat
deriving DecidableEq, Repr

/-- An accepted copy (17 R267-R271). -/
structure Copy where
  id : Nat
  /-- acceptance number -/
  acc : Nat
  tid : Nat
  pc : Word
  chan : Nat
  tmpl : Tmpl
  tsr : Tsr
  tidx : Nat
  doff : Nat
  gid : Nat
  destGid : Nat
  reads : List Foot
  writes : List Foot
  batch : Option Nat := none
  /-- a record of its batch was cancelled -/
  cancelled : Bool := false
  /-- COMP values that a gate admits for the reads and the writes (29 R434). -/
  gate : Option (Nat × Nat) := none
deriving DecidableEq, Repr

/-- A push waiting in a queue register for its channel (17 R267). -/
structure Push where
  id : Nat
  tid : Nat
  k : Nat
  chan : Nat
  val : DWord
  pc : Word
  /-- its value is there: a load's result comes later -/
  filled : Bool := true
  batch : Option Nat := none
  cancelled : Bool := false
deriving DecidableEq, Repr

/-- A tmpl command, issued and not yet accepted (17 R264). -/
structure TCmd where
  fn : Nat
  gid : Nat
  tids : List Nat
  pc : Word
  idx : Word
  va : Nat
  dreg : Nat
  op : Nat
  batch : Option Nat := none
  cancelled : Bool := false
deriving DecidableEq, Repr

/-- A matrix lease on the lender's core (27 R414). -/
structure Lease where
  st : Nat := 0
  first : Nat := 0
  ctx : Nat := 0
  meter : Nat := 0
  scrubAt : Nat := 0
deriving DecidableEq, Repr

/-- A core (01 R28): caches, translation, issue, bins, array, copy channels, health. -/
structure Core where
  present : Bool := false
  wide : Bool := false
  fe : Nat := 0
  l1 : Sp Line := []
  kc : Sp Line := []
  tlb : List TlbEnt := []
  last : Sp TlbEnt := []
  filter : List (Nat × Nat × Nat) := []
  slots : Slots := {}
  tok : Sp (Nat × Nat) := []
  /-- contexts for which this clock is an opportunity clock on the core (23 R368) -/
  opp : List Nat := []
  table : List TableEnt := []
  bins : List Bin := []
  spawnQ : List SpawnRec := []
  mcmds : List MCmd := []
  held : Option (Nat × DWord) := none
  tcmds : List TCmd := []
  pushes : List Push := []
  copies : List Copy := []
  lease : Lease := {}
  temp : Int := 0
  droop : Nat := 0
  armed : Bool := true
  withdrawn : Bool := false
  inPass : Bool := false
deriving DecidableEq, Repr

/-! Rendering (19). -/

/-- A raster command in the slice's queue (19 R304-R309). -/
structure RCmd where
  id : Nat
  gid : Nat
  core : Nat
  pc : Word
  stateVa : Nat
  tris : List Nat
  accepted : Bool := false
  width : Nat := 0
  height : Nat := 0
  shade : Word := 0
  soft : Word := 0
  cull : Nat := 0
  vbuf : Nat := 0
  args : DWord := 0
  thr : Nat := 0
  nextTri : Nat := 0
  /-- quads of the triangle under way that have no bin place yet -/
  quads : List (List SpawnRec) := []
  batch : Option Nat := none
  /-- acceptance number and footprint -/
  acc : Nat := 0
  reads : List Foot := []
deriving DecidableEq, Repr

/-- A raster-ordered ticket: state 0 pending, 1 entered, 2 released (19 R311-R313). -/
structure Ticket where
  id : Nat
  key : Nat
  ctx : Nat
  tid : Option Nat
  st : Nat
  count : Nat
deriving DecidableEq, Repr

/-- A tile handed to the encoder (19 R322). -/
structure Tile where
  idx : Nat
  base : Nat
  tids : List Nat
  frame : Nat
  read : Bool
  missing : Bool
  batch : Option Nat := none
  pc : Word
  gid : Nat
  /-- acceptance number and footprint -/
  acc : Nat := 0
  reads : List Foot := []
deriving DecidableEq, Repr

/-- An ended frame waiting to be encoded (19 R322, R323). -/
structure EFrame where
  frame : Nat
  tids : List Nat
  deadline : Option Nat
  ctx : Nat
  /-- draw that gives the frame's bytes -/
  draw : Nat
deriving DecidableEq, Repr

/-- A stream of an encoder lane (19 R319). -/
structure Stream where
  cur : Nat := 0
  ended : Bool := false
  tiles : List Tile := []
  frames : List EFrame := []
deriving DecidableEq, Repr

/-- A fout command, issued and not yet accepted (19 R321). -/
structure FCmd where
  fn : Nat
  gid : Nat
  tids : List Nat
  pc : Word
  stream : Nat
  frame : Nat
  tile : Nat
  base : Nat
  dreg : Nat
  op : Nat
deriving DecidableEq, Repr

/-- A resmap command, issued and not yet accepted (19 R292-R294). -/
structure ResCmd where
  set : Bool
  gid : Nat
  tids : List Nat
  pc : Word
  op : Nat
  rmap : Nat
  base : Nat
  first : Nat
  count : Nat
  ctx : Nat
deriving DecidableEq, Repr

/-- An accepted resmap clear: the clock of its acceptance, and the members whose RESC it raised (19 R294). -/
structure ResDrain where
  clock : Nat
  tids : List Nat
deriving DecidableEq, Repr

/-! Scheduling, faults and slices. -/

/-- A fault batch (23 R363-R365); `who` is the group, copy, command or tile that waits for its answer. -/
structure FBatch where
  no : Nat
  ctx : Nat
  unit : Nat
  who : Nat
  slicelog : Nat
  core : Nat
  gslot : Nat
  recs : List FRec
  stamp : DWord
deriving DecidableEq, Repr

/-- A spawnh record on its way to its owner core (03 R66). -/
structure TaskRec where
  core : Nat
  srec : SpawnRec
deriving DecidableEq, Repr

/-- Scheduler state of a partition (21 R335-R339). -/
structure Sched where
  pointer : Nat := 0
  passes : Sp Nat := []
  /-- claimants, the origins of their rectangles and their victims, while pre-emptions save them -/
  claims : List (Nat × Nat × List Nat) := []
deriving DecidableEq, Repr

/-- A re-encryption sweep: page number, snapshot of the counter line, pointer, and the key of the write that began it (29 R428). -/
structure Sweep where
  page : Nat
  snap : BitVec 512
  ptr : Nat
  comp : Nat := 0
deriving DecidableEq, Repr

/-- An entry of a metadata cache: a verified counter line or node in plaintext, and whether it is to be written back (29 R426). -/
structure Meta where
  data : BitVec 512 := 0
  dirty : Bool := false
deriving DecidableEq, Repr

/-- Sealing state of a slice (29 R425-R428): the metadata cache by level and number of the entry, the root table by level-3 node, the key
each data line was last sealed with, and the sweeps. Slots, counter lines and nodes as stored stand in the carve-out of memory. -/
structure Seal where
  cache : Sp Meta := []
  root : Sp Nat := []
  comps : Sp Nat := []
  sweeps : List Sweep := []
deriving DecidableEq, Repr

/-- A translation invalidation in progress (23 R356, R357). -/
structure Tinv where
  ctx : Nat
  op : Nat
  va : Nat
  pa : Nat
  pages : Nat
  /-- accesses numbered below this were under way when the command came -/
  mark : Nat
deriving DecidableEq, Repr

/-- An entry of TYPE 1 or 12 that later events may join (25 R382): `entry` as the physical log has it, `idx` its place in the physical log
of the slice or in the virtual queue. -/
structure Merged where
  virt : Bool
  entry : Nat
  idx : Nat
deriving DecidableEq, Repr

/-- A slice (27 R397, 01 R29). `regs` holds its register block by offset; absent = 0. -/
structure Slice where
  regs : Sp DWord := []
  resetFrom : Option Nat := none
  cc : Sp Line := []
  deep : Sp DLine := []
  useClock : Nat := 0
  sealing : Seal := {}
  tinv : Option Tinv := none
  batchNo : Nat := 0
  waitingBatches : List FBatch := []
  outstanding : List FBatch := []
  raster : List RCmd := []
  tickets : List Ticket := []
  streams : Sp Stream := []
  fcmds : List FCmd := []
  rescmds : List ResCmd := []
  taskq : List TaskRec := []
  sched : Sched := {}
  balance : Int := 0
  throttled : Bool := false
  /-- clock of the last power refill -/
  meterAt : Nat := 0
  linkUp : Bool := false
  fwBusy : Bool := false
  /-- error entries that wait for the clock or a firmware update to end: entry of the physical log, entry of the virtual queue -/
  errWait : List (Nat × Nat) := []
  merged : List Merged := []
  /-- work queues whose doorbell has been written, which the controller looks at by itself (log 1) -/
  rung : List Nat := []
  /-- the launch taken last from each work queue (21 R333) -/
  launched : Sp Nat := []
  /-- spare matrix columns mapped in, by half 0-35 -/
  spareUsed : Sp Nat := []
deriving DecidableEq, Repr

/-- An entry of an entry table (21 R326). -/
structure EntryRow where
  entry : Word
  nregs : Nat
  kernel : Bool
  binspad : Nat
deriving DecidableEq, Repr

/-- The control registers of a context (11 R171), at their reset values. -/
structure Ctl where
  memdef : Word := 0x00040000
  fpdef : Word := 0x00000001
  trapbase : Word := 0xFFFFFFFF
  bintime : Word := 1024
  wdogBar : Word := 0x04000000
  wdogHang : Word := 0x40000000
  wdogRos : Word := 0x01000000
  rastthr : Word := 0x00000400
  feedbase : DWord := 0
  feedsize : Word := 0
  feedhead : Word := 0
  feedtail : Word := 0
  cpytab : DWord := 0
  restab : DWord := 0
  migwait : Word := 65536
  pairwait : Word := 4096
deriving DecidableEq, Repr

/-- A ctlw on its way to the cores: the threads that wait for it and the value other threads still use until it completes (11 R173). -/
structure CtlWrite where
  id : Nat
  reg : CtlReg
  old : DWord
  gid : Option Nat
  useOld : Bool
deriving DecidableEq, Repr

/-- What the diagnostic record takes from the trigger of a termination (23 R370). -/
structure Diag where
  code : Nat
  why : Nat := 0
  tid : Option Nat := none
  pc : Word := 0
  aux : Word := 0
  addr : DWord := 0
  waitkind : Nat := 0
  waiting : Nat := 0
  needed : Nat := 0
  limit : Word := 0
deriving DecidableEq, Repr

/-- A context (21 R325; 11 R170, R171; 27 R412, R417-R419; 25 R387; 29 R432). -/
structure Ctx where
  ptroot : Nat := 0
  codebase : Nat := 0
  codesize : Nat := 0
  entbase : Nat := 0
  entcount : Nat := 0
  savebase : Nat := 0
  savesize : Nat := 0
  entries : List EntryRow := []
  ctl : Ctl := {}
  writes : List CtlWrite := []
  vbase : Nat := 0
  vsince : Nat := 0
  /-- 0 running, 1 pausing with WAIT 0, 2 pausing with WAIT 1, 3 paused -/
  paused : Nat := 0
  clockCount : Nat := 0
  subcnt : Nat := 0
  feedlost : Nat := 0
  stamps : Sp Nat := []
  frozen : Option Nat := none
  tmplValid : List Nat := []
  isw : Nat := 1
  ways : Nat := 0
  linkw : Nat := 1
  compmask : BitVec 8 := 1
  term : Option Nat := none
  /-- the trigger that ends the context when the clock ends: of those of one clock, the first by 23 R371 -/
  trigger : Option Diag := none
  hang : Nat := 0
  /-- a thread of it has issued, or an engine job of it has advanced, in this clock (23 R368) -/
  stirred : Bool := false
  blocks : List (Nat × Nat) := []
  nextGrid : Nat := 1
  drains : List ResDrain := []
deriving DecidableEq, Repr

/-! Accesses in flight. -/

/-- Where a result goes: registers from `n` on, a queue entry, or a predicate. -/
inductive Dest where
  | regs (n w : Nat)
  | queue (k id : Nat)
  | pred (p : Nat)
  | none
deriving DecidableEq, Repr

/-- What a load in flight will deliver: bytes bound when it completes; words formed when it acted, with the poison met as (unit, va, pa);
or the old value of a promoted atomic, which acts when it is bound (13 R226). -/
inductive LoadKind where
  | bytes (space : Space) (team va pa size : Nat) (signed : Bool) (pol comp : Nat) (et : Bool)
  | words (ws : List Word) (bad : Option (Nat × Nat × Nat))
  | rmw (op : AtomOp) (fp : Word) (x va pa comp pol : Nat) (sys : Bool)
deriving DecidableEq, Repr

/-- A load-class instruction in flight in one lane (05 R100, 11 R191). -/
structure Load where
  id : Nat
  tid : Nat
  pc : Word
  dest : Dest
  kind : LoadKind
  acq : Option Scope
  promo : List Nat := []
  promoted : Bool := false
  tex : Bool := false
  issued : Nat := 0
  /-- the issue set, 0 where its lanes need no order among themselves (15 R241) -/
  set : Nat := 0
  /-- poisoned sectors already counted for the issue set (25 R379) -/
  counted : List Nat := []
  /-- deferred cause delivered with the result (19 R316) -/
  cause : Option Cause := none
deriving DecidableEq, Repr

/-- A store in flight in one lane, not yet performed (13 R215). -/
structure Store where
  id : Nat
  tid : Nat
  team : Nat
  space : Space
  va : Nat
  pa : Nat
  size : Nat
  data : Nat
  scope : Scope
  pol : Nat
  comp : Nat := 0
  setFull : Bool
  et : Bool
  /-- nothing left to write: a red, xacc, fe or cflush that has acted and is yet to be counted performed -/
  acted : Bool
  /-- cflush range lines to bring to GDDR-7 -/
  flush : List Nat := []
  /-- the issue set, 0 where its lanes need no order among themselves (15 R241) -/
  set : Nat := 0
deriving DecidableEq, Repr

/-- A table walk requested by threads (23 R350): the page's virtual address, the access kind and who asked. -/
structure Walk where
  id : Nat
  core : Nat
  ctx : Nat
  va : Nat
  acc : Nat
  /-- threads that wait, each with its PC and, where its own access lies on the page, 1 + that address, else 0 -/
  reqs : List (Nat × Word × Nat)
  /-- KIND of the fault found, once the walk has ended in one -/
  fault : Option Nat := none
  /-- the cause found, once the walk has ended in one, and the poisoned address for 0x0D -/
  cause : Option (Cause × Nat) := none
deriving DecidableEq, Repr

/-- A promotion request travelling to a core (13 R226). -/
structure Promo where
  id : Nat
  core : Nat
  load : Nat
deriving DecidableEq, Repr

/-- A feedback append that a texture load is due (19 R300-R302). -/
structure Feed where
  load : Nat
  core : Nat
  ctx : Nat
  res : Nat
  pn : Nat
  entry : BitVec 128
deriving DecidableEq, Repr

/-! Device-wide units. -/

/-- A pool copy engine (27 R405). -/
structure Ce where
  base : DWord := 0
  ctl : Word := 0
  head : Word := 0
  tail : Word := 0
  erraddr : DWord := 0
  stat : Word := 0
deriving DecidableEq, Repr

/-- A world on a partition (29 R429-R433): a number that names its keys, its gates, and the session that owns it. -/
structure World where
  num : Nat
  gates : Sp Word := []
  session : Option Nat := none
deriving DecidableEq, Repr

/-- An SPDM session (29 R438, R439): the world it is bound to, and whether FINISH has come. -/
structure Session where
  world : Option Nat := none
  finished : Bool := false
deriving DecidableEq, Repr

/-- An answer to an SPDM request (29 R438): what it says, whether it grants what was asked, the certificates, their digests or the measurements asked for, and the
signature by the alias key where the message carries one. -/
structure Reply where
  body : BitVec 512
  ok : Bool := true
  certs : List Cert := []
  digests : List (BitVec 512) := []
  sig : Option (BitVec 512) := none
deriving DecidableEq, Repr

/-- The security processor (29 R429-R439). Measurements are 64-byte digests by index. -/
structure Sec where
  up : Bool := false
  /-- device identity and alias key pairs, and the chain from the root certificate to the alias key (29 R436) -/
  identity : KeyPair := {}
  aliasKeys : KeyPair := {}
  chain : List Cert := []
  measurements : Sp (BitVec 512) := []
  sessions : Sp Session := []
  worlds : Sp World := []
  nextWorld : Nat := 1
  deviceKey : Nat := 0
  linkKeys : Sp Nat := []
  /-- keys of the IDE link stream (0) and of the selective streams (1-8) of PCIe -/
  ideKeys : Sp Nat := []
  flits : Sp Nat := []
  replies : List Reply := []
  fwSlice : Option Nat := none
deriving DecidableEq, Repr

/-- The whetstone pass (25 R384-R386): phase 0 idle, 1 draining, 2 stopping teams, 3 scanning. -/
structure Whet where
  phase : Nat := 0
  core : Nat := 0
  next : Nat := 0
  lastAt : Nat := 0
  since : Nat := 0
  startV : Sp Nat := []
deriving DecidableEq, Repr

/-- The issue set being executed (03 R46): team, PC, length in words, instruction word, members in ascending lane order. -/
structure Issue where
  team : Nat := 0
  pc : Word := 0
  len : Nat := 1
  word : Word := 0
  tids : List Nat := []
  /-- poisoned sectors that the set has read as zeros (25 R379) -/
  zeroed : List Nat := []
deriving DecidableEq, Repr

/-- What the next step is to be: an issue set of one team at one PC, or an event of the table (log 1). -/
inductive Choice where
  | issue (team : Nat) (pc : Word) (tids : List Nat)
  | event (i : Instr)
deriving DecidableEq, Repr

/-- The whole machine. -/
structure State where
  clock : Nat := 0
  /-- events still to be tried in this clock by the schedule that runs when the agenda is empty (log 1) -/
  plan : Option (List Instr) := none
  agenda : List Choice := []
  cur : Issue := {}
  freeCtr : Nat := 0
  nextId : Nat := 1
  booted : Bool := false
  /-- the health record in module flash: halves and front ends marked failed; whether its signature holds -/
  failedHalves : List Nat := []
  failedFronts : List Nat := []
  recordSigned : Bool := true
  /-- the fuse map, used alone where the record is rejected (01 R39) -/
  fusedHalves : List Nat := []
  fusedFronts : List Nat := []
  /-- slices whose training fails (01 R39 step 5) -/
  bootFails : List Nat := []
  bifurcated : Bool := false
  timeOff : Nat := 0
  msix : List (Func × Nat) := []
  mem : List Host.Cell := []
  memPoison : List Nat := []
  pf : Sp DWord := []
  ces : Sp Ce := []
  sec : Sec := {}
  whet : Whet := {}
  slices : Sp Slice := []
  cores : Sp Core := []
  ctxs : Sp Ctx := []
  grids : Sp Grid := []
  clusters : Sp Cluster := []
  teams : Sp Team := []
  groups : Sp Group := []
  threads : Sp Thread := []
  loads : List Load := []
  stores : List Store := []
  walks : List Walk := []
  promos : List Promo := []
  feeds : List Feed := []
  /-- completion of the last access from the host or a link peer: 0 served, 1 unsupported or an error, 2 poisoned; and the bytes read -/
  answer : Nat × Nat := (0, 0)
deriving DecidableEq, Repr

/-! Reset (27 R397, 21 R324, 25 R384, R392; 00 R8). -/

/-- Register block of slice `s` after device reset; offsets not listed read 0. -/
def sliceRegsReset (s : Nat) : Sp DWord :=
  [(0x0000, BitVec.ofNat 64 (0x1001 + s * 256)), (0x1018, 95), (0x101C, 262144), (0x1020, 50000)] ++
  (List.range 8).map (fun n => (0x4004 + 0x80 * n, 0xFFFFFFFF))

/-- The slices after device reset. -/
def slicesReset : Sp Slice := (List.range 12).map (fun s => (s, { regs := sliceRegsReset s }))

/-- The machine right after package reset, before POWER_UP: no core is bound, no context exists, memory lists nothing. -/
def State.reset : State :=
  { slices := slicesReset, pf := [(0x3000, 1200)] }

end Sys2Proof.Machine
end

