-- ==== Sys2Proof/Machine/Flags.lean ====
section
/-! DEFINITION. Predicates and conditions: the comparisons of 09 R147, the predicate operations of R150 and R151, and the arithmetic
defaults of 07 R124 and 09 R155. -/

namespace Sys2Proof.Machine

/-- Compare condition on signed or unsigned integers of `w` bits (09 R147). -/
def condInt (signed lt : Bool) {w : Nat} (a b : BitVec w) : Bool :=
  if lt then (if signed then a.slt b else a.ult b) else a == b

/-- Compare condition on floats, read with or without flushing: false when either operand is NaN (09 R147, R148). -/
def condFloat (f : Fmt) (flush lt : Bool) (a b : Nat) : Bool :=
  if lt then (f.read flush a).lt (f.read flush b) else (f.read flush a).eq (f.read flush b)

/-- Truth table of plog (09 R150). -/
def plogBit (lut : BitVec 4) (a b : Bool) : Bool := lut.getLsbD (2 * a.toNat + b.toNat)

/-- The word of the old predicates that pmov returns (09 R151). -/
def predWord (p : BitVec 8) : Word := (p &&& 0xFE).zeroExtend 32

/-- The predicates after pmov (09 R151). -/
def pmovPreds (p : BitVec 8) (a : Word) (mask : BitVec 7) : BitVec 8 :=
  let m : BitVec 8 := mask.zeroExtend 8 <<< 1
  (p &&& ~~~m) ||| (a.truncate 8 &&& m)

/-- A rounding mode number of 07 R124 and 05 R97. -/
def modeOf (n : Nat) : Mode :=
  match n with
  | 2 => .rz
  | 3 => .ru
  | 4 => .rd
  | 5 => .rna
  | _ => .rne

/-- RND and FTZ of FPDEF (07 R124). -/
def fpRnd (fpdef : Word) : Nat := fpdef.toNat % 8
def fpFtz (fpdef : Word) : Bool := fpdef.getLsbD 3

/-- The mode of an instruction: the prefix's, or the default's; a stochastic mode takes a draw elsewhere (09 R155). -/
def pfxMode (p : Option APfx) (dflt : Nat) : Mode :=
  match p with
  | none => modeOf dflt
  | some q =>
    match q.rnd with
    | .dflt => modeOf dflt
    | .rne => .rne
    | .rz => .rz
    | .ru => .ru
    | .rd => .rd
    | .rna => .rna
    | .rs => .rne

def pfxStochastic (p : Option APfx) : Bool :=
  match p with
  | some q => decide (q.rnd = .rs)
  | none => false

def pfxSat (p : Option APfx) : Bool := (p.map (·.sat)).getD false
def pfxFtz (p : Option APfx) (dflt : Bool) : Bool := dflt || (p.map (·.ftz)).getD false
def pfxC (p : Option APfx) : Option Operand := p.bind (·.c)

/-- A mode rounds zero sums toward minus (07 R127). -/
def Mode.isRd : Mode → Bool
  | .rd => true
  | _ => false

end Sys2Proof.Machine
end

