-- ==== Sys2Proof/Machine/Line.lean ====
section
/-! DEFINITION. 64-byte lines as numbers: byte masks, merges, sectors; and physical memory as a canonical list of bytes. -/

namespace Sys2Proof.Machine

/-- The 512-bit mask whose byte i is all ones when bit i of the byte mask is set. -/
def expandMask (m : BitVec 64) : BitVec 512 :=
  if m = BitVec.allOnes 64 then BitVec.allOnes 512
  else BitVec.ofNat 512 ((List.range 64).foldl (fun a i => if m.getLsbD i then a + 255 * 2 ^ (8 * i) else a) 0)

/-- Bytes of `new` where the mask is set, of `old` elsewhere (13 R211). -/
def lineMerge (old new : BitVec 512) (m : BitVec 64) : BitVec 512 :=
  if m = 0 then old else
  let e := expandMask m
  (old &&& ~~~e) ||| (new &&& e)

/-- The byte mask of `n` bytes at offset `off`. -/
def byteMask (off n : Nat) : BitVec 64 := BitVec.ofNat 64 ((2 ^ n - 1) * 2 ^ off)

/-- `n` bytes at offset `off` of a line, little-endian. -/
def lineGet (d : BitVec 512) (off n : Nat) : Nat := d.toNat / 2 ^ (8 * off) % 2 ^ (8 * n)

/-- A line that holds the low `n` bytes of `v` at offset `off` and zeros elsewhere. -/
def lineAt (off n v : Nat) : BitVec 512 := BitVec.ofNat 512 (v % 2 ^ (8 * n) * 2 ^ (8 * off))

/-- The 32-byte sectors that a byte mask touches, and those it covers whole (25 R372). -/
def sectorsOf (m : BitVec 64) : BitVec 2 :=
  (if m &&& 0xFFFFFFFF = 0 then 0 else 1) ||| (if m &&& 0xFFFFFFFF00000000 = 0 then 0 else 2)
def sectorsWhole (m : BitVec 64) : BitVec 2 :=
  (if m &&& 0xFFFFFFFF = 0xFFFFFFFF then 1 else 0) ||| (if m &&& 0xFFFFFFFF00000000 = 0xFFFFFFFF00000000 then 2 else 0)

/-- The byte mask of a set of sectors. -/
def sectorBytes (p : BitVec 2) : BitVec 64 :=
  (if p &&& 1 = 0 then 0 else 0xFFFFFFFF) ||| (if p &&& 2 = 0 then 0 else 0xFFFFFFFF00000000)

/-- Poisoned sectors of the line in which an access at `va`, physical `pa`, lies: virtual and physical address of each. -/
def sectorsMet (hit : BitVec 2) (va pa : Nat) : List (Nat × Nat) :=
  ([0, 1].filter (fun i => hit.getLsbD i)).map (fun i => (va - pa % 64 + 32 * i, pa / 64 * 64 + 32 * i))

/-! Physical memory. An unlisted byte reads 0 (log 3). -/

abbrev Memory := List Host.Cell

/-- What an unlisted byte of memory reads as (log 3). -/
def memDefault : Byte := 0

def Memory.get (m : Memory) (a : Nat) : Byte := spRead memDefault m a
def Memory.set (m : Memory) (a : Nat) (b : Byte) : Memory := spWrite memDefault m a b

/-- The canonical form of memory. -/
def Memory.wf (m : Memory) : Bool := spWf memDefault m

/-- `n` bytes from `a` as a little-endian number; one pass over the list. -/
def Memory.read (m : Memory) (a n : Nat) : Nat :=
  match m with
  | [] => 0
  | (k, b) :: r =>
    if k < a then Memory.read r a n
    else if k < a + n then b.toNat * 2 ^ (8 * (k - a)) + Memory.read r a n
    else 0

/-- `n` bytes of a number stored from `a` on, little-endian. -/
def Memory.write (m : Memory) (a n v : Nat) : Memory :=
  match n with
  | 0 => m
  | k + 1 => Memory.write (Memory.set m a (BitVec.ofNat 8 v)) (a + 1) k (v / 256)

/-- The line of number `la`. -/
def Memory.line (m : Memory) (la : Nat) : BitVec 512 := BitVec.ofNat 512 (Memory.read m (64 * la) 64)

/-- The masked bytes of a line stored. -/
def Memory.setLine (m : Memory) (la : Nat) (d : BitVec 512) (mask : BitVec 64) : Memory :=
  (List.range 64).foldl
    (fun acc i => if mask.getLsbD i then Memory.set acc (64 * la + i) (BitVec.ofNat 8 (lineGet d i 1)) else acc) m

/-! Small list helpers. -/

/-- Add a number to a list without repeats. -/
def insertNew (x : Nat) (l : List Nat) : List Nat := if l.contains x then l else l ++ [x]

/-- The first element that satisfies `p`, with the rest of the list. -/
def takeFirst {α : Type} (p : α → Bool) (l : List α) : Option (α × List α) :=
  match l with
  | [] => none
  | x :: r => if p x then some (x, r) else (takeFirst p r).map (fun e => (e.1, x :: e.2))

end Sys2Proof.Machine
end

