-- ==== Sys2Proof/Machine/Regs.lean ====
section
/-! DEFINITION. Accessors of the state's records, slice registers by name, partitions, time, diagnostic counts, MSI-X. -/

namespace Sys2Proof.Machine

/-! Records. -/

def State.thread (s : State) (t : Nat) : Thread := (spGet s.threads t).getD {}
def State.group (s : State) (g : Nat) : Group := (spGet s.groups g).getD {}
def State.team (s : State) (t : Nat) : Team := (spGet s.teams t).getD {}
def State.cluster (s : State) (c : Nat) : Cluster := (spGet s.clusters c).getD {}
def State.grid (s : State) (g : Nat) : Grid := (spGet s.grids g).getD {}
def State.ctx (s : State) (c : Nat) : Ctx := (spGet s.ctxs c).getD {}
def State.core (s : State) (c : Nat) : Core := (spGet s.cores c).getD {}
def State.slice (s : State) (i : Nat) : Slice := (spGet s.slices i).getD {}
def State.ce (s : State) (e : Nat) : Ce := (spGet s.ces e).getD {}

def State.setThread (s : State) (t : Nat) (x : Thread) : State := { s with threads := spPut s.threads t x }
def State.setGroup (s : State) (g : Nat) (x : Group) : State := { s with groups := spPut s.groups g x }
def State.setTeam (s : State) (t : Nat) (x : Team) : State := { s with teams := spPut s.teams t x }
def State.setCluster (s : State) (c : Nat) (x : Cluster) : State := { s with clusters := spPut s.clusters c x }
def State.setGrid (s : State) (g : Nat) (x : Grid) : State := { s with grids := spPut s.grids g x }
def State.setCtx (s : State) (c : Nat) (x : Ctx) : State := { s with ctxs := spPut s.ctxs c x }
def State.setCore (s : State) (c : Nat) (x : Core) : State := { s with cores := spPut s.cores c x }
def State.setSlice (s : State) (i : Nat) (x : Slice) : State := { s with slices := spPut s.slices i x }
def State.setCe (s : State) (e : Nat) (x : Ce) : State := { s with ces := spPut s.ces e x }

/-! Updates of one record; an absent record stays absent. -/

def State.modThread (s : State) (t : Nat) (f : Thread → Thread) : State :=
  match spGet s.threads t with
  | some x => s.setThread t (f x)
  | none => s
def State.modGroup (s : State) (g : Nat) (f : Group → Group) : State :=
  match spGet s.groups g with
  | some x => s.setGroup g (f x)
  | none => s
def State.modTeam (s : State) (t : Nat) (f : Team → Team) : State :=
  match spGet s.teams t with
  | some x => s.setTeam t (f x)
  | none => s
def State.modCluster (s : State) (c : Nat) (f : Cluster → Cluster) : State :=
  match spGet s.clusters c with
  | some x => s.setCluster c (f x)
  | none => s
def State.modGrid (s : State) (g : Nat) (f : Grid → Grid) : State :=
  match spGet s.grids g with
  | some x => s.setGrid g (f x)
  | none => s
def State.modCtx (s : State) (c : Nat) (f : Ctx → Ctx) : State :=
  match spGet s.ctxs c with
  | some x => s.setCtx c (f x)
  | none => s
def State.modCore (s : State) (c : Nat) (f : Core → Core) : State :=
  match spGet s.cores c with
  | some x => s.setCore c (f x)
  | none => s
def State.modSlice (s : State) (i : Nat) (f : Slice → Slice) : State :=
  match spGet s.slices i with
  | some x => s.setSlice i (f x)
  | none => s

/-! Keys. -/

def gidOf (tid : Nat) : Nat := tid / 32
def laneOf (tid : Nat) : Nat := tid % 32
def teamOf (gid : Nat) : Nat := gid / 65536
def groupKey (team idx : Nat) : Nat := 65536 * team + idx
def tidOf (gid lane : Nat) : Nat := 32 * gid + lane
def ctxKey (first n : Nat) : Nat := 1024 * first + n
def ctxFirst (c : Nat) : Nat := c / 1024
def ctxNum (c : Nat) : Nat := c % 1024
def coreKey (slice k : Nat) : Nat := 16 * slice + k
def coreSlice (c : Nat) : Nat := c / 16
def corePos (c : Nat) : Nat := c % 16

/-- A fresh handle. -/
def State.fresh (s : State) : Nat × State := (s.nextId, { s with nextId := s.nextId + 1 })

/-- A draw of an open value (log 2). -/
def State.draw (s : State) : Nat × State := (s.freeCtr, { s with freeCtr := s.freeCtr + 1 })

/-! Slice registers. -/

def State.sreg (s : State) (i off : Nat) : DWord := spRead 0 (s.slice i).regs off
def State.setSreg (s : State) (i off : Nat) (v : DWord) : State :=
  s.modSlice i (fun x => { x with regs := spWrite 0 x.regs off v })

def State.pfreg (s : State) (off : Nat) : DWord := spRead 0 s.pf off
def State.setPfreg (s : State) (off : Nat) (v : DWord) : State := { s with pf := spWrite 0 s.pf off v }

/-- Bits hi..lo of a number. -/
def fld (x hi lo : Nat) : Nat := x / 2 ^ lo % 2 ^ (hi - lo + 1)

/-- A number with bits hi..lo replaced. -/
def setFld (x hi lo v : Nat) : Nat :=
  x - fld x hi lo * 2 ^ lo + v % 2 ^ (hi - lo + 1) * 2 ^ lo

/-- SLC_STATE fields (27 R397). -/
def State.slcState (s : State) (i : Nat) : Nat := fld (s.sreg i 0).toNat 2 0
def State.first (s : State) (i : Nat) : Nat := fld (s.sreg i 0).toNat 11 8
def State.psize (s : State) (i : Nat) : Nat := fld (s.sreg i 0).toNat 15 12
/-- A field of SLC_STATE takes a value; the register is never 0, its SIZE being at least 1, so it stays listed. -/
def State.setSlcField (s : State) (i hi lo v : Nat) : State :=
  s.modSlice i (fun x => { x with regs := spPut x.regs 0 (BitVec.ofNat 64 (setFld (s.sreg i 0).toNat hi lo v)) })

def stOff : Nat := 0
def stOpen : Nat := 1
def stLocked : Nat := 2
def stRun : Nat := 3
def stDrain : Nat := 4
def stReset : Nat := 5

/-- The slices of the partition whose lowest slice is `f`. -/
def State.partSlices (s : State) (f : Nat) : List Nat := upto f (s.psize f)

/-- Status of the last request or rejected write (SLC_CTLST bits 7:0). -/
def State.setCtlst (s : State) (i st : Nat) : State :=
  s.setSreg i 8 (BitVec.ofNat 64 (setFld (s.sreg i 8).toNat 7 0 st))

/-- A status shown by every slice of the partition: a request or write that reaches one acts on all (27 R397). -/
def State.status (s : State) (i st : Nat) : State := (s.partSlices (s.first i)).foldl (fun s j => s.setCtlst j st) s

def ctlOk : Nat := 0
def ctlBusy : Nat := 1
def ctlBadState : Nat := 2
def ctlBindInvalid : Nat := 3
def ctlConfigInvalid : Nat := 4
def ctlLockedWrite : Nat := 5
def ctlPfOnly : Nat := 6
def ctlRefused : Nat := 7
def ctlOvercommit : Nat := 8

/-- Diagnostic counts (25 R396); they stop at 0xFFFF_FFFF. -/
def diagRsvw : Nat := 0x4400
def diagDbell : Nat := 0x4404
def diagPhorph : Nat := 0x4408
def diagPinref : Nat := 0x440C
def diagEncdrop : Nat := 0x4410
def State.count (s : State) (i off : Nat) : State :=
  s.setSreg i off (BitVec.ofNat 64 (Nat.min ((s.sreg i off).toNat + 1) 0xFFFFFFFF))

/-- A function presents slice `i`'s register block: a physical function in BAR 2, or the virtual function of a slice that no fused
partition has absorbed (01 R33, R34; 27 R397, R404). -/
def State.presents (s : State) (fn : Func) (i : Nat) : Bool :=
  s.booted && decide (i < 12) && (match fn with
    | .pf => !s.bifurcated || decide (i < 6)
    | .pf2 => s.bifurcated && decide (6 ≤ i)
    | .vf j => decide (j = i) && decide (s.first i = i))

/-- A physical function: PF-only writes are accepted through whichever presents the block (01 R34). -/
def isPf : Func → Bool
  | .vf _ => false
  | _ => true

/-- The physical function that presents a slice's block. -/
def State.pfOf (s : State) (i : Nat) : Func := if s.bifurcated && decide (6 ≤ i) then .pf2 else .pf

/-- A write to slice `i`'s register block through a function reaches it; a slice without power takes requests only (27 R398). -/
def State.reaches (s : State) (fn : Func) (i : Nat) : Bool := s.presents fn i && decide (s.slcState i ≠ stOff)


/-- Signal an MSI-X vector of a function (23 R364, 25 R380, R390). -/
def State.signal (s : State) (f : Func) (v : Nat) : State := { s with msix := s.msix ++ [(f, v)] }

/-! Time (27 R417-R419): 4 ns every 7 clocks, plus what TIME_SET has added (log 6). -/

def State.time (s : State) : Nat := (4 * s.clock / 7 + s.timeOff) % 2 ^ 64

def State.vtime (s : State) (c : Nat) : Nat :=
  let x := s.ctx c
  if x.paused = 3 then x.vbase else (x.vbase + (s.time - x.vsince)) % 2 ^ 64

/-! Cores of a partition. -/

/-- Core present at a position: enabled and not absorbed or vacant (01 R24). -/
def State.hasCore (s : State) (c : Nat) : Bool := (s.core c).present

/-- The cores of a partition neither vacant nor absorbed nor withdrawn, in ascending (slice, position) order (03 R66, 25 R391). -/
def State.partCores (s : State) (f : Nat) : List Nat :=
  (s.partSlices f).flatMap (fun i => ((List.range 16).map (coreKey i)).filter (fun c => s.hasCore c && !(s.core c).withdrawn))

/-- The teams that stand on a core and hold its resources. -/
def State.teamsOn (s : State) (c : Nat) : List (Nat × Team) :=
  s.teams.filter (fun e => e.2.core = c && (match e.2.state with | .saved _ _ => false | _ => true))

/-- The cores that run a context: those that hold a team of it. -/
def State.ctxCores (s : State) (x : Nat) : List Nat :=
  (s.partSlices (ctxFirst x)).flatMap (fun i =>
    ((List.range 16).map (coreKey i)).filter (fun c => (s.teamsOn c).any (fun e => e.2.ctx = x)))

/-- Groups of a team, and threads of a group and of a team. -/
def State.groupsOf (s : State) (t : Nat) : List (Nat × Group) := s.groups.filter (fun e => e.2.team = t)
def State.threadsOfGroup (s : State) (g : Nat) : List (Nat × Thread) := s.threads.filter (fun e => gidOf e.1 = g)
def State.threadsOfTeam (s : State) (t : Nat) : List (Nat × Thread) := s.threads.filter (fun e => teamOf (gidOf e.1) = t)

/-- Where a thread belongs. -/
def State.teamOfT (s : State) (tid : Nat) : Team := s.team (teamOf (gidOf tid))
def State.ctxOfT (s : State) (tid : Nat) : Nat := (s.teamOfT tid).ctx
def State.coreOfT (s : State) (tid : Nat) : Nat := (s.teamOfT tid).core

/-- Threads of a cluster. -/
def State.threadsOfCluster (s : State) (c : Nat) : List (Nat × Thread) :=
  s.threads.filter (fun e => (s.team (teamOf (gidOf e.1))).cluster = c)

/-- Memory needs of the physical address map (01 R30, R36). -/
def devBytes : Nat := 12 * 0x400000000
def isDevPa (pa : Nat) : Bool := pa < devBytes
def isHostPa (pa : Nat) : Bool := pa / 2 ^ 51 % 2 == 1
def isPeerPa (pa : Nat) : Bool := pa / 2 ^ 51 % 2 == 0 && pa / 2 ^ 50 % 2 == 1
def paSlice (pa : Nat) : Nat := pa / 0x400000000
def peerPort (pa : Nat) : Nat := pa / 2 ^ 46 % 16

/-- The home of a physical address takes accesses: its slice is not in RESET (27 R402). -/
def State.homeOpen (s : State) (pa : Nat) : Bool := !isDevPa pa || decide (s.slcState (paSlice pa) ≠ stReset)

/-- Size of the sealed data range of a slice in bytes, and of its carve-out (29 R423). -/
def State.sealBytes (s : State) (i : Nat) : Nat := fld (s.sreg i 0x8000).toNat 12 0 * 0x200000
def State.carveBytes (s : State) (i : Nat) : Nat :=
  (fld (s.sreg i 0x8000).toNat 12 0 * 569920 + 0x1FFFFF) / 0x200000 * 0x200000
def State.inSealed (s : State) (pa : Nat) : Bool :=
  isDevPa pa && decide (pa % 0x400000000 < s.sealBytes (paSlice pa))
def State.inCarve (s : State) (pa : Nat) : Bool :=
  isDevPa pa && decide (0x400000000 ≤ pa % 0x400000000 + s.carveBytes (paSlice pa)) && decide (0 < s.carveBytes (paSlice pa))

/-- A physical address that some memory stands behind, for an agent of the partition `f` (01 R30, R36; 29 R423). -/
def State.backed (s : State) (f pa : Nat) : Bool :=
  if isHostPa pa then true
  else if isPeerPa pa then
    (s.partSlices f).contains (peerPort pa) && (s.slice (peerPort pa)).linkUp
  else isDevPa pa && !s.inCarve pa

/-- The slice whose deep cache is the home of a physical address, for the partition `f` (13 R209). -/
def homeSlice (f pa : Nat) : Nat := if isDevPa pa then paSlice pa else f

/-- The world of a slice's partition, 0 for none (29 R429, R431). -/
def State.worldOf (s : State) (i : Nat) : Nat := ((spGet s.sec.worlds (s.first i)).map (·.num)).getD 0

end Sys2Proof.Machine
end

