-- ==== Sys2Proof/Machine/Sealing.lean ====
section
/-! DEFINITION. The sealing of data lines in GDDR-7, their counters and the re-encryption sweep (29 R421-R428). AES and the
SEC-DED codes have no body (log 9); GHASH is the function of AES-GCM. -/

namespace Sys2Proof.Machine

/-- A 16-byte block of memory as a GCM block: byte 0 highest. -/
def gcmBlock (x : BitVec 128) : BitVec 128 :=
  BitVec.ofNat 128 ((List.range 16).foldl (fun a i => a * 256 + x.toNat / 2 ^ (8 * i) % 256) 0)

/-- Product in GF(2^128) with the bit order of GCM. -/
def gfMul (x y : BitVec 128) : BitVec 128 :=
  ((List.range 128).foldl
    (fun (z, v) i =>
      (if x.getLsbD (127 - i) then z ^^^ v else z,
       if v.getLsbD 0 then (v >>> 1) ^^^ (0xE1 <<< 120) else v >>> 1))
    ((0 : BitVec 128), y)).1

/-- GHASH over blocks. -/
def ghash (h : BitVec 128) (bs : List (BitVec 128)) : BitVec 128 := bs.foldl (fun a b => gfMul (a ^^^ gcmBlock b) h) 0

/-- Counter block i of a line (29 R425). -/
def sealBlock (la major minor i : Nat) : BitVec 128 :=
  BitVec.ofNat 128 (la % 2 ^ 46 + major % 2 ^ 64 * 2 ^ 46 + minor % 128 * 2 ^ 110 + i % 8 * 2 ^ 117)

/-- P(i) of 29 R425. -/
def sealPad (world key la major minor i : Nat) : BitVec 128 := Config.aes256 world key (sealBlock la major minor i)

/-- The four pads P(0)-P(3) side by side. -/
def sealPads (world key la major minor : Nat) : BitVec 512 :=
  BitVec.ofNat 512 ((List.range 4).foldl (fun a i => a + (sealPad world key la major minor i).toNat * 2 ^ (128 * i)) 0)

def lineBlocks (d : BitVec 512) : List (BitVec 128) :=
  (List.range 4).map (fun i => BitVec.ofNat 128 (d.toNat / 2 ^ (128 * i)))

/-- TAG of a plaintext line (29 R425). -/
def sealTag (world key la major minor : Nat) (d : BitVec 512) : BitVec 56 :=
  BitVec.ofNat 56 ((ghash (Config.aes256 world key 0) (lineBlocks d)) ^^^ sealPad world key la major minor 7).toNat

/-- The metadata slot of a line (29 R425). -/
def sealSlot (world key la major minor : Nat) (d : BitVec 512) : BitVec 128 :=
  let tag := sealTag world key la major minor d
  let ecc := Config.secdedLine d ^^^ BitVec.ofNat 64 (sealPad world key la major minor 4).toNat
  BitVec.ofNat 128 (tag.toNat + ecc.toNat * 2 ^ 56 + (Config.secdedTag tag).toNat * 2 ^ 120)

/-- Poisoned sectors of a line of the backing store. -/
def State.memPoisonOf (s : State) (la : Nat) : BitVec 2 :=
  (if s.memPoison.contains (2 * la) then 1 else 0) ||| (if s.memPoison.contains (2 * la + 1) then 2 else 0)

/-! Metadata (29 R423, R426). Pages and lines are numbered over all of device memory. Of a slice's metadata, level 0 are the counter lines
and levels 1 to 3 the nodes, each numbered from the start of the slice. -/

def linePage (la : Nat) : Nat := la / 64
def pageSlice (page : Nat) : Nat := paSlice (4096 * page)

/-- Number of a page's counter line in its slice. -/
def pageNo (page : Nat) : Nat := page % 2 ^ 22

/-- Key of a metadata-cache entry. -/
def metaKey (lvl n : Nat) : Nat := lvl * 2 ^ 22 + n

/-- Where the counter lines, the nodes of each level and the tag slots begin, per 2 MiB of sealed data. -/
def metaStart (lvl : Nat) : Nat :=
  match lvl with
  | 0 => 524288
  | 1 => 557056
  | 2 => 561152
  | 3 => 561664
  | _ => 561728

def State.sealUnits (s : State) (i : Nat) : Nat := fld (s.sreg i 0x8000).toNat 12 0
def State.carveBase (s : State) (i : Nat) : Nat := (i + 1) * 0x400000000 - s.carveBytes i

/-- Physical addresses of a data line's slot, of a counter line or node, and of a counter line's tag slot. -/
def State.slotPa (s : State) (la : Nat) : Nat := s.carveBase (paSlice (64 * la)) + 16 * (la % 2 ^ 28)
def State.metaPa (s : State) (i lvl n : Nat) : Nat := s.carveBase i + s.sealUnits i * metaStart lvl + 64 * n
def State.tagPa (s : State) (i n : Nat) : Nat := s.carveBase i + s.sealUnits i * metaStart 4 + 16 * n

/-- Counters in a counter line, and in a node. -/
def majorOf (d : BitVec 512) : Nat := fld d.toNat 63 0
def minorOf (d : BitVec 512) (j : Nat) : Nat := fld d.toNat (70 + 7 * j) (64 + 7 * j)
def withMinor (d : BitVec 512) (j v : Nat) : BitVec 512 := BitVec.ofNat 512 (setFld d.toNat (70 + 7 * j) (64 + 7 * j) v)
def nodeCtr (d : BitVec 512) (c : Nat) : Nat := fld d.toNat (56 * c + 55) (56 * c)
def withCtr (d : BitVec 512) (c v : Nat) : BitVec 512 := BitVec.ofNat 512 (setFld d.toNat (56 * c + 55) (56 * c) v)

/-- Tag of the counter line or node at `pa`, whose parent holds `ctr` for it. -/
def metaTag (world lvl pa ctr : Nat) (d : BitVec 512) : BitVec 56 :=
  let body := if lvl = 0 then d else BitVec.ofNat 512 (fld d.toNat 447 0)
  BitVec.ofNat 56 (ghash (Config.aes256 world 8 0) (lineBlocks body) ^^^ sealPad world 8 (pa / 64) ctr 0 7).toNat

/-- A stored counter line or node, where it verifies. -/
def State.metaStored (s : State) (i lvl n ctr : Nat) : Option (BitVec 512) :=
  let a := s.metaPa i lvl n
  let d := Memory.line s.mem (a / 64)
  let t := s.tagPa i n
  let tag := if lvl = 0 then Memory.read s.mem t 16 else fld d.toNat 503 448
  let lost := decide (s.memPoisonOf (a / 64) ≠ 0) || (decide (lvl = 0) && s.memPoison.contains (t / 32))
  if lost || decide (metaTag (s.worldOf i) lvl a ctr d ≠ BitVec.ofNat 56 tag) then none else some d

/-- A fill: an entry from the metadata cache, else zeros where its parent holds a counter of 0 for it, else as stored, where it verifies. -/
def State.metaEntry (s : State) (i lvl n : Nat) (ctr : Option Nat) : Option (BitVec 512) :=
  match spGet (s.slice i).sealing.cache (metaKey lvl n), ctr with
  | some m, _ => some m.data
  | none, none => none
  | none, some 0 => some 0
  | none, some c => s.metaStored i lvl n c

/-- Entry `n` of the level `down` levels below the third, verified from the nearest cached ancestor or the root. -/
def State.metaAt (s : State) (i : Nat) : Nat → Nat → Option (BitVec 512)
  | 0, n => s.metaEntry i 3 n (some (spRead 0 (s.slice i).sealing.root n))
  | down + 1, n => s.metaEntry i (2 - down) n ((s.metaAt i down (n / 8)).map (fun d => nodeCtr d (n % 8)))

/-- The counter line of a page. -/
def State.counterLine (s : State) (page : Nat) : Option (BitVec 512) := s.metaAt (pageSlice page) 3 (pageNo page)

def State.modSeal (s : State) (i : Nat) (f : Seal → Seal) : State := s.modSlice i (fun x => { x with sealing := f x.sealing })
def State.setMeta (s : State) (i lvl n : Nat) (m : Meta) : State :=
  s.modSeal i (fun z => { z with cache := spPut z.cache (metaKey lvl n) m })

/-- A dirty entry written back: its counter in its parent rises and its tag is made anew (29 R426). -/
def State.metaBack (s : State) (i lvl n : Nat) : State :=
  match spGet (s.slice i).sealing.cache (metaKey lvl n) with
  | none => s
  | some m =>
    if !m.dirty then s
    else
      let p := (spGet (s.slice i).sealing.cache (metaKey (lvl + 1) (n / 8))).getD {}
      let old := if lvl = 3 then spRead 0 (s.slice i).sealing.root n else nodeCtr p.data (n % 8)
      let ctr := (old + 1) % 2 ^ 56
      let s := if lvl = 3 then s.modSeal i (fun z => { z with root := spWrite 0 z.root n ctr })
        else s.setMeta i (lvl + 1) (n / 8) { data := withCtr p.data (n % 8) ctr, dirty := true }
      let a := s.metaPa i lvl n
      let tag := metaTag (s.worldOf i) lvl a ctr m.data
      let chk := (Config.secdedTag tag).toNat
      let d := if lvl = 0 then m.data else BitVec.ofNat 512 (setFld (setFld m.data.toNat 503 448 tag.toNat) 511 504 chk)
      let mem := Memory.setLine s.mem (a / 64) d (BitVec.allOnes 64)
      let mem := if lvl = 0 then Memory.write mem (s.tagPa i n) 16 (tag.toNat + chk * 2 ^ 120) else mem
      ({ s with mem := mem, memPoison := s.memPoison.filter (fun x => x / 2 ≠ a / 64) } : State).setMeta i lvl n { data := d }

/-- Entries that a metadata cache of 2 MiB holds. -/
def metaEntries : Nat := 32768

/-- An entry that may leave: none of its children is held and its page is not under sweep (29 R426, R428). -/
def Seal.free (z : Seal) (i key : Nat) : Bool :=
  let lvl := key / 2 ^ 22
  let n := key % 2 ^ 22
  if lvl = 0 then z.sweeps.all (fun w => decide (pageSlice w.page ≠ i) || decide (pageNo w.page ≠ n))
  else (List.range 8).all (fun c => (spGet z.cache (metaKey (lvl - 1) (8 * n + c))).isNone)

/-- Room for one more entry: where the cache is full, an entry off the path `keep` is written back and leaves. -/
def State.metaRoom (s : State) (i : Nat) (keep : List Nat) : State :=
  let z := (s.slice i).sealing
  if z.cache.length < metaEntries then s
  else
    let out := (z.cache.map (·.1)).filter (fun k => z.free i k && !keep.contains k)
    let (k, s) := s.draw
    match out[(Config.freeValue k).toNat % out.length]? with
    | none => s
    | some x => (s.metaBack i (x / 2 ^ 22) (x % 2 ^ 22)).modSeal i (fun z => { z with cache := spDel z.cache x })

/-- An entry and its ancestors held in the metadata cache. -/
def State.metaHold (s : State) (i : Nat) (keep : List Nat) : Nat → Nat → State
  | 0, n => hold s 0 n
  | down + 1, n => hold (s.metaHold i keep down (n / 8)) (down + 1) n
where
  hold (s : State) (down n : Nat) : State :=
    if (spGet (s.slice i).sealing.cache (metaKey (3 - down) n)).isSome then s
    else match s.metaAt i down n with
    | none => s
    | some d => (s.metaRoom i keep).setMeta i (3 - down) n { data := d }

/-- A page's counter line changed in the metadata cache. -/
def State.setCounterLine (s : State) (page : Nat) (d : BitVec 512) : State :=
  let n := pageNo page
  let i := pageSlice page
  (s.metaHold i [metaKey 0 n, metaKey 1 (n / 8), metaKey 2 (n / 64), metaKey 3 (n / 512)] 3 n).setMeta i 0 n { data := d, dirty := true }

/-! Data lines. -/

/-- The sweep of a page, if one is under way. -/
def State.sweepOf (s : State) (page : Nat) : Option Sweep := (s.slice (pageSlice page)).sealing.sweeps.find? (fun w => w.page = page)

/-- Counters under which a line is stored now, the snapshot's at and above the sweep pointer (29 R428); none where the page's counter
line does not verify. -/
def State.lineCounters (s : State) (la : Nat) : Option (Nat × Nat) :=
  let of (d : BitVec 512) : Nat × Nat := (majorOf d, minorOf d (la % 64))
  match s.sweepOf (linePage la) with
  | some w => if la % 64 < w.ptr then (s.counterLine (linePage la)).map of else some (of w.snap)
  | none => (s.counterLine (linePage la)).map of

/-- A line of sealed memory as read: its data, its poisoned sectors, and whether a tag failed. -/
structure Unsealed where
  data : BitVec 512 := 0
  poison : BitVec 2 := 0
  tagFail : Bool := false
deriving DecidableEq, Repr

/-- A line of sealed memory read under given counters and a compartment's key (29 R425). -/
def State.unsealUnder (s : State) (la comp m n : Nat) : Unsealed :=
  if m = 0 ∧ n = 0 then {}
  else
    let w := s.worldOf (paSlice (64 * la))
    let d := Memory.line s.mem la ^^^ sealPads w comp la m n
    if s.memPoison.contains (s.slotPa la / 32) then { data := d, poison := 3 }
    else
      let bad := decide (sealTag w comp la m n d ≠ BitVec.ofNat 56 (Memory.read s.mem (s.slotPa la) 7))
      { data := d, poison := if bad then 3 else s.memPoisonOf la, tagFail := bad }

def State.unsealLine (s : State) (la comp : Nat) : Unsealed :=
  match s.lineCounters la with
  | none => { poison := 3, tagFail := true }
  | some (m, n) => s.unsealUnder la comp m n

/-- A 32-byte error entry (25 R381). -/
def errEntry (type unit ctx slicelog core code count : Nat) (addr t0 aux : Nat) : Nat :=
  type % 256 + unit % 16 * 2 ^ 8 + ctx % 1024 * 2 ^ 16 + slicelog % 16 * 2 ^ 26 + core % 16 * 2 ^ 30 + code % 256 * 2 ^ 40
    + count % 65536 * 2 ^ 48 + addr % 2 ^ 64 * 2 ^ 64 + t0 % 2 ^ 64 * 2 ^ 128 + aux % 2 ^ 64 * 2 ^ 192

/-- An event met while a line moves: its entries wait in slice `i` until the clock ends (25 R381-R383, log 9). `ctx` is the reader's
context, 1023 that of no context; `va` its virtual address, or 0. -/
def State.errorWaits (s : State) (i type unit la ctx va : Nat) : State :=
  let entry (addr t : Nat) : Nat := errEntry type unit (ctxNum ctx) (i - s.first i) 15 0 1 addr t 0
  s.modSlice i (fun x => { x with errWait := x.errWait ++
    [(entry (64 * la) s.time, entry (64 * (va / 64)) (if ctxNum ctx = 1023 then s.time else s.vtime ctx))] })

/-- A tag that failed as a line was read: TYPE 11 in the line's slice (29 R425). -/
def State.tagFound (s : State) (la ctx va : Nat) : State := s.errorWaits (paSlice (64 * la)) 11 0 la ctx va

/-- Poisoned sectors that a cache of slice `i` writes back or evicts: met and not consumed, TYPE 2 (25 R372). -/
def State.poisonMoves (s : State) (i unit la : Nat) (p : BitVec 2) : State := if p = 0 then s else s.errorWaits i 2 unit la 1023 0

/-- A line sealed under given counters and stored with its slot. -/
def State.sealUnder (s : State) (la comp m n : Nat) (d : BitVec 512) : State :=
  let i := paSlice (64 * la)
  let w := s.worldOf i
  let mem := Memory.setLine s.mem la (d ^^^ sealPads w comp la m n) (BitVec.allOnes 64)
  let s := { s with mem := Memory.write mem (s.slotPa la) 16 (sealSlot w comp la m n d).toNat,
                    memPoison := s.memPoison.filter (fun p => p / 2 ≠ la) }
  s.modSeal i (fun z => { z with comps := spWrite 0 z.comps la comp })

/-- A write of a whole sealed line, or none while it must wait: for the sweep that its minor counter calls for, or for the sweep at its
line (29 R427, R428). A write whose counters do not verify is lost (log 9). -/
def State.sealLine (s : State) (la comp : Nat) (d : BitVec 512) : Option State :=
  let page := linePage la
  let w := s.sweepOf page
  if (match w with | some w => decide (w.ptr = la % 64) | none => false) then none
  else match s.lineCounters la with
  | none => some s
  | some (m, n) =>
    if 127 ≤ n then none
    else
      let s := s.sealUnder la comp m (n + 1) d
      some (match w with
        | some x =>
          if x.ptr < la % 64 then
            let write (y : Sweep) : Sweep := if y.page = page then { y with snap := withMinor y.snap (la % 64) (n + 1) } else y
            s.modSeal (pageSlice page) (fun z => { z with sweeps := z.sweeps.map write })
          else s.setCounterLine page (withMinor ((s.counterLine page).getD 0) (la % 64) (n + 1))
        | none => s.setCounterLine page (withMinor ((s.counterLine page).getD 0) (la % 64) (n + 1)))

def State.setSweepCount (s : State) (i : Nat) : State :=
  s.setSreg i 0x800C (BitVec.ofNat 64 (setFld (s.sreg i 0x800C).toNat 3 1 (s.slice i).sealing.sweeps.length))

/-- Steps 1 and 2 of a sweep for the page of a line whose minor counter is full, if fewer than four are under way (29 R428). -/
def State.startSweep (s : State) (la : Nat) : State :=
  let page := linePage la
  let i := pageSlice page
  let z := (s.slice i).sealing
  match s.counterLine page with
  | none => s
  | some d =>
    if (s.sweepOf page).isSome || decide (4 ≤ z.sweeps.length) || decide (minorOf d (la % 64) < 127) then s
    else
      let w : Sweep := { page := page, snap := d, ptr := 0, comp := spRead 0 z.comps la }
      let s := s.setCounterLine page (BitVec.ofNat 512 ((majorOf d + 1) % 2 ^ 64))
      (s.modSeal i (fun z => { z with sweeps := z.sweeps ++ [w] })).setSweepCount i

/-- Step 3 of a sweep: the line at the pointer is read under the snapshot, written under the new major counter with minor 0,
and committed; after line 63 the sweep ends (29 R428). The line keeps the compartment key it was sealed with; one never written holds
zeros. -/
def State.sweepLine (s : State) (page : Nat) : State :=
  match s.sweepOf page with
  | none => s
  | some w =>
    let i := pageSlice page
    let la := 64 * page + w.ptr
    let (m, n) := (majorOf w.snap, minorOf w.snap w.ptr)
    let comp := if m = 0 ∧ n = 0 then w.comp else spRead 0 (s.slice i).sealing.comps la
    let u := s.unsealUnder la comp m n
    let s := s.sealUnder la comp (majorOf ((s.counterLine page).getD 0)) 0 u.data
    let s := if u.tagFail then s.tagFound la 1023 0 else s
    let s := { s with memPoison := s.memPoison ++ ([0, 1].filter (fun b => u.poison.getLsbD b)).map (fun b => 2 * la + b) }
    let finished := decide (63 ≤ w.ptr)
    let next (l : List Sweep) : List Sweep :=
      if finished then l.filter (fun v => v.page ≠ page) else l.map (fun v => if v.page = page then { v with ptr := v.ptr + 1 } else v)
    let s := (s.modSeal i (fun z => { z with sweeps := next z.sweeps })).setSweepCount i
    if finished then s.setSreg i 0x8010 (BitVec.ofNat 64 (Nat.min ((s.sreg i 0x8010).toNat + 1) 0xFFFFFFFF)) else s

/-- The sweeps of a slice run to their ends. -/
def State.finishSweeps (s : State) (i : Nat) : State :=
  (s.slice i).sealing.sweeps.foldl (fun (s : State) w => (List.range 64).foldl (fun (s : State) _ => s.sweepLine w.page) s) s

/-- FLUSH (29 R423, R426): every dirty counter line and node is written back, level by level. -/
def State.sealFlushAll (s : State) (i : Nat) : State :=
  (List.range 4).foldl (fun (s : State) lvl =>
    (((s.slice i).sealing.cache.map (·.1)).filter (fun k => k / 2 ^ 22 = lvl)).foldl (fun (s : State) k => s.metaBack i lvl (k % 2 ^ 22)) s) s

end Sys2Proof.Machine
end

