-- ==== Sys2Proof/Machine/Cache.lean ====
section
/-! DEFINITION. The memory hierarchy: backing store, homes (deep caches), cluster caches, L1s, constant caches, and what
release and acquire do to them (13 R208-R219; 15 R238; 27 R409; 25 R372). Reads answer data, the poisoned sectors and the state. -/

namespace Sys2Proof.Machine

/-- On whose behalf memory is reached: core, team, context and FIRST of the partition. -/
structure Who where
  core : Nat
  team : Nat
  ctx : Nat
  first : Nat
deriving DecidableEq, Repr

/-- Data of a line and its poisoned sectors. -/
structure Got where
  data : BitVec 512
  poison : BitVec 2
  /-- set by the fill itself only (29 R425) -/
  tagFail : Bool := false
deriving DecidableEq, Repr

/-! Backing store. -/

/-- The poisoned sectors of a line of the backing store set to `p` where `which` says. -/
def State.setMemPoison (s : State) (la : Nat) (which p : BitVec 2) : State :=
  let keep := s.memPoison.filter (fun x => !(decide (x / 2 = la) && which.getLsbD (x % 2)))
  let new := ([0, 1].filter (fun b => which.getLsbD b && p.getLsbD b)).map (fun b => 2 * la + b)
  { s with memPoison := keep ++ new }

/-- A line read from GDDR-7 or host memory (29 R425); `comp` is the key of the mapping. A slice without power answers poison (27 R402). -/
def State.fetchLine (s : State) (la comp : Nat) : Got :=
  if isDevPa (64 * la) && decide (s.slcState (paSlice (64 * la)) = stOff) then { data := 0, poison := 3 }
  else if s.inSealed (64 * la) then
    let u := s.unsealLine la comp
    { data := u.data, poison := u.poison, tagFail := u.tagFail }
  else { data := Memory.line s.mem la, poison := s.memPoisonOf la }

/-- Masked bytes of a line written to GDDR-7 or host memory; none while a sealed line must wait for a sweep (29 R427). -/
def State.storeLine (s : State) (la comp : Nat) (d : BitVec 512) (mask : BitVec 64) (p : BitVec 2) : Option State :=
  if mask = 0 then some s
  else if isDevPa (64 * la) && decide (s.slcState (paSlice (64 * la)) = stOff) then some s
  else if s.inSealed (64 * la) then
    let old := s.fetchLine la comp
    (s.sealLine la comp (lineMerge old.data d mask)).map
      (fun s => s.setMemPoison la 3 (p ||| (old.poison &&& ~~~(sectorsWhole mask))))
  else
    let s := { s with mem := Memory.setLine s.mem la d mask }
    some (s.setMemPoison la (sectorsWhole mask ||| p) p)

/-- As storeLine, after the sweeps that the write must wait for (29 R427). -/
def State.storeNow (s : State) (la comp : Nat) (d : BitVec 512) (mask : BitVec 64) (p : BitVec 2) : State :=
  match s.storeLine la comp d mask p with
  | some s => s
  | none =>
    let i := paSlice (64 * la)
    let s := ((s.finishSweeps i).startSweep la).finishSweeps i
    (s.storeLine la comp d mask p).getD s

/-! Deep caches: the homes (13 R209). -/

def State.setDeep (s : State) (i la : Nat) (x : DLine) : State := s.modSlice i (fun v => { v with deep := spPut v.deep la x })
def State.dropDeep (s : State) (i la : Nat) : State := s.modSlice i (fun v => { v with deep := spDel v.deep la })

/-- The home of a line holds it. -/
def State.held (s : State) (first la : Nat) : Bool := (spGet (s.slice (homeSlice first (64 * la))).deep la).isSome

/-- A deep-cache line's dirty bytes written back; none while it must wait. Only the poison of sectors with dirty bytes goes with them. -/
def State.cleanDeep (s : State) (i la : Nat) : Option State :=
  match spGet (s.slice i).deep la with
  | none => some s
  | some x =>
    if x.dirty = 0 then some s
    else
      let p := x.poison &&& sectorsOf x.dirty
      (s.storeLine la x.comp x.data x.dirty p).map (fun s => (s.setDeep i la { x with dirty := 0, writers := [] }).poisonMoves i 1 la p)

/-- A deep line's dirty bytes written back, after the sweeps that it must wait for. -/
def State.cleanThrough (s : State) (i la : Nat) : State :=
  match s.cleanDeep i la with
  | some s => s
  | none =>
    let s := ((s.finishSweeps i).startSweep la).finishSweeps i
    (s.cleanDeep i la).getD s

/-- The set of a line in its slice's deep cache of 262,144 sets of 16 ways (13 R208, log 8). -/
def setNo (la : Nat) : Nat := Config.deepSet la % 262144

/-- Lines of the set that `la` lies in; a deep cache with fewer than 12 lines has no set that a limit applies to. -/
def deepSetOf (v : Slice) (la : Nat) : List (Nat × DLine) :=
  if v.deep.length < 12 then [] else v.deep.filter (fun e => setNo e.1 = setNo la)

/-- A line that counts as one of a context's ways (27 R409): pinned for it, or unpinned and allocated by it. -/
def DLine.countsFor (x : DLine) (c : Nat) : Bool := if x.pins.isEmpty then decide (x.ctx = c) else x.pins.any (fun p => decide (p.1 = c))

/-- The least recently used of some lines. -/
def lru (l : List (Nat × DLine)) : Option Nat :=
  (l.foldl (fun (a : Option (Nat × Nat)) e =>
    match a with
    | none => some (e.1, e.2.use)
    | some b => if e.2.use < b.2 then some (e.1, e.2.use) else a) none).map (·.1)

/-- Room for a line in its set by 27 R409: the state after the victim's write-back, or none when nothing may be evicted. -/
def State.makeRoom (s : State) (i la ctx : Nat) : Option State :=
  let st := deepSetOf (s.slice i) la
  if st.length < 16 then some s
  else
    let exceeds (c : Nat) : Bool := decide ((s.ctx c).ways < (st.filter (fun e => e.2.countsFor c)).length)
    let row1 := st.filter (fun e => e.2.pins.isEmpty && exceeds e.2.ctx)
    let row2 := st.filter (fun e => e.2.pins.isEmpty && decide (e.2.ctx = ctx))
    match (match lru row1 with | some x => some x | none => lru row2) with
    | none => none
    | some victim => (s.cleanDeep i victim).map (fun s => s.dropDeep i victim)

/-- A line at its home for an access: a hit of the same world, or a fill (29 R431). Answers the line; it is allocated unless
`alloc` is false or nothing may be evicted. `va` is the address the access was made at, where it has one. -/
def State.homeLine (s : State) (i la ctx comp : Nat) (alloc : Bool) (va : Nat := 0) : DLine × State :=
  let s := s.modSlice i (fun v => { v with useClock := v.useClock + 1 })
  let w := s.worldOf i
  let hit := spGet (s.slice i).deep la
  let s := match hit with
    | some x => if x.world = w then s else (s.cleanThrough i la).dropDeep i la
    | none => s
  match spGet (s.slice i).deep la with
  | some x =>
    let x := { x with use := (s.slice i).useClock }
    (x, s.setDeep i la x)
  | none =>
    let g := s.fetchLine la comp
    let s := if g.tagFail then s.tagFound la ctx va else s
    let x : DLine := { data := g.data, poison := g.poison, stamp := s.clock, ctx := ctx, world := w, comp := comp,
                       use := (s.slice i).useClock }
    if alloc && decide (s.slcState i ≠ stOff) then
      match s.makeRoom i la ctx with
      | some s => (x, s.setDeep i la x)
      | none => (x, s)
    else (x, s)

/-- A read at the home. A host line older than `fresh` first has its clean bytes refreshed from host memory (13 R212, R219). -/
def State.homeRead (s : State) (first la ctx comp : Nat) (alloc : Bool) (fresh : Nat) (va : Nat := 0) : Got × State :=
  let pa := 64 * la
  if isPeerPa pa then ({ data := Memory.line s.mem la, poison := s.memPoisonOf la }, s)
  else
    let i := homeSlice first pa
    let (x, s) := s.homeLine i la ctx comp alloc va
    if isHostPa pa && decide (x.stamp < fresh) then
      let g := s.fetchLine la comp
      let y := { x with data := lineMerge g.data x.data x.dirty, stamp := s.clock,
                        poison := g.poison ||| (x.poison &&& sectorsOf x.dirty) }
      ({ data := y.data, poison := y.poison },
       if (spGet (s.slice i).deep la).isSome then s.setDeep i la y else s)
    else ({ data := x.data, poison := x.poison }, s)

/-- Masked bytes written at the home for the contexts `ctx` and `others`; a whole sector takes the new poison, a partial one keeps its
own, or on an error-tolerant page is zeroed around the write and cleared (25 R372, R379). A line that finds no room is stored at once. -/
def State.homeWrite (s : State) (first la ctx comp : Nat) (d : BitVec 512) (mask : BitVec 64) (p : BitVec 2) (et : Bool)
    (others : List Nat := []) : State :=
  let pa := 64 * la
  if mask = 0 then s
  else if isPeerPa pa then { s with mem := Memory.setLine s.mem la d mask }
  else
    let i := homeSlice first pa
    let (x, s) := s.homeLine i la ctx comp true
    let whole := sectorsWhole mask
    let zero : BitVec 2 := if et then x.poison &&& sectorsOf mask &&& ~~~whole else 0
    let zmask := sectorBytes zero
    let old := lineMerge x.data 0 zmask
    let y := { x with data := lineMerge old d mask, dirty := x.dirty ||| mask ||| zmask, comp := comp,
                      writers := others.foldl (fun l c => insertNew c l) (insertNew ctx x.writers),
                      poison := (x.poison &&& ~~~(whole ||| zero)) ||| p }
    if (spGet (s.slice i).deep la).isSome then s.setDeep i la y
    else s.storeNow la comp y.data y.dirty (y.poison &&& sectorsOf y.dirty)

/-- A pin of a home line for a context, asked for by a cluster; the line is allocated first, and at most 12 lines of a set are pinned
(15 R238). -/
def State.pinLine (s : State) (first la ctx cluster comp : Nat) : State :=
  let i := homeSlice first (64 * la)
  let s := if s.held first la then s else (s.homeLine i la ctx comp true).2
  match spGet (s.slice i).deep la with
  | none => s
  | some x =>
    if x.pins.contains (ctx, cluster) then s
    else
      let pinned := (deepSetOf (s.slice i) la).filter (fun e => !e.2.pins.isEmpty)
      if x.pins.isEmpty && decide (12 ≤ pinned.length) then s.count i diagPinref
      else s.setDeep i la { x with pins := x.pins ++ [(ctx, cluster)] }

/-- A stream access makes the home line the next victim of its set, and clears the pins that the context holds on it (15 R238). -/
def State.streamLine (s : State) (first la ctx : Nat) : State :=
  let i := homeSlice first (64 * la)
  match spGet (s.slice i).deep la with
  | none => s
  | some x => s.setDeep i la { x with use := 0, pins := x.pins.filter (fun p => p.1 ≠ ctx) }

/-! Cluster caches, L1s and constant caches (13 R208). -/

def State.setCc (s : State) (i la : Nat) (x : Line) : State := s.modSlice i (fun v => { v with cc := spPut v.cc la x })
def State.dropCc (s : State) (i la : Nat) : State := s.modSlice i (fun v => { v with cc := spDel v.cc la })
def State.setL1 (s : State) (c la : Nat) (x : Line) : State := s.modCore c (fun v => { v with l1 := spPut v.l1 la x })
def State.dropL1 (s : State) (c la : Nat) : State := s.modCore c (fun v => { v with l1 := spDel v.l1 la })
def State.dropKc (s : State) (c la : Nat) : State := s.modCore c (fun v => { v with kc := spDel v.kc la })

/-- Capacities in lines (01 R28, R29; 13 R208): a cluster cache; a core's L1, twice that where two halves are bound; a constant cache. -/
def ccLines : Nat := 131072
def l1Lines (wide : Bool) : Nat := if wide then 6144 else 3072
def kcLines : Nat := 1024

/-- Union of two lists without repeats. -/
def unionNew (a b : List Nat) : List Nat := b.foldl (fun l x => insertNew x l) a

/-- Masked bytes merged into a line as dirty bytes written by some teams (13 R211). -/
def Line.absorb (x : Line) (d : BitVec 512) (mask : BitVec 64) (p : BitVec 2) (comp : Nat) (ws : List Nat) : Line :=
  { x with data := lineMerge x.data d mask, valid := x.valid ||| mask, dirty := x.dirty ||| mask, comp := comp,
           poison := (x.poison &&& ~~~(sectorsWhole mask)) ||| (p &&& sectorsOf mask), writers := unionNew x.writers ws }

/-- Clean bytes of a line taken from another copy, under its own dirty bytes. -/
def Line.refill (x : Line) (d : BitVec 512) (p : BitVec 2) (stamp comp : Nat) : Line :=
  { x with data := lineMerge d x.data x.dirty, valid := BitVec.allOnes 64, refresh := false, stamp := stamp, comp := comp,
           poison := (p &&& ~~~(sectorsWhole x.dirty)) ||| (x.poison &&& sectorsOf x.dirty) }

/-- A line with its clean bytes dropped (13 R211). -/
def Line.forget (x : Line) : Line := { x with valid := x.dirty, refresh := false, poison := x.poison &&& sectorsOf x.dirty }

/-- A line serves a team's reads: all its bytes, none due for refresh, filled at or after the team's acquire stamp (13 R212, R219). -/
def Line.serves (x : Line) (acqStamp : Nat) : Bool :=
  decide (x.valid = BitVec.allOnes 64) && !x.refresh && decide (acqStamp ≤ x.stamp)

/-- An L1 line's dirty bytes moved to its slice's cluster cache (13 R208). -/
def State.cleanL1 (s : State) (c la : Nat) : State :=
  match spGet (s.core c).l1 la with
  | none => s
  | some x =>
    if x.dirty = 0 then s
    else
      let i := coreSlice c
      let y := ((spGet (s.slice i).cc la).getD {}).absorb x.data x.dirty x.poison x.comp x.writers
      ((s.setCc i la y).setL1 c la { x with dirty := 0 }).poisonMoves i 3 la (x.poison &&& sectorsOf x.dirty)

/-- Contexts of some teams. -/
def State.ctxsOf (s : State) (ts : List Nat) : List Nat := ts.foldl (fun l t => insertNew (s.team t).ctx l) []

/-- A cluster-cache line's dirty bytes written back to the home (13 R211); peer lines are never held. -/
def State.cleanCc (s : State) (i la : Nat) : State :=
  match spGet (s.slice i).cc la with
  | none => s
  | some x =>
    if x.dirty = 0 then s
    else
      let cs := s.ctxsOf x.writers
      let p := x.poison &&& sectorsOf x.dirty
      ((s.homeWrite (s.first i) la (cs.headD 0) x.comp x.data x.dirty p false cs).setCc i la { x with dirty := 0 }).poisonMoves i 2 la p

/-- A line leaves the L1s of a slice's cores, its dirty bytes moved to the cluster cache. -/
def State.dropL1s (s : State) (i la : Nat) : State :=
  (((List.range 16).map (coreKey i)).filter (fun c => (spGet (s.core c).l1 la).isSome)).foldl (fun s c => (s.cleanL1 c la).dropL1 c la) s

/-- A line leaves a cluster cache and the L1s under it, its dirty bytes written to the home. -/
def State.evictCc (s : State) (i la : Nat) : State := ((s.dropL1s i la).cleanCc i la).dropCc i la

/-- A line to evict from a full cache: one allocated as the next victim, else any one (15 R238, 13 R211, log 8). -/
def State.pickVictim (s : State) (l : Sp Line) : Option Nat × State :=
  match l.find? (fun e => e.2.victim) with
  | some e => (some e.1, s)
  | none =>
    let (k, s) := s.draw
    ((l[(Config.freeValue k).toNat % l.length]?).map (·.1), s)

/-- A line put into a cluster cache, after an eviction where it is full. -/
def State.putCc (s : State) (i la : Nat) (x : Line) : State :=
  let l := (s.slice i).cc
  if (spGet l la).isSome || decide (l.length < ccLines) then s.setCc i la x
  else
    let (v, s) := s.pickVictim l
    (match v with | some v => s.evictCc i v | none => s).setCc i la x

/-- A line put into a core's L1, after an eviction where it is full. -/
def State.putL1 (s : State) (c la : Nat) (x : Line) : State :=
  let l := (s.core c).l1
  if (spGet l la).isSome || decide (l.length < l1Lines (s.core c).wide) then s.setL1 c la x
  else
    let (v, s) := s.pickVictim l
    (match v with | some v => (s.cleanL1 c v).dropL1 c v | none => s).setL1 c la x

/-- A line put into a core's constant cache, in place of another where it is full. -/
def State.putKc (s : State) (c la : Nat) (x : Line) : State :=
  let l := (s.core c).kc
  let (v, s) := if (spGet l la).isSome || decide (l.length < kcLines) then (none, s) else s.pickVictim l
  (match v with | some v => s.dropKc c v | none => s).modCore c (fun y => { y with kc := spPut y.kc la x })

/-- The cores of the cluster of a team, and the slices they lie in. -/
def State.clusterCores (s : State) (t : Nat) : List Nat :=
  ((s.cluster (s.team t).cluster).teams.map (fun u => (s.team u).core)).foldl (fun l x => insertNew x l) []
def slicesOf (cores : List Nat) : List Nat := (cores.map coreSlice).foldl (fun l x => insertNew x l) []

/-- The other L1s of a team's cluster hand a line's dirty bytes to their cluster caches, and the cluster caches of its other slices hand
them to the home (13 R210). -/
def State.snoop (s : State) (w : Who) (la : Nat) : State :=
  let others := (s.clusterCores w.team).filter (· ≠ w.core)
  let s := others.foldl (fun s c => s.cleanL1 c la) s
  ((slicesOf others).filter (· ≠ coreSlice w.core)).foldl (fun s j => s.cleanCc j la) s

/-- The same with the core's own L1 and cluster cache, so that the home holds every byte the cluster has written. -/
def State.bringHome (s : State) (w : Who) (la : Nat) : State :=
  let s := (s.snoop w la).cleanL1 w.core la
  ((slicesOf (s.clusterCores w.team)).foldl (fun s j => s.cleanCc j la) s).cleanCc (coreSlice w.core) la

/-- The line as a team's cluster has it, brought up to date in the cluster cache of the core's slice (13 R210, R212). A line that its home
does not hold is not allocated (27 R409). -/
def State.ccLine (s : State) (w : Who) (la comp : Nat) (va : Nat := 0) : Line × State :=
  let i := coreSlice w.core
  let s := s.snoop w la
  let old := spGet (s.slice i).cc la
  let x := old.getD {}
  if x.serves (s.team w.team).acqStamp then (x, s)
  else
    let (g, s) := s.homeRead w.first la w.ctx comp true (s.team w.team).sysStamp va
    let y := x.refill g.data g.poison s.clock comp
    (y, if old.isSome || s.held w.first la then s.putCc i la y else s)

/-- Policy numbers of 15 R238 after CPOL (23 R349). -/
def effPol (cpol pol : Nat) : Nat :=
  if cpol = 1 ∧ (pol = 0 ∨ pol = 2) then 3 else if cpol = 2 ∧ pol = 0 then 1 else pol

/-- What POL asks of the home's line (15 R238). -/
def State.applyPol (s : State) (w : Who) (la comp pol : Nat) : State :=
  if isPeerPa (64 * la) then s
  else if pol = 2 then s.pinLine w.first la w.ctx (s.team w.team).cluster comp
  else if pol = 1 then s.streamLine w.first la w.ctx
  else s

/-- A line read by a thread or on its behalf (15 R238): through the L1 and cluster cache, or with `deep` from the home, merged with the
cluster's dirty bytes. -/
def State.readLine (s : State) (w : Who) (la comp pol : Nat) (deep : Bool) (va : Nat := 0) : Got × State :=
  let i := coreSlice w.core
  if isPeerPa (64 * la) then s.homeRead w.first la w.ctx comp false 0 va
  else if deep || decide (pol = 4) then
    let s := s.bringHome w la
    let (g, s) := s.homeRead w.first la w.ctx comp true (s.team w.team).sysStamp va
    (g, s.applyPol w la comp pol)
  else
    let own := spGet (s.core w.core).l1 la
    let (z, s) : Line × State := match own with
      | some x =>
        let (y, s) := if x.serves (s.team w.team).acqStamp then (x, s)
          else
            let (y, s) := s.ccLine w la comp va
            (x.refill y.data y.poison y.stamp comp, s)
        (y, s.setL1 w.core la { y with fillers := insertNew w.team y.fillers, victim := y.victim || decide (pol = 1) })
      | none =>
        let s := s.snoop w la
        if pol = 3 && (spGet (s.slice i).cc la).isNone then
          let (g, s) := s.homeRead w.first la w.ctx comp true (s.team w.team).sysStamp va
          (({} : Line).refill g.data g.poison s.clock comp, s)
        else
          let (y, s) := s.ccLine w la comp va
          let y := { y with victim := y.victim || decide (pol = 1) }
          let s := if pol = 1 && (spGet (s.slice i).cc la).isSome then s.setCc i la y else s
          (y, if pol = 3 || (spGet (s.slice i).cc la).isNone then s
              else s.putL1 w.core la { ({} : Line).refill y.data y.poison y.stamp comp with fillers := [w.team], victim := decide (pol = 1) })
    ({ data := z.data, poison := z.poison }, s.applyPol w la comp pol)

/-- A read of a constant-cache line, filled from the home after the cluster's dirty bytes (13 R208, R217); peer lines are not held. -/
def State.readConst (s : State) (w : Who) (la comp pol : Nat) (va : Nat := 0) : Got × State :=
  if isPeerPa (64 * la) then s.homeRead w.first la w.ctx comp false 0 va
  else
    let (x, s) : Line × State := match spGet (s.core w.core).kc la with
      | some x => (x, s)
      | none =>
        let (g, s) := (s.bringHome w la).homeRead w.first la w.ctx comp true (s.team w.team).sysStamp va
        (({} : Line).refill g.data g.poison s.clock comp, s)
    let s := s.putKc w.core la { x with fillers := insertNew w.team x.fillers, victim := x.victim || decide (pol = 1) }
    ({ data := x.data, poison := x.poison }, s.applyPol w la comp pol)

/-- Before a write the cluster's other L1s, its other slices' cluster caches and its constant caches give the line up; dirty bytes go to
the cluster cache or the home (13 R210, R217). -/
def State.claimLine (s : State) (w : Who) (la : Nat) : State :=
  let cores := s.clusterCores w.team
  let others := cores.filter (· ≠ w.core)
  let s := others.foldl (fun s c => (s.cleanL1 c la).dropL1 c la) s
  let s := ((slicesOf others).filter (· ≠ coreSlice w.core)).foldl (fun s j => s.evictCc j la) s
  (insertNew w.core cores).foldl (fun s c => s.dropKc c la) s

/-- A line that a team writes: bytes of poisoned sectors that the write covers in part are zeroed on an error-tolerant page (25 R379). -/
def Line.zeroAround (x : Line) (mask : BitVec 64) (et : Bool) : Line × BitVec 64 :=
  let zero : BitVec 2 := if et then x.poison &&& sectorsOf mask &&& ~~~(sectorsWhole mask) else 0
  ({ x with data := lineMerge x.data 0 (sectorBytes zero), poison := x.poison &&& ~~~zero }, sectorBytes zero)

/-- Masked bytes written in the L1 of the core (13 R210, R211). A partial write on an error-tolerant page needs the line's own bytes. -/
def State.writeL1 (s : State) (w : Who) (la comp : Nat) (d : BitVec 512) (mask : BitVec 64) (et : Bool) (pol : Nat := 0) (va : Nat := 0) :
    State :=
  let i := coreSlice w.core
  let s := s.claimLine w la
  let x := (spGet (s.core w.core).l1 la).getD {}
  let (x, s) := if et && decide (sectorsOf mask &&& ~~~(sectorsWhole mask) ≠ 0) && !x.serves 0 then
      (let (y, s) := s.ccLine w la comp va
       (x.refill y.data y.poison y.stamp comp, s))
    else (x, s)
  let s := if (spGet (s.slice i).cc la).isSome then s else s.putCc i la { comp := comp, victim := decide (pol = 1) }
  let (x, zmask) := x.zeroAround mask et
  let y := { x with data := lineMerge x.data d mask, valid := x.valid ||| mask ||| zmask, dirty := x.dirty ||| mask ||| zmask, comp := comp,
                    poison := x.poison &&& ~~~(sectorsWhole mask), writers := insertNew w.team x.writers,
                    victim := x.victim || decide (pol = 1) }
  (s.putL1 w.core la y).applyPol w la comp pol

/-- A store written through to its home; copies in the core's L1 and in its cluster cache take the bytes clean (13 R215, 15 R238). -/
def State.writeThrough (s : State) (w : Who) (la comp : Nat) (d : BitVec 512) (mask : BitVec 64) (et : Bool) (pol : Nat := 0) : State :=
  let i := coreSlice w.core
  let s := s.claimLine w la
  let upd (x : Line) : Line :=
    let (x, zmask) := x.zeroAround mask et
    { x with data := lineMerge x.data d mask, dirty := x.dirty &&& ~~~(mask ||| zmask), valid := x.valid ||| mask ||| zmask, comp := comp,
             poison := x.poison &&& ~~~(sectorsWhole mask) }
  let s := match spGet (s.core w.core).l1 la with
    | some x => s.setL1 w.core la { upd x with writers := insertNew w.team x.writers }
    | none => s
  let s := match spGet (s.slice i).cc la with
    | some x => s.setCc i la (upd x)
    | none => s
  (s.homeWrite w.first la w.ctx comp d mask 0 et).applyPol w la comp pol

/-- The home's dirty bytes of a line brought to GDDR-7 or host memory; none while it must wait. -/
def State.toMemory (s : State) (first la : Nat) : Option State :=
  if isPeerPa (64 * la) then some s else s.cleanDeep (homeSlice first (64 * la)) la

/-- The same, after the sweeps that the write must wait for. -/
def State.toMemoryNow (s : State) (first la : Nat) : State :=
  if isPeerPa (64 * la) then s else s.cleanThrough (homeSlice first (64 * la)) la

/-- A line recalled from every L1 and cluster cache of the partition, its dirty bytes merged at the home (13 R213). -/
def State.recallLine (s : State) (first la : Nat) : State := (s.partSlices first).foldl (fun s i => s.evictCc i la) s

/-- A line recalled for an atomic has acted at its home and is granted, clean, to the L1 that asked (13 R213, 15 R244). -/
def State.grantLine (s : State) (w : Who) (la comp : Nat) (g : Got) : State :=
  if isPeerPa (64 * la) || !s.held w.first la then s
  else
    let x := ({} : Line).refill g.data g.poison s.clock comp
    (((s.claimLine w la).putCc (coreSlice w.core) la x).putL1 w.core la { x with fillers := [w.team] })

/-- The dirty bytes that a team wrote, or all of them with `team = none`, brought from the L1 and cluster caches of some cores to
the home, over the lines that `sel` picks (13 R218, R235; 11 R194). -/
def State.flushCores (s : State) (cores : List Nat) (team : Option Nat) (sel : Nat → Bool) : State :=
  let wrote (x : Line) : Bool := decide (x.dirty ≠ 0) && (match team with | some t => x.writers.contains t | none => true)
  let s := cores.foldl (fun s c =>
    (((s.core c).l1.filter (fun e => sel e.1 && wrote e.2)).map (·.1)).foldl (fun s la => s.cleanL1 c la) s) s
  (slicesOf cores).foldl (fun s i =>
    (((s.slice i).cc.filter (fun e => sel e.1 && wrote e.2)).map (·.1)).foldl (fun s la => s.cleanCc i la) s) s

/-- The dirty deep-cache lines that `sel` picks brought to memory; none while one must wait. -/
def State.flushHomes (s : State) (sel : Nat → DLine → Bool) : Option State :=
  (s.slices.map (·.1)).foldl (fun (o : Option State) i =>
    o.bind (fun s => (((s.slice i).deep.filter (fun e => decide (e.2.dirty ≠ 0) && sel e.1 e.2)).map (·.1)).foldl
      (fun o la => o.bind (fun s => s.cleanDeep i la)) (some s))) (some s)

/-- As flushHomes, for the write-backs of terminations, completions and resets: the sweeps that a line must wait for run to their ends. -/
def State.flushHomesNow (s : State) (sel : Nat → DLine → Bool) : State :=
  (s.slices.map (·.1)).foldl (fun s i =>
    (((s.slice i).deep.filter (fun e => decide (e.2.dirty ≠ 0) && sel e.1 e.2)).map (·.1)).foldl (fun s la => s.cleanThrough i la) s) s

/-- Sweeps begun for the lines that `sel` picks and that must wait for one. -/
def State.startSweeps (s : State) (sel : Nat → DLine → Bool) : State :=
  (s.slices.map (·.1)).foldl (fun s i =>
    (((s.slice i).deep.filter (fun e => decide (e.2.dirty ≠ 0) && sel e.1 e.2)).map (·.1)).foldl
      (fun s la => (s.cleanDeep i la).getD (s.startSweep la)) s) s

/-- A line holds bytes that a context wrote. -/
def DLine.wroteBy (c : Nat) (x : DLine) : Bool := x.writers.contains c

/-- Step 2 of a release at a scope (13 R218): the dirty bytes of the team's cluster, since the release covers what happened before it in
the cluster's other teams too (R221, R223, log 13); none while a line must wait for a sweep. -/
def State.releaseAt (s : State) (w : Who) (sc : Scope) : Option State :=
  match sc with
  | .group | .team | .cluster => some s
  | .partition => some (s.flushCores (insertNew w.core (s.clusterCores w.team)) none (fun _ => true))
  | .system => (s.flushCores (insertNew w.core (s.clusterCores w.team)) none (fun _ => true)).flushHomes (fun _ => DLine.wroteBy w.ctx)

/-- The clean bytes of the lines that `sel` picks dropped from a core's L1, and from a slice's cluster cache (13 R211). -/
def State.forgetL1 (s : State) (c : Nat) (sel : Line → Bool) : State :=
  s.modCore c (fun v => { v with l1 := (v.l1.map (fun e => if sel e.2 then (e.1, e.2.forget) else e)).filter (fun e => e.2.valid ≠ 0) })
def State.forgetCc (s : State) (i : Nat) (sel : Line → Bool) : State :=
  s.modSlice i (fun v => { v with cc := v.cc.map (fun e => if sel e.2 then (e.1, e.2.forget) else e) })

/-- The host lines of a home refreshed from host memory (13 R219). -/
def State.refreshHost (s : State) (w : Who) : State :=
  (((s.slice w.first).deep.filter (fun e => isHostPa (64 * e.1))).map (·.1)).foldl
    (fun s la => (s.homeRead w.first la w.ctx 0 true (s.clock + 1)).2) s

/-- Steps 2 and 3 of an acquire at a scope (13 R219), and the constant cache of 15 R242. Clean bytes that a cluster's other teams could
still read after it, and those filled earlier in the same clock, go as well (R211, R221, R223, log 13). -/
def State.acquireAt (s : State) (w : Who) (sc : Scope) : State :=
  match sc with
  | .group | .team | .cluster => s
  | _ =>
    let mates := decide (1 < (s.cluster (s.team w.team).cluster).teams.length)
    let cores := insertNew w.core (s.clusterCores w.team)
    let mine (x : Line) : Bool := x.fillers.contains w.team || x.writers.contains w.team
    let lines := (s.core w.core).l1.filter (fun e => mine e.2)
    let s := lines.foldl (fun s e =>
      if e.2.writers.contains w.team then s.setL1 w.core e.1 { e.2 with refresh := true }
      else (s.cleanL1 w.core e.1).dropL1 w.core e.1) s
    let late (x : Line) : Bool := mates || decide (x.stamp = s.clock)
    let s := cores.foldl (fun s c => (s.forgetL1 c (fun x => late x && !x.refresh)).modCore c (fun v => { v with kc := [] })) s
    let s := (slicesOf cores).foldl (fun s i => s.forgetCc i late) s
    let s := if sc = .system then s.refreshHost w else s
    s.modTeam w.team (fun t => { t with acqStamp := s.clock, sysStamp := if sc = .system then s.clock else t.sysStamp })

/-! Byte ranges at homes, for engines, the host and software. -/

/-- `n` bytes from physical address `pa` read at their homes; poison is the number of poisoned sectors met. -/
def State.homeBytes (s : State) (first ctx comp pa n : Nat) (va : Nat := 0) : Nat × Nat × State :=
  let las := upto (pa / 64) ((pa + n + 63) / 64 - pa / 64)
  las.foldl (fun (v, p, s) la =>
    let lo := Nat.max pa (64 * la)
    let hi := Nat.min (pa + n) (64 * la + 64)
    let (g, s) := s.homeRead first la ctx comp true 0 (if va = 0 then 0 else va + (lo - pa))
    let hits := g.poison &&& sectorsOf (byteMask (lo - 64 * la) (hi - lo))
    (v + lineGet g.data (lo - 64 * la) (hi - lo) * 2 ^ (8 * (lo - pa)),
     p + (if hits.getLsbD 0 then 1 else 0) + (if hits.getLsbD 1 then 1 else 0), s)) (0, 0, s)

/-- `n` bytes written at their homes from `pa` on. -/
def State.homePut (s : State) (first ctx comp pa n v : Nat) (et : Bool) : State :=
  let las := upto (pa / 64) ((pa + n + 63) / 64 - pa / 64)
  las.foldl (fun s la =>
    let lo := Nat.max pa (64 * la)
    let hi := Nat.min (pa + n) (64 * la + 64)
    s.homeWrite first la ctx comp (lineAt (lo - 64 * la) (hi - lo) (v / 2 ^ (8 * (lo - pa))))
      (byteMask (lo - 64 * la) (hi - lo)) 0 et) s

/-- `n` bytes performed at system scope by the device itself (records, entries, completion pairs): at the home and in memory. -/
def State.systemPut (s : State) (first ctx comp pa n v : Nat) : State :=
  let s := s.homePut first ctx comp pa n v false
  (upto (pa / 64) ((pa + n + 63) / 64 - pa / 64)).foldl (fun s la => s.toMemoryNow first la) s

end Sys2Proof.Machine
end

