-- ==== Sys2Proof/Machine/Translate.lean ====
section
/-! DEFINITION. Page tables, walks, permissions and TLBs (23 R345-R353; 15 R239; 29 R424, R432). -/

namespace Sys2Proof.Machine

/-- How an access uses a page: a program's read, write, or both; a fetch; a read by a texture or ray-test unit (29 R432); and a read by a
translation agent, which no permission holds back (19 R287, R290). -/
inductive AccK where
  | read | write | both | fetch | unit | agent
deriving DecidableEq, Repr

/-- The ACC codes of 23 R363. -/
def AccK.code : AccK → Nat
  | .write => 1
  | .both => 2
  | .fetch => 3
  | _ => 0

/-- A number for each use, and back. -/
def AccK.num : AccK → Nat
  | .read => 0
  | .write => 1
  | .both => 2
  | .fetch => 3
  | .unit => 4
  | .agent => 5
def AccK.ofNum : Nat → AccK
  | 0 => .read
  | 1 => .write
  | 2 => .both
  | 3 => .fetch
  | 4 => .unit
  | _ => .agent

def AccK.writes : AccK → Bool
  | .write | .both => true
  | _ => false

/-- Outcome of a walk (23 R350). -/
inductive WalkRes where
  | done (e : TlbEnt)
  | fault (kind : Nat)
  | poison (pa : Nat)
  | unbacked (pa : Nat)
deriving DecidableEq, Repr

/-! Leaf-entry fields (23 R348). -/

def leafV (x : DWord) : Bool := x.getLsbD 0
def leafR (x : DWord) : Bool := x.getLsbD 1
def leafW (x : DWord) : Bool := x.getLsbD 2
def leafX (x : DWord) : Bool := x.getLsbD 3
def leafEt (x : DWord) : Bool := x.getLsbD 4
def leafCpol (x : DWord) : Nat := fld x.toNat 7 5
def leafA (x : DWord) : Bool := x.getLsbD 8
def leafD (x : DWord) : Bool := x.getLsbD 9
def leafComp (x : DWord) : Nat := fld x.toNat 13 10
def leafSealed (x : DWord) : Bool := x.getLsbD 14
def leafSys (x : DWord) : Bool := x.getLsbD 15
def leafFrame (x : DWord) : Nat := fld x.toNat 51 16 * 65536

/-- The physical address of a virtual one under an entry. -/
def TlbEnt.pa (e : TlbEnt) (va : Nat) : Nat := leafFrame e.leaf + (va - e.base)

/-- The entry covers a virtual address of a context. -/
def TlbEnt.hits (e : TlbEnt) (c va : Nat) : Bool := decide (e.ctx = c) && decide (e.base ≤ va) && decide (va < e.base + e.size)

/-- One table entry read at its home: none if unbacked, poison flagged. -/
def State.readEntry (s : State) (first pa : Nat) : Option (DWord × Bool) × State :=
  if s.backed first pa then
    let (v, p, s) := s.homeBytes first (ctxKey first 1023) 0 pa 8
    (some (BitVec.ofNat 64 v, decide (0 < p)), s)
  else (none, s)

/-- The sealing conditions on a leaf that end a walk with KIND 4 (29 R424). -/
def State.sealFault (s : State) (first : Nat) (leaf : DWord) (size : Nat) : Bool :=
  let pa := leafFrame leaf
  let inside := s.inSealed pa && s.inSealed (pa + size - 1) && decide (paSlice pa = paSlice (pa + size - 1))
  let overlap := s.inSealed pa || s.inSealed (pa + size - 1)
  decide (8 ≤ leafComp leaf) ||
    (if leafSealed leaf then !inside || decide (s.worldOf first = 0) else overlap)

/-- The leaf level of a walk. -/
def State.walkLeaf (s : State) (first c va la size : Nat) : WalkRes × State :=
  match s.readEntry first la with
  | (none, s) => (.fault 4, s)
  | (some (_, true), s) => (.poison la, s)
  | (some (x, false), s) =>
    if !leafV x then (.fault 3, s)
    else if fld x.toNat 63 52 ≠ 0 ∨ 3 ≤ leafCpol x ∨ leafFrame x % size ≠ 0 ∨ s.sealFault first x size = true then (.fault 4, s)
    else if !s.backed first (leafFrame x + va % size) then (.unbacked (leafFrame x + va % size), s)
    else (.done { ctx := c, base := va / size * size, size := size, leaf := x, leafAddr := la }, s)

/-- A walk of the context's table (23 R345-R350). -/
def State.walk (s : State) (c va : Nat) : WalkRes × State :=
  let first := ctxFirst c
  let root := (s.ctx c).ptroot
  if root = 0 then (.fault 0, s)
  else match s.readEntry first (root + 8 * fld va 49 41) with
  | (none, s) => (.fault 4, s)
  | (some (_, true), s) => (.poison (root + 8 * fld va 49 41), s)
  | (some (x, false), s) =>
    if !x.getLsbD 0 then (.fault 0, s)
    else if fld x.toNat 11 1 ≠ 0 ∨ fld x.toNat 63 52 ≠ 0 then (.fault 4, s)
    else match s.readEntry first (fld x.toNat 51 12 * 4096 + 8 * fld va 40 32) with
    | (none, s) => (.fault 4, s)
    | (some (_, true), s) => (.poison (fld x.toNat 51 12 * 4096 + 8 * fld va 40 32), s)
    | (some (y, false), s) =>
      if !y.getLsbD 0 then (.fault 1, s)
      else if fld y.toNat 11 1 ≠ 0 ∨ fld y.toNat 63 52 ≠ 0 then (.fault 4, s)
      else match s.readEntry first (fld y.toNat 51 12 * 4096 + 8 * fld va 31 23) with
      | (none, s) => (.fault 4, s)
      | (some (_, true), s) => (.poison (fld y.toNat 51 12 * 4096 + 8 * fld va 31 23), s)
      | (some (z, false), s) =>
        let ptr := fld z.toNat 51 3 * 8
        if fld z.toNat 1 0 = 0 then (.fault 2, s)
        else if fld z.toNat 2 2 ≠ 0 ∨ fld z.toNat 63 52 ≠ 0 then (.fault 4, s)
        else if fld z.toNat 1 0 = 1 then
          (if ptr % 1024 ≠ 0 then (.fault 4, s) else s.walkLeaf first c va (ptr + 8 * fld va 22 16) 0x10000)
        else if fld z.toNat 1 0 = 2 then
          (if ptr % 32 ≠ 0 then (.fault 4, s) else s.walkLeaf first c va (ptr + 8 * fld va 22 21) 0x200000)
        else s.walkLeaf first c va ptr 0x800000

/-- A and D set in the leaf entry at its home as the translation is installed (23 R351). -/
def State.markLeaf (s : State) (e : TlbEnt) (wr : Bool) : TlbEnt × State :=
  let x := e.leaf ||| 0x100 ||| (if wr then 0x200 else 0)
  if x = e.leaf then (e, s)
  else ({ e with leaf := x },
        s.homePut (ctxFirst e.ctx) (ctxKey (ctxFirst e.ctx) 1023) 0 e.leafAddr 8 x.toNat false)

/-- A translation installed in a core's TLB, replacing what covered the page. -/
def State.installTlb (s : State) (c : Nat) (e : TlbEnt) : State :=
  s.modCore c (fun x => { x with tlb := e :: x.tlb.filter (fun o => !o.hits e.ctx e.base && !e.hits o.ctx o.base) })

/-- The translation a core holds for an access: a write needs an entry whose D is already set (23 R351, R353). -/
def State.tlbFind (s : State) (c x va : Nat) (wr : Bool) : Option TlbEnt :=
  (s.core c).tlb.find? (fun e => e.hits x va && (!wr || leafD e.leaf))

/-- An outbound access to peer memory is answered by an error (01 R36, log 8). -/
def State.peerError (s : State) (pa : Nat) : Bool := isPeerPa pa && Config.peerRefuses pa s.clock

/-- A lane's last-page register takes the translation used (23 R353). -/
def State.touchLast (s : State) (c lane : Nat) (e : TlbEnt) : State :=
  s.modCore c (fun x => { x with last := spPut x.last lane e })

/-- What a use of a page at `va` is refused with: the permissions of 15 R239 and the compartment check of 29 R432, a cancelled fault for the
texture and ray-test units; a fetch needs X and SYS = 0 (05 R110). -/
def State.refusal (s : State) (c va : Nat) (leaf : DWord) (k : AccK) : Option Cause :=
  let addr := BitVec.ofNat 64 va
  let prot : Cause := { code := 0x06, addr := addr, aux := 6 }
  let comp := (s.ctx c).compmask.getLsbD (leafComp leaf)
  let need (ok : Bool) : Option Cause := if ok && comp && !leafSys leaf then none else some prot
  match k with
  | .read => need (leafR leaf)
  | .write => need (leafW leaf)
  | .both => need (leafR leaf && leafW leaf)
  | .fetch => if leafX leaf && !leafSys leaf then none else some { code := 0x06, addr := addr }
  | .unit => if comp then need (leafR leaf) else some { code := 0x05, addr := addr }
  | .agent => none

def State.permits (s : State) (c : Nat) (leaf : DWord) (k : AccK) : Bool := (s.refusal c 0 leaf k).isNone

/-- What an engine that translates by itself finds for one address. -/
inductive EngX where
  | ok (pa : Nat) (leaf : DWord)
  | fault (kind : Nat)
  | unbacked
  | poison
deriving DecidableEq, Repr

/-- A translation made by an engine, the controller or an agent of the context: a walk, with A and D set as for any agent where the leaf
passes the agent's own checks (23 R351). An access that a link peer answers with an error is as one to no memory (01 R36). -/
def State.engXlate (s : State) (c va : Nat) (k : AccK) (good : DWord → Bool) : EngX × State :=
  match s.walk c va with
  | (.done e, s) =>
    if s.peerError (e.pa va) then (.unbacked, s)
    else if good e.leaf then
      let (e, s) := s.markLeaf e k.writes
      (.ok (e.pa va) e.leaf, s)
    else (.ok (e.pa va) e.leaf, s)
  | (.fault n, s) => (.fault n, s)
  | (.poison _, s) => (.poison, s)
  | (.unbacked _, s) => (.unbacked, s)

/-- `n` bytes at a virtual address read at their homes by the device whatever the page's R, W, X and SYS bits (21 R326);
none when a page does not translate or a sector is poisoned. -/
def State.sysRead (s : State) (c va n : Nat) : Option Nat × State :=
  (upto (va / 64) ((va + n + 63) / 64 - va / 64)).foldl (fun (o, s) la =>
    match o with
    | none => (none, s)
    | some v =>
      let lo := Nat.max va (64 * la)
      let hi := Nat.min (va + n) (64 * la + 64)
      match s.engXlate c lo .read (fun _ => true) with
      | (.ok pa leaf, s) =>
        let (x, p, s) := s.homeBytes (ctxFirst c) c (leafComp leaf % 8) pa (hi - lo) lo
        if p = 0 then (some (v + x * 2 ^ (8 * (lo - va))), s) else (none, s)
      | (_, s) => (none, s)) (some 0, s)

/-- `n` bytes at a virtual address written at their homes by an agent of the context, if every page translates with W = 1 and an
admitted compartment; `sys` also brings them to memory. Answers whether the write was made. -/
def State.agentWrite (s : State) (c va n v : Nat) (anyPage sys : Bool) : Bool × State :=
  let las := upto (va / 64) ((va + n + 63) / 64 - va / 64)
  let (ok, s, ps) := las.foldl (fun (ok, s, ps) la =>
    let lo := Nat.max va (64 * la)
    let hi := Nat.min (va + n) (64 * la + 64)
    let good (leaf : DWord) : Bool := anyPage || (leafW leaf && (s.ctx c).compmask.getLsbD (leafComp leaf))
    match s.engXlate c lo .write good with
    | (.ok pa leaf, s) => (ok && good leaf, s, ps ++ [(lo, hi, pa, leafComp leaf % 8)])
    | (_, s) => (false, s, ps)) (true, s, ([] : List (Nat × Nat × Nat × Nat)))
  if ok then
    (true, ps.foldl (fun s (lo, hi, pa, comp) =>
      if sys then s.systemPut (ctxFirst c) c comp pa (hi - lo) (v / 2 ^ (8 * (lo - va)))
      else s.homePut (ctxFirst c) c comp pa (hi - lo) (v / 2 ^ (8 * (lo - va))) false) s)
  else (false, s)

end Sys2Proof.Machine
end

