-- ==== Sys2Proof/Machine/Local.lean ====
section
/-! DEFINITION. The local stores of a team with their full/empty bits (13 R200, R202, R205), and the virtual and physical error
queues (25 R380-R383), completion pairs (21 R332) and the diagnostic record (23 R370). -/

namespace Sys2Proof.Machine

/-! Local stores. A key is space number × 2^24 + offset; cspad names the SPAD of another team. -/

def spaceNum : Space → Nat
  | .glb => 0
  | .spad => 1
  | .wbuf => 2
  | .abuf => 3
  | .cbuf => 4
  | .cspad => 5
  | .cnst => 6

def spaceOf : Nat → Space
  | 0 => .glb
  | 1 => .spad
  | 2 => .wbuf
  | 3 => .abuf
  | 4 => .cbuf
  | 5 => .cspad
  | _ => .cnst

def spaceBase (sp : Nat) : Nat := sp * 0x1000000

/-- Declared size of a local region (13 R200). -/
def Team.region (t : Team) (sp : Nat) : Nat :=
  match sp with
  | 1 => t.sizes.spad
  | 2 => t.sizes.wbuf
  | 3 => t.sizes.abuf
  | 4 => t.sizes.cbuf
  | _ => 0

def Team.readLocal (t : Team) (sp off n : Nat) : Nat := Memory.read t.bytes (spaceBase sp + off) n

/-- Sectors of a local range (25 R372). -/
def localSectors (sp off n : Nat) : List Nat :=
  if n = 0 then [] else upto ((spaceBase sp + off) / 32) ((spaceBase sp + off + n - 1) / 32 + 1 - (spaceBase sp + off) / 32)

def Team.poisonedAt (t : Team) (sp off n : Nat) : Bool := (localSectors sp off n).any (fun x => t.poison.contains x)

/-- Bytes written to a local store; a sector covered whole loses its poison (25 R372). -/
def Team.writeLocal (t : Team) (sp off n v : Nat) : Team :=
  let a := spaceBase sp + off
  { t with bytes := Memory.write t.bytes a n v,
           poison := t.poison.filter (fun x => !(decide (a ≤ 32 * x) && decide (32 * x + 32 ≤ a + n))) }

/-- Granules that hold a byte of a range (13 R205). -/
def granules (sp off n : Nat) : List Nat :=
  if n = 0 then [] else upto ((spaceBase sp + off) / 16) ((spaceBase sp + off + n - 1) / 16 + 1 - (spaceBase sp + off) / 16)

def Team.allFull (t : Team) (sp off n : Nat) : Bool := (granules sp off n).all (fun g => t.full.contains g)
def Team.setFull (t : Team) (sp off n : Nat) : Team := { t with full := unionNew t.full (granules sp off n) }
def Team.setEmpty (t : Team) (sp off n : Nat) : Team :=
  { t with full := t.full.filter (fun g => !(granules sp off n).contains g) }

/-! Rings written by the device. -/

/-- Corrected errors and TYPE 12 events, of which those of one unit and one 4 KiB frame within 1 ms are merged (25 R382); both are given
as the physical log has them. -/
def merges (e : Nat) : Bool := fld e 7 0 == 1 || fld e 7 0 == 12
def mergesWith (old new : Nat) : Bool :=
  merges new && fld old 15 0 == fld new 15 0 && fld old 127 76 == fld new 127 76 && decide (fld new 191 128 < fld old 191 128 + 1000000)

/-- An entry `e` appended to an error queue whose registers are read and written by the given functions (25 R380), or counted in an
unread entry that it merges with; `phys` is the entry of the physical log, and slice `home` remembers the entries that others may join. -/
def State.errRing (s : State) (home first base ctl head tail lost : Nat) (get : State → Nat → DWord)
    (set : State → Nat → DWord → State) (f : Func) (phys e : Nat) : State :=
  let c := (get s ctl).toNat
  let h := (get s head).toNat
  let t := (get s tail).toNat
  let n := 2 ^ fld c 4 0
  let virt := decide (f ≠ .pf)
  let at_ (i : Nat) : Nat := (get s base).toNat + 32 * (i % n)
  let used := (h + 2 ^ 32 - t) % 2 ^ 32
  let lose (s : State) : State := set s lost (BitVec.ofNat 64 (Nat.min ((get s lost).toNat + 1) 0xFFFFFFFF))
  if fld c 8 8 = 0 then lose s
  else match (s.slice home).merged.find? (fun (m : Merged) =>
      decide (m.virt = virt) && mergesWith m.entry phys && decide ((m.idx + 2 ^ 32 - t) % 2 ^ 32 < used)) with
  | some m =>
    let prev := (s.homeBytes first (ctxKey first 1023) 0 (at_ m.idx) 32).1
    s.systemPut first (ctxKey first 1023) 0 (at_ m.idx) 32 (setFld prev 63 48 (Nat.min (fld prev 63 48 + 1) 0xFFFF))
  | none =>
    if n ≤ used then lose s
    else
      let s := s.systemPut first (ctxKey first 1023) 0 (at_ h) 32 e
      let s := if merges phys then s.modSlice home (fun (v : Slice) => { v with
          merged := v.merged.filter (fun m => decide (s.time < fld m.entry 191 128 + 1000000)) ++ [{ virt := virt, entry := phys, idx := h }] }) else s
      (set s head (BitVec.ofNat 64 ((h + 1) % 2 ^ 32))).signal f 2

/-- The two entries of an event appended: to the physical log of its slice and to the virtual queue of its partition (25 R383). -/
def State.appendError (s : State) (i : Nat) (phys virt : Nat) : State :=
  let first := s.first i
  let blk := 0x3100 + 0x40 * i
  let s := s.errRing i first (blk + 0x10) (blk + 0x18) (blk + 0x1C) (blk + 0x20) (blk + 0x24) State.pfreg State.setPfreg .pf phys phys
  s.errRing first first 0x3010 0x3018 0x301C 0x3020 0x3024 (fun s o => s.sreg first o) (fun s o v => s.setSreg first o v) (.vf first) phys virt

/-- An event logged (25 R381-R383); it waits while its slice's controller changes firmware (27 R420). `c` is the context's key if it
has one, `core` the logical position or 15. -/
def State.logError (s : State) (i : Nat) (type unit : Nat) (c : Option Nat) (core code : Nat) (va pa aux : Nat) (t0 : Option Nat := none) :
    State :=
  let cn := (c.map ctxNum).getD 0x3FF
  let entry (addr t : Nat) : Nat := errEntry type unit cn (i - s.first i) core code 1 addr t aux
  let phys := entry pa (t0.getD s.time)
  let virt := entry va (t0.getD ((c.map s.vtime).getD s.time))
  let s := match c with
    | some k =>
      let f := ctxFirst k
      if f = s.first i then s
      else s.errRing f f 0x3010 0x3018 0x301C 0x3020 0x3024 (fun s o => s.sreg f o) (fun s o v => s.setSreg f o v) (.vf f) phys virt
    | none => s
  if (s.slice i).fwBusy then s.modSlice i (fun x => { x with errWait := x.errWait ++ [(phys, virt)] })
  else s.appendError i phys virt

/-- The completion pair of a launch (21 R332): status 0 DONE, 1 REJECTED, 2 TERMINATED. None is written where DONEADDR is 0 or no
address of a pair. -/
def State.writePair (s : State) (c : Nat) (l : Launch) (status reason relaunches : Nat) : State :=
  if l.doneAddr = 0 ∨ l.doneAddr % 16 ≠ 0 ∨ 2 ^ 50 ≤ l.doneAddr then s
  else (s.agentWrite c l.doneAddr 16
    (l.doneVal.toNat + status % 256 * 2 ^ 64 + reason % 256 * 2 ^ 72 + Nat.min relaunches 0xFFFF * 2 ^ 80) true true).2

end Sys2Proof.Machine
end

