-- ==== Sys2Proof/Machine/Ops.lean ====
section
/-! DEFINITION. The named operations on threads, groups, teams and contexts: waits and their releases, ends, taking a trap
(11 R198) and returning from it (R199), termination (23 R369, R370), poison and the kill of a cluster (25 R374-R376). -/

namespace Sys2Proof.Machine

/-! Threads as they really stand: for a group in run-ahead, its checkpoint (23 R359). -/

/-- The group is in run-ahead: its thread records are scratch. -/
def Group.inRa (g : Group) : Bool :=
  match g.park with
  | some p => p.running
  | none => false

def Group.parked (g : Group) : Bool := g.park.isSome

def State.realThread (s : State) (t : Nat) : Option Thread :=
  match (s.group (gidOf t)).park with
  | some p => if p.running then spGet p.threads t else spGet s.threads t
  | none => spGet s.threads t

def State.realThreads (s : State) (g : Nat) : Sp Thread :=
  match (s.group g).park with
  | some p => if p.running then p.threads else s.threadsOfGroup g
  | none => s.threadsOfGroup g

def State.realMask (s : State) (g k : Nat) : Word :=
  match (s.group g).park with
  | some p => if p.running then spRead 0 p.masks k else spRead 0 (s.group g).masks k
  | none => spRead 0 (s.group g).masks k

/-- A change to the thread as it really stands. -/
def State.modReal (s : State) (t : Nat) (f : Thread → Thread) : State :=
  match (s.group (gidOf t)).park with
  | some p =>
    if p.running then s.modGroup (gidOf t) (fun g => { g with park := some { p with threads := spMod p.threads t f } })
    else s.modThread t f
  | none => s.modThread t f

/-- A change that run-ahead does not undo: to the checkpoint and to the scratch copy (23 R360). -/
def State.modBoth (s : State) (t : Nat) (f : Thread → Thread) : State :=
  match (s.group (gidOf t)).park with
  | some p =>
    if p.running then
      (s.modGroup (gidOf t) (fun g => { g with park := some { p with threads := spMod p.threads t f } })).modThread t f
    else s.modThread t f
  | none => s.modThread t f

/-- A change to every thread of a list. -/
def State.eachThread (s : State) (ts : List Nat) (f : Thread → Thread) : State := ts.foldl (fun s t => s.modBoth t f) s

/-- On whose behalf a team reaches memory. -/
def State.whoTeam (s : State) (t : Nat) : Who :=
  let x := s.team t
  { core := x.core, team := t, ctx := x.ctx, first := ctxFirst x.ctx }
def State.whoT (s : State) (tid : Nat) : Who := s.whoTeam (teamOf (gidOf tid))

/-! Instruction boundaries and waits. -/

/-- The thread stands at the instruction `len` words further on; each lookahead bound falls by one (05 R99). -/
def Thread.advance (t : Thread) (len clock : Nat) : Thread :=
  { t with pc := t.pc + BitVec.ofNat 32 len, since := clock, wait := .none, look := t.look.map (fun e => (e.1, e.2 - 1)) }

/-- Leave a wait and pass its instruction. -/
def Thread.leaveWait (t : Thread) (clock : Nat) : Thread :=
  { t.advance t.waitLen clock with wdogBar := 0 }

/-- The wait is one that WDOG_BAR counts (03 R76). -/
def Wait.counted : Wait → Bool
  | .mask _ | .bar | .clbar | .phaser _ _ _ | .collective | .fullEmpty _ => true
  | _ => false

/-- Write a predicate; predicate 0 is not written. -/
def Thread.setPred (t : Thread) (p : Nat) (v : Bool) : Thread :=
  if p = 0 then t
  else { t with preds := if v then t.preds ||| (1 <<< p) else t.preds &&& ~~~((1 : BitVec 8) <<< p) }

/-- Read a predicate; predicate 0 reads as true. -/
def Thread.pred (t : Thread) (p : Nat) : Bool := p == 0 || t.preds.getLsbD p

/-- Threads that wait on a phaser for a phase other than `phase`, or all of them on a drop. -/
def State.phaserWaiters (s : State) (loc : PhLoc) (dropped : Bool) (phase : Word) : List Nat :=
  (s.threads.filter (fun e => match ((s.realThread e.1).getD {}).wait with
    | .phaser l ph _ => decide (l = loc) && (dropped || decide (ph ≠ phase))
    | _ => false)).map (·.1)

/-- Release of threads that wait on a phaser, for a phase change or a drop (03 R71, R72; 11 R185). -/
def State.releasePhaser (s : State) (ts : List Nat) (dropped : Bool) : State :=
  ts.foldl (fun s t => s.modReal t (fun x =>
    match x.wait with
    | .phaser _ _ p => (x.setPred p dropped).leaveWait s.clock
    | _ => x)) s

/-- A cause kept for delivery at the thread's next instruction boundary (05 R101). -/
def State.defer (s : State) (t : Nat) (c : Cause) (pc : Word) : State :=
  s.modBoth t (fun x => { x with deferred := x.deferred ++ [{ cause := c, pc := pc }] })

/-- A cause deferred to all threads of a group. -/
def State.deferGroup (s : State) (g : Nat) (c : Cause) (pc : Word) : State :=
  (s.threadsOfGroup g).foldl (fun s e => s.defer e.1 c pc) s

/-! Full/empty loads (13 R205, R206). -/

/-- The loads waiting at a team's banks served in the order in which they reached them: each needs all its granules full and no
earlier waiting load on one of them; a consume empties them in the same action. -/
def State.serveFull (s : State) (team : Nat) : State :=
  let waits (s : State) (e : FeWait) : Bool := match s.realThread e.tid with
    | some t => decide (t.wait = .fullEmpty e.id)
    | none => false
  let (s, _) := (s.team team).feq.foldl (fun (acc : State × List Nat) e =>
    let (s, held) := acc
    if e.got.isSome || !waits s e then (s, held)
    else
      let gs := granules e.sp e.off e.n
      if gs.any (fun g => held.contains g) || !(s.team team).allFull e.sp e.off e.n then (s, held ++ gs)
      else
        let x := (s.team team).readLocal e.sp e.off e.n
        let s := s.modTeam team (fun t =>
          let t : Team := { t with feq := t.feq.map (fun f => if f.id = e.id then { f with got := some x } else f) }
          if e.consume then t.setEmpty e.sp e.off e.n else t)
        (s.modReal e.tid (fun t => { t with wait := .retry, readyAt := s.clock, wdogBar := 0 }), held)) (s, [])
  s.modTeam team (fun t => { t with feq := t.feq.filter (fun e => e.got.isSome || waits s e) })

/-! Stores in flight. -/

/-- A store performed at its own scope (13 R215); none while its line must wait for a sweep (29 R427) or its home for the end of a
reset (27 R402). -/
def State.performStore (s : State) (st : Store) : Option State :=
  if st.acted then
    st.flush.foldl (fun (o : Option State) la => o.bind (fun s => s.toMemory (ctxFirst (s.team st.team).ctx) la)) (some s)
  else if st.space = .glb && !s.homeOpen st.pa then none
  else match st.space with
  | .glb =>
    let w := s.whoTeam st.team
    let la := st.pa / 64
    let off := st.pa % 64
    let d := lineAt off st.size st.data
    let m := byteMask off st.size
    let through := st.scope = .partition ∨ st.scope = .system ∨ 3 ≤ st.pol ∨ isPeerPa st.pa = true
    if through then
      let s := s.writeThrough w la st.comp d m st.et st.pol
      if st.scope = .system then s.toMemory w.first la else some s
    else some (s.writeL1 w la st.comp d m st.et st.pol st.va)
  | sp =>
    let n := if sp = .cspad then 1 else spaceNum sp
    let s := s.modTeam st.team (fun t =>
      let t := t.writeLocal n st.pa st.size st.data
      if st.setFull then t.setFull n st.pa st.size else t)
    some (if st.setFull then s.serveFull st.team else s)

/-- A store performed and counted: STC of its thread falls. -/
def State.finishStore (s : State) (st : Store) : State :=
  match s.performStore st with
  | some s =>
    let s := { s with stores := s.stores.filter (fun x => x.id ≠ st.id) }
    s.modBoth st.tid (fun x => { x with stc := x.stc - 1 })
  | none => s.startSweep (st.pa / 64)

/-- A store performed whatever stands in its way (terminations, kills, the push of a job): sweeps that it must wait for run to their ends,
and a line whose home is in RESET is written in memory. -/
def State.forceStore (s : State) (st : Store) : State :=
  let first := ctxFirst (s.team st.team).ctx
  let la := st.pa / 64
  let s1 :=
    if st.acted then st.flush.foldl (fun (s : State) la => s.toMemoryNow first la) s
    else if st.space = .glb && !s.homeOpen st.pa then
      s.storeNow la st.comp (lineAt (st.pa % 64) st.size st.data) (byteMask (st.pa % 64) st.size) 0
    else match s.performStore st with
      | some s => s
      | none => ((s.performStore { st with scope := .partition }).getD s).toMemoryNow first la
  let s1 := { s1 with stores := s1.stores.filter (fun x => x.id ≠ st.id) }
  s1.modBoth st.tid (fun x => { x with stc := x.stc - 1 })

/-! Release of waits after a change in the group, team or cluster (03 R56, R59, R60, R74). A release orders the waiting threads'
earlier accesses (13 R221), so it comes once their loads and stores have completed (log 14). -/

/-- No load or store of the thread is outstanding. -/
def Thread.quiet (t : Thread) : Bool := t.ldc == 0 && t.stc == 0

/-- Threads that leave a joint wait. -/
def State.releaseAll (s : State) (ts : List (Nat × Thread)) : State :=
  ts.foldl (fun s e => s.modReal e.1 (fun x => x.leaveWait s.clock)) s

/-- Threads that wait on mask `k` are released once every thread set in it waits on it. -/
def State.settleMask (s : State) (g k : Nat) : State :=
  let ts := s.realThreads g
  let m := s.realMask g k
  let waits (t : Thread) : Bool := decide (t.wait = .mask k) && t.quiet
  let waiting := ts.filter (fun e => decide (e.2.wait = .mask k))
  if waiting.isEmpty then s
  else if waiting.all (fun e => e.2.quiet) &&
      (List.range 32).all (fun l => !m.getLsbD l || ((spGet ts (tidOf g l)).map waits).getD true) then s.releaseAll waiting
  else s

def State.settleMasks (s : State) (g : Nat) : State := (upto 1 11).foldl (fun s k => s.settleMask g k) s

/-- The end of a clock: its mask updates are all in, so that the masks are tested for release (03 R59, R60). -/
def State.settleAllMasks (s : State) : State :=
  s.groups.foldl (fun (s : State) e => (s.settleMasks e.1).modGroup e.1 (fun g => { g with joined := [], left := [] })) s

/-- The bin team's clbar acts as bar (11 R195). -/
def waitsBar (isBin : Bool) (t : Thread) : Bool := (decide (t.wait = .bar) || (isBin && decide (t.wait = .clbar))) && t.quiet

def State.settleBar (s : State) (t : Nat) : State :=
  let isBin := (s.team t).binEntry.isSome
  let ts := (s.threadsOfTeam t).map (fun e => (e.1, (s.realThread e.1).getD e.2))
  if !ts.isEmpty && ts.all (fun e => waitsBar isBin e.2) then s.releaseAll ts else s

def State.settleClbar (s : State) (c : Nat) : State :=
  let ts := (s.threadsOfCluster c).map (fun e => (e.1, (s.realThread e.1).getD e.2))
  if !ts.isEmpty && ts.all (fun e => decide (e.2.wait = .clbar) && e.2.quiet) then s.releaseAll ts else s

/-- The joint waits that a thread takes part in, tested again. -/
def State.settleThread (s : State) (tid : Nat) : State :=
  match ((s.realThread tid).getD {}).wait with
  | .bar => s.settleBar (teamOf (gidOf tid))
  | .clbar => (s.settleBar (teamOf (gidOf tid))).settleClbar (s.teamOfT tid).cluster
  | _ => s

/-! Ends of teams, clusters and grids. -/

/-- A partition in DRAIN has nothing left (27 R400). -/
def State.drainedNow (s : State) (f : Nat) : Bool :=
  let cores := (s.partSlices f).flatMap (fun i => (List.range 16).map (coreKey i))
  s.teams.all (fun e => !(cores.contains e.2.core) || (match e.2.state with | .saved _ _ => true | _ => false))
    && cores.all (fun c => let x := s.core c
        x.copies.isEmpty && x.pushes.isEmpty && x.tcmds.isEmpty && decide (x.lease.st = 0) &&
        x.mcmds.all (fun m => match (s.team (teamOf m.gid)).state with | .saved _ _ => true | _ => false))
    && (s.partSlices f).all (fun i => let v := s.slice i
        v.raster.isEmpty && v.fcmds.isEmpty && v.rescmds.isEmpty && v.streams.all (fun e => e.2.frames.isEmpty && e.2.tiles.all (·.read)))
    && (s.slice f).outstanding.isEmpty
    && s.cores.all (fun e => decide (e.2.lease.st = 0) || decide (e.2.lease.first ≠ f))

/-- DRAINED follows the partition (27 R397, R400). -/
def State.drainCheck (s : State) (f : Nat) : State :=
  if s.slcState f = stDrain then
    (s.partSlices f).foldl (fun s i => s.setSlcField i 3 3 (if s.drainedNow f then 1 else 0)) s
  else s

/-- A grid whose clusters and bin teams have all ended, and which has no spawn on its way to a bin, is ready for its completion (21 R332). -/
def State.gridCheck (s : State) (g : Nat) : State :=
  s.modGrid g (fun x =>
    if decide (x.nextCluster = x.lrec.clusters) && s.clusters.all (fun e => decide (e.2.grid ≠ g)) &&
        s.cores.all (fun e => e.2.spawnQ.all (fun r => decide (r.grid ≠ g))) &&
        s.slices.all (fun e => e.2.taskq.all (fun r => decide (r.srec.grid ≠ g))) then { x with phase := 1 } else x)

/-- A cluster without teams ends. -/
def State.clusterCheck (s : State) (c : Nat) : State :=
  match spGet s.clusters c with
  | none => s
  | some x =>
    if x.teams.isEmpty && decide (x.state = .running) then
      let s := { s with clusters := spDel s.clusters c }
      let s := s.modGrid x.grid (fun g => if x.bin then g else { g with ended := g.ended + 1 })
      s.gridCheck x.grid
    else s

/-- A block of a context's save area freed. -/
def State.freeBlock (s : State) (t : Nat) : State :=
  match (s.team t).state with
  | .saved b n => s.modCtx (s.team t).ctx (fun x => { x with blocks := x.blocks.filter (fun e => e ≠ (b, n)) })
  | _ => s

/-- The groups stopped for a team's move go on (21 R344). -/
def State.unhalt (s : State) (t : Nat) : State :=
  { s with groups := s.groups.map (fun (e : Nat × Group) => if e.2.halt = some t then (e.1, { e.2 with halt := none }) else e) }

/-- A team leaves the machine: its record, groups and threads go; nothing is performed. -/
def State.dropTeam (s : State) (t : Nat) : State :=
  let x := s.team t
  let s := s.freeBlock t
  let s := { s with teams := spDel s.teams t, groups := s.groups.filter (fun e => teamOf e.1 ≠ t),
                    threads := s.threads.filter (fun e => teamOf (gidOf e.1) ≠ t) }
  let s := s.modCore x.core (fun c => { c with table := c.table.filter (fun e => e.team ≠ t) })
  (s.unhalt t).modCluster x.cluster (fun c => { c with teams := c.teams.filter (· ≠ t) })

/-- The team ends when it holds no group and, as a bin team, no reserved bin (03 R61, R65). -/
def State.teamCheck (s : State) (t : Nat) : State :=
  let x := s.team t
  let binned := (s.core x.core).bins.any (fun b => b.team = t) || !x.carried.isEmpty
  if (spGet s.teams t).isSome && (s.groupsOf t).isEmpty && !binned then
    let f := ctxFirst x.ctx
    let s := s.flushCores [x.core] (some t) (fun _ => true)
    ((s.dropTeam t).clusterCheck x.cluster).drainCheck f
  else s

/-- The groups that stand in a matrix pair with a group of a team. -/
def State.pairedGroups (s : State) (t : Nat) : List Nat :=
  let ids := ((s.core (s.team t).core).mcmds.filter (fun m => decide (teamOf m.gid = t) && m.started)).filterMap (·.partner)
  s.cores.flatMap (fun e => (e.2.mcmds.filter (fun m => ids.contains m.id && decide (teamOf m.gid ≠ t))).map (·.gid))

/-- The two groups of a pair stop together (03 R77; 21 R344). -/
def State.haltPairs (s : State) (t : Nat) : State :=
  (s.pairedGroups t).foldl (fun (s : State) g => s.modGroup g (fun (x : Group) => { x with halt := some t })) s

/-- A migration stop is taken once every thread of the team stands at a migpt (11 R196); they execute it again after the resume. -/
def State.migCheck (s : State) (t : Nat) : State :=
  let ts := s.threadsOfTeam t
  match (s.team t).mig with
  | some m =>
    if !m.moving && !ts.isEmpty && ts.all (fun e => decide (((s.realThread e.1).getD e.2).wait = .migpt)) then
      let s : State := ts.foldl (fun (s : State) e => s.modReal e.1 (fun x => { x with wait := .none })) s
      (s.haltPairs t).modTeam t (fun (x : Team) => { x with state := .stopping, mig := some { m with moving := true } })
    else s
  | none => s

/-! Removal of a set of teams with all their work (23 R369 steps 1, 2, 4; 25 R376). -/

/-- Copies, commands, pushes, walks, loads, feeds and batches of the groups that `gone` picks are dropped; bound stores are performed. -/
def State.dropWork (s : State) (gone : Nat → Bool) : State :=
  let goneT (t : Nat) : Bool := gone (gidOf t)
  let ids := (s.loads.filter (fun l => goneT l.tid)).map (·.id)
  let keepReqs (w : Walk) : Walk := { w with reqs := w.reqs.filter (fun r => !goneT r.1) }
  let s := { s with loads := s.loads.filter (fun l => !goneT l.tid), promos := s.promos.filter (fun p => !ids.contains p.load),
                    feeds := s.feeds.filter (fun f => !ids.contains f.load),
                    walks := (s.walks.map keepReqs).filter (fun w => !w.reqs.isEmpty) }
  let s : State := (s.stores.filter (fun st => goneT st.tid)).foldl (fun s st => s.forceStore st) s
  let jobs := s.cores.flatMap (fun e => (e.2.mcmds.filter (fun m => gone m.gid)).map (·.id) ++ (e.2.tcmds.filter (fun m => gone m.gid)).map (·.op) ++
      (e.2.pushes.filter (fun p => goneT p.tid)).map (·.id) ++ (e.2.copies.filter (fun c => goneT c.tid)).map (·.id)) ++
    s.slices.flatMap (fun e => (e.2.raster.filter (fun r => gone r.gid)).map (·.id))
  let batchGone (b : FBatch) : Bool := if b.unit = 0 then gone b.who else decide (b.unit < 4) && jobs.contains b.who
  let goneR (r : SpawnRec) : Bool := (r.parent.map goneT).getD false || (r.raster.map (fun x => gone x.2)).getD false
  let unborn := s.cores.flatMap (fun e => (e.2.spawnQ.filter goneR).filterMap (fun r => r.ticketKey.map (·.2)))
  let inCore (c : Core) : Core := { c with
    mcmds := c.mcmds.filter (fun m => !gone m.gid), tcmds := c.tcmds.filter (fun m => !gone m.gid),
    pushes := c.pushes.filter (fun p => !goneT p.tid), copies := c.copies.filter (fun c => !goneT c.tid),
    spawnQ := c.spawnQ.filter (fun r => !goneR r) }
  let ticket (k : Ticket) : Ticket :=
    if (k.tid.map goneT).getD (unborn.contains k.id) then { k with tid := none, st := 2 } else k
  let tile (x : Tile) : Tile := if gone x.gid && !x.read then { x with missing := true, read := true, tids := [] } else x
  let inSlice (v : Slice) : Slice := { v with
    waitingBatches := v.waitingBatches.filter (fun b => !batchGone b),
    outstanding := v.outstanding.filter (fun b => !batchGone b),
    raster := v.raster.filter (fun r => !gone r.gid), fcmds := v.fcmds.filter (fun r => !gone r.gid),
    rescmds := v.rescmds.filter (fun r => !gone r.gid), tickets := v.tickets.map ticket,
    streams := v.streams.map (fun v => (v.1, { v.2 with tiles := v.2.tiles.map tile })) }
  { s with cores := s.cores.map (fun e => (e.1, inCore e.2)), slices := s.slices.map (fun e => (e.1, inSlice e.2)) }

/-- Teams removed with all their work; their stores are performed and their dirty bytes written back. -/
def State.removeTeams (s : State) (ts : List Nat) : State :=
  let gone (g : Nat) : Bool := ts.contains (teamOf g)
  let s := s.dropWork gone
  let s := ts.foldl (fun s t => s.flushCores [(s.team t).core] (some t) (fun _ => true)) s
  ts.foldl (fun s t => s.dropTeam t) s

/-! Termination (23 R369, R370). -/

/-- The 64-byte diagnostic record. -/
def State.diagRecord (s : State) (c : Nat) (d : Diag) : Nat :=
  let (sl, k, slot, lane, grid) := match d.tid with
    | some t =>
      let x := s.teamOfT t
      (x.slicelog, corePos x.core, (s.group (gidOf t)).slot, laneOf t, (s.grid x.grid).number.toNat)
    | none => (0, 0, 0, 0, 0)
  d.code % 256 + d.why % 256 * 2 ^ 8 + ctxNum c * 2 ^ 16 + sl % 16 * 2 ^ 32 + k % 16 * 2 ^ 36 + slot % 128 * 2 ^ 40
    + lane % 32 * 2 ^ 48 + d.pc.toNat * 2 ^ 64 + d.aux.toNat * 2 ^ 96 + d.addr.toNat * 2 ^ 128 + s.vtime c * 2 ^ 192
    + d.waitkind % 256 * 2 ^ 256 + d.waiting % 65536 * 2 ^ 272 + d.needed % 65536 * 2 ^ 288 + grid * 2 ^ 304
    + d.limit.toNat * 2 ^ 336

/-- Step 4's release of bins, saved work and tickets of a context, and step 2's end of its queued work. -/
def State.dropContextWork (s : State) (c : Nat) : State :=
  { s with
    cores := s.cores.map (fun e => (e.1, { e.2 with
      bins := e.2.bins.filter (fun b => b.ctx ≠ c), spawnQ := e.2.spawnQ.filter (fun r => r.ctx ≠ c),
      filter := e.2.filter.filter (fun k => k.1 ≠ c),
      lease := if (e.2.lease.st = 1 ∨ e.2.lease.st = 2) ∧ ctxKey e.2.lease.first e.2.lease.ctx = c then
          { e.2.lease with st := 3, scrubAt := s.clock + 4096 } else e.2.lease,
      tok := spDel e.2.tok c })),
    slices := s.slices.map (fun e => (e.1, { e.2 with
      taskq := e.2.taskq.filter (fun r => r.srec.ctx ≠ c),
      waitingBatches := e.2.waitingBatches.filter (fun b => b.ctx ≠ c),
      outstanding := e.2.outstanding.filter (fun b => b.ctx ≠ c),
      tickets := e.2.tickets.map (fun k => if k.ctx = c then { k with tid := none, st := 2 } else k),
      deep := e.2.deep.map (fun l => (l.1, { l.2 with pins := l.2.pins.filter (fun p => p.1 ≠ c) })) })) }

/-- Steps 1 to 4 of a termination: everything the context runs leaves the machine, its stores performed and its bytes in memory. -/
def State.stopContext (s : State) (c : Nat) : State :=
  let ts := (s.teams.filter (fun e => e.2.ctx = c)).map (·.1)
  let s := (s.removeTeams ts).dropContextWork c
  let s := s.flushHomesNow (fun _ => DLine.wroteBy c)
  { s with clusters := s.clusters.filter (fun e => e.2.ctx ≠ c) }

/-- A context is terminated (23 R369): its work stops, the diagnostic record, the completion pairs and the error entry follow. -/
def State.terminate (s : State) (c : Nat) (d : Diag) : State :=
  if (spGet s.ctxs c).isNone || (s.ctx c).term.isSome then s
  else
    let x := s.ctx c
    let rec_ := s.diagRecord c d
    let (i, k) := match d.tid with
      | some t => let t := s.teamOfT t; (coreSlice t.core, corePos t.core)
      | none => (ctxFirst c, 15)
    let grid := match d.tid with
      | some t => (s.grid (s.teamOfT t).grid).number.toNat
      | none => 0
    let s := s.modCtx c (fun x => { x with term := some d.code, trigger := none, blocks := [] })
    let s := s.stopContext c
    let s := if x.savesize = 0 then s else (s.agentWrite c x.savebase 64 rec_ true true).2
    let gs := s.grids.filter (fun e => e.2.ctx = c)
    let s := gs.foldl (fun s e => s.writePair c e.2.lrec 2 d.code e.2.relaunches) s
    let s := { s with grids := s.grids.filter (fun e => e.2.ctx ≠ c) }
    (s.logError i 6 7 (some c) k d.code 0 0 grid).drainCheck (ctxFirst c)

/-- A grid ends: every byte of its context reaches memory, then its pair is written; the record is no longer retained (21 R332). -/
def State.finishGrid (s : State) (grid : Nat) (g : Grid) : State :=
  let cores := (s.partSlices g.part).flatMap (fun i => (List.range 16).map (coreKey i))
  let s := s.flushCores cores none (fun _ => true)
  let s := s.flushHomesNow (fun _ => DLine.wroteBy g.ctx)
  let s := s.writePair g.ctx g.lrec 0 0 g.relaunches
  { s with grids := spDel s.grids grid }

/-- Rank of a trigger among those of one clock (23 R371): code, then SLICELOG, CORE, GSLOT and LANE of its thread. -/
def State.diagRank (s : State) (d : Diag) : Nat :=
  match d.tid with
  | some t =>
    let x := s.teamOfT t
    (((d.code * 16 + x.slicelog) * 16 + corePos x.core) * 128 + (s.group (gidOf t)).slot) * 32 + laneOf t
  | none => d.code * 2 ^ 20

/-- A trigger of a termination: the context ends with the clock, by the first of the clock's triggers (00 R14; 23 R371). -/
def State.trigger (s : State) (c : Nat) (d : Diag) : State :=
  if (spGet s.ctxs c).isNone || (s.ctx c).term.isSome then s
  else s.modCtx c (fun x => { x with trigger := match x.trigger with
    | some b => if s.diagRank b ≤ s.diagRank d then some b else some d
    | none => some d })

/-- The contexts with a trigger end (23 R369). -/
def State.settleTriggers (s : State) : State :=
  s.ctxs.foldl (fun (s : State) e => match e.2.trigger with
    | some d => s.terminate e.1 d
    | none => s) s

/-! Traps (11 R197-R199). -/

/-- Whether a trap of the thread ends its context: no handler, or already in handler mode (11 R198). -/
def State.trapEnds (s : State) (tid : Nat) : Option Nat :=
  let t := (s.realThread tid).getD {}
  if t.handler then some 2
  else if (s.ctx (s.ctxOfT tid)).ctl.trapbase = 0xFFFFFFFF then some 1 else none

/-- An instruction that the thread has issued counts against the lookahead of those before it (05 R99). -/
def Thread.countLook (t : Thread) : Thread := { t with look := t.look.map (fun e => (e.1, e.2 - 1)) }

/-- The registers of a thread as it enters its handler (11 R198): nothing else changes; it issues there from the next clock on. -/
def Thread.enterHandler (t : Thread) (c : Cause) (trappc base : Word) (clock : Nat) : Thread :=
  { t with trapcode := BitVec.ofNat 32 c.code, trappc := trappc, trapaddr := c.addr, trapaux := c.aux, handler := true,
           pc := base, since := clock, readyAt := clock + 1, wait := .none, wdogBar := 0 }

/-- Taking a trap (11 R198): the thread enters its handler, or triggers the end of its context (00 R12). `pc` is the causing
instruction's PC, `trappc` what TRAPPC takes. Between the issue of a ctlw of TRAPBASE and its completion the new base is used, of
the two that 11 R173 allows (DESIGN CHOICE, log 22). -/
def State.takeTrap (s : State) (tid : Nat) (c : Cause) (pc trappc : Word) : State :=
  if (spGet s.threads tid).isNone then s
  else match s.trapEnds tid with
  | some why =>
    (s.trigger (s.ctxOfT tid) { code := c.code, why := why, tid := some tid, pc := pc, aux := c.aux, addr := c.addr }).modReal tid
      (fun t => { t with readyAt := s.clock + 1 })
  | none =>
    let base := (s.ctx (s.ctxOfT tid)).ctl.trapbase
    s.modReal tid (fun t => t.enterHandler c trappc base s.clock)

/-- Traps of several threads in one clock: each enters alone (00 R14). -/
def State.deliverTraps (s : State) (l : List (Nat × Cause × Word × Word)) : State :=
  l.foldl (fun s (t, c, pc, tp) => s.takeTrap t c pc tp) s

/-- Traps of instructions at their issue: each counts against the lookahead before it (05 R99). -/
def State.trapIssued (s : State) (l : List (Nat × Cause × Word × Word)) : State :=
  (l.foldl (fun (s : State) e => s.modReal e.1 Thread.countLook) s).deliverTraps l

/-- Return from a handler (11 R199). -/
def Thread.leaveHandler (t : Thread) (clock : Nat) : Thread :=
  { t.countLook with handler := false, trapcode := 0, pc := t.trappc, since := clock, wait := .none }

/-- Collective instructions: rows 1 and 2 of 03 R56 for the threads that wait at one. -/
def State.settleCollective (s : State) (g : Nat) : State :=
  let ts := (s.realThreads g).filter (fun e => decide (e.2.wait = .collective))
  let m0 := s.realMask g 0
  let pcs : List Word := ts.map (fun e => e.2.pc)
  let mixed := pcs.any (fun p => decide (some p ≠ pcs.head?))
  if !ts.isEmpty && (decide (m0 ≠ 0xFFFFFFFF) || mixed) then
    s.deliverTraps (ts.map (fun e => (e.1, { code := 0x07 }, e.2.pc, e.2.pc)))
  else s

/-- The bit of lane `l` in mask `k` has been set, or cleared, in this clock by the lane's own thread (11 R175). -/
def Group.markMask (g : Group) (k l : Nat) (set : Bool) : Group :=
  let b : Word := (1 : Word) <<< l
  let on (m : Sp Word) : Sp Word := spWrite 0 m k (spRead 0 m k ||| b)
  let off (m : Sp Word) : Sp Word := spWrite 0 m k (spRead 0 m k &&& ~~~b)
  if set then { g with joined := on g.joined, left := off g.left } else { g with joined := off g.joined, left := on g.left }

/-- A thread ends: its bits leave every mask in the same clock, its lane is freed, and the waits it held back are settled
(03 R59-R61, R74). -/
def State.endThread (s : State) (tid : Nat) : State :=
  let g := gidOf tid
  let t := teamOf g
  let cl := (s.team t).cluster
  let l := laneOf tid
  let s := { s with threads := spDel s.threads tid }
  let s := s.modGroup g (fun x =>
    let y : Group := { x with masks := (x.masks.map (fun e => (e.1, e.2 &&& ~~~((1 : Word) <<< l)))).filter (fun e => e.2 ≠ 0) }
    (upto 1 11).foldl (fun y k => y.markMask k l false) y)
  let s := if (s.threadsOfGroup g).isEmpty then { s with groups := spDel s.groups g } else s.settleCollective g
  let s := ((s.teamCheck t).settleBar t).migCheck t
  s.settleClbar cl

/-- A context's threads have issued, or an engine job of it has advanced, in this clock (23 R368). -/
def State.stir (s : State) (c : Nat) : State := s.modCtx c (fun x => { x with stirred := true })

/-! Poison (25 R374-R376). -/

/-- The kill of a cluster: its work stops and is released, and it waits to be placed again. -/
def State.killCluster (s : State) (c : Nat) : State :=
  let x := s.cluster c
  let t0 := x.teams.head?.getD 0
  let core := (s.team t0).core
  let grid := (s.grid x.grid).number.toNat
  let s := s.modCluster c (fun x => { x with killing := true })
  let s := s.removeTeams x.teams
  let s := s.modCluster c (fun x => { x with state := .killed, teams := [], killing := false, chosen := none, closed := false })
  let unpin (l : DLine) : DLine := { l with pins := l.pins.filter (fun p => p.2 ≠ c) }
  let s : State := { s with slices := s.slices.map (fun (e : Nat × Slice) => (e.1, { e.2 with deep := e.2.deep.map (fun l => (l.1, unpin l.2)) })) }
  s.logError (coreSlice core) 4 9 (some x.ctx) (corePos core) 0 0 0 (grid + x.idx.toNat * 2 ^ 32)

/-- Poison consumed on behalf of a thread (25 R374): the base outcome, logged with its trap code (a local store has no
virtual address), the kill of its cluster, or the end of its context. -/
def State.consumeAs (s : State) (code tid : Nat) (unit va pa : Nat) (base : State → State) : State :=
  let team := s.teamOfT tid
  let cl := s.cluster team.cluster
  let g := s.grid cl.grid
  let i := coreSlice team.core
  let k := corePos team.core
  if (spGet s.threads tid).isNone || cl.killing then s
  else if cl.bin || !g.lrec.relaunch || cl.outside then
    base (s.logError i 3 unit (some team.ctx) k code (if unit = 4 then 0 else va) pa g.number.toNat)
  else if 3 ≤ cl.relaunches then
    s.trigger team.ctx { code := 0x12, tid := some tid, pc := ((s.realThread tid).getD {}).pc, aux := 3 }
  else s.killCluster team.cluster

/-- Poison consumed where the base outcome is 0x0D (25 R373). -/
def State.consume (s : State) (tid : Nat) (unit va pa : Nat) (base : State → State) : State := s.consumeAs 0x0D tid unit va pa base

/-- OUTSIDE of the thread's cluster is set (25 R375). -/
def State.setOutside (s : State) (tid : Nat) : State :=
  s.modCluster (s.teamOfT tid).cluster (fun x => { x with outside := true })

/-- Poisoned sectors read as zeros, by virtual and physical address: each raises SUBCNT and is a TYPE 12 event (25 R379, R382). -/
def State.substitute (s : State) (c core : Nat) (l : List (Nat × Nat)) : State :=
  l.foldl (fun (s : State) e =>
    (s.modCtx c (fun x => { x with subcnt := Nat.min (x.subcnt + 1) 0xFFFFFFFF })).logError (coreSlice core) 12 9 (some c) (corePos core) 0
      e.1 e.2 0) s

/-- The same for the issue set under execution, which counts a sector once. -/
def State.substituteOnce (s : State) (c core : Nat) (l : List (Nat × Nat)) : State :=
  let new := l.filter (fun e => !s.cur.zeroed.contains e.2)
  State.substitute { s with cur := { s.cur with zeroed := unionNew s.cur.zeroed (new.map (·.2)) } } c core new

end Sys2Proof.Machine
end

