-- ==== Sys2Proof/Machine/Operands.lean ====
section
/-! DEFINITION. Operand forms (05 R84-R92), the guard, and how an issue set executes: lane-form and per-thread instructions member by
member (03 R50, R53), uniform instructions once for each group through the leader lane (03 R52), run-ahead on scratch copies (23 R360). -/

namespace Sys2Proof.Machine

/-- Why a lane does not complete its instruction: a trap, a wait (the thread stays and tries again), or the end of its run-ahead. -/
inductive Stop where
  | trap (c : Cause)
  | block
  | raEnd
deriving DecidableEq, Repr

/-- What a lane knows of its surroundings. -/
structure LEnv where
  nregs : Nat := 8
  binds : Sp QBind := []
  /-- the group is in run-ahead (23 R360) -/
  ra : Bool := false
  /-- the guard is unknown in run-ahead: every place written becomes unknown -/
  gunk : Bool := false
  fpdef : Word := 1
deriving DecidableEq, Repr

/-- A lane at work: its thread, whether it read a poisoned register, whether a source was unknown, and whether it popped the result of a
job of scope partition (13 R232). -/
structure LaneSt where
  th : Thread
  poi : Bool := false
  unk : Bool := false
  acq : Bool := false
deriving DecidableEq, Repr

abbrev LaneM (α : Type) := ReaderT LEnv (StateT LaneSt (Except Stop)) α

def laneStop {α : Type} (x : Stop) : LaneM α := fun _ _ => .error x
def laneTrap {α : Type} (code : Nat) (aux : Word := 0) (addr : DWord := 0) : LaneM α :=
  laneStop (.trap { code := code, addr := addr, aux := aux })

def getEnv : LaneM LEnv := fun env l => .ok (env, l)
def getTh : LaneM Thread := fun _ l => .ok (l.th, l)
def modTh (f : Thread → Thread) : LaneM Unit := fun _ l => .ok ((), { l with th := f l.th })

/-- A source was unknown. -/
def markUnk : LaneM Unit := fun _ l => .ok ((), { l with unk := true })

/-- An instruction before which run-ahead ends (23 R360). -/
def noRunAhead : LaneM Unit := fun env l => if env.ra then .error .raEnd else .ok ((), l)

/-- Run-ahead ends before an instruction whose guard or sources so far are unknown (23 R360). -/
def needKnown : LaneM Unit := fun env l => if env.ra && (l.unk || env.gunk) then .error .raEnd else .ok ((), l)

/-! Registers and predicates of the thread. -/

/-- The scoreboard bit of a register, or of a predicate, is clear (03 R45). -/
def Thread.clear (t : Thread) (isPred : Bool) (n : Nat) : Bool := !(t.sb.any (fun e => e.isPred == isPred && e.n == n))

def Thread.reg (t : Thread) (n : Nat) : Word := spRead 0 t.regs n

/-- Read one register: its scoreboard bit holds the instruction back; a poisoned one is consumed (25 R373). -/
def readReg (n : Nat) : LaneM Word := fun env l =>
  if !l.th.clear false n then .error .block
  else .ok (l.th.reg n, { l with poi := l.poi || (!env.ra && l.th.poisonRegs.contains n),
                                 unk := l.unk || (env.ra && (l.th.unkRegs.contains n || l.th.poisonRegs.contains n)) })

/-- Membership set or cleared. -/
def markList (b : Bool) (n : Nat) (l : List Nat) : List Nat := if b then insertNew n l else l.filter (· ≠ n)

/-- A register as an instruction leaves it: a new value, no poison. -/
def Thread.putReg (t : Thread) (n : Nat) (v : Word) (unk : Bool) : Thread :=
  { t with regs := spWrite 0 t.regs n v, poisonRegs := t.poisonRegs.filter (· ≠ n), unkRegs := markList unk n t.unkRegs }

/-- Write one register. After poison has been consumed the destination receives zero (25 R373). -/
def writeReg (n : Nat) (v : Word) : LaneM Unit := fun env l =>
  if !l.th.clear false n then .error .block
  else .ok ((), { l with th := l.th.putReg n (if l.poi then 0 else v) (env.ra && (l.unk || env.gunk)) })

/-- Read a predicate; 0 reads as true. -/
def readPred (p : Nat) : LaneM Bool := fun env l =>
  if !l.th.clear true p then .error .block
  else .ok (l.th.pred p, { l with unk := l.unk || (env.ra && l.th.unkPreds.contains p) })

/-- Write a predicate; 0 is not written; after poison it receives zero like a destination register. -/
def writePred (p : Nat) (v : Bool) : LaneM Unit := fun env l =>
  if p = 0 then .ok ((), l)
  else if !l.th.clear true p then .error .block
  else .ok ((), { l with th := { l.th.setPred p (v && !l.poi) with unkPreds := markList (env.ra && (l.unk || env.gunk)) p l.th.unkPreds } })

/-! Index-indirect access (05 R88; 09 R140). -/

/-- Fields of an index register. -/
def xBase (x : Word) : Nat := fld x.toNat 7 0
def xLimit (x : Word) : Nat := if fld x.toNat 15 8 = 0 then 256 else fld x.toNat 15 8
def xCursor (x : Word) : Nat := fld x.toNat 23 16
def xStack (x : Word) : Bool := x.getLsbD 24
def xStep (x : Word) : Nat := low 8 (sext 7 (fld x.toNat 31 25))
def xMoved (x : Word) (c : Nat) : Word := BitVec.ofNat 32 (setFld x.toNat 23 16 (c % 256))

/-- How an operand is used. -/
inductive Role where
  | src | dst | both
deriving DecidableEq, Repr

/-- An access of `w` registers through an index register: the first register touched and the index register after it, none for trap 0x03. -/
def xAccess (nregs w : Nat) (role : Role) (x : Word) : Option (Nat × Word) :=
  let c := if xStack x && role ≠ .dst then (xCursor x + 256 - w) % 256 else xCursor x
  if xLimit x < c + w ∨ (xBase x + c) % w ≠ 0 ∨ nregs < xBase x + c + w then none
  else
    let after :=
      if !xStack x then c + xStep x
      else match role with
        | .src => c
        | .dst => c + w
        | .both => xCursor x
    some (xBase x + c, xMoved x after)

def Thread.x (t : Thread) (k : Nat) : Word := spRead 0 t.xs k
def Thread.putX (t : Thread) (k : Nat) (v : Word) (unk : Bool) : Thread :=
  { t with xs := spWrite 0 t.xs k v, unkXs := markList unk k t.unkXs }

def idxAccess (k w : Nat) (role : Role) : LaneM Nat := fun env l =>
  if env.ra && l.th.unkXs.contains k then .error .raEnd
  else match xAccess env.nregs w role (l.th.x k) with
  | none => .error (.trap { code := 0x03 })
  | some (n, x) => .ok (n, { l with th := l.th.putX k x (env.ra && env.gunk) })

/-! Queue registers (05 R89). -/

/-- Filled entries at the head of queue `k`. -/
def Thread.qReady (t : Thread) (k : Nat) : Nat := ((t.qs.filter (fun e => e.k = k)).takeWhile (fun e => e.val.isSome)).length
def Thread.qLen (t : Thread) (k : Nat) : Nat := (t.qs.filter (fun e => e.k = k)).length

/-- Pop the oldest value of queue `k`. -/
def Thread.pop (t : Thread) (k : Nat) : DWord × Thread :=
  match takeFirst (fun (e : QEnt) => e.k == k) t.qs with
  | some (e, r) => (e.val.getD 0, { t with qs := r })
  | none => (0, t)

/-- The scope at which the pop of queue `k` acquires, where its value is a job's result. -/
def Thread.popAcq (t : Thread) (k : Nat) : Option Scope := (t.qs.find? (fun e => e.k == k)).bind (·.acq)

def popQ (k : Nat) : LaneM DWord := fun _ l =>
  .ok ((l.th.pop k).1, { l with th := (l.th.pop k).2, acq := l.acq || decide (l.th.popAcq k = some .partition) })

/-- Push a value; the entry's id 0 says that it has been produced at issue. -/
def pushQ (k : Nat) (v : DWord) : LaneM Unit := fun _ l =>
  .ok ((), { l with th := { l.th with qs := l.th.qs ++ [{ k := k, id := 0, val := some (if l.poi then 0 else v) }] } })

/-! Sources and destinations. -/

/-- A source of one register. -/
def rd1 (o : Operand) : LaneM Word :=
  match o with
  | .v n => readReg n.val
  | .q k => do let v ← popQ k.val; return v.truncate 32
  | .x k => do let n ← idxAccess k.val 1 .src; readReg n
  | .lit w => return w
  | .lit2 lo _ => return lo

/-- The register pair at `n`, low register first. -/
def readPair (n : Nat) : LaneM DWord := do
  let lo ← readReg n
  let hi ← readReg (n + 1)
  return hi ++ lo

/-- A source pair. -/
def rd2 (o : Operand) : LaneM DWord :=
  match o with
  | .v n => readPair n.val
  | .q k => popQ k.val
  | .x k => do let n ← idxAccess k.val 2 .src; readPair n
  | .lit w => return w.zeroExtend 64
  | .lit2 lo hi => return hi ++ lo

/-- `w` registers from `n` on. -/
def readMany (n w : Nat) : LaneM (List Word) :=
  match w with
  | 0 => return []
  | k + 1 => do
    let x ← readReg n
    let r ← readMany (n + 1) k
    return x :: r

/-- A source of `w` registers. -/
def rdN (o : Operand) (w : Nat) : LaneM (List Word) :=
  match w with
  | 1 => do let x ← rd1 o; return [x]
  | 2 => do let x ← rd2 o; return [x.truncate 32, (x >>> 32).truncate 32]
  | _ =>
    match o with
    | .v n => readMany n.val w
    | .x k => do let n ← idxAccess k.val w .src; readMany n w
    | _ => return List.replicate w 0

/-- Where a result goes. -/
inductive Loc where
  | reg (n : Nat)
  | queue (k : Nat)
deriving DecidableEq, Repr

/-- The access of a destination of `w` registers. -/
def locate (o : Operand) (w : Nat) (role : Role) : LaneM Loc :=
  match o with
  | .v n => return .reg n.val
  | .q k => return .queue k.val
  | .x k => do let n ← idxAccess k.val w role; return .reg n
  | _ => return .reg 0

def put1 (l : Loc) (v : Word) : LaneM Unit :=
  match l with
  | .reg n => writeReg n v
  | .queue k => pushQ k (v.zeroExtend 64)

def put2 (l : Loc) (v : DWord) : LaneM Unit :=
  match l with
  | .reg n => do writeReg n (v.truncate 32); writeReg (n + 1) ((v >>> 32).truncate 32)
  | .queue k => pushQ k v

def putMany (n : Nat) (vs : List Word) : LaneM Unit :=
  match vs with
  | [] => return ()
  | v :: r => do writeReg n v; putMany (n + 1) r

def putN (l : Loc) (vs : List Word) : LaneM Unit :=
  match vs, l with
  | [v], l => put1 l v
  | [a, b], l => put2 l (b ++ a)
  | vs, .reg n => putMany n vs
  | _, .queue _ => return ()

/-- Destinations: access, then write. -/
def wr1 (o : Operand) (v : Word) : LaneM Unit := do let l ← locate o 1 .dst; put1 l v
def wr2 (o : Operand) (v : DWord) : LaneM Unit := do let l ← locate o 2 .dst; put2 l v
def wrN (o : Operand) (vs : List Word) : LaneM Unit := do let l ← locate o vs.length .dst; putN l vs

/-- Registers of a location read (for instructions whose D is also a source, 09 R140). -/
def old1 (l : Loc) : LaneM Word := match l with | .reg n => readReg n | .queue _ => return 0
def old2 (l : Loc) : LaneM DWord := match l with | .reg n => readPair n | .queue _ => return 0

/-! Checks that do not depend on the guard (00 R13; 05 R89, R91). -/

/-- A register operand with its role. -/
structure Use where
  o : Operand
  role : Role
deriving DecidableEq, Repr

def src (o : Operand) : Use := ⟨o, .src⟩
def dst (o : Operand) : Use := ⟨o, .dst⟩
def both (o : Operand) : Use := ⟨o, .both⟩

/-- The handle and bounds cause of one operand: 0x03 beyond the allocation, 0x02 unbound queue, 0x0A wrong direction. -/
def Use.cause (u : Use) (env : LEnv) : Option Nat :=
  match u.o with
  | .v n => if env.nregs ≤ n.val then some 0x03 else none
  | .q k =>
    match spGet env.binds k.val with
    | none => some 0x02
    | some b =>
      if (u.role = .src ∧ b.kind = 1) ∨ (u.role = .dst ∧ b.kind = 2) then some 0x0A else none
  | _ => none

/-- The lower of two codes (00 R14). -/
def lowerCode (a b : Option Nat) : Option Nat :=
  match a, b with
  | some x, some y => some (if x ≤ y then x else y)
  | some x, none => some x
  | none, y => y

def staticCause (env : LEnv) (us : List Use) : Option Nat := us.foldl (fun a u => lowerCode a (u.cause env)) none

/-- Each queue named holds as many values as the instruction pops, and a queue D has a free entry (05 R89). -/
def queuesReady (t : Thread) (us : List Use) : Bool :=
  us.all (fun u => match u.o with
    | .q k =>
      let pops := (us.filter (fun v => decide (v.o = u.o) && decide (v.role ≠ .dst))).length
      (u.role == .src || decide (t.qLen k.val < 8)) && (u.role == .dst || decide (pops ≤ t.qReady k.val))
    | _ => true)

def usesQueue (us : List Use) : Bool := us.any (fun u => match u.o with | .q _ => true | _ => false)

/-- The cause of the lower code; the first of two equal ones. -/
def lowerCause (a b : Option Cause) : Option Cause :=
  match a, b with
  | some x, some y => some (if x.code ≤ y.code then x else y)
  | some x, none => some x
  | none, y => y

/-! One lane. -/

/-- What one lane's attempt comes to. -/
inductive LaneRes (α : Type) where
  | skip
  | ran (a : α) (l : LaneSt)
  | trap (c : Cause)
  | block
  | raEnd

/-- One lane's execution: static causes first whatever the guard, then the guard, then the body on an active lane; the lowest code
is reported (00 R13, R14; 23 R360). -/
def laneRunX {α : Type} (env : LEnv) (g : Nat) (us : List Use) (extra : Option Cause) (body : LaneM α) (t : Thread) : LaneRes α :=
  let st := lowerCause ((staticCause env us).map (fun c => { code := c })) extra
  let guardUnk := env.ra && g != 0 && t.unkPreds.contains g
  let active := guardUnk || t.pred g
  if g != 0 && !t.clear true g && st.isNone then .block
  else
    let r : LaneRes α :=
      if !active then .skip
      else if usesQueue us && env.ra then .raEnd
      else if st.isNone && !queuesReady t us then .block
      else match body { env with gunk := guardUnk } { th := t, unk := false } with
        | .ok (a, l) => .ran a l
        | .error (.trap c) => .trap c
        | .error .block => .block
        | .error .raEnd => .raEnd
    match st, r with
    | none, .trap c => if env.ra then .raEnd else .trap c
    | none, r => r
    | some k, r =>
      if env.ra then .raEnd
      else match r with
        | .trap c => if c.code < k.code then .trap c else .trap k
        | _ => .trap k

/-- An instruction whose only causes whatever the guard are its operands'. -/
def laneRun {α : Type} (env : LEnv) (g : Nat) (us : List Use) (body : LaneM α) (t : Thread) : LaneRes α :=
  laneRunX env g us none body t

/-! The issue set. -/

/-- Values of the control registers that an instruction of a group uses: a ctlw of another group on its way may show its old value (11 R173). -/
def Ctl.put (c : Ctl) (r : CtlReg) (v : DWord) : Ctl :=
  match r with
  | .memdef => { c with memdef := v.truncate 32 }
  | .fpdef => { c with fpdef := v.truncate 32 }
  | .trapbase => { c with trapbase := v.truncate 32 }
  | .bintime => { c with bintime := v.truncate 32 }
  | .wdogBar => { c with wdogBar := v.truncate 32 }
  | .wdogHang => { c with wdogHang := v.truncate 32 }
  | .wdogRos => { c with wdogRos := v.truncate 32 }
  | .rastthr => { c with rastthr := v.truncate 32 }
  | .feedbase => { c with feedbase := v }
  | .feedsize => { c with feedsize := v.truncate 32 }
  | .feedhead => { c with feedhead := v.truncate 32 }
  | .feedtail => { c with feedtail := v.truncate 32 }
  | .cpytab => { c with cpytab := v }
  | .restab => { c with restab := v }
  | .migwait => { c with migwait := v.truncate 32 }
  | .pairwait => { c with pairwait := v.truncate 32 }

def Ctl.get (c : Ctl) (r : CtlReg) : DWord :=
  match r with
  | .memdef => c.memdef.zeroExtend 64
  | .fpdef => c.fpdef.zeroExtend 64
  | .trapbase => c.trapbase.zeroExtend 64
  | .bintime => c.bintime.zeroExtend 64
  | .wdogBar => c.wdogBar.zeroExtend 64
  | .wdogHang => c.wdogHang.zeroExtend 64
  | .wdogRos => c.wdogRos.zeroExtend 64
  | .rastthr => c.rastthr.zeroExtend 64
  | .feedbase => c.feedbase
  | .feedsize => c.feedsize.zeroExtend 64
  | .feedhead => c.feedhead.zeroExtend 64
  | .feedtail => c.feedtail.zeroExtend 64
  | .cpytab => c.cpytab
  | .restab => c.restab
  | .migwait => c.migwait.zeroExtend 64
  | .pairwait => c.pairwait.zeroExtend 64

def State.ctlFor (s : State) (c gid : Nat) : Ctl :=
  (s.ctx c).writes.foldl (fun k w => if w.useOld && w.gid != some gid then k.put w.reg w.old else k) (s.ctx c).ctl

/-- The surroundings of a lane of a group. -/
def State.laneEnv (s : State) (gid : Nat) : LEnv :=
  let g := s.group gid
  let t := s.team g.team
  { nregs := t.nregs, binds := g.binds, ra := g.inRa, fpdef := (s.ctlFor t.ctx gid).fpdef }

/-- The team's groups may issue: resident, its cluster running. -/
def State.teamIssues (s : State) (t : Nat) : Bool :=
  match spGet s.teams t with
  | some x => decide (x.state = .resident) && (match x.mig with | some m => !m.moving | none => true)
  | none => false

/-- A group may issue: its team may, and no pair of its stands still for a move (21 R344). -/
def State.groupIssues (s : State) (gid : Nat) : Bool := s.teamIssues (teamOf gid) && (s.group gid).halt.isNone

/-- The group waits for no ctlw of its own (11 R173). -/
def State.ctlwFree (s : State) (gid : Nat) : Bool :=
  (s.ctx (s.team (teamOf gid)).ctx).writes.all (fun w => decide (w.gid ≠ some gid))

/-- A thread ready at a PC (03 R45, R75; 05 R99; 23 R354): its group is not parked, or runs ahead and its own run-ahead goes on. -/
def State.readyAtPc (s : State) (tid : Nat) (pc : Word) : Bool :=
  match spGet s.threads tid with
  | none => false
  | some t =>
    decide (t.pc = pc) && (decide (t.wait = .none) || decide (t.wait = .retry)) && t.deferred.isEmpty &&
    t.look.all (fun e => decide (0 < e.2)) && decide (t.readyAt ≤ s.clock) && s.groupIssues (gidOf tid) &&
    !(s.slice (coreSlice (s.coreOfT tid))).throttled && s.ctlwFree (gidOf tid) &&
    (match (s.group (gidOf tid)).park with
     | none => true
     | some p => p.running && !t.raEnded)

/-- Members of the issue set under execution that are ready. -/
def State.members (s : State) : List Nat := s.cur.tids.filter (fun t => s.readyAtPc t s.cur.pc)

/-- Groups of some threads, in the order of their first member. -/
def groupsIn (ts : List Nat) : List Nat := ts.foldl (fun l t => insertNew (gidOf t) l) []

/-- A thread that cannot go on now tries again at the next clock. -/
def Thread.retry (t : Thread) (clock : Nat) : Thread := { t with wait := .retry, readyAt := clock + 1 }

/-- The register-file poison that a lane consumed (25 R373): 0x0D for the lane at its next boundary, or what R374 decides. -/
def State.regPoison (s : State) (tid : Nat) (pc : Word) : State :=
  s.consume tid 5 0 0 (fun s => s.defer tid { code := 0x0D } pc)

/-- Values that a lane pushed to a copy channel at issue become pushes of the core (17 R267): each takes a handle. -/
def State.takePush (s : State) (tid : Nat) (pc : Word) : State :=
  let t := s.thread tid
  let binds := (s.group (gidOf tid)).binds
  match t.qs.find? (fun e => e.id == 0 && ((spGet binds e.k).map (·.kind)) == some 1) with
  | none => s
  | some e =>
    let (id, s) := s.fresh
    let s := s.modThread tid (fun t =>
      { t with qs := t.qs.map (fun x => if x = e then { x with id := id } else x), openCopies := t.openCopies ++ [id] })
    s.modCore (s.coreOfT tid) (fun c => { c with pushes := c.pushes ++
      [{ id := id, tid := tid, k := e.k, chan := ((spGet binds e.k).map (·.chan)).getD 0, val := e.val.getD 0, pc := pc }] })

/-- The pop of a job's result is an acquire of the job's writes; only one at partition scope does anything (13 R219, R232). -/
def State.popAcquire (s : State) (tid : Nat) (l : LaneSt) : State := if l.acq then s.acquireAt (s.whoT tid) .partition else s

/-- A lane's result installed; the thread passes the instruction. -/
def State.commitLane (s : State) (tid : Nat) (l : LaneSt) : State :=
  let s := s.modThread tid (fun _ => l.th.advance s.cur.len s.clock)
  let s := s.popAcquire tid l
  let s := if l.th.qs.any (fun e => e.id == 0) then s.takePush tid s.cur.pc else s
  if l.poi then s.regPoison tid s.cur.pc else s

/-- A lane's result of a memory instruction installed: STC is as it now stands, since older stores of the thread may have been performed
on the way (13 R217). -/
def State.commitAcc (s : State) (tid : Nat) (l : LaneSt) : State :=
  s.commitLane tid { l with th := { l.th with stc := (s.thread tid).stc } }

/-- Members pass the instruction without effect. -/
def State.passAll (s : State) (ts : List Nat) : State :=
  ts.foldl (fun s t => s.modThread t (fun x => x.advance s.cur.len s.clock)) s

def State.retryAll (s : State) (ts : List Nat) : State := ts.foldl (fun s t => s.modThread t (fun x => x.retry s.clock)) s
def State.endRunAhead (s : State) (ts : List Nat) : State := ts.foldl (fun s t => s.modThread t (fun x => { x with raEnded := true })) s

/-- Traps raised at issue by members of the set: TRAPPC is the instruction's own PC. -/
def State.trapMembers (s : State) (l : List (Nat × Cause)) : State :=
  s.trapIssued (l.map (fun e => (e.1, e.2, s.cur.pc, s.cur.pc)))

/-- Lane-form and per-thread instructions: each member on its own (03 R50, R53); `act` installs an active lane's result. -/
def State.perLane {α : Type} (s : State) (g : Guard) (us : List Use) (body : Nat → LaneM α) (act : State → Nat → α → LaneSt → State) : State :=
  let (s, traps) := s.members.foldl (fun (acc : State × List (Nat × Cause)) tid =>
    let (s, tr) := acc
    match laneRun (s.laneEnv (gidOf tid)) g.val us (body tid) (s.thread tid) with
    | .skip => (s.passAll [tid], tr)
    | .ran a l => (act s tid a l, tr)
    | .trap c => (s, tr ++ [(tid, c)])
    | .block => (s.retryAll [tid], tr)
    | .raEnd => (s.endRunAhead [tid], tr)) (s, [])
  s.trapMembers traps

/-- The common case: a body whose whole effect is on the lane's own registers. -/
def State.liftLane (s : State) (g : Guard) (us : List Use) (body : LaneM Unit) : State :=
  s.perLane g us (fun _ => body) (fun s tid _ l => s.commitLane tid l)

/-! Uniform instructions (03 R52, R54; 11 R166). -/

/-- What a uniform write does to one lane's register: an older result on its way no longer writes it (09 R141). -/
def Thread.uniformReg (t : Thread) (n : Nat) (v : Word) (unk : Bool) : Thread :=
  { t.putReg n v unk with sb := t.sb.filter (fun e => !(!e.isPred && e.n == n)) }

def Thread.uniformPred (t : Thread) (p : Nat) (v : Bool) (unk : Bool) : Thread :=
  if p = 0 then t
  else { t.setPred p v with sb := t.sb.filter (fun e => !(e.isPred && e.n == p)), unkPreds := markList unk p t.unkPreds }

/-- Threads of the lanes set in m0. -/
def State.liveLanes (s : State) (gid : Nat) : List Nat :=
  ((List.range 32).filter (fun l => (spRead 0 (s.group gid).masks 0).getLsbD l)).map (tidOf gid)

/-- A thread outside the set that a uniform instruction has written issues again from the next clock on: beside an instruction of its own
in the same clock the uniform one counts as the second (09 R141). -/
def Thread.holdClock (t : Thread) (member : Bool) (clock : Nat) : Thread :=
  if member then t else { t with readyAt := Nat.max t.readyAt (clock + 1) }

/-- What a uniform write does to a live lane. -/
def State.uniWrite (s : State) (t : Nat) (f : Thread → Thread) : State :=
  s.modThread t (fun x => (f x).holdClock (s.cur.tids.contains t) s.clock)

/-- A result written in every lane set in m0. -/
def State.writeLanes (s : State) (gid : Nat) (n : Nat) (vs : List Word) (unk : Bool) : State :=
  (s.liveLanes gid).foldl (fun s t => s.uniWrite t (fun x =>
    ((List.range vs.length).foldl (fun x i => x.uniformReg (n + i) (vs.getD i 0) unk) x))) s

def State.writePreds (s : State) (gid : Nat) (p : Nat) (v unk : Bool) : State :=
  (s.liveLanes gid).foldl (fun s t => s.uniWrite t (fun x => x.uniformPred p v unk)) s

/-- The scoreboard bits of a uniform instruction's result on its way: older results no longer write those registers (09 R141). -/
def Thread.holdBits (t : Thread) (op n : Nat) : Thread :=
  { t with sb := t.sb.filter (fun e => !(!e.isPred && e.n == n)) ++ [{ op := op, isPred := false, n := n }] }

def State.holdLanes (s : State) (gid op n : Nat) : State :=
  (s.liveLanes gid).foldl (fun s t => s.uniWrite t (fun x => x.holdBits op n)) s

/-- Scoreboard bits of the registers that a uniform instruction names directly are clear in a member (03 R45). -/
def memberClear (t : Thread) (g : Nat) (us : List Use) : Bool :=
  t.clear true g && us.all (fun u => match u.o with | .v n => t.clear false n.val | _ => true)

/-- A leader lane's result: the value of the body, whether it is unknown (run-ahead), and the lane as it stands after its reads. -/
structure Led (α : Type) where
  val : α
  leader : Nat
  active : List Nat
  members : List Nat
  gid : Nat
  unk : Bool
  poi : Bool

/-- One group's part of a uniform instruction. -/
def State.uniformGroup {α : Type} (s : State) (g : Guard) (us : List Use) (guarded : Bool) (body : LaneM α) (act : State → Led α → State)
    (gid : Nat) : State :=
  let env := s.laneEnv gid
  let gn := if guarded then g.val else 0
  let all := s.members.filter (fun t => gidOf t = gid)
  let ts := all.filter (fun t => memberClear (s.thread t) gn us)
  let held := all.filter (fun t => !ts.contains t)
  let s := s.retryAll held
  let gunk := env.ra && gn != 0 && ts.any (fun t => (s.thread t).unkPreds.contains gn)
  let active := ts.filter (fun t => (s.thread t).pred gn || (env.ra && (s.thread t).unkPreds.contains gn))
  match staticCause env us with
  | some code => if env.ra then s.endRunAhead ts else s.trapMembers (ts.map (fun t => (t, { code := code })))
  | none =>
    match active.head? with
    | none => s.passAll ts
    | some leader =>
      if usesQueue us && env.ra then s.endRunAhead ts
      else if !queuesReady (s.thread leader) us then s.retryAll ts
      else match body { env with gunk := gunk } { th := s.thread leader } with
        | .error .block => s.retryAll ts
        | .error .raEnd => s.endRunAhead ts
        | .error (.trap c) =>
          if env.ra then s.endRunAhead ts
          else (s.passAll (ts.filter (fun t => !active.contains t))).trapMembers (active.map (fun t => (t, c)))
        | .ok (a, l) =>
          let s := (s.modThread leader (fun _ => l.th)).popAcquire leader l
          let s := if l.poi then s.regPoison leader s.cur.pc else s
          act s { val := a, leader := leader, active := active, members := ts, gid := gid, unk := env.ra && (l.unk || gunk), poi := l.poi }

/-- Registers of a handle as a lane names it: none beyond the allocation, which is another cause (05 R91), and none where the value is
unknown or poisoned. -/
def Thread.handle (t : Thread) (nregs : Nat) (a : Operand) (k : Nat) : Option Word :=
  match a with
  | .v n =>
    let r := n.val + k
    if r < nregs ∧ t.unkRegs.contains r = false ∧ t.poisonRegs.contains r = false then some (t.reg r) else none
  | .lit w => some w
  | _ => none

/-- One group's part of a uniform instruction that checks a handle whatever the guard: the leader's, or that of the lowest member where no
lane is active; every member then traps (00 R13; 11 R166). -/
def State.uniformHandled {α : Type} (s : State) (g : Guard) (us : List Use) (handle : Thread → Option Cause) (body : LaneM α)
    (act : State → Led α → State) (gid : Nat) : State :=
  let env := s.laneEnv gid
  let all := s.members.filter (fun t => gidOf t = gid)
  let ts := all.filter (fun t => memberClear (s.thread t) g.val us)
  let lead := (ts.find? (fun t => (s.thread t).pred g.val)).orElse (fun _ => ts.head?)
  match lead.bind (fun t => handle (s.thread t)) with
  | none => s.uniformGroup g us true body act gid
  | some c =>
    let k := (lowerCause ((staticCause env us).map (fun c => { code := c })) (some c)).getD c
    let s := s.retryAll (all.filter (fun t => !ts.contains t))
    if env.ra then s.endRunAhead ts else s.trapMembers (ts.map (fun t => (t, k)))

/-- A uniform instruction over the groups of the set. -/
def State.uniform {α : Type} (s : State) (g : Guard) (us : List Use) (guarded : Bool) (body : LaneM α) (act : State → Led α → State) : State :=
  (groupsIn s.members).foldl (fun s gid => s.uniformGroup g us guarded body act gid) s

/-- A uniform instruction whose result is registers from D on in every lane of m0 (poison consumed gives zeros). -/
def State.liftUniform (s : State) (g : Guard) (us : List Use) (guarded : Bool) (d : Operand) (body : LaneM (List Word)) : State :=
  match d with
  | .v n => s.uniform g us guarded body (fun s r =>
      (s.writeLanes r.gid n.val (if r.poi then r.val.map (fun _ => 0) else r.val) r.unk).passAll r.members)
  | _ => s

end Sys2Proof.Machine
end

