-- ==== Sys2Proof/Machine/LaneInt.lean ====
section
/-! DEFINITION. Lane instructions on integers, bits, predicates and registers (09 R142-R154). -/

namespace Sys2Proof.Machine

/-! Shapes. -/

/-- D := f A B, single registers. -/
def laneBin1 (f : Word → Word → Word) (g : Guard) (d a b : Operand) (s : State) : Host.Outcome State Fault Refusal :=
  .next (s.liftLane g [src a, src b, dst d] (do let x ← rd1 a; let y ← rd1 b; wr1 d (f x y)))

/-- D := f A B, pairs. -/
def laneBin2 (f : DWord → DWord → DWord) (g : Guard) (d a b : Operand) (s : State) : Host.Outcome State Fault Refusal :=
  .next (s.liftLane g [src a, src b, dst d] (do let x ← rd2 a; let y ← rd2 b; wr2 d (f x y)))

/-- D := f A, single registers. -/
def laneUn1 (f : Word → Word) (g : Guard) (d a : Operand) (s : State) : Host.Outcome State Fault Refusal :=
  .next (s.liftLane g [src a, dst d] (do let x ← rd1 a; wr1 d (f x)))

/-- D := f A, pairs. -/
def laneUn2 (f : DWord → DWord) (g : Guard) (d a : Operand) (s : State) : Host.Outcome State Fault Refusal :=
  .next (s.liftLane g [src a, dst d] (do let x ← rd2 a; wr2 d (f x)))

/-- D := f A B D, single registers (09 R140). -/
def laneAcc1 (f : Word → Word → Word → Word) (g : Guard) (d a b : Operand) (s : State) : Host.Outcome State Fault Refusal :=
  .next (s.liftLane g [src a, src b, both d]
    (do let x ← rd1 a; let y ← rd1 b; let l ← locate d 1 .both; let z ← old1 l; put1 l (f x y z)))

/-! Arithmetic and logic (09 R142). -/

def execAddB32 (g : Guard) (d a b : Operand) (s : State) : Host.Outcome State Fault Refusal := laneBin1 (fun x y => x + y) g d a b s
def execSubB32 (g : Guard) (d a b : Operand) (s : State) : Host.Outcome State Fault Refusal := laneBin1 (fun x y => x - y) g d a b s
def execAddB64 (g : Guard) (d a b : Operand) (s : State) : Host.Outcome State Fault Refusal := laneBin2 (fun x y => x + y) g d a b s
def execSubB64 (g : Guard) (d a b : Operand) (s : State) : Host.Outcome State Fault Refusal := laneBin2 (fun x y => x - y) g d a b s
def execMulB32 (g : Guard) (d a b : Operand) (s : State) : Host.Outcome State Fault Refusal := laneBin1 (fun x y => x * y) g d a b s

/-- High half of a signed product. -/
def mulhS (x y : Word) : Word := ((x.signExtend 64 * y.signExtend 64) >>> 32).truncate 32
def execMulhS32 (g : Guard) (d a b : Operand) (s : State) : Host.Outcome State Fault Refusal := laneBin1 mulhS g d a b s

/-- High half of an unsigned product. -/
def mulhZ (x y : Word) : Word := ((x.zeroExtend 64 * y.zeroExtend 64) >>> 32).truncate 32
def execMulhZ32 (g : Guard) (d a b : Operand) (s : State) : Host.Outcome State Fault Refusal := laneBin1 mulhZ g d a b s

/-- Full signed product. -/
def mulx (x y : Word) : DWord := x.signExtend 64 * y.signExtend 64
def execMulxS32 (g : Guard) (d a b : Operand) (s : State) : Host.Outcome State Fault Refusal :=
  .next (s.liftLane g [src a, src b, dst d] (do let x ← rd1 a; let y ← rd1 b; wr2 d (mulx x y)))

def execMacB32 (g : Guard) (d a b : Operand) (s : State) : Host.Outcome State Fault Refusal := laneAcc1 (fun x y z => x * y + z) g d a b s

def execMacxS32 (g : Guard) (d a b : Operand) (s : State) : Host.Outcome State Fault Refusal :=
  .next (s.liftLane g [src a, src b, both d]
    (do let x ← rd1 a; let y ← rd1 b; let l ← locate d 2 .both; let z ← old2 l; put2 l (mulx x y + z)))

def execAndB32 (g : Guard) (d a b : Operand) (s : State) : Host.Outcome State Fault Refusal := laneBin1 (fun x y => x &&& y) g d a b s
def execOrB32 (g : Guard) (d a b : Operand) (s : State) : Host.Outcome State Fault Refusal := laneBin1 (fun x y => x ||| y) g d a b s
def execXorB32 (g : Guard) (d a b : Operand) (s : State) : Host.Outcome State Fault Refusal := laneBin1 (fun x y => x ^^^ y) g d a b s
def execAndn (g : Guard) (d a b : Operand) (s : State) : Host.Outcome State Fault Refusal := laneBin1 (fun x y => x &&& ~~~y) g d a b s

/-! Shifts (09 R143). -/

def shlW (x : Word) (n : Nat) : Word := if n < 32 then x <<< n else 0
def shrW (x : Word) (n : Nat) : Word := if n < 32 then x >>> n else 0
def sarW (x : Word) (n : Nat) : Word := if n < 32 then x.sshiftRight n else if x.getLsbD 31 then 0xFFFFFFFF else 0
def rolW (x : Word) (n : Nat) : Word := (x <<< (n % 32)) ||| (x >>> (32 - n % 32))

/-- Shift count of a register operand. -/
def shiftCount (y : Word) : Nat := y.toNat % 256

def execShl (g : Guard) (d a b : Operand) (s : State) : Host.Outcome State Fault Refusal := laneBin1 (fun x y => shlW x (shiftCount y)) g d a b s
def execShr (g : Guard) (d a b : Operand) (s : State) : Host.Outcome State Fault Refusal := laneBin1 (fun x y => shrW x (shiftCount y)) g d a b s
def execSar (g : Guard) (d a b : Operand) (s : State) : Host.Outcome State Fault Refusal := laneBin1 (fun x y => sarW x (shiftCount y)) g d a b s
def execRol (g : Guard) (d a b : Operand) (s : State) : Host.Outcome State Fault Refusal := laneBin1 (fun x y => rolW x (shiftCount y)) g d a b s

/-- The kind of an immediate shift. -/
def shiftOf (k : ShiKind) (x : Word) (n : Nat) : Word :=
  match k with
  | .shl => shlW x n
  | .shr => shrW x n
  | .sar => sarW x n
  | .rol => rolW x n

def execShi (g : Guard) (d a : Operand) (k : ShiKind) (n : BitVec 6) (s : State) : Host.Outcome State Fault Refusal :=
  laneUn1 (fun x => shiftOf k x n.toNat) g d a s

/-! Minimum and maximum (09 R142). -/

def execMinS32 (g : Guard) (d a b : Operand) (s : State) : Host.Outcome State Fault Refusal :=
  laneBin1 (fun x y => if x.slt y then x else y) g d a b s
def execMaxS32 (g : Guard) (d a b : Operand) (s : State) : Host.Outcome State Fault Refusal :=
  laneBin1 (fun x y => if x.slt y then y else x) g d a b s
def execMinZ32 (g : Guard) (d a b : Operand) (s : State) : Host.Outcome State Fault Refusal :=
  laneBin1 (fun x y => if x.ult y then x else y) g d a b s
def execMaxZ32 (g : Guard) (d a b : Operand) (s : State) : Host.Outcome State Fault Refusal :=
  laneBin1 (fun x y => if x.ult y then y else x) g d a b s

/-! Comparisons (09 R147). -/

/-- A condition and its negation into two predicates. -/
def putCond (pt pf : Guard) (t : Bool) : LaneM Unit := do
  writePred pt.val t
  writePred pf.val (!t)

def laneCmp32 (cond : LEnv → Word → Word → Bool) (g pt pf : Guard) (a b : Operand) (s : State) : Host.Outcome State Fault Refusal :=
  .next (s.liftLane g [src a, src b] (do let env ← read; let x ← rd1 a; let y ← rd1 b; putCond pt pf (cond env x y)))

def laneCmp64 (cond : LEnv → DWord → DWord → Bool) (g pt pf : Guard) (a b : Operand) (s : State) : Host.Outcome State Fault Refusal :=
  .next (s.liftLane g [src a, src b] (do let env ← read; let x ← rd2 a; let y ← rd2 b; putCond pt pf (cond env x y)))

def execCmpS32 (g pt pf : Guard) (lt : Bool) (a b : Operand) (s : State) : Host.Outcome State Fault Refusal :=
  laneCmp32 (fun _ x y => condInt true lt x y) g pt pf a b s
def execCmpS64 (g pt pf : Guard) (lt : Bool) (a b : Operand) (s : State) : Host.Outcome State Fault Refusal :=
  laneCmp64 (fun _ x y => condInt true lt x y) g pt pf a b s
def execCmpZ32 (g pt pf : Guard) (lt : Bool) (a b : Operand) (s : State) : Host.Outcome State Fault Refusal :=
  laneCmp32 (fun _ x y => condInt false lt x y) g pt pf a b s
def execCmpZ64 (g pt pf : Guard) (lt : Bool) (a b : Operand) (s : State) : Host.Outcome State Fault Refusal :=
  laneCmp64 (fun _ x y => condInt false lt x y) g pt pf a b s
def execCmpF32 (g pt pf : Guard) (lt : Bool) (a b : Operand) (s : State) : Host.Outcome State Fault Refusal :=
  laneCmp32 (fun env x y => condFloat f32 (fpFtz env.fpdef) lt x.toNat y.toNat) g pt pf a b s
def execCmpF64 (g pt pf : Guard) (lt : Bool) (a b : Operand) (s : State) : Host.Outcome State Fault Refusal :=
  laneCmp64 (fun env x y => condFloat f64 (fpFtz env.fpdef) lt x.toNat y.toNat) g pt pf a b s

/-! Selection (09 R149): no guard; G names the selector. -/

def execSelB32 (sel : Guard) (d a b : Operand) (s : State) : Host.Outcome State Fault Refusal :=
  .next (s.liftLane 0 [src a, src b, dst d]
    (do let p ← readPred sel.val; let x ← rd1 a; let y ← rd1 b; wr1 d (if p then x else y)))
def execSelB64 (sel : Guard) (d a b : Operand) (s : State) : Host.Outcome State Fault Refusal :=
  .next (s.liftLane 0 [src a, src b, dst d]
    (do let p ← readPred sel.val; let x ← rd2 a; let y ← rd2 b; wr2 d (if p then x else y)))

/-! Unary functions (09 R146). -/

/-- Bits above the highest 1 bit. -/
def clzB {w : Nat} (x : BitVec w) : Nat := if x = 0 then w else w - 1 - Nat.log2 x.toNat
/-- Bits below the lowest 1 bit. -/
def ctzB {w : Nat} (x : BitVec w) : Nat := (List.range w).countP (fun i => x.toNat % 2 ^ (i + 1) == 0)
def popcB {w : Nat} (x : BitVec w) : Nat := (List.range w).countP (fun i => x.getLsbD i)
def brevB {w : Nat} (x : BitVec w) : BitVec w :=
  BitVec.ofNat w ((List.range w).foldl (fun a i => 2 * a + (x.getLsbD i).toNat) 0)
def bswapB {w : Nat} (x : BitVec w) : BitVec w :=
  BitVec.ofNat w ((List.range (w / 8)).foldl (fun a i => 256 * a + x.toNat / 2 ^ (8 * i) % 256) 0)

/-- unop of 09 R146 at width `w`. -/
def unop {w : Nat} (fn : UnFn) (x : BitVec w) : BitVec w :=
  match fn with
  | .not => ~~~x
  | .neg => 0 - x
  | .abs => if x.msb then 0 - x else x
  | .popc => BitVec.ofNat w (popcB x)
  | .clz => BitVec.ofNat w (clzB x)
  | .ctz => BitVec.ofNat w (ctzB x)
  | .brev => brevB x
  | .bswap => bswapB x
  | .sext8 => (x.truncate 8).signExtend w
  | .sext16 => (x.truncate 16).signExtend w
  | .sext32 => (x.truncate 32).signExtend w

def execUnopB32 (g : Guard) (d a : Operand) (fn : UnFn) (s : State) : Host.Outcome State Fault Refusal := laneUn1 (unop fn) g d a s
def execUnopB64 (g : Guard) (d a : Operand) (fn : UnFn) (s : State) : Host.Outcome State Fault Refusal := laneUn2 (unop fn) g d a s

/-! Bit fields (09 R145). -/

def fieldPos (y : Word) : Nat := y.toNat % 256
def fieldLen (y : Word) : Nat := Nat.min (y.toNat / 256 % 256) 32

def bfeW (x y : Word) : Word :=
  let len := fieldLen y
  let f := x.toNat / 2 ^ fieldPos y % 2 ^ len
  if y.getLsbD 16 && 0 < len && f.testBit (len - 1) then BitVec.ofInt 32 ((f : Int) - 2 ^ len) else BitVec.ofNat 32 f

def bfiW (x y z : Word) : Word :=
  let mask : Word := BitVec.ofNat 32 ((2 ^ fieldLen y - 1) * 2 ^ fieldPos y)
  (z &&& ~~~mask) ||| ((x <<< fieldPos y) &&& mask)

def execBfe (g : Guard) (d a b : Operand) (s : State) : Host.Outcome State Fault Refusal := laneBin1 bfeW g d a b s
def execBfi (g : Guard) (d a b : Operand) (s : State) : Host.Outcome State Fault Refusal := laneAcc1 bfiW g d a b s

/-! Lane exchange (09 R152), group by group. -/

/-- The sources of one lane of a shuffle: A, B, the destination and the lane after its accesses. -/
def shflRead (d a b : Operand) : LaneM (Word × Word × Loc) := do
  let x ← rd1 a
  let y ← rd1 b
  let l ← locate d 1 .dst
  return (x, y, l)

/-- Lane that a shuffle reads from. -/
def shflFrom (isXor : Bool) (lane : Nat) (y : Word) : Nat :=
  if isXor then Nat.xor lane (y.toNat % 32) else y.toNat % 32

/-- Whether the destination of a lane can be written now, tried before any lane exchanges (03 R45). -/
def shflRun (env : LEnv) (g : Nat) (d a b : Operand) (t : Thread) : LaneRes (Word × Word × Loc) :=
  match laneRun env g [src a, src b, dst d] (shflRead d a b) t with
  | .ran (x, y, l) st =>
    (match put1 l x env st with
     | .ok _ => .ran (x, y, l) st
     | .error .block => .block
     | .error _ => .raEnd)
  | r => r

/-- A shuffle in the members of one group: every lane reads A before any lane writes D. -/
def State.shflGroup (s : State) (isXor : Bool) (g : Guard) (d a b : Operand) (gid : Nat) : State :=
  let env := s.laneEnv gid
  let rs := (s.members.filter (fun t => gidOf t = gid)).map (fun t => (t, shflRun env g.val d a b (s.thread t)))
  let vals : List (Nat × Word × Bool) := rs.filterMap (fun e => match e.2 with
    | .ran (x, _, _) st => some (laneOf e.1, if st.poi then 0 else x, st.unk)
    | _ => none)
  let (s, traps) := rs.foldl (fun (acc : State × List (Nat × Cause)) e =>
    let (s, tr) := acc
    match e.2 with
    | .skip => (s.passAll [e.1], tr)
    | .trap c => (s, tr ++ [(e.1, c)])
    | .block => (s.retryAll [e.1], tr)
    | .raEnd => (s.endRunAhead [e.1], tr)
    | .ran (x, y, l) st =>
      let (v, unk) := ((vals.find? (fun p => p.1 = shflFrom isXor (laneOf e.1) y)).map (·.2)).getD (x, st.unk)
      match put1 l v env { st with unk := st.unk || unk } with
      | .ok (_, st) => (s.commitLane e.1 st, tr)
      | .error _ => (s.retryAll [e.1], tr)) (s, [])
  s.trapMembers traps

def State.shfl (s : State) (isXor : Bool) (g : Guard) (d a b : Operand) : State :=
  (groupsIn s.members).foldl (fun s gid => s.shflGroup isXor g d a b gid) s

def execShflIdx (g : Guard) (d a b : Operand) (s : State) : Host.Outcome State Fault Refusal := .next (s.shfl false g d a b)
def execShflXor (g : Guard) (d a b : Operand) (s : State) : Host.Outcome State Fault Refusal := .next (s.shfl true g d a b)

/-! Address arithmetic, immediates, moves (09 R142, R144, R153). -/

def execAddrS (g : Guard) (d a b : Operand) (s : State) : Host.Outcome State Fault Refusal :=
  .next (s.liftLane g [src a, src b, dst d] (do let x ← rd2 a; let y ← rd1 b; wr2 d (x + y.signExtend 64)))
def execAddrZ (g : Guard) (d a b : Operand) (s : State) : Host.Outcome State Fault Refusal :=
  .next (s.liftLane g [src a, src b, dst d] (do let x ← rd2 a; let y ← rd1 b; wr2 d (x + y.zeroExtend 64)))

def execAddi (g : Guard) (d a : Operand) (imm : BitVec 8) (s : State) : Host.Outcome State Fault Refusal :=
  laneUn1 (fun x => x + imm.signExtend 32) g d a s
def execAndi (g : Guard) (d a : Operand) (imm : BitVec 8) (s : State) : Host.Outcome State Fault Refusal :=
  laneUn1 (fun x => x &&& imm.signExtend 32) g d a s
def execOri (g : Guard) (d a : Operand) (imm : BitVec 8) (s : State) : Host.Outcome State Fault Refusal :=
  laneUn1 (fun x => x ||| imm.signExtend 32) g d a s
def execXori (g : Guard) (d a : Operand) (imm : BitVec 8) (s : State) : Host.Outcome State Fault Refusal :=
  laneUn1 (fun x => x ^^^ imm.signExtend 32) g d a s

def execMovi (g : Guard) (d : Operand) (imm : BitVec 15) (s : State) : Host.Outcome State Fault Refusal :=
  .next (s.liftLane g [dst d] (wr1 d (imm.signExtend 32)))

def execMovB32 (g : Guard) (d a : Operand) (s : State) : Host.Outcome State Fault Refusal := laneUn1 (fun x => x) g d a s
def execMovB64 (g : Guard) (d a : Operand) (s : State) : Host.Outcome State Fault Refusal := laneUn2 (fun x => x) g d a s

/-! Predicates (09 R150, R151). -/

def execPlog (g : Guard) (lut : BitVec 4) (pd pa pb : Guard) (s : State) : Host.Outcome State Fault Refusal :=
  .next (s.liftLane g [] (do let x ← readPred pa.val; let y ← readPred pb.val; writePred pd.val (plogBit lut x y)))

/-- The predicates 1-7 that a mask names, written together. -/
def writeMasked (a : Word) (mask : BitVec 7) (k : Nat) : LaneM Unit :=
  match k with
  | 0 => return ()
  | n + 1 => do
    if mask.getLsbD n then writePred (n + 1) (a.getLsbD (n + 1))
    writeMasked a mask n

/-- All predicates read. -/
def readPreds : LaneM Word := do
  let _ ← readPred 1
  let _ ← readPred 2
  let _ ← readPred 3
  let _ ← readPred 4
  let _ ← readPred 5
  let _ ← readPred 6
  let _ ← readPred 7
  let t ← getTh
  return predWord t.preds

def execPmov (g : Guard) (d a : Operand) (mask : BitVec 7) (s : State) : Host.Outcome State Fault Refusal :=
  .next (s.liftLane g [src a, dst d] (do let x ← rd1 a; let p ← readPreds; writeMasked x mask 7; wr1 d p))

/-! Index registers (09 R154). -/

/-- xset: the window check, then the whole register. -/
def xsetBody (k : Nat) (a : Operand) : LaneM Unit := do
  let x ← rd1 a
  fun env l =>
    let u := env.ra && (l.unk || env.gunk)
    if !u && decide (env.nregs < xBase x + xLimit x) then .error (.trap { code := 0x03 })
    else .ok ((), { l with th := l.th.putX k (if l.poi then 0 else x) u })

def execXset (g : Guard) (k : Fin 7) (a : Operand) (s : State) : Host.Outcome State Fault Refusal :=
  .next (s.liftLane g [src a] (xsetBody k.val a))

/-- An index register read as a value. -/
def readX (k : Nat) : LaneM Word := fun env l => .ok (l.th.x k, { l with unk := l.unk || (env.ra && l.th.unkXs.contains k) })

def execXget (g : Guard) (d : Operand) (k : Fin 7) (s : State) : Host.Outcome State Fault Refusal :=
  .next (s.liftLane g [dst d] (do let x ← readX k.val; wr1 d x))

end Sys2Proof.Machine
end

