-- ==== Sys2Proof/Machine/Group.lean ====
section
/-! DEFINITION. Group instructions: uniform arithmetic and moves, special and control registers, vote, reductions and scans
(11 R164-R173, R176-R179). -/

namespace Sys2Proof.Machine

/-! Uniform arithmetic (11 R167). -/

/-- A direct destination, of both its registers where it is a pair (03 R45). -/
def wideDst (d : Operand) (wide : Bool) : List Use :=
  match d with
  | .v n => if h : wide ∧ n.val + 1 < 112 then [dst d, dst (.v ⟨n.val + 1, h.2⟩)] else [dst d]
  | _ => [dst d]

def uni1 (f : Word → Word → Word) (g : Guard) (d a b : Operand) (s : State) : Host.Outcome State Fault Refusal :=
  .next (s.liftUniform g [src a, src b, dst d] true d (do let x ← rd1 a; let y ← rd1 b; return [f x y]))

/-- The two registers of a pair, low first. -/
def pairWords (x : DWord) : List Word := [x.truncate 32, (x >>> 32).truncate 32]

def uni2 (f : DWord → DWord → DWord) (g : Guard) (d a b : Operand) (s : State) : Host.Outcome State Fault Refusal :=
  .next (s.liftUniform g ([src a, src b] ++ wideDst d true) true d (do let x ← rd2 a; let y ← rd2 b; return pairWords (f x y)))

def execGaddB32 (g : Guard) (d a b : Operand) (s : State) : Host.Outcome State Fault Refusal := uni1 (fun x y => x + y) g d a b s
def execGsubB32 (g : Guard) (d a b : Operand) (s : State) : Host.Outcome State Fault Refusal := uni1 (fun x y => x - y) g d a b s
def execGaddB64 (g : Guard) (d a b : Operand) (s : State) : Host.Outcome State Fault Refusal := uni2 (fun x y => x + y) g d a b s
def execGsubB64 (g : Guard) (d a b : Operand) (s : State) : Host.Outcome State Fault Refusal := uni2 (fun x y => x - y) g d a b s
def execGmulB32 (g : Guard) (d a b : Operand) (s : State) : Host.Outcome State Fault Refusal := uni1 (fun x y => x * y) g d a b s
def execGmulhS32 (g : Guard) (d a b : Operand) (s : State) : Host.Outcome State Fault Refusal := uni1 mulhS g d a b s
def execGand (g : Guard) (d a b : Operand) (s : State) : Host.Outcome State Fault Refusal := uni1 (fun x y => x &&& y) g d a b s
def execGor (g : Guard) (d a b : Operand) (s : State) : Host.Outcome State Fault Refusal := uni1 (fun x y => x ||| y) g d a b s
def execGxor (g : Guard) (d a b : Operand) (s : State) : Host.Outcome State Fault Refusal := uni1 (fun x y => x ^^^ y) g d a b s
def execGandn (g : Guard) (d a b : Operand) (s : State) : Host.Outcome State Fault Refusal := uni1 (fun x y => x &&& ~~~y) g d a b s
def execGshl (g : Guard) (d a b : Operand) (s : State) : Host.Outcome State Fault Refusal := uni1 (fun x y => shlW x (shiftCount y)) g d a b s
def execGshr (g : Guard) (d a b : Operand) (s : State) : Host.Outcome State Fault Refusal := uni1 (fun x y => shrW x (shiftCount y)) g d a b s
def execGminS32 (g : Guard) (d a b : Operand) (s : State) : Host.Outcome State Fault Refusal := uni1 (fun x y => if x.slt y then x else y) g d a b s
def execGmaxS32 (g : Guard) (d a b : Operand) (s : State) : Host.Outcome State Fault Refusal := uni1 (fun x y => if x.slt y then y else x) g d a b s

/-- Predicates written in every lane of m0 (11 R169). -/
def uniCmp (signed : Bool) (g pt pf : Guard) (lt : Bool) (a b : Operand) (s : State) : Host.Outcome State Fault Refusal :=
  .next (s.uniform g [src a, src b] true (do let x ← rd1 a; let y ← rd1 b; return condInt signed lt x y)
    (fun s r =>
      ((s.writePreds r.gid pt.val (r.val && !r.poi) r.unk).writePreds r.gid pf.val (!r.val && !r.poi) r.unk).passAll r.members))

def execGcmpS32 (g pt pf : Guard) (lt : Bool) (a b : Operand) (s : State) : Host.Outcome State Fault Refusal := uniCmp true g pt pf lt a b s
def execGcmpZ32 (g pt pf : Guard) (lt : Bool) (a b : Operand) (s : State) : Host.Outcome State Fault Refusal := uniCmp false g pt pf lt a b s

def execGaddi (g : Guard) (d a : Operand) (imm : BitVec 8) (s : State) : Host.Outcome State Fault Refusal :=
  .next (s.liftUniform g [src a, dst d] true d (do let x ← rd1 a; return [x + imm.signExtend 32]))
def execGmovi (g : Guard) (d : Operand) (imm : BitVec 15) (s : State) : Host.Outcome State Fault Refusal :=
  .next (s.liftUniform g [dst d] true d (do return [imm.signExtend 32]))
def execGmov (g : Guard) (d a : Operand) (s : State) : Host.Outcome State Fault Refusal :=
  .next (s.liftUniform g [src a, dst d] true d (do let x ← rd1 a; return [x]))

/-- gsel has no guard; the leader supplies the selector (11 R168). -/
def execGsel (sel : Guard) (d a b : Operand) (s : State) : Host.Outcome State Fault Refusal :=
  .next (s.liftUniform sel [src a, src b, dst d] false d
    (do let p ← readPred sel.val; let x ← rd1 a; let y ← rd1 b; return [if p then x else y]))

/-! Special registers (11 R170). -/

/-- Value of ASSURE for a context (25 R387, R388). -/
def State.assure (s : State) (c : Nat) : Nat :=
  let x := s.ctx c
  let vs := x.stamps.map (·.2) ++ (match x.frozen with | some v => [v] | none => [])
  match vs with
  | [] => s.vtime c
  | v :: r => r.foldl Nat.min v

/-- Words of a special register as thread `tid` reads it. -/
def State.spRegVal (s : State) (tid : Nat) (r : SpReg) : List Word :=
  let t := s.thread tid
  let gid := gidOf tid
  let g := s.group gid
  let tm := s.team (teamOf gid)
  let w (n : Nat) : List Word := [BitVec.ofNat 32 n]
  let dw (n : Nat) : List Word := pairWords (BitVec.ofNat 64 n)
  let isBin := tm.binEntry.isSome
  match r with
  | .lane => w (laneOf tid)
  | .thread => w (g.idx * 32 + laneOf tid)
  | .group => w g.idx
  | .team => w tm.idx
  | .teamdim => w (if isBin then g.launched else tm.nthreads % 65536 + tm.nthreads / 32 * 65536)
  | .cluster => [if isBin then 0xFFFFFFFF else (s.cluster tm.cluster).idx]
  | .clpos => w tm.clpos
  | .grid => [(s.grid tm.grid).number]
  | .corelog => w tm.corelog
  | .slicelog => w tm.slicelog
  | .bin => (match g.bin with | some b => w b | none => [0xFFFFFFFF])
  | .time => dw s.time
  | .vtime => dw (s.vtime tm.ctx)
  | .clock => dw (s.ctx tm.ctx).clockCount
  | .link => [t.link]
  | .seed => [t.seed]
  | .mrow => w g.mrow
  | .trapcode => [t.trapcode]
  | .trappc => [t.trappc]
  | .trapaddr => pairWords t.trapaddr
  | .trapaux => [t.trapaux]
  | .subcnt => w (s.ctx tm.ctx).subcnt
  | .feedlost => w (s.ctx tm.ctx).feedlost
  | .assure => dw (s.assure tm.ctx)

def execSreg (g : Guard) (d : Operand) (r : SpReg) (s : State) : Host.Outcome State Fault Refusal :=
  .next (s.perLane g [dst d] (fun tid => wrN d (s.spRegVal tid r)) (fun s tid _ l => s.commitLane tid l))

/-- The write of a special register; one that is not RW has no effect (00 R5). -/
def Thread.putSp (t : Thread) (r : SpReg) (v : Word) : Thread :=
  match r with
  | .link => { t with link := v }
  | .seed => { t with seed := v }
  | .trappc => { t with trappc := v }
  | _ => t

/-- A special register is 64 bits wide. -/
def spWide : SpReg → Bool
  | .time | .vtime | .clock | .trapaddr | .assure => true
  | _ => false

def execSregw (g : Guard) (r : SpReg) (b : Operand) (s : State) : Host.Outcome State Fault Refusal :=
  .next (s.liftLane g [src b] (do
    noRunAhead
    if spWide r then
      let _ ← rd2 b
    else
      let v ← rd1 b
      fun _ l => .ok ((), { l with th := l.th.putSp r (if l.poi then 0 else v) })))

/-! Control registers (11 R171-R173). -/

/-- A control register is 64 bits wide. -/
def ctlWide : CtlReg → Bool
  | .feedbase | .cpytab | .restab => true
  | _ => false

/-- The program may write the register. -/
def ctlWritable : CtlReg → Bool
  | .memdef | .fpdef | .trapbase | .feedbase | .feedsize | .feedhead | .feedtail => true
  | _ => false

/-- MEMDEF after a write: reserved values leave their field, other bits read back zero (11 R172). -/
def memdefWrite (old new : Word) : Word :=
  let o := old.toNat
  let n := new.toNat
  let pol := if 5 ≤ fld n 14 12 then fld o 14 12 else fld n 14 12
  let sp := if fld n 17 15 = 7 then fld o 17 15 else fld n 17 15
  let sc := if 5 ≤ fld n 20 18 then fld o 20 18 else fld n 20 18
  BitVec.ofNat 32 (pol * 2 ^ 12 + sp * 2 ^ 15 + sc * 2 ^ 18 + fld n 22 21 * 2 ^ 21)

/-- The written value holds a reserved value or a non-zero MBZ bit. -/
def memdefBad (new : Word) : Bool :=
  let n := new.toNat
  decide (5 ≤ fld n 14 12) || fld n 17 15 == 7 || decide (5 ≤ fld n 20 18) || fld n 11 0 != 0 || fld n 31 23 != 0

/-- FPDEF after a write (07 R124). -/
def fpdefWrite (old new : Word) : Word :=
  let n := new.toNat
  let rnd := if fld n 2 0 = 0 ∨ 6 ≤ fld n 2 0 then fld old.toNat 2 0 else fld n 2 0
  BitVec.ofNat 32 (rnd + fld n 3 3 * 8)
def fpdefBad (new : Word) : Bool :=
  let n := new.toNat
  fld n 2 0 == 0 || decide (6 ≤ fld n 2 0) || fld n 31 4 != 0

/-- The value a control register takes from a write, and whether the write is counted (00 R6). -/
def ctlValue (c : Ctl) (r : CtlReg) (v : DWord) : DWord × Bool :=
  match r with
  | .memdef => ((memdefWrite c.memdef (v.truncate 32)).zeroExtend 64, memdefBad (v.truncate 32))
  | .fpdef => ((fpdefWrite c.fpdef (v.truncate 32)).zeroExtend 64, fpdefBad (v.truncate 32))
  | _ => (v, false)

/-- A read of FEEDHEAD is an acquire at partition scope (19 R303). -/
def execCtl (g : Guard) (d : Operand) (r : CtlReg) (s : State) : Host.Outcome State Fault Refusal :=
  match d with
  | .v n => .next (s.uniform g (wideDst d (ctlWide r)) true (do return ()) (fun s u =>
      let v := (s.ctlFor (s.team (teamOf u.gid)).ctx u.gid).get r
      let s := if r = .feedhead ∧ (s.group u.gid).inRa = false then s.acquireAt (s.whoTeam (teamOf u.gid)) .partition else s
      (s.writeLanes u.gid n.val (if ctlWide r then pairWords v else [v.truncate 32]) u.unk).passAll u.members))
  | _ => .next s

/-- Members stand at the instruction under execution and wait there. -/
def State.waitAll (s : State) (ts : List Nat) (w : Wait) : State :=
  ts.foldl (fun s t => s.modThread t (fun x =>
    { x with wait := w, waitLen := s.cur.len, waitWord := s.cur.word, since := s.clock, wdogBar := 0 })) s

/-- A ctlw performed: the context's copy takes the value; the group waits until every core holds it (11 R173). -/
def State.ctlwPerform (s : State) (gid : Nat) (members : List Nat) (leader : Nat) (r : CtlReg) (v : DWord) : State :=
  let c := (s.team (teamOf gid)).ctx
  let old := (s.ctx c).ctl.get r
  let (nv, bad) := ctlValue (s.ctx c).ctl r v
  let s := if bad then s.count (coreSlice (s.team (teamOf gid)).core) diagRsvw else s
  let (id, s) := s.fresh
  let (k, s) := s.draw
  let w : CtlWrite := { id := id, reg := r, old := old, gid := some gid, useOld := (Config.freeValue k).getLsbD 0 }
  let s := s.modCtx c (fun x => { x with ctl := x.ctl.put r nv, writes := x.writes ++ [w] })
  let s := if r = .feedbase ∨ r = .feedsize ∨ r = .feedhead ∨ r = .feedtail then
      { s with cores := s.cores.map (fun e => (e.1, { e.2 with filter := e.2.filter.filter (fun k => k.1 ≠ c) })) }
    else s
  (s.setOutside leader).waitAll members .ctlw

def execCtlw (g : Guard) (r : CtlReg) (b : Operand) (s : State) : Host.Outcome State Fault Refusal :=
  if ctlWritable r then
    .next (s.uniform g [src b] true (do noRunAhead; if ctlWide r then rd2 b else (do let v ← rd1 b; return v.zeroExtend 64))
      (fun s u => s.ctlwPerform u.gid u.members u.leader r (if u.poi then 0 else u.val)))
  else .next (s.trapMembers ((s.members.filter (fun t => !(s.group (gidOf t)).inRa)).map
      (fun t => (t, { code := (lowerCode (staticCause (s.laneEnv (gidOf t)) [src b]) (some 0x06)).getD 0x06 })))
      |>.endRunAhead (s.members.filter (fun t => (s.group (gidOf t)).inRa)))

/-- CTLW_COMPLETE: every core holds the value; the group goes on (11 R173). -/
def execCtlwComplete (id : Nat) (s : State) : Host.Outcome State Fault Refusal :=
  .next (match s.ctxs.find? (fun e => e.2.writes.any (fun w => w.id = id)) with
  | none => s
  | some (c, x) =>
    let gids := x.writes.filterMap (fun w => if w.id = id then w.gid else none)
    let s := s.modCtx c (fun x => { x with writes := x.writes.filter (fun w => w.id ≠ id) })
    gids.foldl (fun s gid => (s.realThreads gid).foldl (fun s e =>
      if e.2.wait = .ctlw then s.modReal e.1 (fun t => t.leaveWait s.clock) else s) s) s)

/-! Collective instructions (03 R55, R56). -/

/-- The threads of the group that wait at the collective instruction at a PC. -/
def State.standing (s : State) (gid : Nat) (pc : Word) : List Nat :=
  ((s.threadsOfGroup gid).filter (fun e => decide (e.2.wait = .collective) && decide (e.2.pc = pc))).map (·.1)

/-- One group's arrival at a collective instruction: rows of 03 R56 in order; `extra` is a further cause whatever the guard, `act` the
instruction once for the group. -/
def State.collectiveGroup (s : State) (g : Guard) (us : List Use) (extra : State → Nat → Option Nat)
    (act : State → Nat → List Nat → State) (gid : Nat) : State :=
  let all := s.members.filter (fun t => gidOf t = gid)
  if (s.group gid).inRa then s.endRunAhead all
  else
    let ready := all.filter (fun t => memberClear (s.thread t) g.val us)
    let s := s.retryAll (all.filter (fun t => !ready.contains t))
    let s := s.waitAll ready .collective
    let s := s.settleCollective gid
    let ts := s.standing gid s.cur.pc
    if ts.length < 32 then s
    else
      let handle := lowerCode (staticCause (s.laneEnv gid) us) (extra s gid)
      let guards := ts.all (fun t => (s.thread t).pred g.val)
      match lowerCode handle (if guards then none else some 0x07) with
      | some code => s.trapMembers (ts.map (fun t => (t, { code := code })))
      | none => act s gid ts

def State.collective (s : State) (g : Guard) (us : List Use) (act : State → Nat → List Nat → State) : State :=
  (groupsIn s.members).foldl (fun s gid => s.collectiveGroup g us (fun _ _ => none) act gid) s

/-- Members that waited at a collective instruction pass it. -/
def State.leaveAll (s : State) (ts : List Nat) : State := ts.foldl (fun s t => s.modThread t (fun x => x.leaveWait s.clock)) s

/-- Results of vote on the word of predicates (11 R176). -/
def voteWord (k : VoteKind) (b : Word) : Word :=
  match k with
  | .mask => b
  | .every => if b = 0xFFFFFFFF then 1 else 0
  | .some => if b ≠ 0 then 1 else 0
  | .same => if b = 0 ∨ b = 0xFFFFFFFF then 1 else 0
  | .count => BitVec.ofNat 32 (popcB b)
  | .first => BitVec.ofNat 32 (ctzB b)

/-- The word whose bit l is predicate `p` of lane l. -/
def State.predsOf (s : State) (gid p : Nat) : Word :=
  BitVec.ofNat 32 ((List.range 32).foldl (fun a l => if (s.thread (tidOf gid l)).pred p then a + 2 ^ l else a) 0)

/-- Members whose predicate has a write under way: they try again (03 R45). -/
def State.voteHeld (s : State) (p : Nat) : List Nat := s.members.filter (fun t => !(s.thread t).clear true p)

def execVote (g : Guard) (d : Operand) (p : Guard) (kind : VoteKind) (s : State) : Host.Outcome State Fault Refusal :=
  match d with
  | .v n => .next ((s.retryAll (s.voteHeld p.val)).collective g [dst d] (fun s gid ts =>
      (s.writeLanes gid n.val [voteWord kind (s.predsOf gid p.val)] false).leaveAll ts))
  | _ => .next s

/-! Reductions and scans (11 R177-R179). -/

/-- A reduction operates on pairs. -/
def redWide : RedFn → Bool
  | .add64 | .fadd64 | .fmin64 | .fmax64 => true
  | _ => false

/-- Identity of a reduction. -/
def redIdentity : RedFn → Nat
  | .add32 | .add64 | .maxz | .or | .xor => 0
  | .mins => 0x7FFFFFFF
  | .maxs => 0x80000000
  | .minz | .and => 0xFFFFFFFF
  | .fadd32 => 0x80000000
  | .fadd64 => 0x8000000000000000
  | .fmin32 | .fmax32 => 0x7FC00000
  | .fmin64 | .fmax64 => 0x7FF8000000000000

/-- A float combine rounded by FPDEF. -/
def fpBin (fpdef : Word) (f : Fmt) (op : Bool → Fv → Fv → Fv) (x y : Nat) : Nat :=
  let m := modeOf (fpRnd fpdef)
  f.fround m false (fpFtz fpdef) (op m.isRd (f.read (fpFtz fpdef) x) (f.read (fpFtz fpdef) y))

/-- combine of 11 R177, the left operand first. -/
def redCombine (op : RedFn) (fpdef : Word) (x y : Nat) : Nat :=
  match op with
  | .add32 => (x + y) % 2 ^ 32
  | .add64 => (x + y) % 2 ^ 64
  | .mins => if sext 32 x ≤ sext 32 y then x else y
  | .maxs => if sext 32 x < sext 32 y then y else x
  | .minz => Nat.min x y
  | .maxz => Nat.max x y
  | .and => Nat.land x y
  | .or => Nat.lor x y
  | .xor => Nat.xor x y
  | .fadd32 => fpBin fpdef f32 Fv.add x y
  | .fadd64 => fpBin fpdef f64 Fv.add x y
  | .fmin32 => fpBin fpdef f32 (fun _ => Fv.minnum) x y
  | .fmax32 => fpBin fpdef f32 (fun _ => Fv.maxnum) x y
  | .fmin64 => fpBin fpdef f64 (fun _ => Fv.minnum) x y
  | .fmax64 => fpBin fpdef f64 (fun _ => Fv.maxnum) x y

/-- One level of the pairwise tree of 07 R134. -/
def treeLevel (f : Nat → Nat → Nat) (l : List Nat) : List Nat :=
  match l with
  | x :: y :: r => f x y :: treeLevel f r
  | l => l

/-- The tree over 32 lanes. -/
def redTree (f : Nat → Nat → Nat) (l : List Nat) : Nat :=
  (treeLevel f (treeLevel f (treeLevel f (treeLevel f (treeLevel f l))))).headD 0

/-- A source of a reduction in one thread: a direct register or a literal. -/
def Thread.srcVal (t : Thread) (a : Operand) (wide : Bool) : Nat :=
  match a with
  | .v n => (t.reg n.val).toNat + (if wide then (t.reg (n.val + 1)).toNat * 2 ^ 32 else 0)
  | .lit w => w.toNat
  | .lit2 lo hi => lo.toNat + hi.toNat * 2 ^ 32
  | _ => 0

/-- The source was poisoned, or unknown in run-ahead. -/
def Thread.srcMarked (l : List Nat) (a : Operand) (wide : Bool) : Bool :=
  match a with
  | .v n => l.contains n.val || (wide && l.contains (n.val + 1))
  | _ => false

def widthWords (wide : Bool) (x : Nat) : List Word := natWords32 (if wide then 2 else 1) x
where natWords32 (n x : Nat) : List Word := (List.range n).map (fun i => BitVec.ofNat 32 (x / 2 ^ (32 * i)))

/-- Scoreboard bits of a pair's second register are clear too. -/
def pairUse (a : Operand) (wide : Bool) : List Use :=
  match a with
  | .v n => if h : wide ∧ n.val + 1 < 112 then [src a, src (.v ⟨n.val + 1, h.2⟩)] else [src a]
  | _ => [src a]

def execGred (g : Guard) (d a : Operand) (op : RedFn) (s : State) : Host.Outcome State Fault Refusal :=
  match d with
  | .v n => .next (s.uniform g (pairUse a (redWide op) ++ wideDst d (redWide op)) true (do return ()) (fun s u =>
      let fp := (s.laneEnv u.gid).fpdef
      let val (l : Nat) : Nat :=
        if u.active.contains (tidOf u.gid l) then (s.thread (tidOf u.gid l)).srcVal a (redWide op) else (redIdentity op)
      let poi := u.active.filter (fun t => !(s.group u.gid).inRa && Thread.srcMarked (s.thread t).poisonRegs a (redWide op))
      let unk := u.unk || ((s.group u.gid).inRa && u.active.any (fun t => Thread.srcMarked (s.thread t).unkRegs a (redWide op)))
      let r := if poi.isEmpty then redTree (redCombine op fp) ((List.range 32).map val) else 0
      let s := (s.writeLanes u.gid n.val (widthWords (redWide op) r) unk).passAll u.members
      poi.foldl (fun s t => s.regPoison t s.cur.pc) s))
  | _ => .next s

/-- The scan of one group's active members (11 R179): value before and after each lane. -/
def scanLanes (f : Nat → Nat → Nat) (u : Nat → Nat) (n : Nat) (i acc : Nat) : List (Nat × Nat) :=
  match n with
  | 0 => []
  | k + 1 => (acc, f acc (u i)) :: scanLanes f u k (i + 1) (f acc (u i))

/-- The registers that a scan writes in one lane. -/
def Thread.putWords (t : Thread) (n : Nat) (vs : List Word) (unk : Bool) : Thread :=
  (List.range vs.length).foldl (fun x i => x.putReg (n + i) (vs.getD i 0) unk) t

def execGscan (g : Guard) (d a : Operand) (ex : Bool) (op : RedFn) (s : State) : Host.Outcome State Fault Refusal :=
  match d with
  | .v n => .next ((groupsIn s.members).foldl (fun s gid =>
      let us := pairUse a (redWide op) ++ wideDst d (redWide op)
      let ra := (s.group gid).inRa
      let all := s.members.filter (fun t => gidOf t = gid)
      let ts := all.filter (fun t => memberClear (s.thread t) g.val us)
      let s := s.retryAll (all.filter (fun t => !ts.contains t))
      match staticCause (s.laneEnv gid) us with
      | some code => if ra then s.endRunAhead ts else s.trapMembers (ts.map (fun t => (t, { code := code })))
      | none =>
        let gunk (t : Nat) : Bool := ra && g.val != 0 && (s.thread t).unkPreds.contains g.val
        let active := ts.filter (fun t => (s.thread t).pred g.val || gunk t)
        let u (l : Nat) : Nat := if active.contains (tidOf gid l) then (s.thread (tidOf gid l)).srcVal a (redWide op) else (redIdentity op)
        let poi := active.filter (fun t => !ra && Thread.srcMarked (s.thread t).poisonRegs a (redWide op))
        let unk := ra && active.any (fun t => gunk t || Thread.srcMarked (s.thread t).unkRegs a (redWide op))
        let rs := scanLanes (redCombine op (s.laneEnv gid).fpdef) u 32 0 (redIdentity op)
        let s := active.foldl (fun s t =>
          let (b, e) := rs.getD (laneOf t) (0, 0)
          let v := if poi.isEmpty then (if ex then b else e) else 0
          s.modThread t (fun x => x.putWords n.val (widthWords (redWide op) v) unk)) s
        poi.foldl (fun s t => s.regPoison t s.cur.pc) (s.passAll ts)) s)
  | _ => .next s

end Sys2Proof.Machine
end

