-- ==== Sys2Proof/Machine/Control.lean ====
section
/-! DEFINITION. Control transfer, lane masks, barriers, exit and yield, traps and return, counters and batches (11 R174, R175, R181,
R182, R191-R193, R195-R199), and the delivery of encoding, fetch and deferred causes (05 R101, R108, R110). -/

namespace Sys2Proof.Machine

/-! Control transfer (11 R174). -/

/-- A thread's next instruction is at `pc`. -/
def State.jump (s : State) (tid : Nat) (l : LaneSt) (pc : Word) : State :=
  (s.commitLane tid l).modThread tid (fun t => { t with pc := pc })

/-- Target of bra and call (05 R106). -/
def braTarget (pc : Word) (off : BitVec 22) : Word := pc + 1 + off.signExtend 32

def execBra (g : Guard) (off22 : BitVec 22) (s : State) : Host.Outcome State Fault Refusal :=
  .next (s.perLane g [] (fun _ => needKnown) (fun s tid _ l => s.jump tid l (braTarget s.cur.pc off22)))

def execCall (g : Guard) (off22 : BitVec 22) (s : State) : Host.Outcome State Fault Refusal :=
  .next (s.perLane g [] (fun _ => do needKnown; modTh (fun t => { t with link := s.cur.pc + 1 }))
    (fun s tid _ l => s.jump tid l (braTarget s.cur.pc off22)))

def execJmpr (g : Guard) (a : Operand) (s : State) : Host.Outcome State Fault Refusal :=
  .next (s.perLane g [src a] (fun _ => do let x ← rd1 a; needKnown; return x)
    (fun s tid x l => s.jump tid l (if l.poi then 0 else x)))

def execRet (g : Guard) (s : State) : Host.Outcome State Fault Refusal :=
  .next (s.perLane g [] (fun _ => do needKnown; let t ← getTh; return t.link) (fun s tid x l => s.jump tid l x))

/-! Masks (03 R57-R60; 11 R175). -/

def Group.mask (g : Group) (k : Nat) : Word := spRead 0 g.masks k
def Group.setMask (g : Group) (k : Nat) (v : Word) : Group := { g with masks := spWrite 0 g.masks k v }

/-- The bit of a lane. -/
def laneBit (tid : Nat) : Word := (1 : Word) <<< laneOf tid

/-- A mask of a group in run-ahead is unknown, or known again (23 R360). -/
def Group.unkMask (g : Group) (k : Nat) (unk : Bool) : Group :=
  { g with park := g.park.map (fun p => { p with unkMasks := markList unk k p.unkMasks }) }

/-- join or leave by one thread: its bit, noted among the updates of the clock; on scratch copies in run-ahead. -/
def Group.ownBit (g : Group) (k tid : Nat) (set unk : Bool) : Group :=
  let v := if set then g.mask k ||| laneBit tid else g.mask k &&& ~~~laneBit tid
  if g.inRa then (g.setMask k v).unkMask k (unk || (g.park.map (fun p => p.unkMasks.contains k)).getD false)
  else (g.setMask k v).markMask k (laneOf tid) set

/-- join or leave over the set. -/
def State.ownBits (s : State) (g : Guard) (k : Nat) (set : Bool) : State :=
  s.perLane g [] (fun _ => do let e ← getEnv; return e.gunk) (fun s tid unk l =>
    (s.commitLane tid l).modGroup (gidOf tid) (fun x => x.ownBit k tid set unk))

def execJoin (g : Guard) (k : Fin 12) (s : State) : Host.Outcome State Fault Refusal := .next (s.ownBits g k.val true)
def execLeave (g : Guard) (k : Fin 12) (s : State) : Host.Outcome State Fault Refusal := .next (s.ownBits g k.val false)

/-- A waitm whose thread is set in the mask waits; otherwise it has no effect (03 R59). The release is tested when the clock's mask updates
are all in, at its end (03 R60). -/
def execWaitm (g : Guard) (k : Fin 12) (s : State) : Host.Outcome State Fault Refusal :=
  .next (s.perLane g [] (fun _ => noRunAhead) (fun s tid _ l =>
    if (s.group (gidOf tid)).mask k.val &&& laneBit tid = 0 then s.commitLane tid l else s.waitAll [tid] (.mask k.val)))

def execMrd (g : Guard) (d : Operand) (k : Fin 12) (s : State) : Host.Outcome State Fault Refusal :=
  match d with
  | .v n => .next (s.uniform g [dst d] true (do return ()) (fun s u =>
      let x := s.group u.gid
      let unk := x.inRa && (x.park.map (fun p => p.unkMasks.contains k.val)).getD false
      (s.writeLanes u.gid n.val [x.mask k.val] (u.unk || unk)).passAll u.members))
  | _ => .next s

/-- A mask as mwr leaves it: the value, then the clock's updates by join, leave and exit (11 R175). -/
def Group.wholeMask (g : Group) (k : Nat) (v : Word) (unk : Bool) : Group :=
  if g.inRa then (g.setMask k v).unkMask k unk
  else g.setMask k ((v ||| spRead 0 g.joined k) &&& ~~~(spRead 0 g.left k))

def execMwr (g : Guard) (k : Fin 12) (a : Operand) (s : State) : Host.Outcome State Fault Refusal :=
  .next (s.uniform g [src a] true (rd1 a) (fun s u =>
    (s.modGroup u.gid (fun x => x.wholeMask k.val (if u.poi then 0 else u.val) u.unk)).passAll u.members))

/-! Barriers (03 R74; 11 R195). -/

def teamsIn (ts : List Nat) : List Nat := ts.foldl (fun l t => insertNew (teamOf (gidOf t)) l) []

def execBar (g : Guard) (s : State) : Host.Outcome State Fault Refusal :=
  let s1 := s.perLane g [] (fun _ => noRunAhead) (fun s tid _ _ => s.waitAll [tid] .bar)
  .next ((teamsIn s.members).foldl (fun s t => s.settleBar t) s1)

def execClbar (g : Guard) (s : State) : Host.Outcome State Fault Refusal :=
  let s1 := s.perLane g [] (fun _ => noRunAhead) (fun s tid _ _ => s.waitAll [tid] .clbar)
  .next ((teamsIn s.members).foldl (fun s t => (s.settleBar t).settleClbar (s.team t).cluster) s1)

/-! nop and yield (11 R182, R196). -/

def execNop (g : Guard) (s : State) : Host.Outcome State Fault Refusal := .next (s.liftLane g [] (return ()))

/-- The age of the issue-table entry of a (team, PC) returns to 0. -/
def State.ageReset (s : State) (team : Nat) (pc : Word) : State :=
  s.modCore (s.team team).core (fun c =>
    { c with table := c.table.map (fun e => if e.team = team ∧ e.pc = pc then { e with age := 0 } else e) })

/-- yield: not ready for 16 clocks. -/
def execYield (g : Guard) (s : State) : Host.Outcome State Fault Refusal :=
  .next (s.perLane g [] (fun _ => return ()) (fun s tid _ l =>
    ((s.commitLane tid l).modThread tid (fun (t : Thread) => { t with readyAt := s.clock + 16 })).ageReset (teamOf (gidOf tid)) s.cur.pc))

/-- YIELD_EXPIRY: the 16 clocks are over. -/
def execYieldExpiry (t : Nat) (s : State) : Host.Outcome State Fault Refusal :=
  .next (match s.realThread t with
  | some x => if x.readyAt ≤ s.clock then s.modReal t (fun x => { x with readyAt := 0 }) else s
  | none => s)

/-! Batches and counters (11 R191-R193). -/

/-- Finished batches leave from the oldest on: batch n needs batch n − 1 finished (11 R192). -/
def finishBatches (bs : List Batch) : List Batch := bs.dropWhile (fun b => b.copies.isEmpty)

/-- Scopes added to others without repeats. -/
def addScopes (l new : List Scope) : List Scope := new.foldl (fun l x => if l.contains x then l else l ++ [x]) l

def Thread.settleBatches (t : Thread) : Thread :=
  let r := finishBatches t.batches
  let n := t.batches.length - r.length
  { t with batches := r, batc := t.batc - n, batcDone := addScopes t.batcDone ((t.batches.take n).flatMap (·.scopes)) }

/-- The copies pushed since the last seal form the next batch. -/
def Thread.sealBatch (t : Thread) : Thread :=
  let b : Batch := { num := t.nextBatch, copies := t.openCopies, scopes := t.openDone }
  let u : Thread := { t with batches := t.batches ++ [b], openCopies := [], openDone := [], nextBatch := t.nextBatch + 1, batc := t.batc + 1 }
  u.settleBatches

/-- A copy counts as completed in its batch (11 R192); one that was performed leaves the scope at which its writes are acquired. -/
def Thread.copyDone (t : Thread) (id : Nat) (sc : List Scope) : Thread :=
  let bs : List Batch := t.batches.map (fun b =>
    if b.copies.contains id then { b with copies := b.copies.filter (· ≠ id), scopes := addScopes b.scopes sc } else b)
  let u : Thread := { t with openCopies := t.openCopies.filter (· ≠ id), batches := bs,
                             openDone := if t.openCopies.contains id then addScopes t.openDone sc else t.openDone }
  u.settleBatches

/-- A command counted in ENGC finishes (13 R232). -/
def Thread.engineDone (t : Thread) (sc : Scope) : Thread := { t with engc := t.engc - 1, engcDone := addScopes t.engcDone [sc] }

/-- seal waits while 15 batches are unfinished. -/
def sealBody (d : Operand) : LaneM Unit := do
  noRunAhead
  let t ← getTh
  if 15 ≤ t.batches.length then laneStop .block
  else
    wr1 d t.nextBatch
    modTh Thread.sealBatch

def execSeal (g : Guard) (d : Operand) (s : State) : Host.Outcome State Fault Refusal := .next (s.liftLane g [dst d] (sealBody d))

def execBquery (g : Guard) (d : Operand) (s : State) : Host.Outcome State Fault Refusal :=
  .next (s.liftLane g [dst d] (do let t ← getTh; wr1 d ((t.batches.head?.map (·.num)).getD t.nextBatch)))

def Thread.counter (t : Thread) (c : Ctr) : Nat :=
  match c with
  | .ldc => t.ldc
  | .stc => t.stc
  | .batc => t.batc
  | .engc => t.engc
  | .resc => t.resc

/-- The jobs that a waitc waits out: their writes are acquired, each at its own scope (11 R191; 13 R229, R232). -/
def State.acquireJobs (s : State) (tid : Nat) (c : Ctr) : State :=
  let t := s.thread tid
  match c with
  | .batc => (t.batcDone.foldl (fun (s : State) sc => s.acquireAt (s.whoT tid) sc) s).modThread tid (fun t => { t with batcDone := [] })
  | .engc => (t.engcDone.foldl (fun (s : State) sc => s.acquireAt (s.whoT tid) sc) s).modThread tid (fun t => { t with engcDone := [] })
  | _ => s

def execWaitc (g : Guard) (c : Ctr) (val : BitVec 18) (s : State) : Host.Outcome State Fault Refusal :=
  .next (s.perLane g [] (fun _ => do
      noRunAhead
      let t ← getTh
      if val.toNat < t.counter c then laneStop .block else return ())
    (fun s tid _ l => (s.commitLane tid l).acquireJobs tid c))

/-! Exit (03 R61; 11 R181; 19 R313). -/

/-- A thread's raster-ordered ticket is released. -/
def State.releaseTicket (s : State) (tid : Nat) : State :=
  match (s.thread tid).ticket with
  | none => s
  | some id =>
    { s with slices := s.slices.map (fun e => (e.1, { e.2 with tickets := e.2.tickets.map (fun k =>
        if k.id = id then { k with st := 2, tid := none } else k) })) }

/-- State of a thread's ticket: 0 pending, 1 entered, 2 released or none. -/
def State.ticketState (s : State) (tid : Nat) : Nat :=
  match (s.thread tid).ticket with
  | none => 2
  | some id => ((s.slices.findSome? (fun e => e.2.tickets.find? (fun k => k.id = id))).map (·.st)).getD 2

/-- One active thread at exit: its last batch is sealed; it waits for its accesses and batches, and for its engine commands, those its
engines have not accepted yet among them (each bounds its lookahead until then, 05 R100); an entered ticket is released as by rosout and
raises 0x0C; otherwise the thread ends. -/
def State.exitOne (s : State) (tid : Nat) : State :=
  let s := s.modThread tid (fun t => if t.openCopies.isEmpty then t else t.sealBatch)
  let t := s.thread tid
  if !(t.quiet && t.batc == 0 && t.engc == 0 && t.look.isEmpty) then s.retryAll [tid]
  else if s.ticketState tid = 1 then
    (((s.releaseAt (s.whoT tid) .partition).getD s).releaseTicket tid).trapMembers [(tid, { code := 0x0C })]
  else ((s.releaseTicket tid).endThread tid)

def execExit (g : Guard) (s : State) : Host.Outcome State Fault Refusal :=
  .next (s.perLane g [] (fun _ => noRunAhead) (fun s tid _ _ => s.exitOne tid))

/-! Traps and return (11 R197-R199). -/

/-- The software trap or breakpoint of a lane: the instruction is complete, its operand read, and TRAPPC is the next one's PC. -/
def State.softTrap (s : State) (code : Nat) (g : Guard) (a : Operand) : State :=
  s.perLane g [src a] (fun _ => do noRunAhead; rd1 a) (fun s tid x l =>
    (s.commitLane tid l).takeTrap tid { code := code, aux := if l.poi then 0 else x } s.cur.pc (s.cur.pc + BitVec.ofNat 32 s.cur.len))

def execTrap (g : Guard) (a : Operand) (s : State) : Host.Outcome State Fault Refusal := .next (s.softTrap 0x0E g a)
def execBrk (g : Guard) (a : Operand) (s : State) : Host.Outcome State Fault Refusal := .next (s.softTrap 0x0F g a)

/-- rte: outside handler mode it raises 0x01 in the active member, with the instruction word. -/
def execRte (g : Guard) (s : State) : Host.Outcome State Fault Refusal :=
  .next (s.perLane g [] (fun _ => do
      noRunAhead
      let t ← getTh
      if t.handler then return () else laneTrap 0x01 s.cur.word)
    (fun s tid _ _ => s.modThread tid (fun t => t.leaveHandler s.clock)))

/-! Causes found at fetch and after issue (05 R101, R108, R110). -/

/-- Every member of the set raises a cause at its own PC; run-ahead ends there instead (23 R360). -/
def State.trapSet (s : State) (c : Cause) : State :=
  let ra (t : Nat) : Bool := (s.group (gidOf t)).inRa
  (s.endRunAhead (s.members.filter ra)).trapMembers ((s.members.filter (fun t => !ra t)).map (fun t => (t, c)))

def execIllegalInstruction (aux : Word) (s : State) : Host.Outcome State Fault Refusal := .next (s.trapSet { code := 0x01, aux := aux })
def execFetchProtection (addr : DWord) (s : State) : Host.Outcome State Fault Refusal := .next (s.trapSet { code := 0x06, addr := addr })

/-- The cause that a thread reports next: the lowest code of its oldest instruction with one; what stays pending. -/
def nextDeferred (l : List Deferred) : Option (Deferred × List Deferred) :=
  match l with
  | [] => none
  | d :: _ =>
    let same := l.filter (fun e => e.pc = d.pc)
    let best := same.foldl (fun a e => if e.cause.code < a.cause.code then e else a) d
    some (best, l.filter (fun e => e.pc ≠ d.pc))

/-- DEFERRED_TRAP_DELIVERY: at the thread's instruction boundary (05 R101). -/
def execDeferredTrapDelivery (t : Nat) (s : State) : Host.Outcome State Fault Refusal :=
  .next (match s.realThread t with
  | none => s
  | some x =>
    match nextDeferred x.deferred with
    | none => s
    | some (d, rest) => (s.modBoth t (fun y => { y with deferred := rest })).takeTrap t d.cause d.pc d.pc)

end Sys2Proof.Machine
end

