-- ==== Sys2Proof/Machine/Access.lean ====
section
/-! DEFINITION. What every memory access shares: its fields (05 R94, R96), its checks (13 R200-R204, R227; 15 R237-R240), its
translation, table walks, parking and run-ahead (23 R350-R362), and program order on one thread's bytes (13 R217). -/

namespace Sys2Proof.Machine

/-! Fields of an access. -/

/-- The effective fields of an access (05 R93, R94, R96). -/
structure MAcc where
  ord : MemOrd
  scope : Scope
  space : Space
  pol : Nat
  fe : Fe
  promo : Bool
  off : Int
deriving DecidableEq, Repr

def ordOf (n : Nat) : MemOrd :=
  match n with
  | 0 => .rlx
  | 1 => .acq
  | 2 => .rel
  | _ => .acqRel

def scopeOf (n : Nat) : Scope :=
  match n with
  | 0 => .group
  | 1 => .team
  | 2 => .cluster
  | 3 => .partition
  | _ => .system

def polNum : Pol → Nat
  | .dflt => 0
  | .stream => 1
  | .pin => 2
  | .noalloc => 3
  | .deep => 4

/-- MEMDEF's fields, with an offset. -/
def memdefAcc (m : Word) (off : Int) : MAcc :=
  { ord := ordOf (fld m.toNat 22 21), scope := scopeOf (fld m.toNat 20 18), space := spaceOf (fld m.toNat 17 15),
    pol := fld m.toNat 14 12, fe := .none, promo := false, off := off }

/-- The fields of an access: those of the prefix, or MEMDEF's; OFF9 counts units. -/
def memAcc (p : MPfx) (memdef : Word) (unit : Nat) : MAcc :=
  match p with
  | .none => memdefAcc memdef 0
  | .off o => memdefAcc memdef o.toInt
  | .mem ord scope space pol fe promo off9 =>
    { ord := ord, scope := scope, space := space, pol := polNum pol, fe := fe, promo := promo, off := off9.toInt * unit }

/-- Spaces addressed through the page table. -/
def isGlb (sp : Space) : Bool := sp == .glb || sp == .cnst

def MAcc.acquires (a : MAcc) : Bool := a.ord == .acq || a.ord == .acqRel
def MAcc.releases (a : MAcc) : Bool := a.ord == .rel || a.ord == .acqRel

/-- The memory instructions, as 13 R203 and R204 class them. -/
inductive MemKind where
  | ld | st | atom | red | xacc | xrnd | feTest | feSet
deriving DecidableEq, Repr

/-- 13 R203: the space accepts the access. -/
def spaceAccepts (k : MemKind) (sp : Space) : Bool :=
  match sp with
  | .glb => match k with
    | .feTest | .feSet => false
    | _ => true
  | .spad | .cspad => match k with
    | .xacc | .xrnd => false
    | _ => true
  | .wbuf => false
  | .abuf | .cbuf => match k with
    | .ld | .st | .feTest | .feSet => true
    | _ => false
  | .cnst => k == .ld

/-- 13 R204, R227, 15 R238, R255: ORD, FE, PROMO and POL are accepted. -/
def fieldsAccepted (k : MemKind) (a : MAcc) : Bool :=
  let local4 := a.space == .spad || a.space == .abuf || a.space == .cbuf || a.space == .cspad
  let ordOk := match k with
    | .ld | .xrnd | .feTest => a.ord == .rlx || a.ord == .acq
    | .st | .red | .xacc | .feSet => a.ord == .rlx || a.ord == .rel
    | .atom => true
  let feOk := match k with
    | .ld => a.fe == .none || (local4 && (a.fe == .consume || a.fe == .peek))
    | .st => a.fe == .none || (local4 && a.fe == .setFull)
    | _ => a.fe == .none
  let promoOk := !a.promo || ((k == .ld || k == .atom) && a.acquires && a.scope == .partition && a.space == .glb)
  let polOk :=
    if a.space == .glb then
      match k with
      | .ld | .st => true
      | .atom | .red | .xacc | .xrnd => a.pol == 0 || a.pol == 2
      | _ => a.pol == 0
    else a.pol == 0 || (a.space == .cnst && a.pol == 1)
  ordOk && feOk && promoOk && polOk

/-- Causes raised whatever the guard: an odd direct A in a paged space (13 R201), the space (R203), the fields. -/
def memStatic (k : MemKind) (m : MAcc) (a : Operand) (word : Word) : Option Cause :=
  let odd := match a with | .v n => isGlb m.space && n.val % 2 == 1 | _ => false
  if odd then some { code := 0x01, aux := word }
  else if !spaceAccepts k m.space then some { code := 0x06, aux := 0x01 }
  else if !fieldsAccepted k m then some { code := 0x06, aux := 0x02 }
  else none

/-! Addresses (13 R200, R201; 15 R237). -/

/-- A place in memory: a global virtual address, or an offset in a local store of a team. -/
inductive Place where
  | glb (va : Nat)
  | loc (team sp off : Nat)
deriving DecidableEq, Repr

/-- The address: A plus the offset, modulo the space's width. -/
def addrOf (sp : Space) (a : DWord) (off : Int) : Nat :=
  if isGlb sp then low 64 ((a.toNat : Int) + off) else low 32 ((a.toNat : Int) + off)

/-- The address operand. -/
def rdAddr (sp : Space) (a : Operand) : LaneM DWord :=
  if isGlb sp then rd2 a else (do let x ← rd1 a; return x.zeroExtend 64)

/-- The team of a cluster that a cspad address names. -/
def State.teamNumbered (s : State) (cl n : Nat) : Option Nat := (s.cluster cl).teams.find? (fun t => (s.team t).idx = n)

/-- The address checks in an active lane: 0x04 before 0x06 (00 R14); else the place. `align` is the alignment, `size` the bytes. -/
def State.placeOf (s : State) (team : Nat) (sp : Space) (addr align size : Nat) : Except Cause Place :=
  let t := s.team team
  let at_ (code : Nat) (aux : Nat) : Cause := { code := code, addr := BitVec.ofNat 64 addr, aux := BitVec.ofNat 32 aux }
  if addr % align ≠ 0 then .error (at_ 0x04 align)
  else match sp with
  | .glb | .cnst => if addr / 2 ^ 50 = 0 then .ok (.glb addr) else .error (at_ 0x06 0x03)
  | .cspad =>
    let cl := s.cluster t.cluster
    if fld addr 31 24 ≠ 0 ∨ fld addr 19 19 ≠ 0 ∨ cl.w * cl.h ≤ fld addr 23 20 then .error (at_ 0x06 0x05)
    else match s.teamNumbered t.cluster (fld addr 23 20) with
      | none => .error (at_ 0x06 0x04)
      | some u =>
        if Nat.min ((s.team u).region 1) 0x80000 < fld addr 18 0 + size then .error (at_ 0x06 0x04)
        else .ok (.loc u 1 (fld addr 18 0))
  | sp =>
    if t.region (spaceNum sp) < addr + size then .error (at_ 0x06 0x04) else .ok (.loc team (spaceNum sp) addr)

/-- The address, in the space's own form, at which an access meets an offset of a team's local store (13 R201): TRAPADDR of its poison. -/
def State.localAddr (s : State) (sp : Space) (team off : Nat) : Nat := if sp = .cspad then off + (s.team team).idx % 16 * 2 ^ 20 else off

/-- placeOf inside a lane. -/
def placeAt (s : State) (team : Nat) (sp : Space) (addr align size : Nat) : LaneM Place :=
  match s.placeOf team sp addr align size with
  | .ok p => return p
  | .error c => laneStop (.trap c)

/-! Translation at issue (23 R350-R354). -/

/-- What an access finds. -/
inductive Xl where
  | hit (pa : Nat) (e : TlbEnt)
  | miss
  | refused (c : Cause)
deriving DecidableEq, Repr

/-- The entry that a lane's access takes its frame from: its last-page register, where that matches with the permission and any D
setting done, else the core TLB's (23 R353). -/
def State.heldFor (s : State) (core c lane va : Nat) (k : AccK) : Option TlbEnt :=
  match spGet (s.core core).last lane with
  | some e => if e.hits c va && s.permits c e.leaf k && (!k.writes || leafD e.leaf) then some e else s.tlbFind core c va false
  | none => s.tlbFind core c va false

/-- A lane's access to one page: a held translation, a walk needed (also to set D), or a cause: a permission missing, or a link port
that is no longer up (01 R36; 23 R350). -/
def State.xlate (s : State) (tid va : Nat) (k : AccK) : Xl :=
  let core := s.coreOfT tid
  let c := s.ctxOfT tid
  match s.heldFor core c (laneOf tid) va k with
  | none => .miss
  | some e =>
    match s.refusal c va e.leaf k with
    | some x => .refused x
    | none =>
      if k.writes && !leafD e.leaf then .miss
      else if isPeerPa (e.pa va) && !s.backed (ctxFirst c) (e.pa va) then .refused { code := 0x05, addr := BitVec.ofNat 64 va }
      else .hit (e.pa va) e

/-- A walk asked for the members of a group; those whose own access lies on the page say where (23 R350). -/
def State.askWalk (s : State) (gid va : Nat) (k : AccK) (reqs : List (Nat × Word × Nat)) : State :=
  let core := (s.team (teamOf gid)).core
  let c := (s.team (teamOf gid)).ctx
  let (id, s) := s.fresh
  { s with walks := s.walks ++ [{ id := id, core := core, ctx := c, va := va, acc := k.num, reqs := reqs }] }

/-- Members stand at the instruction until its translations are resolved (23 R354): one walk for each page and use of it. -/
def State.waitXlate (s : State) (gid : Nat) (members : List Nat) (misses : List (Nat × Nat × AccK)) : State :=
  let keys := misses.foldl (fun l m => insertNew (m.2.1 / 65536 * 8 + m.2.2.num) l) []
  let s := keys.foldl (fun s key =>
    let on := misses.filter (fun m => m.2.1 / 65536 * 8 + m.2.2.num = key)
    let own (t : Nat) : Nat := ((on.find? (fun m => m.1 = t)).map (fun m => m.2.1 + 1)).getD 0
    s.askWalk gid ((on.head?.map (·.2.1)).getD 0) (AccK.ofNum (key % 8)) (members.map (fun t => (t, s.cur.pc, own t)))) s
  s.waitAll members .translate

/-! Fault batches (23 R362-R364). -/

/-- A batch handed over for the fault queue; its number counts per partition. -/
def State.sendBatch (s : State) (c unit who core gslot : Nat) (recs : List FRec) : Nat × State :=
  let f := ctxFirst c
  let no := (s.slice f).batchNo
  let b : FBatch := { no := no, ctx := c, unit := unit, who := who, slicelog := coreSlice core - f, core := corePos core,
                      gslot := gslot, recs := recs.take 32, stamp := BitVec.ofNat 64 (s.vtime c) }
  (no, s.modSlice f (fun v => { v with batchNo := (no + 1) % 2 ^ 32, waitingBatches := v.waitingBatches ++ [b] }))

/-! Park and run-ahead (23 R359-R361). -/

/-- Registers that copies on their way to the group's registers hold become unknown in run-ahead (23 R360). -/
def scratchThread (copyIds : List Nat) (t : Thread) : Thread :=
  let isCopy (e : SbEnt) : Bool := copyIds.contains e.op
  { t with sb := t.sb.filter (fun e => !isCopy e), unkRegs := unionNew t.unkRegs ((t.sb.filter isCopy).map (·.n)),
           wait := if t.wait = .translate then .none else t.wait, raEnded := false }

/-- A group parks: its state is checkpointed, and it runs ahead on scratch copies. -/
def State.parkGroup (s : State) (gid : Nat) (pages : List FRec) : State :=
  let ids := (s.core (s.team (teamOf gid)).core).copies.map (·.id)
  let wake (t : Thread) : Thread := if t.wait = .translate then { t with wait := .none } else t
  let ts := (s.threadsOfGroup gid).map (fun e => (e.1, wake e.2))
  let g := s.group gid
  let p : Park := { threads := ts, masks := g.masks, binds := g.binds, pages := pages, running := true }
  let s := s.modGroup gid (fun (g : Group) => { g with park := some p })
  ts.foldl (fun s e => s.setThread e.1 (scratchThread ids e.2)) s

/-- A page gathered in run-ahead, unless its 64 KiB page is there already. -/
def State.gather (s : State) (gid va kind : Nat) (k : AccK) (pc : Word) : State :=
  s.modGroup gid (fun g => { g with park := g.park.map (fun p =>
    if p.pages.any (fun r => r.va / 65536 = va / 65536) ∨ 32 ≤ p.pages.length then p
    else { p with pages := p.pages ++ [{ va := va, kind := kind, acc := k.code, ra := true, pc := pc }] }) })

/-- The checkpoint restored, the batch sent if it holds a page; the group stays parked (23 R361). -/
def State.endRunAheadGroup (s : State) (gid : Nat) : State :=
  match (s.group gid).park with
  | none => s
  | some p =>
    if !p.running then s
    else
      let g := s.group gid
      let t := s.team (teamOf gid)
      let s := { s with threads := s.threads.filter (fun e => gidOf e.1 ≠ gid) }
      let s := p.threads.foldl (fun s e => s.setThread e.1 e.2) s
      if p.pages.isEmpty then
        let g' : Group := { g with masks := p.masks, binds := p.binds, park := none }
        s.setGroup gid g'
      else
        let (no, s) := s.sendBatch t.ctx 0 gid t.core g.slot p.pages
        let q : Park := { pages := p.pages, running := false, batch := some no }
        let g' : Group := { g with masks := p.masks, binds := p.binds, park := some q }
        s.setGroup gid g'

/-- Run-ahead of a group is over (23 R361): every thread's has ended or waits, 32 pages are gathered, or 512 sets have issued. -/
def State.runAheadOver (s : State) (gid : Nat) : Bool :=
  match (s.group gid).park with
  | none => false
  | some p => p.running && ((s.group gid).halt.isSome || decide (32 ≤ p.pages.length) || decide (512 ≤ p.issued) ||
      (s.threadsOfGroup gid).all (fun e => e.2.raEnded || !(decide (e.2.wait = .none) || decide (e.2.wait = .retry))))

/-- RUN_AHEAD_END. -/
def execRunAheadEnd (gid : Nat) (s : State) : Host.Outcome State Fault Refusal :=
  .next (if s.runAheadOver gid then s.endRunAheadGroup gid else s)

/-- A mapping that a group in run-ahead has used, by its 64 KiB pages (23 R361). -/
def State.noteTranslated (s : State) (gid : Nat) (e : TlbEnt) : State :=
  s.modGroup gid (fun g => { g with park := g.park.map (fun p =>
    if p.running then { p with translated := unionNew p.translated (upto (e.base / 65536) (e.size / 65536)) } else p) })

/-- What run-ahead finds of a page: a translation, a page gathered, or a cause that the instruction would raise, which ends it. -/
inductive RaX where
  | got (pa : Nat) (e : TlbEnt)
  | gathered
  | ends
deriving DecidableEq, Repr

/-- An address translated in run-ahead: at once, its page gathered if it faults, unless the page is in the group's cancel set
(23 R360, R365). -/
def State.raXlate (s : State) (tid va : Nat) (k : AccK) : RaX × State :=
  let gid := gidOf tid
  let core := s.coreOfT tid
  let c := s.ctxOfT tid
  match s.tlbFind core c va k.writes with
  | some e => (if s.permits c e.leaf k then .got (e.pa va) e else .ends, s.noteTranslated gid e)
  | none =>
    match s.walk c va with
    | (.done e, s) =>
      if s.permits c e.leaf k then
        let (e, s) := s.markLeaf e k.writes
        (.got (e.pa va) e, (s.installTlb core e).noteTranslated gid e)
      else (.ends, s.noteTranslated gid e)
    | (.fault kind, s) =>
      if (s.group gid).cancel.contains (va / 65536) then (.ends, s) else (.gathered, s.gather gid va kind k s.cur.pc)
    | (_, s) => (.ends, s)

/-! Walks completed (23 R350). -/

/-- The group's part in resolved walks: each thread with a cause traps with its lowest code (00 R14), cancelled pages among them; the pages
of the others park the group; with none the members try again. -/
def State.resolveGroup (s : State) (gid : Nat) : State :=
  let mine := s.walks.filter (fun w => w.reqs.any (fun r => gidOf r.1 = gid))
  if mine.any (fun w => w.fault.isNone && w.cause.isNone) then s
  else
    let stands (r : Nat × Word × Nat) : Bool := match spGet s.threads r.1 with
      | some t => decide (t.wait = .translate) && decide (t.pc = r.2.1)
      | none => false
    let own (w : Walk) : List (Nat × Word × Nat) := w.reqs.filter (fun r => gidOf r.1 = gid && r.2.2 != 0 && stands r)
    let cancelled (va : Nat) : Bool := (s.group gid).cancel.contains (va / 65536)
    let causes : List (Nat × Word × Cause × Nat) := mine.flatMap (fun w => (own w).filterMap (fun r =>
      let addr := BitVec.ofNat 64 (r.2.2 - 1)
      match w.cause with
      | some (c, pa) => some (r.1, r.2.1, { c with addr := addr }, pa)
      | none => if cancelled (r.2.2 - 1) then some (r.1, r.2.1, { code := 0x05, addr := addr }, 0) else none))
    let lanes (l : List Nat) : List Nat := (List.range 32).flatMap (fun k => l.filter (fun t => laneOf t = k))
    let dead := lanes (causes.foldl (fun l e => insertNew e.1 l) [])
    let worst (t : Nat) : Option (Nat × Word × Cause × Nat) := (causes.filter (fun e => e.1 = t)).foldl (fun a e =>
      match a with
      | some b => if e.2.2.1.code < b.2.2.1.code then some e else a
      | none => some e) none
    let hits : List (Nat × Word × Nat × Nat × Nat) := mine.flatMap (fun w => match w.fault with
      | some k => ((own w).filter (fun r => !dead.contains r.1)).map (fun r => (r.1, r.2.1, r.2.2 - 1, k, w.acc))
      | none => [])
    let byLane := (List.range 32).flatMap (fun l => hits.filter (fun h => laneOf h.1 = l))
    let s := { s with walks := (s.walks.map (fun (w : Walk) =>
      { w with reqs := w.reqs.filter (fun r => gidOf r.1 ≠ gid) })).filter (fun (w : Walk) => !w.reqs.isEmpty) }
    let ends := dead.filterMap worst
    let s := (ends.filter (fun e => e.2.2.1.code = 0x0D)).foldl (fun (s : State) e =>
      s.consume e.1 9 e.2.2.1.addr.toNat e.2.2.2 (fun s => s.takeTrap e.1 e.2.2.1 e.2.1 e.2.1)) s
    let s := s.trapIssued ((ends.filter (fun e => e.2.2.1.code ≠ 0x0D)).map (fun e => (e.1, e.2.2.1, e.2.1, e.2.1)))
    let pages : List FRec := byLane.foldl (fun (l : List FRec) (h : Nat × Word × Nat × Nat × Nat) =>
      if l.any (fun r => r.va / 65536 = h.2.2.1 / 65536) then l
      else l ++ [{ va := h.2.2.1, kind := h.2.2.2.1, acc := (AccK.ofNum h.2.2.2.2).code, ra := false, pc := h.2.1 }]) []
    if pages.isEmpty then
      (s.threadsOfGroup gid).foldl (fun s e => if e.2.wait = .translate then s.modThread e.1 (fun t => { t with wait := .none }) else s) s
    else if (spGet s.groups gid).isSome then s.parkGroup gid (pages.take 32) else s

/-- TABLE_WALK: a walk ends in a translation, a fault or a cause; only a translation that the access may use is kept (23 R350, R353). -/
def execTableWalk (id : Nat) (s : State) : Host.Outcome State Fault Refusal :=
  .next (match s.walks.find? (fun w => w.id = id && w.fault.isNone && w.cause.isNone) with
  | none => s
  | some w =>
    let gids := groupsIn (w.reqs.map (·.1))
    let k := AccK.ofNum w.acc
    -- a walk dropped before its group is looked at leaves the members to be released there
    let release (s : State) : State := gids.foldl (fun s g =>
      if s.walks.any (fun x => x.reqs.any (fun r => gidOf r.1 = g)) then s.resolveGroup g
      else (s.threadsOfGroup g).foldl (fun s e =>
        if e.2.wait = .translate then s.modThread e.1 (fun t => { t with wait := .none }) else s) s) s
    let ended (s : State) (f : Walk → Walk) : State :=
      release { s with walks := s.walks.map (fun (x : Walk) => if x.id = id then f x else x) }
    match s.walk w.ctx w.va with
    | (.done e, s) =>
      (match s.refusal w.ctx w.va e.leaf k with
      | none =>
        let (e, s) := s.markLeaf e k.writes
        let s := s.installTlb w.core e
        release { s with walks := s.walks.filter (fun x => x.id ≠ id) }
      | some c => ended s (fun x => { x with cause := some (c, 0) }))
    | (.fault kind, s) => ended s (fun x => { x with fault := some kind })
    | (.poison pa, s) => ended s (fun x => { x with cause := some ({ code := 0x0D }, pa) })
    | (.unbacked _, s) => ended s (fun x => { x with cause := some ({ code := 0x05 }, 0) }))

/-! Results on their way. -/

/-- The scoreboard bits of a load's destination set (03 R45). -/
def Thread.markDest (t : Thread) (op : Nat) (d : Dest) : Thread :=
  match d with
  | .regs n w => { t with sb := t.sb ++ (upto n w).map (fun r => { op := op, isPred := false, n := r }) }
  | .pred p => if p = 0 then t else { t with sb := t.sb ++ [{ op := op, isPred := true, n := p }] }
  | .queue k id => { t with qs := t.qs ++ [{ k := k, id := id, val := none }] }
  | .none => t

/-- A result written where its scoreboard bit still stands; a later write has taken the others over (09 R141). -/
def Thread.deliver (t : Thread) (op : Nat) (d : Dest) (ws : List Word) : Thread :=
  let holds (isPred : Bool) (n : Nat) : Bool := t.sb.any (fun e => e.op == op && e.isPred == isPred && e.n == n)
  let t' : Thread :=
    match d with
    | .regs n w => (List.range w).foldl (fun x i => if holds false (n + i) then x.putReg (n + i) (ws.getD i 0) false else x) t
    | .pred p => if holds true p then t.setPred p (ws.headD 0 ≠ 0) else t
    | .queue _ id =>
      let v : DWord := (ws.getD 1 0) ++ (ws.getD 0 0)
      { t with qs := t.qs.map (fun e => if e.id = id && e.val.isNone then { e with val := some v } else e) }
    | .none => { t with qs := t.qs.filter (fun e => !(e.id == op && e.val.isNone)) }
  { t' with sb := t'.sb.filter (fun e => e.op ≠ op), look := t'.look.filter (fun e => e.1 ≠ op) }

/-- A load's result for a copy channel is a push from its issue on, whose value comes with the result (11 R189; 05 R89). -/
def State.reservePush (s : State) (tid id : Nat) (d : Dest) (pc : Word) : State :=
  match d with
  | .queue k _ =>
    (match spGet (s.group (gidOf tid)).binds k with
    | some b =>
      if b.kind = 1 then
        (s.modThread tid (fun t => { t with openCopies := t.openCopies ++ [id] })).modCore (s.coreOfT tid) (fun c =>
          { c with pushes := c.pushes ++ [{ id := id, tid := tid, k := k, chan := b.chan, val := 0, pc := pc, filled := false }] })
      else s
    | none => s)
  | _ => s

/-- The push's value; with none, an access that wrote nothing, there is no push. -/
def State.fillPush (s : State) (tid id : Nat) (v : Option DWord) : State :=
  let core := s.coreOfT tid
  if !(s.core core).pushes.any (fun p => p.id == id && !p.filled) then s
  else match v with
  | some v => s.modCore core (fun c => { c with pushes := c.pushes.map (fun p => if p.id = id then { p with val := v, filled := true } else p) })
  | none => (s.modCore core (fun c => { c with pushes := c.pushes.filter (fun p => p.id ≠ id) })).modBoth tid (fun t => t.copyDone id [])

/-- The destination of a lane's result: the location accessed, as registers or a queue entry reserved for operation `id`. -/
def destOf (l : Loc) (w id : Nat) : Dest :=
  match l with
  | .reg n => .regs n w
  | .queue k => .queue k id

/-! Program order on one thread's bytes (13 R217). -/

/-- The memory word of an atomic is 64 bits wide (15 R245). -/
def atomWide : AtomOp → Bool
  | .add64 | .cas64 | .fadd64 | .maxZ64 | .minZ64 => true
  | _ => false

/-- The bytes of a load or store as (store number, base, length): 0 for physical memory, else 1 + 8 × team + space. -/
def Load.span (l : Load) : Option (Nat × Nat × Nat) :=
  match l.kind with
  | .bytes sp team _ pa size _ _ _ _ =>
    some (if isGlb sp then 0 else 1 + 8 * team + (if sp = .cspad then 1 else spaceNum sp), pa, size)
  | .words _ _ => none
  | .rmw op _ _ _ pa _ _ _ => some (0, pa, if atomWide op then 8 else 4)

def Store.span (st : Store) : Option (Nat × Nat × Nat) :=
  if st.acted then none
  else some (if isGlb st.space then 0 else 1 + 8 * st.team + (if st.space = .cspad then 1 else spaceNum st.space), st.pa, st.size)

def overlaps (a b : Option (Nat × Nat × Nat)) : Bool :=
  match a, b with
  | some x, some y => x.1 == y.1 && decide (x.2.1 < y.2.1 + y.2.2) && decide (y.2.1 < x.2.1 + x.2.2)
  | _, _ => false

/-- Extension of a loaded value (05 R104) and its registers. -/
def loadWords (size : Nat) (signed : Bool) (x : Nat) : List Word :=
  if size < 4 then [BitVec.ofInt 32 (if signed then sext (8 * size) x else x)]
  else (List.range (size / 4)).map (fun i => BitVec.ofNat 32 (x / 2 ^ (32 * i)))

/-- The new value of an atomic, none for a compare that fails (15 R245, R246). `x` holds the operand, for cas compare then new part. -/
def rmwNew (op : AtomOp) (fp : Word) (old x : Nat) : Option Nat :=
  let w := if atomWide op then 64 else 32
  let lo := x % 2 ^ w
  let fadd (f : Fmt) : Nat :=
    let m := modeOf (fpRnd fp)
    f.fround m false (fpFtz fp) (Fv.add m.isRd (f.read (fpFtz fp) old) (f.read (fpFtz fp) lo))
  match op with
  | .add32 | .add64 => some ((old + lo) % 2 ^ w)
  | .minS => some (if sext 32 old ≤ sext 32 lo then old else lo)
  | .maxS => some (if sext 32 old ≤ sext 32 lo then lo else old)
  | .minZ | .minZ64 => some (Nat.min old lo)
  | .maxZ | .maxZ64 => some (Nat.max old lo)
  | .and => some (old &&& lo)
  | .or => some (old ||| lo)
  | .xor => some (old ^^^ lo)
  | .exch => some lo
  | .cas32 | .cas64 => if old = lo then some (x / 2 ^ w % 2 ^ w) else none
  | .fadd32 => some (fadd f32)
  | .fadd64 => some (fadd f64)

/-- An atomic on one word of global memory: the line is recalled, the word read and written at its home, and the line granted to the
core's L1 (13 R213, 15 R244). Answers the old value, or none for poison. -/
def State.rmwGlb (s : State) (w : Who) (op : AtomOp) (fp : Word) (x pa comp pol : Nat) (fresh : Bool) (va : Nat := 0) : Option Nat × State :=
  let la := pa / 64
  let n := if atomWide op then 8 else 4
  let s := s.recallLine w.first la
  let (g, s) := s.homeRead w.first la w.ctx comp true (if fresh then s.clock + 1 else 0) va
  let s := s.applyPol w la comp pol
  if g.poison &&& sectorsOf (byteMask (pa % 64) n) ≠ 0 then (none, s)
  else
    let old := lineGet g.data (pa % 64) n
    match rmwNew op fp old x with
    | none => (some old, s.grantLine w la comp g)
    | some v =>
      let d := lineAt (pa % 64) n v
      let m := byteMask (pa % 64) n
      let s := s.homeWrite w.first la w.ctx comp d m 0 false
      let s := if isHostPa pa then s.toMemoryNow w.first la else s
      (some old, s.grantLine w la comp { g with data := lineMerge g.data d m })

/-- The registers of an atomic's old value. -/
def rmwWords (op : AtomOp) (v : Nat) : List Word := loadWords (if atomWide op then 8 else 4) false v

/-- A load's bytes bound now (13 R215): from the home for an acquire at partition or system scope, else through the caches; all of them in
one action, where 13 R216 asks it of each 8-byte piece only (DESIGN CHOICE, log 13). A promoted acquire first has every narrow release made by now
brought home (13 R226, log 38). A poisoned sector of an error-tolerant page reads as zeros, counted once for the issue set (25 R379). -/
def State.bindLoad (s : State) (l : Load) : Load × State :=
  let w := s.whoT l.tid
  let s := if l.promoted then s.flushCores (s.ctxCores w.ctx) none (fun _ => true) else s
  match l.kind with
  | .words _ _ => (l, s)
  | .rmw op fp x va pa comp pol sys =>
    let (o, s) := s.rmwGlb w op fp x pa comp pol sys va
    (match o with
    | some old => { l with kind := .words (rmwWords op old) none }
    | none => { l with kind := .words [] (some (1, va, pa)), dest := .none }, s)
  | .bytes sp team va pa size signed pol comp et =>
    if isGlb sp then
      let la := pa / 64
      let deep := l.acq == some .partition || l.acq == some .system
      let s := if l.acq = some .system ∧ isHostPa pa = true then (s.homeRead w.first la w.ctx comp true (s.clock + 1) va).2 else s
      let (g, s) := if sp = .cnst ∧ deep = false then s.readConst w la comp pol va else s.readLine w la comp pol deep va
      let hit := g.poison &&& sectorsOf (byteMask (pa % 64) size)
      let x := lineGet (lineMerge g.data 0 (sectorBytes hit)) (pa % 64) size
      if hit = 0 then ({ l with kind := .words (loadWords size signed x) none }, s)
      else if et then
        let new := (sectorsMet hit va pa).filter (fun x => !l.counted.contains (x.2 / 32))
        let s : State := { s with loads := s.loads.map (fun (o : Load) =>
          if o.issued = l.issued ∧ o.pc = l.pc ∧ teamOf (gidOf o.tid) = w.team then { o with counted := unionNew o.counted (new.map (·.2 / 32)) } else o) }
        ({ l with kind := .words (loadWords size signed x) none }, s.substitute w.ctx w.core new)
      else ({ l with kind := .words ((loadWords size signed x).map (fun _ => 0)) (some (3, va, pa)) }, s)
    else
      let n := if sp = .cspad then 1 else spaceNum sp
      let t := s.team team
      if t.poisonedAt n pa size then ({ l with kind := .words (loadWords size signed 0) (some (4, va, 0)) }, s)
      else ({ l with kind := .words (loadWords size signed (t.readLocal n pa size)) none }, s)

/-- A bound load kept in its place. -/
def State.bindInPlace (s : State) (id : Nat) : State :=
  match s.loads.find? (fun l => l.id = id) with
  | none => s
  | some l =>
    let (l, s) := s.bindLoad l
    { s with loads := s.loads.map (fun x => if x.id = id then l else x) }

/-- An access waiting to read or write its bytes. -/
structure InFlight where
  id : Nat
  tid : Nat
  set : Nat
  isLoad : Bool
  span : Option (Nat × Nat × Nat)
  /-- a promoted atomic -/
  rmw : Bool := false
  /-- a promoted access that some core has not answered (13 R226) -/
  pending : Bool := false
deriving DecidableEq, Repr

def Load.isRmw (l : Load) : Bool :=
  match l.kind with
  | .rmw _ _ _ _ _ _ _ _ => true
  | _ => false
def Load.inFlight (l : Load) : InFlight := ⟨l.id, l.tid, l.set, true, l.span, l.isRmw, !l.promo.isEmpty⟩

def State.accs (s : State) : List InFlight :=
  s.loads.map Load.inFlight ++ s.stores.map (fun st => ⟨st.id, st.tid, st.set, false, st.span, false, false⟩)

/-- `e` takes place before `n`, or together with it: an older access of the thread to common bytes (13 R217), a lower lane's store or
promoted atomic of the issue set, another lane's load of the issue set (15 R241). -/
def InFlight.binds (e n : InFlight) : Bool :=
  overlaps e.span n.span && decide (e.id ≠ n.id) &&
    ((decide (e.tid = n.tid) && decide (e.id < n.id)) ||
     (decide (e.set ≠ 0) && decide (e.set = n.set) && ((e.isLoad && !e.rmw) || decide (e.id < n.id))))

/-- Every access of `all` that must act for those of `front` to act, over any number of links. -/
def closeAccs (fuel : Nat) (all front found : List InFlight) : List InFlight :=
  match fuel with
  | 0 => found
  | fuel + 1 =>
    match all.filter (fun e => front.any (fun n => e.binds n) && !found.any (fun f => f.id == e.id)) with
    | [] => found
    | new => closeAccs fuel all new (found ++ new)

/-- The accesses that act before `a`, or with it, oldest first. -/
def State.accsBefore (s : State) (a : InFlight) : List InFlight :=
  let all := s.accs
  ((closeAccs all.length all [a] []).filter (fun e => e.id ≠ a.id)).mergeSort (fun x y => x.id ≤ y.id)

def State.clearBefore (s : State) (a : InFlight) : State :=
  (s.accsBefore a).foldl (fun s e =>
    if e.pending then s
    else if e.isLoad then s.bindInPlace e.id
    else match s.stores.find? (fun st => st.id = e.id) with
      | some st => s.finishStore st
      | none => s) s

/-- What must act before an access of `tid` to the bytes `span` acts. -/
def State.orderBefore (s : State) (tid id : Nat) (span : Option (Nat × Nat × Nat)) : State :=
  s.clearBefore ⟨id, tid, 0, false, span, false, false⟩

/-- A store that must act first still stands, or a promoted access. -/
def State.heldBack (s : State) (a : InFlight) : Bool := (s.accsBefore a).any (fun e => !e.isLoad || e.pending)

/-- The load's bytes lie at a home that takes accesses (27 R402). -/
def State.loadOpen (s : State) (l : Load) : Bool :=
  match l.kind with
  | .bytes sp _ _ pa _ _ _ _ _ => !isGlb sp || s.homeOpen pa
  | .rmw _ _ _ _ pa _ _ _ => s.homeOpen pa
  | .words _ _ => true

/-- A load written to its registers or queue: LDC falls, the acquire of the load follows its read (13 R219; 25 R373, R374). -/
def State.finishLoad (s : State) (id : Nat) : State :=
  match s.loads.find? (fun l => l.id = id) with
  | none => s
  | some l =>
    let a := l.inFlight
    let s := if l.promo.isEmpty && s.loadOpen l then s.clearBefore a else s
    if !l.promo.isEmpty || s.heldBack a || !s.loadOpen l then s
    else
      let l := (s.loads.find? (fun x => x.id = id)).getD l
      let (l, s) := s.bindLoad l
      let s := { s with loads := s.loads.filter (fun x => x.id ≠ id) }
      let (ws, bad) : List Word × Option (Nat × Nat × Nat) := match l.kind with
        | .words ws b => (ws, b)
        | _ => ([], none)
      let s := s.modBoth l.tid (fun t =>
        { t.deliver id l.dest ws with ldc := t.ldc - 1, acqPending := t.acqPending.filter (· ≠ id) })
      let s := s.fillPush l.tid id (match l.dest with
        | .queue _ _ => some ((ws.getD 1 0) ++ (ws.getD 0 0))
        | _ => none)
      let s := match l.acq with
        | some sc => s.acquireAt (s.whoT l.tid) sc
        | none => s
      let s := match l.cause with
        | some c => s.defer l.tid c l.pc
        | none => s
      let s := match bad with
        | some (unit, va, pa) => s.consume l.tid unit va pa (fun s => s.defer l.tid { code := 0x0D, addr := BitVec.ofNat 64 va } l.pc)
        | none => s
      s.settleThread l.tid

/-- A store performed, after the thread's older accesses to its bytes. -/
def State.settleStore (s : State) (id : Nat) : State :=
  match s.stores.find? (fun st => st.id = id) with
  | none => s
  | some st =>
    let a : InFlight := ⟨st.id, st.tid, st.set, false, st.span, false, false⟩
    let s := s.clearBefore a
    if s.heldBack a then s else (s.finishStore st).settleThread st.tid

end Sys2Proof.Machine
end

