-- ==== Sys2Proof/Machine/Special.lean ====
section
/-! DEFINITION. The special functions of ffn (09 R161). Special values are the spec's; every other result is the implementation's, kept
inside the error that the table admits around the exact value (log 7). The exact value is computed in fixed point with 256 places,
to an error far below every bound of the table. -/

namespace Sys2Proof.Machine

/-- The exact value is an integer. -/
def Fv.isInt : Fv → Bool
  | .fin _ n d => n % d == 0
  | _ => false

/-- The special values of 09 R161's table; `none` where the table gives none. -/
def ffnSpecial (f : Fmt) (fn : FfnFn) (v : Fv) : Option Nat :=
  let one := f.round .rne false (.fin false 1 1)
  let zero (s : Bool) := f.signed s 0
  let inf (s : Bool) := f.signed s f.inf
  match v with
  | .nan => some f.nan
  | .inf s =>
    match fn with
    | .rcp => some (zero s)
    | .rsqrt => some (if s then f.nan else zero false)
    | .exp2 => some (if s then zero false else inf false)
    | .log2 => some (if s then f.nan else inf false)
    | .sinpi | .cospi => some f.nan
    | .tanh | .erf => some (f.signed s one)
    | .sigm => some (if s then zero false else one)
  | .fin s n d =>
    if n = 0 then
      match fn with
      | .rcp | .rsqrt => some (inf s)
      | .log2 => some (inf true)
      | .tanh | .erf | .sinpi => some (zero s)
      | _ => none
    else match fn with
      | .rsqrt => if s then some f.nan else none
      | .log2 => if s then some f.nan else if n = d then some (zero false) else none
      | .sinpi => if n % d = 0 then some (zero s) else none
      | .cospi => if 2 * n % d = 0 ∧ n % d ≠ 0 then some (zero false) else none
      | _ => none

/-! Fixed point: `x` stands for x / 2^256. -/

def fxOne : Nat := 2 ^ 256

/-- p + p s / 3 + p s^2 / 5 + …, `n` terms from the one with divisor `2 k + 1` on: atan for s = -t^2, atanh for s = t^2, p = t. -/
def fxOdd (n k : Nat) (p s : Int) : Int :=
  match n with
  | 0 => 0
  | n + 1 => p / (2 * k + 1 : Nat) + fxOdd n (k + 1) (p * s / fxOne) s

/-- t + t s / ((2 k + 2) (2 k + 3)) + …: the sine's terms for s = -x^2, t = x. -/
def fxSine (n k : Nat) (t s : Int) : Int :=
  match n with
  | 0 => 0
  | n + 1 => t + fxSine n (k + 1) (t * s / fxOne / ((2 * k + 2) * (2 * k + 3) : Nat)) s

/-- t + t u / (k + 1) + …: the exponential's terms. -/
def fxExp (n k t u : Nat) : Nat :=
  match n with
  | 0 => 0
  | n + 1 => t + fxExp n (k + 1) (t * u / fxOne / (k + 1)) u

/-- t + 2 t s / (2 k + 3) + …: the terms of erf times its exponential, for s = x^2, t = x. -/
def fxErf (n k t s : Nat) : Nat :=
  match n with
  | 0 => 0
  | n + 1 => t + fxErf n (k + 1) (2 * t * s / fxOne / (2 * k + 3)) s

/-- ln 2, and π by Machin's sum. -/
def fxLn2 : Nat := (2 * fxOdd 84 0 ((fxOne / 3 : Nat) : Int) ((fxOne / 9 : Nat) : Int)).toNat
def fxPi : Nat :=
  (16 * fxOdd 58 0 ((fxOne / 5 : Nat) : Int) (-((fxOne / 25 : Nat) : Int)) -
   4 * fxOdd 20 0 ((fxOne / 239 : Nat) : Int) (-((fxOne / 57121 : Nat) : Int))).toNat

/-- 2^q of a fixed-point q: a mantissa in [1, 2) and an exponent. -/
def fxExp2 (q : Int) : Nat × Int := (fxExp 64 0 fxOne ((q % fxOne).toNat * fxLn2 / fxOne), q / fxOne)

/-- e^z of a fixed-point z from 0 on. -/
def fxPow (z : Nat) : Nat :=
  let (m, k) := fxExp2 ((z * fxOne / fxLn2 : Nat) : Int)
  m * 2 ^ k.toNat

/-- sin(π r) of a fixed-point r in [0, 2). -/
def fxSinPi (r : Nat) : Int :=
  let back := fxOne ≤ r
  let r := if back then r - fxOne else r
  let r := if fxOne < 2 * r then fxOne - r else r
  let a : Int := (r * fxPi / fxOne : Nat)
  let y := fxSine 48 0 a (-(a * a / fxOne))
  if back then -y else y

def Fv.ofFx (x : Int) : Fv := .fin (decide (x < 0)) x.natAbs fxOne

/-- A special function's exact value at the sign and magnitude `n / d`, to 2^-240. Arguments beyond 2000 for exp2, 64 for tanh, 200 for
sigm and 7 for erf give the value there, which no bound tells from theirs. -/
def ffnExact (f : Fmt) (fn : FfnFn) (s : Bool) (n d : Nat) : Fv :=
  let mag (top : Nat) : Nat := if top * d ≤ n then top * fxOne else n * fxOne / d
  let turn (x : Int) : Int := if s then -x else x
  match fn with
  | .rcp => Fv.div (.fin false 1 1) (.fin s n d)
  | .rsqrt => (Fv.div (.fin false 1 1) (.fin s n d)).sqrt (f.fbits + 64)
  | .exp2 =>
    let (m, k) := fxExp2 (turn (mag 2000))
    .scaled false m (k + 2001).toNat 2257
  | .log2 =>
    let e := ilog2 n d
    let a := n * 2 ^ (4096 - e)
    let b := d * 2 ^ (e - 4096)
    let t : Int := (((a - b) * fxOne / (a + b) : Nat) : Int)
    .ofFx (((e : Int) - 4096) * fxOne + 2 * fxOdd 84 0 t (t * t / fxOne) * fxOne / fxLn2)
  | .sinpi => .ofFx (turn (fxSinPi (n % (2 * d) * fxOne / d)))
  | .cospi => .ofFx (fxSinPi ((2 * n + d) % (4 * d) * fxOne / (2 * d)))
  | .tanh =>
    let e := fxPow (2 * mag 64)
    .ofFx (turn (((e - fxOne) * fxOne / (e + fxOne) : Nat) : Int))
  | .sigm =>
    let e := fxPow (mag 200)
    .ofFx (((if s then fxOne else e) * fxOne / (e + fxOne) : Nat) : Int)
  | .erf =>
    let x := mag 7
    let q := x * x / fxOne
    .ofFx (turn ((2 * fxErf 256 0 x q * fxOne / fxPow q * fxOne / isqrt 260 (fxPi * fxOne) : Nat) : Int))

/-- 2^n. -/
def Fv.pow2 (n : Int) : Fv := if 0 ≤ n then .fin false (2 ^ n.toNat) 1 else .fin false 1 (2 ^ (-n).toNat)

/-- One unit in the last place at a value. -/
def Fmt.ulp (f : Fmt) (y : Fv) : Fv :=
  match y with
  | .fin _ n d => .pow2 ((Nat.max (ilog2 n d) (4097 - f.bias) : Nat) - (4096 : Int) - f.fbits)
  | _ => .fin false 0 1

/-- The largest error of a function at an exact value: so many units in the last place, or an absolute error of 2^-n (09 R161). -/
def ffnBound (f : Fmt) (fn : FfnFn) (n d : Nat) (y : Fv) : Fv :=
  let half := f.width = 16
  let abs (k : Int) : Fv := .pow2 (if half then -10 else -k)
  let ulps (k : Nat) : Fv := (Fv.fin false (if half then 1 else k) 1).mul (f.ulp y)
  match fn with
  | .rcp => ulps 1
  | .rsqrt | .exp2 | .tanh => ulps 2
  | .log2 => if d ≤ 2 * n ∧ n ≤ 2 * d then abs 22 else ulps 2
  | .sinpi | .cospi | .erf => abs 22
  | .sigm => abs 23

/-- A result as a number: infinity, where overflow has put it, is the power of two above the largest finite value. -/
def Fmt.reach (f : Fmt) (x : Nat) : Fv :=
  match f.value x with
  | .inf s => (Fv.pow2 ((2 ^ f.ebits - 1 : Nat) - (f.bias : Int))).mul (.fin s 1 1)
  | v => v

/-- The implementation's result of a special function at a finite number, inside its error; else the nearest one (log 7). -/
def ffnFree (f : Fmt) (fn : FfnFn) (x : Nat) (s : Bool) (n d : Nat) : Nat :=
  let free := (Config.ffnResult fn (f.width == 16) x).toNat % 2 ^ f.width
  let y := ffnExact f fn s n d
  let w := ffnBound f fn n d y
  let z := f.reach free
  if z ≠ .nan ∧ (z.add false w).lt y = false ∧ (y.add false w).lt z = false then free else f.round .rne false y

/-- ffn on one element (09 R161). -/
def ffnElem (f : Fmt) (fn : FfnFn) (sat flush : Bool) (x : Nat) : Nat :=
  let v := f.read flush x
  let r := match ffnSpecial f fn v, v with
    | some r, _ => r
    | none, .fin s n d => ffnFree f fn x s n d
    | none, _ => f.nan
  let r := if sat && decide (r % 2 ^ (f.ebits + f.fbits) = f.inf) then f.signed (f.neg r) f.maxFinite else r
  f.flushed flush r

end Sys2Proof.Machine
end

