-- ==== Sys2Proof/Machine/LaneFloat.lean ====
section
/-! DEFINITION. Lane instructions on floating-point numbers and the conversions (09 R155-R163). -/

namespace Sys2Proof.Machine

/-- What an arithmetic instruction takes from its prefix and FPDEF (09 R155). -/
structure FEnv where
  mode : Mode
  sat : Bool
  flush : Bool
deriving DecidableEq, Repr

def fenv (p : Option APfx) : LaneM FEnv := fun env l =>
  .ok ({ mode := pfxMode p (fpRnd env.fpdef), sat := pfxSat p, flush := pfxFtz p (fpFtz env.fpdef) }, l)

/-- fread and fround of 09 R155 under an environment. -/
def FEnv.get (e : FEnv) (f : Fmt) (x : Nat) : Fv := f.read e.flush x
def FEnv.put (e : FEnv) (f : Fmt) (y : Fv) : Nat := f.fround e.mode e.sat e.flush y

/-- A binary operation of one format on encodings. -/
def FEnv.bin (e : FEnv) (f : Fmt) (op : Bool → Fv → Fv → Fv) (x y : Nat) : Nat := e.put f (op e.mode.isRd (e.get f x) (e.get f y))

/-- A × B + E, rounded once; `minus` for fms. -/
def FEnv.fma (e : FEnv) (f : Fmt) (minus : Bool) (x y z : Nat) : Nat :=
  let c := e.get f z
  e.put f (Fv.add e.mode.isRd (Fv.mul (e.get f x) (e.get f y)) (if minus then c.neg else c))

/-- The third source's operand, if the prefix names one. -/
def cUse (p : Option APfx) : List Use := match pfxC p with | some c => [src c] | none => []
def dUse (p : Option APfx) (d : Operand) : Use := match pfxC p with | some _ => dst d | none => both d

/-! Shapes. -/

def laneF32 (op : FEnv → Nat → Nat → Nat) (p : Option APfx) (g : Guard) (d a b : Operand) (s : State) : Host.Outcome State Fault Refusal :=
  .next (s.liftLane g [src a, src b, dst d]
    (do let e ← fenv p; let x ← rd1 a; let y ← rd1 b; wr1 d (BitVec.ofNat 32 (op e x.toNat y.toNat))))

def laneF64 (op : FEnv → Nat → Nat → Nat) (p : Option APfx) (g : Guard) (d a b : Operand) (s : State) : Host.Outcome State Fault Refusal :=
  .next (s.liftLane g [src a, src b, dst d]
    (do let e ← fenv p; let x ← rd2 a; let y ← rd2 b; wr2 d (BitVec.ofNat 64 (op e x.toNat y.toNat))))

/-- Three sources, single registers: the addend is C, or D read in place (09 R140, R156). -/
def laneTri1 (op : FEnv → Word → Word → Word → Word) (p : Option APfx) (g : Guard) (d a b : Operand) (s : State) :
    Host.Outcome State Fault Refusal :=
  .next (s.liftLane g ([src a, src b] ++ cUse p ++ [dUse p d]) (do
    let e ← fenv p
    let x ← rd1 a
    let y ← rd1 b
    match pfxC p with
    | some c =>
      let z ← rd1 c
      wr1 d (op e x y z)
    | none =>
      let l ← locate d 1 .both
      let z ← old1 l
      put1 l (op e x y z)))

/-- Three sources, pairs. -/
def laneTri2 (op : FEnv → DWord → DWord → DWord → DWord) (p : Option APfx) (g : Guard) (d a b : Operand) (s : State) :
    Host.Outcome State Fault Refusal :=
  .next (s.liftLane g ([src a, src b] ++ cUse p ++ [dUse p d]) (do
    let e ← fenv p
    let x ← rd2 a
    let y ← rd2 b
    match pfxC p with
    | some c =>
      let z ← rd2 c
      wr2 d (op e x y z)
    | none =>
      let l ← locate d 2 .both
      let z ← old2 l
      put2 l (op e x y z)))

/-! Arithmetic (09 R156). -/

def execFaddF32 (p : Option APfx) (g : Guard) (d a b : Operand) (s : State) : Host.Outcome State Fault Refusal :=
  laneF32 (fun e => e.bin f32 Fv.add) p g d a b s
def execFsubF32 (p : Option APfx) (g : Guard) (d a b : Operand) (s : State) : Host.Outcome State Fault Refusal :=
  laneF32 (fun e => e.bin f32 Fv.sub) p g d a b s
def execFmulF32 (p : Option APfx) (g : Guard) (d a b : Operand) (s : State) : Host.Outcome State Fault Refusal :=
  laneF32 (fun e => e.bin f32 (fun _ => Fv.mul)) p g d a b s
def execFdivF32 (p : Option APfx) (g : Guard) (d a b : Operand) (s : State) : Host.Outcome State Fault Refusal :=
  laneF32 (fun e => e.bin f32 (fun _ => Fv.div)) p g d a b s
def execFminF32 (p : Option APfx) (g : Guard) (d a b : Operand) (s : State) : Host.Outcome State Fault Refusal :=
  laneF32 (fun e => e.bin f32 (fun _ => Fv.minnum)) p g d a b s
def execFmaxF32 (p : Option APfx) (g : Guard) (d a b : Operand) (s : State) : Host.Outcome State Fault Refusal :=
  laneF32 (fun e => e.bin f32 (fun _ => Fv.maxnum)) p g d a b s
def execFaddF64 (p : Option APfx) (g : Guard) (d a b : Operand) (s : State) : Host.Outcome State Fault Refusal :=
  laneF64 (fun e => e.bin f64 Fv.add) p g d a b s
def execFsubF64 (p : Option APfx) (g : Guard) (d a b : Operand) (s : State) : Host.Outcome State Fault Refusal :=
  laneF64 (fun e => e.bin f64 Fv.sub) p g d a b s
def execFmulF64 (p : Option APfx) (g : Guard) (d a b : Operand) (s : State) : Host.Outcome State Fault Refusal :=
  laneF64 (fun e => e.bin f64 (fun _ => Fv.mul)) p g d a b s
def execFdivF64 (p : Option APfx) (g : Guard) (d a b : Operand) (s : State) : Host.Outcome State Fault Refusal :=
  laneF64 (fun e => e.bin f64 (fun _ => Fv.div)) p g d a b s
def execFminF64 (p : Option APfx) (g : Guard) (d a b : Operand) (s : State) : Host.Outcome State Fault Refusal :=
  laneF64 (fun e => e.bin f64 (fun _ => Fv.minnum)) p g d a b s
def execFmaxF64 (p : Option APfx) (g : Guard) (d a b : Operand) (s : State) : Host.Outcome State Fault Refusal :=
  laneF64 (fun e => e.bin f64 (fun _ => Fv.maxnum)) p g d a b s

/-- Fused multiply-add of words and of double words. -/
def fma1 (minus : Bool) (e : FEnv) (x y z : Word) : Word := BitVec.ofNat 32 (e.fma f32 minus x.toNat y.toNat z.toNat)
def fma2 (minus : Bool) (e : FEnv) (x y z : DWord) : DWord := BitVec.ofNat 64 (e.fma f64 minus x.toNat y.toNat z.toNat)

def execFmaF32 (p : Option APfx) (g : Guard) (d a b : Operand) (s : State) : Host.Outcome State Fault Refusal := laneTri1 (fma1 false) p g d a b s
def execFmsF32 (p : Option APfx) (g : Guard) (d a b : Operand) (s : State) : Host.Outcome State Fault Refusal := laneTri1 (fma1 true) p g d a b s
def execFmaF64 (p : Option APfx) (g : Guard) (d a b : Operand) (s : State) : Host.Outcome State Fault Refusal := laneTri2 (fma2 false) p g d a b s
def execFmsF64 (p : Option APfx) (g : Guard) (d a b : Operand) (s : State) : Host.Outcome State Fault Refusal := laneTri2 (fma2 true) p g d a b s

def execFsqrtF32 (p : Option APfx) (g : Guard) (d a : Operand) (s : State) : Host.Outcome State Fault Refusal :=
  .next (s.liftLane g [src a, dst d]
    (do let e ← fenv p; let x ← rd1 a; wr1 d (BitVec.ofNat 32 (e.put f32 ((e.get f32 x.toNat).sqrt f32.fbits)))))
def execFsqrtF64 (p : Option APfx) (g : Guard) (d a : Operand) (s : State) : Host.Outcome State Fault Refusal :=
  .next (s.liftLane g [src a, dst d]
    (do let e ← fenv p; let x ← rd2 a; wr2 d (BitVec.ofNat 64 (e.put f64 ((e.get f64 x.toNat).sqrt f64.fbits)))))

/-! Special functions (09 R161). -/

def execFfnF32 (p : Option APfx) (g : Guard) (d a : Operand) (fn : FfnFn) (s : State) : Host.Outcome State Fault Refusal :=
  .next (s.liftLane g [src a, dst d]
    (do let e ← fenv p; let x ← rd1 a; wr1 d (BitVec.ofNat 32 (ffnElem f32 fn e.sat e.flush x.toNat))))
def execFfnF16 (p : Option APfx) (g : Guard) (d a : Operand) (fn : FfnFn) (s : State) : Host.Outcome State Fault Refusal :=
  .next (s.liftLane g [src a, dst d]
    (do let e ← fenv p; let x ← rd1 a
        wr1 d (BitVec.ofNat 32 (ffnElem f16 fn e.sat e.flush (x.toNat % 65536)
          + 65536 * ffnElem f16 fn e.sat e.flush (x.toNat / 65536)))))

/-! Packed forms (09 R159): each element alone. -/

/-- Elements of a packed value: `n` of `w` bits. -/
def packed (w n : Nat) (f : Nat → Nat) : Nat := (List.range n).foldl (fun a i => a + f i % 2 ^ w * 2 ^ (w * i)) 0
def elem (w : Nat) (x i : Nat) : Nat := x / 2 ^ (w * i) % 2 ^ w

def pfma2 (e : FEnv) (x y z : DWord) : DWord :=
  BitVec.ofNat 64 (packed 32 2 (fun i => e.fma f32 false (elem 32 x.toNat i) (elem 32 y.toNat i) (elem 32 z.toNat i)))
def pfmaB (e : FEnv) (x y z : Word) : Word :=
  BitVec.ofNat 32 (packed 16 2 (fun i => e.fma bf16 false (elem 16 x.toNat i) (elem 16 y.toNat i) (elem 16 z.toNat i)))

def execPfmaF32x2 (p : Option APfx) (g : Guard) (d a b : Operand) (s : State) : Host.Outcome State Fault Refusal := laneTri2 pfma2 p g d a b s
def execPfmaBf16x2 (p : Option APfx) (g : Guard) (d a b : Operand) (s : State) : Host.Outcome State Fault Refusal := laneTri1 pfmaB p g d a b s
def execPaddF32x2 (p : Option APfx) (g : Guard) (d a b : Operand) (s : State) : Host.Outcome State Fault Refusal :=
  laneF64 (fun e x y => packed 32 2 (fun i => e.bin f32 Fv.add (elem 32 x i) (elem 32 y i))) p g d a b s
def execPmulF32x2 (p : Option APfx) (g : Guard) (d a b : Operand) (s : State) : Host.Outcome State Fault Refusal :=
  laneF64 (fun e x y => packed 32 2 (fun i => e.bin f32 (fun _ => Fv.mul) (elem 32 x i) (elem 32 y i))) p g d a b s

/-! Classification, scaling, dot products (09 R157, R158, R160). -/

def execFclass (p : Option APfx) (g : Guard) (d a b : Operand) (s : State) : Host.Outcome State Fault Refusal :=
  .next (s.liftLane g [src a, src b, dst d]
    (do let e ← fenv p; let x ← rd1 a; let y ← rd1 b; wr1 d (BitVec.ofNat 32 (2 ^ fclassBit e.flush x.toNat) &&& y)))

def execFscale (p : Option APfx) (g : Guard) (d a b : Operand) (s : State) : Host.Outcome State Fault Refusal :=
  laneF32 (fun e x y => e.put f32 ((e.get f32 x).scale (sext 32 y))) p g d a b s

def dot4 (e : FEnv) (x y z : Word) : Word :=
  let n : Int := (List.range 4).foldl (fun a i => a + sext 8 (elem 8 x.toNat i) * sext 8 (elem 8 y.toNat i)) (sext 32 z.toNat)
  BitVec.ofNat 32 (low 32 (if e.sat then clampI (-(2 ^ 31)) (2 ^ 31 - 1) n else n))

def dot2 (e : FEnv) (x y z : Word) : Word :=
  let t (i : Nat) : Fv := Fv.mul (e.get bf16 (elem 16 x.toNat i)) (e.get bf16 (elem 16 y.toNat i))
  BitVec.ofNat 32 (e.put f32 (exactSum e.mode.isRd [e.get f32 z.toNat, t 0, t 1]))

def execDot4S8 (p : Option APfx) (g : Guard) (d a b : Operand) (s : State) : Host.Outcome State Fault Refusal := laneTri1 dot4 p g d a b s
def execDot2Bf16 (p : Option APfx) (g : Guard) (d a b : Operand) (s : State) : Host.Outcome State Fault Refusal := laneTri1 dot2 p g d a b s

/-! Conversions (09 R162, R163). -/

/-- Bits of a number type. -/
def tyBits : NumTy → Nat
  | .f64 | .s64 | .z64 => 64
  | .f32 | .s32 | .z32 => 32
  | .f16 | .bf16 | .s16 | .z16 => 16
  | .e4m3 | .e5m2 | .s8 | .z8 => 8
  | .e2m1 => 4

/-- Registers that `n` elements of a type take. -/
def tyRegs (t : NumTy) (n : Nat) : Nat := Nat.max 1 (tyBits t * n / 32)

/-- draw() of 07 R128: the new SEED, whose upper 24 bits are drawn. -/
@[irreducible] def nextSeed (x : Word) : Word := x * 0x2C9A7F35 + 0x6D2B79F5

/-- A list of registers as a number, first register lowest. -/
def wordsNat (ws : List Word) : Nat := ws.foldr (fun w a => w.toNat + 2 ^ 32 * a) 0
def natWords (n x : Nat) : List Word := (List.range n).map (fun i => BitVec.ofNat 32 (x / 2 ^ (32 * i)))

/-- The elements of a conversion from element `i` on; SEED moves once for each element under stochastic rounding. -/
def cvtFrom (c : CvtCode) (e : FEnv) (sat rs : Bool) (x : Nat) (n i : Nat) (seed : Word) : Nat × Word :=
  match n with
  | 0 => (0, seed)
  | k + 1 =>
    let seed := if rs then nextSeed seed else seed
    let mode := if rs then Mode.rs (seed.toNat / 256) else e.mode
    let v := cvtElem c.dst c.src mode sat e.flush (elem (tyBits c.src) x i)
    let width := if c.count = 1 then 32 * tyRegs c.dst 1 else tyBits c.dst
    let (r, seed) := cvtFrom c e sat rs x k (i + 1) seed
    (low width v * 2 ^ (width * i) + r, seed)

def laneCvt (sat : Bool) (p : Option APfx) (g : Guard) (d a : Operand) (c : CvtCode) (s : State) : Host.Outcome State Fault Refusal :=
  .next (s.liftLane g [src a, dst d] (do
    let e ← fenv p
    let xs ← rdN a (tyRegs c.src c.count)
    let t ← getTh
    let (r, seed) := cvtFrom c e sat (pfxStochastic p) (wordsNat xs) c.count 0 t.seed
    modTh (fun t => { t with seed := seed })
    wrN d (natWords (tyRegs c.dst c.count) r)))

def execCvt (p : Option APfx) (g : Guard) (d a : Operand) (c : CvtCode) (s : State) : Host.Outcome State Fault Refusal := laneCvt false p g d a c s
def execCvtSat (p : Option APfx) (g : Guard) (d a : Operand) (c : CvtCode) (s : State) : Host.Outcome State Fault Refusal := laneCvt true p g d a c s

end Sys2Proof.Machine
end

