-- ==== Sys2Proof/Machine/MemInstr.lean ====
section
/-! DEFINITION. Loads, stores, atomics, reductions, exact accumulators, full/empty ranges and cache range operations
(15 R236-R255; 11 R194), and the events that end them (05 R100; 13 R211, R215, R226). -/

namespace Sys2Proof.Machine

/-! The common course of a memory instruction. -/

/-- The lane has read a poisoned register: it makes no access (25 R373). -/
def isPoi : LaneM Bool := fun _ l => .ok (l.poi, l)

/-- The registers of a result are free of operations on their way (03 R45). -/
def destFree (l : Loc) (w : Nat) : LaneM Unit := fun _ s =>
  match l with
  | .reg n => if (upto n w).all (fun r => s.th.clear false r) then .ok ((), s) else .error .block
  | .queue _ => .ok ((), s)

/-- What holds every memory instruction back in a thread: an acquire on its way (13 R219), room in its counters (11 R191), and for a
release the loads and stores before it (13 R218). -/
def memReady (m : MAcc) : LaneM Unit := do
  let t ← getTh
  if !t.acqPending.isEmpty || decide (262143 ≤ t.ldc) || decide (262143 ≤ t.stc) then laneStop .block
  if m.releases && !t.quiet then laneStop .block

/-- The fields of an access as a group's lanes find them. -/
def State.accFor (s : State) (gid : Nat) (p : MPfx) (unit : Nat) : MAcc :=
  memAcc p (s.ctlFor (s.team (teamOf gid)).ctx gid).memdef unit

/-- A translation in use: address, entry. -/
abbrev Hit := Nat × TlbEnt

def Xl.hit? : Xl → Option Hit
  | .hit pa e => some (pa, e)
  | _ => none

/-- A memory instruction: its guard and operands, its causes whatever the guard by group, a lane's part at issue, the pages that it
touches, what it does in run-ahead and what it does once its pages are translated. `clear` says whether a lane can go on, and brings about
what comes before its access; in an `ordered` instruction the lanes above one that cannot go on wait too (15 R241). `out`: its accesses go
out to link peers (01 R36). -/
structure MemForm (α : Type) where
  g : Guard
  us : List Use
  stat : Nat → Option Cause
  body : Nat → LaneM α
  pages : State → Nat → α → List (Nat × AccK)
  ra : State → Nat → α → LaneSt → State
  act : State → Nat → α → LaneSt → List Hit → State × Option Cause
  clear : State → Nat → List Hit → Bool × State := fun s _ _ => (true, s)
  ordered : Bool := false
  out : Bool := true

/-- A lane that goes on to its accesses: its thread, what its body answered, and the lane after its reads. -/
abbrev Ran (α : Type) := Nat × α × LaneSt

/-- Lanes in ascending order (15 R241, R246). -/
def inLanes {α : Type} (l : List (Ran α)) : List (Ran α) := (List.range 32).flatMap (fun k => l.filter (fun r => laneOf r.1 = k))

/-- What the pages of a lane's accesses come to: their translations, or the lane's cause of the lowest code (00 R14). -/
def State.lanePages (s : State) (tid : Nat) (ps : List (Nat × AccK)) (out : Bool) : Except Cause (List Hit) :=
  let xs := ps.map (fun p => (p.1, s.xlate tid p.1 p.2))
  let cause (x : Nat × Xl) : Option Cause := match x.2 with
    | .refused c => some c
    | .hit pa _ => if out && s.peerError pa then some { code := 0x05, addr := BitVec.ofNat 64 x.1 } else none
    | .miss => none
  match xs.foldl (fun a x => lowerCause a (cause x)) none with
  | some c => .error c
  | none => .ok (xs.filterMap (fun x => x.2.hit?))

/-- The lanes of a memory instruction that go on: translation for every one of them first, then the accesses in ascending lane order
(15 R240, R241; 23 R354, R359, R366). -/
def State.memLanes {α : Type} (s : State) (f : MemForm α) (ran : List (Ran α)) (skips : List Nat) (traps : List (Nat × Cause)) : State :=
  let want := ran.flatMap (fun r => (f.pages s r.1 r.2.1).map (fun p => (r.1, p.1, p.2)))
  match want.filter (fun w => decide (s.xlate w.1 w.2.1 w.2.2 = .miss)) with
  | m :: ms => (s.waitXlate (gidOf m.1) (ran.map (·.1) ++ skips) (m :: ms)).trapMembers traps
  | [] =>
    let r := (inLanes ran).foldl (fun (a : State × List (Nat × Cause) × Bool) r =>
      let (s, tr, stuck) := a
      match s.lanePages r.1 (f.pages s r.1 r.2.1) f.out with
      | .error c => (s, tr ++ [(r.1, c)], stuck)
      | .ok hits =>
        let (ok, s) := if stuck then (false, s) else f.clear s r.1 hits
        if !ok then (s.retryAll [r.1], tr, f.ordered)
        else
          let s := hits.foldl (fun s h => s.touchLast (s.coreOfT r.1) (laneOf r.1) h.2) s
          let (s, c) := f.act s r.1 r.2.1 r.2.2 hits
          (s, tr ++ (c.map (fun c => (r.1, c))).toList, stuck)) (s.passAll skips, traps, false)
    r.1.trapMembers r.2.1

/-- A memory instruction over its issue set, whatever groups its members belong to (03 R47): causes at issue, then run-ahead or the
accesses. -/
def State.memSet {α : Type} (s : State) (f : MemForm α) : State :=
  let rs := s.members.map (fun t => (t, laneRunX (s.laneEnv (gidOf t)) f.g.val f.us (f.stat (gidOf t)) (f.body t) (s.thread t)))
  let blocked := rs.filterMap (fun r => match r.2 with | .block => some r.1 | _ => none)
  let ended := rs.filterMap (fun r => match r.2 with | .raEnd => some r.1 | _ => none)
  let skips := rs.filterMap (fun r => match r.2 with | .skip => some r.1 | _ => none)
  let traps := rs.filterMap (fun r => match r.2 with | .trap c => some (r.1, c) | _ => none)
  let ran : List (Ran α) := rs.filterMap (fun r => match r.2 with | .ran a l => some (r.1, a, l) | _ => none)
  let ra (t : Nat) : Bool := (s.group (gidOf t)).inRa
  let s := (s.retryAll blocked).endRunAhead ended
  let s := (ran.filter (fun r => ra r.1)).foldl (fun s r => f.ra s r.1 r.2.1 r.2.2) (s.passAll (skips.filter ra))
  s.memLanes f (ran.filter (fun r => !ra r.1)) (skips.filter (fun t => !ra t)) traps

/-- A lane whose operation acts at issue finds its homes open (27 R402), and no store of its own held by a home or a sweep (13 R217;
29 R427); until then it tries again. -/
def State.laneClear (s : State) (tid : Nat) (hs : List Hit) : Bool :=
  hs.all (fun h => s.homeOpen h.1) && s.stores.all (fun st => decide (st.tid ≠ tid) || (s.performStore st).isSome)

/-- A load-class result on its way: the thread passes the instruction, LDC rises, L bounds its issue (05 R99, 11 R191). -/
def State.startLoad (s : State) (tid : Nat) (ls : LaneSt) (bound : Fin 16) (promo : Bool) (mk : Nat → Load) : State :=
  let (id, s) := s.fresh
  let x : Load := mk id
  let s := s.commitAcc tid { ls with poi := false }
  let s := s.modThread tid (fun t =>
    let u : Thread := { t with ldc := t.ldc + 1, look := t.look ++ [(id, bound.val)],
                               acqPending := if x.acq.isSome then t.acqPending ++ [id] else t.acqPending }
    u.markDest id x.dest)
  let s := s.reservePush tid id x.dest x.pc
  let cores := if promo then s.ctxCores (s.ctxOfT tid) else []
  let n := s.nextId
  let ps := (List.range cores.length).map (fun i => n + i)
  let news : List Promo := (List.range cores.length).map (fun i => ⟨n + i, cores.getD i 0, id⟩)
  let s : State := { s with nextId := n + cores.length, promos := s.promos ++ news }
  { s with loads := s.loads ++ [{ x with promo := ps, promoted := promo }] }

/-- A store on its way: STC rises (11 R191). -/
def State.startStore (s : State) (tid : Nat) (ls : LaneSt) (mk : Nat → Store) : State :=
  let (id, s) := s.fresh
  let s := s.commitAcc tid { ls with poi := false }
  let s := s.modThread tid (fun t => { t with stc := t.stc + 1 })
  { s with stores := s.stores ++ [mk id] }

/-- An access that has acted and is yet to be counted performed. -/
def actedStore (tid team : Nat) (scope : Scope) (flush : List Nat) (id : Nat) : Store :=
  { id := id, tid := tid, team := team, space := .glb, va := 0, pa := 0, size := 0, data := 0, scope := scope, pol := 0,
    setFull := false, et := false, acted := true, flush := flush }

/-- Step 2 of a release (13 R218): false while a sealed line waits for a sweep, which is then started. -/
def State.tryRelease (s : State) (tid : Nat) (m : MAcc) : Bool × State :=
  if !m.releases then (true, s)
  else
    let w := s.whoT tid
    match s.releaseAt w m.scope with
    | some s => (true, s)
    | none => (false, s.startSweeps (fun _ => DLine.wroteBy w.ctx))

/-- Both: what comes before an operation that acts at issue. -/
def State.actClear (s : State) (m : MAcc) (tid : Nat) (hs : List Hit) : Bool × State :=
  if s.laneClear tid hs then s.tryRelease tid m else (false, s)

/-! ld (15 R242). -/

def memBytes : MemW → Nat
  | .s8 | .z8 => 1
  | .s16 | .z16 => 2
  | .b32 => 4
  | .b64 => 8
  | .b128 => 16
  | .b256 => 32
def memSigned : MemW → Bool
  | .s8 | .s16 => true
  | _ => false
def memRegs (w : MemW) : Nat := Nat.max 1 (memBytes w / 4)

/-- A lane's load: destination and place; none where the address came from a poisoned register. -/
def ldBody (s : State) (team : Nat) (m : MAcc) (d a : Operand) (w : MemW) : LaneM (Loc × Option Place) := do
  memReady m
  if m.fe ≠ .none then noRunAhead
  let x ← rdAddr m.space a
  needKnown
  let p ← isPoi
  let loc ← locate d (memRegs w) .dst
  if p then
    putN loc (List.replicate (memRegs w) 0)
    return (loc, none)
  else
    let pl ← placeAt s team m.space (addrOf m.space x m.off) (memBytes w) (memBytes w)
    destFree loc (memRegs w)
    return (loc, some pl)

/-- A load of global memory or of a local store starts. -/
def State.ldStart (s : State) (tid : Nat) (m : MAcc) (l : Fin 16) (w : MemW) (loc : Loc) (ls : LaneSt) (kind : LoadKind) (set : Nat := 0) :
    State :=
  s.startLoad tid ls l m.promo (fun id =>
    { id := id, tid := tid, pc := s.cur.pc, dest := destOf loc (memRegs w) id, kind := kind,
      acq := if m.acquires then some m.scope else none, issued := s.clock, set := set })

/-- A full/empty load: it waits at the bank, and issues with its data once it has been served (13 R205, R206). -/
def State.ldFull (s : State) (tid : Nat) (m : MAcc) (l : Fin 16) (w : MemW) (loc : Loc) (ls : LaneSt) (team sp off : Nat) : State :=
  let n := memBytes w
  match (s.team team).feq.find? (fun e => e.tid = tid && e.got.isSome) with
  | some e =>
    let s := s.modTeam team (fun t => { t with feq := t.feq.filter (fun x => x.id ≠ e.id) })
    let bad := (s.team team).poisonedAt sp off n
    s.ldStart tid m l w loc ls (.words (loadWords n (memSigned w) (if bad then 0 else e.got.getD 0)) (if bad then some (4, s.localAddr m.space team off, 0) else none))
  | none =>
    let (id, s) := s.fresh
    let s := s.orderBefore tid id (some (1 + 8 * team + sp, off, n))
    let e : FeWait := { id := id, tid := tid, sp := sp, off := off, n := n, consume := decide (m.fe = .consume), got := none }
    let s := s.modTeam team (fun t => { t with feq := t.feq ++ [e] })
    (s.waitAll [tid] (.fullEmpty id)).serveFull team

def State.ldAct (s : State) (set tid : Nat) (m : MAcc) (l : Fin 16) (w : MemW) (r : Loc × Option Place) (ls : LaneSt) (hs : List Hit) :
    State :=
  match r.2, hs with
  | some (.glb va), (pa, e) :: _ =>
    s.ldStart tid m l w r.1 ls (.bytes m.space (teamOf (gidOf tid)) va pa (memBytes w) (memSigned w) (effPol (leafCpol e.leaf) m.pol)
      (leafComp e.leaf % 8) (leafEt e.leaf)) set
  | some (.loc team sp off), _ =>
    if m.fe = .none then s.ldStart tid m l w r.1 ls (.bytes m.space team (s.localAddr m.space team off) off (memBytes w) (memSigned w) 0 0 false) set
    else s.ldFull tid m l w r.1 ls team sp off
  | _, _ => s.commitAcc tid ls

/-- A load in run-ahead: read as relaxed into scratch, or gathered and unknown (23 R360). -/
def State.ldRa (s : State) (tid : Nat) (m : MAcc) (w : MemW) (r : Loc × Option Place) (ls : LaneSt) : State :=
  let n := memBytes w
  let put (s : State) (ws : List Word) (unk : Bool) : State :=
    let th := match r.1 with
      | .reg k => (List.range ws.length).foldl (fun x i => x.putReg (k + i) (ws.getD i 0) unk) ls.th
      | .queue _ => ls.th
    s.commitAcc tid { ls with th := th }
  let unknown := List.replicate (memRegs w) (0 : Word)
  let bind (s : State) (sp : Space) (team va pa comp : Nat) : State :=
    let l : Load := { id := s.nextId, tid := tid, pc := s.cur.pc, dest := .none, acq := none,
                      kind := .bytes sp team va pa n (memSigned w) 0 comp false }
    let s := s.orderBefore tid l.id l.span
    match s.bindLoad l with
    | ({ kind := .words ws none, .. }, s) => put s ws false
    | (_, s) => put s unknown true
  match r.2 with
  | some (.glb va) =>
    match s.raXlate tid va .read with
    | (.got pa e, s) => bind s m.space (teamOf (gidOf tid)) va pa (leafComp e.leaf % 8)
    | (.gathered, s) => put s unknown true
    | (.ends, s) => s.endRunAhead [tid]
  | some (.loc team _ off) => bind s m.space team off off 0
  | none => s.commitAcc tid ls

/-- The pages of a single access. -/
def placePages (k : AccK) (p : Option Place) : List (Nat × AccK) :=
  match p with
  | some (.glb va) => [(va, k)]
  | _ => []

def execLd (p : MPfx) (g : Guard) (l : Fin 16) (d a : Operand) (w : MemW) (s : State) : Host.Outcome State Fault Refusal :=
  let m (gid : Nat) : MAcc := s.accFor gid p (memBytes w)
  .next (s.memSet {
    g := g, us := [src a, dst d]
    stat := fun gid => memStatic .ld (m gid) a s.cur.word
    body := fun tid => ldBody s (teamOf (gidOf tid)) (m (gidOf tid)) d a w
    pages := fun _ _ r => placePages .read r.2
    ra := fun t tid r ls => t.ldRa tid (m (gidOf tid)) w r ls
    act := fun t tid r ls hs => (t.ldAct s.nextId tid (m (gidOf tid)) l w r ls hs, none) })

/-! st (15 R243). -/

/-- A lane's store: its data and place. -/
def stBody (s : State) (team : Nat) (m : MAcc) (d a : Operand) (w : MemW) : LaneM (Nat × Option Place) := do
  memReady m
  if !isGlb m.space then noRunAhead
  let x ← rdAddr m.space a
  needKnown
  let ws ← rdN d (memRegs w)
  let pl ← placeAt s team m.space (addrOf m.space x m.off) (memBytes w) (memBytes w)
  let p ← isPoi
  return (wordsNat ws % 2 ^ (8 * memBytes w), if p then none else some pl)

/-- Every byte of a range lies in one of the launch's two footprint ranges (25 R375): the two may adjoin. -/
def State.inFoot (s : State) (tid va n : Nat) : Bool :=
  let l := (s.grid (s.teamOfT tid).grid).lrec
  let past (f : Nat × Nat) (x : Nat) : Nat := if f.1 ≤ x ∧ x < f.1 + f.2 then f.1 + f.2 else x
  let x := past l.foot1 (past l.foot0 va)
  decide (va + n ≤ past l.foot0 x)

def State.stAct (s : State) (set tid : Nat) (m : MAcc) (w : MemW) (r : Nat × Option Place) (ls : LaneSt) (hs : List Hit) : State :=
  match r.2 with
  | none => s.commitAcc tid ls
  | some pl =>
    let team := teamOf (gidOf tid)
    match pl, hs with
    | .glb va, (pa, e) :: _ =>
      let s := if s.inFoot tid va (memBytes w) then s else s.setOutside tid
      s.startStore tid ls (fun id =>
        { id := id, tid := tid, team := team, space := .glb, va := va, pa := pa, size := memBytes w, data := r.1, scope := m.scope,
          pol := effPol (leafCpol e.leaf) m.pol, comp := leafComp e.leaf % 8, setFull := false, et := leafEt e.leaf, acted := false, set := set })
    | .loc u sp off, _ =>
      s.startStore tid ls (fun id =>
        { id := id, tid := tid, team := u, space := spaceOf sp, va := off, pa := off, size := memBytes w, data := r.1, scope := m.scope,
          pol := 0, setFull := decide (m.fe = .setFull), et := false, acted := false, set := set })
    | _, _ => s.commitAcc tid ls

/-- A store to global memory in run-ahead: translated, not performed (23 R360). -/
def State.stRa (s : State) (tid : Nat) (r : Nat × Option Place) (ls : LaneSt) : State :=
  match r.2 with
  | some (.glb va) =>
    match s.raXlate tid va .write with
    | (.ends, s) => s.endRunAhead [tid]
    | (_, s) => s.commitAcc tid ls
  | _ => s.commitAcc tid ls

def execSt (p : MPfx) (g : Guard) (l : Fin 16) (d a : Operand) (w : MemW) (s : State) : Host.Outcome State Fault Refusal :=
  let _ := l
  let m (gid : Nat) : MAcc := s.accFor gid p (memBytes w)
  .next (s.memSet {
    g := g, us := [src a, src d]
    stat := fun gid => memStatic .st (m gid) a s.cur.word
    body := fun tid => stBody s (teamOf (gidOf tid)) (m (gidOf tid)) d a w
    pages := fun _ _ r => placePages .write r.2
    ra := fun t tid r ls => t.stRa tid r ls
    act := fun t tid r ls hs => (t.stAct s.nextId tid (m (gidOf tid)) w r ls hs, none)
    clear := fun t tid _ => t.tryRelease tid (m (gidOf tid)) })

/-! atom and red (15 R244-R247). -/

/-- Registers of the operand in D: the compare and new parts of a cas, else one word. -/
def atomRegs (op : AtomOp) : Nat :=
  match op with
  | .cas32 => 2
  | .cas64 => 4
  | op => if atomWide op then 2 else 1

def atomUnit (op : AtomOp) : Nat := if atomWide op then 8 else 4

/-- The operand of an atom read from its place in D. -/
def oldN (l : Loc) (w : Nat) : LaneM (List Word) :=
  match l with
  | .reg n => readMany n w
  | .queue k => do let v ← popQ k; return (pairOf v).take w
where pairOf (v : DWord) : List Word := [v.truncate 32, (v >>> 32).truncate 32]

def atomBody (s : State) (team : Nat) (m : MAcc) (d a : Operand) (op : AtomOp) : LaneM (Loc × Nat × Option Place) := do
  memReady m
  noRunAhead
  let x ← rdAddr m.space a
  let loc ← locate d (atomRegs op) .both
  let ws ← oldN loc (atomRegs op)
  let pl ← placeAt s team m.space (addrOf m.space x m.off) (atomUnit op) (atomUnit op)
  let p ← isPoi
  if p then
    putN loc (List.replicate (if atomWide op then 2 else 1) 0)
    return (loc, 0, none)
  else return (loc, wordsNat ws, some pl)

/-- An atomic on a word of a local store, at its bank. -/
def State.rmwLocal (s : State) (team off : Nat) (op : AtomOp) (fp : Word) (x : Nat) : Option Nat × State :=
  let n := atomUnit op
  let t := s.team team
  if t.poisonedAt 1 off n then (none, s)
  else
    let old := t.readLocal 1 off n
    (some old, match rmwNew op fp old x with
      | some v => s.modTeam team (fun t => t.writeLocal 1 off n v)
      | none => s)

/-- The result of an atomic that has acted, delivered as a load; poison leaves D as it is (15 R240). -/
def atomKind (op : AtomOp) (o : Option Nat) (unit va pa : Nat) : LoadKind :=
  match o with
  | some old => .words (rmwWords op old) none
  | none => .words [] (some (unit, va, pa))

def State.atomAct (s : State) (set tid : Nat) (m : MAcc) (l : Fin 16) (op : AtomOp) (r : Loc × Nat × Option Place) (ls : LaneSt) (hs : List Hit) :
    State :=
  match r.2.2 with
  | none => s.commitAcc tid ls
  | some pl =>
    let fp := (s.laneEnv (gidOf tid)).fpdef
    let start (s : State) (kind : LoadKind) : State :=
      let good := match kind with | .words _ (some _) => false | _ => true
      s.startLoad tid ls l m.promo (fun id =>
        { id := id, tid := tid, pc := s.cur.pc, kind := kind, issued := s.clock, set := set,
          dest := if good then destOf r.1 (if atomWide op then 2 else 1) id else .none,
          acq := if m.acquires then some m.scope else none })
    let s := s.setOutside tid
    match pl, hs with
    | .glb va, (pa, e) :: _ =>
      let comp := leafComp e.leaf % 8
      let sys := m.acquires && decide (m.scope = .system)
      if m.promo then start s (.rmw op fp r.2.1 va pa comp m.pol sys)
      else
        let s := s.orderBefore tid s.nextId (some (0, pa, atomUnit op))
        let (o, s) := s.rmwGlb (s.whoT tid) op fp r.2.1 pa comp m.pol sys va
        start s (atomKind op o 1 va pa)
    | .loc u sp off, _ =>
      let s := s.orderBefore tid s.nextId (some (1 + 8 * u + sp, off, atomUnit op))
      let (o, s) := s.rmwLocal u off op fp r.2.1
      start s (atomKind op o 4 (s.localAddr m.space u off) 0)
    | _, _ => s.commitAcc tid ls

def execAtom (p : MPfx) (g : Guard) (l : Fin 16) (d a : Operand) (op : AtomOp) (s : State) : Host.Outcome State Fault Refusal :=
  let m (gid : Nat) : MAcc := s.accFor gid p (atomUnit op)
  .next (s.memSet {
    g := g, us := [src a, both d]
    stat := fun gid => memStatic .atom (m gid) a s.cur.word
    body := fun tid => atomBody s (teamOf (gidOf tid)) (m (gidOf tid)) d a op
    pages := fun _ _ r => placePages .both r.2.2
    ra := fun t _ _ _ => t
    act := fun t tid r ls hs => (t.atomAct s.nextId tid (m (gidOf tid)) l op r ls hs, none)
    clear := fun t tid hs => t.actClear (m (gidOf tid)) tid hs, ordered := true })

def redBody (s : State) (team : Nat) (m : MAcc) (d a : Operand) (op : AtomOp) : LaneM (Nat × Option Place) := do
  memReady m
  noRunAhead
  let x ← rdAddr m.space a
  let ws ← rdN d (atomRegs op)
  let pl ← placeAt s team m.space (addrOf m.space x m.off) (atomUnit op) (atomUnit op)
  let p ← isPoi
  return (wordsNat ws, if p then none else some pl)

def State.redAct (s : State) (tid : Nat) (m : MAcc) (op : AtomOp) (r : Nat × Option Place) (ls : LaneSt) (hs : List Hit) : State :=
  match r.2 with
  | none => s.commitAcc tid ls
  | some pl =>
    let fp := (s.laneEnv (gidOf tid)).fpdef
    let s := s.setOutside tid
    let fin (s : State) (o : Option Nat) (unit va pa : Nat) : State :=
      let s := s.startStore tid ls (actedStore tid (teamOf (gidOf tid)) m.scope [])
      if o.isNone then s.consume tid unit va pa (fun s' => s'.defer tid { code := 0x0D, addr := BitVec.ofNat 64 va } s.cur.pc) else s
    match pl, hs with
    | .glb va, (pa, e) :: _ =>
      let s := s.orderBefore tid s.nextId (some (0, pa, atomUnit op))
      let (o, s) := s.rmwGlb (s.whoT tid) op fp r.1 pa (leafComp e.leaf % 8) m.pol false va
      fin s o 1 va pa
    | .loc u sp off, _ =>
      let s := s.orderBefore tid s.nextId (some (1 + 8 * u + sp, off, atomUnit op))
      let (o, s) := s.rmwLocal u off op fp r.1
      fin s o 4 (s.localAddr m.space u off) 0
    | _, _ => s.commitAcc tid ls

def execRed (p : MPfx) (g : Guard) (l : Fin 16) (d a : Operand) (op : AtomOp) (s : State) : Host.Outcome State Fault Refusal :=
  let _ := l
  let m (gid : Nat) : MAcc := s.accFor gid p (atomUnit op)
  .next (s.memSet {
    g := g, us := [src a, src d]
    stat := fun gid => memStatic .red (m gid) a s.cur.word
    body := fun tid => redBody s (teamOf (gidOf tid)) (m (gidOf tid)) d a op
    pages := fun _ _ r => placePages .write r.2
    ra := fun t _ _ _ => t
    act := fun t tid r ls hs => (t.redAct tid (m (gidOf tid)) op r ls hs, none)
    clear := fun t tid hs => t.actClear (m (gidOf tid)) tid hs, ordered := true })

/-! Exact accumulators (15 R248-R253). -/

/-- A line of an object: line number and compartment. -/
abbrev ObjLine := Nat × Nat

/-- The lines of an object of `size` bytes at `va`, by translations that cover it. -/
def objLines (hs : List Hit) (va size : Nat) : List ObjLine :=
  (List.range (size / 64)).filterMap (fun i =>
    let v := va + 64 * i
    (hs.find? (fun h => decide (h.2.base ≤ v) && decide (v < h.2.base + h.2.size))).map
      (fun h => (h.2.pa v / 64, leafComp h.2.leaf % 8)))

/-- The physical address of an object. -/
def objPa (hs : List Hit) (va : Nat) : Nat := ((objLines hs va 64).head?.map (fun l => 64 * l.1)).getD 0

/-- The bytes of an object at its homes, its lines taken exclusively; and whether a sector is poisoned. -/
def State.readObj (s : State) (w : Who) (ls : List ObjLine) (fresh : Bool) (va : Nat := 0) : Nat × Bool × State :=
  let r := ls.foldl (fun (a : Nat × Nat × Bool × State) l =>
    let (i, v, bad, s) := a
    let s := s.recallLine w.first l.1
    let (g, s) := s.homeRead w.first l.1 w.ctx l.2 true (if fresh then s.clock + 1 else 0) (if va = 0 then 0 else va + 64 * i)
    (i + 1, v + g.data.toNat * 2 ^ (512 * i), bad || decide (g.poison ≠ 0), s)) (0, 0, false, s)
  (r.2.1, r.2.2.1, r.2.2.2)

/-- The lines of an object that has been read or written granted to the core's L1, and pinned where POL asks it (13 R213; 15 R238). -/
def State.grantObj (s : State) (w : Who) (ls : List ObjLine) (v pol : Nat) : State :=
  (ls.foldl (fun (a : Nat × State) l =>
    let (i, s) := a
    (i + 1, (s.grantLine w l.1 l.2 { data := BitVec.ofNat 512 (v / 2 ^ (512 * i)), poison := 0 }).applyPol w l.1 l.2 pol)) (0, s)).2

/-- An object's bytes written at its homes; host lines are written through (15 R244). -/
def State.writeObj (s : State) (w : Who) (ls : List ObjLine) (v : Nat) : State :=
  (ls.foldl (fun (a : Nat × State) l =>
    let (i, s) := a
    let s := s.homeWrite w.first l.1 w.ctx l.2 (BitVec.ofNat 512 (v / 2 ^ (512 * i))) (BitVec.allOnes 64) 0 false
    (i + 1, if isHostPa (64 * l.1) then s.toMemoryNow w.first l.1 else s)) (0, s)).2

def kindOf (n : Nat) : Option AccKind := if n = 1 then some acc64 else if n = 2 then some acc32 else none

/-- Size of the object that a function addresses: fixed, or by the KIND found (15 R251). -/
def xaccSize (fn : XaccFn) (found : Option AccKind) : Nat :=
  match fn with
  | .addF64 | .subF64 | .clrF64 => 320
  | .clrF32 => 64
  | _ => (found.map (·.bytes)).getD 64

/-- KIND found at an address whose first page translates. -/
def State.kindAt (s : State) (tid va : Nat) (k : AccK) : Option AccKind :=
  match s.xlate tid va k with
  | .hit pa e => kindOf (accKindField (s.readObj (s.whoT tid) [(pa / 64, leafComp e.leaf % 8)] false).1)
  | _ => none

/-- Pages of an object: the first, and the last one where it differs. -/
def objPages (va size : Nat) (k : AccK) : List (Nat × AccK) :=
  if (va + size - 1) / 65536 = va / 65536 then [(va, k)] else [(va, k), ((va + size - 1) / 65536 * 65536, k)]

def xaccDRegs : XaccFn → Nat
  | .addF64 | .subF64 | .merge => 2
  | .addF32 | .subF32 => 1
  | _ => 0

def xaccUses (fn : XaccFn) (d a : Operand) : List Use := if xaccDRegs fn = 0 then [src a] else [src a, src d]

/-- The first of two places, or the lower of their causes (00 R14). -/
def placeBoth (a b : Except Cause Place) : LaneM Place :=
  match a, b with
  | .ok p, .ok _ => return p
  | .error c, .ok _ => laneStop (.trap c)
  | .ok _, .error c => laneStop (.trap c)
  | .error c, .error c' => laneStop (.trap (if c.code ≤ c'.code then c else c'))

/-- A lane's accumulator operation: its target, its value or the source object's address. -/
def xaccBody (s : State) (team : Nat) (m : MAcc) (d a : Operand) (fn : XaccFn) : LaneM (Option (Nat × Nat)) := do
  memReady m
  noRunAhead
  let x ← rdAddr m.space a
  let v ← (if xaccDRegs fn = 0 then return 0 else (do let ws ← rdN d (xaccDRegs fn); return wordsNat ws))
  let pl ← placeBoth (s.placeOf team m.space (addrOf m.space x m.off) 64 64)
    (if fn = .merge then s.placeOf team .glb v 64 64 else .ok (.glb 0))
  let p ← isPoi
  match pl with
  | .glb va => return if p then none else some (va, v)
  | _ => return none

def State.xaccPages (s : State) (tid : Nat) (fn : XaccFn) (r : Option (Nat × Nat)) : List (Nat × AccK) :=
  match r with
  | none => []
  | some (va, v) =>
    objPages va (xaccSize fn (s.kindAt tid va .both)) .both ++
      (if fn = .merge then objPages v (xaccSize fn (s.kindAt tid v .read)) .read else [])

/-- KIND accepted by a function (15 R250). -/
def xaccAccepts (fn : XaccFn) (k : AccKind) : Bool :=
  match fn with
  | .addF64 | .subF64 => k.code == 1
  | _ => true

/-- The header and MBZ checks of 15 R251: the kind of a valid object. Bytes past an object of its KIND are none of its own. -/
def accValid (obj : Nat) : Option AccKind :=
  (kindOf (accKindField obj)).bind (fun k => if k.ok (obj % 2 ^ (8 * k.bytes)) then some k else none)

/-- The value that an add or subtract takes. -/
def xaccValue (fn : XaccFn) (v : Nat) : Fv :=
  match fn with
  | .addF64 => f64.value v
  | .subF64 => (f64.value v).neg
  | .addF32 => f32.value (v % 2 ^ 32)
  | _ => (f32.value (v % 2 ^ 32)).neg

/-- The outcome of an accumulator function: poison, a cause's TRAPAUX, or the new object and its lines. -/
inductive XaccRes where
  | poison
  | bad (aux : Nat)
  | put (ls : List ObjLine) (v : Nat)

/-- The function of an accumulator instruction on its target at `va`, with the value or source address `v` (15 R250-R252). -/
def State.xaccRun (s : State) (w : Who) (fn : XaccFn) (va v : Nat) (hs : List Hit) : XaccRes × State :=
  if xaccDRegs fn = 0 then
    let os := objLines hs va (xaccSize fn none)
    let (_, bad, s) := s.readObj w os false va
    (if bad then .poison else .put os (if fn = .clrF64 then 256 else 512), s)
  else
    let (x, bad, s) := s.readObj w (objLines hs va 64) false va
    let ls := objLines hs va (xaccSize fn (kindOf (accKindField x)))
    let (x, bad', s) := s.readObj w ls false va
    if fn = .merge then
      let (y, bad1, s) := s.readObj w (objLines hs v 64) false v
      let ms := objLines hs v (xaccSize fn (kindOf (accKindField y)))
      let (y, bad2, s) := s.readObj w ms false v
      if bad || bad' || bad1 || bad2 then (.poison, s)
      else match accValid y, accValid x with
      | some ky, some kx =>
        if ky ≠ kx then (.bad 8, s)
        else if ms ≠ ls ∧ ms.any (fun l => ls.any (fun o => o.1 = l.1)) then (.bad 9, s)
        else (.put ls (kx.write (kx.merge (kx.read y) (kx.read x))), s)
      | _, _ => (.bad 7, s)
    else if bad || bad' then (.poison, s)
    else match accValid x with
    | none => (.bad 7, s)
    | some k => if xaccAccepts fn k then (.put ls (k.write (k.add (k.read x) (xaccValue fn v))), s) else (.bad 8, s)

/-- Older accesses of the thread to the bytes of an object act first (13 R217). -/
def State.orderObj (s : State) (tid va : Nat) (hs : List Hit) : State :=
  (objLines hs va 320).foldl (fun s l => s.orderBefore tid s.nextId (some (0, 64 * l.1, 64))) s

/-- One lane's accumulator operation; the cause it finds in the object traps the lane, and its TRAPADDR is the target's address. -/
def State.xaccAct (s : State) (tid : Nat) (m : MAcc) (fn : XaccFn) (r : Option (Nat × Nat)) (ls : LaneSt) (hs : List Hit) :
    State × Option Cause :=
  match r with
  | none => (s.commitAcc tid ls, none)
  | some (va, v) =>
    let w := s.whoT tid
    let s := (s.setOutside tid).orderObj tid va hs
    let s := if fn = .merge then s.orderObj tid v hs else s
    let fin (s : State) (bad : Bool) : State :=
      let s := s.startStore tid ls (actedStore tid (teamOf (gidOf tid)) m.scope [])
      if bad then s.consume tid 1 va (objPa hs va) (fun s' => s'.defer tid { code := 0x0D, addr := BitVec.ofNat 64 va } s.cur.pc) else s
    match s.xaccRun w fn va v hs with
    | (.poison, s) => (fin s true, none)
    | (.bad aux, s) => (s, some { code := 0x06, addr := BitVec.ofNat 64 va, aux := BitVec.ofNat 32 aux })
    | (.put os x, s) => (fin ((s.writeObj w os x).grantObj w os x m.pol) false, none)

/-- Accumulator instructions refuse peer memory (01 R36). -/
def noPeer (hs : List Hit) (va : Nat) (r : State × Option Cause) (s : State) : State × Option Cause :=
  if hs.any (fun h => isPeerPa h.1) then (s, some { code := 0x06, addr := BitVec.ofNat 64 va, aux := 6 }) else r

def execXacc (p : MPfx) (g : Guard) (l : Fin 16) (d a : Operand) (fn : XaccFn) (s : State) : Host.Outcome State Fault Refusal :=
  let _ := l
  let m (gid : Nat) : MAcc := s.accFor gid p 64
  .next (s.memSet {
    g := g, us := xaccUses fn d a
    stat := fun gid => memStatic .xacc (m gid) a s.cur.word
    body := fun tid => xaccBody s (teamOf (gidOf tid)) (m (gidOf tid)) d a fn
    pages := fun t tid r => t.xaccPages tid fn r
    ra := fun t _ _ _ => t
    act := fun t tid r ls hs => noPeer hs ((r.map (·.1)).getD 0) (t.xaccAct tid (m (gidOf tid)) fn r ls hs) t
    clear := fun t tid hs => t.actClear (m (gidOf tid)) tid hs, ordered := true, out := false })

def xrndMode : XrndMode → Mode
  | .rne => .rne
  | .rz => .rz
  | .ru => .ru
  | .rd => .rd
  | .rna => .rna

/-- A lane's rounding read: the object's address; the second number is the first destination register, or 2^16 + queue. -/
def xrndBody (s : State) (team : Nat) (m : MAcc) (d a : Operand) (w : Nat) : LaneM (Option (Nat × Nat)) := do
  memReady m
  noRunAhead
  let x ← rdAddr m.space a
  let p ← isPoi
  let loc ← locate d w .dst
  if p then
    putN loc (List.replicate w 0)
    return none
  else
    let pl ← placeAt s team m.space (addrOf m.space x m.off) 64 64
    destFree loc w
    match pl with
    | .glb va => return some (va, match loc with | .reg n => n | .queue k => 65536 + k)
    | _ => return none

def State.xrndAct (s : State) (tid : Nat) (m : MAcc) (l : Fin 16) (f32r : Bool) (mode : XrndMode) (r : Option (Nat × Nat)) (ls : LaneSt)
    (hs : List Hit) : State × Option Cause :=
  match r with
  | none => (s.commitAcc tid ls, none)
  | some (va, loc) =>
    let w := s.whoT tid
    let n := if f32r then 1 else 2
    let s := s.orderObj tid va hs
    let sys := m.acquires && decide (m.scope = .system)
    -- poison leaves D as it is (15 R240)
    let start (s : State) (kind : LoadKind) (good : Bool) : State :=
      s.startLoad tid ls l false (fun id =>
        { id := id, tid := tid, pc := s.cur.pc, kind := kind, issued := s.clock,
          dest := if !good then .none else if 65536 ≤ loc then .queue (loc - 65536) id else .regs loc n,
          acq := if m.acquires then some m.scope else none })
    let (x, bad, s) := s.readObj w (objLines hs va 64) sys va
    let os := objLines hs va (xaccSize .merge (kindOf (accKindField x)))
    let (x, bad2, s) := s.readObj w os sys va
    if bad || bad2 then (start s (.words [] (some (1, va, objPa hs va))) false, none)
    else match accValid x with
    | none => (s, some { code := 0x06, addr := BitVec.ofNat 64 va, aux := 7 })
    | some k =>
      let v := k.rnd (k.read x) (if f32r then f32 else f64) (xrndMode mode)
      (start (s.grantObj w os x m.pol) (.words ((List.range n).map (fun i => BitVec.ofNat 32 (v / 2 ^ (32 * i)))) none) true, none)

def execXrnd (p : MPfx) (g : Guard) (l : Fin 16) (d a : Operand) (f32r : Bool) (mode : XrndMode) (s : State) :
    Host.Outcome State Fault Refusal :=
  let m (gid : Nat) : MAcc := s.accFor gid p 64
  .next (s.memSet {
    g := g, us := [src a, dst d]
    stat := fun gid => memStatic .xrnd (m gid) a s.cur.word
    body := fun tid => xrndBody s (teamOf (gidOf tid)) (m (gidOf tid)) d a (if f32r then 1 else 2)
    pages := fun t tid r => match r with
      | some (va, _) => objPages va (xaccSize .merge (t.kindAt tid va .read)) .read
      | none => []
    ra := fun t _ _ _ => t
    act := fun t tid r ls hs => noPeer hs ((r.map (·.1)).getD 0) (t.xrndAct tid (m (gidOf tid)) l f32r mode r ls hs) t
    clear := fun t tid hs => t.actClear (m (gidOf tid)) tid hs, ordered := true, out := false })

/-! Full/empty ranges (15 R254, R255). -/

def feKind : FeFn → MemKind
  | .test _ => .feTest
  | _ => .feSet

def feBody (s : State) (team : Nat) (m : MAcc) (d a : Operand) (fn : FeFn) : LaneM (Option (Place × Nat)) := do
  memReady m
  noRunAhead
  let x ← rdAddr m.space a
  let n ← rd1 d
  let addr := addrOf m.space x m.off
  if n.toNat % 16 ≠ 0 then laneTrap 0x04 16 (BitVec.ofNat 64 addr)
  let pl ← placeAt s team m.space addr 16 n.toNat
  match fn with
  | .test p =>
    let t ← getTh
    if !t.clear true (p.val + 1) then laneStop .block
  | _ => pure ()
  let p ← isPoi
  return if p then none else some (pl, n.toNat)

def State.feAct (s : State) (tid : Nat) (m : MAcc) (l : Fin 16) (fn : FeFn) (r : Option (Place × Nat)) (ls : LaneSt) : State :=
  match r with
  | some (.loc u sp off, n) =>
    let s := s.orderBefore tid s.nextId (some (1 + 8 * u + sp, off, n))
    let done_ (s : State) : State := s.startStore tid ls (actedStore tid (teamOf (gidOf tid)) m.scope [])
    match fn with
    | .clr => done_ (s.modTeam u (fun t => t.setEmpty sp off n))
    | .set => done_ ((s.modTeam u (fun t => t.setFull sp off n)).serveFull u)
    | .test p =>
      let v := (s.team u).allFull sp off n
      s.startLoad tid ls l false (fun id =>
        { id := id, tid := tid, pc := s.cur.pc, dest := .pred (p.val + 1), kind := .words [if v then 1 else 0] none, issued := s.clock,
          acq := if m.acquires then some m.scope else none })
  | _ => s.commitAcc tid ls

def execFe (p : MPfx) (g : Guard) (l : Fin 16) (d a : Operand) (fn : FeFn) (s : State) : Host.Outcome State Fault Refusal :=
  let m (gid : Nat) : MAcc := s.accFor gid p 16
  .next (s.memSet {
    g := g, us := [src a, src d]
    stat := fun gid => memStatic (feKind fn) (m gid) a s.cur.word
    body := fun tid => feBody s (teamOf (gidOf tid)) (m (gidOf tid)) d a fn
    pages := fun _ _ _ => []
    ra := fun t _ _ _ => t
    act := fun t tid r ls _ => (t.feAct tid (m (gidOf tid)) l fn r ls, none)
    clear := fun t tid hs => t.actClear (m (gidOf tid)) tid hs, ordered := true })

/-! Cache range operations (11 R194). -/

/-- SCOPE and SPACE of a range operation. -/
def State.rangeFields (s : State) (gid : Nat) (p : Option (Scope × Space)) : Scope × Space :=
  match p with
  | some x => x
  | none =>
    let m := s.accFor gid .none 1
    (m.scope, m.space)

def wideScope (sc : Scope) : Bool := sc == .partition || sc == .system

/-- The physical ranges of the lines of [a, a + n): pages with no valid translation are skipped. -/
def State.rangeFrames (s : State) (c a n : Nat) : List (Nat × Nat) × State :=
  if n = 0 then ([], s)
  else
    let lo := a / 64 * 64
    let hi := (a + n + 63) / 64 * 64
    (upto (lo / 65536) ((hi + 65535) / 65536 - lo / 65536)).foldl (fun (acc : List (Nat × Nat) × State) pg =>
      let x := Nat.max lo (pg * 65536)
      let y := Nat.min hi (pg * 65536 + 65536)
      if 2 ^ 50 ≤ x then acc
      else match acc.2.walk c x with
      | (.done e, s) => (acc.1 ++ [(e.pa x, y - x)], s)
      | (_, s) => (acc.1, s)) ([], s)

def inFrames (fs : List (Nat × Nat)) (la : Nat) : Bool := fs.any (fun f => decide (f.1 ≤ 64 * la) && decide (64 * la < f.1 + f.2))

/-- cflush: the members' own stores in range, then the team's dirty lines in range reach the home; for system scope the home's reach
memory before STC falls. -/
def State.rangeFlush (s : State) (gid : Nat) (active : List Nat) (sc : Scope) (a n : Nat) : State :=
  let t := teamOf gid
  let w := s.whoTeam t
  let (fs, s) := s.rangeFrames w.ctx a n
  let mine := s.stores.filter (fun st => active.contains st.tid && isGlb st.space && !st.acted && inFrames fs (st.pa / 64))
  let s := mine.foldl (fun s st => s.finishStore st) s
  let s := if wideScope sc then s.flushCores (s.clusterCores t) (some t) (inFrames fs) else s
  let las := if sc = .system then
      (s.partSlices w.first).flatMap (fun i => ((s.slice i).deep.filter (fun e => inFrames fs e.1)).map (·.1)) else []
  active.foldl (fun s tid =>
    let (id, s) := s.fresh
    let s := s.modThread tid (fun x => { x with stc := x.stc + 1 })
    { s with stores := s.stores ++ [actedStore tid t sc las id] }) s

/-- cinval: clean lines in range that the team has not written leave its core's L1, or the constant cache. -/
def State.rangeInval (s : State) (gid : Nat) (sc : Scope) (sp : Space) (a n : Nat) : State :=
  let t := teamOf gid
  let core := (s.team t).core
  if !wideScope sc then s
  else
    let (fs, s) := s.rangeFrames (s.team t).ctx a n
    if sp = .cnst then s.modCore core (fun c => { c with kc := c.kc.filter (fun e => !inFrames fs e.1) })
    else
      let ls := (s.core core).l1.filter (fun e => inFrames fs e.1 && decide (e.2.dirty = 0) && e.2.fillers.contains t && !e.2.writers.contains t)
      ls.foldl (fun s e => s.dropL1 core e.1) s

/-- A cflush of the thread has no room in STC, or waits for an acquire (11 R191). -/
def Thread.noFlush (t : Thread) : Bool := !t.acqPending.isEmpty || decide (262143 ≤ t.stc)

/-- A cache range operation: the causes whatever the guard, then once per group through the leader. -/
def State.rangeOp (s : State) (flush : Bool) (p : Option (Scope × Space)) (g : Guard) (a b : Operand) : State :=
  (groupsIn s.members).foldl (fun s gid =>
    let (sc, sp) := s.rangeFields gid p
    let bad := !isGlb sp || (flush && decide (sp = .cnst) && wideScope sc)
    let mem := s.members.filter (fun t => gidOf t = gid)
    let ra := (s.group gid).inRa
    let stat := staticCause (s.laneEnv gid) [src a, src b]
    if bad then
      (if ra then s.endRunAhead mem else s.trapMembers (mem.map (fun t => (t, { code := (lowerCode stat (some 6)).getD 6 }))))
    else if flush && mem.any (fun t => (s.thread t).pred g.val && (s.thread t).noFlush) then s.retryAll mem
    else
      s.uniformGroup g [src a, src b] true (do
          let t ← getTh
          if t.noFlush then laneStop .block
          let x ← rd2 a
          let n ← rd1 b
          return (x.toNat, n.toNat))
        (fun s u =>
          let s := if ra || u.poi then s
            else if flush then s.rangeFlush gid u.active sc u.val.1 u.val.2
            else s.rangeInval gid sc sp u.val.1 u.val.2
          s.passAll u.members) gid) s

def execCflush (p : Option (Scope × Space)) (g : Guard) (a b : Operand) (s : State) : Host.Outcome State Fault Refusal :=
  .next (s.rangeOp true p g a b)
def execCinval (p : Option (Scope × Space)) (g : Guard) (a b : Operand) (s : State) : Host.Outcome State Fault Refusal :=
  .next (s.rangeOp false p g a b)

/-! The events that end accesses. -/

/-- STORE_PERFORMED: a store takes effect at its own scope and STC falls. -/
def execStorePerformed (id : Nat) (s : State) : Host.Outcome State Fault Refusal := .next (s.settleStore id)

/-- PROMOTION_REQUEST: the core writes back what narrow releases covered, here all its dirty bytes, and answers (13 R226, log 38). -/
def execPromotionRequest (core id : Nat) (s : State) : Host.Outcome State Fault Refusal :=
  .next (match s.promos.find? (fun p => p.id = id && p.core = core) with
  | none => s
  | some p =>
    let s := s.flushCores [core] none (fun _ => true)
    { s with promos := s.promos.filter (fun x => x.id ≠ id),
             loads := s.loads.map (fun (x : Load) => if x.id = p.load then { x with promo := x.promo.filter (· ≠ id) } else x) })

/-- CACHE_WRITEBACK: a cache writes a line's dirty bytes back, and drops the line if `drop` says so and it is then clean (13 R211). -/
def execCacheWriteback (lvl : CacheLvl) (unit line : Nat) (drop : Bool) (s : State) : Host.Outcome State Fault Refusal :=
  .next (match lvl with
  | .l1 => if drop then (s.cleanL1 unit line).dropL1 unit line else s.cleanL1 unit line
  | .constant => if drop then s.dropKc unit line else s
  | .cluster => if drop then s.evictCc unit line else s.cleanCc unit line
  | .deep =>
    match spGet (s.slice unit).deep line with
    | none => s
    | some x =>
      match s.cleanDeep unit line with
      | none => s.startSweep line
      | some s => if drop && x.pins.isEmpty then s.dropDeep unit line else s)

end Sys2Proof.Machine
end

