-- ==== Sys2Proof/Machine/Phaser.lean ====
section
/-! DEFINITION. Phasers: handles, registration, arrivals, waits, tests, initialisation and drops (03 R68-R72; 11 R183-R187). -/

namespace Sys2Proof.Machine

/-! The object (03 R68). -/

def phPhase (v : Nat) : Word := BitVec.ofNat 32 (fld v 31 0)
def phNsig (v : Nat) : Nat := fld v 47 32
def phNwait (v : Nat) : Nat := fld v 63 48
def phArrived (v : Nat) : Nat := fld v 79 64
def phBlocked (v : Nat) : Nat := fld v 95 80
def phDsig (v : Nat) : Int := sext 16 (fld v 111 96)
def phDwait (v : Nat) : Int := sext 16 (fld v 127 112)
def phKind (v : Nat) : Nat := fld v 131 130

/-- Scope of a phaser of a kind (03 R71). -/
def kindScope (k : Nat) : Scope := if k = 0 then .team else if k = 1 then .cluster else .partition

/-- The checks of 03 R69 for a thread of a team. -/
def State.phOk (s : State) (team : Nat) (pl : Place) (v : Nat) : Bool :=
  let reach := match pl with
    | .loc u _ _ => (phKind v != 0 || u == team) && (phKind v != 1 || (s.team u).cluster == (s.team team).cluster)
    | .glb _ => true
  fld v 128 128 == 1 && fld v 129 129 == 0 && phKind v != 3 && fld v 255 132 == 0 && reach

/-- A registration change of one role (03 R70): the counts n and d after it, or none out of range. -/
def regChange (free : Bool) (n : Nat) (d : Int) (x : Int) : Option (Nat × Int) :=
  if free then
    (let m := (n : Int) + x
     if 0 ≤ m ∧ m ≤ 65535 then some (m.toNat, d) else none)
  else
    let e := d + x
    let m := (n : Int) + e
    if -32768 ≤ e ∧ e ≤ 32767 ∧ 0 ≤ m ∧ m ≤ 65535 then some (n, e) else none

/-- The phaser after a registration change in the named roles. -/
def phRegister (v : Nat) (role : PhRole) (x : Int) : Option Nat :=
  let free := phNsig v == 0 && phArrived v == 0
  let sg := if role = .wait then some (phNsig v, phDsig v) else regChange free (phNsig v) (phDsig v) x
  let wt := if role = .sig then some (phNwait v, phDwait v) else regChange free (phNwait v) (phDwait v) x
  match sg, wt with
  | some (n, d), some (m, e) => some (setFld (setFld (setFld (setFld v 47 32 n) 63 48 m) 111 96 (low 16 d)) 127 112 (low 16 e))
  | _, _ => none

/-- An arrival (03 R71): the phaser after it and whether its phase completed; none for trap 0x09. -/
def phArrival (v : Nat) : Option (Nat × Bool) :=
  if phNsig v = 0 ∨ phArrived v = phNsig v then none
  else
    let u := setFld v 79 64 (phArrived v + 1)
    if phArrived u = phNsig u then
      let n := low 16 ((phNsig u : Int) + phDsig u)
      let m := low 16 ((phNwait u : Int) + phDwait u)
      some (setFld (setFld (setFld (setFld (setFld (setFld u 31 0 (fld u 31 0 + 1)) 79 64 0) 47 32 n) 63 48 m) 111 96 0) 127 112 0, true)
    else some (u, false)

/-- BLOCKED after some threads have been released, or one more waits. -/
def phUnblock (v n : Nat) : Nat := setFld v 95 80 (phBlocked v - n)
def phBlock (v : Nat) : Nat := setFld v 95 80 (phBlocked v + 1)

/-! Handles (11 R183). -/

/-- The place that a handle names, or the cause of the lowest code. -/
def State.phPlace (s : State) (team : Nat) (h : DWord) : Except Cause Place :=
  let x := h.toNat
  let sp := fld x 63 62
  let addr := fld x 49 0
  let zero := fld x 61 50 ≠ 0 ∨ sp = 3 ∨ (sp = 1 ∧ fld x 49 20 ≠ 0) ∨ (sp = 2 ∧ fld x 49 24 ≠ 0)
  let at_ (code aux : Nat) : Cause := { code := code, addr := BitVec.ofNat 64 addr, aux := BitVec.ofNat 32 aux }
  if addr % 32 ≠ 0 then .error (at_ 0x04 0)
  else
    let pl : Except Cause Place :=
      if sp = 1 then
        (if (s.team team).region 1 < fld x 19 0 + 32 then .error (at_ 0x06 4) else .ok (.loc team 1 (fld x 19 0)))
      else if sp = 2 then
        match s.placeOf team .cspad (fld x 23 0) 32 32 with
        | .ok p => .ok p
        | .error _ => .error (at_ 0x06 5)
      else .ok (.glb addr)
    match pl with
    | .error c => .error c
    | .ok p => if zero then .error { code := 0x09 } else .ok p

/-- The handle operand's place; none after a poisoned register. -/
def rdPhaser (s : State) (team : Nat) (h : DWord) : LaneM (Option Place) := do
  let p ← isPoi
  if p then return none
  else match s.phPlace team h with
    | .ok p => return some p
    | .error c => laneStop (.trap c)

/-- What a phaser operation waits for before it is sent. -/
def phReady (release : Bool) : LaneM Unit := do
  noRunAhead
  let t ← getTh
  if !t.acqPending.isEmpty || (release && !t.quiet) then laneStop .block

/-- A predicate to be written has no write on its way. -/
def predFree (p : Guard) : LaneM Unit := do
  let t ← getTh
  if !t.clear true p.val then laneStop .block

/-! The object at its home. -/

/-- The phaser's bytes and location; none where its sector is poisoned. -/
def State.readPh (s : State) (tid : Nat) (pl : Place) (hs : List Hit) : Option Nat × PhLoc × State :=
  match pl, hs with
  | .glb va, (pa, e) :: _ =>
    let w := s.whoT tid
    let comp := leafComp e.leaf % 8
    let s := s.recallLine w.first (pa / 64)
    let (g, s) := s.homeRead w.first (pa / 64) w.ctx comp true 0 va
    (if g.poison &&& sectorsOf (byteMask (pa % 64) 32) ≠ 0 then none else some (lineGet g.data (pa % 64) 32), .glb pa, s)
  | .loc u sp off, _ => (if (s.team u).poisonedAt sp off 32 then none else some ((s.team u).readLocal sp off 32), .spad u off, s)
  | .glb va, [] => (none, .glb va, s)

def State.writePh (s : State) (tid : Nat) (pl : Place) (hs : List Hit) (v : Nat) : State :=
  match pl, hs with
  | .glb _, (pa, e) :: _ =>
    let w := s.whoT tid
    let s := s.homeWrite w.first (pa / 64) w.ctx (leafComp e.leaf % 8) (lineAt (pa % 64) 32 v) (byteMask (pa % 64) 32) 0 false
    if isHostPa pa then s.toMemoryNow w.first (pa / 64) else s
  | .loc u sp off, _ => s.modTeam u (fun t => t.writeLocal sp off 32 v)
  | .glb _, [] => s

/-- Threads released from a phaser; each release is an acquire at the phaser's scope (03 R71). -/
def State.wakePhaser (s : State) (ts : List Nat) (dropped : Bool) (kind : Nat) : State :=
  ts.foldl (fun s t => s.acquireAt (s.whoT t) (kindScope kind)) (s.releasePhaser ts dropped)

/-- A completed phase releases its waiters: the phaser as it is then stored. -/
def State.phComplete (s : State) (tid : Nat) (pl : Place) (hs : List Hit) (loc : PhLoc) (v : Nat) : State :=
  let ts := s.phaserWaiters loc false (phPhase v)
  (s.writePh tid pl hs (phUnblock v ts.length)).wakePhaser ts false (phKind v)

/-- A phaser operation of one lane: OUTSIDE, poison, the checks of 03 R69, then `act` on the object; none there is trap 0x09. -/
def State.phOne (s : State) (tid : Nat) (pl : Option Place) (ls : LaneSt) (hs : List Hit) (checked : Bool)
    (act : State → Place → PhLoc → Nat → Option State) : State :=
  match pl with
  | none => s.commitLane tid ls
  | some pl =>
    let s := match pl with
      | .glb _ => s.setOutside tid
      | _ => s
    let trap (s : State) : State := s.takeTrap tid { code := 0x09 } s.cur.pc s.cur.pc
    let (o, loc, s) := s.readPh tid pl hs
    match o with
    | none =>
      let pc := s.cur.pc
      let (unit, va) := match pl with
        | .glb va => (1, va)
        | .loc _ _ off => (4, off)
      let pa := match pl, hs with
        | .glb _, (pa, _) :: _ => pa
        | _, _ => 0
      (s.commitLane tid { ls with poi := false }).consume tid unit va pa
        (fun s => s.defer tid { code := 0x0D, addr := BitVec.ofNat 64 va } pc)
    | some v =>
      if checked && !s.phOk (teamOf (gidOf tid)) pl v then trap s
      else match act s pl loc v with
      | some s => s
      | none => trap s

/-- A phaser instruction over the set. -/
def State.phSet {α : Type} (s : State) (g : Guard) (us : List Use) (k : AccK) (place : α → Option Place) (body : State → Nat → LaneM α)
    (act : State → Nat → α → LaneSt → List Hit → State) : State :=
  s.memSet {
    g := g, us := us
    stat := fun _ => none
    body := fun tid => body s (teamOf (gidOf tid))
    pages := fun _ _ r => placePages k (place r)
    ra := fun s _ _ _ => s
    act := fun s tid x ls hs => (act s tid x ls hs, none)
    clear := fun s tid hs => (s.laneClear tid hs, s)
    ordered := true }

/-! phreg, phdereg (11 R184). -/

def phRegOp (up : Bool) (g : Guard) (role : PhRole) (a : Operand) (s : State) : Host.Outcome State Fault Refusal :=
  .next (s.phSet g [src a] .both id (fun s team => do phReady false; let h ← rd2 a; rdPhaser s team h)
    (fun s tid pl ls hs => s.phOne tid pl ls hs true (fun s pl _ v =>
      (phRegister v role (if up then 1 else -1)).map (fun u => (s.writePh tid pl hs u).commitLane tid ls))))

def execPhreg (g : Guard) (role : PhRole) (a : Operand) (s : State) : Host.Outcome State Fault Refusal := phRegOp true g role a s
def execPhdereg (g : Guard) (role : PhRole) (a : Operand) (s : State) : Host.Outcome State Fault Refusal := phRegOp false g role a s

/-! ph (11 R185-R187). Every form but the wait forms completes as it acts, so that L bounds nothing (05 R100). -/

/-- The image that init writes. -/
def phImage (kind : Nat) : Nat := 2 ^ 128 + kind * 2 ^ 130

/-- The checks of init (11 R186). -/
def phInitOk (pl : Place) (v : Nat) (d : Word) : Bool :=
  let live := fld v 128 128 == 1 && fld v 129 129 == 0 &&
    (phNsig v != 0 || phNwait v != 0 || phDsig v != 0 || phDwait v != 0 || phBlocked v != 0)
  let glb := match pl with | .glb _ => true | _ => false
  !live && decide (d.toNat < 3) && (d.toNat == 2) == glb

def execPhInit (g : Guard) (l : Fin 16) (d a : Operand) (s : State) : Host.Outcome State Fault Refusal :=
  let _ := l
  .next (s.phSet g [src a, src d] .both (·.2) (fun s team => do
      phReady false
      let h ← rd2 a
      let k ← rd1 d
      let pl ← rdPhaser s team h
      return (k, pl))
    (fun s tid r ls hs => s.phOne tid r.2 ls hs false (fun s pl _ v =>
      if phInitOk pl v r.1 then some ((s.writePh tid pl hs (phImage r.1.toNat)).commitLane tid ls) else none)))

/-- The arriving thread's stores are released at the phaser's scope (03 R71). -/
def State.phRelease (s : State) (tid kind : Nat) : State := (s.releaseAt (s.whoT tid) (kindScope kind)).getD s

/-- The lane's result register takes the phase read. -/
def putPhase (loc : Loc) (v : Word) (ls : LaneSt) : LaneSt :=
  match loc with
  | .reg n => { ls with th := ls.th.putReg n v false }
  | .queue k => { ls with th := { ls.th with qs := ls.th.qs ++ [{ k := k, id := 0, val := some (v.zeroExtend 64) }] } }

def execPhArrive (g : Guard) (l : Fin 16) (d a : Operand) (s : State) : Host.Outcome State Fault Refusal :=
  let _ := l
  .next (s.phSet g [src a, dst d] .both (·.2) (fun s team => do
      phReady true
      let h ← rd2 a
      let pl ← rdPhaser s team h
      let loc ← locate d 1 .dst
      destFree loc 1
      if pl.isNone then put1 loc 0
      return (loc, pl))
    (fun s tid r ls hs => s.phOne tid r.2 ls hs true (fun s pl loc v =>
      (phArrival v).map (fun u =>
        let s := (s.phRelease tid (phKind v)).commitLane tid (putPhase r.1 (phPhase v) ls)
        if u.2 then s.phComplete tid pl hs loc u.1 else s.writePh tid pl hs u.1))))

/-- The thread waits on the phaser for a change from a phase. -/
def State.phWaitOn (s : State) (tid : Nat) (ls : LaneSt) (loc : PhLoc) (phase : Word) (p : Guard) : State :=
  (s.modThread tid (fun _ => ls.th)).waitAll [tid] (.phaser loc phase p.val)

/-- A phaser without waiters traps before the arrival, which then does not take place; the spec leaves the order of
the two open (DESIGN CHOICE, log 72). -/
def execPhArrwait (g : Guard) (l : Fin 16) (p : Guard) (a : Operand) (s : State) : Host.Outcome State Fault Refusal :=
  let _ := l
  .next (s.phSet g [src a] .both id (fun s team => do phReady true; predFree p; let h ← rd2 a; rdPhaser s team h)
    (fun s tid pl ls hs => s.phOne tid pl ls hs true (fun s pl loc v =>
      if phNwait v = 0 then none
      else (phArrival v).map (fun u =>
        let s := s.phRelease tid (phKind v)
        if u.2 then
          let s := s.commitLane tid { ls with th := ls.th.setPred p.val false }
          (s.phComplete tid pl hs loc u.1).acquireAt (s.whoT tid) (kindScope (phKind v))
        else (s.writePh tid pl hs (phBlock u.1)).phWaitOn tid ls loc (phPhase v) p))))

def execPhWait (g : Guard) (l : Fin 16) (p : Guard) (a : Operand) (s : State) : Host.Outcome State Fault Refusal :=
  let _ := l
  .next (s.phSet g [src a] .both id (fun s team => do phReady false; predFree p; let h ← rd2 a; rdPhaser s team h)
    (fun s tid pl ls hs => s.phOne tid pl ls hs true (fun s pl loc v =>
      if phNwait v = 0 then none else some ((s.writePh tid pl hs (phBlock v)).phWaitOn tid ls loc (phPhase v) p))))

/-- The handle and the phase of a test: registers A to A+2 of its quad; A+3 is ignored (11 R185). -/
def rdLow3 (a : Operand) : LaneM (List Word) :=
  match a with
  | .v n => readMany n.val 3
  | .x k => do let n ← idxAccess k.val 4 .src; readMany n 3
  | _ => return [0, 0, 0]

def execPhTest (g : Guard) (l : Fin 16) (p : Guard) (a : Operand) (s : State) : Host.Outcome State Fault Refusal :=
  let _ := l
  .next (s.phSet g [src a] .read (·.2) (fun s team => do
      phReady false
      predFree p
      let ws ← rdLow3 a
      let pl ← rdPhaser s team ((ws.getD 1 0) ++ (ws.getD 0 0))
      if pl.isNone then writePred p.val false
      return (ws.getD 2 0, pl))
    (fun s tid r ls hs => s.phOne tid r.2 ls hs true (fun s _ _ v =>
      let passed := decide (phPhase v ≠ r.1)
      let s := s.commitLane tid { ls with th := ls.th.setPred p.val passed }
      some (if passed then s.acquireAt (s.whoT tid) (kindScope (phKind v)) else s))))

def execPhDrop (g : Guard) (l : Fin 16) (a : Operand) (s : State) : Host.Outcome State Fault Refusal :=
  let _ := l
  .next (s.phSet g [src a] .both id (fun s team => do phReady false; let h ← rd2 a; rdPhaser s team h)
    (fun s tid pl ls hs => s.phOne tid pl ls hs true (fun s pl loc v =>
      let s := s.commitLane tid ls
      let ts := s.phaserWaiters loc true 0
      some ((s.writePh tid pl hs (phUnblock (setFld v 129 129 1) ts.length)).wakePhaser ts true (phKind v)))))

end Sys2Proof.Machine
end

