-- ==== Sys2Proof/Machine/Place.lean ====
section
/-! DEFINITION. The core mesh (01 R16, R17), the capacity of cores (03 R42, 01 R28) and what is taken of it, and rectangles
(21 R334-R336). -/

namespace Sys2Proof.Machine

/-! The mesh. -/

/-- Block row of a slice. -/
def sliceRow (i : Nat) : Nat := if i / 3 % 2 = 0 then i % 3 else 2 - i % 3

/-- Mesh stop of a core: X and Y. -/
def coreStop (c : Nat) : Nat × Nat :=
  let i := coreSlice c
  let k := corePos c
  let ly := k / 4
  let lx := if ly % 2 = 0 then k % 4 else 3 - k % 4
  (4 * (i / 3) + lx, 4 * sliceRow i + ly)

/-- The core position at a mesh stop. -/
def stopCore (x y : Nat) : Nat :=
  let c := x / 4
  let r := y / 4
  let i := 3 * c + (if c % 2 = 0 then r else 2 - r)
  let ly := y % 4
  coreKey i (4 * ly + (if ly % 2 = 0 then x % 4 else 3 - x % 4))

/-- The cores of a w × h rectangle with its origin at 16 × Y + X, in row-major order. -/
def rectCores (origin w h : Nat) : List Nat :=
  (List.range h).flatMap (fun dy => (List.range w).map (fun dx => stopCore (origin % 16 + dx) (origin / 16 + dy)))

/-! Capacity. -/

def Sizes.add (a b : Sizes) : Sizes :=
  { spad := a.spad + b.spad, wbuf := a.wbuf + b.wbuf, abuf := a.abuf + b.abuf, cbuf := a.cbuf + b.cbuf }
def Sizes.sub (a b : Sizes) : Sizes :=
  { spad := a.spad - b.spad, wbuf := a.wbuf - b.wbuf, abuf := a.abuf - b.abuf, cbuf := a.cbuf - b.cbuf }
def Sizes.min (a b : Sizes) : Sizes :=
  { spad := Nat.min a.spad b.spad, wbuf := Nat.min a.wbuf b.wbuf, abuf := Nat.min a.abuf b.abuf, cbuf := Nat.min a.cbuf b.cbuf }
def Sizes.le (a b : Sizes) : Bool :=
  decide (a.spad ≤ b.spad) && decide (a.wbuf ≤ b.wbuf) && decide (a.abuf ≤ b.abuf) && decide (a.cbuf ≤ b.cbuf)

def Cap.add (a b : Cap) : Cap := { groups := a.groups + b.groups, regs := a.regs + b.regs, sizes := a.sizes.add b.sizes }
def Cap.sub (a b : Cap) : Cap := { groups := a.groups - b.groups, regs := a.regs - b.regs, sizes := a.sizes.sub b.sizes }
def Cap.min (a b : Cap) : Cap := { groups := Nat.min a.groups b.groups, regs := Nat.min a.regs b.regs, sizes := a.sizes.min b.sizes }
def Cap.le (a b : Cap) : Bool := decide (a.groups ≤ b.groups) && decide (a.regs ≤ b.regs) && a.sizes.le b.sizes

/-- The whole capacity of a core (03 R42, 01 R28). -/
def coreCap (wide : Bool) : Cap :=
  let m := if wide then 2 else 1
  { groups := 64 * m, regs := 262144 * m,
    sizes := { spad := 524288 * m, wbuf := 1048576 * m, abuf := 524288 * m, cbuf := 524288 * m } }

/-- What `n` groups of a register count and a team's local stores take. -/
def capOf (n nregs : Nat) (sz : Sizes) : Cap := { groups := n, regs := n * 32 * nregs, sizes := sz }

/-- Groups that a team holds: live ones and those whose bins are reserved. -/
def State.groupsHeld (s : State) (t : Nat) : Nat :=
  (s.groupsOf t).length + ((s.core (s.team t).core).bins.filter (fun b => b.team = t)).length + (s.team t).carried.length

/-- What a team takes on its core, or will take on a migration's destination. -/
def State.teamCap (s : State) (t : Nat) : Cap := capOf (s.groupsHeld t) (s.team t).nregs (s.team t).sizes

/-- Capacity taken on a core by its teams, their bins and migrations on their way to it. -/
def State.usedCap (s : State) (c : Nat) : Cap :=
  s.teams.foldl (fun (a : Cap) e =>
    let stands := decide (e.2.core = c) && (match e.2.state with | .saved _ _ => false | _ => true)
    let comes := match e.2.mig with | some m => decide (m.dest = c) | none => false
    let a := if stands then a.add (s.teamCap e.1) else a
    if comes then a.add (s.teamCap e.1) else a) {}

def State.capFree (s : State) (c : Nat) : Cap := (coreCap (s.core c).wide).sub (s.usedCap c)

/-- Spawn bins on their way to a core with teams that move there. -/
def State.binsComing (s : State) (c : Nat) : Nat :=
  s.teams.foldl (fun n e => n + (match e.2.mig with
    | some m => if m.dest = c then (s.core e.2.core).bins.countP (fun b => b.team = e.1) else 0
    | none => 0)) 0

/-- Spawn bins free on a core. -/
def State.freeBins (s : State) (c : Nat) : Nat := 64 - ((s.core c).bins.length + s.binsComing c)

/-- Capacity reserved on a core for clusters other than `cl` (21 R335). -/
def State.heldByOthers (s : State) (c : Nat) (cl : Option Nat) : Cap :=
  s.clusters.foldl (fun (a : Cap) e => if cl = some e.1 then a else a.add ((spGet e.2.held c).getD {})) {}

/-- Free capacity open to cluster `cl`, or to work of none. -/
def State.openCap (s : State) (c : Nat) (cl : Option Nat) : Cap := (s.capFree c).sub (s.heldByOthers c cl)

/-- A closed rectangle of an earlier launch keeps work of `grid` from a core (21 R336). -/
def State.closedFor (s : State) (c grid : Nat) : Bool :=
  s.clusters.any (fun e => e.2.closed && (match e.2.chosen with
    | some (o, _) => (rectCores o e.2.w e.2.h).contains c
    | none => false) && decide ((s.grid e.2.grid).passedAt < (s.grid grid).passedAt))

/-! Slots and numbers that the spec leaves to the device are drawn among the free ones (log 2). -/

def State.pick (s : State) (l : List Nat) : Nat × State :=
  let (k, s) := s.draw
  (l.getD ((Config.freeValue k).toNat % l.length) 0, s)

/-- Group slots of a core that no group holds. -/
def State.freeSlots (s : State) (c : Nat) : List Nat :=
  let taken := (s.groups.filter (fun e => decide ((s.team e.2.team).core = c))).map (·.2.slot) ++ (s.core c).bins.map (·.slot)
  (List.range (coreCap (s.core c).wide).groups).filter (fun n => !taken.contains n)

/-- A thread as it starts (21 R331; 03 R62, R67): entry, arguments in v0-v7, everything else zero; its first instruction acquires at `sc`. -/
def startThread (entry : Word) (args : List Word) (clock : Nat) (sc : Scope) : Thread :=
  let regs : Sp Word := ((List.range 8).map (fun i => (i, args.getD i 0))).filter (fun e => e.2 ≠ 0)
  { pc := entry, regs := regs, since := clock, startAcq := some sc }

/-- Logical slice and core numbers of a core in its partition (21 R338). -/
def State.slicelogOf (s : State) (c : Nat) : Nat := coreSlice c - s.first (coreSlice c)

end Sys2Proof.Machine
end

