-- ==== Sys2Proof/Machine/Spawn.lean ====
section
/-! DEFINITION. Spawns: entry checks, bins, bin teams and the task queue (03 R62-R67; 11 R180). -/

namespace Sys2Proof.Machine

/-- The entry-table row of a spawn entry; a kernel entry is listed too (03 R62). -/
def State.entryRow (s : State) (c : Nat) (entry : Word) : Option EntryRow := (s.ctx c).entries.find? (fun e => e.entry = entry)

/-! Bins (03 R63-R65). -/

/-- A bin launches its group: lanes 0, 1, 2, … in the order of entry; the bin is then free. A child's first instruction acquires what its
parent released, at partition scope, since the bin team lies outside the parent's cluster (03 R67). -/
def State.launchBin (s : State) (core no : Nat) : State :=
  match (s.core core).bins.find? (fun b => b.no = no) with
  | none => s
  | some b =>
    let t := s.team b.team
    let gid := groupKey b.team t.nextGroup
    let n := b.kids.length
    let g : Group := { team := b.team, idx := t.nextGroup, slot := b.slot, bin := some no, launched := n,
                       masks := spWrite 0 [] 0 (BitVec.ofNat 32 (2 ^ n - 1)) }
    let s := s.modCore core (fun (c : Core) => { c with bins := c.bins.filter (fun x => x.no ≠ no) })
    let s := s.setGroup gid g
    let s := s.modTeam b.team (fun (x : Team) => { x with nextGroup := x.nextGroup + 1 })
    (List.range n).foldl (fun (s : State) i =>
      match b.kids[i]? with
      | none => s
      | some r =>
        let id := match r.ticketKey with
          | some (slice, key) => ((s.slice slice).tickets.find? (fun k => k.id = key)).map (·.id)
          | none => none
        let s := s.setThread (tidOf gid i) { startThread r.entry r.args s.clock .partition with ticket := id }
        match r.ticketKey with
        | some (slice, key) => s.modSlice slice (fun (v : Slice) =>
            { v with tickets := v.tickets.map (fun k => if k.id = key then { k with tid := some (tidOf gid i) } else k) })
        | none => s) s

/-- A record joins an open bin of its entry; the 32nd child launches the group in the same clock. -/
def State.joinBin (s : State) (core no : Nat) (r : SpawnRec) : State :=
  let s := s.modCore core (fun (c : Core) => { c with bins := c.bins.map (fun (b : Bin) =>
    if b.no = no then { b with kids := b.kids ++ [r], first := if b.kids.isEmpty then s.clock else b.first } else b) })
  match (s.core core).bins.find? (fun b => b.no = no) with
  | some b => if 32 ≤ b.kids.length then s.launchBin core no else s
  | none => s

/-- The youngest live bin team of an entry on a core. -/
def State.youngestBinTeam (s : State) (core c : Nat) (entry : Word) : Option Nat :=
  ((s.teamsOn core).filter (fun e => decide (e.2.ctx = c) && decide (e.2.binEntry = some entry))).foldl
    (fun (a : Option Nat) e => match a with
      | none => some e.1
      | some b => if b < e.1 then some e.1 else some b) none

/-- A bin allocated for an entry, with its slot, its registers and if need be a new bin team; none where it cannot be had. -/
def State.openBin (s : State) (core : Nat) (r : SpawnRec) (row : EntryRow) (quads : Bool) : Option (Nat × State) :=
  let x := s.core core
  let nos := (List.range 64).filter (fun n => x.bins.all (fun b => b.no ≠ n))
  let free := s.openCap core none
  let group := capOf 1 row.nregs {}
  let full := capOf 1 row.nregs { spad := 16 * row.binspad }
  -- a team that is to move grows only where its destination takes the group and the bin too (21 R343)
  let grows (t : Nat) : Bool := match (s.team t).mig with
    | some m => group.le (s.openCap m.dest none) && decide (0 < s.freeBins m.dest)
    | none => true
  let old := (s.youngestBinTeam core r.ctx r.entry).filter (fun t => s.groupsHeld t < (coreCap x.wide).groups && grows t)
  if decide (s.freeBins core = 0) || !x.present || x.inPass || decide (x.lease.st ≠ 0) || s.closedFor core r.grid then none
  else if !(match old with | some _ => group.le free | none => full.le free) then none
  else
    let (no, s) := s.pick nos
    let (slot, s) := s.pick (s.freeSlots core)
    let (team, s) := match old with
      | some t => (t, s)
      | none =>
        let (cl, s) := s.fresh
        let (t, s) := s.fresh
        let k : Cluster := { grid := r.grid, ctx := r.ctx, idx := 0xFFFFFFFF, bin := true, teams := [t], state := .running }
        let n : Team := { cluster := cl, grid := r.grid, ctx := r.ctx, core := core, corelog := 16 * s.slicelogOf core + corePos core,
                          slicelog := s.slicelogOf core, nregs := row.nregs, sizes := { spad := 16 * row.binspad },
                          binEntry := some r.entry }
        (t, (s.setCluster cl k).setTeam t n)
    let b : Bin := { no := no, entry := r.entry, ctx := r.ctx, team := team, slot := slot, first := s.clock, kids := [], quads := quads }
    some (no, s.modCore core (fun (c : Core) => { c with bins := c.bins ++ [b] }))

/-- A record routed on a core by 03 R63; none where it must wait. -/
def State.tryBin (s : State) (core : Nat) (r : SpawnRec) : Option State :=
  let quads := r.quad
  match s.entryRow r.ctx r.entry with
  | none => some s
  | some row =>
    match (s.core core).bins.find? (fun b => b.entry = r.entry && b.ctx = r.ctx && b.quads = quads && b.kids.length < 32) with
    | some b => some (s.joinBin core b.no r)
    | none => (s.openBin core r row quads).map (fun (no, s) => s.joinBin core no r)

/-- A spawn on a core: routed at once, unless records for its entry wait there already. -/
def State.spawnOn (s : State) (core : Nat) (r : SpawnRec) : Option State :=
  if (s.core core).spawnQ.any (fun q => q.entry = r.entry && q.ctx = r.ctx) then none else s.tryBin core r

def State.queueSpawn (s : State) (core : Nat) (r : SpawnRec) : State :=
  s.modCore core (fun (c : Core) => { c with spawnQ := c.spawnQ ++ [r] })

/-- The core that owns an address (03 R66). -/
def State.ownerCore (s : State) (f a : Nat) : Option Nat :=
  let h := Nat.xor (Nat.xor (Nat.xor (Nat.xor (fld a 19 12) (fld a 27 20)) (fld a 35 28)) (fld a 43 36)) (fld a 49 44)
  let cs := s.partCores f
  if cs.isEmpty then none else cs[h % cs.length]?

/-! spawn and spawnh (11 R180). -/

/-- The entry that a member's B names is not in the entry table; a register beyond the allocation is another cause (05 R91). -/
def State.entryBad (s : State) (tid nregs : Nat) (b : Operand) : Bool :=
  match (s.thread tid).handle nregs b 0 with
  | some e => (s.entryRow (s.ctxOfT tid) e).isNone
  | none => false

/-- The register of B is not being written. -/
def entryReady (t : Thread) (b : Operand) : Bool :=
  match b with
  | .v n => t.clear false n.val
  | _ => true

def spawnBody (a b : Operand) : LaneM (Word × List Word) := do
  noRunAhead
  let args ← rdN a 8
  let e ← rd1 b
  let p ← isPoi
  return (if p then 0xFFFFFFFF else e, args)

/-- A record handed to its bins, or to the task queue; none where it must wait. Before it goes the bytes that the parent's cluster has
written reach their homes, since the child stands in the parent's cluster instance or partition (03 R66, R67). -/
def State.sendSpawn (s : State) (core : Nat) (r : SpawnRec) (waited : Bool) : Option State :=
  let s := match r.parent with
    | some t => (s.releaseAt (s.whoT t) .partition).getD s
    | none => s
  let x : SpawnRec := { r with parent := none, hw := false, raster := none }
  if !r.hw then (if waited then s.tryBin core x else s.spawnOn core x)
  else
    let f := ctxFirst r.ctx
    let q := (s.slice f).taskq
    match s.ownerCore f (((r.args.getD 1 0) ++ (r.args.getD 0 0) : DWord).toNat) with
    | some c => if 4096 * s.psize f ≤ q.length then none
        else some (s.modSlice f (fun (v : Slice) => { v with taskq := v.taskq ++ [{ core := c, srec := x }] }))
    | none => none

/-- One lane's record sent. It waits until the lane's LDC and STC are zero, and behind a lower lane of the set that waits (11 R180). -/
def State.spawnLane (s : State) (hw : Bool) (tid : Nat) (e : Word) (args : List Word) (l : LaneSt) : State :=
  if l.poi then s.commitLane tid l
  else
    let t := s.teamOfT tid
    let r : SpawnRec := { entry := e, args := args, grid := t.grid, ctx := t.ctx, parent := some tid, hw := hw }
    let behind := (s.core t.core).spawnQ.any (fun q => (q.parent.map s.cur.tids.contains).getD false)
    let s := s.setOutside tid
    match (if behind || !l.th.quiet then none else s.sendSpawn t.core r false) with
    | some s => s.commitLane tid l
    | none => ((s.modThread tid (fun _ => l.th)).waitAll [tid] .spawn).queueSpawn t.core r

/-- The instruction over its set: each member's entry is checked whatever its guard. -/
def State.spawnSet (s : State) (hw : Bool) (g : Guard) (a b : Operand) : State :=
  let (s, traps) := s.members.foldl (fun (acc : State × List (Nat × Cause)) tid =>
    let (s, tr) := acc
    let t := s.thread tid
    let env := s.laneEnv (gidOf tid)
    if !entryReady t b && !env.ra then (s.retryAll [tid], tr)
    else match laneRunX env g.val [src a, src b] (if s.entryBad tid env.nregs b then some { code := 0x02 } else none) (spawnBody a b) t with
    | .skip => (s.passAll [tid], tr)
    | .ran r l => (s.spawnLane hw tid r.1 r.2 l, tr)
    | .trap c => (s, tr ++ [(tid, c)])
    | .block => (s.retryAll [tid], tr)
    | .raEnd => (s.endRunAhead [tid], tr)) (s, [])
  s.trapMembers traps

def execSpawn (g : Guard) (a b : Operand) (s : State) : Host.Outcome State Fault Refusal := .next (s.spawnSet false g a b)
def execSpawnh (g : Guard) (a b : Operand) (s : State) : Host.Outcome State Fault Refusal := .next (s.spawnSet true g a b)

/-! Events. -/

/-- BIN_TIMER_EXPIRY: BINTIME clocks after a bin's first child its group launches; BINTIME 0 acts as 1. -/
def execBinTimerExpiry (core bin : Nat) (s : State) : Host.Outcome State Fault Refusal :=
  .next (match (s.core core).bins.find? (fun b => b.no = bin) with
  | none => s
  | some b =>
    if !b.kids.isEmpty && decide (b.first + Nat.max 1 (s.ctx b.ctx).ctl.bintime.toNat ≤ s.clock) then s.launchBin core bin else s)

/-- SPAWN_WAIT_SERVED: the record that has waited longest on the core goes, once its thread has no access under way, and the thread goes on;
the four of a quad go together (19 R307). -/
def execSpawnWaitServed (core : Nat) (s : State) : Host.Outcome State Fault Refusal :=
  .next (match (s.core core).spawnQ with
  | [] => s
  | r :: rest =>
    let stands := (r.parent.map (fun t => (s.group (gidOf t)).halt.isSome)).getD false
    if stands || !((r.parent.bind s.realThread).map Thread.quiet).getD true then s
    else
      let (now, rest) := if r.quad then ((r :: rest).take 4, rest.drop 3) else ([r], rest)
      match now.foldl (fun (o : Option State) r => o.bind (fun s => s.sendSpawn core r true)) (some s) with
      | none => s
      | some s =>
        let s := s.modCore core (fun (c : Core) => { c with spawnQ := rest })
        match r.parent with
        | some t => s.modReal t (fun x => if x.wait = .spawn then x.leaveWait s.clock else x)
        | none => s)

/-- TASK_QUEUE_DELIVERY: the oldest record of the partition's task queue reaches its core and is handled as a spawn. -/
def execTaskQueueDelivery (part : Nat) (s : State) : Host.Outcome State Fault Refusal :=
  .next (match (s.slice part).taskq with
  | [] => s
  | r :: rest =>
    let s := s.modSlice part (fun (v : Slice) => { v with taskq := rest })
    match s.spawnOn r.core r.srec with
    | some s => s
    | none => s.queueSpawn r.core r.srec)

end Sys2Proof.Machine
end

