-- ==== Sys2Proof/Machine/Queue.lean ====
section
/-! DEFINITION. Queue bindings (11 R188-R190) and migration points (11 R196; 21 R343). -/

namespace Sys2Proof.Machine

/-- Queue `k` holds an entry in some lane of the group, or results wait to be pushed to it (17 R281). -/
def State.queueUsed (s : State) (gid k : Nat) : Bool :=
  (s.threadsOfGroup gid).any (fun e => decide (0 < e.2.qLen k)) || (s.group gid).results.any (fun e => e.2.1 == k)

/-- A port descriptor with a reserved KIND or a non-zero bit in a zero field. -/
def portBad (a : Word) : Bool :=
  let n := a.toNat
  decide (3 ≤ fld n 3 0) || (fld n 3 0 != 1 && fld n 6 4 != 0) || fld n 31 7 != 0

/-- A handle cause of a uniform instruction found in its body: every member traps; in run-ahead it ends (00 R13). -/
def State.uniformTrap {α : Type} (s : State) (u : Led α) (code : Nat) : State :=
  if (s.group u.gid).inRa then s.endRunAhead u.members else s.trapMembers (u.members.map (fun t => (t, { code := code })))

/-- A bound queue with entries may not be bound anew. -/
def State.bindHeld (s : State) (gid k : Nat) : Bool := (spGet (s.group gid).binds k).isSome && s.queueUsed gid k

/-- qbind: a bad descriptor, or a bound queue with entries, raises 0x0A in every member whatever the guard (00 R13; 11 R166). A descriptor
popped from a queue is looked at where a lane is active. -/
def execQbind (g : Guard) (k : Fin 8) (a : Operand) (s : State) : Host.Outcome State Fault Refusal :=
  .next ((groupsIn s.members).foldl (fun s gid =>
    let bad (v : Word) : Bool := portBad v || s.bindHeld gid k.val
    s.uniformHandled g [src a]
      (fun t => if s.bindHeld gid k.val || ((t.handle (s.laneEnv gid).nregs a 0).map bad).getD false then some { code := 0x0A } else none)
      (rd1 a)
      (fun s u =>
        let v := if u.poi || u.unk then 0 else u.val
        if bad v then s.uniformTrap u 0x0A
        else
          let b : QBind := { kind := fld v.toNat 3 0, chan := fld v.toNat 6 4 }
          (s.modGroup gid (fun x => { x with binds := spPut x.binds k.val b })).passAll u.members) gid) s)

/-- Entries of a copy-channel queue that the channel has not taken, those reserved for results on their way among them. -/
def State.untaken (s : State) (gid k : Nat) : Bool :=
  (s.core (s.team (teamOf gid)).core).pushes.any (fun p => gidOf p.tid = gid && p.k = k) || s.queueUsed gid k

/-- qfree: an unbound queue raises 0x02, one of KIND 0 or 2 that holds entries 0x0A, whatever the guard. -/
def execQfree (g : Guard) (k : Fin 8) (s : State) : Host.Outcome State Fault Refusal :=
  .next ((groupsIn s.members).foldl (fun s gid =>
    let kind : Option Nat := (spGet (s.group gid).binds k.val).map (·.kind)
    let cause : Option Cause := match kind with
      | none => some { code := 0x02 }
      | some n => if n ≠ 1 ∧ s.queueUsed gid k.val = true then some { code := 0x0A } else none
    s.uniformHandled g [] (fun _ => cause)
      (do
        let env ← getEnv
        if !env.ra && kind = some 1 && s.untaken gid k.val then laneStop .block)
      (fun s u => (s.modGroup gid (fun x => { x with binds := spDel x.binds k.val })).passAll u.members) gid) s)

/-- migpt: with a migration request pending on its team a thread waits here until the stop is taken. -/
def execMigpt (g : Guard) (s : State) : Host.Outcome State Fault Refusal :=
  let s1 := s.perLane g [] (fun _ => return ()) (fun s tid _ l =>
    match (s.teamOfT tid).mig with
    | none => s.commitLane tid l
    | some _ => if (s.group (gidOf tid)).inRa then s.endRunAhead [tid] else s.waitAll [tid] .migpt)
  .next ((teamsIn s.members).foldl (fun s t => s.migCheck t) s1)

end Sys2Proof.Machine
end

