-- ==== Sys2Proof/Machine/Engine.lean ====
section
/-! DEFINITION. What the engines of a core share: their translation and reads (17 R265; 23 R362; 29 R432; 25 R373, R379), footprints
and the order of jobs (13 R228-R231), stamps of ASSURE (25 R387), the records of the matrix arrays and copies, and their checks
(17 R256-R263, R272). -/

namespace Sys2Proof.Machine

/-! Translation and reads. -/

/-- What an engine finds of a page. -/
inductive EngPage where
  | ok (pa : Nat) (leaf : DWord)
  | fault (kind : Nat)
  | refused
  | cut
  | poison (pa : Nat)
deriving DecidableEq, Repr

/-- A translation by an engine acting for the context: A and D are set where `admits` lets the access through. An access that a link peer
answers with an error is cut off (01 R36). -/
def State.engPage (s : State) (c va : Nat) (k : AccK) (admits : DWord → Bool) : EngPage × State :=
  match s.walk c va with
  | (.done e, s) =>
    if s.peerError (e.pa va) then (.cut, s)
    else if admits e.leaf then
      let (e, s) := s.markLeaf e k.writes
      (.ok (e.pa va) e.leaf, s)
    else (.refused, s)
  | (.fault n, s) => (.fault n, s)
  | (.poison pa, s) => (.poison pa, s)
  | (.unbacked _, s) => (.cut, s)

/-- What a job has met: faults (one to a page, at most 32), the first failure with where it lies (unit of the error entry, virtual and
physical address), and poisoned sectors read as zeros. -/
structure Met where
  faults : List FRec := []
  fail : Option JobFail := none
  failAt : Nat × Nat × Nat := (9, 0, 0)
  subs : List (Nat × Nat) := []
  /-- 32-byte sectors of virtual memory that could not be read, by number -/
  bads : List Nat := []
deriving DecidableEq, Repr

def Met.addFault (m : Met) (va kind acc : Nat) (pc : Word) : Met :=
  if m.faults.any (fun r => r.va / 65536 = va / 65536) ∨ 32 ≤ m.faults.length then m
  else { m with faults := m.faults ++ [{ va := va, kind := kind, acc := acc, ra := false, pc := pc }] }
def Met.addFail (m : Met) (f : JobFail) (unit va pa : Nat) : Met :=
  if m.fail.isSome then m else { m with fail := some f, failAt := (unit, va, pa) }

/-- Nothing met that keeps the job from going on. -/
def Met.clean (m : Met) : Bool := m.faults.isEmpty && m.fail.isNone

/-- A page for a job; what stands in its way is noted. -/
def State.jobPage (s : State) (c va : Nat) (k : AccK) (admits : DWord → Bool) (pc : Word) (m : Met) :
    Option (Nat × DWord) × Met × State :=
  match s.engPage c va k admits with
  | (.ok pa leaf, s) => (some (pa, leaf), m, s)
  | (.fault n, s) => (none, m.addFault va n k.code pc, s)
  | (.refused, s) => (none, m.addFail .gate 9 va 0, s)
  | (.cut, s) => (none, m.addFail .cancelled 9 va 0, s)
  | (.poison pa, s) => (none, m.addFail .poison 9 va pa, s)

/-- How a job reads memory: on whose behalf, whether its core's own dirty bytes are merged, which pages it may use, its PC, and whether
it is a copy, to which poison on an ET page reads as zeros (25 R379). -/
structure Job where
  who : Who
  own : Bool
  admits : DWord → Bool
  pc : Word
  et : Bool := false

/-- The lines that some byte ranges touch, without repeats. -/
def linesOf (rs : List (Nat × Nat)) : List Nat :=
  rs.foldl (fun l r => if r.2 = 0 then l else unionNew l (upto (r.1 / 64) ((r.1 + r.2 - 1) / 64 + 1 - r.1 / 64))) []

/-- The bytes of a range that lie in a line, as a mask. -/
def maskIn (la : Nat) (r : Nat × Nat) : BitVec 64 :=
  let lo := Nat.max r.1 (64 * la)
  let hi := Nat.min (r.1 + r.2) (64 * la + 64)
  if hi ≤ lo then 0 else byteMask (lo - 64 * la) (hi - lo)

/-- The first byte of a line that the ranges touch: where a fault on it lies (23 R363). -/
def firstIn (la : Nat) (rs : List (Nat × Nat)) : Nat :=
  match (rs.filter (fun r => decide (maskIn la r ≠ 0))).map (fun r => Nat.max r.1 (64 * la)) with
  | [] => 64 * la
  | x :: l => l.foldl Nat.min x

/-- The lines of some virtual ranges as a job reads them, by virtual line number. A poisoned sector that the ranges touch fails the job,
but reads as zeros to a copy on an ET page. -/
def State.jobLines (s : State) (j : Job) (rs : List (Nat × Nat)) (m : Met) : Sp (BitVec 512) × Met × State :=
  (linesOf rs).foldl (fun (a : Sp (BitVec 512) × Met × State) la =>
    let (ls, m, s) := a
    let (p, m, s) := s.jobPage j.who.ctx (firstIn la rs) .read j.admits j.pc m
    match p with
    | none => (ls, { m with bads := m.bads ++ [2 * la, 2 * la + 1] }, s)
    | some (pa, leaf) =>
      let comp := leafComp leaf % 8
      let (g, s) := if j.own then s.readLine j.who (pa / 64) comp 4 true (firstIn la rs)
        else s.homeRead j.who.first (pa / 64) j.who.ctx comp true 0 (firstIn la rs)
      let touched := rs.foldl (fun (k : BitVec 64) r => k ||| maskIn la r) 0
      let hit := g.poison &&& sectorsOf touched
      let d := lineMerge g.data 0 (sectorBytes hit)
      let lo := firstIn la rs
      if hit = 0 then (spPut ls la d, m, s)
      else if j.et && leafEt leaf then (spPut ls la d, { m with subs := m.subs ++ sectorsMet hit lo pa }, s)
      else
        let up := if hit.getLsbD 0 then 0 else 64 * la + 32 - lo
        let bad := (if hit.getLsbD 0 then [2 * la] else []) ++ (if hit.getLsbD 1 then [2 * la + 1] else [])
        (spPut ls la d, { m.addFail .poison (if j.own then 3 else 1) (lo + up) (pa + up) with bads := m.bads ++ bad }, s)) ([], m, s)

/-- `n` bytes at a virtual address out of lines that were read. -/
def getBytes (ls : Sp (BitVec 512)) (va n : Nat) : Nat :=
  (upto (va / 64) ((va + n + 63) / 64 - va / 64)).foldl (fun v la =>
    let lo := Nat.max va (64 * la)
    let hi := Nat.min (va + n) (64 * la + 64)
    v + lineGet ((spGet ls la).getD 0) (lo - 64 * la) (hi - lo) * 2 ^ (8 * (lo - va))) 0

/-- One range read by a job. -/
def State.jobRead (s : State) (j : Job) (va n : Nat) (m : Met) : Nat × Met × State :=
  let (ls, m, s) := s.jobLines j [(va, n)] m
  (getBytes ls va n, m, s)

/-- The job of a thread's context on its core. -/
def State.jobOf (s : State) (tid : Nat) (own : Bool) (pc : Word) : Job :=
  let w := s.whoT tid
  { who := w, own := own, admits := fun leaf => s.permits w.ctx leaf .read, pc := pc }

/-! Footprints and order (13 R228-R231). -/

/-- The local store that a footprint names: spad is reached as spad or as cspad. -/
def Foot.store (a : Foot) : Nat := if a.space = 5 then 1 else a.space

def Foot.meets (a b : Foot) : Bool :=
  a.store == b.store && a.team == b.team && decide (a.base < b.base + b.len) && decide (b.base < a.base + a.len)

def footsMeet (xs ys : List Foot) : Bool := xs.any (fun a => ys.any (fun b => a.meets b))

/-- A job's scope, the widest over its footprint's spaces (13 R229). -/
def jobScope (fs : List Foot) : Scope :=
  if fs.any (fun f => f.space == 0) then .partition else if fs.any (fun f => f.space == 5) then .cluster else .team

/-- The jobs of a context that the threads of a core have pushed, accepted and not finished: acceptance number, reads, writes. -/
def State.jobsOn (s : State) (core c : Nat) : List (Nat × List Foot × List Foot) :=
  let x := s.core core
  let v := s.slice (coreSlice core)
  let here (gid : Nat) : Bool := decide ((s.team (teamOf gid)).core = core) && decide ((s.team (teamOf gid)).ctx = c)
  (x.copies.filter (fun j => s.ctxOfT j.tid = c)).map (fun j => (j.acc, j.reads, j.writes)) ++
  (x.mcmds.filter (fun m => decide (0 < m.acc) && decide ((s.team (teamOf m.gid)).ctx = c))).map (fun m => (m.acc, m.reads, m.writes)) ++
  (v.raster.filter (fun r => r.accepted && here r.gid)).map (fun r => (r.acc, r.reads, [])) ++
  ((v.streams.flatMap (fun e => e.2.tiles)).filter (fun r => !r.read && here r.gid)).map (fun r => (r.acc, r.reads, []))

/-- The edges of 13 R230 let a job begin: no earlier one that has not finished writes what it reads, or reads or writes what it writes. -/
def State.mayBegin (s : State) (core c acc : Nat) (reads writes : List Foot) : Bool :=
  (s.jobsOn core c).all (fun j => decide (acc ≤ j.1) || !(footsMeet reads j.2.2 || footsMeet writes j.2.1 || footsMeet writes j.2.2))

/-- The bytes of a store that is yet to be performed. -/
def Store.foot (st : Store) : Foot :=
  if isGlb st.space then { space := 0, team := 0, base := st.va, len := st.size }
  else { space := if st.space = .cspad then 1 else spaceNum st.space, team := st.team, base := st.pa, len := st.size }

/-- The push of a job with given reads is a release at the job's scope of the threads' stores to them: these are performed, and where it
reads glb the bytes of their cluster reach the homes (13 R231). None while such a store must wait. -/
def State.pushRelease (s : State) (ts : List Nat) (reads : List Foot) : Option State :=
  let mine (s : State) : List Store := s.stores.filter (fun st => ts.contains st.tid && !st.acted && reads.any st.foot.meets)
  let s := ((mine s).map (·.id)).foldl (fun (s : State) id => s.settleStore id) s
  if !(mine s).isEmpty then none
  else match ts.head? with
  | some t => if jobScope reads = .partition then s.releaseAt (s.whoT t) .partition else some s
  | none => some s

/-- The threads' own stores to a record that an engine reads for them are performed (17 R265); none while one must wait. -/
def State.ownStores (s : State) (ts : List Nat) (va n : Nat) : Option State :=
  let r : Foot := { space := 0, team := 0, base := va, len := n }
  let mine (s : State) : List Store := s.stores.filter (fun st => ts.contains st.tid && !st.acted && r.meets st.foot)
  let s := ((mine s).map (·.id)).foldl (fun (s : State) id => s.settleStore id) s
  if (mine s).isEmpty then some s else none

/-- The stamp of a context on a core is set at its first issue there (25 R387). -/
def State.stamp (s : State) (c core : Nat) : State :=
  if (spGet (s.ctx c).stamps core).isSome then s
  else s.modCtx c (fun x => { x with stamps := spPut x.stamps core (s.vtime c) })

/-! Copy records (17 R259-R263). -/

def tsrOf (v : Nat) : Tsr :=
  let rank := fld v 52 50
  let n := Nat.min rank 5
  let above (w lo k : Nat) : Bool := (List.range k).any (fun i => decide (n ≤ i + (5 - k)) && fld v (lo + w * i + w - 1) (lo + w * i) != 0)
  { base := fld v 49 0, rank := rank, esz := fld v 56 53, ovlr := fld v 57 57 == 1, mirrorEdge := fld v 58 58 == 1,
    mbz := fld v 63 59 != 0 || fld v 511 496 != 0 || above 32 64 5 || above 16 224 5 || above 48 304 4,
    ext := (List.range n).map (fun i => fld v (95 + 32 * i) (64 + 32 * i)),
    tile := (List.range n).map (fun i => fld v (239 + 16 * i) (224 + 16 * i)),
    str := (List.range (n - 1)).map (fun i => fld v (351 + 48 * i) (304 + 48 * i)) }

def tmplOf (v : Nat) : Tmpl :=
  let ts := fld v 58 56
  { recVa := fld v 49 0, dir := fld v 52 52 == 1, fe := fld v 53 53 == 1, phv := fld v 54 54 == 1, tsp := fld v 55 55 == 1,
    tilesp := ts, tbase := fld v 95 64, phaser := BitVec.ofNat 64 (fld v 191 128), gate := fld v 207 192,
    mbz := fld v 5 0 != 0 || fld v 51 50 != 0 || fld v 63 59 != 0 || (ts == 7 && fld v 95 79 != 0) || fld v 127 96 != 0 ||
      (fld v 54 54 == 0 && fld v 191 128 != 0) || fld v 255 208 != 0 }

/-- Element size in nibbles. -/
def Tsr.nibs (x : Tsr) : Nat := 2 ^ x.esz

/-- Stride of each dimension in nibbles. -/
def Tsr.steps (x : Tsr) : List Nat := x.nibs :: x.str.map (2 * ·)

/-- Reasons that a record alone meets (17 R272); `write` is a tensor written to, `loc` one in a local store. Rows 0x06 and 0x07 come before
the reserved ESZ of row 0x08: with one, STR0 counts as 2^ESZ nibbles in 0x06 and the last element as one nibble in 0x07 (DESIGN CHOICE,
log 69). -/
def tsrReasons (x : Tsr) (write loc : Bool) : List Nat :=
  let n := x.ext.length
  let ext (i : Nat) := x.ext.getD i 0
  let tile (i : Nat) := x.tile.getD i 0
  let step (i : Nat) := x.steps.getD i 0
  let esz := if x.esz < 5 then x.nibs else 1
  let top := 2 * x.base + (List.range n).foldl (fun a i => a + (ext i - 1) * step i) 0 + esz
  (if (List.range n).any (fun i => ext i = 0 || tile i = 0) then [0x01] else []) ++
  (if x.rank = 0 ∨ 5 < x.rank then [0x02] else []) ++
  (if x.esz < 5 ∧ (2 * x.base % esz ≠ 0 ∨ x.str.any (fun y => 2 * y % esz ≠ 0)) then [0x03] else []) ++
  (if (List.range n).any (fun i => decide (ext i < tile i)) then [0x05] else []) ++
  (if (!x.ovlr || write) && (upto 1 (n - 1)).any (fun i => decide (step i < step (i - 1) * ext (i - 1))) then [0x06] else []) ++
  (if (if loc then 2 * 2 ^ 32 else 2 * 2 ^ 50) < top then [0x07] else []) ++
  (if 5 ≤ x.esz ∨ x.mbz then [0x08] else []) ++
  (if x.esz = 0 ∧ tile 0 % 2 = 1 then [0x0E] else [])

/-- The paths of 17 R263. -/
def tmplPath (t : Tmpl) : Bool :=
  !(t.dir && t.fe) &&
  (if t.tsp then t.tilesp == 5
   else if t.dir then t.tilesp == 1 || t.tilesp == 4 || t.tilesp == 5
   else t.tilesp != 0 && t.tilesp != 6)

/-- Reasons that a template alone meets. -/
def tmplReasons (t : Tmpl) : List Nat :=
  let loc := if t.tilesp = 5 then t.tbase % 2 ^ 19 else t.tbase
  (if t.tilesp ≠ 0 ∧ t.tilesp < 6 ∧ loc % 16 ≠ 0 then [0x04] else []) ++
  (if t.tilesp = 0 ∨ t.tilesp = 6 ∨ t.mbz then [0x08] else []) ++
  (if tmplPath t && !(t.tilesp == 7 && t.fe) then [] else [0x0F])

/-- The first row that matches: the lowest reason. -/
def firstReason (l : List Nat) : Option Nat :=
  l.foldl (fun a x => match a with | none => some x | some y => some (Nat.min x y)) none

/-! Geometry of a copy (17 R260, R261). -/

def ceilDiv (a b : Nat) : Nat := (a + b - 1) / b

def originGo (t : Nat) (l : List (Nat × Nat)) : List Nat :=
  match l with
  | [] => []
  | [(_, tl)] => [t * tl]
  | (e, tl) :: r => t % ceilDiv e tl * tl :: originGo (t / ceilDiv e tl) r

/-- tile_origin(t). -/
def Tsr.origin (x : Tsr) (t : Nat) : List Nat := originGo t (x.ext.zip x.tile)

/-- mirror(x, E). -/
def mirror (edge : Bool) (x e : Nat) : Nat :=
  if e = 1 then 0
  else if edge then (let m := x % (2 * e - 2); if m < e then m else 2 * e - 2 - m)
  else (let m := x % (2 * e); if m < e then m else 2 * e - 1 - m)

/-- Coordinates j1, j2, … of the rows of a tile, j1 running fastest. -/
def outer (l : List Nat) : List (List Nat) :=
  match l with
  | [] => [[]]
  | t :: r => (outer r).flatMap (fun js => (List.range t).map (fun j => j :: js))

/-- Row pitch and size of the tile side in bytes. -/
def Tsr.pitch (x : Tsr) : Nat := ceilDiv ((x.tile.headD 0) * x.nibs) 32 * 16
def Tsr.tileRows (x : Tsr) : Nat := (x.tile.drop 1).foldl (· * ·) 1
def Tsr.tileBytes (x : Tsr) : Nat := x.pitch * x.tileRows

/-- The coordinates along one dimension from an origin: mirrored for a read; inside the extent for a write. -/
def Tsr.coords (x : Tsr) (write : Bool) (i o : Nat) : List (Option Nat) :=
  (List.range (x.tile.getD i 0)).map (fun j =>
    let e := x.ext.getD i 0
    if write then (if o + j < e then some (o + j) else none) else some (mirror x.mirrorEdge (o + j) e))

/-- Nibble addresses on the tensor side of each row's elements, in row order; none for an element that is not written. -/
def Tsr.rowNibs (x : Tsr) (write : Bool) (t : Nat) : List (List (Option Nat)) :=
  let o := x.origin t
  let cs := (List.range x.ext.length).map (fun i => x.coords write i (o.getD i 0))
  let add (a b : Option Nat) (k : Nat) : Option Nat := match a, b with
    | some p, some q => some (p + q * k)
    | _, _ => none
  (outer (x.tile.drop 1)).map (fun js =>
    let row := (List.range js.length).foldl (fun (a : Option Nat) i =>
      add a ((cs.getD (i + 1) []).getD (js.getD i 0) none) (x.steps.getD (i + 1) 0)) (some (2 * x.base))
    (cs.headD []).map (fun q => add row q x.nibs))

/-- The tensor side's range: from the lowest to the highest byte that the tile touches. -/
def Tsr.range (x : Tsr) (write : Bool) (t : Nat) : Option (Nat × Nat) :=
  let o := x.origin t
  let cs := (List.range x.ext.length).map (fun i => (x.coords write i (o.getD i 0)).filterMap id)
  if cs.any (·.isEmpty) then none
  else
    let lo := (List.range cs.length).foldl (fun a i =>
      let c := cs.getD i []
      a + (c.foldl Nat.min (c.headD 0)) * x.steps.getD i 0) (2 * x.base)
    let hi := (List.range cs.length).foldl (fun a i => a + ((cs.getD i []).foldl Nat.max 0) * x.steps.getD i 0) (2 * x.base) + x.nibs
    some (lo / 2, (hi + 1) / 2 - lo / 2)

/-- Number of tiles, capped (17 R264). -/
def Tsr.tiles (x : Tsr) : Nat := Nat.min ((x.ext.zip x.tile).foldl (fun a e => a * ceilDiv e.1 e.2) 1) 0xFFFFFFFF

/-! Tile headers and operand words (17 R256-R258). -/

def hdrOf (v : Nat) : Hdr :=
  { fmt := fld v 3 0, smode := fld v 5 4, role := fld v 7 6, fe := fld v 8 8 == 1, mbz := fld v 15 9 != 0 || fld v 63 48 != 0,
    rows := fld v 31 16, cols := fld v 47 32, stride := fld v 95 64, scaleoff := fld v 127 96 }

/-- An operand word's fields. -/
def wordAddr (w : DWord) : Nat := fld w.toNat 49 0
def wordSpace (w : DWord) : Nat := fld w.toNat 63 61

/-- The cause that an operand word meets before anything is read (17 R256). -/
def wordCause (role : Nat) (w : DWord) : Option Cause :=
  let sp := wordSpace w
  let ok := if role = 0 then sp == 0 || sp == 1 || sp == 3 else if role = 1 then sp == 0 || sp == 2 else sp == 4
  let addr := BitVec.ofNat 64 (wordAddr w)
  if wordAddr w % 16 ≠ 0 then some { code := 0x04, addr := addr, aux := 16 }
  else if !ok then some { code := 0x06, addr := addr, aux := 1 }
  else if fld w.toNat 60 50 ≠ 0 then some { code := 0x08, aux := 8 }
  else none

/-- Bits of an element of a format. -/
def fmtBits (f : Nat) : Nat :=
  match f with
  | 0 | 1 => 16
  | 2 | 3 | 7 => 8
  | 4 | 8 => 4
  | 6 => 64
  | _ => 32

/-- Clocks a row takes (17 R258). -/
def fmtClocks (f : Nat) : Nat := if f = 5 then 8 else if f = 6 then 64 else 1
def fmtKMax (f : Nat) : Nat :=
  match f with
  | 2 | 3 | 7 => 256
  | 4 | 8 => 512
  | _ => 128

/-- The C format of an input format. -/
def fmtC (f : Nat) : Nat := if f = 6 then 6 else if f = 7 ∨ f = 8 then 9 else 5

/-- Bytes of one row of a tile. -/
def Hdr.rowBytes (h : Hdr) : Nat := (h.cols * fmtBits h.fmt + 7) / 8

/-- Reasons that a header meets by itself in a role (17 R257, R258, R272). FE = 1 in A or B, and SCALEOFF not 0 with SMODE 0, count as
zero fields that are not zero, reason 0x08 (DESIGN CHOICE, log 69). -/
def Hdr.reasons (h : Hdr) (role : Nat) (wide : Bool) : List Nat :=
  let isC := h.fmt == 5 || h.fmt == 6 || h.fmt == 9
  let k := if role = 0 then h.cols else h.rows
  (if h.rows = 0 ∨ h.cols = 0 then [0x01] else []) ++
  (if 10 ≤ h.fmt ∨ 2 ≤ h.smode ∨ h.role = 3 ∨ h.mbz ∨ (h.fe ∧ role ≠ 2) ∨ (h.smode = 0 ∧ h.scaleoff ≠ 0) then [0x08] else []) ++
  (if h.role ≠ role then [0x09] else []) ++
  (if (if role = 2 then !isC || h.smode != 0 else h.fmt == 9 || (h.smode == 1 && !(h.fmt == 2 || h.fmt == 3 || h.fmt == 4))) then [0x0A] else []) ++
  (if role ≠ 2 ∧ (fmtKMax h.fmt < k ∨ (h.smode = 1 ∧ k % 32 ≠ 0)) then [0x0B] else []) ++
  (if role = 1 ∧ (if wide then 256 else 128) < h.cols then [0x0B] else []) ++
  (if h.stride < h.rowBytes ∨ h.stride % 16 ≠ 0 ∨ h.scaleoff % 16 ≠ 0 then [0x0D] else [])

/-- A and B of one command agree (17 R258). -/
def hdrPair (a b : Hdr) : List Nat :=
  let mixed := (a.fmt == 2 || a.fmt == 3) && (b.fmt == 2 || b.fmt == 3)
  (if (a.fmt ≠ b.fmt ∧ !mixed) ∨ a.smode ≠ b.smode then [0x0A] else []) ++ (if a.cols ≠ b.rows then [0x0B] else [])

/-- C and B of one command agree. -/
def hdrPairC (c b : Hdr) : List Nat :=
  (if c.fmt ≠ fmtC b.fmt then [0x0A] else []) ++ (if c.cols ≠ b.cols then [0x0B] else [])

end Sys2Proof.Machine
end

