-- ==== Sys2Proof/Machine/Matrix.lean ====
section
/-! DEFINITION. The matrix arrays: issue, acceptance, execution row by row, and the end of their commands (17 R273-R286; 07 R133). -/

namespace Sys2Proof.Machine

/-! Issue (17 R273). -/

/-- Uses of `n` registers from a direct operand on; a literal stands for itself. -/
def wideUse (a : Operand) (n : Nat) : List Use :=
  match a with
  | .v r => (List.range n).filterMap (fun i => if h : r.val + i < 112 then some (src (.v ⟨r.val + i, h⟩)) else none)
  | _ => [src a]

/-- A pair of registers of a thread. -/
def Thread.pairAt (t : Thread) (n : Nat) : DWord := (t.reg (n + 1)) ++ (t.reg n)

/-- Room in the array's command queue. -/
def State.mRoom (s : State) (core : Nat) : Bool := decide ((s.core core).mcmds.length < 16)

/-- A command sent with the sources it read; the threads pass it, or wait for room in the queue. -/
def State.sendM (s : State) (gid : Nat) (ts : List Nat) (l : Fin 16) (d : Option Nat) (poi : Bool) (mk : Nat → MCmd) : State :=
  let core := (s.team (teamOf gid)).core
  if poi then
    let s := s.leaveAll ts
    let s := match d with
      | some n => ts.foldl (fun (s : State) t => s.modThread t (fun x => x.putReg n 0 false)) s
      | none => s
    s.regPoison (ts.headD 0) s.cur.pc
  else
    let (id, s) := s.fresh
    let room := s.mRoom core
    let s := s.modCore core (fun (c : Core) => { c with mcmds := c.mcmds ++ [mk id] })
    let s := ts.foldl (fun s t => s.modThread t (fun x =>
      let x : Thread := match d with
        | some n => { x with sb := x.sb ++ [{ op := id, isPred := false, n := n }] }
        | none => x
      x)) s
    let s := if room then s.leaveAll ts else s.waitAll ts .engine
    ts.foldl (fun s t => s.modThread t (fun x => { x with look := x.look ++ [(id, l.val + (if room then 0 else 1))] })) s

/-- A register of lane 0 was poisoned. -/
def Thread.anyPoison (t : Thread) (us : List Use) : Bool :=
  us.any (fun u => match u.o with | .v n => t.poisonRegs.contains n.val | _ => false)

/-- The matrix instructions whose operands lane 0 supplies. -/
def State.issueM (s : State) (g : Guard) (l : Fin 16) (us : List Use) (d : Option Operand) (mk : Thread → Word → MCmd) : State :=
  let dn : Option Nat := d.bind (fun o => match o with | .v n => some n.val | _ => none)
  (groupsIn s.members).foldl (fun s gid =>
    s.collectiveGroup g us (fun _ _ => none) (fun s gid ts =>
      let t := s.thread (ts.headD 0)
      let fp := (s.laneEnv gid).fpdef
      s.sendM gid ts l dn (t.anyPoison us) (fun id => { mk t fp with id := id, gid := gid, pc := s.cur.pc })) gid) s

/-- A command's empty record. -/
def mBlank (fn : MFn) : MCmd := { id := 0, gid := 0, fn := fn, pc := 0 }

/-- mma and mpair: control in D, the A and C words in the quad at A. -/
def mulCmd (fn : MFn) (d a : Operand) (t : Thread) (fp : Word) : MCmd :=
  match d, a with
  | .v n, .v r => { mBlank fn with ctl := t.reg n.val, aw := t.pairAt r.val, cw := t.pairAt (r.val + 2), dreg := n.val, flush := fpFtz fp }
  | _, _ => mBlank fn

def execMmaMma (g : Guard) (l : Fin 16) (d a : Operand) (s : State) : Host.Outcome State Fault Refusal :=
  .next (s.issueM g l (src d :: wideUse a 4) (some d) (mulCmd .mma d a))

def execMmaMpair (g : Guard) (l : Fin 16) (d a : Operand) (s : State) : Host.Outcome State Fault Refusal :=
  .next (s.issueM g l (src d :: wideUse a 4) (some d) (mulCmd .mpair d a))

def execMmaMload (g : Guard) (l : Fin 16) (a : Operand) (s : State) : Host.Outcome State Fault Refusal :=
  .next (s.issueM g l (wideUse a 2) none (fun t _ => { mBlank .mload with aw := BitVec.ofNat 64 (t.srcVal a true) }))

def execMmaMclear (g : Guard) (l : Fin 16) (a : Operand) (s : State) : Host.Outcome State Fault Refusal :=
  .next (s.issueM g l (wideUse a 2) none (fun t _ => { mBlank .mclear with cw := BitVec.ofNat 64 (t.srcVal a true) }))

def execMmaMrow (g : Guard) (l : Fin 16) (a : Operand) (s : State) : Host.Outcome State Fault Refusal :=
  .next (s.issueM g l (wideUse a 1) none (fun t _ => { mBlank .mrow with aw := BitVec.ofNat 64 (t.srcVal a false) }))

/-- mmar: every lane's registers from `a` on are read at issue, once none of them waits for a result (03 R45; 17 R273); how many of them
form the row is known at acceptance. Its results alone wait for entries of qk as they are pushed (17 R281): no entry is waited for or
reserved at issue, as 05 R89 would have it (DESIGN CHOICE, log 69). -/
def execMmaMmar (g : Guard) (l : Fin 16) (k : Fin 8) (a : Operand) (s : State) : Host.Outcome State Fault Refusal :=
  .next (match a with
  | .v r =>
    let count (t : Nat) : Nat := (s.team (teamOf (gidOf t))).nregs - r.val
    let held := s.members.filter (fun t => (upto r.val (count t)).any (fun i => !(s.thread t).clear false i))
    (groupsIn s.members).foldl (fun s gid =>
      let n := (s.team (teamOf gid)).nregs
      let bind (s : State) (gid : Nat) : Option Nat :=
        match spGet (s.group gid).binds k.val with
        | none => some 0x02
        | some b => if b.kind = 2 then none else some 0x0A
      s.collectiveGroup g [] bind (fun s gid ts =>
        let fp := (s.laneEnv gid).fpdef
        let rows := ts.map (fun t => (List.range (n - r.val)).map (fun i => (s.thread t).reg (r.val + i)))
        let bad := ts.flatMap (fun t => ((List.range (n - r.val)).filter (fun i => (s.thread t).poisonRegs.contains (r.val + i))).map (fun i => (t, i)))
        s.sendM gid ts l none false (fun id =>
          { mBlank .mmar with id := id, gid := gid, pc := s.cur.pc, q := k.val, rows := rows, flush := fpFtz fp, dreg := r.val, bad := bad })) gid) (s.retryAll held)
  | _ => s)

/-! Acceptance (17 R274, R275). -/

/-- The group's B binding as a command accepted now will find it. -/
def State.bindingFor (s : State) (core gid : Nat) : Option DWord :=
  match ((s.core core).mcmds.filter (fun m => decide (m.gid = gid) && decide (0 < m.acc) && decide (m.fn = .mload) && !m.skip)).getLast? with
  | some m => some m.aw
  | none => (s.group gid).bword

/-- The thread in whose name a group's commands read memory. -/
def State.leadThread (s : State) (gid : Nat) : Nat := ((s.threadsOfGroup gid).head?.map (·.1)).getD (tidOf gid 0)

/-- `n` bytes of an operand: of a local store of the group's team, or of global memory. -/
def State.operandBytes (s : State) (gid : Nat) (w : DWord) (off n : Nat) (own : Bool) (pc : Word) (m : Met) : Nat × Met × State :=
  let a := wordAddr w + off
  let sp := wordSpace w
  if sp = 0 then s.jobRead (s.jobOf (s.leadThread gid) own pc) a n m
  else
    let t := s.team (teamOf gid)
    if t.poisonedAt sp a n then (0, m.addFail .poison 4 a 0, s) else (t.readLocal sp a n, m, s)

/-- A range of an operand past its declared region, or past the address space. -/
def State.operandRange (s : State) (gid : Nat) (w : DWord) (off n : Nat) : Option Cause :=
  let a := wordAddr w + off
  let sp := wordSpace w
  let exceeds := if sp = 0 then decide (2 ^ 50 < a + n) else decide ((s.team (teamOf gid)).region sp < a + n)
  if exceeds then some { code := 0x06, addr := BitVec.ofNat 64 (wordAddr w), aux := if sp = 0 then 3 else 4 } else none

/-- The footprint of a range of an operand. -/
def operandFoot (gid : Nat) (w : DWord) (off n : Nat) : Foot :=
  { space := wordSpace w, team := if wordSpace w = 0 then 0 else teamOf gid, base := wordAddr w + off, len := n }

/-- Bytes from a header to the end of row `n - 1`, beginning at row `r`, and of its scales. -/
def Hdr.rowsFrom (h : Hdr) (r n : Nat) : Nat × Nat := if n ≤ r then (16, 0) else (16 + r * h.stride, (n - 1 - r) * h.stride + h.rowBytes)
def Hdr.scales (h : Hdr) (r n : Nat) : Nat × Nat :=
  if h.smode ≠ 1 then (0, 0)
  else if h.role = 1 then (h.scaleoff, h.rows / 32 * h.cols)
  else (h.scaleoff + r * (h.cols / 32), (n - r) * (h.cols / 32))

/-- Row count, lease and partner fields of a control value (17 R277). -/
def ctlN (c : Word) : Nat := fld c.toNat 10 0
def ctlLease (c : Word) : Bool := c.getLsbD 16
def ctlPartner (c : Word) : Nat := fld c.toNat 20 17
def ctlBad (fn : MFn) (c : Word) : Bool :=
  fld c.toNat 15 11 != 0 || fld c.toNat 26 21 != 0 || fld c.toNat 31 27 != 0 ||
  (if fn = .mpair then ctlLease c else ctlPartner c != 0)

/-- Two places of one rectangle lie side by side. -/
def clAdjacent (a b : Nat) : Bool :=
  let dx := if a % 16 < b % 16 then b % 16 - a % 16 else a % 16 - b % 16
  let dy := if a / 16 < b / 16 then b / 16 - a / 16 else a / 16 - b / 16
  dx + dy == 1

/-- The partner team of an mpair; none where PARTNER is invalid (17 R284). -/
def State.partnerTeam (s : State) (gid : Nat) (ctl : Word) : Option Nat :=
  let t := s.team (teamOf gid)
  let p := ctlPartner ctl
  if t.binEntry.isSome || p == t.idx then none
  else (s.teamNumbered t.cluster p).filter (fun u => clAdjacent (s.team u).clpos t.clpos)

/-- The side of an mpair that leads has the lower TEAM; the other reads no A. -/
def State.follows (s : State) (gid : Nat) (ctl : Word) : Bool := decide (ctlPartner ctl < (s.team (teamOf gid)).idx)

/-- The lender's core of the lease that a context holds. -/
def State.leaseOf (s : State) (c : Nat) : Option Nat :=
  (s.cores.find? (fun e => decide (e.2.lease.st = 1) && decide (ctxKey e.2.lease.first e.2.lease.ctx = c))).map (·.1)

/-- The operand words that a command names, with their roles (17 R256). -/
def State.mWords (s : State) (m : MCmd) : List (Nat × DWord) :=
  match m.fn with
  | .mma => [(0, m.aw), (2, m.cw)]
  | .mpair => if s.follows m.gid m.ctl then [(2, m.cw)] else [(0, m.aw), (2, m.cw)]
  | .mload => [(1, m.aw)]
  | .mclear => [(2, m.cw)]
  | .mmar | .mrow => []

/-- Registers of one lane's row of an mmar; a part of a register counts as one (DESIGN CHOICE, log 69). -/
def rowRegs (h : Hdr) : Nat := (h.rows * fmtBits h.fmt + 31) / 32

/-- What the acceptance of a command comes to. -/
inductive Accept where
  | wait (m : Met)
  | cause (c : Cause)
  | failed (f : JobFail) (place : Nat × Nat × Nat)
  | ok (m : MCmd)

/-- The headers that a command needs at acceptance, in the roles of `mWords`, the B header among them where it is used. -/
def State.readHdrs (s : State) (gid : Nat) (pc : Word) (ws : List (Nat × DWord)) : List (Nat × DWord × Hdr) × Met × State :=
  ws.foldl (fun (a : List (Nat × DWord × Hdr) × Met × State) w =>
    let (v, m, s) := a.2.2.operandBytes gid w.2 0 16 true pc a.2.1
    (a.1 ++ [(w.1, w.2, hdrOf v)], m, s)) ([], {}, s)

/-- The record checks of a command over its headers (17 R272); `b` is the B header it uses. The core that issued the command bounds N,
whatever array a lease runs it on (DESIGN CHOICE, log 69). -/
def State.mReasons (s : State) (core : Nat) (m : MCmd) (hs : List (Nat × DWord × Hdr)) (b : Option Hdr) : List Nat :=
  let wide := (s.core core).wide
  let hdr (r : Nat) : Option Hdr := (hs.find? (fun h => h.1 = r)).map (fun h => h.2.2)
  let own := hs.flatMap (fun h => h.2.2.reasons h.1 wide)
  let n := ctlN m.ctl
  let rowsOver := match hdr 0, hdr 2 with
    | some a, some c => decide (a.rows < n) || decide (c.rows < n)
    | none, some c => decide (c.rows < n)
    | _, _ => false
  match m.fn with
  | .mma | .mpair =>
    own ++
    (match b with
     | none => [0x0B]
     | some b => (match hdr 0 with | some a => hdrPair a b | none => []) ++ (match hdr 2 with | some c => hdrPairC c b | none => [])) ++
    (if n = 0 || 1024 < n || rowsOver || n ≤ (s.group m.gid).mrow then [0x0C] else []) ++
    (if m.fn = .mpair ∧ (s.partnerTeam m.gid m.ctl).isNone then [0x10] else [])
  | .mmar =>
    (match b with
     | none => [0x0B]
     | some b => if b.smode = 1 then [0x0A] else [])
  | _ => own

/-- The acceptance checks of a command (17 R256, R272-R275, R281, R286). -/
def State.checkM (s : State) (core : Nat) (m : MCmd) : Accept × State :=
  let ctx := (s.team (teamOf m.gid)).ctx
  let bw := if m.fn = .mload then none else s.bindingFor core m.gid
  let usesB := decide (m.fn = .mma) || decide (m.fn = .mpair) || decide (m.fn = .mmar)
  let lease := if m.fn = .mma && ctlLease m.ctl then s.leaseOf ctx else none
  let words := s.mWords m
  let leased : Option Cause :=
    if lease.isSome && (wordSpace m.aw != 0 || (match bw with | some b => wordSpace b != 0 | none => false)) then
      some { code := 0x06, aux := 1 } else none
  let mbz : Option Cause :=
    if ((m.fn = .mma ∨ m.fn = .mpair) ∧ ctlBad m.fn m.ctl) ∨ (m.fn = .mrow ∧ fld m.aw.toNat 31 11 ≠ 0) then
      some { code := 0x08, aux := 8 } else none
  let early := (words.map (fun w => wordCause w.1 w.2)).foldl lowerCause (lowerCause leased mbz)
  match early with
  | some c => (.cause c, s)
  | none =>
    match (words.map (fun w => s.operandRange m.gid w.2 0 16)).foldl lowerCause none with
    | some c => (.cause c, s)
    | none =>
      let all := words ++ (match bw with | some b => (if usesB then [(1, b)] else []) | none => [])
      let (hs, met, s) := s.readHdrs m.gid m.pc all
      if !met.faults.isEmpty then (.wait met, s)
      else match met.fail with
      | some f => (.failed f met.failAt, s)
      | none =>
        let hdr (r : Nat) : Option Hdr := (hs.find? (fun h => h.1 = r)).map (fun h => h.2.2)
        let b := if usesB then hdr 1 else none
        let exceeds := m.fn = .mmar && ((m.rows.headD []).isEmpty || (b.map (fun b => decide ((m.rows.headD []).length < rowRegs b))).getD false)
        if exceeds then (.cause { code := 0x03 }, s)
        else match firstReason (s.mReasons core m (if m.fn = .mload then hs else hs.filter (fun h => h.1 ≠ 1)) b) with
        | some r => (.cause { code := 0x08, aux := BitVec.ofNat 32 r }, s)
        | none =>
          let n := ctlN m.ctl
          let r0 := (s.group m.gid).mrow
          let foot (w : DWord) (x : Nat × Nat) : List Foot := if x.2 = 0 then [] else [operandFoot m.gid w x.1 x.2]
          let whole (w : DWord) (h : Hdr) : List (DWord × (Nat × Nat)) := [(w, h.rowsFrom 0 h.rows), (w, h.scales 0 h.rows)]
          let bRanges := match bw, b with
            | some w, some h => whole w h
            | _, _ => []
          let aRanges := match hdr 0 with
            | some h => [(m.aw, h.rowsFrom r0 n), (m.aw, h.scales r0 n)]
            | none => []
          let cRange := match hdr 2 with
            | some h => [(m.cw, if m.fn = .mclear then h.rowsFrom 0 h.rows else h.rowsFrom r0 n)]
            | none => []
          let lRanges := if m.fn = .mload then (match hdr 1 with | some h => whole m.aw h | none => []) else []
          let used := (aRanges ++ bRanges ++ cRange ++ lRanges).filter (fun x => x.2.2 ≠ 0)
          match (used.map (fun x => s.operandRange m.gid x.1 x.2.1 x.2.2)).foldl lowerCause none with
          | some c => (.cause c, s)
          | none =>
            let feet (l : List (DWord × (Nat × Nat))) : List Foot := l.flatMap (fun x => foot x.1 x.2)
            (.ok { m with ah := hdr 0, ch := hdr 2, bh := b, bw := bw, onLease := lease,
                          reads := feet (aRanges ++ bRanges ++ lRanges ++ (if m.fn = .mclear then [] else cRange)), writes := feet cRange }, s)

/-- Bits and bounds of a command leave its group's threads: its D unwritten, its lookahead passed, the wait for room over. -/
def Thread.passCommand (t : Thread) (id clock : Nat) : Thread :=
  let waits := decide (t.wait = .engine) && t.look.any (fun e => e.1 = id)
  let t : Thread := { t with look := t.look.filter (fun e => e.1 ≠ id) }
  if waits then t.leaveWait clock else t

def State.modM (s : State) (core id : Nat) (f : MCmd → MCmd) : State :=
  s.modCore core (fun (c : Core) => { c with mcmds := c.mcmds.map (fun m => if m.id = id then f m else m) })
def State.dropM (s : State) (core id : Nat) : State :=
  s.modCore core (fun (c : Core) => { c with mcmds := c.mcmds.filter (fun m => m.id ≠ id) })

/-- Threads of a group, as they really stand, changed. -/
def State.eachOf (s : State) (gid : Nat) (f : Thread → Thread) : State := s.eachThread ((s.realThreads gid).map (·.1)) f

/-- A command discarded: never counted, its D released unwritten. -/
def State.discardM (s : State) (core : Nat) (m : MCmd) : State :=
  (s.dropM core m.id).eachOf m.gid (fun t =>
    let u := t.passCommand m.id s.clock
    { u with sb := u.sb.filter (fun e => e.op ≠ m.id) })

/-- A command ends (17 R277, R283): D is written in all 32 lanes, then ENGC falls; any status but DONE skips the group's later
accepted commands, mrow excepted. -/
def State.finishM (s : State) (core : Nat) (m : MCmd) (status : Nat) : State :=
  let mrow := if status = 0 ∧ (m.fn = .mma ∨ m.fn = .mpair) then 0 else (s.group m.gid).mrow
  let s := if status = 0 ∧ (m.fn = .mma ∨ m.fn = .mpair) then s.modGroup m.gid (fun (g : Group) => { g with mrow := 0 }) else s
  let v : Word := BitVec.ofNat 32 (status + mrow % 2048 * 2 ^ 16)
  let s := s.dropM core m.id
  let s := s.eachOf m.gid (fun t =>
    let u := if m.fn = .mma ∨ m.fn = .mpair then t.deliver m.id (.regs m.dreg 1) [v] else t
    { u.engineDone (jobScope (m.reads ++ m.writes)) with look := u.look.filter (fun e => e.1 ≠ m.id) })
  let s := s.stir (s.team (teamOf m.gid)).ctx
  if status = 0 then s
  else s.modCore core (fun (c : Core) => { c with mcmds := c.mcmds.map (fun x =>
    if x.gid = m.gid ∧ 0 < x.acc ∧ x.fn ≠ .mrow then { x with skip := true } else x) })

/-- A group's deferred cause from a command. -/
def State.failM (s : State) (core : Nat) (m : MCmd) (c : Cause) : State := (s.finishM core m 6).deferGroup m.gid c m.pc

/-- Poison that a command met (25 R373, R374). -/
def State.poisonM (s : State) (m : MCmd) (place : Nat × Nat × Nat) (base : State → State) : State :=
  s.consume (s.leadThread m.gid) place.1 place.2.1 place.2.2 base

/-- The other side of an mpair that has been paired. -/
def State.pairSide (s : State) (m : MCmd) : Option (Nat × MCmd) :=
  match m.partner with
  | none => none
  | some p => (s.cores.find? (fun e => e.2.mcmds.any (fun x => x.id = p))).bind (fun e =>
      (e.2.mcmds.find? (fun x => x.id = p)).map (fun x => (e.1, x)))

/-- A batch of the pages that a command faulted on. -/
def State.faultM (s : State) (core : Nat) (m : MCmd) (met : Met) : State :=
  let (no, s) := s.sendBatch (s.team (teamOf m.gid)).ctx 2 m.id core (s.group m.gid).slot met.faults
  s.modM core m.id (fun x => { x with batch := some no, faultVa := (met.faults.head?.map (·.va)).getD 0 })

/-- The executing mpair of the partner's group, which waits alone. -/
def State.waitingPartner (s : State) (m : MCmd) : Option (Nat × MCmd) :=
  match s.partnerTeam m.gid m.ctl with
  | none => none
  | some u =>
    let core := (s.team u).core
    let gid := groupKey u (s.group m.gid).idx
    ((s.core core).mcmds.find? (fun x => decide (x.gid = gid) && decide (x.fn = .mpair) && x.started && x.aloneSince.isSome)).map
      (fun x => (core, x))

/-- The threads whose row of an accepted mmar holds a poisoned register: its read traps them with 0x0D (25 R373). -/
def MCmd.poisonedLanes (m : MCmd) : List Nat :=
  match m.bh with
  | some h => ((m.bad.filter (fun e => decide (e.2 < rowRegs h))).map (·.1)).eraseDups
  | none => []

/-- A command whose operands fail ends (17 R283, R285): in a pair both sides end with PAIR_FAULT and no trap. -/
def State.endFailed (s : State) (core : Nat) (m : MCmd) (f : JobFail) (place : Nat × Nat × Nat) : State :=
  let addr : DWord := BitVec.ofNat 64 place.2.1
  match s.pairSide m with
  | some o =>
    let both (s : State) : State := (s.finishM core m 2).finishM o.1 o.2 2
    if f = .poison then s.poisonM m place both else both s
  | none =>
    match f with
    | .cancelled => s.failM core m { code := 0x05, addr := addr }
    | .gate => s.failM core m { code := 0x06, addr := addr, aux := 6 }
    | .poison => s.poisonM m place (fun s => s.failM core m { code := 0x0D, addr := addr })

/-- A command accepted: it counts in ENGC of every thread of its group. -/
def State.takeM (s : State) (core : Nat) (m : MCmd) : MCmd × State :=
  let (acc, s) := s.fresh
  let x : MCmd := { m with acc := acc }
  let s := s.modM core m.id (fun _ => x)
  (x, (s.eachOf m.gid (fun t =>
    let u := t.passCommand m.id s.clock
    { u with engc := u.engc + 1 })).stir (s.team (teamOf m.gid)).ctx)

/-- MATRIX_COMMAND_ACCEPT: the oldest command that waits at a core is accepted or discarded. One whose headers cannot be read is accepted and
finishes FAILED (17 R283; 25 R373). -/
def execMatrixCommandAccept (core : Nat) (s : State) : Host.Outcome State Fault Refusal :=
  .next (match (s.core core).mcmds.find? (fun m => decide (m.acc = 0)) with
  | none => s
  | some m =>
    let taken := ((s.core core).mcmds.filter (fun m => decide (0 < m.acc))).length
    let full := (s.threadsOfGroup m.gid).any (fun e => decide (262143 ≤ e.2.engc))
    if 16 ≤ taken || full || m.batch.isSome || !s.groupIssues m.gid then s
    else if m.cancelled then
      let (x, s) := s.takeM core m
      s.endFailed core x .cancelled (9, m.faultVa, 0)
    else match s.checkM core m with
    | (.wait met, s) => s.faultM core m met
    | (.cause c, s) => (s.discardM core m).deferGroup m.gid c m.pc
    | (.failed f place, s) =>
      let (x, s) := s.takeM core m
      s.endFailed core x f place
    | (.ok x, s') =>
      if !x.poisonedLanes.isEmpty then x.poisonedLanes.foldl (fun (s : State) t => s.regPoison t m.pc) (s'.discardM core m)
      else match s'.pushRelease ((s'.threadsOfGroup m.gid).map (·.1)) x.reads with
      | none => s
      | some s =>
        let (x, s) := s.takeM core x
        if (s.core core).withdrawn && m.fn != .mrow then
          let s := match (if m.fn = .mpair then s.waitingPartner m else none) with
            | some o => s.finishM o.1 o.2 2
            | none => s
          (if m.fn = .mmar then s.finishM core x 0 else s.finishM core x 6).deferGroup m.gid { code := 0x0B, aux := 4 } m.pc
        else s)

/-! Arithmetic of one row (07 R122, R133). -/

def fmtShape (f : Nat) : Option Fmt :=
  match f with
  | 0 => some bf16
  | 1 => some f16
  | 2 => some e4m3
  | 3 => some e5m2
  | 4 => some e2m1
  | 5 => some f32
  | 6 => some f64
  | _ => none

/-- Element `k` of a packed row. -/
def elemAt (row bits k : Nat) : Nat := row / 2 ^ (bits * k) % 2 ^ bits

/-- An E8M0 scale. -/
def scaleVal (e : Nat) : Fv := if e % 256 = 255 then .nan else .scaled false 1 (e % 256) 127

/-- The value of a float operand element under its block's scale. -/
def scaledElem (f : Fmt) (flush : Bool) (x : Nat) (scale : Option Nat) : Fv :=
  match scale with
  | none => f.read flush x
  | some e => (f.read flush x).mul (scaleVal e)

/-- One element of C by the block sums of 07 R133: `a` and `b` give the K element values. -/
def sumBlocks (fa : Fmt) (flush : Bool) (bk : Nat) (terms : List Fv) (fuel : Nat) (acc : Nat) : Nat :=
  match fuel with
  | 0 => acc
  | n + 1 =>
    if terms.isEmpty then acc
    else
      let t := fa.fround .rne false flush (exactSum false (terms.take bk))
      let acc := fa.fround .rne false flush (Fv.add false (fa.read flush acc) (fa.read flush t))
      sumBlocks fa flush bk (terms.drop bk) n acc

/-- One row of C: A's row and scales, B's rows and scales, C's old elements. -/
def rowOfC (bh : Hdr) (aFmt : Nat) (flush : Bool) (aRow aScales : Nat) (bRows : List Nat) (bScales : Nat) (old : List Nat) : List Nat :=
  let k := bh.rows
  let n := bh.cols
  let ba := fmtBits aFmt
  let bb := fmtBits bh.fmt
  match fmtShape aFmt, fmtShape bh.fmt with
  | some fa, some fb =>
    let sc (x i : Nat) : Option Nat := if bh.smode = 1 then some (elemAt x 8 i) else none
    let as := (List.range k).map (fun i => scaledElem fa flush (elemAt aRow ba i) (sc aScales (i / 32)))
    let acc := if aFmt = 6 then f64 else f32
    (List.range n).map (fun j =>
      let bs := (List.range k).map (fun i => scaledElem fb flush (elemAt (bRows.getD i 0) bb j) (sc bScales (i / 32 * n + j)))
      sumBlocks acc flush (if aFmt = 6 then 8 else 32) (List.zipWith Fv.mul as bs) 64 (old.getD j 0))
  | _, _ =>
    let as := (List.range k).map (fun i => sext ba (elemAt aRow ba i))
    (List.range n).map (fun j =>
      let bs := (List.range k).map (fun i => sext bb (elemAt (bRows.getD i 0) bb j))
      low 32 ((List.zipWith (· * ·) as bs).foldl (· + ·) ((old.getD j 0 : Nat) : Int)))

/-- Elements side by side. -/
def packElems (bits : Nat) (l : List Nat) : Nat :=
  match l with
  | [] => 0
  | x :: r => x % 2 ^ bits + 2 ^ bits * packElems bits r

/-! Execution. -/

/-- Commands that would run on the array of a core, with the core that issued them. -/
def State.arrayCmds (s : State) (core : Nat) : List (Nat × MCmd) :=
  ((s.core core).mcmds.filter (fun m => decide (0 < m.acc) && m.onLease.isNone)).map (fun m => (core, m)) ++
  (s.cores.flatMap (fun e => (e.2.mcmds.filter (fun m => decide (0 < m.acc) && decide (m.onLease = some core))).map (fun m => (e.1, m))))

/-- The oldest command that the array may take: the first of its group, allowed by the edges of 13 R230. -/
def State.nextM (s : State) (core : Nat) : Option (Nat × MCmd) :=
  let all := s.arrayCmds core
  if all.any (fun e => e.2.started) then none
  else
    let ready (e : Nat × MCmd) : Bool :=
      e.2.batch.isNone && s.groupIssues e.2.gid &&
      (s.core e.1).mcmds.all (fun x => decide (x.gid ≠ e.2.gid) || decide (x.acc = 0) || decide (e.2.acc ≤ x.acc)) &&
      s.mayBegin e.1 (s.team (teamOf e.2.gid)).ctx e.2.acc e.2.reads e.2.writes
    (all.filter ready).foldl (fun (a : Option (Nat × MCmd)) e =>
      match a with
      | none => some e
      | some b => if e.2.acc < b.2.acc then some e else some b) none

/-- Rows of C from a header, zeroed; FE empties the granules of the tile. -/
def State.clearTile (s : State) (m : MCmd) (h : Hdr) : State :=
  let a := wordAddr m.cw
  let s := s.modTeam (teamOf m.gid) (fun t =>
    (List.range h.rows).foldl (fun (t : Team) i =>
      let t := t.writeLocal 4 (a + 16 + i * h.stride) h.rowBytes 0
      if h.fe then t.setEmpty 4 (a + 16 + i * h.stride) h.rowBytes else t) t)
  s

/-- The waiting sides of mpairs, in groups of the same index, that name the team of `m`. -/
def State.waitersFor (s : State) (m : MCmd) : List (Nat × MCmd) :=
  s.cores.flatMap (fun e => (e.2.mcmds.filter (fun x => decide (x.id ≠ m.id) && decide (x.fn = .mpair) && x.started && x.aloneSince.isSome &&
    decide ((s.group x.gid).idx = (s.group m.gid).idx) && decide (s.partnerTeam x.gid x.ctl = some (teamOf m.gid)))).map (fun x => (e.1, x)))

/-- Two sides of an mpair that have met (17 R285): paired, or a mismatch on both. -/
def State.meetPair (s : State) (core : Nat) (m : MCmd) (other : Nat × MCmd) : State :=
  let x := other.2
  let t := s.team (teamOf m.gid)
  let follower := if s.follows m.gid m.ctl then m else x
  let same := match m.bh, x.bh with
    | some a, some b => decide (a.rows = b.rows) && decide (a.fmt = b.fmt) && decide (a.smode = b.smode)
    | _, _ => false
  let good := ctlN m.ctl == ctlN x.ctl && (s.group m.gid).mrow == (s.group x.gid).mrow && same &&
    ctlPartner x.ctl == t.idx && decide (follower.aw = 0)
  if good then
    (s.modM core m.id (fun y => { y with partner := some x.id, aloneSince := none })).modM other.1 x.id
      (fun y => { y with partner := some m.id, aloneSince := none })
  else (s.finishM core m 3).finishM other.1 x 3

/-- MATRIX_COMMAND_START: the array takes the oldest allowed command; one that computes nothing finishes at once. -/
def execMatrixCommandStart (core : Nat) (s : State) : Host.Outcome State Fault Refusal :=
  .next (match s.nextM core with
  | none => s
  | some (home, m) =>
    let s := (s.stamp (s.team (teamOf m.gid)).ctx core).stir (s.team (teamOf m.gid)).ctx
    if m.skip then s.finishM home m 5
    else match m.fn with
    | .mload => (s.modGroup m.gid (fun (g : Group) => { g with bword := some m.aw })).finishM home m 0
    | .mrow => (s.modGroup m.gid (fun (g : Group) => { g with mrow := fld m.aw.toNat 10 0 })).finishM home m 0
    | .mclear =>
      (match m.ch with
       | some h => (s.clearTile m h).finishM home m 0
       | none => s.finishM home m 0)
    | .mma | .mmar =>
      let bind := (s.group m.gid).bword
      let loads := decide ((s.core core).held ≠ bind.map (fun w => (m.gid, w)))
      let (k, s) := if loads && m.onLease.isSome then s.draw else (0, s)
      let s := s.modCore core (fun (c : Core) =>
        { c with held := bind.map (fun w => (m.gid, w)),
                 lease := if loads && m.onLease.isSome then
                     { c.lease with meter := c.lease.meter + 1 + (Config.freeValue k).toNat % 65536 } else c.lease })
      s.modM home m.id (fun x => { x with started := true, row := if m.fn = .mmar then 0 else (s.group m.gid).mrow })
    | .mpair =>
      if (match s.partnerTeam m.gid m.ctl with | some u => (s.core (s.team u).core).withdrawn | none => false) then s.finishM home m 2
      else
      let s := s.modM home m.id (fun x => { x with started := true, row := (s.group m.gid).mrow, aloneSince := some s.clock })
      -- a side that waits for this one, which names another, has met a partner that does not name it (17 R285)
      let strays := (s.waitersFor m).filter (fun o => decide (s.partnerTeam m.gid m.ctl ≠ some (teamOf o.2.gid)))
      let s := strays.foldl (fun (s : State) o => s.finishM o.1 o.2 3) s
      match s.waitingPartner m with
      | some o => s.meetPair home m o
      | none => if strays.isEmpty then s else s.finishM home m 3)

/-- PAIRWAIT_EXPIRY: a side that has waited alone for PAIRWAIT clocks gives up (17 R285). -/
def execPairwaitExpiry (core : Nat) (s : State) : Host.Outcome State Fault Refusal :=
  .next (match (s.core core).mcmds.find? (fun m => m.started && m.aloneSince.isSome) with
  | none => s
  | some m =>
    if (m.aloneSince.getD 0) + (s.ctlFor (s.team (teamOf m.gid)).ctx m.gid).pairwait.toNat ≤ s.clock then s.finishM core m 1 else s)

/-- Row `i` of A, with its scales, and the whole B block, as a command reads them. -/
def State.readB (s : State) (m : MCmd) (bh : Hdr) (met : Met) : List Nat × Nat × Met × State :=
  let w := (s.group m.gid).bword.getD 0
  let (rows, met, s) := (List.range bh.rows).foldl (fun (a : List Nat × Met × State) i =>
    let (v, met, s) := a.2.2.operandBytes m.gid w (16 + i * bh.stride) bh.rowBytes false m.pc a.2.1
    (a.1 ++ [v], met, s)) (([] : List Nat), met, s)
  let (sc, met, s) := if bh.smode = 1 then s.operandBytes m.gid w bh.scaleoff (bh.rows / 32 * bh.cols) false m.pc met else (0, met, s)
  (rows, sc, met, s)

def State.readA (s : State) (m : MCmd) (ah : Hdr) (i : Nat) (met : Met) : Nat × Nat × Met × State :=
  let (v, met, s) := s.operandBytes m.gid m.aw (16 + i * ah.stride) ah.rowBytes false m.pc met
  let (sc, met, s) :=
    if ah.smode = 1 then s.operandBytes m.gid m.aw (ah.scaleoff + i * (ah.cols / 32)) (ah.cols / 32) false m.pc met else (0, met, s)
  (v, sc, met, s)

/-- What one side adds to a row: its B block and old row of C against A's row; the new row of C as a number. -/
def State.sideRow (s : State) (m : MCmd) (i aFmt aRow aScales : Nat) (met : Met) : Nat × Met × State :=
  match m.bh, m.ch with
  | some bh, some ch =>
    let (bRows, bSc, met, s) := s.readB m bh met
    let t := s.team (teamOf m.gid)
    let off := wordAddr m.cw + 16 + i * ch.stride
    let met := if t.poisonedAt 4 off ch.rowBytes then met.addFail .poison 4 off 0 else met
    let bits := fmtBits ch.fmt
    let old := t.readLocal 4 off ch.rowBytes
    let row := rowOfC bh aFmt m.flush aRow aScales bRows bSc ((List.range ch.cols).map (elemAt old bits))
    (packElems bits row, met, s)
  | _, _ => (0, met, s)

/-- A row written in C: MROW advances, and FE sets its granules full in the same action (17 R279). -/
def State.putRow (s : State) (core : Nat) (m : MCmd) (i v : Nat) : State :=
  match m.ch with
  | none => s
  | some ch =>
    let off := wordAddr m.cw + 16 + i * ch.stride
    let s := s.modTeam (teamOf m.gid) (fun t =>
      let t := t.writeLocal 4 off ch.rowBytes v
      if ch.fe then t.setFull 4 off ch.rowBytes else t)
    let s := if ch.fe then s.serveFull (teamOf m.gid) else s
    (s.modGroup m.gid (fun (g : Group) => { g with mrow := i + 1 })).modM core m.id (fun x => { x with row := i + 1 })

/-- Rows of an mmar as results: f32 and s32 two to an entry, f64 one (17 R281). -/
def pairCols (l : List Nat) : List Nat :=
  match l with
  | a :: b :: r => (a + b * 2 ^ 32) :: pairCols r
  | [a] => [a]
  | [] => []

/-- One lane's row of an mmar computed. -/
def State.mmarRow (s : State) (core : Nat) (m : MCmd) : State :=
  match m.bh with
  | none => s.finishM core m 0
  | some bh =>
    let (bRows, bSc, met, s) := s.readB m bh {}
    if !met.faults.isEmpty then s.faultM core m met
    else match met.fail with
    | some f => s.endFailed core m f met.failAt
    | none =>
      let aRow := packElems 32 ((m.rows.getD m.row []).map (·.toNat))
      let out := rowOfC bh bh.fmt m.flush aRow 0 bRows bSc []
      let vals := if bh.fmt = 6 then out else pairCols out
      let s := s.modGroup m.gid (fun (g : Group) =>
        { g with results := g.results ++ vals.map (fun v => (32 * m.q + m.row, m.q, BitVec.ofNat 64 v, jobScope m.reads)) })
      let s := s.stir (s.team (teamOf m.gid)).ctx
      let x : MCmd := { m with row := m.row + 1 }
      if 32 ≤ m.row + 1 then s.finishM core x 0 else s.modM core m.id (fun _ => x)

/-- One row of an mma, or of both sides of an mpair; `lead` supplies A. -/
def State.mulRow (s : State) (lead : Nat × MCmd) (other : Option (Nat × MCmd)) : State :=
  let (core, m) := lead
  let i := m.row
  match m.ah with
  | none => s
  | some ah =>
    let (aRow, aSc, met, s) := s.readA m ah i {}
    let (v, met, s) := s.sideRow m i ah.fmt aRow aSc met
    let (w, met2, s) := match other with
      | some o => s.sideRow o.2 i ah.fmt aRow aSc {}
      | none => (0, {}, s)
    if !met.faults.isEmpty then s.faultM core m met
    else if !met2.faults.isEmpty then (match other with | some o => s.faultM o.1 o.2 met2 | none => s)
    else match met.fail, met2.fail with
    | some f, _ => s.endFailed core m f met.failAt
    | none, some f => (match other with | some o => s.endFailed o.1 o.2 f met2.failAt | none => s)
    | none, none =>
      let s := (s.putRow core m i v).stir (s.team (teamOf m.gid)).ctx
      let s := match other with
        | some o => s.putRow o.1 o.2 i w
        | none => s
      if ctlN m.ctl ≤ i + 1 then
        let s := s.finishM core m 0
        match other with
        | some o => s.finishM o.1 o.2 0
        | none => s
      else s

/-- The command that an array executes, with the core that issued it. -/
def State.runningM (s : State) (core : Nat) : Option (Nat × MCmd) := (s.arrayCmds core).find? (fun e => e.2.started)

/-- MATRIX_ROW_COMPLETE: the array completes a row of the command it executes; a reclaimed lease cuts it first (17 R286; 27 R416). -/
def execMatrixRowComplete (core : Nat) (s : State) : Host.Outcome State Fault Refusal :=
  .next (match s.runningM core with
  | none => s
  | some (home, m) =>
    let other := s.pairSide m
    let held := m.batch.isSome || (match other with | some o => o.2.batch.isSome | none => false)
    let gone := m.cancelled || (match other with | some o => o.2.cancelled | none => false)
    let lend := (s.core core).lease
    -- a stopped group's command goes no further than its row, but an mmar completes its rows (03 R77)
    let still := decide (m.fn ≠ .mmar) && (!s.groupIssues m.gid || (match other with | some o => !s.groupIssues o.2.gid | none => false))
    if m.aloneSince.isSome || held || still then s
    else if m.onLease.isSome && lend.st != 1 then s.finishM home m 4
    else if gone then s.endFailed home m .cancelled (9, m.faultVa, 0)
    else if (s.slice (coreSlice home)).throttled || (match other with | some o => (s.slice (coreSlice o.1)).throttled | none => false) then s
    else
      let s := if m.onLease.isSome then s.modCore core (fun (c : Core) =>
          { c with lease := { c.lease with meter := (c.lease.meter + fmtClocks ((m.bh.map (·.fmt)).getD 0)) % 2 ^ 64 } }) else s
      if m.fn = .mmar then s.mmarRow home m
      else if ctlN m.ctl ≤ m.row then
        (match other with
         | some o => (s.finishM home m 0).finishM o.1 o.2 0
         | none => s.finishM home m 0)
      else match other with
      | some o => if s.follows m.gid m.ctl then s.mulRow o (some (home, m)) else s.mulRow (home, m) (some o)
      | none => s.mulRow (home, m) none)

/-- MMAR_RESULT_PUSH: the oldest held result of each lane joins its queue, where an entry is free (17 R281). -/
def execMmarResultPush (gid k : Nat) (s : State) : Host.Outcome State Fault Refusal :=
  .next (if (spGet (s.group gid).binds k).map (·.kind) ≠ some 2 then s
  else (List.range 32).foldl (fun (s : State) l =>
    let tid := tidOf gid l
    let room := match s.realThread tid with
      | some t => decide (t.qLen k < 8)
      | none => false
    match takeFirst (fun (e : Nat × Nat × DWord × Scope) => e.1 == 32 * k + l && e.2.1 == k) (s.group gid).results with
    | none => s
    | some (e, rest) =>
      if room then
        let s := s.modGroup gid (fun (g : Group) => { g with results := rest })
        s.modReal tid (fun t => { t with qs := t.qs ++ [{ k := k, id := 0, val := some e.2.2.1, acq := some e.2.2.2 }] })
      else s) s)

end Sys2Proof.Machine
end

