-- ==== Sys2Proof/Machine/Copy.lean ====
section
/-! DEFINITION. The copy engine (17 R259-R271; 13 R228-R231; 29 R432-R434) and the template table (17 R264-R266). -/

namespace Sys2Proof.Machine

/-! Common parts. -/

/-- COUNT and base address of the template table (17 R266). -/
def cpyCount (x : DWord) : Nat := Nat.min (fld x.toNat 10 0) 1024
def cpyBase (x : DWord) : Nat := fld x.toNat 49 12 * 4096

/-- A tmpl or push record that waits for its fault batch. -/
def State.sendJobBatch (s : State) (tid who gslot : Nat) (m : Met) : Nat × State :=
  s.sendBatch (s.ctxOfT tid) 1 who (s.coreOfT tid) gslot m.faults

/-! Acceptance (17 R265, R268). -/

/-- What a push names: its template and record, or what stands in the way; `held` while a store of the thread to a record must wait. -/
inductive Named where
  | held
  | wait (m : Met)
  | failed (f : JobFail) (place : Nat × Nat × Nat)
  | cause (c : Cause)
  | ok (t : Tmpl) (x : Tsr)

/-- A record with its template, read and checked; `img` is the template's image, `et` says that a copy reads it (25 R379). -/
def State.checkCopy (s : State) (tid : Nat) (pc : Word) (img : Nat) (et : Bool) : Named × State :=
  let t := tmplOf img
  match s.ownStores [tid] t.recVa 64 with
  | none => (.held, s)
  | some s =>
  let (v, m, s) := s.jobRead { s.jobOf tid true pc with et := et } t.recVa 64 {}
  if !m.faults.isEmpty then (.wait m, s)
  else match m.fail with
  | some f => (.failed f m.failAt, s)
  | none =>
    let s := s.substitute (s.ctxOfT tid) (s.coreOfT tid) m.subs
    let x := tsrOf v
    match firstReason (tmplReasons t ++ tsrReasons x t.dir t.tsp) with
    | some r => (.cause { code := 0x08, aux := BitVec.ofNat 32 r }, s)
    | none => (.ok t x, s)

/-- The template of an entry of the table, and its record. -/
def State.namedBy (s : State) (p : Push) : Named × State :=
  let c := s.ctxOfT p.tid
  let tab := (s.ctlFor c (gidOf p.tid)).cpytab
  let idx := fld p.val.toNat 9 0
  if cpyCount tab ≤ idx ∨ (s.ctx c).tmplValid.contains idx = false then (.cause { code := 0x02 }, s)
  else
    let (img, m, s) := s.jobRead { s.jobOf p.tid true p.pc with admits := fun _ => true, et := true } (cpyBase tab + 32 * idx) 32 {}
    if !m.faults.isEmpty then (.wait m, s)
    else match m.fail with
    | some f => (.failed f m.failAt, s)
    | none => (s.substitute c (s.coreOfT p.tid) m.subs).checkCopy p.tid p.pc img true

/-- Groups that a team has (17 R271). -/
def State.groupCount (s : State) (t : Nat) : Nat :=
  let x := s.team t
  if x.binEntry.isSome then x.nextGroup else x.nthreads / 32

/-- Where the tile side of a copy lies: a local store's team, space and offset, or registers of a group from one on. -/
inductive TileAt where
  | loc (team sp off : Nat)
  | regs (gid first : Nat)
deriving DecidableEq, Repr

/-- The local space of a tile side. -/
def tileSpace (n : Nat) : Space :=
  match n with
  | 1 => .spad
  | 2 => .wbuf
  | 3 => .abuf
  | 4 => .cbuf
  | _ => .cspad

/-- The tile side, or the cause that it meets (17 R262, R268, R271; 13 R201). -/
def State.tileAt (s : State) (team : Nat) (t : Tmpl) (x : Tsr) (doff : Nat) : Except Cause TileAt :=
  if t.tilesp = 7 then
    let g := t.tbase / 256 % 128
    let first := t.tbase % 256 + doff
    if t.fe || decide (s.groupCount team ≤ g) || decide ((s.team team).nregs < first + ceilDiv x.tileBytes 128) then
      .error { code := 0x08, aux := 0x0F }
    else .ok (.regs (groupKey team g) first)
  else match s.placeOf team (tileSpace t.tilesp) ((t.tbase + 16 * doff) % 2 ^ 32) 1 x.tileBytes with
  | .ok (.loc u sp off) => .ok (.loc u sp off)
  | .ok (.glb _) => .error { code := 0x06, aux := 4 }
  | .error c => .error c

/-- The gate that a template names admits the copy (29 R434): the compartments read and written. -/
def State.gateFor (s : State) (c : Nat) (t : Tmpl) : Option (Nat × Nat × Bool) :=
  match spGet s.sec.worlds (ctxFirst c) with
  | none => none
  | some w =>
    let v := (spRead 0 w.gates t.gate).toNat
    if t.gate < 256 ∧ fld v 0 0 = 1 ∧ fld v 17 8 = ctxNum c ∧ (fld v 1 1 = 0 ∨ (t.dir = false ∧ t.tilesp = 2)) then
      some (fld v 4 2, fld v 7 5, fld v 1 1 == 0)
    else none

/-- V of a one-time gate is cleared by the copy that it admits. -/
def State.spendGate (s : State) (first gate : Nat) : State :=
  { s with sec := { s.sec with worlds := spMod s.sec.worlds first (fun w => { w with gates := spMod w.gates gate (fun v => v &&& ~~~1) }) } }

/-- A push leaves its queue entry. -/
def State.takeEntry (s : State) (p : Push) : State :=
  let s := s.modCore (s.coreOfT p.tid) (fun (c : Core) => { c with pushes := c.pushes.filter (fun q => q.id ≠ p.id) })
  s.modBoth p.tid (fun t => { t with qs := t.qs.filter (fun e => !(e.id == p.id && e.k == p.k)) })

/-- A push that fails its acceptance: not performed, completed in its batch, its cause delivered to the thread. -/
def State.refusePush (s : State) (p : Push) (c : Cause) : State :=
  ((s.takeEntry p).modBoth p.tid (fun t => t.copyDone p.id [])).defer p.tid c p.pc

/-- A push whose records meet a failure (17 R269 by its TRAPAUX). -/
def State.failPush (s : State) (p : Push) (f : JobFail) (place : Nat × Nat × Nat) : State :=
  match f with
  | .cancelled => s.refusePush p { code := 0x0B, aux := 1 }
  | .poison => s.consumeAs 0x0B p.tid place.1 place.2.1 place.2.2 (fun s => s.refusePush p { code := 0x0B, aux := 2 })
  | .gate => s.refusePush p { code := 0x0B, aux := 3 }

/-- Bits of a copy's destination registers in every lane of a group; in run-ahead the scratch copies become unknown. -/
def State.holdRegs (s : State) (gid id first n : Nat) : State :=
  let ra := (s.group gid).inRa
  ((s.realThreads gid).map (·.1)).foldl (fun (s : State) t =>
    let s := s.modReal t (fun x => { x with sb := x.sb ++ (upto first n).map (fun r => { op := id, isPred := false, n := r }) })
    if ra then s.modThread t (fun x => { x with unkRegs := unionNew x.unkRegs (upto first n) }) else s) s

/-- COPY_ACCEPT: a channel takes its oldest push, snapshots and checks its records (17 R265, R267, R268). -/
def execCopyAccept (core chan : Nat) (s : State) : Host.Outcome State Fault Refusal :=
  .next (match (s.core core).pushes.find? (fun p => p.chan = chan) with
  | none => s
  | some p =>
    let limit := if (s.core core).wide then 512 else 256
    if limit ≤ (s.core core).copies.length || p.batch.isSome || !p.filled then s
    else if p.cancelled then s.failPush p .cancelled (9, 0, 0)
    else
      let team := teamOf (gidOf p.tid)
      let c := s.ctxOfT p.tid
      match s.namedBy p with
      | (.held, _) => s
      | (.wait m, s) =>
        let (no, s) := s.sendJobBatch p.tid p.id chan m
        s.modCore core (fun (k : Core) => { k with pushes := k.pushes.map (fun q => if q.id = p.id then { q with batch := some no } else q) })
      | (.failed f place, s) => s.failPush p f place
      | (.cause k, s) => s.refusePush p k
      | (.ok t x, s) =>
        let tidx := fld p.val.toNat 63 32
        let doff := fld p.val.toNat 31 10
        match s.tileAt team t x doff with
        | .error k => s.refusePush p k
        | .ok at_ =>
          let range := x.range t.dir tidx
          let exceeds := t.tsp && (match range with | some r => decide ((s.team team).region 1 < r.1 + r.2) | none => false)
          let gate := if t.gate = 0 then none else s.gateFor c t
          if exceeds then s.refusePush p { code := 0x06, addr := BitVec.ofNat 64 x.base, aux := 4 }
          else if t.gate ≠ 0 ∧ gate.isNone then s.failPush p .gate (9, 0, 0)
          else
            let tens : List Foot := match range with
              | some r => [{ space := if t.tsp then 1 else 0, team := if t.tsp then team else 0, base := r.1, len := r.2 }]
              | none => []
            let tile : List Foot := match at_ with
              | .loc u sp off => [{ space := if t.tilesp = 5 then 5 else sp, team := u, base := off, len := x.tileBytes }]
              | .regs _ _ => []
            let dest := match at_ with
              | .regs g _ => g
              | .loc u _ _ => groupKey u 0
            let reads := if t.dir then tile else tens
            match s.pushRelease [p.tid] reads with
            | none => s
            | some s =>
              let s := match gate with
                | some g => if g.2.2 then s.spendGate (ctxFirst c) t.gate else s
                | none => s
              let s := s.takeEntry p
              let bytes := (x.nibs + 1) / 2
              let outside := t.dir && !t.tsp &&
                (x.rowNibs true tidx).any (fun r => r.any (fun a => (a.map (fun a => !s.inFoot p.tid (a / 2) bytes)).getD false))
              let s := if outside then s.setOutside p.tid else s
              let (acc, s) := s.fresh
              let s := match at_ with
                | .regs g first => s.holdRegs g p.id first (ceilDiv x.tileBytes 128)
                | .loc _ _ _ => s
              let y : Copy :=
                { id := p.id, acc := acc, tid := p.tid, pc := p.pc, chan := chan, tmpl := t, tsr := x, tidx := tidx, doff := doff,
                  gid := gidOf p.tid, destGid := dest, reads := reads, writes := if t.dir then tens else tile,
                  gate := gate.map (fun g => (g.1, g.2.1)) }
              (s.modCore core (fun (k : Core) => { k with copies := k.copies ++ [y] })).stir c)

/-! The transfer (17 R260, R261, R269-R271). -/

/-- The pages that a copy may use. -/
def State.copyAdmit (s : State) (c : Nat) (y : Copy) (k : AccK) (leaf : DWord) : Bool :=
  match y.gate with
  | none => s.permits c leaf k
  | some (src, dst) =>
    !leafSys leaf && (if k.writes then leafW leaf && decide (leafComp leaf = dst) else leafR leaf && decide (leafComp leaf = src))

/-- An element at a nibble address of a number whose nibble 0 lies at `base`. -/
def nibGet (v base nib n : Nat) : Nat := v / 16 ^ (nib - base) % 16 ^ n

/-- The element values of a tile's rows as a read copy finds them. -/
def State.readTensor (s : State) (y : Copy) (m : Met) : List (List Nat) × Met × State :=
  let x := y.tsr
  let rows := (x.rowNibs false y.tidx).map (fun r => r.filterMap id)
  let n := x.nibs
  let bytes := (n + 1) / 2
  if y.tmpl.tsp then
    let t := s.team (teamOf (gidOf y.tid))
    let bad := rows.any (fun r => r.any (fun a => t.poisonedAt 1 (a / 2) bytes))
    (rows.map (fun r => r.map (fun a => nibGet (t.readLocal 1 (a / 2) bytes) (a / 2 * 2) a n)), if bad then m.addFail .poison 4 0 0 else m, s)
  else
    let c := s.ctxOfT y.tid
    let j : Job := { s.jobOf y.tid false y.pc with admits := fun leaf => s.copyAdmit c y .read leaf, et := true }
    let (ls, m, s) := s.jobLines j (rows.flatMap (fun r => r.map (fun a => (a / 2, bytes)))) m
    (rows.map (fun r => r.map (fun a => nibGet (getBytes ls (a / 2) bytes) (a / 2 * 2) a n)), m, s)

/-- A row of elements as the bytes of a tile-side row. -/
def packRow (nibs : Nat) (r : List Nat) : Nat := r.foldr (fun e v => v * 16 ^ nibs + e) 0

/-- A line with one element put in. -/
def putElem (d : BitVec 512) (la nib n v : Nat) : BitVec 512 :=
  let at_ := 4 * (nib - 128 * la)
  (d &&& ~~~(BitVec.ofNat 512 ((16 ^ n - 1) * 2 ^ at_))) ||| BitVec.ofNat 512 (v % 16 ^ n * 2 ^ at_)

/-- The pages that elements are written to, by virtual line, as far as they may be. -/
def State.glbPages (s : State) (y : Copy) (es : List (Nat × Nat)) (m : Met) : List (Nat × Nat × DWord) × Met × State :=
  let c := s.ctxOfT y.tid
  let ranges := es.map (fun e => (e.1 / 2, (y.tsr.nibs + 1) / 2))
  (linesOf ranges).foldl (fun (a : List (Nat × Nat × DWord) × Met × State) la =>
    let (ps, m, s) := a
    let (p, m, s) := s.jobPage c (firstIn la ranges) .write (s.copyAdmit c y .write) y.pc m
    match p with
    | some (pa, leaf) => (ps ++ [(la, pa, leaf)], m, s)
    | none => (ps, m, s)) ([], m, s)

/-- The elements that lie on the given pages written at their homes. -/
def State.putElems (s : State) (y : Copy) (es : List (Nat × Nat)) (ps : List (Nat × Nat × DWord)) : State :=
  let w := s.whoT y.tid
  let n := y.tsr.nibs
  ps.foldl (fun (s : State) p =>
    let (la, pa, leaf) := p
    let mine := es.filter (fun e => e.1 / 128 = la)
    let comp := leafComp leaf % 8
    let (g, s) := s.homeRead w.first (pa / 64) w.ctx comp true 0 (64 * la)
    let d := mine.foldl (fun d e => putElem d la e.1 n e.2) g.data
    let mask := mine.foldl (fun (k : BitVec 64) e => k ||| maskIn la (e.1 / 2, (n + 1) / 2)) 0
    s.homeWrite w.first (pa / 64) w.ctx comp d mask 0 (leafEt leaf)) s

/-- Elements written to global memory: pages first, then, with nothing in the way, the bytes at their homes. -/
def State.writeGlb (s : State) (y : Copy) (es : List (Nat × Nat)) (m : Met) : Met × State :=
  let (ps, m, s) := s.glbPages y es m
  (m, if m.clean then s.putElems y es ps else s)

/-- One element put into a local store at a nibble offset from `off`. -/
def Team.putNibs (t : Team) (sp off n : Nat) (e : Nat × Nat) : Team :=
  let bytes := (n + 1) / 2
  let old := t.readLocal sp (off + e.1 / 2) bytes
  let lo := e.1 % 2
  t.writeLocal sp (off + e.1 / 2) bytes (old % 16 ^ lo + 16 ^ lo * (e.2 % 16 ^ n) + old / 16 ^ (lo + n) * 16 ^ (lo + n))

/-- Elements written to the pushing team's SPAD. -/
def State.writeSpad (s : State) (y : Copy) (es : List (Nat × Nat)) : State :=
  s.modTeam (teamOf (gidOf y.tid)) (fun (t : Team) => es.foldl (fun (t : Team) e => t.putNibs 1 0 y.tsr.nibs e) t)

/-- The tile side of a copy to registers, by lane and register (17 R271); bytes beyond the tile leave their words. -/
def State.landRegs (s : State) (y : Copy) (gid first : Nat) (rows : List Nat) : State :=
  let p := y.tsr.pitch
  let size := y.tsr.tileBytes
  let tile := (List.range rows.length).foldl (fun v i => v + rows.getD i 0 * 2 ^ (8 * p * i)) 0
  let live := s.realMask gid 0
  ((s.realThreads gid).map (·.1)).foldl (fun (s : State) t => s.modReal t (fun (x : Thread) =>
    let x := (List.range (ceilDiv size 128)).foldl (fun (x : Thread) i =>
      let b := 128 * i + 4 * laneOf t
      let holds := x.sb.any (fun e => e.op == y.id && !e.isPred && e.n == first + i)
      if b < size && live != 0 && holds then x.putReg (first + i) (BitVec.ofNat 32 (tile / 2 ^ (8 * b))) false else x) x
    { x with sb := x.sb.filter (fun e => e.op ≠ y.id) })) s

/-- The phaser of a template and the translation of its object; a phaser that cannot be reached has its arrive discarded (03 R73). -/
def State.copyPhaser (s : State) (y : Copy) (m : Met) : Option (Place × List Hit) × Met × State :=
  if !y.tmpl.phv then (none, m, s)
  else match s.phPlace (teamOf (gidOf y.tid)) y.tmpl.phaser with
  | .error _ => (none, m, s)
  | .ok (.glb va) =>
    let c := s.ctxOfT y.tid
    match s.engPage c va .both (fun leaf => s.permits c leaf .both) with
    | (.ok pa leaf, s) =>
      let e : TlbEnt := { ctx := c, base := va / 65536 * 65536, leaf := leaf }
      (some (.glb va, [(pa, e)]), m, s)
    | (.fault n, s) => (none, m.addFault va n 2 y.pc, s)
    | (_, s) => (none, m, s)
  | .ok pl => (some (pl, []), m, s)

/-- The arrive of a completed copy, or its discard (03 R73). -/
def State.copyArrive (s : State) (y : Copy) (ph : Option (Place × List Hit)) : State :=
  if !y.tmpl.phv then s
  else
    let orphan (s : State) : State := s.count (coreSlice (s.coreOfT y.tid)) diagPhorph
    match ph with
    | none => orphan s
    | some (pl, hs) =>
      match s.readPh y.tid pl hs with
      | (none, _, s) => orphan s
      | (some v, loc, s) =>
        if !s.phOk (teamOf (gidOf y.tid)) pl v then orphan s
        else match phArrival v with
        | none => orphan s
        | some (v, true) => s.phComplete y.tid pl hs loc v
        | some (v, false) => s.writePh y.tid pl hs v

/-- A copy ends: it counts in its batch. -/
def State.endCopy (s : State) (core : Nat) (y : Copy) : State :=
  let s := s.modCore core (fun (k : Core) => { k with copies := k.copies.filter (fun x => x.id ≠ y.id) })
  (s.modBoth y.tid (fun t => t.copyDone y.id [jobScope (y.reads ++ y.writes)])).stir (s.ctxOfT y.tid)

/-- The elements of a tile in its local store, by nibble address on the tensor side, those of poisoned sectors left out. -/
def Copy.tileSide (y : Copy) (k : Team) (sp off : Nat) : List (Nat × Nat) :=
  let x := y.tsr
  let rows := x.rowNibs true y.tidx
  (List.range rows.length).flatMap (fun i =>
    let v := k.readLocal sp (off + i * x.pitch) x.pitch
    let r := rows.getD i []
    (List.range r.length).filterMap (fun j =>
      if k.poisonedAt sp (off + i * x.pitch + j * x.nibs / 2) ((x.nibs + 1) / 2) then none
      else (r.getD j none).map (fun a => (a, nibGet v 0 (j * x.nibs) x.nibs))))

/-- The whole transfer attempted: what it meets and, with nothing in the way, the state after it. -/
def State.copyTry (s : State) (core : Nat) (y : Copy) : Met × State :=
  let t := y.tmpl
  let x := y.tsr
  let (ph, m, s) := s.copyPhaser y {}
  match s.tileAt (teamOf (gidOf y.tid)) t x y.doff with
  | .error _ => (m, s.endCopy core y)
  | .ok at_ =>
    if !t.dir then
      let (rows, m, s) := s.readTensor y m
      if !m.clean then (m, s)
      else
        let packed := rows.map (packRow x.nibs)
        let s := s.substitute (s.ctxOfT y.tid) core m.subs
        let s := match at_ with
          | .regs gid first => s.landRegs y gid first packed
          | .loc u sp off =>
            let s := s.modTeam u (fun (k : Team) =>
              let k := (List.range packed.length).foldl (fun (k : Team) i => k.writeLocal sp (off + i * x.pitch) x.pitch (packed.getD i 0)) k
              if t.fe then k.setFull sp off x.tileBytes else k)
            if t.fe then s.serveFull u else s
        (m, (s.copyArrive y ph).endCopy core y)
    else
      match at_ with
      | .regs _ _ => (m, s.endCopy core y)
      | .loc u sp off =>
        let k := s.team u
        let m := if k.poisonedAt sp off x.tileBytes then m.addFail .poison 4 0 0 else m
        let es := y.tileSide k sp off
        if !m.clean then (m, s)
        else
          let (m, s) := if t.tsp then (m, s.writeSpad y es) else s.writeGlb y es m
          if !m.clean then (m, s) else (m, (s.copyArrive y ph).endCopy core y)

/-- A copy that its core holds. -/
def State.findCopy (s : State) (id : Nat) : Option (Nat × Copy) :=
  (s.cores.find? (fun e => e.2.copies.any (fun y => y.id = id))).bind (fun e =>
    (e.2.copies.find? (fun y => y.id = id)).map (fun y => (e.1, y)))

/-- The edges of 13 R230 and the answer to its faults let a copy go on. -/
def State.copyGoes (s : State) (core : Nat) (y : Copy) : Bool :=
  y.batch.isNone && s.mayBegin core (s.ctxOfT y.tid) y.acc y.reads y.writes

/-- The failure that a copy would meet now. -/
def State.copyFails (s : State) (core : Nat) (y : Copy) : Option JobFail :=
  if y.cancelled then some .cancelled
  else
    let m := (s.copyTry core y).1
    if m.faults.isEmpty then m.fail else none

/-- Where the poison lies that a copy would meet now: unit of the error entry, virtual and physical address. -/
def State.copyPoison (s : State) (core : Nat) (y : Copy) : Nat × Nat × Nat := (s.copyTry core y).1.failAt

/-- COPY_COMPLETE: the copy's bytes are written; pages that fault go to the fault queue and the copy waits (17 R270; 23 R362). -/
def execCopyComplete (id : Nat) (s : State) : Host.Outcome State Fault Refusal :=
  .next (match s.findCopy id with
  | none => s
  | some (core, y) =>
    if !s.copyGoes core y || y.cancelled then s
    else
      let (m, s') := s.copyTry core y
      if !m.faults.isEmpty then
        let (no, s') := s'.sendJobBatch y.tid y.id y.chan m
        s'.modCore core (fun (k : Core) => { k with copies := k.copies.map (fun x => if x.id = id then { x with batch := some no } else x) })
      else if m.fail.isSome then s
      else s')

/-! What a failed copy had written (17 R269). The spec does not say how far it had come: a free choice among the elements whose bytes could
be read and whose places could be written (log 42). -/

/-- A free choice of some elements. -/
def State.someElems (s : State) (es : List (Nat × Nat)) : List (Nat × Nat) × State :=
  (List.range ((es.length + 63) / 64)).foldl (fun (a : List (Nat × Nat) × State) i =>
    let (k, s) := a.2.draw
    let part := (es.drop (64 * i)).take 64
    (a.1 ++ ((List.range part.length).filter (fun j => (Config.freeValue k).getLsbD j)).map (fun j => part.getD j (0, 0)), s)) ([], s)

/-- The elements of the tensor side that a read copy can read, by nibble address on the tile side. -/
def State.tensorSide (s : State) (y : Copy) : List (Nat × Nat) × State :=
  let x := y.tsr
  let bytes := (x.nibs + 1) / 2
  let (rows, m, s) := s.readTensor y {}
  let addrs := (x.rowNibs false y.tidx).map (fun r => r.filterMap id)
  let t := s.team (teamOf (gidOf y.tid))
  let ok (a : Nat) : Bool :=
    if y.tmpl.tsp then !t.poisonedAt 1 (a / 2) bytes else !m.bads.contains (a / 64) && !m.bads.contains ((a / 2 + bytes - 1) / 32)
  ((List.range rows.length).flatMap (fun i =>
    let r := rows.getD i []
    (List.range r.length).filterMap (fun j =>
      if ok ((addrs.getD i []).getD j 0) then some (2 * i * x.pitch + j * x.nibs, r.getD j 0) else none)), s)

/-- Elements of a tile in the registers of a group, in words of at most 8 nibbles (17 R271). -/
def State.landSome (s : State) (y : Copy) (gid first : Nat) (es : List (Nat × Nat)) : State :=
  let n := y.tsr.nibs
  let live := s.realMask gid 0
  let parts := es.flatMap (fun e => if n ≤ 8 then [(e.1, n, e.2)] else [(e.1, 8, e.2 % 16 ^ 8), (e.1 + 8, 8, e.2 / 16 ^ 8)])
  if live = 0 then s
  else parts.foldl (fun (s : State) p =>
    let r := first + p.1 / 256
    s.modReal (tidOf gid (p.1 / 8 % 32)) (fun (x : Thread) =>
      if x.sb.any (fun e => e.op == y.id && !e.isPred && e.n == r) then
        x.putReg r (BitVec.ofNat 32 (setFld (x.reg r).toNat (4 * (p.1 % 8 + p.2.1) - 1) (4 * (p.1 % 8)) p.2.2)) false
      else x)) s

/-- Some of a failing copy's bytes, and the granules that they complete. -/
def State.keepSome (s : State) (y : Copy) : State :=
  let t := y.tmpl
  let x := y.tsr
  match s.tileAt (teamOf (gidOf y.tid)) t x y.doff with
  | .error _ => s
  | .ok at_ =>
    if !t.dir then
      let (all, s) := s.tensorSide y
      let (es, s) := s.someElems all
      match at_ with
      | .regs gid first => s.landSome y gid first es
      | .loc u sp off =>
        let s := s.modTeam u (fun (k : Team) => es.foldl (fun (k : Team) e => k.putNibs sp off x.nibs e) k)
        if !t.fe then s
        else
          let perRow := x.pitch / 16
          let whole (g : Nat) : Bool := (List.range (x.tile.headD 0)).all (fun j =>
            decide (j * x.nibs / 32 ≠ g % perRow) || es.any (fun e => e.1 == 2 * (g / perRow) * x.pitch + j * x.nibs))
          let s := s.modTeam u (fun (k : Team) =>
            (List.range (x.tileBytes / 16)).foldl (fun (k : Team) g => if whole g then k.setFull sp (off + 16 * g) 16 else k) k)
          s.serveFull u
    else
      match at_ with
      | .regs _ _ => s
      | .loc u sp off =>
        let (es, s) := s.someElems (y.tileSide (s.team u) sp off)
        if t.tsp then s.writeSpad y es
        else
          let (ps, _, s) := s.glbPages y es {}
          s.putElems y es ps

/-- A failed copy: nothing further is written, no arrive, and the pushing thread takes 0x0B (17 R269). -/
def State.failCopy (s : State) (core : Nat) (y : Copy) (aux : Nat) : State :=
  let s := s.keepSome y
  let s := (s.realThreads y.destGid).foldl (fun (s : State) e => s.modReal e.1 (fun x => { x with sb := x.sb.filter (fun b => b.op ≠ y.id) })) s
  (s.endCopy core y).defer y.tid { code := 0x0B, aux := BitVec.ofNat 32 aux } y.pc

/-- COPY_FAILURE: the copy stops with the failure it meets. -/
def execCopyFailure (id : Nat) (why : JobFail) (s : State) : Host.Outcome State Fault Refusal :=
  .next (match s.findCopy id with
  | none => s
  | some (core, y) =>
    if !s.copyGoes core y || s.copyFails core y != some why then s
    else match why with
    | .cancelled => s.failCopy core y 1
    | .poison =>
      let at_ := s.copyPoison core y
      s.consumeAs 0x0B y.tid at_.1 at_.2.1 at_.2.2 (fun s => s.failCopy core y 2)
    | .gate => s.failCopy core y 3)

/-! tmpl (17 R264-R266). -/

/-- The index that a group's set names, from its leader or, with no active lane, its first member. -/
def State.tmplIdx (s : State) (g : Guard) (d : Operand) (gid : Nat) : Option Nat :=
  let ts := s.members.filter (fun t => gidOf t = gid)
  let lead := (ts.find? (fun t => (s.thread t).pred g.val)).orElse (fun _ => ts.head?)
  match lead, d with
  | some t, .v n => if (s.thread t).clear false n.val ∧ n.val < (s.laneEnv gid).nregs then some ((s.thread t).reg n.val).toNat else none
  | _, _ => none

/-- A tmpl command sent; the members pass it. `dreg` is the register of a result. -/
def State.sendT (s : State) {α : Type} (u : Led α) (l : Fin 16) (fn : Nat) (idx : Word) (va : Nat) (dreg : Option Nat) : State :=
  let core := (s.team (teamOf u.gid)).core
  let (id, s) := s.fresh
  let c : TCmd := { fn := fn, gid := u.gid, tids := u.active, pc := s.cur.pc, idx := idx, va := va, dreg := dreg.getD 0, op := id }
  let s := s.modCore core (fun (k : Core) => { k with tcmds := k.tcmds ++ [c] })
  let s := match dreg with
    | some n => s.holdLanes u.gid id n
    | none => s
  u.members.foldl (fun (s : State) t => s.modThread t (fun x => { x with look := x.look ++ [(id, l.val)] })) (s.passAll u.members)

/-- The pages that a tmpl command reads or writes, as far as they can be told: the address given, then the record that the image names and
the table's entry. Whether the last may be written is no question of the program's rights (17 R264, R266). -/
def State.tmplPages (s : State) (leader fn : Nat) (idx : Word) (va : Nat) : List (Nat × AccK) :=
  if fn = 0 ∧ s.xlate leader va .read ≠ .miss then
    let img := (s.jobRead (s.jobOf leader true s.cur.pc) va 32 {}).1
    [(va, .read), ((tmplOf img).recVa, .read), (cpyBase (s.ctlFor (s.ctxOfT leader) (gidOf leader)).cpytab + 32 * idx.toNat, .write)]
  else [(va, .read)]

/-- A tmpl command translates at issue, as every memory instruction does: a page without translation is walked for the group, which
parks on a fault, and a page that may not be read is refused (05 R101; 15 R240; 23 R359). -/
def State.translateT (s : State) {α : Type} (u : Led α) (l : Fin 16) (fn : Nat) (idx : Word) (va : Nat) (dreg : Option Nat) : State :=
  let ps := s.tmplPages u.leader fn idx va
  let misses := ps.filter (fun p => decide (s.xlate u.leader p.1 p.2 = .miss))
  if !misses.isEmpty then s.waitXlate u.gid u.members (misses.flatMap (fun m => u.active.map (fun t => (t, m.1, m.2))))
  else match (ps.take 2).findSome? (fun p => match s.xlate u.leader p.1 p.2 with | .refused c => some c | _ => none) with
  | some c => (s.passAll (u.members.filter (fun t => !u.active.contains t))).trapMembers (u.active.map (fun t => (t, c)))
  | none => s.sendT u l fn idx va dreg

/-- The groups of the set, an index at or above COUNT first (0x02 whatever the guard). -/
def State.tmplSet (s : State) (g : Guard) (d : Operand) (indexed : Bool) (part : State → Nat → State) : State :=
  (groupsIn s.members).foldl (fun (s : State) gid =>
    let ts := s.members.filter (fun t => gidOf t = gid)
    let count := cpyCount (s.ctlFor (s.team (teamOf gid)).ctx gid).cpytab
    let bad := indexed && (match s.tmplIdx g d gid with | some i => decide (count ≤ i) | none => false)
    if (s.group gid).inRa then s.endRunAhead ts
    else if bad then s.trapMembers (ts.map (fun t => (t, { code := 0x02 })))
    else part s gid) s

/-- An address operand with its alignment: 0x04, then 0x06. The record address of tmpl.valid is a multiple of 64 as 17 R259 has it; the
cause of one that is not is the model's choice (DESIGN CHOICE, log 69). -/
def tmplAddr (a : Operand) (align : Nat) : LaneM Nat := do
  let v ← rd2 a
  if v.toNat % align ≠ 0 then laneTrap 0x04 (BitVec.ofNat 32 align) v
  else if 2 ^ 50 ≤ v.toNat then laneTrap 0x06 3 v
  else return v.toNat

def execTmplInst (g : Guard) (l : Fin 16) (d a : Operand) (s : State) : Host.Outcome State Fault Refusal :=
  .next (s.tmplSet g d true (fun s gid =>
    s.uniformGroup g [src d, src a] true (do let i ← rd1 d; let v ← tmplAddr a 32; return (i, v))
      (fun s u => if u.poi then s.passAll u.members else s.translateT u l 0 u.val.1 u.val.2 none) gid))

def execTmplValid (g : Guard) (l : Fin 16) (d a : Operand) (s : State) : Host.Outcome State Fault Refusal :=
  .next (s.tmplSet g d false (fun s gid =>
    s.uniformGroup g [src a, dst d] true (tmplAddr a 64)
      (fun s u => match d with
        | .v n => if u.poi then (s.writeLanes gid n.val [0] false).passAll u.members else s.translateT u l 1 0 u.val (some n.val)
        | _ => s) gid))

def execTmplDrop (g : Guard) (l : Fin 16) (d : Operand) (s : State) : Host.Outcome State Fault Refusal :=
  .next (s.tmplSet g d true (fun s gid =>
    s.uniformGroup g [src d] true (rd1 d) (fun s u => if u.poi then s.passAll u.members else s.sendT u l 2 u.val 0 none) gid))

/-- A tmpl command leaves the queue; the lookahead it bounded goes on. -/
def State.endT (s : State) (core : Nat) (c : TCmd) : State :=
  let s := s.modCore core (fun (k : Core) => { k with tcmds := k.tcmds.filter (fun x => x.op ≠ c.op) })
  s.eachOf c.gid (fun t => { t with look := t.look.filter (fun e => e.1 ≠ c.op) })

/-- A tmpl command that fails: its result is unwritten and its cause reaches the active members. -/
def State.failT (s : State) (core : Nat) (c : TCmd) (k : Cause) : State :=
  let s := (s.endT core c).eachOf c.gid (fun t => { t with sb := t.sb.filter (fun e => e.op ≠ c.op) })
  c.tids.foldl (fun (s : State) t => s.defer t k c.pc) s

/-- A failure met by a tmpl command's reads. -/
def State.failTBy (s : State) (core : Nat) (c : TCmd) (f : JobFail) (place : Nat × Nat × Nat) : State :=
  match f with
  | .cancelled => s.failT core c { code := 0x0B, aux := 1 }
  | .poison => s.consume (c.tids.headD 0) place.1 place.2.1 place.2.2
      (fun s => s.failT core c { code := 0x0D, addr := BitVec.ofNat 64 place.2.1 })
  | .gate => s.failT core c { code := 0x06, addr := BitVec.ofNat 64 place.2.1, aux := 6 }

def State.waitT (s : State) (core : Nat) (c : TCmd) (m : Met) : State :=
  let (no, s) := s.sendJobBatch (c.tids.headD 0) c.op 0 m
  s.modCore core (fun (k : Core) => { k with tcmds := k.tcmds.map (fun x => if x.op = c.op then { x with batch := some no } else x) })

/-- TMPL_ACCEPT: the oldest tmpl command of a core is checked and takes effect on every core (17 R264, R265). -/
def execTmplAccept (core : Nat) (s : State) : Host.Outcome State Fault Refusal :=
  .next (match (s.core core).tcmds with
  | [] => s
  | c :: _ =>
    let tid := c.tids.headD 0
    let ctx := s.ctxOfT tid
    if c.batch.isSome then s
    else if c.cancelled then s.failTBy core c .cancelled (9, 0, 0)
    else if c.fn = 2 then
      ((s.stir ctx).modCtx ctx (fun x => { x with tmplValid := x.tmplValid.filter (· ≠ c.idx.toNat) })).endT core c
    else match s.ownStores c.tids c.va (if c.fn = 1 then 64 else 32) with
    | none => s
    | some s =>
    if c.fn = 1 then
      let (v, m, s) := (s.stir ctx).jobRead (s.jobOf tid true c.pc) c.va 64 {}
      if !m.faults.isEmpty then s.waitT core c m
      else match m.fail with
      | some f => s.failTBy core c f m.failAt
      | none =>
        let x := tsrOf v
        match firstReason (tsrReasons x false false) with
        | some r => s.failT core c { code := 0x08, aux := BitVec.ofNat 32 r }
        | none => (s.eachOf c.gid (fun t => t.deliver c.op (.regs c.dreg 1) [BitVec.ofNat 32 x.tiles])).endT core c
    else
      let (img, m, s) := (s.stir ctx).jobRead (s.jobOf tid true c.pc) c.va 32 {}
      if !m.faults.isEmpty then s.waitT core c m
      else match m.fail with
      | some f => s.failTBy core c f m.failAt
      | none =>
        match s.checkCopy tid c.pc img false with
        | (.held, s) => s
        | (.wait m, s) => s.waitT core c m
        | (.failed f place, s) => s.failTBy core c f place
        | (.cause k, s) => s.failT core c k
        | (.ok _ _, s) =>
          let va := cpyBase (s.ctlFor ctx c.gid).cpytab + 32 * c.idx.toNat
          let (p, m, s) := s.jobPage ctx va .write (fun _ => true) c.pc {}
          match p with
          | some (pa, leaf) =>
            let s := s.homePut (ctxFirst ctx) ctx (leafComp leaf % 8) pa 32 img false
            (s.modCtx ctx (fun x => { x with tmplValid := insertNew c.idx.toNat x.tmplValid })).endT core c
          | none => if m.faults.isEmpty then s.failTBy core c (m.fail.getD .cancelled) m.failAt else s.waitT core c m)

end Sys2Proof.Machine
end

