-- ==== Sys2Proof/Machine/Texture.lean ====
section
/-! DEFINITION. Levelled resources: descriptors and residency (19 R287-R295), texture loads (R296-R299), feedback (R300-R303), and the
completion of loads (05 R100; 11 R191). -/

namespace Sys2Proof.Machine

/-! Descriptors (19 R287-R291). -/

/-- A resource descriptor. -/
structure Desc where
  v : Bool
  kind : Nat
  nlev : Nat
  floor : Nat
  base : Nat
  rmap : Nat
  w0 : Nat
  h0 : Nat
  umode : Nat
  vmode : Nat
  linear : Bool
  fmts : Nat
  mbz : Bool
deriving DecidableEq, Repr

def descOf (x : Nat) : Desc :=
  { v := fld x 0 0 == 1, kind := fld x 2 1, nlev := fld x 6 3, floor := fld x 10 7, base := fld x 49 16 * 65536, rmap := fld x 113 67 * 8,
    w0 := fld x 143 128 + 1, h0 := fld x 159 144 + 1, umode := fld x 161 160, vmode := fld x 163 162, linear := fld x 164 164 == 1,
    fmts := fld x 255 192,
    mbz := fld x 15 11 != 0 || fld x 66 50 != 0 || fld x 127 114 != 0 || fld x 191 165 != 0 || fld x 511 256 != 0 }

def Desc.fmt (d : Desc) (l : Nat) : Nat := d.fmts / 16 ^ l % 16

/-- The checks of 19 R291 on a descriptor: TRAPAUX of trap 0x02. -/
def Desc.cause (d : Desc) : Option Nat :=
  if !d.v then some 2
  else if 2 ≤ d.kind ∨ d.umode = 3 ∨ d.vmode = 3 ∨ d.nlev < d.floor ∨ d.mbz ∨ (List.range (d.nlev + 1)).any (fun l => decide (8 ≤ d.fmt l)) then
    some 3
  else none

/-- Bytes of a texel and its page block (19 R289). -/
def texBytes (f : Nat) : Nat :=
  match f with
  | 0 => 1
  | 2 => 2
  | 3 | 6 => 8
  | 5 => 16
  | _ => 4
def pageW (f : Nat) : Nat :=
  match f with
  | 0 | 2 => 256
  | 5 => 64
  | _ => 128
def pageH (f : Nat) : Nat :=
  match f with
  | 0 => 256
  | 3 | 5 | 6 => 64
  | _ => 128

/-- Width and height of a level, and its pages along each axis (19 R290). -/
def Desc.w (d : Desc) (l : Nat) : Nat := if d.kind = 0 then Nat.max 1 (d.w0 / 2 ^ l) else d.w0
def Desc.h (d : Desc) (l : Nat) : Nat := if d.kind = 0 then Nat.max 1 (d.h0 / 2 ^ l) else d.h0
def Desc.px (d : Desc) (l : Nat) : Nat := ceilDiv (d.w l) (pageW (d.fmt l))
def Desc.py (d : Desc) (l : Nat) : Nat := ceilDiv (d.h l) (pageH (d.fmt l))
def Desc.start (d : Desc) (l : Nat) : Nat := (List.range l).foldl (fun a i => a + d.px i * d.py i) 0
def Desc.pageOf (d : Desc) (l x y : Nat) : Nat := d.start l + y / pageH (d.fmt l) * d.px l + x / pageW (d.fmt l)
def Desc.texel (d : Desc) (l x y : Nat) : Nat :=
  let f := d.fmt l
  d.base + 65536 * d.pageOf l x y + (y % pageH f * pageW f + x % pageW f) * texBytes f

/-- Base and entry count of the resource table (19 R287). -/
def resBase (x : DWord) : Nat := fld x.toNat 49 12 * 4096
def resCount (x : DWord) : Nat := (fld x.toNat 9 0 + 1) * 64

/-- What keeps a lookup from its answer: a page to translate, a cause, poison consumed; and in run-ahead a page gathered, or the end of
the run-ahead (23 R360). -/
inductive TexStop where
  | miss (va : Nat)
  | cause (c : Cause)
  | poison (va pa : Nat)
  | gathered
  | ends
deriving DecidableEq, Repr

/-- A page that a translation agent reads for a thread, whatever the page's R, W and SYS (19 R287, R290); a link peer may answer with an
error (01 R36). -/
def State.agentPage (s : State) (tid va : Nat) : Except TexStop (Nat × TlbEnt) × State :=
  let reached (pa : Nat) (e : TlbEnt) (s : State) : Except TexStop (Nat × TlbEnt) × State :=
    if s.peerError pa then
      (.error (if (s.group (gidOf tid)).inRa then .ends else .cause { code := 0x05, addr := BitVec.ofNat 64 va }), s)
    else (.ok (pa, e), s)
  if (s.group (gidOf tid)).inRa then
    match s.raXlate tid va .agent with
    | (.got pa e, s) => reached pa e s
    | (.gathered, s) => (.error .gathered, s)
    | (.ends, s) => (.error .ends, s)
  else
    match s.xlate tid va .agent with
    | .hit pa e => reached pa e s
    | .miss => (.error (.miss va), s)
    | .refused c => (.error (.cause c), s)

/-- Bytes that a translation agent reads for a thread at their homes. A tld or smp takes zeros for a poisoned sector of an error-tolerant
page (25 R379). -/
def State.devRead (s : State) (tid va n : Nat) (tex : Bool := true) : Except TexStop Nat × State :=
  let c := s.ctxOfT tid
  match s.agentPage tid va with
  | (.error x, s) => (.error x, s)
  | (.ok (pa, e), s) =>
    let (v, p, s) := s.homeBytes (ctxFirst c) c (leafComp e.leaf % 8) pa n va
    if p = 0 then (.ok v, s)
    else if tex && leafEt e.leaf then (.ok 0, s.substituteOnce c (s.coreOfT tid) [(va, pa)])
    else (.error (.poison va pa), s)

/-- The descriptor that a resource index names (19 R291). -/
def State.resNamed (s : State) (tid : Nat) (r : Word) (tex : Bool := true) : Except TexStop Desc × State :=
  let tab := (s.ctlFor (s.ctxOfT tid) (gidOf tid)).restab
  let bad (aux : Nat) : Except TexStop Desc := .error (.cause { code := 0x02, aux := BitVec.ofNat 32 aux })
  if 65536 ≤ r.toNat ∨ resCount tab ≤ r.toNat then (bad 1, s)
  else match s.devRead tid (resBase tab + 64 * r.toNat) 64 tex with
  | (.error x, s) => (.error x, s)
  | (.ok v, s) =>
    (match (descOf v).cause with
     | some aux => bad aux
     | none => .ok (descOf v), s)

/-! Coordinates (19 R297, R299). -/

/-- floor of an exact value; infinities and NaN do not reach it. -/
def Fv.floor : Fv → Int
  | .fin s n d => if s then -(((n + d - 1) / d : Nat) : Int) else ((n / d : Nat) : Int)
  | _ => 0

/-- Rounding to f32 under RNE without flushing, as a value. -/
def rnd32 (x : Fv) : Fv := f32.value (f32.round .rne false x)

/-- coord(t, E). -/
def texCoord (t : Nat) (e : Nat) : Fv :=
  let c := match f32.value t with
    | .nan => Fv.fin false 0 1
    | v => rnd32 (v.mul (.fin false e 1))
  let lim := Fv.fin false (2 ^ 24) 1
  if c.lt lim.neg then lim.neg else if lim.lt c then lim else c

/-- wrap_mode(i, E, mode). -/
def wrapMode (mode : Nat) (i : Int) (e : Nat) : Nat :=
  if mode = 0 then (if i < 0 then 0 else Nat.min i.toNat (e - 1))
  else if mode = 1 then (i % (e : Int)).toNat
  else
    let m := (i % (2 * e : Int)).toNat
    if m < e then m else 2 * e - 1 - m

/-- The texels that smp reads at a level, and the fractions of a bilinear filter. -/
def Desc.samples (d : Desc) (l u v : Nat) : List (Nat × Nat) × Fv × Fv :=
  let w := d.w l
  let h := d.h l
  let half := Fv.fin false 1 2
  if d.linear then
    let x := rnd32 (Fv.sub false (texCoord u w) half)
    let y := rnd32 (Fv.sub false (texCoord v h) half)
    let i := x.floor
    let j := y.floor
    let a (i : Int) := wrapMode d.umode i w
    let b (j : Int) := wrapMode d.vmode j h
    ([(a i, b j), (a (i + 1), b j), (a i, b (j + 1)), (a (i + 1), b (j + 1))],
     Fv.sub false x (Fv.ofInt i), Fv.sub false y (Fv.ofInt j))
  else ([(wrapMode d.umode (texCoord u w).floor w, wrapMode d.vmode (texCoord v h).floor h)], .fin false 0 1, .fin false 0 1)

/-- The wanted level of smp. -/
def wantedLod (x nlev : Nat) : Nat :=
  match f32.value x with
  | .nan => 0
  | .inf s => if s then 0 else nlev
  | .fin s n d => if s || decide (2 * n < d) then 0 else Nat.min ((2 * n + d) / (2 * d)) nlev

/-- touched(k). -/
def Desc.touched (d : Desc) (smp : Bool) (q : List Word) (want k : Nat) : List (Nat × Nat) :=
  let x := (q.getD 1 0).toNat
  let y := (q.getD 2 0).toNat
  if smp then (d.samples k x y).1
  else if d.kind = 0 then [(x / 2 ^ (k - want), y / 2 ^ (k - want))] else [(x, y)]

/-- A lane's lookup (19 R297): levels, the pages due for feedback, and whether its coordinates lie outside. -/
structure TexPlan where
  want : Nat
  ach : Nat
  zero : Bool := false
  oor : Bool := false
  due : List (Nat × Nat × Nat) := []
deriving DecidableEq, Repr

/-- The pages among `ps` that are not resident (19 R290). -/
def State.lookPages (s : State) (tid : Nat) (d : Desc) (ps : List Nat) : Except TexStop (List Nat) × State :=
  ps.foldl (fun (a : Except TexStop (List Nat) × State) n =>
    match a with
    | (.ok l, s) =>
      (match s.devRead tid (d.rmap + n / 8) 1 with
       | (.error x, s) => (.error x, s)
       | (.ok v, s) => (.ok (if v / 2 ^ (n % 8) % 2 = 1 then l else insertNew n l), s))
    | r => r) (.ok [], s)

/-- The pages of the texels touched at a level. -/
def Desc.pagesAt (d : Desc) (smp : Bool) (q : List Word) (want k : Nat) : List Nat :=
  (d.touched smp q want k).foldl (fun l t => insertNew (d.pageOf k t.1 t.2) l) []

/-- The fallback chain from a level on; `n` levels remain. -/
def State.chain (s : State) (tid : Nat) (d : Desc) (smp : Bool) (q : List Word) (want n k : Nat) : Except TexStop (Option Nat) × State :=
  match n with
  | 0 => (.ok none, s)
  | n + 1 =>
    match s.lookPages tid d (d.pagesAt smp q want k) with
    | (.error x, s) => (.error x, s)
    | (.ok l, s) => if l.isEmpty then (.ok (some k), s) else s.chain tid d smp q want n (k + 1)

/-- The plan of a lane (19 R297, R300). -/
def State.texPlan (s : State) (tid : Nat) (d : Desc) (smp : Bool) (q : List Word) : Except TexStop TexPlan × State :=
  let lod := (q.getD 3 0).toNat
  let want := if smp then wantedLod lod d.nlev else Nat.min lod d.nlev
  let inside := smp || (decide ((q.getD 1 0).toNat < d.w want) && decide ((q.getD 2 0).toNat < d.h want))
  if !inside then (.ok { want := want, ach := want, oor := true }, s)
  else
    let last := Nat.max want d.floor
    match s.chain tid d smp q want (last + 1 - want) want with
    | (.error e, s) => (.error e, s)
    | (.ok found, s) =>
      match s.lookPages tid d (d.pagesAt smp q want want) with
      | (.error x, s) => (.error x, s)
      | (.ok absent, s) =>
        let at_ (n : Nat) : Nat × Nat × Nat := (n, (n - d.start want) % d.px want, (n - d.start want) / d.px want)
        let due := (absent.mergeSort (fun a b => decide (a ≤ b))).map at_
        match found with
        | some k => (.ok { want := want, ach := k, due := due }, s)
        | none => (.ok { want := want, ach := last, zero := true, due := due }, s)

/-- The addresses of the texels that a plan reads. -/
def Desc.reads (d : Desc) (smp : Bool) (q : List Word) (p : TexPlan) : List Nat :=
  if p.oor || p.zero then [] else (d.touched smp q p.want p.ach).map (fun t => d.texel p.ach t.1 t.2)

/-! Values (19 R289, R297-R299). -/

/-- A channel of a texel as f32. -/
def channel (f v c : Nat) : Nat :=
  let absent := if c = 3 then 0x3F800000 else 0
  let cv (g : Fmt) (n : Nat) : Nat := if c < n then f32.round .rne false (g.value (v / 2 ^ (g.width * c) % 2 ^ g.width)) else absent
  match f with
  | 0 => if c = 0 then f32.round .rne false (.fin false (v % 256) 255) else absent
  | 1 => f32.round .rne false (.fin false (v / 2 ^ (8 * c) % 256) 255)
  | 2 => cv f16 1
  | 3 => cv f16 4
  | 4 => cv f32 1
  | 5 => cv f32 4
  | 6 => cv bf16 4
  | _ => cv e4m3 4

/-- lerp of 19 R299, on f32 encodings. -/
def lerp32 (p q : Nat) (f : Fv) : Nat :=
  let a := f32.value p
  f32.round .rne false (Fv.add false a (rnd32 (f.mul (rnd32 (Fv.sub false (f32.value q) a)))))

/-- The data words of a lane from the texels it read. -/
def Desc.data (d : Desc) (smp : Bool) (q : List Word) (p : TexPlan) (n : Nat) (ts : List Nat) : List Word :=
  if ts.isEmpty then List.replicate n 0
  else if smp then
    let f := d.fmt p.ach
    let (_, fx, fy) := d.samples p.ach (q.getD 1 0).toNat (q.getD 2 0).toNat
    (List.range n).map (fun c =>
      let t (i : Nat) := channel f (ts.getD i 0) c
      BitVec.ofNat 32 (if d.linear then lerp32 (lerp32 (t 0) (t 1) fx) (lerp32 (t 2) (t 3) fx) fy else t 0))
  else (List.range n).map (fun i => BitVec.ofNat 32 (ts.headD 0 / 2 ^ (32 * i)))

/-- The status word (19 R298), before the feedback agent's bits. -/
def TexPlan.status (p : TexPlan) : Word :=
  let fb := p.zero || p.ach != p.want
  BitVec.ofNat 32 (p.ach + p.want * 16 + (if fb then 256 else 0) + (if p.zero then 2048 else 0) + (if p.oor then 4096 else 0))

/-! tld and smp. -/

def texWords : TexW → Nat
  | .b32 => 1
  | .b64 => 2
  | .b128 => 4

/-- Destination and quad of a lane; poisoned operands make no access. -/
def texBody (d a : Operand) (n : Nat) : LaneM (Loc × Option (List Word)) := do
  memReady (memdefAcc 0 0)
  let q ← rdN a 4
  needKnown
  let loc ← locate d (n + 1) .dst
  destFree loc (n + 1)
  let p ← isPoi
  if p then
    putN loc (List.replicate (n + 1) 0)
    return (loc, none)
  else return (loc, some q)

/-- A lane that is to make its texture load, with its descriptor or what keeps that from it. -/
structure TexLane where
  tid : Nat
  ls : LaneSt
  loc : Loc
  q : List Word
  d : Except TexStop Desc

/-- Texels read as relaxed loads: values, and what poison gives. -/
def State.readTexels (s : State) (tid n : Nat) (hs : List Hit) (vas : List Nat) : List Nat × Option (Nat × Nat × Nat) × State :=
  let w := s.whoT tid
  (hs.zip vas).foldl (fun (a : List Nat × Option (Nat × Nat × Nat) × State) h =>
    let (vs, bad, s) := a
    let ((pa, e), va) := h
    let s := s.orderBefore tid s.nextId (some (0, pa, n))
    let (g, s) := s.readLine w (pa / 64) (leafComp e.leaf % 8) 0 false va
    let hit := g.poison &&& sectorsOf (byteMask (pa % 64) n)
    if hit = 0 then (vs ++ [lineGet g.data (pa % 64) n], bad, s)
    else if leafEt e.leaf then
      (vs ++ [lineGet (lineMerge g.data 0 (sectorBytes hit)) (pa % 64) n], bad, s.substituteOnce w.ctx w.core (sectorsMet hit va pa))
    else (vs ++ [0], some (bad.getD (3, va, pa)), s)) ([], none, s)

/-- A texture load on its way with the words of D, or with what poison gives. -/
def State.texLoad (s : State) (l : Fin 16) (n set : Nat) (x : TexLane) (ws : List Word) (bad : Option (Nat × Nat × Nat)) : State :=
  s.startLoad x.tid x.ls l false (fun id =>
    { id := id, tid := x.tid, pc := s.cur.pc, dest := destOf x.loc (n + 1) id,
      kind := .words (if bad.isSome then List.replicate (n + 1) 0 else ws) bad, acq := none, tex := true, issued := s.clock, set := set })

/-- A due entry of a lane's load (19 R300). Its STAMP is taken at the load's issue: DESIGN CHOICE (log 71). -/
def feedEntry (res vtime : Nat) (p : TexPlan) (u : Nat × Nat × Nat) : BitVec 128 := BitVec.ofNat 128
  (res + p.want * 2 ^ 16 + p.ach * 2 ^ 20 + (if p.zero then 2 ^ 24 else 0) + u.2.1 * 2 ^ 32 + u.2.2 * 2 ^ 48 + u.1 * 2 ^ 64
    + fld vtime 41 10 * 2 ^ 96)

/-- One lane's load starts, with its feedback entries due (19 R300). -/
def State.texStart (s : State) (l : Fin 16) (smp nofb : Bool) (n set : Nat) (x : TexLane) (d : Desc) (p : TexPlan) (hs : List Hit) : State :=
  let (ts, bad, s) := s.readTexels x.tid (texBytes (d.fmt p.ach)) hs (d.reads smp x.q p)
  let id := s.nextId
  let c := s.ctxOfT x.tid
  let res := (x.q.headD 0).toNat
  let fb := p.zero || p.ach != p.want
  let due : List Feed :=
    if fb && !nofb then p.due.map (fun u => ⟨id, s.coreOfT x.tid, c, res, u.1, feedEntry res (s.vtime c) p u⟩) else []
  let s := s.texLoad l n set x (d.data smp x.q p n ts ++ [p.status]) bad
  { s with feeds := s.feeds ++ due }

/-- The plan of a lane whose descriptor is known. -/
def State.texPlanOf (s : State) (smp : Bool) (x : TexLane) : Except TexStop TexPlan × State :=
  match x.d with
  | .ok d => s.texPlan x.tid d smp x.q
  | .error e => (.error e, s)

/-- The pages of the texels that a planned lane reads. -/
def texPages (smp : Bool) (x : TexLane) (p : Except TexStop TexPlan) : List (Nat × AccK) :=
  match x.d, p with
  | .ok d, .ok p => (d.reads smp x.q p).map (fun va => (va, AccK.unit))
  | _, _ => []

/-- In run-ahead every page that a lane would use is translated or gathered, and its results are unknown (23 R360). -/
def State.texRa (s : State) (smp : Bool) (n : Nat) (x : TexLane) : State :=
  let unknown (s : State) : State :=
    let th := match x.loc with
      | .reg k => (List.range (n + 1)).foldl (fun (t : Thread) i => t.putReg (k + i) 0 true) x.ls.th
      | .queue _ => x.ls.th
    s.commitAcc x.tid { x.ls with th := th }
  match s.texPlanOf smp x with
  | (.error .gathered, s) | (.error (.poison _ _), s) => unknown s
  | (.error _, s) => s.endRunAhead [x.tid]
  | (.ok p, s) =>
    let (cut, s) := (texPages smp x (.ok p)).foldl (fun (a : Bool × State) v =>
      if a.1 then a
      else match a.2.raXlate x.tid v.1 v.2 with
      | (.ends, s) => (true, s)
      | (_, s) => (false, s)) (false, s)
    if cut then s.endRunAhead [x.tid] else unknown s

/-- The lanes of a texture load once every page they need is translated: lookups in ascending lane order (19 R297, R301). -/
def State.texLanes (s : State) (l : Fin 16) (smp nofb : Bool) (n : Nat) (lanes : List TexLane) (skips : List Nat) (traps : List (Nat × Cause)) :
    State :=
  let (plans, s) := lanes.foldl (fun (acc : List (TexLane × Except TexStop TexPlan) × State) x =>
    let (p, s) := acc.2.texPlanOf smp x
    (acc.1 ++ [(x, p)], s)) ([], s)
  let lookups := plans.filterMap (fun e => match e.2 with | .error (.miss va) => some (e.1.tid, va, AccK.agent) | _ => none)
  let texels := plans.flatMap (fun e => (texPages smp e.1 e.2).map (fun v => (e.1.tid, v.1, v.2)))
  match lookups ++ texels.filter (fun w => decide (s.xlate w.1 w.2.1 w.2.2 = .miss)) with
  | m :: ms => (s.waitXlate (gidOf m.1) (lanes.map (·.tid) ++ skips) (m :: ms)).trapMembers traps
  | [] =>
    let set := s.nextId
    let r := plans.foldl (fun (acc : State × List (Nat × Cause)) e =>
      let (s, tr) := acc
      let x := e.1
      match x.d, e.2 with
      | _, .error (.poison va pa) => (s.texLoad l n set x [] (some (1, va, pa)), tr)
      | _, .error (.cause c) => (s, tr ++ [(x.tid, c)])
      | .ok d, .ok p =>
        (match s.lanePages x.tid (texPages smp x (.ok p)) true with
        | .error c => (s, tr ++ [(x.tid, c)])
        | .ok hits =>
          if s.laneClear x.tid hits then
            let s := hits.foldl (fun s h => s.touchLast (s.coreOfT x.tid) (laneOf x.tid) h.2) s
            (s.texStart l smp nofb n set x d p hits, tr)
          else (s.retryAll [x.tid], tr))
      | _, _ => (s, tr)) (s.passAll skips, traps)
    r.1.trapMembers r.2

/-- tld or smp over its issue set, whatever groups its members belong to: the descriptor that each member names is checked whatever the
guard (19 R291, R296; 00 R13), then the lanes look up and load. -/
def State.texSet (s : State) (g : Guard) (l : Fin 16) (d a : Operand) (smp nofb : Bool) (n : Nat) : State :=
  let ra (t : Nat) : Bool := (s.group (gidOf t)).inRa
  let r := match a with | .v k => k.val | _ => 0
  let ts := s.members.filter (fun t => ra t || (s.thread t).clear false r)
  let s := s.retryAll (s.members.filter (fun t => !ts.contains t))
  let (named, s) := ts.foldl (fun (acc : List (Nat × Option (Except TexStop Desc)) × State) t =>
    match (acc.2.thread t).handle (acc.2.laneEnv (gidOf t)).nregs a 0 with
    | none => (acc.1 ++ [(t, none)], acc.2)
    | some v =>
      let (x, s) := acc.2.resNamed t v
      (acc.1 ++ [(t, some x)], s)) ([], s)
  let misses := named.filterMap (fun e => match e.2 with | some (.error (.miss va)) => some (e.1, va, AccK.agent) | _ => none)
  let named := if misses.isEmpty then named else named.filter (fun e => ra e.1)
  let s := match misses with
    | m :: _ => s.waitXlate (gidOf m.1) (ts.filter (fun t => !ra t)) misses
    | [] => s
  let rs := named.map (fun e =>
    let extra : Option Cause := match e.2 with
      | some (.error (.cause c)) => some c
      | some (.error .ends) => some { code := 0x05 }
      | _ => none
    (e.1, e.2, laneRunX (s.laneEnv (gidOf e.1)) g.val (wideUse a 4 ++ [dst d]) extra (texBody d a n) (s.thread e.1)))
  let blocked := rs.filterMap (fun x => match x.2.2 with | .block => some x.1 | _ => none)
  let ended := rs.filterMap (fun x => match x.2.2 with | .raEnd => some x.1 | _ => none)
  let skips := rs.filterMap (fun x => match x.2.2 with | .skip => some x.1 | _ => none)
  let traps := rs.filterMap (fun x => match x.2.2 with | .trap c => some (x.1, c) | _ => none)
  let idle := rs.filterMap (fun x => match x.2.2 with | .ran (_, none) ls => some (x.1, ls) | _ => none)
  let lanes : List TexLane := (List.range 32).flatMap (fun k => rs.filterMap (fun x => match x.2.1, x.2.2 with
    | some d, .ran (loc, some q) ls => if laneOf x.1 = k then some { tid := x.1, ls := ls, loc := loc, q := q, d := d } else none
    | _, _ => none))
  let s := idle.foldl (fun s e => s.commitAcc e.1 e.2) ((s.retryAll blocked).endRunAhead ended)
  let s := (lanes.filter (fun x => ra x.tid)).foldl (fun s x => s.texRa smp n x) (s.passAll (skips.filter ra))
  s.texLanes l smp nofb n (lanes.filter (fun x => !ra x.tid)) (skips.filter (fun t => !ra t)) traps

def execTld (g : Guard) (l : Fin 16) (d a : Operand) (w : TexW) (nofb : Bool) (s : State) : Host.Outcome State Fault Refusal :=
  .next (s.texSet g l d a false nofb (texWords w))

def execSmp (g : Guard) (l : Fin 16) (d a : Operand) (w : TexW) (nofb : Bool) (s : State) : Host.Outcome State Fault Refusal :=
  .next (s.texSet g l d a true nofb (texWords w))

/-! Feedback (19 R301, R302). -/

/-- A bit set in the status word of a load that has not completed. -/
def State.flagLoad (s : State) (id : Nat) (bit : Word) : State :=
  { s with loads := s.loads.map (fun (l : Load) =>
    if l.id ≠ id then l
    else match l.kind with
    | .words ws none =>
      { l with kind := .words (ws.take (ws.length - 1) ++ [ws.getLastD 0 ||| bit]) none }
    | _ => l) }

/-- One append attempted by the feedback agent. -/
def State.appendFeed (s : State) (f : Feed) : State :=
  let key := (f.ctx, f.res, f.pn)
  if (s.core f.core).filter.contains key then s.flagLoad f.load 0x400
  else
    let k := (s.ctx f.ctx).ctl
    let used := (k.feedhead - k.feedtail).toNat
    let lost (s : State) : State :=
      (s.modCtx f.ctx (fun x => { x with feedlost := Nat.min (x.feedlost + 1) 0xFFFFFFFF })).flagLoad f.load 0x200
    if k.feedsize = 0 ∨ 2 ^ 24 < k.feedsize.toNat ∨ k.feedsize.toNat ≤ used ∨ k.feedbase.toNat % 16 ≠ 0 ∨ 2 ^ 50 ≤ k.feedbase.toNat then lost s
    else
      let va := k.feedbase.toNat + 16 * (k.feedhead.toNat % k.feedsize.toNat)
      match s.engPage f.ctx va .write (fun leaf => leafW leaf && (s.ctx f.ctx).compmask.getLsbD (leafComp leaf)) with
      | (.ok pa leaf, s) =>
        let s := s.homePut (ctxFirst f.ctx) f.ctx (leafComp leaf % 8) pa 16 f.entry.toNat false
        let s := s.modCtx f.ctx (fun x => { x with ctl := { x.ctl with feedhead := x.ctl.feedhead + 1 } })
        s.modCore f.core (fun (c : Core) =>
          { c with filter := (if 64 ≤ c.filter.length then c.filter.drop 1 else c.filter) ++ [key] })
      | (_, s) => lost s

/-- The entries due up to the last one of a load's issue set are settled, in the order in which they fell due on its core (19 R301, R302). -/
def State.settleFeeds (s : State) (l : Load) : State :=
  let mates := (s.loads.filter (fun x => decide (x.id = l.id) || (decide (l.set ≠ 0) && decide (x.set = l.set)))).map (·.id)
  let core := s.coreOfT l.tid
  let mine := s.feeds.filter (fun f => f.core = core)
  let later := mine.reverse.takeWhile (fun f => !mates.contains f.load)
  let go := mine.take (mine.length - later.length)
  go.foldl (fun (s : State) f => s.appendFeed f) { s with feeds := s.feeds.filter (fun f => !go.contains f) }

/-- A drain ends once its clock has passed and every texture load issued in or before it has completed (19 R294). -/
def State.drained (s : State) (c : Nat) (d : ResDrain) : Bool :=
  decide (d.clock < s.clock) && s.loads.all (fun l => !(l.tex && decide (s.ctxOfT l.tid = c) && decide (l.issued ≤ d.clock)))

/-- Drains of a context that have ended: RESC falls. -/
def State.settleDrains (s : State) (c : Nat) : State :=
  let ended := (s.ctx c).drains.filter (s.drained c)
  if ended.isEmpty then s
  else
    let s := s.modCtx c (fun x => { x with drains := x.drains.filter (fun d => !ended.contains d), stirred := true })
    ended.foldl (fun (s : State) d => s.eachThread d.tids (fun t => { t with resc := t.resc - 1 })) s

/-- LOAD_COMPLETE: a load's results are written; a texture load's feedback entries are settled first (05 R100; 19 R302). -/
def execLoadComplete (id : Nat) (s : State) : Host.Outcome State Fault Refusal :=
  .next (match s.loads.find? (fun l => l.id = id) with
  | none => s
  | some l =>
    let c := s.ctxOfT l.tid
    ((s.settleFeeds l).finishLoad id).settleDrains c)

/-! resmap (19 R292-R295). -/

/-- A selector's pages: the first page within the level and the count; or TRAPAUX of trap 0x06. -/
def Desc.select (d : Desc) (sel : Word) (clear : Bool) : Except Nat (Nat × Nat) :=
  let n := sel.toNat
  let l := fld n 23 20
  let count := fld n 31 24 + 1
  if d.nlev < l ∨ d.px l * d.py l < fld n 19 0 + count then .error 0x0B
  else if clear ∧ d.floor ≤ l then .error 0x0A
  else .ok (d.start l + fld n 19 0, count)

/-- Members of a uniform instruction with a cause of a given TRAPAUX. -/
def State.uniformCause {α : Type} (s : State) (u : Led α) (c : Cause) : State :=
  if (s.group u.gid).inRa then s.endRunAhead u.members
  else (s.passAll (u.members.filter (fun t => !u.active.contains t))).trapMembers (u.active.map (fun t => (t, c)))

/-- The pages of the residency map that hold a command's bits. -/
def mapPages (rmap first count : Nat) : List (Nat × AccK) := objPages (rmap + first / 8) ((first + count - 1) / 8 - first / 8 + 1) .agent

/-- A residency command sent, once its map's pages translate; a clear waits for room in RESC (11 R191; 19 R294). -/
def State.resmapSend {α : Type} (s : State) (isSet : Bool) (l : Fin 16) (u : Led α) (ds : Desc) (first count : Nat) : State :=
  let c := s.ctxOfT u.leader
  let f := ctxFirst c
  let pages := mapPages ds.rmap first count
  match pages.filter (fun p => decide (s.xlate u.leader p.1 p.2 = .miss)) with
  | m :: ms => s.waitXlate u.gid u.members ((m :: ms).map (fun p => (u.leader, p.1, p.2)))
  | [] =>
    match s.lanePages u.leader pages true with
    | .error c => s.uniformCause u c
    | .ok _ =>
      let due (t : Nat) : Nat := (s.thread t).resc + ((s.slice f).rescmds.filter (fun r => !r.set && r.tids.contains t)).length
      if !isSet && u.active.any (fun t => decide (262143 ≤ due t)) then s.retryAll u.members
      else
        let s := u.active.foldl (fun (s : State) t => s.setOutside t) s
        let (id, s) := s.fresh
        let r : ResCmd := { set := isSet, gid := u.gid, tids := u.active, pc := s.cur.pc, op := id, rmap := ds.rmap, base := ds.base,
                            first := first, count := count, ctx := c }
        let s := s.modSlice f (fun (v : Slice) => { v with rescmds := v.rescmds ++ [r] })
        u.members.foldl (fun (s : State) t => s.modThread t (fun x => { x with look := x.look ++ [(id, l.val)] })) (s.passAll u.members)

/-- What a resmap does with its descriptor, or with what kept it from one. -/
def State.resmapAct (s : State) (isSet : Bool) (l : Fin 16) (x : Except TexStop Desc) (u : Led (Word × Word)) : State :=
  if u.poi then s.passAll u.members
  else match x with
  | .error (.poison va pa) =>
    let pc := s.cur.pc
    (s.passAll u.members).consume u.leader 1 va pa (fun s => s.defer u.leader { code := 0x0D, addr := BitVec.ofNat 64 va } pc)
  | .error (.cause c) => s.uniformCause u c
  | .error _ => s.passAll u.members
  | .ok ds =>
    match ds.select u.val.1 (!isSet) with
    | .error aux => s.uniformCause u { code := 0x06, aux := BitVec.ofNat 32 aux }
    | .ok (first, count) => s.resmapSend isSet l u ds first count

/-- One group's part of resmap.set or resmap.clear. The descriptor's causes are handle causes: every member traps whatever the guard, on
the index of the leader lane or of the lowest member (00 R13; 11 R166; 19 R291), the selector's only active ones (19 R292):
DESIGN CHOICE (log 70). -/
def State.resmapGroup (s : State) (isSet : Bool) (g : Guard) (l : Fin 16) (d a : Operand) (gid : Nat) : State :=
  let us := [src d, src a]
  let env := s.laneEnv gid
  let body : LaneM (Word × Word) := do noRunAhead; let x ← rd1 d; let r ← rd1 a; return (x, r)
  let all := s.members.filter (fun t => gidOf t = gid)
  let ts := all.filter (fun t => memberClear (s.thread t) g.val us)
  let lead := (ts.find? (fun t => (s.thread t).pred g.val)).orElse (fun _ => ts.head?)
  match lead, lead.bind (fun t => (s.thread t).handle env.nregs a 0) with
  | some t, some v =>
    if env.ra then s.endRunAhead ts
    else match s.resNamed t v false with
    | (.error (.miss va), s) => (s.retryAll (all.filter (fun t => !ts.contains t))).waitXlate gid ts [(t, va, .agent)]
    | (x, s) =>
      let bad : Option Cause := match x with
        | .error (.cause c) => if c.code = 0x02 then some c else none
        | _ => none
      s.uniformHandled g us (fun _ => bad) body (fun s u => s.resmapAct isSet l x u) gid
  | _, _ => s.uniformGroup g us true body (fun s u => s.passAll u.members) gid

def State.resmapSet (s : State) (isSet : Bool) (g : Guard) (l : Fin 16) (d a : Operand) : State :=
  (groupsIn s.members).foldl (fun s gid => s.resmapGroup isSet g l d a gid) s

def execResmapSet (g : Guard) (l : Fin 16) (d a : Operand) (s : State) : Host.Outcome State Fault Refusal := .next (s.resmapSet true g l d a)
def execResmapClear (g : Guard) (l : Fin 16) (d a : Operand) (s : State) : Host.Outcome State Fault Refusal := .next (s.resmapSet false g l d a)

/-- resmap.drain waits until RESC is 0 in every active member (19 R294); its clusters' OUTSIDE is set (25 R375). -/
def execResmapDrain (g : Guard) (l : Fin 16) (s : State) : Host.Outcome State Fault Refusal :=
  let _ := l
  .next (s.uniform g [] true noRunAhead (fun s u =>
    let s := u.active.foldl (fun (s : State) t => s.setOutside t) s
    if u.active.all (fun t => (s.thread t).resc == 0) then s.passAll u.members else s.retryAll u.members))

/-- Clean bytes of the lines that `sel` picks leave an L1 or cluster cache; dirty bytes stay (19 R293). -/
def dropClean (ls : Sp Line) (sel : Nat → Bool) : Sp Line :=
  (ls.map (fun (e : Nat × Line) => if sel e.1 then (e.1, { e.2 with valid := e.2.dirty }) else e)).filter (fun e => e.2.valid ≠ 0)

/-- The map bits of a residency command's pages set or cleared at their homes. -/
def State.markPages (s : State) (r : ResCmd) : State :=
  (List.range r.count).foldl (fun (s : State) i =>
    let n := r.first + i
    match s.engPage r.ctx (r.rmap + n / 8) .write (fun _ => true) with
    | (.ok pa leaf, s) =>
      let comp := leafComp leaf % 8
      let (v, _, s) := s.homeBytes (ctxFirst r.ctx) r.ctx comp pa 1 (r.rmap + n / 8)
      let bit := 2 ^ (n % 8)
      let w := if r.set then v ||| bit else if v / bit % 2 = 1 then v - bit else v
      s.homePut (ctxFirst r.ctx) r.ctx comp pa 1 w false
    | (_, s) => s) s

/-- Clean bytes of a set command's pages leave the context's L1s and the cluster caches. -/
def State.dropStale (s : State) (r : ResCmd) : State :=
  (List.range r.count).foldl (fun (s : State) i =>
    match s.engPage r.ctx (r.base + 65536 * (r.first + i)) .read (fun _ => true) with
    | (.ok pa _, s) =>
      let sel (la : Nat) : Bool := la / 1024 == pa / 65536
      let s := (s.ctxCores r.ctx).foldl (fun (s : State) k => s.modCore k (fun (x : Core) => { x with l1 := dropClean x.l1 sel })) s
      (s.partSlices (ctxFirst r.ctx)).foldl (fun (s : State) j => s.modSlice j (fun (v : Slice) => { v with cc := dropClean v.cc sel })) s
    | (_, s) => s) s

/-- The feedback filters of the cores forget a context's pages. -/
def State.forgetFeeds (s : State) (c : Nat) : State :=
  { s with cores := s.cores.map (fun (e : Nat × Core) => (e.1, { e.2 with filter := e.2.filter.filter (fun k => k.1 ≠ c) })) }

/-- Every page of the map that holds a command's bits translates. -/
def State.mapMeets (s : State) (r : ResCmd) : Bool :=
  (mapPages r.rmap r.first r.count).all (fun p => match (s.engPage r.ctx p.1 .write (fun _ => true)).1 with
    | .ok _ _ => true
    | _ => false)

/-- The residency command accepted next: the oldest of its context whose map translates (19 R294). -/
def State.resmapNext (s : State) (part : Nat) : Option ResCmd :=
  let l := (s.slice part).rescmds
  l.find? (fun r => (l.takeWhile (fun q => q.op ≠ r.op)).all (fun q => decide (q.ctx ≠ r.ctx)) && s.mapMeets r)

/-- RESMAP_ACCEPT: a residency command takes effect everywhere at once (19 R293, R294; 13 R234). -/
def execResmapAccept (part : Nat) (s : State) : Host.Outcome State Fault Refusal :=
  .next (match s.resmapNext part with
  | none => s
  | some r =>
    let s := (s.modSlice part (fun (v : Slice) => { v with rescmds := v.rescmds.filter (fun q => q.op ≠ r.op) })).markPages r
    let s := ((if r.set then s.dropStale r else s).forgetFeeds r.ctx).stir r.ctx
    let s := s.eachOf r.gid (fun t => { t with look := t.look.filter (fun e => e.1 ≠ r.op) })
    if r.set then s
    else
      let s := s.eachThread r.tids (fun t => { t with resc := t.resc + 1 })
      s.modCtx r.ctx (fun x => { x with drains := x.drains ++ [{ clock := s.clock, tids := r.tids }] }))

end Sys2Proof.Machine
end

