-- ==== Sys2Proof/Machine/Ray.lean ====
section
/-! DEFINITION. Ray and box tests on tree nodes and triangles (19 R314-R318). -/

namespace Sys2Proof.Machine

/-! Arithmetic. -/

/-- A word as an f32 value. -/
def fv (w : Word) : Fv := f32.value w.toNat
def rnd64 (x : Fv) : Fv := f64.value (f64.round .rne false x)
def bits32 (x : Fv) : Word := BitVec.ofNat 32 (f32.round .rne false x)
def Fv.isNan : Fv → Bool
  | .nan => true
  | _ => false
def Fv.isInf : Fv → Bool
  | .inf _ => true
  | _ => false
def Fv.isZero : Fv → Bool
  | .fin _ n _ => n == 0
  | _ => false
def Fv.abs : Fv → Fv
  | .nan => .nan
  | .inf _ => .inf false
  | .fin _ n d => .fin false n d
def Fv.le (x y : Fv) : Bool := x.lt y || x.eq y
def fzero : Fv := .fin false 0 1
def fone : Fv := .fin false 1 1

/-- Widening of the far bound: round_ru(hi + |hi| × 2^-21). -/
def widen (hi : Fv) : Fv := f32.value (f32.round .ru false (Fv.add false hi (hi.abs.mul (.fin false 1 (2 ^ 21)))))

/-- One axis of a ray test: the interval narrowed. -/
def rayAxis (o inv lo hi mn mx : Fv) : Fv × Fv :=
  if inv.isInf then (if o.lt mn || mx.lt o then (.inf false, hi) else (lo, hi))
  else
    let t1 := rnd32 ((rnd32 (Fv.sub false mn o)).mul inv)
    let t2 := rnd32 ((rnd32 (Fv.sub false mx o)).mul inv)
    if t1.isNan || t2.isNan then (.inf false, hi)
    else (Fv.maxnum lo (Fv.minnum t1 t2), Fv.minnum hi (Fv.maxnum t1 t2))

/-- A ray against one child's box: the distance of a hit. -/
def rayBox (ray box : List Fv) : Option Fv :=
  if (ray ++ box).any Fv.isNan then none
  else
    let at_ (l : List Fv) (i : Nat) : Fv := l.getD i fzero
    let (lo, hi) := (List.range 3).foldl (fun (a : Fv × Fv) i =>
      rayAxis (at_ ray i) (rnd32 (fone.div (at_ ray (4 + i)))) a.1 a.2 (at_ box i) (at_ box (3 + i))) (at_ ray 3, at_ ray 7)
    if lo.le (widen hi) then some lo else none

/-- A query box against one child's box. -/
def boxBox (q box : List Fv) : Option Fv :=
  let at_ (l : List Fv) (i : Nat) : Fv := l.getD i fzero
  if (List.range 3).all (fun i => (at_ q i).le (at_ box (3 + i)) && (at_ box i).le (at_ q (4 + i))) then some fzero else none

/-- Children near to far, ties to the lower one. -/
def nearFirst (l : List (Nat × Fv)) : List (Nat × Fv) :=
  l.foldl (fun (a : List (Nat × Fv)) e => a.filter (fun x => !(e.2.lt x.2)) ++ [e] ++ a.filter (fun x => e.2.lt x.2)) []

/-- A node test (19 R316): the words of D to D+4 and the hit children near to far. -/
def nodeTest (box : Bool) (q : List Word) (node : Nat) : List Word × List Nat :=
  let valid := fld node 963 960
  let leaf := fld node 967 964
  let bad := fld node 1023 968 != 0
  let qs := q.map fv
  let child (c : Nat) : List Fv := (List.range 6).map (fun i => fv (BitVec.ofNat 32 (fld node (192 * c + 32 * i + 31) (192 * c + 32 * i))))
  let hits : List (Nat × Fv) := if bad then [] else (List.range 4).filterMap (fun c =>
    if valid / 2 ^ c % 2 = 0 then none
    else ((if box then boxBox qs (child c) else rayBox qs (child c))).map (fun x => (c, x)))
  let order := (nearFirst hits).map (·.1)
  let hit := hits.foldl (fun a h => a + 2 ^ h.1) 0
  let ord := (List.range order.length).foldl (fun a i => a + order.getD i 0 * 4 ^ i) 0
  let res := hit + ord * 16 + order.length * 2 ^ 12 + (if bad then 2 ^ 15 else 0) + (leaf &&& hit) * 2 ^ 16
  ((List.range 4).map (fun c => match hits.find? (fun h => h.1 = c) with
    | some h => bits32 h.2
    | none => 0x7F800000) ++ [BitVec.ofNat 32 res], order)

/-- A triangle test (19 R317): the words of D to D+4. -/
def triTest (cullb : Bool) (q : List Word) (rec_ : Nat) : List Word :=
  let mbz := fld rec_ 383 320 != 0
  let miss : List Word := [0x7F800000, 0, 0, 0xFFFFFFFF, if mbz then 4 else 0]
  let qs := q.map fv
  let at_ (i : Nat) : Fv := qs.getD i fzero
  let p (k a : Nat) : Fv := fv (BitVec.ofNat 32 (fld rec_ (96 * k + 32 * a + 31) (96 * k + 32 * a)))
  let d (a : Nat) : Fv := at_ (4 + a)
  let nan := (List.range 8).any (fun i => (at_ i).isNan) || (List.range 3).any (fun k => (List.range 3).any (fun a => (p k a).isNan))
  if mbz || nan || (List.range 3).all (fun a => (d a).isZero) then miss
  else
    let kz := (List.range 3).foldl (fun b a => if (d b).abs.lt (d a).abs then a else b) 0
    let kx0 := (kz + 1) % 3
    let ky0 := (kz + 2) % 3
    let flip := (d kz).lt fzero
    let kx := if flip then ky0 else kx0
    let ky := if flip then kx0 else ky0
    let sx := rnd32 ((d kx).div (d kz))
    let sy := rnd32 ((d ky).div (d kz))
    let sz := rnd32 (fone.div (d kz))
    let vert (k : Nat) : Fv × Fv × Fv :=
      let g (a : Nat) : Fv := rnd32 (Fv.sub false (p k a) (at_ a))
      (rnd32 (Fv.sub false (g kx) (sx.mul (g kz))), rnd32 (Fv.sub false (g ky) (sy.mul (g kz))), rnd32 (sz.mul (g kz)))
    let (ax, ay, az) := vert 0
    let (bx, by_, bz) := vert 1
    let (cx, cy, cz) := vert 2
    let cross (a b c e : Fv) : Fv := rnd64 (Fv.sub false (a.mul b) (c.mul e))
    let u := cross cx by_ cy bx
    let v := cross ax cy ay cx
    let w := cross bx ay by_ ax
    let neg := u.lt fzero || v.lt fzero || w.lt fzero
    let pos := fzero.lt u || fzero.lt v || fzero.lt w
    let det := rnd64 (Fv.add false (rnd64 (Fv.add false u v)) w)
    if (neg && pos) || det.isZero then miss
    else
      let m (x y : Fv) : Fv := rnd64 (x.mul y)
      let tt := rnd64 (Fv.add false (rnd64 (Fv.add false (m u az) (m v bz))) (m w cz))
      let t := rnd64 (tt.div det)
      let back := det.lt fzero
      if t.lt (at_ 3) || (at_ 7).lt t || (cullb && back) then miss
      else [bits32 t, bits32 (v.div det), bits32 (w.div det), BitVec.ofNat 32 (fld rec_ 319 288), if back then 3 else 1]

/-! The instructions. -/

/-- A lane's test: first register of D, the ray, D+5, and the address of the node or triangle; none for poisoned operands. -/
structure RayLane where
  d : Nat
  q : List Word
  idx : Word
  stack : Word
  va : Option Nat

def rayBody (d a : Operand) (stride align : Nat) (spill : Bool) : LaneM RayLane := do
  memReady (memdefAcc 0 0)
  if spill then noRunAhead
  let n := match d with | .v n => n.val | _ => 0
  let i ← readReg (n + 4)
  let st ← (if spill then readReg (n + 5) else return 0)
  let base ← readPair (n + 6)
  needKnown
  let q ← rdN a 8
  destFree (.reg n) 8
  let p ← isPoi
  if p then
    putMany n (List.replicate 5 0)
    return { d := n, q := q, idx := i, stack := st, va := none }
  else
    let va := base.toNat + stride * i.toNat
    if va % align ≠ 0 then laneTrap 0x04 (BitVec.ofNat 32 align) (BitVec.ofNat 64 va)
    else if spill && st.toNat % 4 != 0 then laneTrap 0x04 4 (st.zeroExtend 64)
    else if 2 ^ 50 < va + stride then laneTrap 0x06 3 (BitVec.ofNat 64 va)
    else return { d := n, q := q, idx := i, stack := st, va := some va }

/-- The pages of a record. -/
def recPages (va : Option Nat) (size : Nat) : List (Nat × AccK) :=
  match va with
  | some v => objPages v size .unit
  | none => []

/-- A record's bytes as relaxed loads of the lane read them, with what poison gives. -/
def State.readRecord (s : State) (tid va size : Nat) (hs : List Hit) : Nat × Option (Nat × Nat × Nat) × State :=
  let w := s.whoT tid
  (linesOf [(va, size)]).foldl (fun (a : Nat × Option (Nat × Nat × Nat) × State) la =>
    let (x, bad, s) := a
    let lo := Nat.max va (64 * la)
    let hi := Nat.min (va + size) (64 * la + 64)
    match hs.find? (fun h => decide (h.2.base ≤ lo) && decide (lo < h.2.base + h.2.size)) with
    | none => a
    | some h =>
      let pa := h.2.pa lo
      let s := s.orderBefore tid s.nextId (some (0, pa, hi - lo))
      let (g, s) := s.readLine w (pa / 64) (leafComp h.2.leaf % 8) 0 false lo
      let hit := g.poison &&& sectorsOf (byteMask (pa % 64) (hi - lo))
      let v := lineGet (lineMerge g.data 0 (sectorBytes hit)) (pa % 64) (hi - lo) * 2 ^ (8 * (lo - va))
      if hit = 0 then (x + v, bad, s)
      else if leafEt h.2.leaf then (x + v, bad, s.substituteOnce w.ctx w.core (sectorsMet hit lo pa))
      else (x + v, some (bad.getD (3, lo, pa)), s)) (0, none, s)

/-- The result of a test on its way to D. -/
def State.rayStart (s : State) (tid : Nat) (l : Fin 16) (x : RayLane) (ls : LaneSt) (ws : List Word) (bad : Option (Nat × Nat × Nat))
    (cause : Option Cause) : State :=
  s.startLoad tid ls l false (fun id =>
    { id := id, tid := tid, pc := s.cur.pc, kind := .words (if bad.isSome then ws.map (fun _ => 0) else ws) bad, acq := none,
      issued := s.clock, cause := cause, dest := if cause.isSome then .none else .regs x.d ws.length })

/-- The spill of the hit children (19 R316): codes from the farthest back to the second; the stores past the region are a cause. -/
def State.raySpill (s : State) (tid : Nat) (x : RayLane) (order : List Nat) : State × Word × Option Cause :=
  let team := teamOf (gidOf tid)
  let k := order.length
  let off := x.stack.toNat
  if k < 2 then (s, x.stack, none)
  else if (s.team team).region 1 < off + 4 * (k - 1) then (s, x.stack, some { code := 0x06, addr := x.stack.zeroExtend 64, aux := 4 })
  else
    let s := s.orderBefore tid s.nextId (some (1 + 8 * team + 1, off, 4 * (k - 1)))
    let codes := (order.drop 1).reverse.map (fun c => (4 * x.idx.toNat + 1 + c) % 2 ^ 32)
    let s := s.modTeam team (fun (t : Team) =>
      (List.range codes.length).foldl (fun (t : Team) i => t.writeLocal 1 (off + 4 * i) 4 (codes.getD i 0)) t)
    (s, x.stack + BitVec.ofNat 32 (4 * (k - 1)), none)

/-- One lane of rtbox. -/
def State.boxAct (s : State) (tid : Nat) (l : Fin 16) (box spill : Bool) (x : RayLane) (ls : LaneSt) (hs : List Hit) : State :=
  match x.va with
  | none => s.commitAcc tid ls
  | some va =>
    let (node, bad, s) := s.readRecord tid va 128 hs
    let (ws, order) := nodeTest box x.q node
    if spill && bad.isNone then
      let (s, top, cause) := s.raySpill tid x order
      s.rayStart tid l x ls (ws ++ [top]) none cause
    else s.rayStart tid l x ls ws bad none

def State.triAct (s : State) (tid : Nat) (l : Fin 16) (cullb : Bool) (x : RayLane) (ls : LaneSt) (hs : List Hit) : State :=
  match x.va with
  | none => s.commitAcc tid ls
  | some va =>
    let (r, bad, s) := s.readRecord tid va 48 hs
    s.rayStart tid l x ls (triTest cullb x.q r) bad none

/-- In run-ahead the pages are translated and the results unknown. -/
def State.rayRa (s : State) (tid size : Nat) (x : RayLane) (ls : LaneSt) : State :=
  let (cut, s) := (recPages x.va size).foldl (fun (a : Bool × State) p =>
    if a.1 then a
    else match a.2.raXlate tid p.1 p.2 with
    | (.ends, s) => (true, s)
    | (_, s) => (false, s)) (false, s)
  if cut then s.endRunAhead [tid]
  else
    let th := (List.range 5).foldl (fun (t : Thread) i => t.putReg (x.d + i) 0 true) ls.th
    s.commitAcc tid { ls with th := th }

/-- A ray test over its issue set. -/
def State.raySet (s : State) (g : Guard) (d a : Operand) (size align : Nat) (spill : Bool)
    (act : State → Nat → RayLane → LaneSt → List Hit → State) : State :=
  s.memSet {
    g := g, us := wideUse a 8 ++ wideUse d 8
    stat := fun _ => none
    body := fun _ => rayBody d a size align spill
    pages := fun _ _ x => recPages x.va size
    ra := fun t tid x ls => t.rayRa tid size x ls
    act := fun t tid x ls hs => (act t tid x ls hs, none)
    clear := fun t tid hs => (t.laneClear tid hs, t) }

def execRtbox (g : Guard) (l : Fin 16) (d a : Operand) (box spill : Bool) (s : State) : Host.Outcome State Fault Refusal :=
  .next (s.raySet g d a 128 128 spill (fun s tid x ls hs => s.boxAct tid l box spill x ls hs))

def execRttri (g : Guard) (l : Fin 16) (d a : Operand) (cullb : Bool) (s : State) : Host.Outcome State Fault Refusal :=
  .next (s.raySet g d a 48 16 false (fun s tid x ls hs => s.triAct tid l cullb x ls hs))

end Sys2Proof.Machine
end

