-- ==== Sys2Proof/Machine/Raster.lean ====
section
/-! DEFINITION. Rasterisation (19 R304-R310) and raster-ordered sections (R311-R313). -/

namespace Sys2Proof.Machine

/-! rast (19 R304). -/

/-- The cause of one address: 0x04 with its unit, 0x06 beyond bit 49, or 0x06 for a page without R or with SYS. -/
def State.recordCause (s : State) (c va align : Nat) : Option Cause :=
  let at_ (code aux : Nat) : Cause := { code := code, addr := BitVec.ofNat 64 va, aux := BitVec.ofNat 32 aux }
  if va % align ≠ 0 then some (at_ 0x04 align)
  else if 2 ^ 50 ≤ va then some (at_ 0x06 3)
  else match s.walk c va with
  | (.done e, _) => if leafR e.leaf && !leafSys e.leaf then none else some (at_ 0x06 6)
  | _ => none

/-- The lowest cause of a raster command's addresses. -/
def State.rastCause (s : State) (c state : Nat) (tris : List Nat) : Option Cause :=
  tris.foldl (fun k va => if va = 0 then k else lowerCause k (s.recordCause c va 16)) (s.recordCause c state 64)

def execRastTri (g : Guard) (l : Fin 16) (d a : Operand) (s : State) : Host.Outcome State Fault Refusal :=
  let us := wideUse d 2 ++ wideUse a 2
  .next (s.collective g us (fun s gid ts =>
    let c := (s.team (teamOf gid)).ctx
    let core := (s.team (teamOf gid)).core
    let t0 := s.thread (ts.headD 0)
    let state := t0.srcVal d true
    let tris := ts.map (fun t => (s.thread t).srcVal a true)
    let poi := ts.filter (fun t => (s.thread t).anyPoison (if t = ts.headD 0 then us else wideUse a 2))
    if !poi.isEmpty then poi.foldl (fun (s : State) t => s.regPoison t s.cur.pc) (s.leaveAll ts)
    else if !ts.all (fun t => (s.thread t).quiet) then s.retryAll ts
    else match s.rastCause c state tris with
    | some k => s.trapMembers (ts.map (fun t => (t, k)))
    | none =>
      let i := coreSlice core
      -- the release of 03 R67: what the cluster has written is at the homes before any child runs
      let s := (s.releaseAt (s.whoT (ts.headD 0)) .partition).getD s
      let s := ts.foldl (fun (s : State) t => s.setOutside t) s
      let (id, s) := s.fresh
      let room := decide ((s.slice i).raster.length < 256)
      let r : RCmd := { id := id, gid := gid, core := core, pc := s.cur.pc, stateVa := state, tris := tris }
      let s := s.modSlice i (fun (v : Slice) => { v with raster := v.raster ++ [r] })
      let s := if room then s.leaveAll ts else s.waitAll ts .engine
      ts.foldl (fun (s : State) t => s.modThread t (fun x => { x with look := x.look ++ [(id, l.val + (if room then 0 else 1))] })) s))

/-! Acceptance (19 R305, R306). -/

def State.modR (s : State) (i id : Nat) (f : RCmd → RCmd) : State :=
  s.modSlice i (fun (v : Slice) => { v with raster := v.raster.map (fun r => if r.id = id then f r else r) })
def State.dropR (s : State) (i id : Nat) : State :=
  s.modSlice i (fun (v : Slice) => { v with raster := v.raster.filter (fun r => r.id ≠ id) })

/-- The reads of a raster command. -/
def State.rasterJob (s : State) (r : RCmd) : Job :=
  let w := s.whoT (s.leadThread r.gid)
  { who := w, own := false, pc := r.pc,
    admits := fun leaf => !leafSys leaf && leafR leaf && (s.ctx w.ctx).compmask.getLsbD (leafComp leaf) }

/-- A raster command's batch. -/
def State.waitR (s : State) (i : Nat) (r : RCmd) (m : Met) : State :=
  let (no, s) := s.sendBatch (s.team (teamOf r.gid)).ctx 3 r.id r.core 0 m.faults
  s.modR i r.id (fun x => { x with batch := some no })

/-- A raster command leaves the queue; the counted ones fall from ENGC. -/
def State.endR (s : State) (i : Nat) (r : RCmd) : State :=
  (s.dropR i r.id).eachOf r.gid (fun t =>
    let u := t.passCommand r.id s.clock
    if r.accepted then u.engineDone (jobScope r.reads) else u)

/-- A failure of a record read, in all 32 threads (23 R365; 25 R373). -/
def State.failR (s : State) (i : Nat) (r : RCmd) (f : JobFail) (place : Nat × Nat × Nat) : State :=
  match f with
  | .poison => s.consumeAs 0x0B (s.leadThread r.gid) place.1 place.2.1 place.2.2
      (fun s => (s.endR i r).deferGroup r.gid { code := 0x0B, aux := 2 } r.pc)
  | _ => (s.endR i r).deferGroup r.gid { code := 0x0B, aux := 1 } r.pc

/-- The raster state of a command, or TRAPAUX of trap 0x02. -/
def State.rasterState (s : State) (r : RCmd) (v : Nat) : Except Nat RCmd :=
  let c := (s.team (teamOf r.gid)).ctx
  let w := fld v 15 0
  let h := fld v 31 16
  let shade := BitVec.ofNat 32 (fld v 63 32)
  let soft := BitVec.ofNat 32 (fld v 95 64)
  let vbuf := fld v 191 128
  if w = 0 ∨ 16384 < w ∨ h = 0 ∨ 16384 < h ∨ fld v 97 96 = 3 ∨ fld v 127 98 ≠ 0 ∨ fld v 511 256 ≠ 0 ∨ vbuf % 8 ≠ 0 ∨ 2 ^ 50 ≤ vbuf then .error 4
  else if (s.entryRow c shade).isNone ∨ (s.entryRow c soft).isNone then .error 5
  else .ok { r with accepted := true, width := w, height := h, shade := shade, soft := soft, cull := fld v 97 96, vbuf := vbuf,
                    args := BitVec.ofNat 64 (fld v 255 192), thr := (s.ctlFor c r.gid).rastthr.toNat }

/-- The footprint of a raster command: its state record and its triangles' records, which it reads (13 R228; 19 R309). -/
def RCmd.foot (r : RCmd) : List Foot :=
  { space := 0, team := 0, base := r.stateVa, len := 64 } ::
    (r.tris.filter (· ≠ 0)).map (fun va => { space := 0, team := 0, base := va, len := 48 })

/-- RAST_ACCEPT: a slice's rasteriser accepts its oldest waiting command. -/
def execRastAccept (slice : Nat) (s : State) : Host.Outcome State Fault Refusal :=
  .next (match (s.slice slice).raster.find? (fun r => !r.accepted) with
  | none => s
  | some r =>
    let taken := ((s.slice slice).raster.filter (·.accepted)).length
    let full := (s.threadsOfGroup r.gid).any (fun e => decide (262143 ≤ e.2.engc))
    let reads := r.foot
    if 256 ≤ taken || full || r.batch.isSome || !s.groupIssues r.gid ||
        !s.mayBegin r.core (s.team (teamOf r.gid)).ctx s.nextId (reads.take 1) [] then s
    else match s.pushRelease ((s.threadsOfGroup r.gid).map (·.1)) reads with
    | none => s
    | some s =>
      let (v, m, s) := s.jobRead (s.rasterJob r) r.stateVa 64 {}
      if !m.faults.isEmpty then s.waitR slice r m
      else match m.fail with
      | some f => s.failR slice r f m.failAt
      | none =>
        match s.rasterState r v with
        | .error aux => (s.endR slice r).deferGroup r.gid { code := 0x02, aux := BitVec.ofNat 32 aux } r.pc
        | .ok x =>
          let (acc, s) := s.fresh
          ((s.modR slice r.id (fun _ => { x with acc := acc, reads := reads })).eachOf r.gid (fun t =>
            let u := t.passCommand r.id s.clock
            { u with engc := u.engc + 1 })).stir (s.team (teamOf r.gid)).ctx)

/-! Classification and coverage (19 R306, R307). -/

/-- A coordinate snapped to 1/16 pixel. -/
def snap (w : Nat) : Option Int :=
  match f32.value w with
  | .fin s n d => if 2 ^ 20 * d ≤ n then none else some (roundInt .rne s (16 * n) d)
  | _ => none

/-- A snapped triangle: vertices and S. -/
structure Tri where
  xs : List Int
  ys : List Int
  s : Int
deriving DecidableEq, Repr

def Tri.x (t : Tri) (i : Nat) : Int := t.xs.getD i 0
def Tri.y (t : Tri) (i : Nat) : Int := t.ys.getD i 0

/-- The triangle of a record; none where a coordinate or an MBZ bit culls it. -/
def triOf (v : Nat) : Option Tri :=
  let xs := (List.range 3).filterMap (fun k => snap (fld v (96 * k + 31) (96 * k)))
  let ys := (List.range 3).filterMap (fun k => snap (fld v (96 * k + 63) (96 * k + 32)))
  if fld v 383 320 ≠ 0 ∨ xs.length ≠ 3 ∨ ys.length ≠ 3 then none
  else
    let x (i : Nat) := xs.getD i 0
    let y (i : Nat) := ys.getD i 0
    some { xs := xs, ys := ys, s := (x 1 - x 0) * (y 2 - y 0) - (x 2 - x 0) * (y 1 - y 0) }

def minI (l : List Int) : Int := l.foldl (fun a b => if b < a then b else a) (l.headD 0)
def maxI (l : List Int) : Int := l.foldl (fun a b => if a < b then b else a) (l.headD 0)

inductive TriClass where
  | culled | large | small
deriving DecidableEq, Repr

def Tri.classify (t : Tri) (cull w h thr : Nat) : TriClass :=
  if t.s = 0 ∨ (cull = 1 ∧ t.s < 0) ∨ (cull = 2 ∧ 0 < t.s) then .culled
  else if maxI t.xs < 0 ∨ 16 * (w : Int) ≤ minI t.xs ∨ maxI t.ys < 0 ∨ 16 * (h : Int) ≤ minI t.ys then .culled
  else if 32 * thr ≤ t.s.natAbs then .large else .small

/-- E_ab at a pixel's centre. -/
def Tri.edge (t : Tri) (a b : Nat) (px py : Nat) : Int :=
  (t.x b - t.x a) * (16 * (py : Int) + 8 - t.y a) - (t.y b - t.y a) * (16 * (px : Int) + 8 - t.x a)

/-- The edge rule of 19 R307. -/
def Tri.inside (t : Tri) (a b px py : Nat) : Bool :=
  let e := t.edge a b px py
  decide (0 < e) || (decide (e = 0) && (decide (0 < t.y b - t.y a) || (decide (t.y b - t.y a = 0) && decide (t.x b - t.x a < 0))))

/-- A pixel's centre is covered, vertices 1 and 2 exchanged where S < 0. -/
def Tri.covers (t : Tri) (px py : Nat) : Bool :=
  let (p, q) := if t.s < 0 then (2, 1) else (1, 2)
  t.inside 0 p px py && t.inside p q px py && t.inside q 0 px py

/-- Quads with a covered pixel inside the viewport, in ascending (qy, qx) order. -/
def Tri.quads (t : Tri) (w h : Nat) : List (Nat × Nat) :=
  let lo (v : Int) : Nat := (v / 32).toNat
  let cnt (mn mx : Int) (n : Nat) : Nat := Nat.min ((mx / 32).toNat + 1) ((n + 1) / 2) - lo mn
  (upto (lo (minI t.ys)) (cnt (minI t.ys) (maxI t.ys) h)).flatMap (fun qy =>
    (upto (lo (minI t.xs)) (cnt (minI t.xs) (maxI t.xs) w)).filterMap (fun qx =>
      let hit (px py : Nat) : Bool := decide (px < w) && decide (py < h) && t.covers px py
      if hit (2 * qx) (2 * qy) || hit (2 * qx + 1) (2 * qy) || hit (2 * qx) (2 * qy + 1) || hit (2 * qx + 1) (2 * qy + 1) then
        some (2 * qx, 2 * qy) else none))

/-- The weight E / S as f32. -/
def Tri.weight (t : Tri) (e : Int) : Word :=
  BitVec.ofNat 32 (f32.round .rne false ((Fv.ofInt e).div (Fv.ofInt t.s)))

/-- The four threads of a quad; a covered one carries its pixel's key in the first number, plus one. -/
def RCmd.quad (r : RCmd) (t : Tri) (id : Word) (grid ctx : Nat) (q : Nat × Nat) : List SpawnRec :=
  [(0, 0), (1, 0), (0, 1), (1, 1)].map (fun o =>
    let px := q.1 + o.1
    let py := q.2 + o.2
    let cov := decide (px < r.width) && decide (py < r.height) && t.covers px py
    { entry := r.shade, grid := grid, ctx := ctx, quad := true,
      ticketKey := if cov then some (r.vbuf + 8 * (py * r.width + px), 0) else none,
      args := [BitVec.ofNat 32 px, BitVec.ofNat 32 py, id, if cov then 1 else 0, t.weight (t.edge 2 0 px py), t.weight (t.edge 0 1 px py),
               r.args.truncate 32, (r.args >>> 32).truncate 32] })

/-- The thread of a small triangle (19 R308). -/
def RCmd.softRec (r : RCmd) (va : Nat) (id : Word) (grid ctx : Nat) : SpawnRec :=
  { entry := r.soft, grid := grid, ctx := ctx,
    args := [BitVec.ofNat 32 va, BitVec.ofNat 32 (va / 2 ^ 32), id, 0, BitVec.ofNat 32 r.stateVa, BitVec.ofNat 32 (r.stateVa / 2 ^ 32),
             r.args.truncate 32, (r.args >>> 32).truncate 32] }

/-- Tickets for the covered threads of a quad (19 R311). -/
def State.giveTickets (s : State) (i : Nat) (l : List SpawnRec) : List SpawnRec × State :=
  l.foldl (fun (a : List SpawnRec × State) r =>
    match r.ticketKey with
    | none => (a.1 ++ [r], a.2)
    | some (key, _) =>
      let (id, s) := a.2.fresh
      let k : Ticket := { id := id, key := key, ctx := r.ctx, tid := none, st := 0, count := 0 }
      (a.1 ++ [{ r with ticketKey := some (i, id) }], s.modSlice i (fun (v : Slice) => { v with tickets := v.tickets ++ [k] }))) ([], s)

/-- Records that wait on their core keep the order in which the rasteriser gave them out. -/
def State.rasterHeld (s : State) (core id : Nat) : Bool :=
  (s.core core).spawnQ.any (fun q => decide (q.raster.map (·.1) = some id))

/-- The threads of one quad, or one small triangle's thread, handed to the bins of the issuing core, where they wait as spawns do
(03 R63; 19 R308); none while the slice holds all its tickets (19 R311). -/
def State.placeQuad (s : State) (i : Nat) (r : RCmd) (l : List SpawnRec) : Option State :=
  let need := (l.filter (fun r => r.ticketKey.isSome)).length
  let held := ((s.slice i).tickets.filter (fun k => k.st ≠ 2)).length
  if 65536 < held + need then none
  else
    let (l, s) := s.giveTickets i l
    let first := l.headD { entry := 0, args := [], grid := 0, ctx := 0 }
    let waits := (s.core r.core).spawnQ.any (fun q => q.entry = first.entry && q.ctx = first.ctx)
    match (if waits then none else l.foldl (fun (o : Option State) x => o.bind (fun s => s.tryBin r.core x)) (some s)) with
    | some s => some s
    | none => some (l.foldl (fun (s : State) x => s.queueSpawn r.core { x with raster := some (r.id, r.gid) }) s)

/-- RAST_TRIANGLE: the rasteriser's oldest accepted command takes its next quad or its next triangle; with none left it ends (19 R309). -/
def execRastTriangle (slice : Nat) (s : State) : Host.Outcome State Fault Refusal :=
  .next (match (s.slice slice).raster.find? (·.accepted) with
  | none => s
  | some r =>
    let t := s.team (teamOf r.gid)
    if r.batch.isSome || s.rasterHeld r.core r.id || !s.mayBegin r.core t.ctx r.acc r.reads [] then s
    else match r.quads with
    | q :: rest =>
      (match s.placeQuad slice r q with
       | some s => (s.modR slice r.id (fun x => { x with quads := rest })).stir t.ctx
       | none => s)
    | [] =>
      match r.tris[r.nextTri]? with
      | none => (s.endR slice r).stir t.ctx
      | some va =>
        let next (s : State) (qs : List (List SpawnRec)) : State :=
          (s.modR slice r.id (fun x => { x with nextTri := x.nextTri + 1, quads := qs })).stir t.ctx
        if va = 0 then next s []
        else
          let (v, m, s) := s.jobRead (s.rasterJob r) va 48 {}
          if !m.faults.isEmpty then s.waitR slice r m
          else match m.fail with
          | some f => s.failR slice r f m.failAt
          | none =>
            let id := BitVec.ofNat 32 (fld v 319 288)
            match triOf v with
            | none => next s []
            | some tri =>
              match tri.classify r.cull r.width r.height r.thr with
              | .culled => next s []
              | .large => next s ((tri.quads r.width r.height).map (fun q => r.quad tri id t.grid t.ctx q))
              | .small => next s [[r.softRec va id t.grid t.ctx]])

/-! Raster-ordered sections (19 R311-R313). -/

/-- Every earlier ticket on the key of a ticket is released. -/
def State.ticketFirst (s : State) (id : Nat) : Bool :=
  match s.slices.find? (fun e => e.2.tickets.any (fun k => k.id = id)) with
  | none => true
  | some (_, v) =>
    match v.tickets.find? (fun k => k.id = id) with
    | none => true
    | some k => (v.tickets.takeWhile (fun x => x.id ≠ id)).all (fun x => decide (x.st = 2) || decide (x.key ≠ k.key) || decide (x.ctx ≠ k.ctx))

def State.setTicket (s : State) (id st : Nat) : State :=
  { s with slices := s.slices.map (fun (e : Nat × Slice) =>
    (e.1, { e.2 with tickets := (e.2.tickets.map (fun (k : Ticket) => if k.id = id then { k with st := st } else k)).filter (fun k => k.st ≠ 2) })) }

def execRosin (g : Guard) (s : State) : Host.Outcome State Fault Refusal :=
  .next (s.perLane g [] (fun _ => noRunAhead) (fun s tid _ l =>
    let id := ((s.thread tid).ticket).getD 0
    if s.ticketState tid ≠ 0 then s.commitLane tid l
    else if s.ticketFirst id then
      ((s.setTicket id 1).acquireAt (s.whoT tid) .partition).commitLane tid l
    else s.retryAll [tid]))

def execRosout (g : Guard) (s : State) : Host.Outcome State Fault Refusal :=
  .next (s.perLane g [] (fun _ => noRunAhead) (fun s tid _ l =>
    let id := ((s.thread tid).ticket).getD 0
    if s.ticketState tid ≠ 1 then s.commitLane tid l
    else if !(s.thread tid).quiet then s.retryAll [tid]
    else match s.releaseAt (s.whoT tid) .partition with
    | some s => (s.setTicket id 2).commitLane tid l
    | none => s.retryAll [tid]))

end Sys2Proof.Machine
end

