-- ==== Sys2Proof/Machine/FrameOut.lean ====
section
/-! DEFINITION. Frame-out: streams of the encoder lanes, fout, tile reads and completed frames (19 R319-R323). -/

namespace Sys2Proof.Machine

/-! Streams and their registers (19 R320). -/

def encCfg : Nat := 0x00
def encDim : Nat := 0x04
def encPitch : Nat := 0x08
def encChroff : Nat := 0x10
def encCtx : Nat := 0x18
def encCrbase : Nat := 0x20
def encCrctl : Nat := 0x28
def encCrhead : Nat := 0x2C
def encCrtail : Nat := 0x30
def encBsbase : Nat := 0x38
def encBssize : Nat := 0x40
def encBshead : Nat := 0x44
def encBstail : Nat := 0x48

/-- Slice offset of a register of stream `k`. -/
def encOff (k off : Nat) : Nat := 0xA000 + 0x80 * k + off
def State.encReg (s : State) (i k off : Nat) : Nat := (s.sreg i (encOff k off)).toNat
def State.setEnc (s : State) (i k off v : Nat) : State := s.setSreg i (encOff k off) (BitVec.ofNat 64 v)

def State.stream (s : State) (i k : Nat) : Stream := (spGet (s.slice i).streams k).getD {}
def State.setStream (s : State) (i k : Nat) (x : Stream) : State :=
  s.modSlice i (fun (v : Slice) => { v with streams := spPut v.streams k x })
def State.modStream (s : State) (i k : Nat) (f : Stream → Stream) : State := s.setStream i k (f (s.stream i k))

/-- Geometry of a stream: width, height, bytes of a sample, luma pitch, chroma offset. -/
structure EncGeo where
  w : Nat
  h : Nat
  bps : Nat
  pitch : Nat
  chroff : Nat
deriving DecidableEq, Repr

def State.encGeo (s : State) (i k : Nat) : EncGeo :=
  let d := s.encReg i k encDim
  { w := fld d 12 0 + 1, h := fld d 28 16 + 1, bps := if fld (s.encReg i k encCfg) 3 3 = 1 then 2 else 1,
    pitch := s.encReg i k encPitch, chroff := s.encReg i k encChroff }

def EncGeo.cols (g : EncGeo) : Nat := ceilDiv g.w 64
def EncGeo.count (g : EncGeo) : Nat := g.cols * ceilDiv g.h 64

/-- Byte ranges of a tile from a surface base: its luma rows, and its chroma rows, clipped to the frame (19 R322). -/
def EncGeo.ranges (g : EncGeo) (base idx : Nat) : List (Nat × Nat) :=
  let tx := idx % g.cols
  let ty := idx / g.cols
  let n := Nat.min 64 (g.w - 64 * tx)
  let luma := (List.range (Nat.min 64 (g.h - 64 * ty))).map (fun r => (base + g.pitch * (64 * ty + r) + 64 * tx * g.bps, n * g.bps))
  let chroma := (List.range (Nat.min 32 (ceilDiv g.h 2 - 32 * ty))).map (fun r =>
    (base + g.chroff + g.pitch * (32 * ty + r) + 64 * tx * g.bps, 2 * ceilDiv n 2 * g.bps))
  luma ++ chroma

/-- The fout of some threads is finished or abandoned: ENGC falls, and a wait on it acquires at the fout's scope (13 R232). -/
def State.engcFall (s : State) (ts : List Nat) (sc : Scope) : State := s.eachThread ts (fun t => t.engineDone sc)

/-- A stream ends at once (19 R320). -/
def State.endStream (s : State) (i k : Nat) : State :=
  let x := s.stream i k
  let s := x.tiles.foldl (fun (s : State) t => if t.read then s else s.engcFall t.tids (jobScope t.reads)) s
  let s := x.frames.foldl (fun (s : State) f => s.engcFall f.tids .partition) s
  s.modSlice i (fun (v : Slice) => { v with streams := spDel v.streams k })

/-- The other registers of a stream, and the ENC_CFG value that sets EN, are acceptable (19 R320). -/
def State.encGood (s : State) (i k : Nat) (v : Nat) : Bool :=
  let r (o : Nat) : Nat := s.encReg i k o
  let codec := fld v 2 1
  let bps := if fld v 3 3 = 1 then 2 else 1
  let w := fld (r encDim) 12 0 + 1
  let h := fld (r encDim) 28 16 + 1
  decide (codec < 3) && decide (fld v 5 4 < 3) && (codec != 2 || decide (fld v 15 8 ≤ 51)) && !(codec == 0 && fld v 3 3 == 1) &&
  decide (64 ≤ w) && decide (64 ≤ h) && decide (w * bps ≤ r encPitch) && decide (r encPitch % 256 = 0) && decide (r encChroff % 256 = 0) &&
  decide (r encCrbase % 4096 = 0) && decide (4 ≤ fld (r encCrctl) 4 0) && decide (fld (r encCrctl) 4 0 ≤ 16) &&
  decide (r encBsbase % 4096 = 0) && decide (1 ≤ r encBssize) && decide (r encBssize ≤ 1048576)

/-- ENC_CFG as stored: reserved CODEC and RC leave their fields, MBZ bits read back zero (00 R6). -/
def encCfgValue (old v : Nat) : Nat :=
  let v := setFld v 31 26 0
  let v := if fld v 2 1 = 3 then setFld v 2 1 (fld old 2 1) else v
  if fld v 5 4 = 3 then setFld v 5 4 (fld old 5 4) else v

/-- A write of ENC_CFG. -/
def State.encCfgSet (s : State) (slice stream v : Nat) : State :=
  let old := s.encReg slice stream encCfg
  if fld old 0 0 = 1 ∧ fld v 0 0 = 1 then s.status slice ctlBadState
  else if fld v 0 0 = 1 ∧ s.encGood slice stream v = false then s.status slice ctlConfigInvalid
  else
    let s := if fld v 31 26 ≠ 0 ∨ fld v 2 1 = 3 ∨ fld v 5 4 = 3 then s.count slice diagRsvw else s
    let s := s.setEnc slice stream encCfg (encCfgValue old v)
    if fld old 0 0 = 1 then s.endStream slice stream
    else if fld v 0 0 = 1 then
      let s := [encCrhead, encCrtail, encBshead, encBstail].foldl (fun (s : State) o => s.setEnc slice stream o 0) s
      s.setStream slice stream {}
    else s

/-- ENC_CFG_WRITE. -/
def execEncCfgWrite (fn : Func) (slice stream : Nat) (value : Word) (s : State) : Host.Outcome State Fault Refusal :=
  .next (if s.reaches fn slice && decide (stream < 16) then s.encCfgSet slice stream value.toNat else s)

/-! fout (19 R321). -/

/-- TRAPAUX of the 0x02 that a stream word raises. -/
def State.foutBad (s : State) (i c w : Nat) : Option Nat :=
  let k := fld w 27 24
  if fld w 31 28 ≠ 0 then some 3
  else if fld (s.encReg i k encCfg) 0 0 = 0 ∨ s.encReg i k encCtx ≠ ctxNum c then some 6
  else none

/-- The operands of a fout in its leader: surface base, frame, word 3. -/
def foutBody (fn : Nat) (a : Operand) : LaneM (Nat × Nat × Nat) := do
  noRunAhead
  match a with
  | .v n =>
    let f ← readReg (n.val + 2)
    let w ← readReg (n.val + 3)
    if fn = 1 then return (0, f.toNat, w.toNat)
    else
      let lo ← readReg n.val
      let hi ← readReg (n.val + 1)
      let base := lo.toNat + hi.toNat * 2 ^ 32
      let addr := BitVec.ofNat 64 base
      if base % 256 ≠ 0 then laneTrap 0x04 256 addr
      else if 2 ^ 50 ≤ base then laneTrap 0x06 3 addr
      else return (base, f.toNat, w.toNat)
  | _ => return (0, 0, 0)

/-- The cause of the stream word A+3 that a member names (19 R321). -/
def State.foutCause (s : State) (gid : Nat) (a : Operand) (t : Thread) : Option Cause :=
  let x := s.team (teamOf gid)
  ((t.handle (s.laneEnv gid).nregs a 3).bind (fun w => s.foutBad (coreSlice x.core) x.ctx w.toNat)).map
    (fun aux => { code := 0x02, aux := BitVec.ofNat 32 aux })

/-- A fout sent to the encoder lane of the group's slice: D is written at acceptance. -/
def State.foutSend (s : State) (fn : Nat) (l : Fin 16) (n : Nat) (u : Led (Nat × Nat × Nat)) : State :=
  if u.poi then (s.writeLanes u.gid n [0] false).passAll u.members
  else
    let (base, frame, w) := u.val
    let (id, s) := s.fresh
    let c : FCmd := { fn := fn, gid := u.gid, tids := u.active, pc := s.cur.pc, stream := fld w 27 24, frame := frame,
                      tile := fld w 23 0, base := base, dreg := n, op := id }
    let s := s.modSlice (coreSlice (s.team (teamOf u.gid)).core) (fun (v : Slice) => { v with fcmds := v.fcmds ++ [c] })
    let s := s.holdLanes u.gid id n
    u.members.foldl (fun (s : State) t => s.modThread t (fun x => { x with look := x.look ++ [(id, l.val)] })) (s.passAll u.members)

/-- fout.tile and fout.end: the stream is checked whatever the guard, then the command is sent. -/
def State.foutSet (s : State) (fn : Nat) (g : Guard) (l : Fin 16) (d a : Operand) : State :=
  (groupsIn s.members).foldl (fun (s : State) gid =>
    s.uniformHandled g (wideUse a 4 ++ [dst d]) (s.foutCause gid a) (foutBody fn a) (fun s u =>
      match d with
      | .v n => s.foutSend fn l n.val u
      | _ => s) gid) s

def execFoutTile (g : Guard) (l : Fin 16) (d a : Operand) (s : State) : Host.Outcome State Fault Refusal := .next (s.foutSet 0 g l d a)
def execFoutEnd (g : Guard) (l : Fin 16) (d a : Operand) (s : State) : Host.Outcome State Fault Refusal := .next (s.foutSet 1 g l d a)

/-- D of a fout at acceptance, and the stream with CUR moved on where the row says so. -/
def foutResult (x : Stream) (count fn frame tile : Nat) : Nat × Stream :=
  if frame < x.cur then (1, x)
  else if x.cur < frame ∧ x.ended = false then (4, x)
  else if fn = 0 ∧ count ≤ tile then (2, x)
  else if frame = x.cur ∧ x.ended = true then (3, x)
  else if x.cur < frame then (0, { x with cur := frame, ended := false })
  else (0, x)

/-- The deadline of the launch that issued a fout.end, for LATE (19 R323). -/
def State.groupDeadline (s : State) (gid : Nat) : Option Nat :=
  let r := (s.grid (s.team (teamOf gid)).grid).lrec
  if r.deadlineClass then some r.deadline else none

/-- The footprint of a fout: the bytes of a handed tile, which it reads (19 R322). -/
def State.foutFoot (s : State) (slice : Nat) (c : FCmd) : List Foot :=
  if c.fn = 0 then ((s.encGeo slice c.stream).ranges c.base c.tile).map (fun r => { space := 0, team := 0, base := r.1, len := r.2 }) else []

/-- A fout that its stream takes: the release for the active members' stores in the footprint, then the tile or the frame's end; none while
such a store must wait (13 R231; 19 R322). -/
def State.foutTake (s : State) (slice : Nat) (c : FCmd) (x : Stream) : Option State :=
  let reads := s.foutFoot slice c
  (s.pushRelease c.tids reads).map (fun s =>
    let s := s.eachThread c.tids (fun t => { t with engc := t.engc + 1 })
    if c.fn = 0 then
      let (acc, s) := s.fresh
      let t : Tile := { idx := c.tile, base := c.base, tids := c.tids, frame := c.frame, read := false, missing := false,
                        pc := c.pc, gid := c.gid, acc := acc, reads := reads }
      s.setStream slice c.stream { x with tiles := x.tiles ++ [t] }
    else
      let (n, s) := s.draw
      let f : EFrame := { frame := c.frame, tids := c.tids, deadline := s.groupDeadline c.gid,
                          ctx := (s.team (teamOf c.gid)).ctx, draw := n }
      s.setStream slice c.stream { x with ended := true, frames := x.frames ++ [f] })

/-- FOUT_ACCEPT: the encoder lane takes its oldest command (19 R321, R322). -/
def execFoutAccept (slice : Nat) (s : State) : Host.Outcome State Fault Refusal :=
  .next (match (s.slice slice).fcmds with
  | [] => s
  | c :: rest =>
    let full := c.tids.any (fun t => decide (262143 ≤ ((s.realThread t).getD {}).engc))
    if full || !s.groupIssues c.gid then s
    else
      let (r, x) := foutResult (s.stream slice c.stream) (s.encGeo slice c.stream).count c.fn c.frame c.tile
      let on := fld (s.encReg slice c.stream encCfg) 0 0 = 1
      match (if r ≠ 0 ∨ on = false then some s else s.foutTake slice c x) with
      | none => s
      | some s =>
        ((s.modSlice slice (fun (v : Slice) => { v with fcmds := rest })).eachOf c.gid (fun t =>
          t.deliver c.op (.regs c.dreg 1) [BitVec.ofNat 32 r])).stir (s.team (teamOf c.gid)).ctx)

/-! Tile reads (19 R322). -/

/-- The reads of a tile. -/
def State.tileJob (s : State) (t : Tile) : Job :=
  let w := s.whoT (s.leadThread t.gid)
  { who := w, own := false, pc := 0xFFFFFFFF,
    admits := fun leaf => !leafSys leaf && leafR leaf && (s.ctx w.ctx).compmask.getLsbD (leafComp leaf) }

/-- The oldest tile of a stream that is still to be read, changed. -/
def modUnread (f : Tile → Tile) (l : List Tile) : List Tile :=
  match l with
  | [] => []
  | t :: r => if t.read then t :: modUnread f r else f t :: r

/-- A tile has been read, or will be encoded as missing. -/
def State.endTile (s : State) (i k : Nat) (t : Tile) (missing : Bool) : State :=
  (s.modStream i k (fun (x : Stream) => { x with tiles := modUnread (fun t => { t with read := true, missing := missing, batch := none }) x.tiles })).engcFall
    t.tids (jobScope t.reads)

/-- A tile read that fails: 0x0B in the members of its fout. -/
def State.failTile (s : State) (i k : Nat) (t : Tile) (f : JobFail) (place : Nat × Nat × Nat) : State :=
  let fails (s : State) (aux : Word) : State :=
    t.tids.foldl (fun (s : State) x => s.defer x { code := 0x0B, aux := aux } t.pc) (s.endTile i k t true)
  match f with
  | .poison => s.consumeAs 0x0B (t.tids.headD 0) place.1 place.2.1 place.2.2 (fun s => fails s 2)
  | _ => fails s 1

/-- TILE_READ_COMPLETE: the oldest tile of a stream is read at the homes; a fault sends a batch instead. -/
def execTileReadComplete (slice stream : Nat) (fail : Option JobFail) (s : State) : Host.Outcome State Fault Refusal :=
  .next (match (s.stream slice stream).tiles.find? (fun t => !t.read) with
  | none => s
  | some t =>
    let c := (s.team (teamOf t.gid)).ctx
    let core := (s.team (teamOf t.gid)).core
    if t.batch.isSome || !s.mayBegin core c t.acc t.reads [] then s
    else
      let (_, m, s1) := s.jobLines (s.tileJob t) ((s.encGeo slice stream).ranges t.base t.idx) {}
      match fail with
      | none =>
        if !m.faults.isEmpty then
          let (no, s) := s1.sendBatch c 4 0 core 0 m.faults
          s.modStream slice stream (fun (x : Stream) => { x with tiles := modUnread (fun t => { t with batch := some no }) x.tiles })
        else if m.fail.isSome then s
        else (s1.endTile slice stream t false).stir c
      | some f => if m.faults.isEmpty && decide (m.fail = some f) then (s1.failTile slice stream t f m.failAt).stir c else s)

/-! Frames (19 R320, R323). -/

/-- Every tile of a frame has been read or is missing. -/
def Stream.frameRead (x : Stream) (frame : Nat) : Bool := x.tiles.all (fun t => decide (t.frame ≠ frame) || t.read)

/-- A completion entry (19 R323). -/
def encEntry (frame bytes dne : Nat) (late : Bool) : Nat :=
  frame % 2 ^ 32 + bytes % 2 ^ 32 * 2 ^ 32 + dne % 2 ^ 63 * 2 ^ 64 + (if late then 2 ^ 127 else 0)

/-- Bytes in a stream's ring, and its size. -/
def State.ringUsed (s : State) (i k : Nat) : Nat × Nat :=
  let size := s.encReg i k encBssize * 4096
  ((s.encReg i k encBshead + size - s.encReg i k encBstail % size) % size, size)

/-- A frame's bitstream appended to the ring, and its head moved on. -/
def State.ringPut (s : State) (i k : Nat) (f : EFrame) (bytes : Nat) : State :=
  let r (o : Nat) : Nat := s.encReg i k o
  let size := r encBssize * 4096
  let s := (List.range bytes).foldl (fun (s : State) n =>
    (s.agentWrite f.ctx (r encBsbase + (r encBshead + n) % size) 1 (Config.frameByte f.draw n).toNat true true).2) s
  s.setEnc i k encBshead ((r encBshead + bytes) % size)

/-- A frame's completion entry appended, or dropped and counted where its ring is full. -/
def State.ringEntry (s : State) (i k : Nat) (f : EFrame) (bytes : Nat) : State :=
  let r (o : Nat) : Nat := s.encReg i k o
  let n := 2 ^ fld (r encCrctl) 4 0
  let h := r encCrhead
  let v := s.vtime f.ctx % 2 ^ 63
  let late := match f.deadline with | some d => decide (d < v) | none => false
  if n ≤ (h + 2 ^ 32 - r encCrtail) % 2 ^ 32 then s.count i diagEncdrop
  else
    let s := (s.agentWrite f.ctx (r encCrbase + 16 * (h % n)) 16 (encEntry f.frame bytes v late) true true).2
    s.setEnc i k encCrhead ((h + 1) % 2 ^ 32)

/-- FRAME_COMPLETE: the oldest ended frame of a stream has its bitstream in the ring, and its completion entry is appended or dropped. -/
def execFrameComplete (slice stream : Nat) (s : State) : Host.Outcome State Fault Refusal :=
  .next (match (s.stream slice stream).frames with
  | [] => s
  | f :: rest =>
    let bytes := Config.frameBytes f.draw % 2 ^ 32
    let (used, size) := s.ringUsed slice stream
    if !(s.stream slice stream).frameRead f.frame || decide (size < used + bytes + 16) then s
    else
      let s := (s.ringPut slice stream f bytes).ringEntry slice stream f bytes
      let done_ (x : Stream) : Stream := { x with frames := rest, tiles := x.tiles.filter (fun t => t.frame ≠ f.frame) }
      ((s.modStream slice stream done_).engcFall f.tids .partition).stir f.ctx)

end Sys2Proof.Machine
end

