-- ==== Sys2Proof/Machine/Faults.lean ====
section
/-! DEFINITION. The fault queue and its answers (23 R362-R367), invalidation and release of translations (R355-R358), and the
watchdogs (R368, R370; 19 R313). -/

namespace Sys2Proof.Machine

/-! The fault queue (23 R363, R364). -/

/-- A fault record. -/
def faultRec (b : FBatch) (i : Nat) (r : FRec) : Nat :=
  r.va % 2 ^ 50 + r.kind % 8 * 2 ^ 50 + r.acc % 4 * 2 ^ 53 + (if r.ra then 2 ^ 55 else 0) + b.unit % 16 * 2 ^ 56
    + ctxNum b.ctx * 2 ^ 64 + b.slicelog % 16 * 2 ^ 80 + b.core % 16 * 2 ^ 84 + b.gslot % 128 * 2 ^ 88 + b.no % 2 ^ 32 * 2 ^ 96
    + b.recs.length % 64 * 2 ^ 128 + i % 32 * 2 ^ 136 + r.pc.toNat * 2 ^ 160 + b.stamp.toNat * 2 ^ 192

/-- FAULT_BATCH_WRITE: the oldest waiting batch of a partition is written whole once the ring has room. -/
def execFaultBatchWrite (part : Nat) (s : State) : Host.Outcome State Fault Refusal :=
  .next (match (s.slice part).waitingBatches with
  | [] => s
  | b :: rest =>
    let ctl := (s.sreg part 0x2008).toNat
    let n := 2 ^ fld ctl 4 0
    let h := (s.sreg part 0x200C).toNat
    let used := (h + 2 ^ 32 - (s.sreg part 0x2010).toNat) % 2 ^ 32
    let k := b.recs.length
    if fld ctl 8 8 = 0 ∨ n < used + k ∨ (s.slice part).fwBusy = true then s
    else
      let base := (s.sreg part 0x2000).toNat
      let s := (List.range k).foldl (fun (s : State) i =>
        match b.recs[i]? with
        | some r => s.systemPut part (ctxKey part 1023) 0 (base + 32 * ((h + i) % n)) 32 (faultRec b i r)
        | none => s) s
      let s := s.setSreg part 0x200C (BitVec.ofNat 64 ((h + k) % 2 ^ 32))
      (s.modSlice part (fun (v : Slice) => { v with waitingBatches := rest, outstanding := v.outstanding ++ [b] })).signal (.vf part) 1)

/-! Answers (23 R365). -/

/-- The records of a batch that a mask cancels. -/
def cancelled (b : FBatch) (mask : Nat) : List FRec :=
  (List.range b.recs.length).filterMap (fun k => if mask / 2 ^ k % 2 = 1 then b.recs[k]? else none)

/-- A group leaves park and goes on from its boundaries; the cancelled pages are its cancel set until its next answer. -/
def State.answerGroup (s : State) (gid : Nat) (bad : List FRec) : State :=
  s.modGroup gid (fun (g : Group) => { g with park := none, cancel := bad.map (fun r => r.va / 65536) })

/-- A copy, push or tmpl command goes on, cancelled or not. -/
def State.answerCopy (s : State) (who : Nat) (bad : Bool) : State :=
  let push (p : Push) : Push := if p.id = who then { p with batch := none, cancelled := p.cancelled || bad } else p
  let copy (p : Copy) : Copy := if p.id = who then { p with batch := none, cancelled := p.cancelled || bad } else p
  let tcmd (p : TCmd) : TCmd := if p.op = who then { p with batch := none, cancelled := p.cancelled || bad } else p
  let inCore (c : Core) : Core := { c with pushes := c.pushes.map push, copies := c.copies.map copy, tcmds := c.tcmds.map tcmd }
  { s with cores := s.cores.map (fun e => (e.1, inCore e.2)) }

/-- A matrix command goes on, or fails at the first page cancelled. -/
def State.answerM (s : State) (who : Nat) (bad : List FRec) : State :=
  let m (x : MCmd) : MCmd :=
    if x.id = who then
      { x with batch := none, cancelled := x.cancelled || !bad.isEmpty, faultVa := (bad.head?.map (·.va)).getD x.faultVa }
    else x
  { s with cores := s.cores.map (fun (e : Nat × Core) => (e.1, { e.2 with mcmds := e.2.mcmds.map m })) }

/-- A raster command goes on or stops. -/
def State.answerR (s : State) (who : Nat) (bad : Bool) : State :=
  match s.slices.findSome? (fun e => (e.2.raster.find? (fun r => r.id = who)).map (fun r => (e.1, r))) with
  | none => s
  | some (i, r) => if bad then s.failR i r .cancelled (9, 0, 0) else s.modR i who (fun x => { x with batch := none })

/-- A tile read goes on or stops. -/
def State.answerTile (s : State) (f no : Nat) (bad : Bool) : State :=
  (s.partSlices f).foldl (fun (s : State) i => (List.range 16).foldl (fun (s : State) k =>
    match (s.stream i k).tiles.find? (fun t => !t.read && t.batch = some no) with
    | none => s
    | some t =>
      if bad then s.failTile i k t .cancelled (9, 0, 0)
      else s.modStream i k (fun (x : Stream) => { x with tiles := modUnread (fun t => { t with batch := none }) x.tiles })) s) s

/-- A write of SLC_FRESP: an answer for an outstanding batch; any other is ignored and counted. -/
def State.fresp (s : State) (f v : Nat) : State :=
  let no := v % 2 ^ 32
  match (s.slice f).outstanding.find? (fun b => b.no = no) with
  | none => s.count f diagDbell
  | some b =>
    let s := s.modSlice f (fun (x : Slice) => { x with outstanding := x.outstanding.filter (fun y => y.no ≠ no) })
    let bad := cancelled b (v / 2 ^ 32)
    let s := match b.unit with
      | 0 => s.answerGroup b.who bad
      | 1 => s.answerCopy b.who (!bad.isEmpty)
      | 2 => s.answerM b.who bad
      | 3 => s.answerR b.who (!bad.isEmpty)
      | _ => s.answerTile f no (!bad.isEmpty)
    s.drainCheck f

/-- SLC_FRESP. -/
def execSlcFresp (slice : Nat) (value : DWord) (s : State) : Host.Outcome State Fault Refusal :=
  .next (if s.reaches (s.pfOf slice) slice then s.fresp (s.first slice) value.toNat else s)

/-! Invalidation (23 R355-R358). -/

def tinvBusy (st : Nat) : Bool := fld st 0 0 == 1

/-- Virtual range of a command: all of it for the whole context. -/
def Tinv.covers (t : Tinv) (lo hi : Nat) : Bool := t.op == 3 || (decide (lo < t.va + 65536 * t.pages) && decide (t.va < hi))

/-- Frames of a RELEASE. -/
def Tinv.frames (t : Tinv) (la : Nat) : Bool := decide (t.pa ≤ 64 * la) && decide (64 * la < t.pa + 65536 * t.pages)

/-- Step 1 of an invalidation (23 R356): the covered translations go, and run-ahead that met them ends (23 R361). -/
def State.flashClear (s : State) (t : Tinv) : State :=
  let keep (e : TlbEnt) : Bool := !(decide (e.ctx = t.ctx) && t.covers e.base (e.base + e.size))
  let s : State := { s with cores := s.cores.map (fun (e : Nat × Core) =>
    (e.1, { e.2 with tlb := e.2.tlb.filter keep, last := e.2.last.filter (fun l => keep l.2) })) }
  let met (p : Park) : Bool := p.running &&
    (p.pages.any (fun r => t.covers (r.va / 65536 * 65536) (r.va / 65536 * 65536 + 65536)) ||
     p.translated.any (fun n => t.covers (65536 * n) (65536 * n + 65536)))
  let gids := (s.groups.filter (fun e => decide ((s.team e.2.team).ctx = t.ctx) && (match e.2.park with | some p => met p | none => false))).map (·.1)
  gids.foldl (fun s g => s.endRunAheadGroup g) s

/-- The invalidation of a whole context, as of now. -/
def State.wholeContext (s : State) (c : Nat) : Tinv := { ctx := c, op := 3, va := 0, pa := 0, pages := 0, mark := s.nextId }

/-- A write of SLC_TINVCMD (23 R355); an accepted command clears the covered translations and ends run-ahead that met them (step 1). -/
def State.tinvCmd (s : State) (slice : Nat) (v op : Nat) : State :=
  let f := s.first slice
  let st := (s.sreg f 0x2034).toNat
  if !s.reaches (s.pfOf slice) slice then s
  else if tinvBusy st || fld v 13 12 != op || op == 0 || fld v 11 10 != 0 || fld v 15 14 != 0 then
    s.setSreg f 0x2034 (BitVec.ofNat 64 (setFld st 1 1 1))
  else
    let c := ctxKey f (fld v 9 0)
    let t : Tinv := { ctx := c, op := op, va := fld (s.sreg f 0x2020).toNat 49 16 * 65536, pa := fld (s.sreg f 0x2028).toNat 51 16 * 65536,
                      pages := fld v 31 16 + 1, mark := s.nextId }
    let st := if op = 2 then setFld st 31 8 0 else st
    let s := s.setSreg f 0x2034 (BitVec.ofNat 64 (setFld (setFld st 1 1 0) 0 0 1))
    (s.modSlice f (fun (x : Slice) => { x with tinv := some t })).flashClear t

def execTinvInval (slice : Nat) (value : Word) (s : State) : Host.Outcome State Fault Refusal := .next (s.tinvCmd slice value.toNat 1)
def execTinvRelease (slice : Nat) (value : Word) (s : State) : Host.Outcome State Fault Refusal := .next (s.tinvCmd slice value.toNat 2)
def execTinvInvalContext (slice : Nat) (value : Word) (s : State) : Host.Outcome State Fault Refusal := .next (s.tinvCmd slice value.toNat 3)

/-- The address of a global access in flight. -/
def Load.glbVa (l : Load) : Option Nat :=
  match l.kind with
  | .bytes sp _ va _ _ _ _ _ _ => if isGlb sp then some va else none
  | .rmw _ _ _ va _ _ _ _ => some va
  | .words _ _ => none

/-- Accesses that took a covered translation and have not been performed. -/
def State.tinvOpen (s : State) (t : Tinv) : Bool :=
  let near (va : Nat) : Bool := t.covers (va / 0x800000 * 0x800000) (va / 0x800000 * 0x800000 + 0x800000)
  s.loads.any (fun l => decide (l.id < t.mark) && decide (s.ctxOfT l.tid = t.ctx) && (match l.glbVa with | some va => near va | none => false)) ||
  s.stores.any (fun x => decide (x.id < t.mark) && decide ((s.team x.team).ctx = t.ctx) && isGlb x.space && !x.acted && near x.va)

/-- The frames of a RELEASE written back and dropped in every cache of the partition, and the pins on them cleared; a line that waits for
a sweep stays until then (23 R357). -/
def State.releaseFrames (s : State) (f : Nat) (t : Tinv) : Nat × State :=
  let slices := s.partSlices f
  let cores := slices.flatMap (fun i => (List.range 16).map (coreKey i))
  let s := s.flushCores cores none t.frames
  let s := slices.foldl (fun s i =>
    (((s.slice i).deep.filter (fun e => decide (e.2.dirty ≠ 0) && t.frames e.1)).map (·.1)).foldl
      (fun s la => (s.cleanDeep i la).getD (s.startSweep la)) s) s
  let held (i : Nat) : List (Nat × DLine) := (s.slice i).deep.filter (fun x => t.frames x.1)
  let pins := (slices.flatMap held).foldl (fun n e => n + (e.2.pins.foldl (fun l p => insertNew p.1 l) []).length) 0
  let s := cores.foldl (fun (s : State) k => s.modCore k (fun (c : Core) =>
    { c with l1 := c.l1.filter (fun x => !t.frames x.1), kc := c.kc.filter (fun x => !t.frames x.1) })) s
  let inSlice (v : Slice) : Slice :=
    let kept := v.deep.filter (fun x => !t.frames x.1 || x.2.dirty != 0)
    { v with cc := v.cc.filter (fun x => !t.frames x.1),
             deep := kept.map (fun x => (x.1, if t.frames x.1 then { x.2 with pins := [] } else x.2)) }
  (pins, slices.foldl (fun (s : State) i => s.modSlice i inSlice) s)

/-- TINV_COMPLETE: every agent has acknowledged; a RELEASE is done once none of its lines waits for a sweep. -/
def execTinvComplete (slice : Nat) (s : State) : Host.Outcome State Fault Refusal :=
  .next (match (s.slice slice).tinv with
  | none => s
  | some t =>
    if s.tinvOpen t then s
    else
      let fin (s : State) (st : Nat) : State :=
        (s.modSlice slice (fun (v : Slice) => { v with tinv := none })).setSreg slice 0x2034 (BitVec.ofNat 64 (setFld st 0 0 0))
      let st := (s.sreg slice 0x2034).toNat
      if t.op = 2 then
        let (n, s) := s.releaseFrames slice t
        let st := setFld st 31 8 (Nat.min (fld st 31 8 + n) (2 ^ 24 - 1))
        if (s.partSlices slice).any (fun i => (s.slice i).deep.any (fun x => t.frames x.1)) then s.setSreg slice 0x2034 (BitVec.ofNat 64 st) else fin s st
      else fin s st)

/-! Watchdogs (23 R368, R370, R371). -/

/-- WAITKIND, WAITING and NEEDED of a thread's wait. -/
def State.waitInfo (s : State) (tid : Nat) : Nat × Nat × Nat :=
  let g := gidOf tid
  let t := teamOf g
  let cnt (ts : List (Nat × Thread)) (p : Thread → Bool) : Nat := (ts.filter (fun e => p ((s.realThread e.1).getD e.2))).length
  let x := (s.realThread tid).getD {}
  match x.wait with
  | .mask k => (1, cnt (s.threadsOfGroup g) (fun y => y.wait = .mask k), popcB (s.realMask g k))
  | .bar => (2, cnt (s.threadsOfTeam t) (fun y => y.wait = .bar), (s.threadsOfTeam t).length)
  | .clbar =>
    let ts := s.threadsOfCluster (s.team t).cluster
    (3, cnt ts (fun y => y.wait = .clbar), ts.length)
  | .phaser loc _ _ =>
    let v := match loc with
      | .spad u off => (s.team u).readLocal 1 off 32
      | .glb pa => (s.homeBytes (ctxFirst (s.team t).ctx) (s.team t).ctx 0 pa 32).1
    (4, phArrived v, phNsig v)
  | .collective => (5, cnt (s.threadsOfGroup g) (fun y => decide (y.wait = .collective) && decide (y.pc = x.pc)), 32)
  | .fullEmpty _ => (6, 0, 0)
  | _ => (0, 0, 0)

/-- The thread's wait has reached WDOG_BAR. -/
def State.barExpired (s : State) (tid : Nat) : Bool :=
  match s.realThread tid with
  | some x =>
    let lim := (s.ctlFor (s.ctxOfT tid) (gidOf tid)).wdogBar.toNat
    x.wait.counted && decide (0 < lim) && decide (lim ≤ x.wdogBar)
  | none => false

/-- The trigger of a thread at its WDOG_BAR limit (23 R370). -/
def State.barDiag (s : State) (tid : Nat) : Diag :=
  let x := (s.realThread tid).getD {}
  let (k, w, n) := s.waitInfo tid
  { code := 0x10, tid := some tid, pc := x.pc, aux := x.waitWord, waitkind := k, waiting := w, needed := n,
    limit := (s.ctlFor (s.ctxOfT tid) (gidOf tid)).wdogBar }

/-- The context has gone WDOG_HANG opportunity clocks without progress (23 R368). -/
def State.hangExpired (s : State) (c : Nat) : Bool :=
  let lim := (s.ctx c).ctl.wdogHang
  decide (lim ≠ 0) && decide (lim.toNat ≤ (s.ctx c).hang)

/-- A ticket has stood oldest on its key for WDOG_ROS opportunity clocks (19 R313). -/
def State.rosExpired (s : State) (k : Ticket) : Bool :=
  let lim := (s.ctx k.ctx).ctl.wdogRos
  decide (lim ≠ 0) && decide (lim.toNat ≤ k.count) && decide (k.st ≠ 2)

def State.rosDiag (s : State) (k : Ticket) : Diag :=
  let pc := match k.tid with | some t => ((s.realThread t).getD {}).pc | none => 0xFFFFFFFF
  { code := 0x11, tid := k.tid, pc := pc, waitkind := 7, limit := (s.ctx k.ctx).ctl.wdogRos }

/-- Every limit of a context that has been reached is a trigger of its termination; the first in order is kept (23 R371). -/
def State.watchdogs (s : State) (c : Nat) : State :=
  let bars := (s.threads.filter (fun e => decide (s.ctxOfT e.1 = c) && s.barExpired e.1)).map (fun e => s.barDiag e.1)
  let hang : List Diag := if s.hangExpired c then [{ code := 0x11, pc := 0xFFFFFFFF, limit := (s.ctx c).ctl.wdogHang }] else []
  let ros := s.slices.flatMap (fun e => (e.2.tickets.filter (fun k => decide (k.ctx = c) && s.rosExpired k)).map s.rosDiag)
  (bars ++ hang ++ ros).foldl (fun (s : State) d => s.trigger c d) s

/-- WDOG_BAR_EXPIRY. -/
def execWdogBarExpiry (t : Nat) (s : State) : Host.Outcome State Fault Refusal :=
  .next (if s.barExpired t then s.watchdogs (s.ctxOfT t) else s)

/-- WDOG_HANG_EXPIRY. -/
def execWdogHangExpiry (ctx : Nat) (s : State) : Host.Outcome State Fault Refusal :=
  .next (if s.hangExpired ctx then s.watchdogs ctx else s)

/-- WDOG_ROS_EXPIRY. -/
def execWdogRosExpiry (slice id : Nat) (s : State) : Host.Outcome State Fault Refusal :=
  .next (match (s.slice slice).tickets.find? (fun k => k.id = id) with
  | none => s
  | some k => if s.rosExpired k then s.watchdogs k.ctx else s)

end Sys2Proof.Machine
end

