-- ==== Sys2Proof/Machine/Stop.lean ====
section
/-! DEFINITION. Stops of teams, what a stop preserves, save areas and resumes (03 R77-R79; 13 R235; 21 R340, R341). -/

namespace Sys2Proof.Machine

/-- The matrix commands that the team's groups run are cut at their row boundary, each pair on both sides; a side of a pair that waits
alone ends (17 R285). -/
def State.cutTeam (s : State) (t : Nat) : State :=
  let core := (s.team t).core
  let cmds := (s.core core).mcmds.filter (fun m => decide (teamOf m.gid = t) && m.started && decide (m.fn ≠ .mmar))
  let cut (x : MCmd) : MCmd := { x with started := false, partner := none, aloneSince := none }
  cmds.foldl (fun (s : State) m =>
    if m.aloneSince.isSome then s.finishM core m 1
    else
      let s := match s.pairSide m with
        | some o => s.modM o.1 o.2.id cut
        | none => s
      s.modM core m.id cut) s

/-- The team takes the stop of 03 R77: run-ahead ends, waits that stand before their instruction are abandoned, its matrix commands
are cut. -/
def State.stopTeam (s : State) (t : Nat) (migrating : Bool) : State :=
  let core := (s.team t).core
  let mine (tid : Nat) : Bool := decide (teamOf (gidOf tid) = t)
  let s := ((s.groupsOf t).map (·.1)).foldl (fun (s : State) g => s.endRunAheadGroup g) s
  let keep (w : Walk) : Walk := { w with reqs := w.reqs.filter (fun r => !mine r.1) }
  let s : State := { s with walks := (s.walks.map keep).filter (fun w => !w.reqs.isEmpty) }
  let s := s.modCore core (fun (c : Core) => { c with
    spawnQ := c.spawnQ.filter (fun r => match r.parent with | some x => !mine x | none => true) })
  let wake (x : Thread) : Thread := match x.wait with
    | .retry | .translate | .migpt | .spawn => { x with wait := .none }
    | _ => x
  let s := (s.threadsOfTeam t).foldl (fun (s : State) e => s.modThread e.1 wake) s
  let s := (if migrating then s.haltPairs t else s).cutTeam t
  s.modTeam t (fun (x : Team) => { x with
    state := .stopping, mig := if migrating then x.mig.map (fun m => { m with moving := true }) else none })

/-- What stands in the way of carrying a stopped team's state off its core: accesses under way, or an mmar that computes its rows. -/
def State.teamBusy (s : State) (t : Nat) : Bool :=
  s.loads.any (fun l => decide (teamOf (gidOf l.tid) = t)) || s.stores.any (fun x => decide (x.team = t)) ||
  (s.core (s.team t).core).mcmds.any (fun m => decide (teamOf m.gid = t) && m.started)

/-- The lines of the team leave its core's L1, the dirty bytes that it wrote at their homes (13 R235); its bins leave the core with it, and
the core's feedback filter forgets the context (19 R301). -/
def State.leaveCore (s : State) (t : Nat) : State :=
  let x := s.team t
  let s := s.flushCores (insertNew x.core (s.clusterCores t)) (some t) (fun _ => true)
  let mine := ((s.core x.core).l1.filter (fun e => e.2.fillers.contains t || e.2.writers.contains t)).map (·.1)
  let s := mine.foldl (fun (s : State) la => (s.cleanL1 x.core la).dropL1 x.core la) s
  let bins := ((s.core x.core).bins.filter (fun b => b.team = t)).map (fun (b : Bin) => { b with first := s.clock - b.first })
  let s := s.modCore x.core (fun (c : Core) => { c with
    bins := c.bins.filter (fun b => b.team ≠ t), held := c.held.filter (fun h => teamOf h.1 ≠ t),
    table := c.table.filter (fun e => e.team ≠ t), filter := c.filter.filter (fun k => k.1 ≠ x.ctx) })
  s.modTeam t (fun (y : Team) => { y with carried := bins })

/-- A stopped team is installed on a core (03 R78, R79; 21 R343): its slots and bins there are fresh, its engine work goes with it, its
acquire stamp is the resume's. -/
def State.installTeam (s : State) (t core : Nat) : State :=
  let x := s.team t
  let old := x.core
  let k := s.core old
  let inT (gid : Nat) : Bool := decide (teamOf gid = t)
  let m := k.mcmds.filter (fun c => inT c.gid)
  let tc := k.tcmds.filter (fun c => inT c.gid)
  let ps := k.pushes.filter (fun c => inT (gidOf c.tid))
  let cs := k.copies.filter (fun c => inT (gidOf c.tid))
  let s := s.modCore old (fun (c : Core) => { c with
    mcmds := c.mcmds.filter (fun e => !inT e.gid), tcmds := c.tcmds.filter (fun e => !inT e.gid),
    pushes := c.pushes.filter (fun e => !inT (gidOf e.tid)), copies := c.copies.filter (fun e => !inT (gidOf e.tid)) })
  let s := s.modCore core (fun (c : Core) => { c with
    mcmds := c.mcmds ++ m, tcmds := c.tcmds ++ tc, pushes := c.pushes ++ ps, copies := c.copies ++ cs })
  let s := s.freeBlock t
  let s := s.modTeam t (fun (y : Team) => { y with core := core, state := .resident, mig := none, carried := [] })
  let s := ((s.groupsOf t).map (·.1)).foldl (fun (s : State) g =>
    let (slot, s) := s.pick (s.freeSlots core)
    s.modGroup g (fun (y : Group) => { y with slot := slot, halt := none })) (s.unhalt t)
  let s := s.acquireAt (s.whoTeam t) .partition
  x.carried.foldl (fun (s : State) b =>
    let nos := (List.range 64).filter (fun n => (s.core core).bins.all (fun z => z.no ≠ n))
    let (no, s) := s.pick nos
    let (slot, s) := s.pick (s.freeSlots core)
    let nb : Bin := { b with no := no, slot := slot, first := s.clock - b.first }
    s.modCore core (fun (c : Core) => { c with bins := c.bins ++ [nb] })) s

/-! Save areas (21 R341). -/

/-- Bytes of a team's block. -/
def State.saveBytes (s : State) (t : Nat) : Nat :=
  let x := s.team t
  let z := x.sizes
  let n := 4096 + (s.groupsOf t).length * (128 * x.nregs + 1024) + (z.spad + z.wbuf + z.abuf + z.cbuf) + (z.spad + z.abuf + z.cbuf) / 16
  (n + 4095) / 4096 * 4096

/-- The lowest place of `n` bytes in a save area among the blocks taken. -/
def firstFit (size : Nat) (blocks : List (Nat × Nat)) (n : Nat) : Option Nat :=
  let free (b : Nat) : Bool := decide (b + n ≤ size) && blocks.all (fun e => decide (b + n ≤ e.1) || decide (e.1 + e.2 ≤ b))
  ((0 :: blocks.map (fun e => e.1 + e.2)).filter free).foldl (fun (a : Option Nat) b =>
    match a with | none => some b | some x => some (Nat.min x b)) none

/-- A block of the team's save area taken. -/
def State.takeBlock (s : State) (t : Nat) : Option (Nat × Nat × State) :=
  let c := (s.team t).ctx
  let n := s.saveBytes t
  (firstFit ((s.ctx c).savesize * 4096) (s.ctx c).blocks n).map (fun b =>
    (b, n, s.modCtx c (fun (x : Ctx) => { x with blocks := x.blocks ++ [(b, n)] })))

/-- The save area holds all these teams at once. -/
def State.canSave (s : State) (ts : List Nat) : Bool :=
  (ts.foldl (fun (o : Option State) t => o.bind (fun s => (s.takeBlock t).map (fun r => r.2.2))) (some s)).isSome

/-- A stopped team saved; none while its state is still under way or no block is free. -/
def State.saveTeam (s : State) (t : Nat) : Option State :=
  if s.teamBusy t then none
  else (s.takeBlock t).map (fun (b, n, s) => (s.leaveCore t).modTeam t (fun (x : Team) => { x with state := .saved b n }))

/-- The team is stopping to be saved. -/
def Team.saving (x : Team) : Bool := decide (x.state = .stopping) && x.mig.isNone

/-- Every stopping team of a partition that can be saved is, and the clusters whose teams are all saved are stopped. -/
def State.savePending (s : State) (f : Nat) : State :=
  let ts := (s.teams.filter (fun e => decide (ctxFirst e.2.ctx = f) && e.2.saving)).map (·.1)
  let s := ts.foldl (fun (s : State) t => (s.saveTeam t).getD s) s
  let isSaved (t : Nat) : Bool := match (s.team t).state with | .saved _ _ => true | _ => false
  { s with clusters := s.clusters.map (fun (e : Nat × Cluster) =>
      if e.2.state = .stopping && decide (ctxFirst e.2.ctx = f) && e.2.teams.all isSaved then (e.1, { e.2 with state := .stopped }) else e) }

/-- Every team of a cluster takes the stop. -/
def State.stopCluster (s : State) (c : Nat) : State :=
  let ts := (s.cluster c).teams
  let s := ts.foldl (fun (s : State) t => if (s.team t).state = .resident then s.stopTeam t false else
    if (s.team t).mig.isSome then s.modTeam t (fun (x : Team) => { x with mig := none }) else s) s
  s.modCluster c (fun (x : Cluster) => { x with state := .stopping })

end Sys2Proof.Machine
end

