-- ==== Sys2Proof/Machine/Sched.lean ====
section
/-! DEFINITION. The scheduler: order among launches, placement, pre-emption, completion of grids (21 R331-R340), and migration
(R342-R344). -/

namespace Sys2Proof.Machine

/-! Order (21 R333). -/

/-- Slack of a launch in nanoseconds of its context's VTIME. -/
def State.slack (s : State) (g : Nat) : Int := ((s.grid g).lrec.deadline : Int) - (s.vtime (s.grid g).ctx : Int)

/-- Launch `a` stands before launch `b`. -/
def State.before (s : State) (a b : Nat) : Bool :=
  let x := s.grid a
  let y := s.grid b
  if x.lrec.deadlineClass != y.lrec.deadlineClass then x.lrec.deadlineClass
  else
    let u : Int := if x.lrec.deadlineClass then s.slack a else ((x.service * (y.lrec.weight + 1) : Nat) : Int)
    let v : Int := if x.lrec.deadlineClass then s.slack b else ((y.service * (x.lrec.weight + 1) : Nat) : Int)
    if u ≠ v then decide (u < v)
    else if x.passedAt ≠ y.passedAt then decide (x.passedAt < y.passedAt)
    else decide (x.queue < y.queue)

/-- Insertion of a launch in order; a tie keeps the earlier handle first. -/
def State.insertG (s : State) (g : Nat) (l : List Nat) : List Nat :=
  match l with
  | [] => [g]
  | h :: r => if s.before g h then g :: h :: r else h :: s.insertG g r

/-- A launch whose clusters may be placed now (21 R333; 27 R400, R418). -/
def State.launchOpen (s : State) (g : Nat) : Bool :=
  let x := s.grid g
  let c := s.ctx x.ctx
  decide (x.phase = 0) && c.term.isNone && decide (c.paused = 0) &&
  (!x.lrec.serial || (spGet s.grids x.prev).isNone)

/-- The launches of a partition in order. -/
def State.ranked (s : State) (f : Nat) : List Nat :=
  ((s.grids.filter (fun e => decide (e.2.part = f) && s.launchOpen e.1)).map (·.1)).foldl (fun l g => s.insertG g l) []

/-- The waiting clusters of a launch: stopped and killed ones first, then its next unplaced one. -/
def State.waitingOf (s : State) (g : Nat) : List Nat :=
  let mine := s.clusters.filter (fun e => decide (e.2.grid = g))
  (mine.filter (fun e => decide (e.2.state = .stopped) || decide (e.2.state = .killed))).map (·.1) ++
  (mine.filter (fun e => decide (e.2.state = .waiting))).map (·.1)

/-- The next unplaced cluster of each launch gets its record. -/
def State.openClusters (s : State) (f : Nat) : State :=
  (s.ranked f).foldl (fun (s : State) g =>
    let x := s.grid g
    if x.lrec.clusters ≤ x.nextCluster || s.clusters.any (fun e => decide (e.2.grid = g) && decide (e.2.state = .waiting)) then s
    else
      let (id, s) := s.fresh
      let c : Cluster := { grid := g, ctx := x.ctx, idx := BitVec.ofNat 32 x.nextCluster, w := x.lrec.cw, h := x.lrec.ch }
      (s.setCluster id c).modGrid g (fun (y : Grid) => { y with nextCluster := y.nextCluster + 1 })) s

/-! Rectangles and fit (21 R334). -/

/-- Core in placement. -/
def State.placeable (s : State) (c : Nat) : Bool := s.hasCore c && !(s.core c).withdrawn

/-- Origins of the w × h rectangles of a partition, in ascending (Y, X). -/
def State.rects (s : State) (f w h : Nat) : List Nat :=
  (List.range 192).filter (fun o =>
    decide (o % 16 + w ≤ 16) && decide (o / 16 + h ≤ 12) &&
    (rectCores o w h).all (fun c => (s.partSlices f).contains (coreSlice c) && s.placeable c))

/-- What a core must have free, or has: capacity and spawn bins. -/
abbrev Room := Cap × Nat

/-- The team of a stopped cluster that stands at its position `i`; none where that team has ended. -/
def State.stoppedTeam (s : State) (cl i : Nat) : Option Nat := (s.cluster cl).teams.find? (fun t => (s.team t).idx = i)

/-- What team `i` of a cluster needs. -/
def State.teamNeed (s : State) (cl i : Nat) : Room :=
  let x := s.cluster cl
  if x.state = .stopped then
    match s.stoppedTeam cl i with
    | some t => (s.teamCap t, (s.team t).carried.length)
    | none => ({}, 0)
  else
    let l := (s.grid x.grid).lrec
    (capOf (l.threads / 32) l.nregs l.sizes, 0)

/-- A core closed to placement: under test, or its array leased (25 R385; 27 R414). -/
def State.shut (s : State) (c : Nat) : Bool := (s.core c).inPass || decide ((s.core c).lease.st ≠ 0)

/-- Team `i` of a cluster fits a core, `extra` being what is about to come free there. -/
def State.coreFits (s : State) (cl i c : Nat) (extra : Room) : Bool :=
  let x := s.cluster cl
  let (need, bins) := s.teamNeed cl i
  s.placeable c && !s.shut c && need.le ((s.openCap c (some cl)).add extra.1) && decide (bins ≤ s.freeBins c + extra.2) &&
  (decide (x.state = .stopped) || !s.closedFor c x.grid)

/-- A rectangle fits a cluster. -/
def State.rectFits (s : State) (cl o : Nat) (extra : Nat → Room) : Bool :=
  let x := s.cluster cl
  let cs := rectCores o x.w x.h
  (List.range cs.length).all (fun i => s.coreFits cl i (cs.getD i 0) (extra (cs.getD i 0)))

def State.fitting (s : State) (f cl : Nat) : List Nat :=
  let x := s.cluster cl
  (s.rects f x.w x.h).filter (fun o => s.rectFits cl o (fun _ => ({}, 0)))

/-! Choice of cores (21 R337). -/

/-- Weight of a core. -/
def coreWeight (c : Core) : Nat :=
  Nat.max (Nat.min 7 ((c.temp - 70) / 4).toNat) (Nat.min 7 c.droop)

/-- Round-robin distance of a core from the pointer. -/
def rrDist (ptr c : Nat) : Nat := if ptr ≤ c then c - ptr else c + 192 - ptr

/-- Insertion of an origin by the round-robin position of its core. -/
def insertRr (ptr : Nat) (o : Nat) (l : List Nat) : List Nat :=
  let key (o : Nat) : Nat := rrDist ptr (stopCore (o % 16) (o / 16))
  match l with
  | [] => [o]
  | h :: r => if key o < key h then o :: h :: r else h :: insertRr ptr o r

/-- The origin picked among candidates, with the pass-over counts and the pointer moved on. -/
def State.pickOrigin (s : State) (f w h : Nat) (cands : List Nat) : Option (Nat × State) :=
  let sc := (s.slice f).sched
  let four := (cands.foldl (fun l o => insertRr sc.pointer o l) []).take 4
  let orig (o : Nat) : Nat := stopCore (o % 16) (o / 16)
  let weight (o : Nat) : Nat := (rectCores o w h).foldl (fun n c => n + coreWeight (s.core c)) 0
  let due := four.filter (fun o => decide (3 ≤ spRead 0 sc.passes (orig o)))
  let best := match due with
    | o :: _ => some o
    | [] => four.foldl (fun (a : Option Nat) o => match a with
        | none => some o
        | some b => if weight o < weight b then some o else some b) none
  best.map (fun o =>
    let passes := four.foldl (fun (p : Sp Nat) c =>
      spWrite 0 p (orig c) (if c = o then 0 else spRead 0 p (orig c) + 1)) sc.passes
    let all := (s.partSlices f).flatMap (fun i => (List.range 16).map (coreKey i))
    let next := ((all.find? (fun c => decide (orig o < c))).orElse (fun _ => all.head?)).getD 0
    (o, s.modSlice f (fun (v : Slice) => { v with sched := { v.sched with pointer := next, passes := passes } })))

/-! Placement (21 R331, R335, R338; 25 R377). -/

/-- The team of one core of a new cluster, with its groups and threads. -/
def State.startTeam (s : State) (cl i core clpos : Nat) : State :=
  let x := s.cluster cl
  let l := (s.grid x.grid).lrec
  let (t, s) := s.fresh
  let sl := s.slicelogOf core
  let tm : Team := { cluster := cl, grid := x.grid, ctx := x.ctx, idx := i, core := core, corelog := 16 * sl + corePos core, slicelog := sl,
                     clpos := clpos, nregs := l.nregs, nthreads := l.threads, sizes := l.sizes, nextGroup := l.threads / 32 }
  let s := (s.setTeam t tm).modCluster cl (fun (c : Cluster) => { c with teams := c.teams ++ [t] })
  (List.range (l.threads / 32)).foldl (fun (s : State) g =>
    let gid := groupKey t g
    let (slot, s) := s.pick (s.freeSlots core)
    let gr : Group := { team := t, idx := g, slot := slot, masks := [(0, 0xFFFFFFFF)] }
    (List.range 32).foldl (fun (s : State) n => s.setThread (tidOf gid n) (startThread l.entry l.args s.clock .system)) (s.setGroup gid gr)) s

/-- A cluster placed on a rectangle: started, relaunched or resumed. -/
def State.placeAt (s : State) (cl o : Nat) : State :=
  let x := s.cluster cl
  let cs := rectCores o x.w x.h
  let idx := List.range cs.length
  let s :=
    if x.state = .stopped then
      idx.foldl (fun (s : State) i => match s.stoppedTeam cl i with
        | some t => s.installTeam t (cs.getD i 0)
        | none => s) s
    else idx.foldl (fun (s : State) i => s.startTeam cl i (cs.getD i 0) (i % x.w + 16 * (i / x.w))) s
  let s := s.modCluster cl (fun (c : Cluster) => { c with state := .running, chosen := none, held := [], closed := false })
  if x.state = .killed then
    let n := x.relaunches + 1
    let s := s.modCluster cl (fun (c : Cluster) => { c with relaunches := n, outside := false })
    let s := s.modGrid x.grid (fun (g : Grid) => { g with relaunches := g.relaunches + 1 })
    let c0 := cs.headD 0
    s.logError (coreSlice c0) 5 9 (some x.ctx) (corePos c0) n 0 0 ((s.grid x.grid).number.toNat + x.idx.toNat * 2 ^ 32)
  else s

/-- What a rectangle's cores lack for a cluster, in bytes and slots. -/
def State.lacking (s : State) (cl o : Nat) : Nat :=
  let x := s.cluster cl
  let cs := rectCores o x.w x.h
  (List.range cs.length).foldl (fun n i =>
    let d := (s.teamNeed cl i).1.sub (s.openCap (cs.getD i 0) (some cl))
    n + d.groups + 4 * d.regs + d.sizes.spad + d.sizes.wbuf + d.sizes.abuf + d.sizes.cbuf) 0

/-- The chosen rectangle of the first cluster in order, set if it has none. -/
def State.chooseRect (s : State) (f cl : Nat) : State :=
  let x := s.cluster cl
  if x.chosen.isSome then s
  else
    let best := (s.rects f x.w x.h).foldl (fun (a : Option Nat) o => match a with
      | none => some o
      | some b => if s.lacking cl o < s.lacking cl b then some o else some b) none
    match best with
    | none => s
    | some o => s.modCluster cl (fun (c : Cluster) => { c with chosen := some (o, s.clock) })

/-- Leased arrays under the chosen rectangle of a cluster are asked back (27 R415). -/
def State.askBack (s : State) (cl : Nat) : State :=
  match (s.cluster cl).chosen with
  | none => s
  | some (o, _) => (rectCores o (s.cluster cl).w (s.cluster cl).h).foldl (fun (s : State) c =>
      s.modCore c (fun (x : Core) => if x.lease.st = 1 then { x with lease := { x.lease with st := 2 } } else x)) s

/-! Pre-emption (21 R339). -/

def subsets {α : Type} (l : List α) : List (List α) :=
  match l with
  | [] => [[]]
  | x :: r => let p := subsets r; p ++ p.map (x :: ·)

/-- A cluster that a claimant of a given slack may stop. -/
def State.eligible (s : State) (f v : Nat) (slack : Int) : Bool :=
  let x := s.cluster v
  let g := s.grid x.grid
  decide (x.state = .running) && decide (ctxFirst x.ctx = f) && !x.killing &&
  (!g.lrec.deadlineClass || decide (slack + ((s.sreg f 0x1020).toNat : Int) < s.slack x.grid)) && s.canSave x.teams

/-- What the teams of some clusters hold on a core. -/
def State.roomOfAll (s : State) (vs : List Nat) (c : Nat) : Room :=
  let ts := (vs.flatMap (fun v => (s.cluster v).teams)).filter (fun t => (s.team t).core = c)
  (ts.foldl (fun (a : Cap) t => a.add (s.teamCap t)) {}, (s.core c).bins.countP (fun b => ts.contains b.team))

/-- How a victim set ranks: DEADLINE victims, threads, latest deadline. -/
structure VictimKey where
  deadlines : Bool
  threads : Nat
  latest : Nat
deriving DecidableEq, Repr

def State.victimKey (s : State) (vs : List Nat) : VictimKey :=
  let rec_ (v : Nat) : Launch := (s.grid (s.cluster v).grid).lrec
  { deadlines := vs.any (fun v => (rec_ v).deadlineClass),
    threads := vs.foldl (fun n v => n + (s.threadsOfCluster v).length) 0,
    latest := (vs.filter (fun v => (rec_ v).deadlineClass)).foldl (fun n v => Nat.max n (rec_ v).deadline) 0 }

/-- `a` is preferred to `b`; none on a tie. -/
def VictimKey.better (a b : VictimKey) : Option Bool :=
  if a.deadlines != b.deadlines then some (!a.deadlines)
  else if a.threads ≠ b.threads then some (decide (a.threads < b.threads))
  else if a.latest ≠ b.latest then some (decide (b.latest < a.latest))
  else none

/-- Cluster `a` stands after cluster `b` in order. -/
def State.after (s : State) (a b : Nat) : Bool :=
  let x := s.cluster a
  let y := s.cluster b
  s.before y.grid x.grid || (!s.before x.grid y.grid && decide (y.idx < x.idx))

/-- The cluster of a set that stands latest. -/
def State.latestOf (s : State) (vs : List Nat) : Nat := vs.foldl (fun a v => if s.after v a then v else a) (vs.headD 0)

/-- The victim set of a rectangle. -/
def State.victimSet (s : State) (f cl o : Nat) : Option (List Nat) :=
  let x := s.cluster cl
  let cs := rectCores o x.w x.h
  let on (v : Nat) : Bool := (s.cluster v).teams.any (fun t => cs.contains (s.team t).core)
  let el := (s.clusters.filter (fun e => s.eligible f e.1 (s.slack x.grid) && on e.1)).map (·.1)
  let sets := (subsets el).filter (fun vs => !vs.isEmpty && s.rectFits cl o (s.roomOfAll vs) &&
    s.canSave (vs.flatMap (fun v => (s.cluster v).teams)))
  sets.foldl (fun (a : Option (List Nat)) vs => match a with
    | none => some vs
    | some b =>
      match (s.victimKey vs).better (s.victimKey b) with
      | some true => some vs
      | some false => some b
      | none => if s.after (s.latestOf vs) (s.latestOf b) then some vs else some b) none

/-- The claimant stops the victim set of the rectangle that ranks first. -/
def State.preempt (s : State) (f cl : Nat) : Option State :=
  let x := s.cluster cl
  let best := (s.rects f x.w x.h).foldl (fun (a : Option (Nat × List Nat)) o =>
    match s.victimSet f cl o, a with
    | none, a => a
    | some vs, none => some (o, vs)
    | some vs, some (p, ws) => if (s.victimKey vs).better (s.victimKey ws) = some true then some (o, vs) else some (p, ws)) none
  best.map (fun (o, vs) =>
    let s := vs.foldl (fun (s : State) v => s.stopCluster v) s
    s.modSlice f (fun (v : Slice) => { v with sched := { v.sched with claims := v.sched.claims ++ [(cl, o, vs)] } }))

/-! Decisions. -/

/-- The first cluster of a partition in order; none while a launch whose next cluster has no record yet stands before it. -/
def State.firstCluster (s : State) (f : Nat) : Option Nat :=
  ((s.ranked f).findSome? (fun g =>
    match s.waitingOf g with
    | cl :: _ => some (some cl)
    | [] => if (s.grid g).nextCluster < (s.grid g).lrec.clusters then some none else none)).getD none

/-- Only the first cluster in order holds reservations. -/
def State.dropHeld (s : State) (f : Nat) (first : Option Nat) : State :=
  { s with clusters := s.clusters.map (fun (e : Nat × Cluster) =>
      if ctxFirst e.2.ctx = f ∧ some e.1 ≠ first then (e.1, { e.2 with held := [] }) else e) }

/-- The origins that capacity is reserved for: the cluster's chosen rectangle, and that of its claim while its victims are saved. -/
def State.targets (s : State) (f cl : Nat) : List Nat :=
  (((s.cluster cl).chosen.map (·.1)).toList ++ ((s.slice f).sched.claims.filter (fun k => k.1 = cl)).map (·.2.1)).eraseDups

/-- Reservations after a step that led from `s` (21 R335): those of a cluster that is no longer first are released, and capacity that has
come free on the cores of the first one's rectangle is reserved for it until its need there is met. -/
def State.reserve (s s' : State) (f : Nat) : State :=
  let first := s'.firstCluster f
  let a := s'.dropHeld f first
  match first with
  | none => a
  | some cl => (s'.targets f cl).foldl (fun (a : State) o =>
      let cs := rectCores o (s'.cluster cl).w (s'.cluster cl).h
      (List.range cs.length).foldl (fun (a : State) i =>
        let c := cs.getD i 0
        let freed := (s.usedCap c).sub (s'.usedCap c)
        if freed = {} then a
        else a.modCluster cl (fun (x : Cluster) =>
          { x with held := spPut x.held c ((((spGet x.held c).getD {}).add freed).min (s'.teamNeed cl i).1) })) a) a

/-- The same over the partitions with a cluster that has reservations or a rectangle in view. -/
def State.reserveAll (s s' : State) : State :=
  let fs := s'.clusters.foldl (fun l e => if e.2.chosen.isSome || !e.2.held.isEmpty then insertNew (ctxFirst e.2.ctx) l else l) ([] : List Nat)
  let gs := s'.slices.foldl (fun l e => if e.2.sched.claims.isEmpty then l else insertNew e.1 l) fs
  gs.foldl (fun a f => s.reserve a f) s'

/-- The rectangle that a waiting cluster takes now. -/
def State.rectFor (s : State) (f cl : Nat) : Option (Nat × State) :=
  let x := s.cluster cl
  match x.chosen with
  | some (o, _) => if s.rectFits cl o (fun _ => ({}, 0)) then some (o, s) else s.pickOrigin f x.w x.h (s.fitting f cl)
  | none => s.pickOrigin f x.w x.h (s.fitting f cl)

/-- The first cluster of a list that some rectangle fits is placed. -/
def State.placeFirst (s : State) (f : Nat) (l : List Nat) : State :=
  match l with
  | [] => s
  | cl :: r =>
    match s.rectFor f cl with
    | some (o, s) => s.placeAt cl o
    | none => s.placeFirst f r

/-- The partition may place work: in RUN, its controller not changing firmware. -/
def State.mayPlace (s : State) (f : Nat) : Bool := decide (s.first f = f) && decide (s.slcState f = stRun) && !(s.slice f).fwBusy

/-- PLACEMENT_DECISION: free capacity is offered to the waiting clusters in order; one cluster is placed at a decision. The first in
order, if it cannot be, pre-empts or gets its chosen rectangle. -/
def execPlacementDecision (part : Nat) (s : State) : Host.Outcome State Fault Refusal :=
  .next (if !s.mayPlace part then s
  else
    let s := s.openClusters part
    let order := (s.ranked part).flatMap (fun g => s.waitingOf g)
    match order with
    | [] => s.dropHeld part none
    | cl :: rest =>
      let s := s.dropHeld part (some cl)
      match s.rectFor part cl with
      | some (o, s) => s.placeAt cl o
      | none =>
        let deadline := (s.grid (s.cluster cl).grid).lrec.deadlineClass
        let claimed := (s.slice part).sched.claims.any (fun k => k.1 = cl)
        let s := match (if deadline && !claimed then s.preempt part cl else none) with
          | some s => s
          | none => (s.chooseRect part cl).askBack cl
        s.placeFirst part rest)

/-- A claim whose victims are all saved is over: its claimant is placed where it still waits and its rectangle fits (21 R340). -/
def State.settleClaim (s : State) (part : Nat) (k : Nat × Nat × List Nat) : State :=
  let (cl, o, vs) := k
  if vs.any (fun v => decide ((s.cluster v).state = ClState.stopping) && (spGet s.clusters v).isSome) then s
  else
    let s := s.modSlice part (fun (v : Slice) => { v with sched := { v.sched with claims := v.sched.claims.filter (· ≠ k) } })
    let x := s.cluster cl
    let waits := decide (x.state = ClState.waiting) || decide (x.state = ClState.stopped) || decide (x.state = ClState.killed)
    if (spGet s.clusters cl).isSome && waits && s.mayPlace part && s.launchOpen x.grid && s.rectFits cl o (fun _ => ({}, 0)) then s.placeAt cl o
    else s

/-- PREEMPT_SAVE_COMPLETE: the stopping teams of a partition that can be saved are; once every victim of a claim is saved the
claimant is placed. -/
def execPreemptSaveComplete (part : Nat) (s : State) : Host.Outcome State Fault Refusal :=
  .next (
    let s := s.savePending part
    ((s.slice part).sched.claims.foldl (fun (s : State) k => s.settleClaim part k) s).drainCheck part)

/-- AGE_LIMIT_EXPIRY: a chosen rectangle closes (21 R336). -/
def execAgeLimitExpiry (cluster : Nat) (s : State) : Host.Outcome State Fault Refusal :=
  .next (match (s.cluster cluster).chosen with
  | none => s
  | some (_, t) =>
    if t + (s.sreg (ctxFirst (s.cluster cluster).ctx) 0x101C).toNat ≤ s.clock then
      s.modCluster cluster (fun (c : Cluster) => { c with closed := true })
    else s)

/-- GRID_COMPLETE: the grid's bytes reach memory, then its pair (21 R332). -/
def execGridComplete (grid : Nat) (s : State) : Host.Outcome State Fault Refusal :=
  .next (match spGet s.grids grid with
  | none => s
  | some g => if g.phase ≠ 1 then s else s.finishGrid grid g)

/-! Migration (21 R342-R344). -/

/-- A destination for a team that is to leave its core; `cool` is the temperature it must stand below, if any. -/
def State.destFor (s : State) (f t : Nat) (cool : Option Int) : Option (Nat × State) :=
  let x := s.team t
  let need := s.teamCap t
  let bins := ((s.core x.core).bins.filter (fun b => b.team = t)).length
  let others := ((s.cluster x.cluster).teams.filter (· ≠ t)).map (fun u => (s.team u).core)
  let good (c : Nat) : Bool :=
    decide (c ≠ x.core) && s.placeable c && !s.shut c && need.le (s.openCap c none) && decide (bins ≤ s.freeBins c) && !others.contains c &&
    (match cool with | some d => decide ((s.core c).temp < d) | none => true) && !s.closedFor c x.grid
  let origins := (s.rects f 1 1).filter (fun o => good (stopCore (o % 16) (o / 16)))
  (s.pickOrigin f 1 1 origins).map (fun (o, s) => (stopCore (o % 16) (o / 16), s))

/-- A migratable team that has not been asked to move is asked, if it finds a destination. -/
def State.askMove (s : State) (f t : Nat) (cool : Option Int) : State :=
  let x := s.team t
  if (s.grid x.grid).lrec.migrate && decide (x.state = .resident) && x.mig.isNone then
    match s.destFor f t cool with
    | some (c, s) => s.modTeam t (fun (y : Team) => { y with mig := some { dest := c, since := s.clock, moving := false } })
    | none => s
  else s

/-- MIGTEMP of a core's partition. -/
def State.migtemp (s : State) (core : Nat) : Int := ((s.sreg (s.first (coreSlice core)) 0x1018).toNat : Int)

/-- A reading of a core's temperature sensor: at a pass the migratable teams of the core are asked to move; the trigger is armed again
below MIGTEMP - 5 (21 R342). -/
def State.readTemp (s : State) (core : Nat) (temp : Int) : State :=
  let x := s.core core
  let lim := s.migtemp core
  let f := s.first (coreSlice core)
  let pass := decide (x.temp < lim) && decide (lim ≤ temp) && x.armed
  let s := s.modCore core (fun (c : Core) => { c with temp := temp, armed := !pass && (c.armed || decide (temp < lim - 5)) })
  if !pass || x.inPass || !s.mayPlace f then s
  else ((s.teamsOn core).map (·.1)).foldl (fun (s : State) t => s.askMove f t (some (lim - 5))) s

/-- MIGTEMP_PASS. -/
def execMigtempPass (core : Nat) (temp : Int) (s : State) : Host.Outcome State Fault Refusal := .next (s.readTemp core temp)

/-- MIGTEMP_REARM. -/
def execMigtempRearm (core : Nat) (temp : Int) (s : State) : Host.Outcome State Fault Refusal := .next (s.readTemp core temp)

/-- MIGWAIT_EXPIRY: MIGWAIT clocks after the request the stop is taken at instruction boundaries (11 R196). -/
def execMigwaitExpiry (team : Nat) (s : State) : Host.Outcome State Fault Refusal :=
  .next (match (s.team team).mig with
  | none => s
  | some m =>
    if !m.moving && decide ((s.team team).state = .resident) && decide (m.since + (s.ctx (s.team team).ctx).ctl.migwait.toNat ≤ s.clock) then
      s.stopTeam team true
    else s)

/-- MIGRATION_TRANSFER_COMPLETE: the team's state is installed on its destination and it resumes there (21 R343). -/
def execMigrationTransferComplete (team : Nat) (s : State) : Host.Outcome State Fault Refusal :=
  .next (match (s.team team).mig with
  | none => s
  | some m =>
    let s := if m.moving then s.cutTeam team else s
    if m.moving && decide ((s.team team).state = .stopping) && !s.teamBusy team then
      (s.leaveCore team).installTeam team m.dest
    else s)

end Sys2Proof.Machine
end

