-- ==== Sys2Proof/Machine/Reliability.lean ====
section
/-! DEFINITION. Binding tables and health (01 R19-R27; 25 R389-R391), residue mismatches (17 R282), the whetstone pass (25 R384-R388),
monitors (R392-R395) and uncorrectable errors (R372). -/

namespace Sys2Proof.Machine

/-! Binding (01 R19-R25). -/

/-- The half that window index `i` of front end `f` names, 0-35. -/
def windowHalf (f i : Nat) : Nat := 2 * (Nat.min f 15 + i / 2) + i % 2

/-- SLC_BIND entry of front end `f`, in the block of its own slice. -/
def State.bind (s : State) (i f : Nat) : Nat := (s.sreg i (0x100 + 4 * f)).toNat
def bindEn (b : Nat) : Bool := fld b 0 0 == 1
def bindWide (b : Nat) : Bool := fld b 1 1 == 1
def bindCore (b : Nat) : Nat := fld b 17 14

/-- Window indices that an entry names. -/
def bindIdx (b : Nat) : List Nat :=
  [fld b 4 2, fld b 7 5] ++ (if bindWide b then [fld b 10 8, fld b 13 11] else [])

/-- Halves that an enabled entry takes. -/
def bindHalves (f b : Nat) : List Nat := if bindEn b then (bindIdx b).map (windowHalf f) else []

def State.halfFailed (s : State) (i h : Nat) : Bool := s.failedHalves.contains (36 * i + h)
def State.frontFailed (s : State) (i f : Nat) : Bool := s.failedFronts.contains (17 * i + f)

/-- The table that firmware builds at boot (01 R25): entries by front end. -/
def State.bootBind (s : State) (i : Nat) : List Nat :=
  ((List.range 17).foldl (fun (a : List Nat × List Nat × Nat) f =>
    let (tab, taken, k) := a
    let idx := ((List.range 6).filter (fun n => !s.halfFailed i (windowHalf f n) && !taken.contains (windowHalf f n))).take 2
    match idx with
    | [x, y] =>
      if s.frontFailed i f || decide (16 ≤ k) then (tab ++ [0], taken, k)
      else (tab ++ [1 + x * 4 + y * 32 + k * 2 ^ 14], taken ++ [windowHalf f x, windowHalf f y], k + 1)
    | _ => (tab ++ [0], taken, k)) ([], [], 0)).1

/-! HEALTH (25 R389). -/

def State.setHealth (s : State) (i hi lo v : Nat) : State :=
  s.setSreg i 0x3000 (BitVec.ofNat 64 (setFld (s.sreg i 0x3000).toNat hi lo v))

/-- Entries of a slice's table that form a core. -/
def State.enabled (s : State) (i : Nat) : List (Nat × Nat) :=
  ((List.range 17).map (fun f => (f, s.bind i f))).filter (fun e => bindEn e.2)

/-- Spare columns left in a half. -/
def State.spareLeft (s : State) (i h : Nat) : Nat := 2 - spRead 0 (s.slice i).spareUsed h

/-- Bit fields that follow a binding: CORES, SPCOL, SPHALF, SPFE. -/
def State.healthFields (s : State) (i : Nat) : State :=
  let es := s.enabled i
  let named := es.flatMap (fun e => bindHalves e.1 e.2)
  let spare := (List.range 36).countP (fun h => !s.halfFailed i h && !named.contains h)
  let fe := (List.range 17).countP (fun f => !s.frontFailed i f && es.all (fun e => e.1 ≠ f))
  let cores := es.countP (fun e => !(s.core (coreKey i (bindCore e.2))).withdrawn)
  let col := named.foldl (fun n h => n + s.spareLeft i h) 0
  (((s.setHealth i 12 8 cores).setHealth i 22 16 col).setHealth i 29 24 spare).setHealth i 36 32 fe

/-- REPLACE is set once the healthy parts cannot form 16 cores (01 R27; 25 R390). -/
def State.replaceCheck (s : State) (i : Nat) : State :=
  let can := decide (((s.bootBind i).filter bindEn).length = 16)
  if can || fld (s.sreg i 0x3000).toNat 0 0 = 1 then s
  else ((s.setHealth i 0 0 1).logError i 10 9 none 15 0 0 0 0).signal .pf 3

/-- Cores in placement in the partition of a slice. -/
def State.partCount (s : State) (i : Nat) : Nat := (s.partCores (s.first i)).length

/-! Withdrawal (01 R27; 25 R391). -/

/-- A core leaves placement; parts that failed go to the health record. A lease of its array ends as a reclaim, and migratable teams
are asked to move. -/
def State.withdrawCore (s : State) (core : Nat) (halves fronts : List Nat) : State :=
  let i := coreSlice core
  let s : State := { s with failedHalves := unionNew s.failedHalves (halves.map (36 * i + ·)),
                            failedFronts := unionNew s.failedFronts (fronts.map (17 * i + ·)),
                            recordSigned := true }
  let was := (s.core core).withdrawn
  let s := s.modCore core (fun (c : Core) => { c with
    withdrawn := true, lease := if c.lease.st = 1 then { c.lease with st := 2 } else c.lease })
  let s := s.healthFields i
  let s := if was then s else s.logError i 8 9 none (corePos core) 0 0 0 (s.partCount i)
  let s := s.replaceCheck i
  if s.mayPlace (s.first i) then
    ((s.teamsOn core).map (·.1)).foldl (fun (s : State) t => s.askMove (s.first i) t none) s
  else s

/-- The halves bound to a core, in order of their entry's fields. -/
def State.coreHalves (s : State) (core : Nat) : List Nat :=
  ((s.enabled (coreSlice core)).find? (fun e => bindCore e.2 = corePos core)).elim [] (fun e => bindHalves e.1 e.2)
def State.coreFront (s : State) (core : Nat) : List Nat :=
  ((s.enabled (coreSlice core)).filter (fun e => bindCore e.2 = corePos core)).map (·.1)

/-- RESIDUE_MISMATCH in a half of the array of a core that computes: a spare column is mapped in and the row is computed again; with no
spare left the command fails and the core is withdrawn (17 R282). -/
def execResidueMismatch (core half : Nat) (s : State) : Host.Outcome State Fault Refusal :=
  .next (match s.runningM core with
  | none => s
  | some (home, m) =>
    let i := coreSlice core
    let h := (s.coreHalves core).getD half 0
    let used := spRead 0 (s.slice i).spareUsed h
    if (s.coreHalves core).length ≤ half ∨ m.aloneSince.isSome then s
    else if used < 2 then
      let s := s.modSlice i (fun (v : Slice) => { v with spareUsed := spWrite 0 v.spareUsed h (used + 1) })
      (s.healthFields i).logError i 7 6 none (corePos core) 0 0 0 (1 - used)
    else
      let s := match s.pairSide m with
        | some o => (s.finishM o.1 o.2 2)
        | none => s
      let s := s.failM home m { code := 0x0B, aux := 4 }
      s.withdrawCore core [h] [])

/-! The whetstone pass (25 R384-R388). -/

/-- Cores in placement in slices in RUN, ascending. -/
def State.testable (s : State) : List Nat :=
  (List.range 192).filter (fun c => decide (s.slcState (s.first (coreSlice c)) = stRun) && s.placeable c)

/-- Nanoseconds between passes, 0 where the pass is disabled. -/
def State.whetGap (s : State) : Nat :=
  let p := (s.pfreg 0x3000).toNat
  let n := s.testable.length
  if p = 0 ∨ n = 0 then 0 else Nat.max p 192 * 1000000000 / n

/-- WHETSTONE_PASS_START. -/
def execWhetstonePassStart (s : State) : Host.Outcome State Fault Refusal :=
  .next (
    let w := s.whet
    let ts := s.testable
    if w.phase ≠ 0 ∨ s.whetGap = 0 ∨ s.time < w.lastAt + s.whetGap then s
    else match (ts.find? (fun c => decide (w.next ≤ c))).orElse (fun _ => ts.head?) with
    | none => s
    | some c =>
      let starts : Sp Nat := s.ctxs.map (fun e => (e.1, s.vtime e.1))
      let s := s.modCore c (fun (x : Core) => { x with
        inPass := true, lease := if x.lease.st = 1 then { x.lease with st := 2 } else x.lease })
      { s with whet := { phase := 1, core := c, next := c + 1, lastAt := s.time, since := s.time, startV := starts } })

/-- WHETSTONE_DRAIN_TIMEOUT: after 10 ms migratable teams are asked to move, and the clusters of the others are stopped to be saved. -/
def execWhetstoneDrainTimeout (s : State) : Host.Outcome State Fault Refusal :=
  .next (
    let w := s.whet
    if w.phase ≠ 1 ∨ s.time < w.since + 10000000 then s
    else
      let f := s.first (coreSlice w.core)
      let s : State := { s with whet := { w with phase := 2 } }
      ((s.teamsOn w.core).map (·.1)).foldl (fun (s : State) t =>
        let s := s.askMove f t none
        if (s.team t).mig.isSome || decide ((s.team t).state ≠ .resident) || !s.canSave ((s.cluster (s.team t).cluster).teams) then s
        else s.stopCluster (s.team t).cluster) s)

/-- The core under test holds nothing. -/
def State.passEmpty (s : State) : Bool :=
  let c := s.core s.whet.core
  (s.teamsOn s.whet.core).isEmpty && c.bins.isEmpty && decide (c.lease.st = 0) && c.copies.isEmpty && c.pushes.isEmpty && c.tcmds.isEmpty

/-- The pass is over and the core reopens. -/
def State.endPass (s : State) (next : Nat) : State :=
  let s := s.modCore s.whet.core (fun (x : Core) => { x with inPass := false })
  { s with whet := { s.whet with phase := 0, next := next } }

/-- WHETSTONE_SKIP: after 100 ms the core still holds a team; it is tested first at the next interval. -/
def execWhetstoneSkip (s : State) : Host.Outcome State Fault Refusal :=
  .next (if s.whet.phase = 0 ∨ s.time < s.whet.since + 100000000 ∨ s.passEmpty = true then s else s.endPass s.whet.core)

/-- WHETSTONE_SCAN_COMPLETE: a passed core's stamps are cleared; a failed one is withdrawn and its contexts are told (25 R386, R388). -/
def execWhetstoneScanComplete (passed : Bool) (s : State) : Host.Outcome State Fault Refusal :=
  .next (
    let w := s.whet
    let c := w.core
    if w.phase = 0 ∨ s.passEmpty = false then s
    else
      let marked := s.ctxs.filterMap (fun e => (spGet e.2.stamps c).map (fun u => (e.1, u)))
      let s := marked.foldl (fun (s : State) e => s.modCtx e.1 (fun (x : Ctx) =>
        { x with stamps := spDel x.stamps c, frozen := if passed then x.frozen else some (Nat.min e.2 (x.frozen.getD e.2)) })) s
      if passed then s.endPass w.next
      else
        let s := marked.foldl (fun (s : State) e =>
          s.logError (coreSlice c) 9 9 (some e.1) (corePos c) 0 0 0 ((spGet w.startV e.1).getD (s.vtime e.1)) (some e.2)) s
        (s.withdrawCore c (s.coreHalves c) (s.coreFront c)).endPass w.next)

/-! Monitors (25 R392-R395). -/

def monOff (n off : Nat) : Nat := 0x4000 + 0x80 * n + off
def State.mon (s : State) (i n off : Nat) : Nat := (s.sreg i (monOff n off)).toNat
def State.setMon (s : State) (i n off v : Nat) : State := s.setSreg i (monOff n off) (BitVec.ofNat 64 (v % 2 ^ 32))

/-- A monitor's statistics at reset. -/
def State.clearMon (s : State) (i n : Nat) : State :=
  let signed := fld (s.mon i n 0) 3 0 = 4
  let s := (s.setMon i n 4 (if signed then 0x7FFFFFFF else 0xFFFFFFFF)).setMon i n 8 (if signed then 0x80000000 else 0)
  (upto 0 17).foldl (fun (s : State) k => s.setMon i n (0xC + 4 * k) 0) s

/-- Bin of a sample (25 R395). -/
def monBin (x : Int) : Nat := if x < 1 then 0 else Nat.min 15 (Nat.log2 x.toNat + 1)

/-- The filter of a monitor lets a sample through. -/
def monTakes (ctl core ctx : Nat) : Bool :=
  match fld ctl 7 6 with
  | 0 => true
  | 1 => fld ctl 11 8 == core
  | _ => fld ctl 21 12 == ctx

/-- What a sample says of its core beside the monitors: its temperature and its droop events of the last 10 µs (21 R337, R342). -/
def State.sensed (s : State) (slice src core : Nat) (x : Int) : State :=
  if src = 5 then s.readTemp (coreKey slice core) x
  else if src = 6 then s.modCore (coreKey slice core) (fun (c : Core) => { c with droop := x.toNat })
  else s

/-- MONITOR_SAMPLE: a sample of a source reaches the slice's monitors that take it. -/
def execMonitorSample (slice src core ctx : Nat) (x : Int) (s : State) : Host.Outcome State Fault Refusal :=
  .next ((List.range 8).foldl (fun (s : State) n =>
    let ctl := s.mon slice n 0
    if fld ctl 3 0 ≠ src ∨ src = 0 ∨ fld ctl 4 4 = 0 ∨ monTakes ctl core ctx = false then s
    else
      let val (v : Nat) : Int := if src = 4 then sext 32 v else (v : Int)
      let put (v : Int) : Nat := (v % 2 ^ 32).toNat
      let s := if x < val (s.mon slice n 4) then s.setMon slice n 4 (put x) else s
      let s := if val (s.mon slice n 8) < x then s.setMon slice n 8 (put x) else s
      let inc (s : State) (off : Nat) : State := s.setMon slice n off (Nat.min (s.mon slice n off + 1) 0xFFFFFFFF)
      inc (inc s 0xC) (0x10 + 4 * monBin x)) (s.sensed slice src core x))

/-- MONn_CTL as stored: a reserved SRC or FILT leaves its field, CLR is not stored, MBZ bits read back zero (00 R5, R6). -/
def monCtlValue (old v : Nat) : Nat :=
  let src := if 8 ≤ fld v 3 0 then fld old 3 0 else fld v 3 0
  let filt := if fld v 7 6 = 3 then fld old 7 6 else fld v 7 6
  src + fld v 4 4 * 16 + filt * 64 + fld v 11 8 * 256 + fld v 21 12 * 4096

/-- A write of MONn_CTL. -/
def State.monCtlSet (s : State) (slice n v : Nat) : State :=
  let old := s.mon slice n 0
  let s := if 8 ≤ fld v 3 0 ∨ fld v 7 6 = 3 ∨ fld v 31 22 ≠ 0 then s.count slice diagRsvw else s
  let new := monCtlValue old v
  let s := s.setMon slice n 0 new
  if fld v 5 5 = 1 ∨ setFld new 4 4 0 ≠ setFld old 4 4 0 then s.clearMon slice n else s

/-- MON_CTL_WRITE. -/
def execMonCtlWrite (slice n : Nat) (value : Word) (s : State) : Host.Outcome State Fault Refusal :=
  .next (if s.reaches (s.pfOf slice) slice && decide (n < 8) then s.monCtlSet slice n value.toNat else s)

/-- MON_CLR. -/
def execMonClr (slice n : Nat) (s : State) : Host.Outcome State Fault Refusal :=
  .next (if 8 ≤ n || !s.reaches (s.pfOf slice) slice then s else s.clearMon slice n)

/-! Uncorrectable errors (25 R372). -/

/-- A sector of a cached line marked. -/
def markLine (ls : Sp Line) (sector : Nat) : Sp Line :=
  spMod ls (sector / 2) (fun (x : Line) => { x with poison := x.poison ||| (1 <<< (sector % 2)) })

/-- UNCORRECTABLE_ERROR: a sector, or one register of one lane, becomes poisoned. -/
def execUncorrectableError (loc : ErrLoc) (s : State) : Host.Outcome State Fault Refusal :=
  .next (match loc with
  | .gddr x => if isDevPa (32 * x) then { s with memPoison := insertNew x s.memPoison } else s
  | .deep i x => s.modSlice i (fun (v : Slice) => { v with
      deep := spMod v.deep (x / 2) (fun (l : DLine) => { l with poison := l.poison ||| (1 <<< (x % 2)) }) })
  | .cluster i x => s.modSlice i (fun (v : Slice) => { v with cc := markLine v.cc x })
  | .l1 c x => s.modCore c (fun (v : Core) => { v with l1 := markLine v.l1 x })
  | .constant c x => s.modCore c (fun (v : Core) => { v with kc := markLine v.kc x })
  | .localStore t sp x =>
    let k := if sp = .cspad then 1 else spaceNum sp
    s.modTeam t (fun (v : Team) => if decide (32 * x < v.region k) then
      { v with poison := insertNew (spaceBase k / 32 + x) v.poison } else v)
  | .reg t n => s.modReal t (fun (v : Thread) => { v with poisonRegs := insertNew n v.poisonRegs }))

end Sys2Proof.Machine
end

