-- ==== Sys2Proof/Machine/Tenancy.lean ====
section
/-! DEFINITION. Slice states and their requests (27 R397-R402), power-up (01 R39), partitions (R403, R404), ownership of pool engines
(R405), matrix leases (R414-R416), power (R411), fabric guarantees (R412), time (R417-R419) and firmware update (R420). -/

namespace Sys2Proof.Machine

/-! Small operations. -/

/-- All core positions of a partition. -/
def State.allCores (s : State) (f : Nat) : List Nat := (s.partSlices f).flatMap (fun i => (List.range 16).map (coreKey i))

/-- STATE of every slice of a partition. -/
def State.setState (s : State) (f st : Nat) : State := (s.partSlices f).foldl (fun (s : State) i => s.setSlcField i 2 0 st) s

/-- DRAINED of every slice of a partition. -/
def State.setDrained (s : State) (f v : Nat) : State := (s.partSlices f).foldl (fun (s : State) i => s.setSlcField i 3 3 v) s

/-- A measurement extended by a value (29 R437). -/
def State.extend (s : State) (idx v : Nat) : State :=
  let m := Config.shake256 ((spGet s.sec.measurements idx).getD 0) v
  { s with sec := { s.sec with measurements := spPut s.sec.measurements idx m } }

/-- A measured value that the spec does not give: a draw. -/
def State.extendOpen (s : State) (idx : Nat) : State :=
  let (k, s) := s.draw
  s.extend idx (Config.freeValue k).toNat

/-- Number made of a slice's binding table and SEAL_SIZE, as measured at LOCK. -/
def State.bindImage (s : State) (i : Nat) : Nat :=
  (List.range 17).foldl (fun n f => n + s.bind i f * 2 ^ (32 * f)) ((s.sreg i 0x8000).toNat * 2 ^ 544)

/-- A request turned away. -/
def State.refuse (s : State) (i st : Nat) : State := s.status i st

/-- A request that needs the partition in state `need`: refused while a reset is in progress or in another state (27 R398). -/
def State.request (s : State) (i need : Nat) (act : State → State) : State :=
  if s.slcState i = stReset then s.refuse i ctlBusy
  else if s.slcState i ≠ need then s.refuse i ctlBadState
  else act (s.status i ctlOk)

/-! Worlds end (29 R430). -/

/-- Bits 31:20 of WORLD_ST follow the worlds that exist. -/
def State.worldFlags (s : State) : State :=
  let v := (List.range 12).foldl (fun n i => n + (if s.worldOf i = 0 then 0 else 2 ^ (20 + i))) 0
  s.setPfreg 0x3604 (BitVec.ofNat 64 (fld (s.pfreg 0x3604).toNat 19 0 + v))

/-- Deep lines of the world and its metadata are dropped, the root tables zeroed, the keys discarded; sealed lines read as zeros. Its
sessions end (R439). -/
def State.dropWorld (s : State) (f : Nat) : State :=
  match spGet s.sec.worlds f with
  | none => s
  | some w =>
    let s := (s.partSlices f).foldl (fun (s : State) i => s.modSlice i (fun (v : Slice) =>
      { v with sealing := {}, deep := v.deep.filter (fun e => e.2.world ≠ w.num) })) s
    let keep (e : Nat × Session) : Bool := decide (e.2.world ≠ some w.num)
    let s : State := { s with sec := { s.sec with worlds := spDel s.sec.worlds f, sessions := s.sec.sessions.filter keep } }
    s.worldFlags

/-! Binding takes effect (01 R23; 27 R399). -/

/-- The checks of 01 R23 on a slice's table. -/
def State.bindValid (s : State) (i : Nat) : Bool :=
  let es := s.enabled i
  let nodup (l : List Nat) : Bool := (l.foldl (fun (a : List Nat) x => insertNew x a) []).length == l.length
  es.all (fun e => (bindIdx e.2).all (fun n => decide (n < 6)) && nodup (bindIdx e.2)) &&
  nodup (es.flatMap (fun e => bindHalves e.1 e.2)) &&
  es.all (fun e => (bindHalves e.1 e.2).all (fun h => !s.halfFailed i h)) &&
  nodup (es.map (fun e => bindCore e.2)) &&
  es.all (fun e => !bindWide e.2 || (decide (bindCore e.2 % 2 = 0) && es.all (fun x => bindCore x.2 ≠ bindCore e.2 + 1)))

/-- LOG2N and EN of a ring's control register are what a LOCK asks for. -/
def ringGood (v : Nat) : Bool := decide (5 ≤ fld v 4 0) && decide (fld v 4 0 ≤ 16) && fld v 8 8 == 1

/-- The checks of a LOCK: the status of the first that fails. -/
def State.lockCheck (s : State) (f : Nat) : Option Nat :=
  let r (off : Nat) : Nat := (s.sreg f off).toNat
  if !(s.partSlices f).all (fun i => s.bindValid i) then some ctlBindInvalid
  else if r 0x1000 = 0 ∨ r 0x1008 = 0 ∨ r 0x1000 % 4096 ≠ 0 ∨ r 0x1008 % 4096 ≠ 0 ∨ r 0x2000 % 4096 ≠ 0 ∨ r 0x3010 % 4096 ≠ 0 ∨
      ringGood (r 0x2008) = false ∨ ringGood (r 0x3018) = false then some ctlConfigInvalid
  else none

/-- The slice's cores follow its table (01 R24); a change of their number is logged (25 R390). -/
def State.applyBind (s : State) (i : Nat) : State :=
  let es := s.enabled i
  let old := fld (s.sreg i 0x3000).toNat 12 8
  let s := (List.range 16).foldl (fun (s : State) k =>
    match es.find? (fun e => bindCore e.2 = k) with
    | some (f, b) => s.modCore (coreKey i k) (fun (c : Core) => { c with present := true, wide := bindWide b, fe := f, withdrawn := false })
    | none => s.modCore (coreKey i k) (fun (c : Core) => { c with present := false, wide := false, withdrawn := false })) s
  let s := s.healthFields i
  if fld (s.sreg i 0x3000).toNat 12 8 = old then s else s.logError i 8 9 none 15 0 0 0 (s.partCount i)

/-- LOCK (27 R398, R399). -/
def State.lockReq (s : State) (i : Nat) : State :=
  s.request i stOpen (fun (s : State) =>
    let f := s.first i
    match s.lockCheck f with
    | some st => s.refuse i st
    | none =>
      let s := s.setState f stLocked
      (s.partSlices f).foldl (fun (s : State) j => (s.applyBind j).extend (0x20 + j) (s.bindImage j)) s)

/-- RUN: batch numbers start again on entry from CONFIG_LOCKED (23 R363); from DRAIN the drain is abandoned. -/
def State.runReq (s : State) (i : Nat) : State :=
  let f := s.first i
  if s.slcState i = stDrain then ((s.status i ctlOk).setState f stRun).setDrained f 0
  else s.request i stLocked (fun (s : State) => (s.setState f stRun).modSlice f (fun (v : Slice) => { v with batchNo := 0 }))

/-! Leases (27 R414-R416). -/

/-- The array of a core is taken back: the lessee's command is cut at the row boundary, the array is scrubbed. -/
def State.endLease (s : State) (core : Nat) : State :=
  let cmds := s.cores.flatMap (fun e => (e.2.mcmds.filter (fun m => decide (m.onLease = some core))).map (fun m => (e.1, m)))
  let s := cmds.foldl (fun (s : State) e =>
    if e.2.started then s.finishM e.1 e.2 4 else s.modM e.1 e.2.id (fun (m : MCmd) => { m with onLease := none })) s
  s.modCore core (fun (c : Core) => { c with held := none, lease := { c.lease with st := 3, scrubAt := s.clock + 4096 } })

/-- A lease that stands: leased, or asked back and not cut. -/
def Lease.stands (l : Lease) : Bool := l.st == 1 || l.st == 2

/-- A reclaim is asked of every array that a partition lends. -/
def State.reclaimLent (s : State) (f : Nat) : State :=
  (s.allCores f).foldl (fun (s : State) c => s.modCore c (fun (x : Core) =>
    if x.lease.st = 1 then { x with lease := { x.lease with st := 2 } } else x)) s

/-- Leases that a partition lends or holds end with no wait for the row boundary. -/
def State.endLeasesOf (s : State) (f : Nat) : State :=
  let cs := s.allCores f
  let mine := (s.cores.filter (fun e => e.2.lease.stands && (cs.contains e.1 || decide (e.2.lease.first = f)))).map (·.1)
  mine.foldl (fun (s : State) c => s.endLease c) s

/-- The context of a LEASE_CMD. -/
def leaseCtx (v : Nat) : Nat := ctxKey (fld v 7 4) (fld v 17 8)

/-- A grant must be refused. -/
def State.leaseRefused (s : State) (i v : Nat) : Bool :=
  let c := coreKey i (fld v 3 0)
  let f := fld v 7 4
  let x := s.core c
  !s.placeable c || !(s.teamsOn c).isEmpty || !x.bins.isEmpty || x.inPass || decide (x.lease.st ≠ 0) ||
  decide (s.slcState i ≠ stRun) || decide (s.first f ≠ f) || decide (12 ≤ f) || decide (s.slcState f ≠ stRun) ||
  !(s.partSlices f).all (fun j => decide (j / 3 = i / 3)) || (spGet s.ctxs (leaseCtx v)).isNone ||
  s.cores.any (fun e => e.2.lease.stands && decide (ctxKey e.2.lease.first e.2.lease.ctx = leaseCtx v))

/-- A write of LEASE_CMD; a reserved OP does nothing (00 R6). -/
def State.leaseCmd (s : State) (i v : Nat) : State :=
  let c := coreKey i (fld v 3 0)
  let op := fld v 25 24
  let s := if fld v 23 18 ≠ 0 ∨ fld v 31 26 ≠ 0 ∨ op = 0 ∨ op = 3 then s.count i diagRsvw else s
  if op = 1 then
    if (s.slice (s.first i)).fwBusy then s.refuse i ctlBusy
    else if s.leaseRefused i v then s.refuse i ctlRefused
    else (s.status i ctlOk).modCore c (fun (x : Core) => { x with lease := { st := 1, first := fld v 7 4, ctx := fld v 17 8 } })
  else if op = 2 then
    (s.status i ctlOk).modCore c (fun (x : Core) => if x.lease.st = 1 then { x with lease := { x.lease with st := 2 } } else x)
  else s

/-- LEASE_GRANT: a LEASE_CMD write through the physical function. -/
def execLeaseGrant (slice : Nat) (value : Word) (s : State) : Host.Outcome State Fault Refusal :=
  .next (if s.reaches (s.pfOf slice) slice && fld value.toNat 25 24 == 1 then s.leaseCmd slice value.toNat else s)

/-- LEASE_RECLAIM: an array that is leased, or asked back, is cut and its scrub begins. -/
def execLeaseReclaim (slice k : Nat) (s : State) : Host.Outcome State Fault Refusal :=
  .next (if (s.core (coreKey slice k)).lease.stands then s.endLease (coreKey slice k) else s)

/-- LEASE_SCRUB_COMPLETE: 4,096 clocks later the core reopens. -/
def execLeaseScrubComplete (slice k : Nat) (s : State) : Host.Outcome State Fault Refusal :=
  .next (
    let l := (s.core (coreKey slice k)).lease
    if l.st ≠ 3 ∨ s.clock < l.scrubAt then s
    else
      let s := s.modCore (coreKey slice k) (fun (c : Core) => { c with held := none, lease := { c.lease with st := 0 } })
      (s.drainCheck (s.first slice)).drainCheck l.first)

/-! DRAIN (27 R400). -/

def State.drainReq (s : State) (i : Nat) (save : Bool) : State :=
  s.request i stRun (fun (s : State) =>
    let f := s.first i
    let s := s.setState f stDrain
    let s := s.modSlice f (fun (v : Slice) => { v with sched := { v.sched with claims := [] } })
    let s := s.reclaimLent f
    let cls := (s.clusters.filter (fun e => decide (ctxFirst e.2.ctx = f) && decide (e.2.state = .running))).map (·.1)
    let s := if save then (cls.foldl (fun (s : State) c => s.stopCluster c) s) else s
    s.drainCheck f)

/-! RESET (27 R401). -/

/-- A pool engine of the partition stops. -/
def State.stopCe (s : State) (e err : Nat) : State :=
  let x := s.ce e
  if fld x.ctl.toNat 8 8 = 1 then s.setCe e { x with ctl := x.ctl &&& 0xFFFFFEFF, stat := BitVec.ofNat 32 err } else s

/-- Owner of a pool engine, if it is owned (27 R405). -/
def State.ceOwner (s : State) (e : Nat) : Option Nat :=
  let v := (s.pfreg (0x3500 + 4 * e)).toNat
  if fld v 4 4 = 1 then some (fld v 3 0) else none

def State.stopCes (s : State) (f : Nat) : State :=
  (List.range 24).foldl (fun (s : State) e => if s.ceOwner e = some f then s.stopCe e 6 else s) s

/-- A context that a reset ends: its pairs and error entry carry no code, and no diagnostic record is written. -/
def State.resetContext (s : State) (c : Nat) : State :=
  if (s.ctx c).term.isSome then s
  else
    let s := s.modCtx c (fun (x : Ctx) => { x with term := some 0, blocks := [] })
    let s := s.stopContext c
    let gs := s.grids.filter (fun e => e.2.ctx = c)
    let s := gs.foldl (fun (s : State) e => s.writePair c e.2.lrec 2 0 e.2.relaunches) s
    let s : State := { s with grids := s.grids.filter (fun e => e.2.ctx ≠ c) }
    s.logError (ctxFirst c) 6 9 (some c) 15 0 0 0 0

/-- Step 1 of a reset, and the fate of the partition's work. -/
def State.resetReq (s : State) (i : Nat) : State :=
  let f := s.first i
  let st := s.slcState i
  if st = stReset then s.refuse i ctlBusy
  else if st = stOff then s.refuse i ctlBadState
  else
    let kept := decide (st ≠ stRun) && (decide (st ≠ stDrain) || fld (s.sreg f 0).toNat 3 3 == 1)
    let s := (s.status i ctlOk).endLeasesOf f
    let cs := (s.ctxs.filter (fun e => decide (ctxFirst e.1 = f) &&
      (s.teams.any (fun t => decide (t.2.ctx = e.1)) || s.grids.any (fun g => decide (g.2.ctx = e.1))))).map (·.1)
    let s := if kept then s else cs.foldl (fun (s : State) c => s.resetContext c) s
    let s := s.stopCes f
    let s := (s.partSlices f).foldl (fun (s : State) j => s.modSlice j (fun (v : Slice) => { v with resetFrom := some st })) s
    s.setState f stReset

/-- Registers that a slice reset leaves: SLC_STATE and the locked ones (27 R401), and HEALTH, whose fields boot sets (25 R389, R390);
the others take their reset values (00 R8; log 20). -/
def keptReg (off : Nat) : Bool :=
  decide (off = 0) || (decide (0x100 ≤ off) && decide (off < 0x100 + 4 * 17)) ||
  [0x1000, 0x1008, 0x2000, 0x2008, 0x3010, 0x3018, 0x5000, 0x3000].contains off

/-- Registers of a slice at their reset values but for those kept. -/
def State.resetRegs (s : State) (i : Nat) : Sp DWord :=
  ((sliceRegsReset i).filter (fun e => !keptReg e.1)).foldl (fun (m : Sp DWord) e => spWrite 0 m e.1 e.2)
    ((s.slice i).regs.filter (fun e => keptReg e.1))

/-- A core's SRAM as a reset leaves it; the engine work of saved teams stands in their blocks. -/
def Core.cleared (c : Core) : Core :=
  { present := false, wide := c.wide, fe := c.fe, mcmds := c.mcmds, tcmds := c.tcmds, pushes := c.pushes, copies := c.copies,
    temp := c.temp, droop := c.droop, withdrawn := c.withdrawn }

/-- A slice's own units as a reset leaves them. -/
def Slice.cleared (v : Slice) (regs : Sp DWord) : Slice :=
  { v with regs := regs, resetFrom := none, linkUp := false, cc := [], deep := [], tinv := none, raster := [], streams := [], fcmds := [], rescmds := [],
           taskq := [], sched := { v.sched with claims := [] }, merged := v.merged.filter (fun m => !m.virt), balance := 0, throttled := false }

/-- SLICE_RESET_COMPLETE: once its sweeps have ended and every dirty byte is in memory, the arrays are reinitialised and the partition
is in CONFIG_OPEN. -/
def execSliceResetComplete (slice : Nat) (s : State) : Host.Outcome State Fault Refusal :=
  .next (
    let is := s.partSlices slice
    if s.first slice ≠ slice ∨ s.slcState slice ≠ stReset ∨ is.any (fun i => !(s.slice i).sealing.sweeps.isEmpty) = true then s
    else
      let s := s.flushCores (s.allCores slice) none (fun _ => true)
      let s := is.foldl (fun (s : State) i => (((s.slice i).deep.filter (fun e => e.2.dirty ≠ 0)).map (·.1)).foldl
        (fun (s : State) la => (s.cleanDeep i la).getD (s.startSweep la)) s) s
      if is.any (fun i => (s.slice i).deep.any (fun e => decide (e.2.dirty ≠ 0))) then s
      else
        let s := (s.allCores slice).foldl (fun (s : State) c => s.modCore c Core.cleared) s
        let s : State := if is.contains (coreSlice s.whet.core) ∧ s.whet.phase ≠ 0 then { s with whet := { s.whet with phase := 0 } } else s
        let s := is.foldl (fun (s : State) i => s.modSlice i (fun (v : Slice) => v.cleared (s.resetRegs i))) s
        (s.setState slice stOpen).setDrained slice 0)

/-! Power (01 R39; 27 R398, R402). -/

/-- Step 5 of power-up for a slice: its binding table from the health record, HEALTH, and REPLACE. Where training fails the slice stays
in CONFIG_OPEN with BOOTFAIL set (01 R39; 25 R389). -/
def State.trainSlice (s : State) (i : Nat) : State :=
  if s.bootFails.contains i then s.setHealth i 1 1 1
  else
  let s := (s.bootBind i).zipIdx.foldl (fun (s : State) e => s.setSreg i (0x100 + 4 * e.2) (BitVec.ofNat 64 e.1)) s
  (s.healthFields i).replaceCheck i

/-- A link direction takes a new key; its flit counter starts again (29 R421). -/
def State.newLinkKey (s : State) (l : Nat) : State :=
  let (k, s) := s.fresh
  { s with sec := { s.sec with linkKeys := spPut s.sec.linkKeys l k, flits := spDel s.sec.flits l } }

/-- The identity and alias key pairs and the chain that certifies them (29 R436): from the fused secret and the measurement of the
security processor's firmware. -/
def State.makeIdentity (s : State) : State :=
  let identity := Config.mldsaKeys Config.fusedSecret
  let own := Config.mldsaKeys (Config.shake256 identity.secret ((spGet s.sec.measurements 0x02).getD 0).toNat)
  let signed (subject : BitVec 512) (k : KeyPair) : Cert :=
    { subject := subject, issuer := k.pub, sig := Config.mldsaSign k.secret (Config.shake256 subject 0) }
  { s with sec := { s.sec with
      identity := identity, aliasKeys := own,
      chain := [Config.rootCert, Config.modelCert, Config.identityCert identity.pub, signed own.pub identity] } }

/-- Step 3 of power-up: the health record, or the fuses alone where its signature fails (01 R39); measured either way (29 R437). -/
def State.readHealth (s : State) : State :=
  let s : State := if s.recordSigned then s else
    { s with failedHalves := s.fusedHalves, failedFronts := s.fusedFronts,
             slices := s.slices.map (fun e => (e.1, { e.2 with spareUsed := [] })) }
  s.extendOpen 0x03

/-- POWER_UP: the package leaves reset; every slice comes up in CONFIG_OPEN. -/
def execPowerUp (s : State) : Host.Outcome State Fault Refusal :=
  .next (if s.booted then s
  else
    let s : State := { s with booted := true, cores := (List.range 192).map (fun c => (c, {})), ces := (List.range 24).map (fun e => (e, {})) }
    let (key, s) := s.fresh
    let s : State := { s with sec := { s.sec with up := true, deviceKey := key } }
    let s := (List.range 8).foldl (fun (s : State) l => s.newLinkKey l) s
    let s := (([0x01, 0x02].foldl (fun (s : State) n => s.extendOpen n) s).makeIdentity).readHealth
    (List.range 12).foldl (fun (s : State) i => (s.extendOpen (0x10 + i)).trainSlice i) s)

/-- PACKAGE_RESET: the whole device loses its state; the board and the health of its parts stay. -/
def execPackageReset (s : State) : Host.Outcome State Fault Refusal :=
  .next { State.reset with
    agenda := s.agenda, freeCtr := s.freeCtr, failedHalves := s.failedHalves, failedFronts := s.failedFronts,
    recordSigned := s.recordSigned, fusedHalves := s.fusedHalves, fusedFronts := s.fusedFronts, bootFails := s.bootFails,
    bifurcated := s.bifurcated, slices := slicesReset.map (fun e => (e.1, { e.2 with spareUsed := (s.slice e.1).spareUsed })),
    mem := s.mem.filter (fun e => decide (devBytes ≤ e.1)), memPoison := s.memPoison.filter (fun x => decide (devBytes ≤ 32 * x)) }

/-- What the scheduler of a partition holds goes: contexts, launches, clusters, teams. -/
def State.dropPartition (s : State) (f : Nat) : State :=
  let mine (c : Nat) : Bool := decide (ctxFirst c = f)
  let ts := (s.teams.filter (fun e => mine e.2.ctx)).map (·.1)
  let s := ts.foldl (fun (s : State) t => s.dropTeam t) s
  { s with ctxs := s.ctxs.filter (fun e => !mine e.1), grids := s.grids.filter (fun e => e.2.part ≠ f),
           clusters := s.clusters.filter (fun e => !mine e.2.ctx) }

/-- POWER_OFF (physical function only): the partition's slices lose power and their GDDR-7 contents, and its world ends. -/
def State.powerOff (s : State) (fn : Func) (i : Nat) : State :=
  if !isPf fn then s.refuse i ctlPfOnly
  else s.request i stOpen (fun (s : State) =>
    let f := s.first i
    let is := s.partSlices f
    let s := (s.dropWorld f).stopCes f
    let s := s.dropPartition f
    let lost (a : Nat) : Bool := isDevPa a && is.contains (paSlice a)
    let s : State := { s with mem := s.mem.filter (fun e => !lost e.1), memPoison := s.memPoison.filter (fun x => !lost (32 * x)) }
    let s := is.foldl (fun (s : State) j => s.modSlice j (fun (v : Slice) => { regs := v.regs, linkUp := false, spareUsed := v.spareUsed })) s
    let s := (s.allCores f).foldl (fun (s : State) c => s.setCore c {}) s
    s.setState f stOff)

/-- POWER_ON (physical function only): a slice's controller boots; the layout stays. -/
def State.powerOn (s : State) (fn : Func) (i : Nat) : State :=
  if !isPf fn then s.refuse i ctlPfOnly
  else s.request i stOff (fun (s : State) =>
    let f := s.first i
    let s := (s.partSlices f).foldl (fun (s : State) j =>
      let old := (s.sreg j 0).toNat
      let s := s.modSlice j (fun (v : Slice) => { v with regs := sliceRegsReset j })
      let s := s.setSreg j 0 (BitVec.ofNat 64 (setFld (setFld old 2 0 stOpen) 3 3 0))
      (s.extendOpen (0x10 + j)).trainSlice j) s
    s.status i ctlOk)

/-! Requests as instructions, and as writes of SLC_CTL (27 R397, R398). -/

def execLock (slice : Nat) (s : State) : Host.Outcome State Fault Refusal :=
  .next (if s.presents (s.pfOf slice) slice then s.lockReq slice else s)
def execRun (slice : Nat) (s : State) : Host.Outcome State Fault Refusal :=
  .next (if s.presents (s.pfOf slice) slice then s.runReq slice else s)
def execDrain (slice : Nat) (save : Bool) (s : State) : Host.Outcome State Fault Refusal :=
  .next (if s.presents (s.pfOf slice) slice then s.drainReq slice save else s)
def execReset (slice : Nat) (s : State) : Host.Outcome State Fault Refusal :=
  .next (if s.presents (s.pfOf slice) slice then s.resetReq slice else s)
def execPowerOff (fn : Func) (slice : Nat) (s : State) : Host.Outcome State Fault Refusal :=
  .next (if s.presents fn slice then s.powerOff fn slice else s)
def execPowerOn (fn : Func) (slice : Nat) (s : State) : Host.Outcome State Fault Refusal :=
  .next (if s.presents fn slice then s.powerOn fn slice else s)

/-- A write of SLC_CTL: MBZ bits are counted, a reserved REQ requests nothing. -/
def State.slcCtl (s : State) (fn : Func) (i v : Nat) : State :=
  let q := fld v 3 0
  let s := if fld v 31 5 ≠ 0 ∨ q = 0 ∨ q = 5 ∨ 8 ≤ q then s.count i diagRsvw else s
  match q with
  | 1 => s.lockReq i
  | 2 => s.runReq i
  | 3 => s.drainReq i (fld v 4 4 == 1)
  | 4 => s.resetReq i
  | 6 => s.powerOff fn i
  | 7 => s.powerOn fn i
  | _ => s

/-! Partitions (27 R403, R404). -/

def State.setPartSt (s : State) (st : Nat) : State := s.setPfreg 0x3404 (BitVec.ofNat 64 st)

/-- The FIRST values of the partitions that overlap a run. -/
def State.overlapping (s : State) (f n : Nat) : List Nat :=
  (upto f n).foldl (fun (l : List Nat) i => insertNew (s.first i) l) []

/-- A pool engine's ring is in use. -/
def State.ceBusy (s : State) (e : Nat) : Bool := fld (s.ce e).ctl.toNat 8 8 == 1 || decide ((s.ce e).head ≠ (s.ce e).tail)

/-- FIRST and SIZE of a slice set, with ABSORBED where it is not the lowest; the pass-over counts of the partition formed are 0 (21 R337). -/
def State.setPart (s : State) (i f n : Nat) : State :=
  (((s.setSlcField i 11 8 f).setSlcField i 15 12 n).setSlcField i 4 4 (if i = f then 0 else 1)).modSlice i
    (fun (v : Slice) => { v with sched := {} })

/-- PART_CMD. -/
def State.partCmd (s : State) (v : Nat) : State :=
  let f := fld v 3 0
  let n := fld v 7 4
  let fs := s.overlapping f n
  if !(List.contains [1, 2, 3, 4, 6, 12] n) || decide (f % n ≠ 0) || decide (12 < f + n) || decide (fld v 31 8 ≠ 0) then s.setPartSt 1
  else if fs.any (fun p => decide (s.slcState p ≠ stOpen)) then s.setPartSt 2
  else if s.bifurcated && decide (f < 6) && decide (6 < f + n) then s.setPartSt 3
  else if (List.range 24).any (fun e => match s.ceOwner e with | some p => fs.contains p && s.ceBusy e | none => false) ||
      fs.any (fun p => (spGet s.sec.worlds p).isSome) then s.setPartSt 4
  else
    let all := fs.flatMap (fun p => s.partSlices p)
    let s := all.foldl (fun (s : State) i => if f ≤ i ∧ i < f + n then s.setPart i f n else s.setPart i i 1) s
    let s := (List.range 24).foldl (fun (s : State) e => match s.ceOwner e with
      | some p => if fs.contains p then
          s.setPfreg (0x3500 + 4 * e) (BitVec.ofNat 64 (setFld (s.pfreg (0x3500 + 4 * e)).toNat 3 0 (s.first p))) else s
      | none => s) s
    s.setPartSt 0

def execPartCmd (value : Word) (s : State) : Host.Outcome State Fault Refusal :=
  .next (if s.booted then s.partCmd value.toNat else s)

/-- CE_OWNe: an engine is given to a partition, or taken from one (27 R405). -/
def State.ceOwn (s : State) (e v : Nat) : State :=
  let s := if fld v 31 5 ≠ 0 then s.count 0 diagRsvw else s
  let old := (s.pfreg (0x3500 + 4 * e)).toNat
  let f := fld v 3 0
  if 12 ≤ f ∨ s.first f ≠ f then s.setPartSt 1
  else if fld v 4 0 ≠ old ∧ s.ceBusy e = true then s.setPartSt 4
  else (s.setPfreg (0x3500 + 4 * e) (BitVec.ofNat 64 (fld v 4 0))).setPartSt 0

def execCeOwnWrite (e : Nat) (value : Word) (s : State) : Host.Outcome State Fault Refusal :=
  .next (if s.booted && decide (e < 24) then s.ceOwn e value.toNat else s)

/-! Rates (27 R411, R412). -/

/-- The cap of a slice in watts, 0 for none. -/
def State.powerCap (s : State) (i : Nat) : Nat :=
  let w := fld (s.sreg i 0x5010).toNat 9 0
  if w = 0 then 0 else Nat.max 20 w

/-- POWER_METER_TICK: every microsecond (1,750 clocks) the balance, in nanojoules, takes the energy used off and the cap on. -/
def execPowerMeterTick (slice : Nat) (s : State) : Host.Outcome State Fault Refusal :=
  .next (if s.clock < (s.slice slice).meterAt + 1750 then s
  else
    let (k, s) := s.draw
    let cap : Int := s.powerCap slice
    let b := min ((s.slice slice).balance - (Config.energy k : Int) + cap * 1000) (cap * 100000)
    s.modSlice slice (fun (v : Slice) => { v with
      meterAt := s.clock, balance := b, throttled := decide (cap ≠ 0) && decide (b < 0) }))

/-- QOS_FAB of a slice written through a function. -/
def State.qosFab (s : State) (fn : Func) (i v : Nat) : State :=
  if !isPf fn then s.status i ctlPfOnly
  else
    let others := ((upto (i / 3 * 3) 3).filter (· ≠ i)).foldl (fun n j => n + fld (s.sreg j 0x500C).toNat 10 0) 0
    if 1024 < others + fld v 10 0 then s.status i ctlOvercommit
    else
      let s := if fld v 31 11 ≠ 0 then s.count i diagRsvw else s
      s.setSreg i 0x500C (BitVec.ofNat 64 (fld v 10 0))

def execQosFabWrite (fn : Func) (slice : Nat) (value : Word) (s : State) : Host.Outcome State Fault Refusal :=
  .next (if s.reaches fn slice then s.qosFab fn slice value.toNat else s)

/-! Time (27 R417-R419). -/

/-- A value above TIME replaces it. -/
def State.setTime (s : State) (v : Nat) : State := if s.time < v then { s with timeOff := s.timeOff + (v - s.time) } else s

def execTimeSet (value : DWord) (s : State) : Host.Outcome State Fault Refusal :=
  .next (if s.booted then s.setTime value.toNat else s)

/-- A write of SLC_PAUSE: OP 1 pauses, OP 2 resumes; a request that the context cannot follow is ignored with BAD_STATE. -/
def State.pauseCmd (s : State) (i v : Nat) : State :=
  let s := if fld v 15 10 ≠ 0 ∨ fld v 19 18 ≠ 0 ∨ fld v 31 21 ≠ 0 ∨ fld v 17 16 = 0 ∨ fld v 17 16 = 3 then s.count i diagRsvw else s
  let c := ctxKey (s.first i) (fld v 9 0)
  let x := s.ctx c
  if fld v 17 16 = 0 ∨ fld v 17 16 = 3 then s
  else if (spGet s.ctxs c).isNone then s.status i ctlBadState
  else if fld v 17 16 = 1 then
    if x.paused ≠ 0 then s.status i ctlBadState
    else
      let s := (s.status i ctlOk).modCtx c (fun (y : Ctx) => { y with paused := 1 + fld v 20 20 })
      let cls := (s.clusters.filter (fun e => decide (e.2.ctx = c) && decide (e.2.state = .running))).map (·.1)
      if fld v 20 20 = 0 then cls.foldl (fun (s : State) k => s.stopCluster k) s else s
  else if x.paused = 0 then s.status i ctlBadState
  else if x.paused = 3 then (s.status i ctlOk).modCtx c (fun (y : Ctx) => { y with paused := 0, vsince := s.time })
  else (s.status i ctlOk).modCtx c (fun (y : Ctx) => { y with paused := 0 })

def execPause (slice : Nat) (value : Word) (s : State) : Host.Outcome State Fault Refusal :=
  .next (if s.reaches (s.pfOf slice) slice && fld value.toNat 17 16 == 1 then s.pauseCmd slice value.toNat else s)
def execResume (slice : Nat) (value : Word) (s : State) : Host.Outcome State Fault Refusal :=
  .next (if s.reaches (s.pfOf slice) slice && fld value.toNat 17 16 == 2 then s.pauseCmd slice value.toNat else s)

/-- Nothing keeps a pause of the context from completing. -/
def State.pauseReady (s : State) (c : Nat) : Bool :=
  let mine := s.teams.filter (fun e => decide (e.2.ctx = c))
  if (s.ctx c).paused = 2 then mine.isEmpty
  else mine.all (fun e => match e.2.state with | .saved _ _ => true | _ => false) &&
    s.cores.all (fun e => e.2.copies.all (fun j => decide (s.ctxOfT j.tid ≠ c)) &&
      e.2.mcmds.all (fun m => !m.started || decide ((s.team (teamOf m.gid)).ctx ≠ c)))

/-- PAUSE_COMPLETE: VTIME stops. -/
def execPauseComplete (ctx : Nat) (s : State) : Host.Outcome State Fault Refusal :=
  .next (
    let x := s.ctx ctx
    if (x.paused = 1 ∨ x.paused = 2) ∧ s.pauseReady ctx = true then
      s.modCtx ctx (fun (y : Ctx) => { y with paused := 3, vbase := s.vtime ctx, vsince := s.time })
    else s)

/-- The context whose counters SLC_VTVAL and SLC_CKVAL reach. -/
def State.tmCtx (s : State) (i : Nat) : Nat := ctxKey (s.first i) (fld (s.sreg (s.first i) 0x1028).toNat 9 0)

/-- A write of SLC_VTVAL. -/
def State.setVtval (s : State) (i v : Nat) : State :=
  let c := s.tmCtx i
  if (s.ctx c).paused = 3 ∧ s.vtime c ≤ v then s.modCtx c (fun (y : Ctx) => { y with vbase := v }) else s.status i ctlBadState

/-- A write of SLC_CKVAL. -/
def State.setCkval (s : State) (i v : Nat) : State :=
  let c := s.tmCtx i
  if (s.ctx c).paused = 3 ∧ (s.ctx c).clockCount ≤ v then s.modCtx c (fun (y : Ctx) => { y with clockCount := v })
  else s.status i ctlBadState

def execSlcVtvalWrite (slice : Nat) (value : DWord) (s : State) : Host.Outcome State Fault Refusal :=
  .next (if s.reaches (s.pfOf slice) slice then s.setVtval slice value.toNat else s)
def execSlcCkvalWrite (slice : Nat) (value : DWord) (s : State) : Host.Outcome State Fault Refusal :=
  .next (if s.reaches (s.pfOf slice) slice then s.setCkval slice value.toNat else s)

/-! Firmware update (27 R420; 29 R437). -/

def State.setFwSt (s : State) (st : Nat) : State := s.setPfreg 0x3428 (BitVec.ofNat 64 st)

/-- A write of FWUPD_CMD: with GO the security processor verifies the image and the handover begins, or the running image stays. -/
def State.fwCmd (s : State) (v : Nat) : State :=
  let i := fld v 3 0
  let s := if fld v 7 4 ≠ 0 ∨ fld v 31 9 ≠ 0 ∨ 12 ≤ i then s.count 0 diagRsvw else s
  if fld v 8 8 = 0 ∨ 12 ≤ i then s
  else if s.sec.fwSlice.isSome then s.setFwSt 4
  else
    let (k, s) := s.draw
    if Config.firmwareSigned (s.pfreg 0x3420).toNat k then
      let s := s.modSlice i (fun (x : Slice) => { x with fwBusy := true })
      let s : State := { s with sec := { s.sec with fwSlice := some i } }
      s.setFwSt 1
    else s.setFwSt 3

def execFwupdGo (value : Word) (s : State) : Host.Outcome State Fault Refusal :=
  .next (if s.booted && fld value.toNat 8 8 == 1 then s.fwCmd value.toNat else s)

/-- FWUPD_COMPLETE: the new image has taken over; what waited for it is written. -/
def execFwupdComplete (s : State) : Host.Outcome State Fault Refusal :=
  .next (match s.sec.fwSlice with
  | none => s
  | some i =>
    let ws := (s.slice i).errWait
    let s : State := { s with sec := { s.sec with fwSlice := none } }
    let s := s.modSlice i (fun (x : Slice) => { x with fwBusy := false, errWait := [] })
    let s := ws.foldl (fun (s : State) e => s.appendError i e.1 e.2) s
    (s.extendOpen (0x10 + i)).setFwSt 2)

end Sys2Proof.Machine
end

