-- ==== Sys2Proof/Machine/Contexts.lean ====
section
/-! DEFINITION. Context create, reload and destroy (21 R325, R326; 27 R412), work queues and doorbells (R327, R328), launch records
(R329, R330), and the pool copy engines (27 R405, R406; 29 R435). -/

namespace Sys2Proof.Machine

/-- A record of `n` bytes at a physical address read by the controller; a poisoned one holds open values (log 2). -/
def State.recordRead (s : State) (f pa n : Nat) : Nat × State :=
  let (v, p, s) := s.homeBytes f (ctxKey f 1023) 0 pa n
  if p = 0 then (v, s)
  else
    let (k, s) := (s.freeCtr, { s with freeCtr := s.freeCtr + n / 8 })
    ((List.range (n / 8)).foldl (fun a i => a + (Config.freeValue (k + i)).toNat * 2 ^ (64 * i)) 0, s)

/-! Context records (21 R325). -/

/-- The fields of a context record that the context keeps copies of. -/
def Ctx.withRecord (x : Ctx) (r : Nat) : Ctx :=
  { x with ptroot := fld r 63 0, codebase := fld r 127 64, codesize := fld r 159 128, entbase := fld r 223 160,
           entcount := fld r 232 224, savebase := fld r 319 256, savesize := fld r 351 320 }

/-- The record passes its checks. -/
def ctxRecordGood (r : Nat) : Bool :=
  fld r 255 233 == 0 && fld r 383 369 == 0 && fld r 1023 704 == 0 && fld r 11 0 == 0 && fld r 63 52 == 0 &&
  decide (fld r 127 64 % 4096 = 0) && decide (fld r 223 160 % 8 = 0) && decide (fld r 232 224 ≤ 256) && decide (fld r 319 256 % 4096 = 0)

/-- The nine registers that a reload writes, with their values and whether a written MBZ bit is counted (11 R171; 17 R266; 19 R287). -/
def ctxLoads (r : Nat) : List (CtlReg × Nat × Bool) :=
  let cpy := fld r 575 512
  let res := fld r 639 576
  [(.bintime, fld r 367 352, false), (.wdogBar, fld r 415 384, false), (.wdogHang, fld r 447 416, false), (.wdogRos, fld r 479 448, false),
   (.rastthr, fld r 511 480, false), (.cpytab, fld cpy 49 12 * 4096 + fld cpy 10 0, fld cpy 63 50 != 0 || fld cpy 11 11 != 0),
   (.restab, fld res 49 12 * 4096 + fld res 9 0, fld res 63 50 != 0 || fld res 11 10 != 0),
   (.migwait, fld r 671 640, false), (.pairwait, fld r 703 672, false)]

/-- A register write by a reload acts as a ctlw does (11 R173). -/
def State.loadCtl (s : State) (f c : Nat) (e : CtlReg × Nat × Bool) : State :=
  let (r, v, bad) := e
  let s := if bad then s.count f diagRsvw else s
  let (id, s) := s.fresh
  let (k, s) := s.draw
  let w : CtlWrite := { id := id, reg := r, old := (s.ctx c).ctl.get r, gid := none, useOld := (Config.freeValue k).getLsbD 0 }
  s.modCtx c (fun (x : Ctx) => { x with ctl := x.ctl.put r (BitVec.ofNat 64 v), writes := x.writes ++ [w] })

/-- One row of an entry table. -/
def entryRowOf (v : Nat) : EntryRow :=
  { entry := BitVec.ofNat 32 (fld v 31 0), nregs := (fld v 36 32 + 1) * 8, kernel := fld v 40 40 == 1, binspad := fld v 63 41 }

/-- The entry table read through the context's table: its rows, or the CODE of the failure (21 R326). -/
def State.readEntries (s : State) (c : Nat) : Except Nat (List EntryRow) × State :=
  let x := s.ctx c
  (List.range x.entcount).foldl (fun (a : Except Nat (List EntryRow) × State) i =>
    match a with
    | (.error n, s) => (.error n, s)
    | (.ok l, s) =>
      match s.sysRead c (x.entbase + 8 * i) 8 with
      | (none, s) => (.error 5, s)
      | (some v, s) => if fld v 39 37 ≠ 0 ∨ x.codesize ≤ fld v 31 0 then (.error 1, s) else (.ok (l ++ [entryRowOf v]), s)) (.ok [], s)

/-- A context's QoS entry (27 R412): none if it does not stand. -/
def State.qosEntry (s : State) (f n : Nat) : Option Nat × State :=
  let base := (s.sreg f 0x5000).toNat
  if base = 0 then (some 0x00010001, s)
  else
    let (v, s) := s.recordRead f (base + 4 * n / 8 * 8) 8
    let e := if n % 2 = 0 then fld v 31 0 else fld v 63 32
    (if fld e 15 13 ≠ 0 ∨ fld e 31 24 ≠ 0 ∨ 16 < fld e 12 8 then none else some e, s)

/-- Guarantees of an entry given to a context: WAYS within what the other contexts leave of 16. -/
def State.giveQos (s : State) (f c e : Nat) : State :=
  let others := (s.ctxs.filter (fun x => decide (ctxFirst x.1 = f) && decide (x.1 ≠ c))).foldl (fun n x => n + x.2.ways) 0
  s.modCtx c (fun (x : Ctx) => { x with isw := fld e 7 0, ways := Nat.min (fld e 12 8) (16 - others), linkw := fld e 23 16 })

/-- Create or reload of a context: the new state, or the CODE of the failure, which changes nothing. -/
def State.loadContext (s : State) (f c : Nat) (create : Bool) : Except Nat State :=
  let n := ctxNum c
  let (r, s) := s.recordRead f ((s.sreg f 0x1008).toNat + 128 * n) 128
  let (q, s) := s.qosEntry f n
  match q with
  | none => .error 1
  | some e =>
    if !ctxRecordGood r then .error 1
    else
      let drop (k : Core) : Core := { k with tlb := k.tlb.filter (fun t => t.ctx ≠ c), last := k.last.filter (fun t => t.2.ctx ≠ c) }
      let s : State := if create then { s with cores := s.cores.map (fun k => (k.1, drop k.2)) } else s
      let base : Ctx := if create then { vsince := s.time } else s.ctx c
      let s := s.setCtx c (base.withRecord r)
      let load := !create || fld r 368 368 == 1
      if load then
        match s.readEntries c with
        | (.error k, _) => .error k
        | (.ok rows, s) =>
          let s := s.modCtx c (fun (x : Ctx) => { x with entries := rows })
          .ok (((ctxLoads r).foldl (fun (s : State) l => s.loadCtl f c l) s).giveQos f c e)
      else .ok (s.giveQos f c e)

/-- A work queue with EN = 1 names the context. -/
def State.queueNames (s : State) (f n : Nat) : Bool :=
  (List.range 16384).any (fun q =>
    let d := (s.homeBytes f (ctxKey f 1023) 0 ((s.sreg f 0x1000).toNat + 32 * q) 16).1
    fld d 50 50 == 1 && decide (fld d 73 64 = n))

/-- A failed command's error entry. -/
def State.ctxFail (s : State) (f c v code : Nat) : State := s.logError f 13 9 (some c) 15 code 0 0 v

/-- A write of SLC_CTXCMD (21 R324, R325). -/
def State.ctxCmd (s : State) (i v : Nat) : State :=
  let f := s.first i
  let c := ctxKey f (fld v 9 0)
  let op := fld v 19 16
  let exists_ := (spGet s.ctxs c).isSome
  if fld v 15 10 ≠ 0 ∨ fld v 31 20 ≠ 0 ∨ op = 0 ∨ 3 < op then s.ctxFail f c v 1
  else if op = 1 ∧ exists_ = true then s.ctxFail f c v 2
  else if op ≠ 1 ∧ exists_ = false then s.ctxFail f c v 3
  else if op = 3 then
    let waits := s.grids.any (fun e => decide (e.2.ctx = c) && decide (e.2.nextCluster < e.2.lrec.clusters)) ||
      s.clusters.any (fun e => decide (e.2.ctx = c) && decide (e.2.state ≠ .running))
    if s.teams.any (fun e => decide (e.2.ctx = c)) || waits || s.queueNames f (ctxNum c) then s.ctxFail f c v 4
    else
      -- a grid that has ended is retained until its pair is written (21 R332)
      let s := (s.grids.filter (fun e => e.2.ctx = c)).foldl (fun (s : State) e => s.finishGrid e.1 e.2) s
      { s with ctxs := spDel s.ctxs c }
  else match s.loadContext f c (decide (op = 1)) with
    | .error k => s.ctxFail f c v k
    | .ok s => s

def execContextCreate (slice : Nat) (value : Word) (s : State) : Host.Outcome State Fault Refusal :=
  .next (if s.reaches (s.pfOf slice) slice && fld value.toNat 19 16 == 1 then s.ctxCmd slice value.toNat else s)
def execContextReload (slice : Nat) (value : Word) (s : State) : Host.Outcome State Fault Refusal :=
  .next (if s.reaches (s.pfOf slice) slice && fld value.toNat 19 16 == 2 then s.ctxCmd slice value.toNat else s)
def execContextDestroy (slice : Nat) (value : Word) (s : State) : Host.Outcome State Fault Refusal :=
  .next (if s.reaches (s.pfOf slice) slice && fld value.toNat 19 16 == 3 then s.ctxCmd slice value.toNat else s)

/-! Work queues (21 R327, R328). -/

def State.queueAddr (s : State) (f q : Nat) : Nat := (s.sreg f 0x1000).toNat + 32 * q

/-- A queue's descriptor. -/
def State.queueDesc (s : State) (f q : Nat) : Nat × State := s.recordRead f (s.queueAddr f q) 32

/-- A descriptor written back by the controller. -/
def State.putDesc (s : State) (f q d : Nat) : State := s.systemPut f (ctxKey f 1023) 0 (s.queueAddr f q) 32 d

/-- The descriptor is not one that the controller can use. -/
def State.descBad (s : State) (f d : Nat) : Bool :=
  fld d 63 56 != 0 || fld d 95 74 != 0 || fld d 255 168 != 0 || decide (15 < fld d 55 51) || (spGet s.ctxs (ctxKey f (fld d 73 64))).isNone

/-- A doorbell of queue `q` (21 R328). -/
def State.doorbell (s : State) (f q size v : Nat) : State :=
  let (d, s) := s.queueDesc f q
  let s1 := s.modSlice f (fun (x : Slice) => { x with rung := insertNew q x.rung })
  let t := v % 2 ^ 32
  let head := fld d 127 96
  let ahead (x : Nat) : Nat := (x + 2 ^ 32 - head) % 2 ^ 32
  if size ≠ 8 ∨ v / 2 ^ 32 ≠ 0 ∨ fld d 50 50 = 0 then s1.count f diagDbell
  else if s.descBad f d then s1.putDesc f q (setFld (setFld d 167 160 2) 50 50 0)
  else if 2 ^ fld d 55 51 < ahead t then s1.putDesc f q (setFld (setFld d 167 160 1) 50 50 0)
  else if ahead t < ahead (fld d 159 128) then s1
  else s1.putDesc f q (setFld d 159 128 t)

def execDoorbell (slice q size : Nat) (value : DWord) (s : State) : Host.Outcome State Fault Refusal :=
  .next (if s.reaches (.vf slice) slice && decide (q < 16384) then s.doorbell (s.first slice) q size value.toNat else s)

/-! Launch records (21 R329, R330). -/

def launchOf (r : Nat) : Launch :=
  { entry := BitVec.ofNat 32 (fld r 31 0), threads := fld r 47 32, cw := fld r 51 48, ch := fld r 55 52, nregs := (fld r 60 56 + 1) * 8,
    clusters := fld r 95 64, deadlineClass := fld r 96 96 == 1, relaunch := fld r 97 97 == 1, migrate := fld r 98 98 == 1,
    serial := fld r 99 99 == 1, weight := fld r 106 104, deadline := fld r 191 128,
    sizes := { spad := fld r 223 192, wbuf := fld r 255 224, abuf := fld r 287 256, cbuf := fld r 319 288 },
    foot0 := (fld r 383 320, fld r 447 384), foot1 := (fld r 511 448, fld r 575 512),
    doneAddr := fld r 639 576, doneVal := BitVec.ofNat 64 (fld r 703 640),
    args := (List.range 8).map (fun i => BitVec.ofNat 32 (fld r (799 + 32 * i) (768 + 32 * i))) }

/-- The first row of 21 R330 that rejects a record. -/
def State.launchReason (s : State) (f c r : Nat) : Option Nat :=
  let l := launchOf r
  let wide := (s.allCores f).any (fun k => (s.core k).present && (s.core k).wide)
  if fld r 63 61 ≠ 0 ∨ fld r 103 100 ≠ 0 ∨ fld r 127 107 ≠ 0 ∨ fld r 767 704 ≠ 0 then some 1
  else if !(s.ctx c).entries.any (fun e => decide (e.entry = l.entry) && e.kernel && decide (e.nregs = l.nregs)) then some 2
  else if l.threads = 0 ∨ l.threads % 32 ≠ 0 ∨ (if wide then 4096 else 2048) < l.threads then some 3
  else if l.cw = 0 ∨ l.ch = 0 ∨ 12 < l.cw * l.ch ∨ s.rects f l.cw l.ch = [] then some 4
  else if l.clusters = 0 then some 5
  else if !(s.partCores f).any (fun k => (capOf (l.threads / 32) l.nregs l.sizes).le (coreCap (s.core k).wide)) then some 6
  else if l.doneAddr % 16 ≠ 0 ∨ 2 ^ 50 ≤ l.doneAddr then some 7
  else none

/-- LAUNCH_RECORD_TAKE: the record at HEAD is taken and checked; HEAD advances. -/
def execLaunchRecordTake (part q : Nat) (s : State) : Host.Outcome State Fault Refusal :=
  .next (if !s.mayPlace part || decide (16384 ≤ q) then s
  else
    let (d, s1) := s.queueDesc part q
    let c := ctxKey part (fld d 73 64)
    let head := fld d 127 96
    if fld d 50 50 = 0 ∨ head = fld d 159 128 ∨ (s.ctx c).paused ≠ 0 then s
    else if s.descBad part d then s1.putDesc part q (setFld (setFld d 167 160 2) 50 50 0)
    else
      let (r, s1) := s1.recordRead part (fld d 49 0 + 128 * (head % 2 ^ fld d 55 51)) 128
      let s1 := s1.putDesc part q (setFld d 127 96 ((head + 1) % 2 ^ 32))
      let l := launchOf r
      let last (s : State) (g : Nat) : State := s.modSlice part (fun (v : Slice) => { v with launched := spWrite 0 v.launched q g })
      match (s1.ctx c).term, s1.launchReason part c r with
      | some code, _ => (last s1 0).writePair c l 2 code 0
      | none, some n => (last s1 0).writePair c l 1 n 0
      | none, none =>
        let (g, s1) := s1.fresh
        let num := (s1.ctx c).nextGrid
        let prev := spRead 0 (s1.slice part).launched q
        let s1 := last s1 g
        let s1 := s1.modCtx c (fun (x : Ctx) => { x with nextGrid := (x.nextGrid + 1) % 2 ^ 32 })
        s1.setGrid g { ctx := c, part := part, queue := q, number := BitVec.ofNat 32 num, lrec := l, passedAt := s1.clock,
                        prev := prev })

/-! Pool copy engines (27 R405, R406). -/

/-- CE_TAIL_WRITE: descriptors are queued; the ring of an engine that no partition owns is not reached. -/
def State.ceTail (s : State) (e : Nat) (v : Word) : State :=
  if (s.ceOwner e).isSome then s.setCe e { s.ce e with tail := v } else s

def execCeTailWrite (e : Nat) (value : Word) (s : State) : Host.Outcome State Fault Refusal :=
  .next (if s.booted && decide (e < 24) then s.ceTail e value else s)

/-- Engine e fails its descriptor. -/
def State.ceFail (s : State) (e err addr : Nat) : State :=
  let x := s.ce e
  s.setCe e { x with ctl := x.ctl &&& 0xFFFFFEFF, erraddr := BitVec.ofNat 64 addr, stat := BitVec.ofNat 32 err }

/-- A side of a descriptor. -/
structure CeSide where
  virt : Bool
  addr : Nat
  ctx : Nat
  write : Bool
deriving DecidableEq, Repr

/-- Where one byte of a side lies: its physical address, key and error tolerance, the error that it meets, or none while its home is in
RESET. -/
def State.ceAddr (s : State) (f : Nat) (x : CeSide) (va : Nat) : Option (Except Nat (Nat × Nat × Bool)) × State :=
  if x.virt then
    let good (leaf : DWord) : Bool := (s.ctx x.ctx).compmask.getLsbD (leafComp leaf) && (if x.write then leafW leaf else leafR leaf)
    match s.engXlate x.ctx va (if x.write then .write else .read) good with
    | (.ok pa leaf, s) =>
      if !good leaf then (some (.error 4), s)
      else if !s.homeOpen pa then (none, s)
      else (some (.ok (pa, leafComp leaf % 8, leafEt leaf)), s)
    | (.fault _, s) => (some (.error 3), s)
    | (.poison, s) => (some (.error 5), s)
    | (.unbacked, s) => (some (.error 2), s)
  else if s.inSealed va || s.inCarve va then (some (.error 4), s)
  else if isHostPa va || (isDevPa va && (s.partSlices f).contains (paSlice va)) then (some (.ok (va, 0, false)), s)
  else (some (.error 2), s)

/-- Outcome of a piece of a copy. -/
inductive CeRes where
  | good
  | wait
  | bad (err addr : Nat)
deriving DecidableEq, Repr

/-- `n` bytes, inside one line on both sides, copied; the write is performed at system scope. -/
def State.cePiece (s : State) (f : Nat) (a b : CeSide) (off n : Nat) : CeRes × State :=
  match s.ceAddr f a (a.addr + off) with
  | (none, s) => (.wait, s)
  | (some (.error k), s) => (.bad k (a.addr + off), s)
  | (some (.ok (pa, comp, et)), s) =>
    match s.ceAddr f b (b.addr + off) with
    | (none, s) => (.wait, s)
    | (some (.error k), s) => (.bad k (b.addr + off), s)
    | (some (.ok (pb, compb, etb)), s) =>
      let la := pa / 64
      let (g, s) := s.homeRead f la (if a.virt then a.ctx else ctxKey f 1023) comp true 0 (if a.virt then a.addr + off else 0)
      let hit := g.poison &&& sectorsOf (byteMask (pa % 64) n)
      if hit ≠ 0 ∧ et = false then (.bad 5 (a.addr + off), s)
      else
        let x := lineGet (lineMerge g.data 0 (sectorBytes hit)) (pa % 64) n
        let s := s.substitute a.ctx (coreKey f 15) ((sectorsMet hit (a.addr + off) pa).filter (fun e => decide (off = 0) || decide (a.addr + off ≤ e.1)))
        let s := s.homePut f (if b.virt then b.ctx else ctxKey f 1023) compb pb n x etb
        (.good, s.toMemoryNow f (pb / 64))

/-- The pieces of a range: cut where either side meets a line. -/
def cePieces (a b n : Nat) (fuel off : Nat) : List (Nat × Nat) :=
  match fuel with
  | 0 => []
  | fuel + 1 =>
    if n ≤ off then []
    else
      let k := Nat.min (n - off) (Nat.min (64 - (a + off) % 64) (64 - (b + off) % 64))
      (off, k) :: cePieces a b n fuel (off + k)

/-- CE_DESCRIPTOR_COMPLETE: the descriptor at HEAD is run; HEAD passes it once all its bytes are in memory, or it fails. -/
def execCeDescriptorComplete (e : Nat) (s : State) : Host.Outcome State Fault Refusal :=
  .next (
    let x := s.ce e
    match s.ceOwner e with
    | none => s
    | some f =>
      if fld x.ctl.toNat 8 8 = 0 ∨ x.head = x.tail then s
      else
        let at_ := x.base.toNat + 32 * (x.head.toNat % 2 ^ fld x.ctl.toNat 3 0)
        if !s.backed f at_ || s.inSealed at_ then s.ceFail e 2 at_
        else
          let (d, p, s1) := s.homeBytes f (ctxKey f 1023) 0 at_ 32
          let len := fld d 159 128
          let c := ctxKey f (fld d 177 168)
          let a : CeSide := { virt := fld d 160 160 == 1, addr := fld d 63 0, ctx := c, write := false }
          let b : CeSide := { virt := fld d 161 161 == 1, addr := fld d 127 64, ctx := c, write := true }
          if p ≠ 0 then s1.ceFail e 5 at_
          else if len = 0 ∨ len % 16 ≠ 0 ∨ fld d 167 162 ≠ 0 ∨ fld d 255 178 ≠ 0 then s1.ceFail e 1 at_
          else
            let (r, s2) := (cePieces a.addr b.addr len len 0).foldl (fun (z : CeRes × State) q =>
              match z.1 with
              | .good => z.2.cePiece f a b q.1 q.2
              | _ => z) (.good, s1)
            match r with
            | .good => s2.setCe e { x with head := x.head + 1 }
            | .wait => s
            | .bad k addr => s2.ceFail e k addr)

end Sys2Proof.Machine
end

