-- ==== Sys2Proof/Machine/Trust.lean ====
section
/-! DEFINITION. Sealed ranges and their diagnostics (29 R423, R428; 30 R440, R441), worlds, sessions and attestation (29 R429-R439),
links (01 R36; 29 R421, R422), and accesses by the host and by link peers (13 R209; 01 R36; 27 R402; 29 R435). -/

namespace Sys2Proof.Machine

/-! Sealed data range (29 R423). -/

/-- A write of SEAL_SIZE through a function. -/
def State.sealSize (s : State) (fn : Func) (i v : Nat) : State :=
  if !isPf fn then s.status i ctlPfOnly
  else if s.slcState i ≠ stOpen ∨ s.worldOf i ≠ 0 then s.status i ctlBadState
  else
    let s := if fld v 31 13 ≠ 0 ∨ 4096 < fld v 12 0 then s.count i diagRsvw else s
    if 4096 < fld v 12 0 then s else s.setSreg i 0x8000 (BitVec.ofNat 64 (fld v 12 0))

def execSealSizeWrite (fn : Func) (slice : Nat) (value : Word) (s : State) : Host.Outcome State Fault Refusal :=
  .next (if s.reaches fn slice then s.sealSize fn slice value.toNat else s)

/-- A write of SEAL_CMD: FLUSH begins; a reserved OP does nothing. -/
def State.sealCmd (s : State) (fn : Func) (i v : Nat) : State :=
  if !isPf fn then s.status i ctlPfOnly
  else
    let s := if fld v 31 4 ≠ 0 ∨ fld v 3 0 ≠ 1 then s.count i diagRsvw else s
    if fld v 3 0 = 1 then s.setSreg i 0x800C (BitVec.ofNat 64 (setFld (s.sreg i 0x800C).toNat 0 0 1)) else s

def execSealFlush (fn : Func) (slice : Nat) (value : Word) (s : State) : Host.Outcome State Fault Refusal :=
  .next (if s.reaches fn slice then s.sealCmd fn slice value.toNat else s)

/-- SEAL_FLUSH_COMPLETE. -/
def execSealFlushComplete (slice : Nat) (s : State) : Host.Outcome State Fault Refusal :=
  .next (if fld (s.sreg slice 0x800C).toNat 0 0 = 0 then s
  else (s.sealFlushAll slice).setSreg slice 0x800C (BitVec.ofNat 64 (setFld (s.sreg slice 0x800C).toNat 0 0 0)))

/-- SWEEP_LINE_COMMIT. -/
def execSweepLineCommit (slice page : Nat) (s : State) : Host.Outcome State Fault Refusal :=
  .next (if paSlice (4096 * page) = slice then s.sweepLine page else s)

/-! Sealing diagnostics (30 R440, R441). -/

/-- Status of the last SEAL_DCMD, its BUSY clear again. -/
def State.setDst (s : State) (i st : Nat) : State := s.setSreg i 0x8024 (BitVec.ofNat 64 (st * 16))

/-- The results of CTRREAD, DMAJ and DMIN; none where an entry on the path does not verify. -/
def State.counterAt (s : State) (i la level : Nat) : Option (Nat × Nat) :=
  let n := pageNo (linePage la)
  match level with
  | 0 => (s.metaAt i 3 n).map (fun d => (majorOf d, minorOf d (la % 64)))
  | 1 => (s.metaAt i 2 (n / 8)).map (fun d => (nodeCtr d (n % 8), 0))
  | 2 => (s.metaAt i 1 (n / 64)).map (fun d => (nodeCtr d (n / 8 % 8), 0))
  | 3 => (s.metaAt i 0 (n / 512)).map (fun d => (nodeCtr d (n / 64 % 8), 0))
  | _ => some (spRead 0 (s.slice i).sealing.root (n / 512), 0)

/-- The status that refuses a SEAL_DCMD, or 0. -/
def State.dcmdStatus (s : State) (i v : Nat) : Nat :=
  let a := (s.sreg i 0x8018).toNat
  let op := fld v 3 0
  let mask := fld v 31 8
  if s.worldOf i = 0 then 3
  else if (op ≠ 1 ∧ op ≠ 2) ∨ 4 < fld v 6 4 ∨ (op = 1 ∧ mask ≠ 0) ∨ (op = 2 ∧ mask = 0) ∨ fld v 7 7 ≠ 0 then 2
  else if fld a 5 0 ≠ 0 ∨ fld a 63 52 ≠ 0 ∨ paSlice a ≠ i ∨ s.inSealed a = false then 1
  else if op = 2 ∧ (s.sweepOf (linePage (a / 64))).isSome = true then 4
  else 0

/-- TAGFLIP: every cached copy of the line goes, its dirty bytes written back; then the stored tag is changed and its check made anew. -/
def State.tagFlip (s : State) (i la mask : Nat) : State :=
  let f := s.first i
  let s := s.recallLine f la
  let s := (s.cleanThrough i la).dropDeep i la
  let slot := Memory.read s.mem (s.slotPa la) 16
  let tag : BitVec 56 := BitVec.ofNat 56 slot ^^^ BitVec.ofNat 56 mask
  { s with mem := Memory.write s.mem (s.slotPa la) 16 (tag.toNat + fld slot 119 56 * 2 ^ 56 + (Config.secdedTag tag).toNat * 2 ^ 120) }

/-- A write of SEAL_DCMD through a function: the command runs to its end. -/
def State.sealDcmd (s : State) (fn : Func) (i v : Nat) : State :=
  if !isPf fn then s.status i ctlPfOnly
  else
    let st := s.dcmdStatus i v
    let la := (s.sreg i 0x8018).toNat / 64
    if st ≠ 0 then s.setDst i st
    else if fld v 3 0 = 1 then
      let results (s : State) (r : Nat × Nat) : State := (s.setSreg i 0x8028 (BitVec.ofNat 64 r.1)).setSreg i 0x8030 (BitVec.ofNat 64 r.2)
      match s.counterAt i la (fld v 6 4) with
      | some r => (results s r).setDst i 0
      | none => ((results s (0, 0)).setDst i 5).tagFound la 1023 0
    else (s.tagFlip i la (fld v 31 8)).setDst i 0

def execCtrread (fn : Func) (slice : Nat) (value : Word) (s : State) : Host.Outcome State Fault Refusal :=
  .next (if s.reaches fn slice && fld value.toNat 3 0 == 1 then s.sealDcmd fn slice value.toNat else s)
def execTagflip (fn : Func) (slice : Nat) (value : Word) (s : State) : Host.Outcome State Fault Refusal :=
  .next (if s.reaches fn slice && fld value.toNat 3 0 == 2 then s.sealDcmd fn slice value.toNat else s)

/-! Worlds (29 R429, R430). -/

def State.setWorldSt (s : State) (st : Nat) : State :=
  s.setPfreg 0x3604 (BitVec.ofNat 64 (setFld (s.pfreg 0x3604).toNat 7 0 st))

/-- The status that refuses a WORLD_CMD, or 0. -/
def State.worldStatus (s : State) (v : Nat) : Nat :=
  let f := fld v 3 0
  let has := (spGet s.sec.worlds f).isSome
  if 12 ≤ f ∨ s.first f ≠ f ∨ fld v 7 4 ≠ 0 ∨ fld v 31 10 ≠ 0 then 5
  else if s.slcState f ≠ stOpen then 1
  else if fld v 9 8 = 1 ∧ has = true then 2
  else if fld v 9 8 = 2 ∧ has = false then 3
  else if fld v 9 8 = 2 ∧ s.ctxs.any (fun e => decide (ctxFirst e.1 = f)) = true then 4
  else 0

/-- A new world on a partition: fresh keys, root tables zeroed. -/
def State.makeWorld (s : State) (f : Nat) : State :=
  let num := s.sec.nextWorld
  let s := (s.partSlices f).foldl (fun (s : State) i => s.modSlice i (fun (v : Slice) => { v with sealing := {} })) s
  let s : State := { s with sec := { s.sec with nextWorld := num + 1, worlds := spPut s.sec.worlds f { num := num } } }
  (s.extend (0x30 + f) num).worldFlags

/-- A write of WORLD_CMD; a reserved OP does nothing. -/
def State.worldCmd (s : State) (v : Nat) : State :=
  let op := fld v 9 8
  let st := s.worldStatus v
  if st = 0 ∧ (op = 0 ∨ op = 3) then s.count 0 diagRsvw
  else
    let s := s.setWorldSt st
    if st ≠ 0 then s
    else if op = 1 then s.makeWorld (fld v 3 0)
    else s.dropWorld (fld v 3 0)

def execWorldCreate (value : Word) (s : State) : Host.Outcome State Fault Refusal :=
  .next (if s.booted && fld value.toNat 9 8 == 1 then s.worldCmd value.toNat else s)
def execWorldDestroy (value : Word) (s : State) : Host.Outcome State Fault Refusal :=
  .next (if s.booted && fld value.toNat 9 8 == 2 then s.worldCmd value.toNat else s)

/-! Sessions and attestation (29 R436-R439). -/

/-- Digest of a certificate. -/
def Cert.digest (c : Cert) : BitVec 512 := Config.shake256 c.subject (c.issuer.toNat + c.sig.toNat * 2 ^ 512)

/-- The digests that an answer carries: those of the chain, or the measurements asked for. -/
def State.measured (s : State) (q : SpdmReq) : List (BitVec 512) :=
  match q with
  | .getDigests => s.sec.chain.map Cert.digest
  | .getMeasurements (some i) => [(spGet s.sec.measurements i).getD 0]
  | .getMeasurements none => s.sec.measurements.map (·.2)
  | _ => []

/-- The messages that carry a signature, by the alias key (29 R436). -/
def spdmSigns : SpdmReq → Bool
  | .challenge _ | .getMeasurements _ | .keyExchange _ => true
  | _ => false

/-- A session that opens a world finds one that no other session owns; keys for PCIe are set in a finished session (29 R438, R439). -/
def State.grants (s : State) (q : SpdmReq) : Bool :=
  let done (n : Nat) : Bool := ((spGet s.sec.sessions n).map (·.finished)).getD false
  match q with
  | .openWorld n f =>
    match spGet s.sec.sessions n, spGet s.sec.worlds f with
    | some x, some w => x.finished && x.world.isNone && (match w.session with
      | some m => (spGet s.sec.sessions m).isNone
      | none => true)
    | _, _ => false
  | .ideKm n stream => done n && decide (stream ≤ 8)
  | .finish n | .endSession n => (spGet s.sec.sessions n).isSome
  | _ => true

/-- The answer to a request, `k` the draw for what the spec does not give. -/
def State.spdmReply (s : State) (q : SpdmReq) (k : Nat) : Reply :=
  let body := Config.spdmBody q k
  let ds := s.measured q
  let certs := match q with
    | .getCertificate => s.sec.chain
    | _ => []
  { body := body, ok := s.grants q, certs := certs, digests := ds,
    sig := if spdmSigns q then some (Config.mldsaSign s.sec.aliasKeys.secret (ds.foldl (fun a d => Config.shake256 a d.toNat) body)) else none }

/-- A world owner's session is bound to a world. -/
def State.openWorld (s : State) (n f : Nat) : State :=
  match spGet s.sec.sessions n, spGet s.sec.worlds f with
  | some x, some w =>
    { s with sec := { s.sec with sessions := spPut s.sec.sessions n { x with world := some w.num },
                                 worlds := spPut s.sec.worlds f { w with session := some n } } }
  | _, _ => s

/-- SPDM_REQUEST: the security processor answers. -/
def execSpdmRequest (req : SpdmReq) (s : State) : Host.Outcome State Fault Refusal :=
  .next (if !s.sec.up then s
  else
    let (k, s) := s.draw
    let reply := s.spdmReply req k
    let s : State := { s with sec := { s.sec with replies := s.sec.replies ++ [reply] } }
    match req with
    | .keyExchange _ =>
      let (n, s) := s.fresh
      { s with sec := { s.sec with sessions := spPut s.sec.sessions n {} } }
    | .finish n => { s with sec := { s.sec with sessions := spMod s.sec.sessions n (fun x => { x with finished := true }) } }
    | .endSession n => { s with sec := { s.sec with sessions := spDel s.sec.sessions n } }
    | .openWorld n f => if reply.ok then s.openWorld n f else s
    | .ideKm _ stream =>
      let (key, s') := s.fresh
      if reply.ok then { s' with sec := { s'.sec with ideKeys := spPut s'.sec.ideKeys stream key } } else s
    | _ => s)

/-- The answer to a change that a session asks for: an acknowledgement, once it has taken effect and been measured, or a refusal. -/
def State.answerChange (s : State) (chg : SessChange) (ok : Bool) : State :=
  let (k, s) := s.draw
  { s with sec := { s.sec with replies := s.sec.replies ++ [{ body := Config.changeBody chg k, ok := ok }] } }

/-- WORLD_SESSION_CHANGE: the world's owner sets a COMPMASK, once an invalidation of the whole context is complete, or a gate; the
world's configuration is measured. -/
def execWorldSessionChange (session first : Nat) (chg : SessChange) (s : State) : Host.Outcome State Fault Refusal :=
  .next (match spGet s.sec.sessions session, spGet s.sec.worlds first with
  | some x, some w =>
    if x.world ≠ some w.num then s.answerChange chg false
    else match chg with
      | .compMask n mask =>
        let c := ctxKey first n
        if 1024 ≤ n || (spGet s.ctxs c).isNone then s.answerChange chg false
        else
          let t := s.wholeContext c
          let s := s.flashClear t
          if s.tinvOpen t then s
          else ((s.modCtx c (fun (y : Ctx) => { y with compmask := mask })).extend (0x30 + first) (n + mask.toNat * 2 ^ 16 + 2 ^ 32)).answerChange chg true
      | .gate id v =>
        if id = 0 ∨ 255 < id then s.answerChange chg false
        else
          let g : Word := BitVec.ofNat 32 (fld v.toNat 17 0)
          let s : State := { s with sec := { s.sec with worlds := spPut s.sec.worlds first { w with gates := spWrite 0 w.gates id g } } }
          (s.extend (0x30 + first) (id + g.toNat * 2 ^ 16 + 2 ^ 48)).answerChange chg true
  | some _, none => s.answerChange chg false
  | none, _ => s)

/-! Links (01 R36; 29 R421, R422). -/

/-- Number of a link direction. -/
def linkNo : LinkId → Nat
  | .ucie st tx => 2 * st + (if tx then 1 else 0)
  | .rosux p tx => 8 + 2 * p + (if tx then 1 else 0)

/-- The link exists. -/
def linkReal : LinkId → Bool
  | .ucie st _ => decide (st < 4)
  | .rosux p _ => decide (p < 12)

/-- The slice that logs a link's events. -/
def linkSlice : LinkId → Nat
  | .ucie st _ => 3 * st
  | .rosux p _ => p

/-- A line poisoned where the device holds it: at its home, or in memory (25 R372). -/
def State.poisonLine (s : State) (la : Nat) : State :=
  let i := paSlice (64 * la)
  if isDevPa (64 * la) && (spGet (s.slice i).deep la).isSome then
    s.modSlice i (fun (v : Slice) => { v with deep := spMod v.deep la (fun (x : DLine) => { x with poison := 3 }) })
  else { s with memPoison := unionNew s.memPoison [2 * la, 2 * la + 1] }

/-- LINK_FLIT_RECEIVE: a flit is counted under its link's key; one whose tag has failed five times poisons its lines. -/
def execLinkFlitReceive (link : LinkId) (tagOk : Bool) (lines : List Nat) (s : State) : Host.Outcome State Fault Refusal :=
  .next (
    let l := linkNo link
    let n := spRead 0 s.sec.flits l
    if !linkReal link || (spGet s.sec.linkKeys l).isNone || decide (2 ^ 48 ≤ n + 1) then s
    else
      let s : State := { s with sec := { s.sec with flits := spWrite 0 s.sec.flits l (n + 1) } }
      if tagOk then s
      else (lines.foldl (fun (s : State) la => s.poisonLine la) s).logError (linkSlice link) 11 8 none 15 0 0 0 0)

/-- LINK_KEY_CHANGE. -/
def execLinkKeyChange (link : LinkId) (s : State) : Host.Outcome State Fault Refusal :=
  .next (if linkReal link && (spGet s.sec.linkKeys (linkNo link)).isSome then s.newLinkKey (linkNo link) else s)

/-- LINK_UP_CHANGE: a port becomes trained and keyed, or loses that state. -/
def execLinkUpChange (port : Nat) (up : Bool) (lanes : Nat) (s : State) : Host.Outcome State Fault Refusal :=
  .next (if !s.presents (s.pfOf port) port || decide (s.slcState port = stOff) || (up && (decide (lanes = 0) || decide (8 < lanes))) then s
  else
    let s := s.modSlice port (fun (v : Slice) => { v with linkUp := up })
    let s := s.setSreg port 0xB000 (BitVec.ofNat 64 (if up then 1 + lanes * 2 else 0))
    if up then (s.newLinkKey (8 + 2 * port)).newLinkKey (9 + 2 * port) else s)

/-! Accesses from outside (13 R209). -/

def bytesNat (l : List Byte) : Nat := l.foldr (fun b n => n * 256 + b.toNat) 0

/-- `n` bytes served at their homes for an agent outside: the answer is kept. -/
def State.serveRead (s : State) (pa n : Nat) : State :=
  let f := s.first (paSlice pa)
  if isDevPa pa then
    let (v, p, s) := s.homeBytes f (ctxKey f 1023) 0 pa n
    { s with answer := (if p = 0 then 0 else 2, v) }
  else { s with answer := (0, Memory.read s.mem pa n) }

def State.serveWrite (s : State) (pa : Nat) (l : List Byte) : State :=
  let f := s.first (paSlice pa)
  let s : State := if isDevPa pa then s.homePut f (ctxKey f 1023) 0 pa l.length (bytesNat l) false
    else { s with mem := Memory.write s.mem pa l.length (bytesNat l) }
  { s with answer := (0, 0) }

/-- The range meets a sealed data range or a carve-out. -/
def State.meetsSealed (s : State) (pa n : Nat) : Bool :=
  (upto (pa / 64) ((pa + n - 1) / 64 + 1 - pa / 64)).any (fun la => s.inSealed (64 * la) || s.inCarve (64 * la))

/-- HOST_ACCESS: an access by physical address waits for a slice in RESET, completes unsupported on a sealed range, and goes through the
home otherwise. -/
def execHostAccess (pa : Nat) (wr : Option (List Byte)) (size : Nat) (s : State) : Host.Outcome State Fault Refusal :=
  .next (
    let n := match wr with | some l => l.length | none => size
    if !s.booted || decide (n = 0) || !(isHostPa pa || isDevPa pa) || (isDevPa pa && !isDevPa (pa + n - 1)) then s
    else if !s.homeOpen pa || !s.homeOpen (pa + n - 1) then s
    else if s.meetsSealed pa n then { s with answer := (1, 0) }
    else match wr with
      | some l => s.serveWrite pa l
      | none => s.serveRead pa size)

/-- The bytes of a peer's access and the bit of LINK_INCTL that it needs. -/
def linkNeeds : LinkAcc → Nat × Nat
  | .read n => (n, 0)
  | .write l => (l.length, 1)
  | .atomic op _ _ => (if atomWide op then 8 else 4, 2)

/-- LINK_INBOUND_ACCESS: an access at an offset of the port's window is served at the local home, or completes with an error. -/
def execLinkInboundAccess (port off : Nat) (acc : LinkAcc) (s : State) : Host.Outcome State Fault Refusal :=
  .next (
    let (n, bit) := linkNeeds acc
    let pa := (s.sreg port 0xB008).toNat + off
    let f := s.first port
    let inPart (a : Nat) : Bool := isDevPa a && (s.partSlices f).contains (paSlice a)
    if !(s.slice port).linkUp || decide (n = 0) then s
    else if (s.sreg port 0xB010).toNat * 0x200000 < off + n ∨ fld (s.sreg port 0xB014).toNat bit bit = 0 ∨
        inPart pa = false ∨ inPart (pa + n - 1) = false then { s with answer := (1, 0) }
    else if s.meetsSealed pa n then { s with answer := (2, 0) }
    else if !s.homeOpen pa || !s.homeOpen (pa + n - 1) then s
    else match acc with
      | .read k => s.serveRead pa k
      | .write l => s.serveWrite pa l
      | .atomic op x y =>
        if pa % n ≠ 0 then { s with answer := (1, 0) }
        else
          let w : Who := { core := coreKey f 0, team := 0, ctx := ctxKey f 1023, first := f }
          let v := x.toNat % 2 ^ (8 * n) + y.toNat * 2 ^ (8 * n)
          match s.rmwGlb w op 1 v pa 0 0 false with
          | (some old, s) => { s with answer := (0, old) }
          | (none, s) => { s with answer := (2, 0) })

end Sys2Proof.Machine
end

