-- ==== Sys2Proof/Machine/Registers.lean ====
section
/-! DEFINITION. Register writes (00 R5-R7, R444; 01 R33, R34; 27 R397): the register map of a slice block and of the physical function,
and what a write of each register does. -/

namespace Sys2Proof.Machine

/-- How a register takes writes (00 R5). -/
inductive RegKind where
  | rw | ro | wo
deriving DecidableEq, Repr

/-- A register of a block: offset, bytes, writable bits, and whether it is locked, for the physical function only, or one for the whole
partition. -/
structure RegSpec where
  off : Nat
  width : Nat
  kind : RegKind := .rw
  mask : Nat := 2 ^ 64 - 1
  locked : Bool := false
  pfOnly : Bool := false
  part : Bool := false
deriving DecidableEq, Repr

/-! Register maps. -/

/-- Registers of a slice block that stand alone. -/
def sliceRegs : List RegSpec :=
  [{ off := 0x0000, width := 4, kind := .ro }, { off := 0x0004, width := 4, kind := .wo }, { off := 0x0008, width := 4, kind := .ro },
   { off := 0x1000, width := 8, locked := true, part := true }, { off := 0x1008, width := 8, locked := true, part := true },
   { off := 0x1010, width := 4, kind := .wo, part := true }, { off := 0x1018, width := 4, part := true },
   { off := 0x101C, width := 4, part := true }, { off := 0x1020, width := 4, part := true },
   { off := 0x1024, width := 4, kind := .wo, part := true }, { off := 0x1028, width := 4, mask := 0x3FF, part := true },
   { off := 0x1030, width := 8, part := true }, { off := 0x1038, width := 8, part := true }] ++
  [{ off := 0x2000, width := 8, locked := true, part := true }, { off := 0x2008, width := 4, locked := true, part := true },
   { off := 0x200C, width := 4, kind := .ro, part := true }, { off := 0x2010, width := 4, part := true },
   { off := 0x2018, width := 8, kind := .wo, part := true }, { off := 0x2020, width := 8, mask := 0x3FFFFFFFF0000, part := true },
   { off := 0x2028, width := 8, mask := 0xFFFFFFFFF0000, part := true }, { off := 0x2030, width := 4, kind := .wo, part := true },
   { off := 0x2034, width := 4, kind := .ro, part := true }] ++
  [{ off := 0x3000, width := 8, kind := .ro }, { off := 0x3010, width := 8, locked := true, part := true },
   { off := 0x3018, width := 4, locked := true, part := true }, { off := 0x301C, width := 4, kind := .ro, part := true },
   { off := 0x3020, width := 4, part := true }, { off := 0x3024, width := 4, kind := .ro, part := true },
   { off := 0x4400, width := 4 }, { off := 0x4404, width := 4 }, { off := 0x4408, width := 4 }, { off := 0x440C, width := 4 },
   { off := 0x4410, width := 4 }] ++
  [{ off := 0x5000, width := 8, locked := true, part := true }, { off := 0x5008, width := 4, mask := 0x1FF, pfOnly := true },
   { off := 0x500C, width := 4, pfOnly := true }, { off := 0x5010, width := 4, mask := 0x3FF, pfOnly := true },
   { off := 0x6000, width := 4, kind := .wo, pfOnly := true }] ++
  [{ off := 0x8000, width := 4, pfOnly := true }, { off := 0x8008, width := 4, kind := .wo, pfOnly := true },
   { off := 0x800C, width := 4, kind := .ro, pfOnly := true }, { off := 0x8010, width := 4, kind := .ro, pfOnly := true },
   { off := 0x8018, width := 8, pfOnly := true }, { off := 0x8020, width := 4, kind := .wo, pfOnly := true },
   { off := 0x8024, width := 4, kind := .ro, pfOnly := true }, { off := 0x8028, width := 8, kind := .ro, pfOnly := true },
   { off := 0x8030, width := 4, kind := .ro, pfOnly := true }] ++
  [{ off := 0xB000, width := 4, kind := .ro, pfOnly := true }, { off := 0xB008, width := 8, mask := 0xFFFFFFFE00000, pfOnly := true },
   { off := 0xB010, width := 4, pfOnly := true }, { off := 0xB014, width := 4, mask := 7, pfOnly := true }]

/-- Registers of a repeated block, at their offsets in it. -/
def monRegs : List RegSpec := { off := 0, width := 4 } :: (upto 1 19).map (fun n => { off := 4 * n, width := 4, kind := .ro })
def leaseRegs : List RegSpec := [{ off := 0, width := 4, kind := .ro, pfOnly := true }, { off := 8, width := 8, kind := .ro, pfOnly := true }]
def ceRegs : List RegSpec :=
  [{ off := 0x00, width := 8 }, { off := 0x08, width := 4 }, { off := 0x0C, width := 4, kind := .ro }, { off := 0x10, width := 4 },
   { off := 0x18, width := 8, kind := .ro }, { off := 0x20, width := 4, kind := .ro }]
def encRegs : List RegSpec :=
  [{ off := 0x00, width := 4 }, { off := 0x04, width := 4, mask := 0x1FFF1FFF }, { off := 0x08, width := 4 },
   { off := 0x0C, width := 4, mask := 0xFFFFFF }, { off := 0x10, width := 8 }, { off := 0x18, width := 4, mask := 0x3FF },
   { off := 0x20, width := 8 }, { off := 0x28, width := 4, mask := 0x1F }, { off := 0x2C, width := 4, kind := .ro },
   { off := 0x30, width := 4 }, { off := 0x38, width := 8 }, { off := 0x40, width := 4 }, { off := 0x44, width := 4, kind := .ro },
   { off := 0x48, width := 4 }]

/-- The register of a list that holds a byte. -/
def regHolding (l : List RegSpec) (o : Nat) : Option RegSpec := l.find? (fun r => decide (r.off ≤ o) && decide (o < r.off + r.width))

/-- The register of a block repeated at `base + step × k`, k below `n`. -/
def repeated (l : List RegSpec) (base step n o : Nat) : Option RegSpec :=
  if o < base ∨ base + step * n ≤ o then none
  else (regHolding l ((o - base) % step)).map (fun r => { r with off := (o - base) / step * step + base + r.off })

/-- The register of a slice block that holds a byte. -/
def sliceRegAt (o : Nat) : Option RegSpec :=
  if 0x100 ≤ o ∧ o < 0x100 + 0x80 * 12 then
    (if (o - 0x100) % 0x80 < 68 then some { off := o / 4 * 4, width := 4, mask := 0x3FFFF, locked := true } else none)
  else if 0x4000 ≤ o ∧ o < 0x4400 then repeated monRegs 0x4000 0x80 8 o
  else if 0x6100 ≤ o ∧ o < 0x6200 then repeated leaseRegs 0x6100 16 16 o
  else if 0x7000 ≤ o ∧ o < 0x7600 then repeated ceRegs 0x7000 0x40 24 o
  else if 0xA000 ≤ o ∧ o < 0xA800 then repeated encRegs 0xA000 0x80 16 o
  else regHolding sliceRegs o

/-- Registers of a physical log's block (25 R380). -/
def logRegs : List RegSpec :=
  [{ off := 0x10, width := 8, locked := true }, { off := 0x18, width := 4, locked := true }, { off := 0x1C, width := 4, kind := .ro },
   { off := 0x20, width := 4 }, { off := 0x24, width := 4, kind := .ro }]

/-- Registers of the physical function's BAR 0 that stand alone. -/
def pfRegs : List RegSpec :=
  [{ off := 0x3000, width := 4 }, { off := 0x3400, width := 4, kind := .wo }, { off := 0x3404, width := 4, kind := .ro },
   { off := 0x3408, width := 8, kind := .ro }, { off := 0x3410, width := 8, kind := .wo }, { off := 0x3418, width := 4, kind := .wo },
   { off := 0x3420, width := 8 }, { off := 0x3428, width := 4, kind := .ro }, { off := 0x3600, width := 4, kind := .wo },
   { off := 0x3604, width := 4, kind := .ro }]

def pfRegAt (o : Nat) : Option RegSpec :=
  if 0x3100 ≤ o ∧ o < 0x3400 then repeated logRegs 0x3100 0x40 12 o
  else if 0x3500 ≤ o ∧ o < 0x3560 then some { off := o / 4 * 4, width := 4 }
  else regHolding pfRegs o

/-! Writes in bytes (00 R444). -/

/-- Registers that an access of `size` bytes at `off` meets, in ascending order. -/
def regsMet (find : Nat → Option RegSpec) (off size : Nat) : List RegSpec :=
  (upto off size).foldl (fun (l : List RegSpec) o => match find o with
    | some r => if l.contains r then l else l ++ [r]
    | none => l) []

/-- The register's value with the covered bytes replaced. -/
def regMerge (r : RegSpec) (cur off size v : Nat) : Nat :=
  (List.range r.width).foldl (fun n b =>
    let at_ := r.off + b
    n + (if off ≤ at_ ∧ at_ < off + size then v / 2 ^ (8 * (at_ - off)) % 256 else cur / 2 ^ (8 * b) % 256) * 2 ^ (8 * b)) 0

/-- The access covers the whole register. -/
def regWhole (r : RegSpec) (off size : Nat) : Bool := decide (off ≤ r.off) && decide (r.off + r.width ≤ off + size)

/-- A locked register rejects a write (27 R399). -/
def State.lockedWrite (s : State) (i : Nat) : State :=
  (s.partSlices (s.first i)).foldl (fun (s : State) j =>
    let v := (s.sreg j 8).toNat
    s.setSreg j 8 (BitVec.ofNat 64 (setFld (setFld v 7 0 ctlLockedWrite) 31 16 (Nat.min (fld v 31 16 + 1) 0xFFFF)))) s

/-- The bits of a register that a write covers. -/
def regCover (r : RegSpec) (off size : Nat) : Nat := regMerge r 0 off size (2 ^ (8 * size) - 1)

/-- LOG2N and EN of a ring's control register after a write that covers the bits `cov`, and whether the write is counted: a LOG2N
outside 5 to `hi` stays. -/
def ringCtl (hi old v cov : Nat) : Nat × Bool :=
  let n := fld v 4 0
  let bad := fld cov 0 0 == 1 && (decide (n < 5) || decide (hi < n))
  ((if bad then fld old 4 0 else n) + fld v 8 8 * 256, bad || fld v 7 5 != 0 || fld v 31 9 != 0)

/-! Pool-engine registers (27 R405). -/

/-- The j-th engine that a partition owns. -/
def State.ownedCe (s : State) (f j : Nat) : Option Nat := ((List.range 24).filter (fun e => s.ceOwner e = some f))[j]?

/-- CE_CTL after a write that covers the bits `cov`, and whether it is counted: EN cannot be set while LOG2N is below 5. -/
def ceCtlValue (old v cov : Nat) : Nat × Bool :=
  let n := fld v 3 0
  let bad := fld cov 0 0 == 1 && (decide (n < 5) || decide (12 < n))
  let m := if bad then fld old 3 0 else n
  (m + (if m < 5 then 0 else fld v 8 8) * 256, bad || fld v 7 4 != 0 || fld v 31 9 != 0)

def State.ceRegRead (s : State) (f j off : Nat) : Nat :=
  match s.ownedCe f j with
  | none => 0
  | some e =>
    let x := s.ce e
    if off = 0 then x.base.toNat else if off = 8 then x.ctl.toNat else if off = 0x0C then x.head.toNat
    else if off = 0x10 then x.tail.toNat else if off = 0x18 then x.erraddr.toNat else if off = 0x20 then x.stat.toNat else 0

def State.ceRegWrite (s : State) (f j off v cov : Nat) : State :=
  match s.ownedCe f j with
  | none => s
  | some e =>
    let x := s.ce e
    if off = 0 then s.setCe e { x with base := BitVec.ofNat 64 v }
    else if off = 8 then
      let (n, bad) := ceCtlValue x.ctl.toNat v cov
      let s := if bad then s.count f diagRsvw else s
      s.setCe e { x with ctl := BitVec.ofNat 32 n }
    else if off = 0x10 then s.ceTail e (BitVec.ofNat 32 v)
    else s

/-! Slice blocks. -/

/-- LEASEk_STAT and LEASEk_METER (27 R414). -/
def State.leaseRead (s : State) (i o : Nat) : Nat :=
  let l := (s.core (coreKey i (o / 16))).lease
  if o % 16 = 0 then l.st + l.first * 16 + l.ctx * 256 else l.meter

/-- A register's current value, as a read returns it. -/
def State.sliceRegValue (s : State) (i : Nat) (r : RegSpec) : Nat :=
  let f := s.first i
  let j := if r.part then f else i
  if 0x100 ≤ r.off ∧ r.off < 0x700 then (s.sreg (f + (r.off - 0x100) / 0x80) (0x100 + (r.off - 0x100) % 0x80)).toNat
  else if r.off = 0x1030 then (if (spGet s.ctxs (s.tmCtx i)).isSome then s.vtime (s.tmCtx i) else 0)
  else if r.off = 0x1038 then (s.ctx (s.tmCtx i)).clockCount
  else if 0x6100 ≤ r.off ∧ r.off < 0x6200 then s.leaseRead i (r.off - 0x6100)
  else if 0x7000 ≤ r.off ∧ r.off < 0x7600 then s.ceRegRead f ((r.off - 0x7000) / 0x40) ((r.off - 0x7000) % 0x40)
  else if r.off = 0x8018 then fld (s.sreg j r.off).toNat 51 6 * 64
  else (s.sreg j r.off).toNat

/-- What a partial write of a register merges with: SEAL_DADDR keeps its MBZ bits, which SEAL_DCMD looks at (30 R440, R441) and no
read shows. -/
def State.storedReg (s : State) (i : Nat) (r : RegSpec) : Nat := if r.off = 0x8018 then (s.sreg i 0x8018).toNat else s.sliceRegValue i r

/-- A plain RW register takes a value; bits that are MBZ are counted and dropped (00 R6). -/
def State.plainReg (s : State) (j : Nat) (r : RegSpec) (v : Nat) : State :=
  let keep := v &&& r.mask
  let s := if keep = v then s else s.count j diagRsvw
  s.setSreg j r.off (BitVec.ofNat 64 keep)

/-- A register of an encoder stream other than ENC_CFG: while EN = 1 only the two tails may be written (19 R320). -/
def State.encRegWrite (s : State) (i : Nat) (r : RegSpec) (v : Nat) : State :=
  let k := (r.off - 0xA000) / 0x80
  let o := (r.off - 0xA000) % 0x80
  if o = 0 then s.encCfgSet i k v
  else if fld (s.encReg i k encCfg) 0 0 = 1 ∧ o ≠ encCrtail ∧ o ≠ encBstail then s.status i ctlBadState
  else s.plainReg i r v

/-- A write of a read-only register does nothing, but for the two heads of an encoder stream while EN = 1 (19 R320). -/
def State.encRoWrite (s : State) (i : Nat) (r : RegSpec) : State :=
  if 0xA000 ≤ r.off ∧ r.off < 0xA800 ∧ fld (s.encReg i ((r.off - 0xA000) / 0x80) encCfg) 0 0 = 1 then s.status i ctlBadState else s

/-- A value written to a register of slice `i`'s block through a function; `cov` has the bits that the write covers, the others are
the stored ones. -/
def State.sliceRegWrite (s : State) (fn : Func) (i : Nat) (r : RegSpec) (v cov : Nat) : State :=
  let f := s.first i
  let o := r.off
  if 0x100 ≤ o ∧ o < 0x700 then
    (let j := f + (o - 0x100) / 0x80
     if f + s.psize f ≤ j then s else s.plainReg j { r with off := 0x100 + (o - 0x100) % 0x80 } v)
  else if 0x4000 ≤ o ∧ o < 0x4400 then s.monCtlSet i ((o - 0x4000) / 0x80) v
  else if 0x7000 ≤ o ∧ o < 0x7600 then s.ceRegWrite f ((o - 0x7000) / 0x40) ((o - 0x7000) % 0x40) v cov
  else if 0xA000 ≤ o ∧ o < 0xA800 then s.encRegWrite i r v
  else match o with
  | 0x0004 => s.slcCtl fn i v
  | 0x1010 => s.ctxCmd i v
  | 0x1018 => if 60 ≤ v ∧ v ≤ 125 then s.setSreg f 0x1018 (BitVec.ofNat 64 v) else s.count f diagRsvw
  | 0x1024 => s.pauseCmd i v
  | 0x1030 => s.setVtval i v
  | 0x1038 => s.setCkval i v
  | 0x2008 | 0x3018 =>
    let (n, bad) := ringCtl 16 (s.sreg f o).toNat v cov
    (if bad then s.count f diagRsvw else s).setSreg f o (BitVec.ofNat 64 n)
  | 0x2018 => s.fresp f v
  | 0x2030 => s.tinvCmd i v (fld v 13 12)
  | 0x500C => s.qosFab fn i v
  | 0x6000 => s.leaseCmd i v
  | 0x8000 => s.sealSize fn i v
  | 0x8008 => s.sealCmd fn i v
  | 0x8018 =>
    let s := if fld (v &&& cov) 5 0 ≠ 0 ∨ fld (v &&& cov) 63 52 ≠ 0 then s.count i diagRsvw else s
    s.setSreg i 0x8018 (BitVec.ofNat 64 v)
  | 0x8020 => s.sealDcmd fn i v
  | _ => s.plainReg (if r.part then f else i) r v

/-- One register of a slice block meets a write of `size` bytes at `off`. -/
def State.sliceMeet (s : State) (fn : Func) (i off size v : Nat) (r : RegSpec) : State :=
  if r.pfOnly && !isPf fn then s.status i ctlPfOnly
  else match r.kind with
  | .ro => s.encRoWrite i r
  | .wo => if regWhole r off size then s.sliceRegWrite fn i r (regMerge r 0 off size v) (2 ^ 64 - 1) else s.count i diagRsvw
  | .rw =>
    if r.locked && decide (s.slcState i ≠ stOpen) then s.lockedWrite i
    else s.sliceRegWrite fn i r (regMerge r (s.storedReg i r) off size v) (regCover r off size)

/-- A write to slice `i`'s block; a slice without power takes requests only, and rejects writes of locked registers (01 R23). -/
def State.sliceWrite (s : State) (fn : Func) (i off size v : Nat) : State :=
  (regsMet sliceRegAt off size).foldl (fun (s : State) r =>
    if s.slcState i = stOff ∧ r.off ≠ 4 ∧ r.locked = false then s else s.sliceMeet fn i off size v r) s

/-! The physical function's BAR 0. -/

/-- A value written to a register of the physical function; `cov` as above. -/
def State.pfRegWrite (s : State) (r : RegSpec) (v cov : Nat) : State :=
  let o := r.off
  if 0x3100 ≤ o ∧ o < 0x3400 then
    (let i := (o - 0x3100) / 0x40
     if (o - 0x3100) % 0x40 = 0x18 then
       let (n, bad) := ringCtl 16 (s.pfreg o).toNat v cov
       (if bad then s.count i diagRsvw else s).setPfreg o (BitVec.ofNat 64 n)
     else s.setPfreg o (BitVec.ofNat 64 v))
  else if 0x3500 ≤ o ∧ o < 0x3560 then s.ceOwn ((o - 0x3500) / 4) v
  else match o with
  | 0x3400 => s.partCmd v
  | 0x3410 => s.setTime v
  | 0x3418 => s.fwCmd v
  | 0x3600 => s.worldCmd v
  | _ => s.setPfreg o (BitVec.ofNat 64 v)

/-- One register of the physical function meets a write. -/
def State.pfMeet (s : State) (off size v : Nat) (r : RegSpec) : State :=
  match r.kind with
  | .ro => s
  | .wo => if regWhole r off size then s.pfRegWrite r (regMerge r 0 off size v) (2 ^ 64 - 1) else s.count 0 diagRsvw
  | .rw =>
    let i := (r.off - 0x3100) / 0x40
    if r.locked && decide (s.slcState i ≠ stOpen) then s.lockedWrite i
    else s.pfRegWrite r (regMerge r (s.pfreg r.off).toNat off size v) (regCover r off size)

/-! Register reads (00 R5, R444; 01 R33, R34). A read changes no register. -/

/-- The bytes of the registers met, each from its value; a write-only register and a place without register read as zero. -/
def readMet (l : List RegSpec) (value : RegSpec → Nat) (off size : Nat) : Nat :=
  (List.range size).foldl (fun n b =>
    let o := off + b
    n + (match l.find? (fun r => decide (r.off ≤ o) && decide (o < r.off + r.width)) with
      | some r => if r.kind = .wo then 0 else value r / 2 ^ (8 * (o - r.off)) % 256
      | none => 0) * 2 ^ (8 * b)) 0

def State.sliceRead (s : State) (i off size : Nat) : Nat :=
  readMet (regsMet sliceRegAt off size) (fun r =>
    if 0x100 ≤ r.off ∧ r.off < 0x700 ∧ s.psize (s.first i) ≤ (r.off - 0x100) / 0x80 then 0 else s.sliceRegValue i r) off size

def State.pfRead (s : State) (off size : Nat) : Nat :=
  readMet (regsMet pfRegAt off size) (fun r => if r.off = 0x3408 then s.time else (s.pfreg r.off).toNat) off size

/-- A register read of `size` bytes in a function's BAR; none where it completes as unsupported. -/
def State.barRead (s : State) (fn : Func) (bar off size : Nat) : Option Nat :=
  match fn with
  | .pf =>
    if !s.booted then none
    else if bar = 0 then some (s.pfRead off size)
    else if bar = 2 && s.presents .pf (off / 0x80000) then some (s.sliceRead (off / 0x80000) (off % 0x80000) size)
    else some 0
  | .pf2 =>
    if !s.booted || !s.bifurcated then none
    else if bar = 2 && s.presents .pf2 (off / 0x80000 + 6) then some (s.sliceRead (off / 0x80000 + 6) (off % 0x80000) size)
    else some 0
  | .vf i =>
    if !s.presents (.vf i) i then none
    else if bar = 0 ∧ off < 0x80000 then some (s.sliceRead i off size)
    else some 0

/-- A config read of a virtual function: its absorbed status (01 R33; 27 R404); none where the port presents no such function. -/
def State.configRead (s : State) (fn : Func) : Option Bool :=
  match fn with
  | .vf i => if s.booted && decide (i < 12) then some (fld (s.sreg i 0).toNat 4 4 == 1) else none
  | .pf => if s.booted then some false else none
  | .pf2 => if s.booted && s.bifurcated then some false else none

/-- An access in whole bytes, aligned to its own size. -/
def accessGood (off size : Nat) : Bool := (size == 1 || size == 2 || size == 4 || size == 8) && decide (off % size = 0)

/-- REGISTER_WRITE: a write to a function's BAR (01 R33, R34). A doorbell that is not an aligned 8-byte write is one of the wrong size. -/
def execRegisterWrite (fn : Func) (bar off size : Nat) (value : DWord) (s : State) : Host.Outcome State Fault Refusal :=
  .next (
    let v := value.toNat % 2 ^ (8 * size)
    match fn with
    | .pf =>
      if !s.booted || !accessGood off size then s
      else if bar = 0 then (regsMet pfRegAt off size).foldl (fun (s : State) r => s.pfMeet off size v r) s
      else if bar = 2 && s.presents .pf (off / 0x80000) then s.sliceWrite .pf (off / 0x80000) (off % 0x80000) size v
      else s
    | .pf2 =>
      if bar = 2 && accessGood off size && s.presents .pf2 (off / 0x80000 + 6) then
        s.sliceWrite .pf2 (off / 0x80000 + 6) (off % 0x80000) size v
      else s
    | .vf i =>
      if bar ≠ 0 || !s.presents (.vf i) i then s
      else if 0x80000 ≤ off ∧ off < 0xA0000 then
        (if s.slcState i = stOff then s
         else s.doorbell (s.first i) ((off - 0x80000) / 8) (if off % 8 = 0 then size else 0) v)
      else if off < 0x80000 ∧ accessGood off size = true then s.sliceWrite (.vf i) i off size v
      else s)

end Sys2Proof.Machine
end

