-- ==== Sys2Proof/Machine/Dispatch.lean ====
section
/-! DEFINITION. The meaning of each instruction and event: one arm per constructor of Instr. -/

namespace Sys2Proof.Machine

def exec (i : Instr) (s : State) : Host.Outcome State Fault Refusal :=
  match i with
  | .addB32 g d a b => Sys2Proof.Machine.execAddB32 g d a b s
  | .subB32 g d a b => Sys2Proof.Machine.execSubB32 g d a b s
  | .addB64 g d a b => Sys2Proof.Machine.execAddB64 g d a b s
  | .subB64 g d a b => Sys2Proof.Machine.execSubB64 g d a b s
  | .mulB32 g d a b => Sys2Proof.Machine.execMulB32 g d a b s
  | .mulhS32 g d a b => Sys2Proof.Machine.execMulhS32 g d a b s
  | .mulhZ32 g d a b => Sys2Proof.Machine.execMulhZ32 g d a b s
  | .mulxS32 g d a b => Sys2Proof.Machine.execMulxS32 g d a b s
  | .macB32 g d a b => Sys2Proof.Machine.execMacB32 g d a b s
  | .macxS32 g d a b => Sys2Proof.Machine.execMacxS32 g d a b s
  | .andB32 g d a b => Sys2Proof.Machine.execAndB32 g d a b s
  | .orB32 g d a b => Sys2Proof.Machine.execOrB32 g d a b s
  | .xorB32 g d a b => Sys2Proof.Machine.execXorB32 g d a b s
  | .andn g d a b => Sys2Proof.Machine.execAndn g d a b s
  | .shl g d a b => Sys2Proof.Machine.execShl g d a b s
  | .shr g d a b => Sys2Proof.Machine.execShr g d a b s
  | .sar g d a b => Sys2Proof.Machine.execSar g d a b s
  | .rol g d a b => Sys2Proof.Machine.execRol g d a b s
  | .minS32 g d a b => Sys2Proof.Machine.execMinS32 g d a b s
  | .maxS32 g d a b => Sys2Proof.Machine.execMaxS32 g d a b s
  | .minZ32 g d a b => Sys2Proof.Machine.execMinZ32 g d a b s
  | .maxZ32 g d a b => Sys2Proof.Machine.execMaxZ32 g d a b s
  | .cmpS32 g pt pf lt a b => Sys2Proof.Machine.execCmpS32 g pt pf lt a b s
  | .cmpS64 g pt pf lt a b => Sys2Proof.Machine.execCmpS64 g pt pf lt a b s
  | .cmpZ32 g pt pf lt a b => Sys2Proof.Machine.execCmpZ32 g pt pf lt a b s
  | .cmpZ64 g pt pf lt a b => Sys2Proof.Machine.execCmpZ64 g pt pf lt a b s
  | .cmpF32 g pt pf lt a b => Sys2Proof.Machine.execCmpF32 g pt pf lt a b s
  | .cmpF64 g pt pf lt a b => Sys2Proof.Machine.execCmpF64 g pt pf lt a b s
  | .selB32 sg d a b => Sys2Proof.Machine.execSelB32 sg d a b s
  | .selB64 sg d a b => Sys2Proof.Machine.execSelB64 sg d a b s
  | .unopB32 g d a fn => Sys2Proof.Machine.execUnopB32 g d a fn s
  | .unopB64 g d a fn => Sys2Proof.Machine.execUnopB64 g d a fn s
  | .bfe g d a b => Sys2Proof.Machine.execBfe g d a b s
  | .bfi g d a b => Sys2Proof.Machine.execBfi g d a b s
  | .shflIdx g d a b => Sys2Proof.Machine.execShflIdx g d a b s
  | .shflXor g d a b => Sys2Proof.Machine.execShflXor g d a b s
  | .addrS g d a b => Sys2Proof.Machine.execAddrS g d a b s
  | .addrZ g d a b => Sys2Proof.Machine.execAddrZ g d a b s
  | .addi g d a imm => Sys2Proof.Machine.execAddi g d a imm s
  | .andi g d a imm => Sys2Proof.Machine.execAndi g d a imm s
  | .ori g d a imm => Sys2Proof.Machine.execOri g d a imm s
  | .xori g d a imm => Sys2Proof.Machine.execXori g d a imm s
  | .shi g d a k n => Sys2Proof.Machine.execShi g d a k n s
  | .movi g d imm => Sys2Proof.Machine.execMovi g d imm s
  | .movB32 g d a => Sys2Proof.Machine.execMovB32 g d a s
  | .movB64 g d a => Sys2Proof.Machine.execMovB64 g d a s
  | .cvt p g d a c => Sys2Proof.Machine.execCvt p g d a c s
  | .cvtSat p g d a c => Sys2Proof.Machine.execCvtSat p g d a c s
  | .faddF32 p g d a b => Sys2Proof.Machine.execFaddF32 p g d a b s
  | .fsubF32 p g d a b => Sys2Proof.Machine.execFsubF32 p g d a b s
  | .fmulF32 p g d a b => Sys2Proof.Machine.execFmulF32 p g d a b s
  | .fdivF32 p g d a b => Sys2Proof.Machine.execFdivF32 p g d a b s
  | .fmaF32 p g d a b => Sys2Proof.Machine.execFmaF32 p g d a b s
  | .fmsF32 p g d a b => Sys2Proof.Machine.execFmsF32 p g d a b s
  | .fminF32 p g d a b => Sys2Proof.Machine.execFminF32 p g d a b s
  | .fmaxF32 p g d a b => Sys2Proof.Machine.execFmaxF32 p g d a b s
  | .faddF64 p g d a b => Sys2Proof.Machine.execFaddF64 p g d a b s
  | .fsubF64 p g d a b => Sys2Proof.Machine.execFsubF64 p g d a b s
  | .fmulF64 p g d a b => Sys2Proof.Machine.execFmulF64 p g d a b s
  | .fdivF64 p g d a b => Sys2Proof.Machine.execFdivF64 p g d a b s
  | .fmaF64 p g d a b => Sys2Proof.Machine.execFmaF64 p g d a b s
  | .fmsF64 p g d a b => Sys2Proof.Machine.execFmsF64 p g d a b s
  | .fminF64 p g d a b => Sys2Proof.Machine.execFminF64 p g d a b s
  | .fmaxF64 p g d a b => Sys2Proof.Machine.execFmaxF64 p g d a b s
  | .fsqrtF32 p g d a => Sys2Proof.Machine.execFsqrtF32 p g d a s
  | .fsqrtF64 p g d a => Sys2Proof.Machine.execFsqrtF64 p g d a s
  | .ffnF32 p g d a fn => Sys2Proof.Machine.execFfnF32 p g d a fn s
  | .ffnF16 p g d a fn => Sys2Proof.Machine.execFfnF16 p g d a fn s
  | .pfmaF32x2 p g d a b => Sys2Proof.Machine.execPfmaF32x2 p g d a b s
  | .pfmaBf16x2 p g d a b => Sys2Proof.Machine.execPfmaBf16x2 p g d a b s
  | .paddF32x2 p g d a b => Sys2Proof.Machine.execPaddF32x2 p g d a b s
  | .pmulF32x2 p g d a b => Sys2Proof.Machine.execPmulF32x2 p g d a b s
  | .fclass p g d a b => Sys2Proof.Machine.execFclass p g d a b s
  | .fscale p g d a b => Sys2Proof.Machine.execFscale p g d a b s
  | .plog g lut pd pa pb => Sys2Proof.Machine.execPlog g lut pd pa pb s
  | .pmov g d a mask => Sys2Proof.Machine.execPmov g d a mask s
  | .xset g k a => Sys2Proof.Machine.execXset g k a s
  | .xget g d k => Sys2Proof.Machine.execXget g d k s
  | .dot4S8 p g d a b => Sys2Proof.Machine.execDot4S8 p g d a b s
  | .dot2Bf16 p g d a b => Sys2Proof.Machine.execDot2Bf16 p g d a b s
  | .ld p g l d a w => Sys2Proof.Machine.execLd p g l d a w s
  | .st p g l d a w => Sys2Proof.Machine.execSt p g l d a w s
  | .atom p g l d a op => Sys2Proof.Machine.execAtom p g l d a op s
  | .red p g l d a op => Sys2Proof.Machine.execRed p g l d a op s
  | .xacc p g l d a fn => Sys2Proof.Machine.execXacc p g l d a fn s
  | .xrnd p g l d a f32 m => Sys2Proof.Machine.execXrnd p g l d a f32 m s
  | .tld g l d a w nofb => Sys2Proof.Machine.execTld g l d a w nofb s
  | .smp g l d a w nofb => Sys2Proof.Machine.execSmp g l d a w nofb s
  | .rtbox g l d a box spill => Sys2Proof.Machine.execRtbox g l d a box spill s
  | .rttri g l d a cullb => Sys2Proof.Machine.execRttri g l d a cullb s
  | .fe p g l d a fn => Sys2Proof.Machine.execFe p g l d a fn s
  | .gaddB32 g d a b => Sys2Proof.Machine.execGaddB32 g d a b s
  | .gsubB32 g d a b => Sys2Proof.Machine.execGsubB32 g d a b s
  | .gaddB64 g d a b => Sys2Proof.Machine.execGaddB64 g d a b s
  | .gsubB64 g d a b => Sys2Proof.Machine.execGsubB64 g d a b s
  | .gmulB32 g d a b => Sys2Proof.Machine.execGmulB32 g d a b s
  | .gmulhS32 g d a b => Sys2Proof.Machine.execGmulhS32 g d a b s
  | .gand g d a b => Sys2Proof.Machine.execGand g d a b s
  | .gor g d a b => Sys2Proof.Machine.execGor g d a b s
  | .gxor g d a b => Sys2Proof.Machine.execGxor g d a b s
  | .gandn g d a b => Sys2Proof.Machine.execGandn g d a b s
  | .gshl g d a b => Sys2Proof.Machine.execGshl g d a b s
  | .gshr g d a b => Sys2Proof.Machine.execGshr g d a b s
  | .gminS32 g d a b => Sys2Proof.Machine.execGminS32 g d a b s
  | .gmaxS32 g d a b => Sys2Proof.Machine.execGmaxS32 g d a b s
  | .gcmpS32 g pt pf lt a b => Sys2Proof.Machine.execGcmpS32 g pt pf lt a b s
  | .gcmpZ32 g pt pf lt a b => Sys2Proof.Machine.execGcmpZ32 g pt pf lt a b s
  | .gaddi g d a imm => Sys2Proof.Machine.execGaddi g d a imm s
  | .gmovi g d imm => Sys2Proof.Machine.execGmovi g d imm s
  | .gmov g d a => Sys2Proof.Machine.execGmov g d a s
  | .gsel sg d a b => Sys2Proof.Machine.execGsel sg d a b s
  | .sreg g d r => Sys2Proof.Machine.execSreg g d r s
  | .sregw g r b => Sys2Proof.Machine.execSregw g r b s
  | .ctl g d r => Sys2Proof.Machine.execCtl g d r s
  | .ctlw g r b => Sys2Proof.Machine.execCtlw g r b s
  | .bra g off => Sys2Proof.Machine.execBra g off s
  | .call g off => Sys2Proof.Machine.execCall g off s
  | .jmpr g a => Sys2Proof.Machine.execJmpr g a s
  | .ret g => Sys2Proof.Machine.execRet g s
  | .join g k => Sys2Proof.Machine.execJoin g k s
  | .leave g k => Sys2Proof.Machine.execLeave g k s
  | .waitm g k => Sys2Proof.Machine.execWaitm g k s
  | .mrd g d k => Sys2Proof.Machine.execMrd g d k s
  | .mwr g k a => Sys2Proof.Machine.execMwr g k a s
  | .vote g d p kind => Sys2Proof.Machine.execVote g d p kind s
  | .gred g d a op => Sys2Proof.Machine.execGred g d a op s
  | .gscan g d a ex op => Sys2Proof.Machine.execGscan g d a ex op s
  | .spawn g a b => Sys2Proof.Machine.execSpawn g a b s
  | .spawnh g a b => Sys2Proof.Machine.execSpawnh g a b s
  | .exit g => Sys2Proof.Machine.execExit g s
  | .yield g => Sys2Proof.Machine.execYield g s
  | .phreg g role a => Sys2Proof.Machine.execPhreg g role a s
  | .phdereg g role a => Sys2Proof.Machine.execPhdereg g role a s
  | .phInit g l d a => Sys2Proof.Machine.execPhInit g l d a s
  | .phArrive g l d a => Sys2Proof.Machine.execPhArrive g l d a s
  | .phArrwait g l p a => Sys2Proof.Machine.execPhArrwait g l p a s
  | .phWait g l p a => Sys2Proof.Machine.execPhWait g l p a s
  | .phTest g l p a => Sys2Proof.Machine.execPhTest g l p a s
  | .phDrop g l a => Sys2Proof.Machine.execPhDrop g l a s
  | .qbind g k a => Sys2Proof.Machine.execQbind g k a s
  | .qfree g k => Sys2Proof.Machine.execQfree g k s
  | .waitc g c val => Sys2Proof.Machine.execWaitc g c val s
  | .seal g d => Sys2Proof.Machine.execSeal g d s
  | .bquery g d => Sys2Proof.Machine.execBquery g d s
  | .cflush p g a b => Sys2Proof.Machine.execCflush p g a b s
  | .cinval p g a b => Sys2Proof.Machine.execCinval p g a b s
  | .mmaMma g l d a => Sys2Proof.Machine.execMmaMma g l d a s
  | .mmaMmar g l k a => Sys2Proof.Machine.execMmaMmar g l k a s
  | .mmaMpair g l d a => Sys2Proof.Machine.execMmaMpair g l d a s
  | .mmaMload g l a => Sys2Proof.Machine.execMmaMload g l a s
  | .mmaMclear g l a => Sys2Proof.Machine.execMmaMclear g l a s
  | .mmaMrow g l a => Sys2Proof.Machine.execMmaMrow g l a s
  | .tmplInst g l d a => Sys2Proof.Machine.execTmplInst g l d a s
  | .tmplValid g l d a => Sys2Proof.Machine.execTmplValid g l d a s
  | .tmplDrop g l d => Sys2Proof.Machine.execTmplDrop g l d s
  | .rosin g => Sys2Proof.Machine.execRosin g s
  | .rosout g => Sys2Proof.Machine.execRosout g s
  | .rastTri g l d a => Sys2Proof.Machine.execRastTri g l d a s
  | .foutTile g l d a => Sys2Proof.Machine.execFoutTile g l d a s
  | .foutEnd g l d a => Sys2Proof.Machine.execFoutEnd g l d a s
  | .resmapSet g l d a => Sys2Proof.Machine.execResmapSet g l d a s
  | .resmapClear g l d a => Sys2Proof.Machine.execResmapClear g l d a s
  | .resmapDrain g l => Sys2Proof.Machine.execResmapDrain g l s
  | .trap g a => Sys2Proof.Machine.execTrap g a s
  | .brk g a => Sys2Proof.Machine.execBrk g a s
  | .rte g => Sys2Proof.Machine.execRte g s
  | .migpt g => Sys2Proof.Machine.execMigpt g s
  | .nop g => Sys2Proof.Machine.execNop g s
  | .bar g => Sys2Proof.Machine.execBar g s
  | .clbar g => Sys2Proof.Machine.execClbar g s
  | .deferredTrapDelivery t => Sys2Proof.Machine.execDeferredTrapDelivery t s
  | .loadComplete id => Sys2Proof.Machine.execLoadComplete id s
  | .storePerformed id => Sys2Proof.Machine.execStorePerformed id s
  | .cacheWriteback lvl unit line drop => Sys2Proof.Machine.execCacheWriteback lvl unit line drop s
  | .promotionRequest core id => Sys2Proof.Machine.execPromotionRequest core id s
  | .ctlwComplete id => Sys2Proof.Machine.execCtlwComplete id s
  | .binTimerExpiry core bin => Sys2Proof.Machine.execBinTimerExpiry core bin s
  | .spawnWaitServed core => Sys2Proof.Machine.execSpawnWaitServed core s
  | .taskQueueDelivery part => Sys2Proof.Machine.execTaskQueueDelivery part s
  | .yieldExpiry t => Sys2Proof.Machine.execYieldExpiry t s
  | .copyAccept core chan => Sys2Proof.Machine.execCopyAccept core chan s
  | .copyComplete id => Sys2Proof.Machine.execCopyComplete id s
  | .copyFailure id why => Sys2Proof.Machine.execCopyFailure id why s
  | .matrixCommandAccept core => Sys2Proof.Machine.execMatrixCommandAccept core s
  | .matrixCommandStart core => Sys2Proof.Machine.execMatrixCommandStart core s
  | .matrixRowComplete core => Sys2Proof.Machine.execMatrixRowComplete core s
  | .residueMismatch core half => Sys2Proof.Machine.execResidueMismatch core half s
  | .pairwaitExpiry core => Sys2Proof.Machine.execPairwaitExpiry core s
  | .mmarResultPush gid k => Sys2Proof.Machine.execMmarResultPush gid k s
  | .rastAccept slice => Sys2Proof.Machine.execRastAccept slice s
  | .rastTriangle slice => Sys2Proof.Machine.execRastTriangle slice s
  | .wdogRosExpiry slice id => Sys2Proof.Machine.execWdogRosExpiry slice id s
  | .tileReadComplete slice stream fail => Sys2Proof.Machine.execTileReadComplete slice stream fail s
  | .frameComplete slice stream => Sys2Proof.Machine.execFrameComplete slice stream s
  | .encCfgWrite fn slice stream value => Sys2Proof.Machine.execEncCfgWrite fn slice stream value s
  | .tableWalk id => Sys2Proof.Machine.execTableWalk id s
  | .runAheadEnd gid => Sys2Proof.Machine.execRunAheadEnd gid s
  | .faultBatchWrite part => Sys2Proof.Machine.execFaultBatchWrite part s
  | .slcFresp slice value => Sys2Proof.Machine.execSlcFresp slice value s
  | .tinvInval slice value => Sys2Proof.Machine.execTinvInval slice value s
  | .tinvRelease slice value => Sys2Proof.Machine.execTinvRelease slice value s
  | .tinvInvalContext slice value => Sys2Proof.Machine.execTinvInvalContext slice value s
  | .tinvComplete slice => Sys2Proof.Machine.execTinvComplete slice s
  | .wdogBarExpiry t => Sys2Proof.Machine.execWdogBarExpiry t s
  | .wdogHangExpiry ctx => Sys2Proof.Machine.execWdogHangExpiry ctx s
  | .powerUp => Sys2Proof.Machine.execPowerUp s
  | .registerWrite fn bar off size value => Sys2Proof.Machine.execRegisterWrite fn bar off size value s
  | .lock slice => Sys2Proof.Machine.execLock slice s
  | .run slice => Sys2Proof.Machine.execRun slice s
  | .drain slice save => Sys2Proof.Machine.execDrain slice save s
  | .reset slice => Sys2Proof.Machine.execReset slice s
  | .sliceResetComplete slice => Sys2Proof.Machine.execSliceResetComplete slice s
  | .powerOff fn slice => Sys2Proof.Machine.execPowerOff fn slice s
  | .powerOn fn slice => Sys2Proof.Machine.execPowerOn fn slice s
  | .partCmd value => Sys2Proof.Machine.execPartCmd value s
  | .ceOwnWrite e value => Sys2Proof.Machine.execCeOwnWrite e value s
  | .ceTailWrite e value => Sys2Proof.Machine.execCeTailWrite e value s
  | .ceDescriptorComplete e => Sys2Proof.Machine.execCeDescriptorComplete e s
  | .contextCreate slice value => Sys2Proof.Machine.execContextCreate slice value s
  | .contextReload slice value => Sys2Proof.Machine.execContextReload slice value s
  | .contextDestroy slice value => Sys2Proof.Machine.execContextDestroy slice value s
  | .doorbell slice q size value => Sys2Proof.Machine.execDoorbell slice q size value s
  | .launchRecordTake part q => Sys2Proof.Machine.execLaunchRecordTake part q s
  | .placementDecision part => Sys2Proof.Machine.execPlacementDecision part s
  | .preemptSaveComplete part => Sys2Proof.Machine.execPreemptSaveComplete part s
  | .ageLimitExpiry cluster => Sys2Proof.Machine.execAgeLimitExpiry cluster s
  | .gridComplete grid => Sys2Proof.Machine.execGridComplete grid s
  | .migtempPass core temp => Sys2Proof.Machine.execMigtempPass core temp s
  | .migwaitExpiry team => Sys2Proof.Machine.execMigwaitExpiry team s
  | .migrationTransferComplete team => Sys2Proof.Machine.execMigrationTransferComplete team s
  | .whetstonePassStart => Sys2Proof.Machine.execWhetstonePassStart s
  | .whetstoneDrainTimeout => Sys2Proof.Machine.execWhetstoneDrainTimeout s
  | .whetstoneScanComplete passed => Sys2Proof.Machine.execWhetstoneScanComplete passed s
  | .whetstoneSkip => Sys2Proof.Machine.execWhetstoneSkip s
  | .monitorSample slice src core ctx x => Sys2Proof.Machine.execMonitorSample slice src core ctx x s
  | .monCtlWrite slice n value => Sys2Proof.Machine.execMonCtlWrite slice n value s
  | .monClr slice n => Sys2Proof.Machine.execMonClr slice n s
  | .leaseGrant slice value => Sys2Proof.Machine.execLeaseGrant slice value s
  | .leaseReclaim slice k => Sys2Proof.Machine.execLeaseReclaim slice k s
  | .leaseScrubComplete slice k => Sys2Proof.Machine.execLeaseScrubComplete slice k s
  | .powerMeterTick slice => Sys2Proof.Machine.execPowerMeterTick slice s
  | .qosFabWrite fn slice value => Sys2Proof.Machine.execQosFabWrite fn slice value s
  | .timeSet value => Sys2Proof.Machine.execTimeSet value s
  | .pause slice value => Sys2Proof.Machine.execPause slice value s
  | .pauseComplete ctx => Sys2Proof.Machine.execPauseComplete ctx s
  | .resume slice value => Sys2Proof.Machine.execResume slice value s
  | .slcVtvalWrite slice value => Sys2Proof.Machine.execSlcVtvalWrite slice value s
  | .slcCkvalWrite slice value => Sys2Proof.Machine.execSlcCkvalWrite slice value s
  | .fwupdGo value => Sys2Proof.Machine.execFwupdGo value s
  | .fwupdComplete => Sys2Proof.Machine.execFwupdComplete s
  | .sealSizeWrite fn slice value => Sys2Proof.Machine.execSealSizeWrite fn slice value s
  | .sealFlush fn slice value => Sys2Proof.Machine.execSealFlush fn slice value s
  | .sealFlushComplete slice => Sys2Proof.Machine.execSealFlushComplete slice s
  | .sweepLineCommit slice page => Sys2Proof.Machine.execSweepLineCommit slice page s
  | .linkFlitReceive link tagOk lines => Sys2Proof.Machine.execLinkFlitReceive link tagOk lines s
  | .linkInboundAccess port off acc => Sys2Proof.Machine.execLinkInboundAccess port off acc s
  | .worldCreate value => Sys2Proof.Machine.execWorldCreate value s
  | .worldDestroy value => Sys2Proof.Machine.execWorldDestroy value s
  | .ctrread fn slice value => Sys2Proof.Machine.execCtrread fn slice value s
  | .tagflip fn slice value => Sys2Proof.Machine.execTagflip fn slice value s
  | .spdmRequest req => Sys2Proof.Machine.execSpdmRequest req s
  | .worldSessionChange session first chg => Sys2Proof.Machine.execWorldSessionChange session first chg s
  | .illegalInstruction aux => Sys2Proof.Machine.execIllegalInstruction aux s
  | .fetchProtection addr => Sys2Proof.Machine.execFetchProtection addr s
  | .tmplAccept core => Sys2Proof.Machine.execTmplAccept core s
  | .resmapAccept part => Sys2Proof.Machine.execResmapAccept part s
  | .foutAccept slice => Sys2Proof.Machine.execFoutAccept slice s
  | .hostAccess pa wr size => Sys2Proof.Machine.execHostAccess pa wr size s
  | .linkUpChange port up lanes => Sys2Proof.Machine.execLinkUpChange port up lanes s
  | .linkKeyChange link => Sys2Proof.Machine.execLinkKeyChange link s
  | .uncorrectableError loc => Sys2Proof.Machine.execUncorrectableError loc s
  | .migtempRearm core temp => Sys2Proof.Machine.execMigtempRearm core temp s
  | .packageReset => Sys2Proof.Machine.execPackageReset s

end Sys2Proof.Machine
end

