-- ==== Sys2Proof/WellFormed.lean ====
section
/-! DEFINITION. Which terms of `Instr` are instructions: the operand, code and modifier checks of 05 R83-R98 and R108
that the types do not already express. `Instr.wf sp i` takes the space `sp` that MEMDEF supplies when no memory modifier word is present. -/

namespace Sys2Proof

/-- Register operand `o` is direct and aligned to `w` registers (05 R86). -/
def directOk (w : Nat) : Operand → Bool
  | .v n => n.val % w == 0
  | _ => false

def isQueue : Operand → Bool
  | .q _ => true
  | _ => false

/-- A lane-set source of `w` registers (05 R86): any register, or a literal of `w` words. -/
def srcOk (w : Nat) : Operand → Bool
  | .v n => n.val % w == 0
  | .q _ => w ≤ 2
  | .x _ => true
  | .lit _ => w == 1
  | .lit2 _ _ => w == 2

/-- A lane-set register operand that may not be a literal: a destination, or the source in the D field of a store (05 R87). -/
def dstOk (w : Nat) : Operand → Bool
  | .v n => n.val % w == 0
  | .q _ => w ≤ 2
  | .x _ => true
  | .lit _ => false
  | .lit2 _ _ => false

abbrev stSrcOk := dstOk

/-- A destination that is also read (09 R140): no queue register. -/
def accOk (w : Nat) (o : Operand) : Bool := dstOk w o && !isQueue o

/-- A group-set destination (05 R90, 11 R165): direct. -/
abbrev gdstOk := directOk

/-- A group-set source that takes no queue register (11 R165): direct or literal. -/
def gsrcOk (w : Nat) : Operand → Bool
  | .v n => n.val % w == 0
  | .lit _ => w == 1
  | .lit2 _ _ => w == 2
  | _ => false

/-- A group-set source that takes a queue register (11 R165). -/
def gqOk (w : Nat) : Operand → Bool
  | .q _ => w ≤ 2
  | o => gsrcOk w o

def isLit : Operand → Bool
  | .lit _ => true
  | .lit2 _ _ => true
  | _ => false

/-- At most one field holds 127 (05 R87). -/
def oneLit (os : List Operand) : Bool := (os.filter isLit).length ≤ 1

/-- The fourth operand of an arithmetic modifier word, if any. -/
def apfxOps : Option APfx → List Operand
  | some p => p.c.toList
  | none => []

/-- 05 R98, rows of f32 and f64 arithmetic without a fourth operand. -/
def apfxArith : Option APfx → Bool
  | some p => p.rnd != .rs && p.c.isNone
  | none => true

/-- 05 R98, rows with a fourth operand of `w` registers. -/
def apfxFma (w : Nat) : Option APfx → Bool
  | some p => p.rnd != .rs && p.c.all (srcOk w)
  | none => true

/-- 05 R98, fclass. -/
def apfxClass : Option APfx → Bool
  | some p => p.rnd == .dflt && !p.sat && p.c.isNone
  | none => true

/-- 05 R98, dot4.s8. -/
def apfxDot4 : Option APfx → Bool
  | some p => p.rnd == .dflt && !p.ftz && p.c.all (srcOk 1)
  | none => true

/-- Result types that stochastic rounding reaches (05 R98, 07 R128). -/
def NumTy.narrowFloat : NumTy → Bool
  | .f16 | .bf16 | .e4m3 | .e5m2 | .e2m1 => true
  | _ => false

/-- 05 R98, cvt and cvt.sat. -/
def apfxCvt (cc : CvtCode) : Option APfx → Bool
  | some p => (p.rnd != .rs || cc.dst.narrowFloat) && !p.sat && p.c.isNone
  | none => true

def cvtAssigned (cc : CvtCode) : Bool := cvtTable.any (fun e => e.2 == cc)

/-- The destination of a form whose D is the addend when no fourth operand is given (09 R140). -/
def fmaDstOk (w : Nat) (p : Option APfx) (d : Operand) : Bool :=
  if (p.bind (·.c)).isSome then dstOk w d else accOk w d

/-- Width in bits of a number type. -/
def NumTy.bits : NumTy → Nat
  | .f64 | .s64 | .z64 => 64
  | .f32 | .s32 | .z32 => 32
  | .f16 | .bf16 | .s16 | .z16 => 16
  | .e4m3 | .e5m2 | .s8 | .z8 => 8
  | .e2m1 => 4

/-- Registers of an operand of `n` elements of type `t` (09 R162). -/
def NumTy.regs (t : NumTy) (n : Nat) : Nat := max 1 (t.bits * n / 32)

def CvtCode.dstRegs (c : CvtCode) : Nat := c.dst.regs c.count
def CvtCode.srcRegs (c : CvtCode) : Nat := c.src.regs c.count

/-- Registers of a ld or st operand (05 R104). -/
def MemW.regs : MemW → Nat
  | .b64 => 2
  | .b128 => 4
  | .b256 => 8
  | _ => 1

/-- Registers of the D operand of atom (15 R245). -/
def AtomOp.regs : AtomOp → Nat
  | .add64 | .fadd64 | .maxZ64 | .minZ64 | .cas32 => 2
  | .cas64 => 4
  | _ => 1

/-- Registers of the D operand of xacc (15 R250). -/
def XaccFn.regs : XaccFn → Nat
  | .addF64 | .subF64 | .merge => 2
  | _ => 1

/-- Registers of D of tld and smp (19 R296). -/
def TexW.regs : TexW → Nat
  | .b32 => 2
  | .b64 => 4
  | .b128 => 8

/-- Registers of a reduction operand (11 R177). -/
def RedFn.regs : RedFn → Nat
  | .add64 | .fadd64 | .fmin64 | .fmax64 => 2
  | _ => 1

/-- Registers of a special register (11 R170). -/
def SpReg.regs : SpReg → Nat
  | .time | .vtime | .clock | .trapaddr | .assure => 2
  | _ => 1

/-- Registers of a control register (11 R171). -/
def CtlReg.regs : CtlReg → Nat
  | .feedbase | .cpytab | .restab => 2
  | _ => 1

/-- The space a memory instruction names (05 R96). -/
def MPfx.space (dflt : Space) : MPfx → Space
  | .mem _ _ sp _ _ _ _ => sp
  | _ => dflt

/-- Registers of an address operand (13 R200): a pair in glb and cnst. -/
def Space.addrRegs : Space → Nat
  | .glb | .cnst => 2
  | _ => 1

/-- The address operand of a memory instruction (13 R201, 15 R237). -/
def memAOk (sp : Space) (p : MPfx) (a : Operand) : Bool := srcOk (p.space sp).addrRegs a

def Instr.wf (sp : Space) : Instr → Bool
  | .addB32 _ d a b => dstOk 1 d && srcOk 1 a && srcOk 1 b && oneLit [a, b]
  | .subB32 _ d a b => dstOk 1 d && srcOk 1 a && srcOk 1 b && oneLit [a, b]
  | .addB64 _ d a b => dstOk 2 d && srcOk 2 a && srcOk 2 b && oneLit [a, b]
  | .subB64 _ d a b => dstOk 2 d && srcOk 2 a && srcOk 2 b && oneLit [a, b]
  | .mulB32 _ d a b => dstOk 1 d && srcOk 1 a && srcOk 1 b && oneLit [a, b]
  | .mulhS32 _ d a b => dstOk 1 d && srcOk 1 a && srcOk 1 b && oneLit [a, b]
  | .mulhZ32 _ d a b => dstOk 1 d && srcOk 1 a && srcOk 1 b && oneLit [a, b]
  | .mulxS32 _ d a b => dstOk 2 d && srcOk 1 a && srcOk 1 b && oneLit [a, b]
  | .macB32 _ d a b => accOk 1 d && srcOk 1 a && srcOk 1 b && oneLit [a, b]
  | .macxS32 _ d a b => accOk 2 d && srcOk 1 a && srcOk 1 b && oneLit [a, b]
  | .andB32 _ d a b => dstOk 1 d && srcOk 1 a && srcOk 1 b && oneLit [a, b]
  | .orB32 _ d a b => dstOk 1 d && srcOk 1 a && srcOk 1 b && oneLit [a, b]
  | .xorB32 _ d a b => dstOk 1 d && srcOk 1 a && srcOk 1 b && oneLit [a, b]
  | .andn _ d a b => dstOk 1 d && srcOk 1 a && srcOk 1 b && oneLit [a, b]
  | .shl _ d a b => dstOk 1 d && srcOk 1 a && srcOk 1 b && oneLit [a, b]
  | .shr _ d a b => dstOk 1 d && srcOk 1 a && srcOk 1 b && oneLit [a, b]
  | .sar _ d a b => dstOk 1 d && srcOk 1 a && srcOk 1 b && oneLit [a, b]
  | .rol _ d a b => dstOk 1 d && srcOk 1 a && srcOk 1 b && oneLit [a, b]
  | .minS32 _ d a b => dstOk 1 d && srcOk 1 a && srcOk 1 b && oneLit [a, b]
  | .maxS32 _ d a b => dstOk 1 d && srcOk 1 a && srcOk 1 b && oneLit [a, b]
  | .minZ32 _ d a b => dstOk 1 d && srcOk 1 a && srcOk 1 b && oneLit [a, b]
  | .maxZ32 _ d a b => dstOk 1 d && srcOk 1 a && srcOk 1 b && oneLit [a, b]
  | .cmpS32 _ pt pf _ a b => (pt != pf || pt == 0) && srcOk 1 a && srcOk 1 b && oneLit [a, b]
  | .cmpS64 _ pt pf _ a b => (pt != pf || pt == 0) && srcOk 2 a && srcOk 2 b && oneLit [a, b]
  | .cmpZ32 _ pt pf _ a b => (pt != pf || pt == 0) && srcOk 1 a && srcOk 1 b && oneLit [a, b]
  | .cmpZ64 _ pt pf _ a b => (pt != pf || pt == 0) && srcOk 2 a && srcOk 2 b && oneLit [a, b]
  | .cmpF32 _ pt pf _ a b => (pt != pf || pt == 0) && srcOk 1 a && srcOk 1 b && oneLit [a, b]
  | .cmpF64 _ pt pf _ a b => (pt != pf || pt == 0) && srcOk 2 a && srcOk 2 b && oneLit [a, b]
  | .selB32 _ d a b => dstOk 1 d && srcOk 1 a && srcOk 1 b && oneLit [a, b]
  | .selB64 _ d a b => dstOk 2 d && srcOk 2 a && srcOk 2 b && oneLit [a, b]
  | .unopB32 _ d a fn => dstOk 1 d && srcOk 1 a && fn != .sext32
  | .unopB64 _ d a _ => dstOk 2 d && srcOk 2 a
  | .bfe _ d a b => dstOk 1 d && srcOk 1 a && srcOk 1 b && oneLit [a, b]
  | .bfi _ d a b => accOk 1 d && srcOk 1 a && srcOk 1 b && oneLit [a, b]
  | .shflIdx _ d a b => dstOk 1 d && srcOk 1 a && srcOk 1 b && oneLit [a, b]
  | .shflXor _ d a b => dstOk 1 d && srcOk 1 a && srcOk 1 b && oneLit [a, b]
  | .addrS _ d a b => dstOk 2 d && srcOk 2 a && srcOk 1 b && oneLit [a, b]
  | .addrZ _ d a b => dstOk 2 d && srcOk 2 a && srcOk 1 b && oneLit [a, b]
  | .addi _ d a _ => dstOk 1 d && srcOk 1 a
  | .andi _ d a _ => dstOk 1 d && srcOk 1 a
  | .ori _ d a _ => dstOk 1 d && srcOk 1 a
  | .xori _ d a _ => dstOk 1 d && srcOk 1 a
  | .shi _ d a _ _ => dstOk 1 d && srcOk 1 a
  | .movi _ d _ => dstOk 1 d
  | .movB32 _ d a => dstOk 1 d && srcOk 1 a
  | .movB64 _ d a => dstOk 2 d && srcOk 2 a
  | .cvt p _ d a cc => apfxCvt cc p && cvtAssigned cc && dstOk cc.dstRegs d && srcOk cc.srcRegs a
  | .cvtSat p _ d a cc => apfxCvt cc p && cvtAssigned cc && dstOk cc.dstRegs d && srcOk cc.srcRegs a
  | .faddF32 p _ d a b => apfxArith p && dstOk 1 d && srcOk 1 a && srcOk 1 b && oneLit ([a, b] ++ apfxOps p)
  | .fsubF32 p _ d a b => apfxArith p && dstOk 1 d && srcOk 1 a && srcOk 1 b && oneLit ([a, b] ++ apfxOps p)
  | .fmulF32 p _ d a b => apfxArith p && dstOk 1 d && srcOk 1 a && srcOk 1 b && oneLit ([a, b] ++ apfxOps p)
  | .fdivF32 p _ d a b => apfxArith p && dstOk 1 d && srcOk 1 a && srcOk 1 b && oneLit ([a, b] ++ apfxOps p)
  | .fmaF32 p _ d a b => apfxFma 1 p && fmaDstOk 1 p d && srcOk 1 a && srcOk 1 b && oneLit ([a, b] ++ apfxOps p)
  | .fmsF32 p _ d a b => apfxFma 1 p && fmaDstOk 1 p d && srcOk 1 a && srcOk 1 b && oneLit ([a, b] ++ apfxOps p)
  | .fminF32 p _ d a b => apfxArith p && dstOk 1 d && srcOk 1 a && srcOk 1 b && oneLit ([a, b] ++ apfxOps p)
  | .fmaxF32 p _ d a b => apfxArith p && dstOk 1 d && srcOk 1 a && srcOk 1 b && oneLit ([a, b] ++ apfxOps p)
  | .faddF64 p _ d a b => apfxArith p && dstOk 2 d && srcOk 2 a && srcOk 2 b && oneLit ([a, b] ++ apfxOps p)
  | .fsubF64 p _ d a b => apfxArith p && dstOk 2 d && srcOk 2 a && srcOk 2 b && oneLit ([a, b] ++ apfxOps p)
  | .fmulF64 p _ d a b => apfxArith p && dstOk 2 d && srcOk 2 a && srcOk 2 b && oneLit ([a, b] ++ apfxOps p)
  | .fdivF64 p _ d a b => apfxArith p && dstOk 2 d && srcOk 2 a && srcOk 2 b && oneLit ([a, b] ++ apfxOps p)
  | .fmaF64 p _ d a b => apfxFma 2 p && fmaDstOk 2 p d && srcOk 2 a && srcOk 2 b && oneLit ([a, b] ++ apfxOps p)
  | .fmsF64 p _ d a b => apfxFma 2 p && fmaDstOk 2 p d && srcOk 2 a && srcOk 2 b && oneLit ([a, b] ++ apfxOps p)
  | .fminF64 p _ d a b => apfxArith p && dstOk 2 d && srcOk 2 a && srcOk 2 b && oneLit ([a, b] ++ apfxOps p)
  | .fmaxF64 p _ d a b => apfxArith p && dstOk 2 d && srcOk 2 a && srcOk 2 b && oneLit ([a, b] ++ apfxOps p)
  | .fsqrtF32 p _ d a => apfxArith p && dstOk 1 d && srcOk 1 a
  | .fsqrtF64 p _ d a => apfxArith p && dstOk 2 d && srcOk 2 a
  | .ffnF32 p _ d a _ => apfxArith p && dstOk 1 d && srcOk 1 a
  | .ffnF16 p _ d a _ => apfxArith p && dstOk 1 d && srcOk 1 a
  | .pfmaF32x2 p _ d a b => apfxFma 2 p && fmaDstOk 2 p d && srcOk 2 a && srcOk 2 b && oneLit ([a, b] ++ apfxOps p)
  | .pfmaBf16x2 p _ d a b => apfxFma 1 p && fmaDstOk 1 p d && srcOk 1 a && srcOk 1 b && oneLit ([a, b] ++ apfxOps p)
  | .paddF32x2 p _ d a b => apfxArith p && dstOk 2 d && srcOk 2 a && srcOk 2 b && oneLit ([a, b] ++ apfxOps p)
  | .pmulF32x2 p _ d a b => apfxArith p && dstOk 2 d && srcOk 2 a && srcOk 2 b && oneLit ([a, b] ++ apfxOps p)
  | .fclass p _ d a b => apfxClass p && dstOk 1 d && srcOk 1 a && srcOk 1 b && oneLit ([a, b] ++ apfxOps p)
  | .fscale p _ d a b => apfxArith p && dstOk 1 d && srcOk 1 a && srcOk 1 b && oneLit ([a, b] ++ apfxOps p)
  | .plog _ _ pd _ _ => pd != 0
  | .pmov _ d a _ => dstOk 1 d && srcOk 1 a
  | .xset _ _ a => srcOk 1 a
  | .xget _ d _ => dstOk 1 d
  | .dot4S8 p _ d a b => apfxDot4 p && fmaDstOk 1 p d && srcOk 1 a && srcOk 1 b && oneLit ([a, b] ++ apfxOps p)
  | .dot2Bf16 p _ d a b => apfxFma 1 p && fmaDstOk 1 p d && srcOk 1 a && srcOk 1 b && oneLit ([a, b] ++ apfxOps p)
  | .ld p _ _ d a w => memAOk sp p a && dstOk w.regs d
  | .st p _ _ d a w => memAOk sp p a && stSrcOk w.regs d
  | .atom p _ _ d a op => memAOk sp p a && dstOk op.regs d
  | .red p _ _ d a op => memAOk sp p a && stSrcOk op.regs d && op != .cas32 && op != .cas64
  | .xacc p _ _ d a fn => memAOk sp p a && (if fn == .clrF64 || fn == .clrF32 then d == .v 0 else stSrcOk fn.regs d)
  | .xrnd p _ _ d a f32 _ => memAOk sp p a && dstOk (if f32 then 1 else 2) d
  | .tld _ _ d a w _ => directOk 4 a && (directOk w.regs d || (w == .b32 && isQueue d))
  | .smp _ _ d a w _ => directOk 4 a && (directOk w.regs d || (w == .b32 && isQueue d))
  | .rtbox _ _ d a _ _ => directOk 8 d && directOk 8 a
  | .rttri _ _ d a _ => directOk 8 d && directOk 8 a
  | .fe p _ _ d a _ => memAOk sp p a && stSrcOk 1 d
  | .gaddB32 _ d a b => gdstOk 1 d && gqOk 1 a && gqOk 1 b && oneLit [a, b]
  | .gsubB32 _ d a b => gdstOk 1 d && gqOk 1 a && gqOk 1 b && oneLit [a, b]
  | .gaddB64 _ d a b => gdstOk 2 d && gqOk 2 a && gqOk 2 b && oneLit [a, b]
  | .gsubB64 _ d a b => gdstOk 2 d && gqOk 2 a && gqOk 2 b && oneLit [a, b]
  | .gmulB32 _ d a b => gdstOk 1 d && gqOk 1 a && gqOk 1 b && oneLit [a, b]
  | .gmulhS32 _ d a b => gdstOk 1 d && gqOk 1 a && gqOk 1 b && oneLit [a, b]
  | .gand _ d a b => gdstOk 1 d && gqOk 1 a && gqOk 1 b && oneLit [a, b]
  | .gor _ d a b => gdstOk 1 d && gqOk 1 a && gqOk 1 b && oneLit [a, b]
  | .gxor _ d a b => gdstOk 1 d && gqOk 1 a && gqOk 1 b && oneLit [a, b]
  | .gandn _ d a b => gdstOk 1 d && gqOk 1 a && gqOk 1 b && oneLit [a, b]
  | .gshl _ d a b => gdstOk 1 d && gqOk 1 a && gqOk 1 b && oneLit [a, b]
  | .gshr _ d a b => gdstOk 1 d && gqOk 1 a && gqOk 1 b && oneLit [a, b]
  | .gminS32 _ d a b => gdstOk 1 d && gqOk 1 a && gqOk 1 b && oneLit [a, b]
  | .gmaxS32 _ d a b => gdstOk 1 d && gqOk 1 a && gqOk 1 b && oneLit [a, b]
  | .gcmpS32 _ pt pf _ a b => (pt != pf || pt == 0) && gqOk 1 a && gqOk 1 b && oneLit [a, b]
  | .gcmpZ32 _ pt pf _ a b => (pt != pf || pt == 0) && gqOk 1 a && gqOk 1 b && oneLit [a, b]
  | .gaddi _ d a _ => gdstOk 1 d && gqOk 1 a
  | .gmovi _ d _ => gdstOk 1 d
  | .gmov _ d a => gdstOk 1 d && gqOk 1 a
  | .gsel _ d a b => gdstOk 1 d && gqOk 1 a && gqOk 1 b && oneLit [a, b]
  | .sreg _ d r => gdstOk r.regs d
  | .sregw _ r b => gsrcOk r.regs b
  | .ctl _ d r => gdstOk r.regs d
  | .ctlw _ r b => gsrcOk r.regs b
  | .bra _ _ => true
  | .call _ _ => true
  | .jmpr _ a => gsrcOk 1 a
  | .ret _ => true
  | .join _ k => k != 0
  | .leave _ k => k != 0
  | .waitm _ k => k != 0
  | .mrd _ d _ => gdstOk 1 d
  | .mwr _ k a => k != 0 && gsrcOk 1 a
  | .vote _ d _ _ => gdstOk 1 d
  | .gred _ d a op => gdstOk op.regs d && gsrcOk op.regs a
  | .gscan _ d a _ op => gdstOk op.regs d && gsrcOk op.regs a
  | .spawn _ a b => directOk 8 a && gsrcOk 1 b
  | .spawnh _ a b => directOk 8 a && gsrcOk 1 b
  | .exit _ => true
  | .yield _ => true
  | .phreg _ _ a => gsrcOk 2 a
  | .phdereg _ _ a => gsrcOk 2 a
  | .phInit _ _ d a => directOk 1 d && gsrcOk 2 a
  | .phArrive _ _ d a => directOk 1 d && gsrcOk 2 a
  | .phArrwait _ _ _ a => gsrcOk 2 a
  | .phWait _ _ _ a => gsrcOk 2 a
  | .phTest _ _ p a => p != 0 && gsrcOk 4 a
  | .phDrop _ _ a => gsrcOk 2 a
  | .qbind _ _ a => gsrcOk 1 a
  | .qfree _ _ => true
  | .waitc _ _ _ => true
  | .seal _ d => gdstOk 1 d
  | .bquery _ d => gdstOk 1 d
  | .cflush _ _ a b => gsrcOk 2 a && gsrcOk 1 b && oneLit [a, b]
  | .cinval _ _ a b => gsrcOk 2 a && gsrcOk 1 b && oneLit [a, b]
  | .mmaMma _ _ d a => directOk 1 d && directOk 4 a
  | .mmaMmar _ _ _ a => directOk 8 a
  | .mmaMpair _ _ d a => directOk 1 d && directOk 4 a
  | .mmaMload _ _ a => gsrcOk 2 a
  | .mmaMclear _ _ a => gsrcOk 2 a
  | .mmaMrow _ _ a => gsrcOk 1 a
  | .tmplInst _ _ d a => directOk 1 d && gsrcOk 2 a
  | .tmplValid _ _ d a => directOk 1 d && gsrcOk 2 a
  | .tmplDrop _ _ d => directOk 1 d
  | .rosin _ => true
  | .rosout _ => true
  | .rastTri _ _ d a => directOk 2 d && gsrcOk 2 a
  | .foutTile _ _ d a => directOk 1 d && directOk 4 a
  | .foutEnd _ _ d a => directOk 1 d && directOk 4 a
  | .resmapSet _ _ d a => directOk 1 d && gsrcOk 1 a
  | .resmapClear _ _ d a => directOk 1 d && gsrcOk 1 a
  | .resmapDrain _ _ => true
  | .trap _ a => gsrcOk 1 a
  | .brk _ a => gsrcOk 1 a
  | .rte _ => true
  | .migpt _ => true
  | .nop _ => true
  | .bar _ => true
  | .clbar _ => true
  | .deferredTrapDelivery _ => true
  | .loadComplete _ => true
  | .storePerformed _ => true
  | .cacheWriteback _ _ _ _ => true
  | .promotionRequest _ _ => true
  | .ctlwComplete _ => true
  | .binTimerExpiry _ _ => true
  | .spawnWaitServed _ => true
  | .taskQueueDelivery _ => true
  | .yieldExpiry _ => true
  | .copyAccept _ _ => true
  | .copyComplete _ => true
  | .copyFailure _ _ => true
  | .matrixCommandAccept _ => true
  | .matrixCommandStart _ => true
  | .matrixRowComplete _ => true
  | .residueMismatch _ _ => true
  | .pairwaitExpiry _ => true
  | .mmarResultPush _ _ => true
  | .rastAccept _ => true
  | .rastTriangle _ => true
  | .wdogRosExpiry _ _ => true
  | .tileReadComplete _ _ _ => true
  | .frameComplete _ _ => true
  | .encCfgWrite _ _ _ _ => true
  | .tableWalk _ => true
  | .runAheadEnd _ => true
  | .faultBatchWrite _ => true
  | .slcFresp _ _ => true
  | .tinvInval _ _ => true
  | .tinvRelease _ _ => true
  | .tinvInvalContext _ _ => true
  | .tinvComplete _ => true
  | .wdogBarExpiry _ => true
  | .wdogHangExpiry _ => true
  | .powerUp => true
  | .registerWrite _ _ _ _ _ => true
  | .lock _ => true
  | .run _ => true
  | .drain _ _ => true
  | .reset _ => true
  | .sliceResetComplete _ => true
  | .powerOff _ _ => true
  | .powerOn _ _ => true
  | .partCmd _ => true
  | .ceOwnWrite _ _ => true
  | .ceTailWrite _ _ => true
  | .ceDescriptorComplete _ => true
  | .contextCreate _ _ => true
  | .contextReload _ _ => true
  | .contextDestroy _ _ => true
  | .doorbell _ _ _ _ => true
  | .launchRecordTake _ _ => true
  | .placementDecision _ => true
  | .preemptSaveComplete _ => true
  | .ageLimitExpiry _ => true
  | .gridComplete _ => true
  | .migtempPass _ _ => true
  | .migwaitExpiry _ => true
  | .migrationTransferComplete _ => true
  | .whetstonePassStart => true
  | .whetstoneDrainTimeout => true
  | .whetstoneScanComplete _ => true
  | .whetstoneSkip => true
  | .monitorSample _ _ _ _ _ => true
  | .monCtlWrite _ _ _ => true
  | .monClr _ _ => true
  | .leaseGrant _ _ => true
  | .leaseReclaim _ _ => true
  | .leaseScrubComplete _ _ => true
  | .powerMeterTick _ => true
  | .qosFabWrite _ _ _ => true
  | .timeSet _ => true
  | .pause _ _ => true
  | .pauseComplete _ => true
  | .resume _ _ => true
  | .slcVtvalWrite _ _ => true
  | .slcCkvalWrite _ _ => true
  | .fwupdGo _ => true
  | .fwupdComplete => true
  | .sealSizeWrite _ _ _ => true
  | .sealFlush _ _ _ => true
  | .sealFlushComplete _ => true
  | .sweepLineCommit _ _ => true
  | .linkFlitReceive _ _ _ => true
  | .linkInboundAccess _ _ _ => true
  | .worldCreate _ => true
  | .worldDestroy _ => true
  | .ctrread _ _ _ => true
  | .tagflip _ _ _ => true
  | .spdmRequest _ => true
  | .worldSessionChange _ _ _ => true
  | .illegalInstruction _ => true
  | .fetchProtection _ => true
  | .tmplAccept _ => true
  | .resmapAccept _ => true
  | .foutAccept _ => true
  | .hostAccess _ _ _ => true
  | .linkUpChange _ _ _ => true
  | .linkKeyChange _ => true
  | .uncorrectableError _ => true
  | .migtempRearm _ _ => true
  | .packageReset => true

end Sys2Proof
end

