-- ==== Sys2Proof/Decode.lean ====
section
/-! DEFINITION. The decoder from words (05 R80-R110) and, after it, the encoder.
`decode sp ws` reads one instruction from the words `ws` that lie at the PC up to the end of the code image;
`sp` is MEMDEF's SPACE, on which the width of an address operand depends (13 R200). -/

namespace Sys2Proof

/-! Code tables: the code of an entry is its place in the list. -/

def rnds : List Rnd := [.dflt, .rne, .rz, .ru, .rd, .rna, .rs]
def ords : List MemOrd := [.rlx, .acq, .rel, .acqRel]
def scopes : List Scope := [.group, .team, .cluster, .partition, .system]
def spaces : List Space := [.glb, .spad, .wbuf, .abuf, .cbuf, .cspad, .cnst]
def pols : List Pol := [.dflt, .stream, .pin, .noalloc, .deep]
def fes : List Fe := [.none, .consume, .peek, .setFull]
def unFns : List UnFn := [.not, .neg, .abs, .popc, .clz, .ctz, .brev, .bswap, .sext8, .sext16, .sext32]
def ffnFns : List FfnFn := [.rcp, .rsqrt, .exp2, .log2, .sinpi, .cospi, .tanh, .sigm, .erf]
def shiKinds : List ShiKind := [.shl, .shr, .sar, .rol]
def memWs : List MemW := [.s8, .z8, .s16, .z16, .b32, .b64, .b128, .b256]
def atomOps : List AtomOp :=
  [.add32, .add64, .minS, .maxS, .minZ, .maxZ, .and, .or, .xor, .exch, .cas32, .cas64, .fadd32, .fadd64, .maxZ64, .minZ64]
def xaccFns : List XaccFn := [.addF64, .subF64, .addF32, .subF32, .merge, .clrF64, .clrF32]
def xrndModes : List XrndMode := [.rne, .rz, .ru, .rd, .rna]
def feFns : List FeFn := [.clr, .set, .test 0, .test 1, .test 2, .test 3, .test 4, .test 5, .test 6]
def texWs : List TexW := [.b32, .b64, .b128]
def redFns : List RedFn :=
  [.add32, .add64, .mins, .maxs, .minz, .maxz, .and, .or, .xor, .fadd32, .fadd64, .fmin32, .fmax32, .fmin64, .fmax64]
def voteKinds : List VoteKind := [.mask, .every, .some, .same, .count, .first]
def phRoles : List PhRole := [.sig, .wait, .both]
def ctrs : List Ctr := [.ldc, .stc, .batc, .engc, .resc]

/-- Special-register numbers (11 R170). -/
def spRegs : List (Nat × SpReg) :=
  [(0x00, .lane), (0x01, .thread), (0x02, .group), (0x03, .team), (0x04, .teamdim), (0x05, .cluster), (0x06, .clpos),
   (0x07, .grid), (0x08, .corelog), (0x09, .slicelog), (0x0A, .bin)] ++
  [(0x10, .time), (0x11, .vtime), (0x12, .clock), (0x18, .link), (0x19, .seed), (0x1A, .mrow)] ++
  [(0x20, .trapcode), (0x21, .trappc), (0x22, .trapaddr), (0x23, .trapaux), (0x24, .subcnt), (0x25, .feedlost), (0x26, .assure)]

/-- Control registers in number order (11 R171). -/
def ctlRegs : List CtlReg :=
  [.memdef, .fpdef, .trapbase, .bintime, .wdogBar, .wdogHang, .wdogRos, .rastthr,
   .feedbase, .feedsize, .feedhead, .feedtail, .cpytab, .restab, .migwait, .pairwait]

/-- Place of `x` in a code table. -/
def codeOf {α : Type} [DecidableEq α] (t : List α) (x : α) : Nat := t.idxOf x

def SpReg.num (r : SpReg) : Nat := ((spRegs.find? (fun e => e.2 == r)).map (·.1)).getD 0
def CtlReg.num (r : CtlReg) : Nat := codeOf ctlRegs r
def CvtCode.code (c : CvtCode) : Nat := ((cvtTable.find? (fun e => e.2 == c)).map (·.1)).getD 0

/-! Rejections, one name per row of 05 R108. -/

inductive RejectWhy where
  | reservedMajor | reservedMinor | nonzeroUnused | unassignedCode | reservedField | reservedKind
  | doubleModifier | modifierNotAllowed | twoLiterals | badOperand | missingWord
deriving DecidableEq, Repr

/-- A word sequence that is no instruction, with the word that TRAPAUX takes (05 R108). -/
structure Reject where
  why : RejectWhy
  aux : Word
deriving DecidableEq, Repr

/-- What the decoder works on: the instruction word, the modifier word before it and the words after it. -/
structure Raw where
  w : Word
  pfx : Option Word
  lits : List Word
  sp : Space

/-- A decoded instruction and the number of literal words it takes. -/
abbrev Dec := Except Reject (Instr × Nat)

/-- Bits hi..lo of a word. -/
def bits (w : Word) (hi lo : Nat) : Nat := w.toNat / 2 ^ lo % 2 ^ (hi - lo + 1)

def Raw.op (c : Raw) : Nat := bits c.w 30 25
def Raw.minor (c : Raw) : Nat := bits c.w 0 0
def Raw.fn (c : Raw) : Nat := bits c.w 3 0
def Raw.g (c : Raw) : Guard := ⟨bits c.w 24 22 % 8, Nat.mod_lt _ (by decide)⟩
def Raw.l (c : Raw) : Fin 16 := ⟨bits c.w 21 18 % 16, Nat.mod_lt _ (by decide)⟩
def Raw.rej {α : Type} (c : Raw) (why : RejectWhy) : Except Reject α := .error ⟨why, c.w⟩
def Raw.rejP {α : Type} (c : Raw) (why : RejectWhy) : Except Reject α := .error ⟨why, c.pfx.getD c.w⟩

/-- A predicate number from three bits. -/
def predOf (n : Nat) : Guard := ⟨n % 8, Nat.mod_lt _ (by decide)⟩

/-- A register field of `w` registers (05 R84), with the literal words it takes. -/
def Raw.opnd (c : Raw) (w f : Nat) : Except Reject (Operand × Nat) :=
  if h : f < 112 then .ok (.v ⟨f, h⟩, 0)
  else if h : f - 112 < 8 then .ok (.q ⟨f - 112, h⟩, 0)
  else if h : f - 120 < 7 then .ok (.x ⟨f - 120, h⟩, 0)
  else if w = 2 then
    match c.lits with
    | lo :: hi :: _ => .ok (.lit2 lo hi, 2)
    | _ => c.rej .missingWord
  else
    match c.lits with
    | lo :: _ => .ok (.lit lo, 1)
    | _ => c.rej .missingWord

/-- Refuses a modifier word (05 R95, R98). -/
def Raw.noPfx (c : Raw) : Except Reject Unit :=
  match c.pfx with
  | some p => .error ⟨.modifierNotAllowed, p⟩
  | none => .ok ()

/-- Refuses a non-zero unused field (05 R83). -/
def Raw.mbz (c : Raw) (n : Nat) : Except Reject Unit :=
  if n = 0 then .ok () else c.rej .nonzeroUnused

/-- Refuses two fields that hold 127 (05 R87). -/
def Raw.lit1 (c : Raw) (fs : List Nat) : Except Reject Unit :=
  if (fs.filter (· == 127)).length ≤ 1 then .ok () else c.rej .twoLiterals

/-- An entry of a code table. -/
def Raw.code {α : Type} (c : Raw) (t : List α) (n : Nat) : Except Reject α :=
  match t[n]? with
  | some x => .ok x
  | none => c.rej .unassignedCode

/-- The arithmetic modifier word (05 R97), with a fourth operand of `cw` registers; answers the literal words C takes. -/
def Raw.apfx (c : Raw) (cw : Nat) : Except Reject (Option APfx × Nat) :=
  match c.pfx with
  | none => .ok (none, 0)
  | some p =>
    if bits p 24 23 ≠ 1 then c.rejP .modifierNotAllowed
    else if bits p 9 0 ≠ 0 then c.rejP .nonzeroUnused
    else match rnds[bits p 22 20]? with
      | none => c.rejP .reservedField
      | some r =>
        if bits p 17 17 = 0 then
          if bits p 16 10 = 0 then .ok (some ⟨r, bits p 19 19 == 1, bits p 18 18 == 1, none⟩, 0)
          else c.rejP .nonzeroUnused
        else do
          let (o, n) ← c.opnd cw (bits p 16 10)
          .ok (some ⟨r, bits p 19 19 == 1, bits p 18 18 == 1, some o⟩, n)

/-- The field C of the arithmetic modifier word when CUSE = 1, for the count of fields holding 127. -/
def Raw.cField (c : Raw) : Nat :=
  match c.pfx with
  | some p => if bits p 17 17 = 1 then bits p 16 10 else 0
  | none => 0

/-- The modifier word of a memory instruction (05 R93, R94). -/
def Raw.mpfx (c : Raw) : Except Reject MPfx :=
  match c.pfx with
  | none => .ok .none
  | some p =>
    match bits p 24 23 with
    | 0 =>
      match ords[bits p 22 21]?, scopes[bits p 20 18]?, spaces[bits p 17 15]?, pols[bits p 14 12]?, fes[bits p 11 10]? with
      | some o, some sc, some sp, some po, some fe =>
        .ok (.mem o sc sp po fe (bits p 9 9 == 1) (BitVec.ofNat 9 (bits p 8 0)))
      | _, _, _, _, _ => c.rejP .reservedField
    | 2 => .ok (.off (BitVec.ofNat 23 (bits p 22 0)))
    | _ => c.rejP .modifierNotAllowed

/-- The modifier word of cflush and cinval: only SCOPE and SPACE act (05 R95). -/
def Raw.cpfx (c : Raw) : Except Reject (Option (Scope × Space)) :=
  match c.pfx with
  | none => .ok none
  | some p =>
    if bits p 24 23 ≠ 0 then c.rejP .modifierNotAllowed
    else if bits p 22 21 ≠ 0 ∨ bits p 14 0 ≠ 0 then c.rejP .nonzeroUnused
    else match scopes[bits p 20 18]?, spaces[bits p 17 15]? with
      | some sc, some sp => .ok (some (sc, sp))
      | _, _ => c.rejP .reservedField

/-! Formats (05 R82). -/

def Raw.fD (c : Raw) : Nat := bits c.w 21 15
def Raw.fA (c : Raw) : Nat := bits c.w 14 8
def Raw.fB (c : Raw) : Nat := bits c.w 7 1
def Raw.mD (c : Raw) : Nat := bits c.w 17 11
def Raw.mA (c : Raw) : Nat := bits c.w 10 4

def decT3 (c : Raw) (wd wa wb : Nat) (k : Guard → Operand → Operand → Operand → Instr) : Dec := do
  c.noPfx
  c.lit1 [c.fD, c.fA, c.fB]
  let (d, _) ← c.opnd wd c.fD
  let (a, na) ← c.opnd wa c.fA
  let (b, nb) ← c.opnd wb c.fB
  .ok (k c.g d a b, na + nb)

def decT3A (c : Raw) (wd wa wb : Nat) (k : Option APfx → Guard → Operand → Operand → Operand → Instr) : Dec := do
  let (p, np) ← c.apfx wa
  c.lit1 [c.fD, c.fA, c.fB, c.cField]
  let (d, _) ← c.opnd wd c.fD
  let (a, na) ← c.opnd wa c.fA
  let (b, nb) ← c.opnd wb c.fB
  .ok (k p c.g d a b, na + nb + np)

def decCmp (c : Raw) (wa : Nat) (k : Guard → Guard → Guard → Bool → Operand → Operand → Instr) : Dec := do
  c.noPfx
  c.lit1 [c.fA, c.fB]
  let (a, na) ← c.opnd wa c.fA
  let (b, nb) ← c.opnd wa c.fB
  .ok (k c.g (predOf (bits c.w 21 19)) (predOf (bits c.w 18 16)) (bits c.w 15 15 == 1) a b, na + nb)

def decT2 (c : Raw) (wd wa : Nat) (k : Guard → Operand → Operand → Instr) : Dec := do
  c.noPfx
  c.mbz c.fB
  c.lit1 [c.fD, c.fA]
  let (d, _) ← c.opnd wd c.fD
  let (a, na) ← c.opnd wa c.fA
  .ok (k c.g d a, na)

def decT2A (c : Raw) (wd wa : Nat) (k : Option APfx → Guard → Operand → Operand → Instr) : Dec := do
  let (p, _) ← c.apfx wa
  c.mbz c.fB
  c.lit1 [c.fD, c.fA, c.cField]
  let (d, _) ← c.opnd wd c.fD
  let (a, na) ← c.opnd wa c.fA
  .ok (k p c.g d a, na)

def decCode {α : Type} (c : Raw) (wd wa : Nat) (t : List α) (k : Guard → Operand → Operand → α → Instr) : Dec := do
  c.noPfx
  let fn ← c.code t c.fB
  c.lit1 [c.fD, c.fA]
  let (d, _) ← c.opnd wd c.fD
  let (a, na) ← c.opnd wa c.fA
  .ok (k c.g d a fn, na)

def decFfn (c : Raw) (k : Option APfx → Guard → Operand → Operand → FfnFn → Instr) : Dec := do
  let (p, _) ← c.apfx 1
  let fn ← c.code ffnFns c.fB
  c.lit1 [c.fD, c.fA, c.cField]
  let (d, _) ← c.opnd 1 c.fD
  let (a, na) ← c.opnd 1 c.fA
  .ok (k p c.g d a fn, na)

def decCvt (c : Raw) (k : Option APfx → Guard → Operand → Operand → CvtCode → Instr) : Dec := do
  let (p, _) ← c.apfx 1
  match cvtTable.find? (fun e => e.1 == c.fB) with
  | none => c.rej .unassignedCode
  | some (_, cc) =>
    c.lit1 [c.fD, c.fA, c.cField]
    let (d, _) ← c.opnd cc.dstRegs c.fD
    let (a, na) ← c.opnd cc.srcRegs c.fA
    .ok (k p c.g d a cc, na)

def decI (c : Raw) (k : Guard → Operand → Operand → BitVec 8 → Instr) : Dec := do
  c.noPfx
  c.lit1 [c.fD, c.fA]
  let (d, _) ← c.opnd 1 c.fD
  let (a, na) ← c.opnd 1 c.fA
  .ok (k c.g d a (BitVec.ofNat 8 (bits c.w 7 0)), na)

def decShi (c : Raw) : Dec := do
  c.noPfx
  let kd ← c.code shiKinds (bits c.w 7 6)
  c.lit1 [c.fD, c.fA]
  let (d, _) ← c.opnd 1 c.fD
  let (a, na) ← c.opnd 1 c.fA
  .ok (.shi c.g d a kd (BitVec.ofNat 6 (bits c.w 5 0)), na)

def decK (c : Raw) (k : Guard → Operand → BitVec 15 → Instr) : Dec := do
  c.noPfx
  let (d, _) ← c.opnd 1 c.fD
  .ok (k c.g d (BitVec.ofNat 15 (bits c.w 14 0)), 0)

def decPlog (c : Raw) : Dec := do
  c.noPfx
  c.mbz (bits c.w 14 11)
  c.mbz (bits c.w 7 4)
  .ok (.plog c.g (BitVec.ofNat 4 (bits c.w 21 18)) (predOf (bits c.w 17 15)) (predOf (bits c.w 10 8))
    (predOf (bits c.w 3 1)), 0)

def decPmov (c : Raw) : Dec := do
  c.noPfx
  c.lit1 [c.fD, c.fA]
  let (d, _) ← c.opnd 1 c.fD
  let (a, na) ← c.opnd 1 c.fA
  .ok (.pmov c.g d a (BitVec.ofNat 7 c.fB), na)

/-- An index-register number (09 R154). -/
def Raw.xnum (c : Raw) (n : Nat) : Except Reject (Fin 7) :=
  if h : n < 7 then .ok ⟨n, h⟩ else c.rej .unassignedCode

/-- A mask number (11 R175). -/
def Raw.mnum (c : Raw) (n : Nat) : Except Reject (Fin 12) :=
  if h : n < 12 then .ok ⟨n, h⟩ else c.rej .unassignedCode

/-- A predicate number held in seven bits. -/
def Raw.pnum (c : Raw) (n : Nat) : Except Reject Guard :=
  if h : n < 8 then .ok ⟨n, h⟩ else c.rej .unassignedCode

/-- A queue handle 112-119 (11 R188). -/
def Raw.qnum (c : Raw) (n : Nat) : Except Reject (Fin 8) :=
  if h : 112 ≤ n ∧ n - 112 < 8 then .ok ⟨n - 112, h.2⟩ else c.rej .unassignedCode

def decXset (c : Raw) : Dec := do
  c.noPfx
  c.mbz c.fB
  let k ← c.xnum c.fD
  let (a, na) ← c.opnd 1 c.fA
  .ok (.xset c.g k a, na)

def decXget (c : Raw) : Dec := do
  c.noPfx
  c.mbz c.fB
  let k ← c.xnum c.fA
  let (d, _) ← c.opnd 1 c.fD
  .ok (.xget c.g d k, 0)

/-- ld, st, atom, red, xacc and fe (15 R236); the D field takes no literal. -/
def decMem {α : Type} (c : Raw) (t : List α)
    (k : MPfx → Guard → Fin 16 → Operand → Operand → α → Instr) : Dec := do
  let p ← c.mpfx
  let fn ← c.code t c.fn
  c.lit1 [c.mD, c.mA]
  let (d, _) ← c.opnd 1 c.mD
  let (a, na) ← c.opnd (p.space c.sp).addrRegs c.mA
  .ok (k p c.g c.l d a fn, na)

def decXrnd (c : Raw) : Dec := do
  let p ← c.mpfx
  let m ← c.code xrndModes (if c.fn % 8 = 0 then 5 else c.fn % 8 - 1)
  c.lit1 [c.mD, c.mA]
  let (d, _) ← c.opnd 1 c.mD
  let (a, na) ← c.opnd (p.space c.sp).addrRegs c.mA
  .ok (.xrnd p c.g c.l d a (c.fn / 8 == 1) m, na)

def decTex (c : Raw) (k : Guard → Fin 16 → Operand → Operand → TexW → Bool → Instr) : Dec := do
  c.noPfx
  let w ← c.code texWs (if c.fn < 8 then c.fn % 4 else 3)
  c.lit1 [c.mD, c.mA]
  let (d, _) ← c.opnd 1 c.mD
  let (a, na) ← c.opnd 4 c.mA
  .ok (k c.g c.l d a w (c.fn / 4 == 1), na)

def decRtbox (c : Raw) : Dec := do
  c.noPfx
  if c.fn < 4 then
    c.lit1 [c.mD, c.mA]
    let (d, _) ← c.opnd 8 c.mD
    let (a, na) ← c.opnd 8 c.mA
    .ok (.rtbox c.g c.l d a (c.fn % 2 == 1) (c.fn / 2 == 1), na)
  else c.rej .unassignedCode

def decRttri (c : Raw) : Dec := do
  c.noPfx
  if c.fn < 2 then
    c.lit1 [c.mD, c.mA]
    let (d, _) ← c.opnd 8 c.mD
    let (a, na) ← c.opnd 8 c.mA
    .ok (.rttri c.g c.l d a (c.fn == 1), na)
  else c.rej .unassignedCode

def Raw.sreg (c : Raw) (n : Nat) : Except Reject SpReg :=
  match spRegs.find? (fun e => e.1 == n) with
  | some (_, r) => .ok r
  | none => c.rej .unassignedCode

def decSreg (c : Raw) : Dec := do
  c.noPfx
  c.mbz c.fB
  let r ← c.sreg c.fA
  let (d, _) ← c.opnd r.regs c.fD
  .ok (.sreg c.g d r, 0)

def decSregw (c : Raw) : Dec := do
  c.noPfx
  c.mbz c.fD
  let r ← c.sreg c.fA
  let (b, nb) ← c.opnd r.regs c.fB
  .ok (.sregw c.g r b, nb)

def decCtl (c : Raw) : Dec := do
  c.noPfx
  c.mbz c.fB
  let r ← c.code ctlRegs c.fA
  let (d, _) ← c.opnd r.regs c.fD
  .ok (.ctl c.g d r, 0)

def decCtlw (c : Raw) : Dec := do
  c.noPfx
  c.mbz c.fD
  let r ← c.code ctlRegs c.fA
  let (b, nb) ← c.opnd r.regs c.fB
  .ok (.ctlw c.g r b, nb)

def decJ (c : Raw) (k : Guard → BitVec 22 → Instr) : Dec := do
  c.noPfx
  .ok (k c.g (BitVec.ofNat 22 (bits c.w 21 0)), 0)

def decA (c : Raw) (k : Guard → Operand → Instr) : Dec := do
  c.noPfx
  c.mbz c.fD
  c.mbz c.fB
  let (a, na) ← c.opnd 1 c.fA
  .ok (k c.g a, na)

def dec0 (c : Raw) (k : Guard → Instr) : Dec := do
  c.noPfx
  c.mbz (bits c.w 21 1)
  .ok (k c.g, 0)

def decMask (c : Raw) (k : Guard → Fin 12 → Instr) : Dec := do
  c.noPfx
  c.mbz c.fA
  c.mbz c.fB
  let m ← c.mnum c.fD
  .ok (k c.g m, 0)

def decMrd (c : Raw) : Dec := do
  c.noPfx
  c.mbz c.fB
  let m ← c.mnum c.fA
  let (d, _) ← c.opnd 1 c.fD
  .ok (.mrd c.g d m, 0)

def decMwr (c : Raw) : Dec := do
  c.noPfx
  c.mbz c.fB
  let m ← c.mnum c.fD
  let (a, na) ← c.opnd 1 c.fA
  .ok (.mwr c.g m a, na)

def decVote (c : Raw) : Dec := do
  c.noPfx
  let p ← c.pnum c.fA
  let k ← c.code voteKinds c.fB
  let (d, _) ← c.opnd 1 c.fD
  .ok (.vote c.g d p k, 0)

def decGred (c : Raw) : Dec := do
  c.noPfx
  let op ← c.code redFns c.fB
  c.lit1 [c.fD, c.fA]
  let (d, _) ← c.opnd op.regs c.fD
  let (a, na) ← c.opnd op.regs c.fA
  .ok (.gred c.g d a op, na)

def decGscan (c : Raw) : Dec := do
  c.noPfx
  let op ← c.code redFns (if c.fB < 32 then c.fB % 16 else 15)
  c.lit1 [c.fD, c.fA]
  let (d, _) ← c.opnd op.regs c.fD
  let (a, na) ← c.opnd op.regs c.fA
  .ok (.gscan c.g d a (c.fB / 16 == 1) op, na)

def decSpawn (c : Raw) (k : Guard → Operand → Operand → Instr) : Dec := do
  c.noPfx
  c.mbz c.fD
  c.lit1 [c.fA, c.fB]
  let (a, _) ← c.opnd 8 c.fA
  let (b, nb) ← c.opnd 1 c.fB
  .ok (k c.g a b, nb)

def decPhreg (c : Raw) (k : Guard → PhRole → Operand → Instr) : Dec := do
  c.noPfx
  c.mbz c.fB
  let r ← c.code phRoles (if c.fD = 0 then 3 else c.fD - 1)
  let (a, na) ← c.opnd 2 c.fA
  .ok (k c.g r a, na)

/-- M format with a register in D and an operand of `wa` registers in A. -/
def decM2 (c : Raw) (wd wa : Nat) (k : Guard → Fin 16 → Operand → Operand → Instr) : Dec := do
  c.noPfx
  c.lit1 [c.mD, c.mA]
  let (d, _) ← c.opnd wd c.mD
  let (a, na) ← c.opnd wa c.mA
  .ok (k c.g c.l d a, na)

/-- M format with D unused. -/
def decM1 (c : Raw) (wa : Nat) (k : Guard → Fin 16 → Operand → Instr) : Dec := do
  c.noPfx
  c.mbz c.mD
  let (a, na) ← c.opnd wa c.mA
  .ok (k c.g c.l a, na)

def decPhP (c : Raw) (wa : Nat) (k : Guard → Fin 16 → Guard → Operand → Instr) : Dec := do
  c.noPfx
  let p ← c.pnum c.mD
  let (a, na) ← c.opnd wa c.mA
  .ok (k c.g c.l p a, na)

def decQbind (c : Raw) : Dec := do
  c.noPfx
  c.mbz c.fB
  let k ← c.qnum c.fD
  let (a, na) ← c.opnd 1 c.fA
  .ok (.qbind c.g k a, na)

def decQfree (c : Raw) : Dec := do
  c.noPfx
  c.mbz c.fA
  c.mbz c.fB
  let k ← c.qnum c.fD
  .ok (.qfree c.g k, 0)

def decWaitc (c : Raw) : Dec := do
  c.noPfx
  let ct ← c.code ctrs (bits c.w 21 18)
  .ok (.waitc c.g ct (BitVec.ofNat 18 (bits c.w 17 0)), 0)

def decD (c : Raw) (k : Guard → Operand → Instr) : Dec := do
  c.noPfx
  c.mbz c.fA
  c.mbz c.fB
  let (d, _) ← c.opnd 1 c.fD
  .ok (k c.g d, 0)

def decCache (c : Raw) (k : Option (Scope × Space) → Guard → Operand → Operand → Instr) : Dec := do
  let p ← c.cpfx
  c.mbz c.fD
  c.lit1 [c.fA, c.fB]
  let (a, na) ← c.opnd 2 c.fA
  let (b, nb) ← c.opnd 1 c.fB
  .ok (k p c.g a b, na + nb)

def decMmar (c : Raw) : Dec := do
  c.noPfx
  let k ← c.qnum c.mD
  let (a, _) ← c.opnd 8 c.mA
  .ok (.mmaMmar c.g c.l k a, 0)

def decTmplDrop (c : Raw) : Dec := do
  c.noPfx
  c.mbz c.mA
  let (d, _) ← c.opnd 1 c.mD
  .ok (.tmplDrop c.g c.l d, 0)

def decDrain (c : Raw) : Dec := do
  c.noPfx
  c.mbz c.mD
  c.mbz c.mA
  .ok (.resmapDrain c.g c.l, 0)

/-- The lane-set opcode map (05 R103): the row that OP and the minor or function select. -/
def decLane (c : Raw) : Dec :=
  match c.op, c.minor, c.fn with
  | 0x00, 0, _ => decT3 c 1 1 1 .addB32
  | 0x00, 1, _ => decT3 c 1 1 1 .subB32
  | 0x01, 0, _ => decT3 c 2 2 2 .addB64
  | 0x01, 1, _ => decT3 c 2 2 2 .subB64
  | 0x02, 0, _ => decT3 c 1 1 1 .mulB32
  | 0x02, 1, _ => decT3 c 1 1 1 .mulhS32
  | 0x03, 0, _ => decT3 c 1 1 1 .mulhZ32
  | 0x03, 1, _ => decT3 c 2 1 1 .mulxS32
  | 0x04, 0, _ => decT3 c 1 1 1 .macB32
  | 0x04, 1, _ => decT3 c 2 1 1 .macxS32
  | 0x05, 0, _ => decT3 c 1 1 1 .andB32
  | 0x05, 1, _ => decT3 c 1 1 1 .orB32
  | 0x06, 0, _ => decT3 c 1 1 1 .xorB32
  | 0x06, 1, _ => decT3 c 1 1 1 .andn
  | 0x07, 0, _ => decT3 c 1 1 1 .shl
  | 0x07, 1, _ => decT3 c 1 1 1 .shr
  | 0x08, 0, _ => decT3 c 1 1 1 .sar
  | 0x08, 1, _ => decT3 c 1 1 1 .rol
  | 0x09, 0, _ => decT3 c 1 1 1 .minS32
  | 0x09, 1, _ => decT3 c 1 1 1 .maxS32
  | 0x0A, 0, _ => decT3 c 1 1 1 .minZ32
  | 0x0A, 1, _ => decT3 c 1 1 1 .maxZ32
  | 0x0B, 0, _ => decCmp c 1 .cmpS32
  | 0x0B, 1, _ => decCmp c 2 .cmpS64
  | 0x0C, 0, _ => decCmp c 1 .cmpZ32
  | 0x0C, 1, _ => decCmp c 2 .cmpZ64
  | 0x0D, 0, _ => decCmp c 1 .cmpF32
  | 0x0D, 1, _ => decCmp c 2 .cmpF64
  | 0x0E, 0, _ => decT3 c 1 1 1 .selB32
  | 0x0E, 1, _ => decT3 c 2 2 2 .selB64
  | 0x0F, 0, _ => decCode c 1 1 unFns .unopB32
  | 0x0F, 1, _ => decCode c 2 2 unFns .unopB64
  | 0x10, 0, _ => decT3 c 1 1 1 .bfe
  | 0x10, 1, _ => decT3 c 1 1 1 .bfi
  | 0x11, 0, _ => decT3 c 1 1 1 .shflIdx
  | 0x11, 1, _ => decT3 c 1 1 1 .shflXor
  | 0x12, 0, _ => decT3 c 2 2 1 .addrS
  | 0x12, 1, _ => decT3 c 2 2 1 .addrZ
  | 0x13, _, _ => decI c .addi
  | 0x14, _, _ => decI c .andi
  | 0x15, _, _ => decI c .ori
  | 0x16, _, _ => decI c .xori
  | 0x17, _, _ => decShi c
  | 0x18, _, _ => decK c .movi
  | 0x19, 0, _ => decT2 c 1 1 .movB32
  | 0x19, 1, _ => decT2 c 2 2 .movB64
  | 0x1A, 0, _ => decCvt c .cvt
  | 0x1A, 1, _ => decCvt c .cvtSat
  | 0x1B, 0, _ => decT3A c 1 1 1 .faddF32
  | 0x1B, 1, _ => decT3A c 1 1 1 .fsubF32
  | 0x1C, 0, _ => decT3A c 1 1 1 .fmulF32
  | 0x1C, 1, _ => decT3A c 1 1 1 .fdivF32
  | 0x1D, 0, _ => decT3A c 1 1 1 .fmaF32
  | 0x1D, 1, _ => decT3A c 1 1 1 .fmsF32
  | 0x1E, 0, _ => decT3A c 1 1 1 .fminF32
  | 0x1E, 1, _ => decT3A c 1 1 1 .fmaxF32
  | 0x1F, 0, _ => decT3A c 2 2 2 .faddF64
  | 0x1F, 1, _ => decT3A c 2 2 2 .fsubF64
  | 0x20, 0, _ => decT3A c 2 2 2 .fmulF64
  | 0x20, 1, _ => decT3A c 2 2 2 .fdivF64
  | 0x21, 0, _ => decT3A c 2 2 2 .fmaF64
  | 0x21, 1, _ => decT3A c 2 2 2 .fmsF64
  | 0x22, 0, _ => decT3A c 2 2 2 .fminF64
  | 0x22, 1, _ => decT3A c 2 2 2 .fmaxF64
  | 0x23, 0, _ => decT2A c 1 1 .fsqrtF32
  | 0x23, 1, _ => decT2A c 2 2 .fsqrtF64
  | 0x24, 0, _ => decFfn c .ffnF32
  | 0x24, 1, _ => decFfn c .ffnF16
  | 0x25, 0, _ => decT3A c 2 2 2 .pfmaF32x2
  | 0x25, 1, _ => decT3A c 1 1 1 .pfmaBf16x2
  | 0x26, 0, _ => decT3A c 2 2 2 .paddF32x2
  | 0x26, 1, _ => decT3A c 2 2 2 .pmulF32x2
  | 0x27, 0, _ => decT3A c 1 1 1 .fclass
  | 0x27, 1, _ => decT3A c 1 1 1 .fscale
  | 0x28, 0, _ => decPlog c
  | 0x28, 1, _ => decPmov c
  | 0x29, 0, _ => decXset c
  | 0x29, 1, _ => decXget c
  | 0x2A, 0, _ => decT3A c 1 1 1 .dot4S8
  | 0x2A, 1, _ => decT3A c 1 1 1 .dot2Bf16
  | 0x30, _, _ => decMem c memWs .ld
  | 0x31, _, _ => decMem c memWs .st
  | 0x32, _, _ => decMem c atomOps .atom
  | 0x33, _, _ => decMem c atomOps .red
  | 0x34, _, _ => decMem c xaccFns .xacc
  | 0x35, _, _ => decXrnd c
  | 0x36, _, _ => decTex c .tld
  | 0x37, _, _ => decTex c .smp
  | 0x38, _, _ => decRtbox c
  | 0x39, _, _ => decRttri c
  | 0x3A, _, _ => decMem c feFns .fe
  | _, _, _ => c.rej .reservedMajor

/-- The group-set opcode map (05 R105): the row that OP and the minor or function select. -/
def decGroup (c : Raw) : Dec :=
  match c.op, c.minor, c.fn with
  | 0x00, 0, _ => decT3 c 1 1 1 .gaddB32
  | 0x00, 1, _ => decT3 c 1 1 1 .gsubB32
  | 0x01, 0, _ => decT3 c 2 2 2 .gaddB64
  | 0x01, 1, _ => decT3 c 2 2 2 .gsubB64
  | 0x02, 0, _ => decT3 c 1 1 1 .gmulB32
  | 0x02, 1, _ => decT3 c 1 1 1 .gmulhS32
  | 0x03, 0, _ => decT3 c 1 1 1 .gand
  | 0x03, 1, _ => decT3 c 1 1 1 .gor
  | 0x04, 0, _ => decT3 c 1 1 1 .gxor
  | 0x04, 1, _ => decT3 c 1 1 1 .gandn
  | 0x05, 0, _ => decT3 c 1 1 1 .gshl
  | 0x05, 1, _ => decT3 c 1 1 1 .gshr
  | 0x06, 0, _ => decT3 c 1 1 1 .gminS32
  | 0x06, 1, _ => decT3 c 1 1 1 .gmaxS32
  | 0x07, 0, _ => decCmp c 1 .gcmpS32
  | 0x07, 1, _ => decCmp c 1 .gcmpZ32
  | 0x08, _, _ => decI c .gaddi
  | 0x09, _, _ => decK c .gmovi
  | 0x0A, 0, _ => decT2 c 1 1 .gmov
  | 0x0A, 1, _ => decT3 c 1 1 1 .gsel
  | 0x0B, 0, _ => decSreg c
  | 0x0B, 1, _ => decSregw c
  | 0x0C, 0, _ => decCtl c
  | 0x0C, 1, _ => decCtlw c
  | 0x0D, _, _ => decJ c .bra
  | 0x0E, _, _ => decJ c .call
  | 0x0F, 0, _ => decA c .jmpr
  | 0x0F, 1, _ => dec0 c .ret
  | 0x10, 0, _ => decMask c .join
  | 0x10, 1, _ => decMask c .leave
  | 0x11, 0, _ => decMask c .waitm
  | 0x11, 1, _ => decMrd c
  | 0x12, 0, _ => decMwr c
  | 0x12, 1, _ => decVote c
  | 0x13, 0, _ => decGred c
  | 0x13, 1, _ => decGscan c
  | 0x14, 0, _ => decSpawn c .spawn
  | 0x14, 1, _ => decSpawn c .spawnh
  | 0x15, 0, _ => dec0 c .exit
  | 0x15, 1, _ => dec0 c .yield
  | 0x16, 0, _ => decPhreg c .phreg
  | 0x16, 1, _ => decPhreg c .phdereg
  | 0x17, _, 0 => decM2 c 1 2 .phInit
  | 0x17, _, 1 => decM2 c 1 2 .phArrive
  | 0x17, _, 2 => decPhP c 2 .phArrwait
  | 0x17, _, 3 => decPhP c 2 .phWait
  | 0x17, _, 4 => decPhP c 4 .phTest
  | 0x17, _, 5 => decM1 c 2 .phDrop
  | 0x18, 0, _ => decQbind c
  | 0x18, 1, _ => decQfree c
  | 0x19, _, _ => decWaitc c
  | 0x1A, 0, _ => decD c .seal
  | 0x1A, 1, _ => decD c .bquery
  | 0x1B, 0, _ => decCache c .cflush
  | 0x1B, 1, _ => decCache c .cinval
  | 0x1C, _, 0 => decM2 c 1 4 .mmaMma
  | 0x1C, _, 1 => decMmar c
  | 0x1C, _, 2 => decM2 c 1 4 .mmaMpair
  | 0x1C, _, 3 => decM1 c 2 .mmaMload
  | 0x1C, _, 4 => decM1 c 2 .mmaMclear
  | 0x1C, _, 5 => decM1 c 1 .mmaMrow
  | 0x1D, _, 0 => decM2 c 1 2 .tmplInst
  | 0x1D, _, 1 => decM2 c 1 2 .tmplValid
  | 0x1D, _, 2 => decTmplDrop c
  | 0x1E, 0, _ => dec0 c .rosin
  | 0x1E, 1, _ => dec0 c .rosout
  | 0x1F, _, 0 => decM2 c 2 2 .rastTri
  | 0x20, _, 0 => decM2 c 1 4 .foutTile
  | 0x20, _, 1 => decM2 c 1 4 .foutEnd
  | 0x21, _, 0 => decM2 c 1 1 .resmapSet
  | 0x21, _, 1 => decM2 c 1 1 .resmapClear
  | 0x21, _, 2 => decDrain c
  | 0x22, 0, _ => decA c .trap
  | 0x22, 1, _ => decA c .brk
  | 0x23, 0, _ => dec0 c .rte
  | 0x24, 0, _ => dec0 c .migpt
  | 0x24, 1, _ => dec0 c .nop
  | 0x26, 0, _ => dec0 c .bar
  | 0x26, 1, _ => dec0 c .clbar
  | 0x17, _, _ => c.rej .unassignedCode
  | 0x1C, _, _ => c.rej .unassignedCode
  | 0x1D, _, _ => c.rej .unassignedCode
  | 0x1F, _, _ => c.rej .unassignedCode
  | 0x20, _, _ => c.rej .unassignedCode
  | 0x21, _, _ => c.rej .unassignedCode
  | 0x23, _, _ => c.rej .reservedMinor
  | _, _, _ => c.rej .reservedMajor

/-- Bits 31:25 of a word that stands before another (05 R93): S = 0 and OP = 0x3F. -/
def isModifier (w : Word) : Bool := bits w 31 25 == 0x3F

/-- Whether what is wrong with an ill-formed instruction lies in its modifier word (05 R98, R108). -/
def badModifier : Instr → Bool
  | .cvt p _ _ _ cc | .cvtSat p _ _ _ cc => !apfxCvt cc p
  | .faddF32 p _ _ _ _ | .fsubF32 p _ _ _ _ | .fmulF32 p _ _ _ _ | .fdivF32 p _ _ _ _ | .fminF32 p _ _ _ _
  | .fmaxF32 p _ _ _ _ | .paddF32x2 p _ _ _ _ | .pmulF32x2 p _ _ _ _ | .fscale p _ _ _ _ => !apfxArith p
  | .faddF64 p _ _ _ _ | .fsubF64 p _ _ _ _ | .fmulF64 p _ _ _ _ | .fdivF64 p _ _ _ _ | .fminF64 p _ _ _ _
  | .fmaxF64 p _ _ _ _ => !apfxArith p
  | .fsqrtF32 p _ _ _ | .fsqrtF64 p _ _ _ | .ffnF32 p _ _ _ _ | .ffnF16 p _ _ _ _ => !apfxArith p
  | .fmaF32 p _ _ _ _ | .fmsF32 p _ _ _ _ | .pfmaBf16x2 p _ _ _ _ | .dot2Bf16 p _ _ _ _ => !apfxFma 1 p
  | .fmaF64 p _ _ _ _ | .fmsF64 p _ _ _ _ | .pfmaF32x2 p _ _ _ _ => !apfxFma 2 p
  | .fclass p _ _ _ _ => !apfxClass p
  | .dot4S8 p _ _ _ _ => !apfxDot4 p
  | _ => false

/-- The instruction word `w`, the modifier word before it and the words after it. Where several rows of 05 R108 hold, the word reported
is that of the first check here to fail: the spec gives no order among them (DESIGN CHOICE, log 70). -/
def decodeBody (sp : Space) (pfx : Option Word) (w : Word) (rest : List Word) : Except Reject (Instr × Nat) :=
  let c : Raw := ⟨w, pfx, rest, sp⟩
  match (if bits w 31 31 = 0 then decLane c else decGroup c) with
  | .error e => .error e
  | .ok (i, n) =>
    if i.wf sp then .ok (i, (if pfx.isSome then 1 else 0) + 1 + n)
    else .error ⟨if badModifier i then .modifierNotAllowed else .badOperand, if badModifier i then pfx.getD w else w⟩

/-- One instruction from the words at its PC up to the end of the code image (05 R80), with its length in words. -/
def decode (sp : Space) : List Word → Except Reject (Instr × Nat)
  | [] => .error ⟨.missingWord, 0⟩
  | w :: rest =>
    if isModifier w then
      if bits w 24 23 = 3 then .error ⟨.reservedKind, w⟩
      else match rest with
        | [] => .error ⟨.missingWord, w⟩
        | w' :: rest' => if isModifier w' then .error ⟨.doubleModifier, w'⟩ else decodeBody sp (some w) w' rest'
    else decodeBody sp none w rest

/-! The encoder. -/

/-- The field value of a register operand (05 R84). -/
def opCode : Operand → Nat
  | .v n => n.val
  | .q k => 112 + k.val
  | .x k => 120 + k.val
  | .lit _ => 127
  | .lit2 _ _ => 127

/-- The literal words of an operand (05 R86, R87). -/
def opLits : Operand → List Word
  | .lit w => [w]
  | .lit2 lo hi => [lo, hi]
  | _ => []

/-- An instruction word from S, OP, G and bits 21:0 (05 R81). -/
def mkWord (s op : Nat) (g : Guard) (low : Nat) : Word :=
  BitVec.ofNat 32 (s * 2 ^ 31 + op * 2 ^ 25 + g.val * 2 ^ 22 + low)

def encT (s op n : Nat) (g : Guard) (d a b : Operand) : List Word :=
  mkWord s op g (opCode d * 2 ^ 15 + opCode a * 2 ^ 8 + opCode b * 2 + n) :: (opLits a ++ opLits b)

def encT2 (s op n : Nat) (g : Guard) (d a : Operand) (b : Nat) : List Word :=
  mkWord s op g (opCode d * 2 ^ 15 + opCode a * 2 ^ 8 + b * 2 + n) :: opLits a

def encCmp (s op n : Nat) (g pt pf : Guard) (lt : Bool) (a b : Operand) : List Word :=
  mkWord s op g (pt.val * 2 ^ 19 + pf.val * 2 ^ 16 + (if lt then 2 ^ 15 else 0) + opCode a * 2 ^ 8 + opCode b * 2 + n)
    :: (opLits a ++ opLits b)

def encI (s op : Nat) (g : Guard) (d a : Operand) (imm : Nat) : List Word :=
  mkWord s op g (opCode d * 2 ^ 15 + opCode a * 2 ^ 8 + imm) :: opLits a

def encM (s op : Nat) (g : Guard) (l : Fin 16) (d a : Operand) (f : Nat) : List Word :=
  mkWord s op g (l.val * 2 ^ 18 + opCode d * 2 ^ 11 + opCode a * 2 ^ 4 + f) :: opLits a

/-- A word of format P (05 R93). -/
def mkModifier (kind low : Nat) : Word := BitVec.ofNat 32 (0x3F * 2 ^ 25 + kind * 2 ^ 23 + low)

def encAPfx (p : Option APfx) (ws : List Word) : List Word :=
  match p with
  | none => ws
  | some p =>
    mkModifier 1 (codeOf rnds p.rnd * 2 ^ 20 + (if p.sat then 2 ^ 19 else 0) + (if p.ftz then 2 ^ 18 else 0)
      + (match p.c with | some o => 2 ^ 17 + opCode o * 2 ^ 10 | none => 0)) :: ws

/-- The literal words of the fourth operand, which follow those of A and B (05 R97). -/
def apfxLits (p : Option APfx) : List Word := ((apfxOps p).map opLits).flatten

def encMPfx (p : MPfx) (ws : List Word) : List Word :=
  match p with
  | .none => ws
  | .mem o sc sp po fe pr off =>
    mkModifier 0 (codeOf ords o * 2 ^ 21 + codeOf scopes sc * 2 ^ 18 + codeOf spaces sp * 2 ^ 15 + codeOf pols po * 2 ^ 12
      + codeOf fes fe * 2 ^ 10 + (if pr then 2 ^ 9 else 0) + off.toNat) :: ws
  | .off o => mkModifier 2 o.toNat :: ws

def encCPfx (p : Option (Scope × Space)) (ws : List Word) : List Word :=
  match p with
  | none => ws
  | some (sc, sp) => mkModifier 0 (codeOf scopes sc * 2 ^ 18 + codeOf spaces sp * 2 ^ 15) :: ws

/-- The words of an instruction, written from 05 R81-R106, 09 R138, 11 R164, 15 R236, 17 R264, R273 and 19 R292-R321; an event has none. -/
def encode : Instr → List Word
  | .addB32 g d a b => encT 0 0x00 0 g d a b
  | .subB32 g d a b => encT 0 0x00 1 g d a b
  | .addB64 g d a b => encT 0 0x01 0 g d a b
  | .subB64 g d a b => encT 0 0x01 1 g d a b
  | .mulB32 g d a b => encT 0 0x02 0 g d a b
  | .mulhS32 g d a b => encT 0 0x02 1 g d a b
  | .mulhZ32 g d a b => encT 0 0x03 0 g d a b
  | .mulxS32 g d a b => encT 0 0x03 1 g d a b
  | .macB32 g d a b => encT 0 0x04 0 g d a b
  | .macxS32 g d a b => encT 0 0x04 1 g d a b
  | .andB32 g d a b => encT 0 0x05 0 g d a b
  | .orB32 g d a b => encT 0 0x05 1 g d a b
  | .xorB32 g d a b => encT 0 0x06 0 g d a b
  | .andn g d a b => encT 0 0x06 1 g d a b
  | .shl g d a b => encT 0 0x07 0 g d a b
  | .shr g d a b => encT 0 0x07 1 g d a b
  | .sar g d a b => encT 0 0x08 0 g d a b
  | .rol g d a b => encT 0 0x08 1 g d a b
  | .minS32 g d a b => encT 0 0x09 0 g d a b
  | .maxS32 g d a b => encT 0 0x09 1 g d a b
  | .minZ32 g d a b => encT 0 0x0A 0 g d a b
  | .maxZ32 g d a b => encT 0 0x0A 1 g d a b
  | .cmpS32 g pt pf lt a b => encCmp 0 0x0B 0 g pt pf lt a b
  | .cmpS64 g pt pf lt a b => encCmp 0 0x0B 1 g pt pf lt a b
  | .cmpZ32 g pt pf lt a b => encCmp 0 0x0C 0 g pt pf lt a b
  | .cmpZ64 g pt pf lt a b => encCmp 0 0x0C 1 g pt pf lt a b
  | .cmpF32 g pt pf lt a b => encCmp 0 0x0D 0 g pt pf lt a b
  | .cmpF64 g pt pf lt a b => encCmp 0 0x0D 1 g pt pf lt a b
  | .selB32 s d a b => encT 0 0x0E 0 s d a b
  | .selB64 s d a b => encT 0 0x0E 1 s d a b
  | .unopB32 g d a fn => encT2 0 0x0F 0 g d a (codeOf unFns fn)
  | .unopB64 g d a fn => encT2 0 0x0F 1 g d a (codeOf unFns fn)
  | .bfe g d a b => encT 0 0x10 0 g d a b
  | .bfi g d a b => encT 0 0x10 1 g d a b
  | .shflIdx g d a b => encT 0 0x11 0 g d a b
  | .shflXor g d a b => encT 0 0x11 1 g d a b
  | .addrS g d a b => encT 0 0x12 0 g d a b
  | .addrZ g d a b => encT 0 0x12 1 g d a b
  | .addi g d a imm => encI 0 0x13 g d a imm.toNat
  | .andi g d a imm => encI 0 0x14 g d a imm.toNat
  | .ori g d a imm => encI 0 0x15 g d a imm.toNat
  | .xori g d a imm => encI 0 0x16 g d a imm.toNat
  | .shi g d a k n => encI 0 0x17 g d a (codeOf shiKinds k * 64 + n.toNat)
  | .movi g d imm => [mkWord 0 0x18 g (opCode d * 2 ^ 15 + imm.toNat)]
  | .movB32 g d a => encT2 0 0x19 0 g d a 0
  | .movB64 g d a => encT2 0 0x19 1 g d a 0
  | .cvt p g d a cc => encAPfx p (encT2 0 0x1A 0 g d a cc.code)
  | .cvtSat p g d a cc => encAPfx p (encT2 0 0x1A 1 g d a cc.code)
  | .faddF32 p g d a b => encAPfx p (encT 0 0x1B 0 g d a b) ++ apfxLits p
  | .fsubF32 p g d a b => encAPfx p (encT 0 0x1B 1 g d a b) ++ apfxLits p
  | .fmulF32 p g d a b => encAPfx p (encT 0 0x1C 0 g d a b) ++ apfxLits p
  | .fdivF32 p g d a b => encAPfx p (encT 0 0x1C 1 g d a b) ++ apfxLits p
  | .fmaF32 p g d a b => encAPfx p (encT 0 0x1D 0 g d a b) ++ apfxLits p
  | .fmsF32 p g d a b => encAPfx p (encT 0 0x1D 1 g d a b) ++ apfxLits p
  | .fminF32 p g d a b => encAPfx p (encT 0 0x1E 0 g d a b) ++ apfxLits p
  | .fmaxF32 p g d a b => encAPfx p (encT 0 0x1E 1 g d a b) ++ apfxLits p
  | .faddF64 p g d a b => encAPfx p (encT 0 0x1F 0 g d a b) ++ apfxLits p
  | .fsubF64 p g d a b => encAPfx p (encT 0 0x1F 1 g d a b) ++ apfxLits p
  | .fmulF64 p g d a b => encAPfx p (encT 0 0x20 0 g d a b) ++ apfxLits p
  | .fdivF64 p g d a b => encAPfx p (encT 0 0x20 1 g d a b) ++ apfxLits p
  | .fmaF64 p g d a b => encAPfx p (encT 0 0x21 0 g d a b) ++ apfxLits p
  | .fmsF64 p g d a b => encAPfx p (encT 0 0x21 1 g d a b) ++ apfxLits p
  | .fminF64 p g d a b => encAPfx p (encT 0 0x22 0 g d a b) ++ apfxLits p
  | .fmaxF64 p g d a b => encAPfx p (encT 0 0x22 1 g d a b) ++ apfxLits p
  | .fsqrtF32 p g d a => encAPfx p (encT2 0 0x23 0 g d a 0)
  | .fsqrtF64 p g d a => encAPfx p (encT2 0 0x23 1 g d a 0)
  | .ffnF32 p g d a fn => encAPfx p (encT2 0 0x24 0 g d a (codeOf ffnFns fn))
  | .ffnF16 p g d a fn => encAPfx p (encT2 0 0x24 1 g d a (codeOf ffnFns fn))
  | .pfmaF32x2 p g d a b => encAPfx p (encT 0 0x25 0 g d a b) ++ apfxLits p
  | .pfmaBf16x2 p g d a b => encAPfx p (encT 0 0x25 1 g d a b) ++ apfxLits p
  | .paddF32x2 p g d a b => encAPfx p (encT 0 0x26 0 g d a b) ++ apfxLits p
  | .pmulF32x2 p g d a b => encAPfx p (encT 0 0x26 1 g d a b) ++ apfxLits p
  | .fclass p g d a b => encAPfx p (encT 0 0x27 0 g d a b) ++ apfxLits p
  | .fscale p g d a b => encAPfx p (encT 0 0x27 1 g d a b) ++ apfxLits p
  | .plog g lut pd pa pb => [mkWord 0 0x28 g (lut.toNat * 2 ^ 18 + pd.val * 2 ^ 15 + pa.val * 2 ^ 8 + pb.val * 2)]
  | .pmov g d a mask => encT2 0 0x28 1 g d a mask.toNat
  | .xset g k a => mkWord 0 0x29 g (k.val * 2 ^ 15 + opCode a * 2 ^ 8) :: opLits a
  | .xget g d k => [mkWord 0 0x29 g (opCode d * 2 ^ 15 + k.val * 2 ^ 8 + 1)]
  | .dot4S8 p g d a b => encAPfx p (encT 0 0x2A 0 g d a b) ++ apfxLits p
  | .dot2Bf16 p g d a b => encAPfx p (encT 0 0x2A 1 g d a b) ++ apfxLits p
  | .ld p g l d a w => encMPfx p (encM 0 0x30 g l d a (codeOf memWs w))
  | .st p g l d a w => encMPfx p (encM 0 0x31 g l d a (codeOf memWs w))
  | .atom p g l d a op => encMPfx p (encM 0 0x32 g l d a (codeOf atomOps op))
  | .red p g l d a op => encMPfx p (encM 0 0x33 g l d a (codeOf atomOps op))
  | .xacc p g l d a fn => encMPfx p (encM 0 0x34 g l d a (codeOf xaccFns fn))
  | .xrnd p g l d a f32 m => encMPfx p (encM 0 0x35 g l d a ((if f32 then 8 else 0) + codeOf xrndModes m + 1))
  | .tld g l d a w nofb => encM 0 0x36 g l d a (codeOf texWs w + if nofb then 4 else 0)
  | .smp g l d a w nofb => encM 0 0x37 g l d a (codeOf texWs w + if nofb then 4 else 0)
  | .rtbox g l d a box spill => encM 0 0x38 g l d a ((if box then 1 else 0) + if spill then 2 else 0)
  | .rttri g l d a cullb => encM 0 0x39 g l d a (if cullb then 1 else 0)
  | .fe p g l d a fn => encMPfx p (encM 0 0x3A g l d a (codeOf feFns fn))
  | .gaddB32 g d a b => encT 1 0x00 0 g d a b
  | .gsubB32 g d a b => encT 1 0x00 1 g d a b
  | .gaddB64 g d a b => encT 1 0x01 0 g d a b
  | .gsubB64 g d a b => encT 1 0x01 1 g d a b
  | .gmulB32 g d a b => encT 1 0x02 0 g d a b
  | .gmulhS32 g d a b => encT 1 0x02 1 g d a b
  | .gand g d a b => encT 1 0x03 0 g d a b
  | .gor g d a b => encT 1 0x03 1 g d a b
  | .gxor g d a b => encT 1 0x04 0 g d a b
  | .gandn g d a b => encT 1 0x04 1 g d a b
  | .gshl g d a b => encT 1 0x05 0 g d a b
  | .gshr g d a b => encT 1 0x05 1 g d a b
  | .gminS32 g d a b => encT 1 0x06 0 g d a b
  | .gmaxS32 g d a b => encT 1 0x06 1 g d a b
  | .gcmpS32 g pt pf lt a b => encCmp 1 0x07 0 g pt pf lt a b
  | .gcmpZ32 g pt pf lt a b => encCmp 1 0x07 1 g pt pf lt a b
  | .gaddi g d a imm => encI 1 0x08 g d a imm.toNat
  | .gmovi g d imm => [mkWord 1 0x09 g (opCode d * 2 ^ 15 + imm.toNat)]
  | .gmov g d a => encT2 1 0x0A 0 g d a 0
  | .gsel s d a b => encT 1 0x0A 1 s d a b
  | .sreg g d r => [mkWord 1 0x0B g (opCode d * 2 ^ 15 + r.num * 2 ^ 8)]
  | .sregw g r b => mkWord 1 0x0B g (r.num * 2 ^ 8 + opCode b * 2 + 1) :: opLits b
  | .ctl g d r => [mkWord 1 0x0C g (opCode d * 2 ^ 15 + r.num * 2 ^ 8)]
  | .ctlw g r b => mkWord 1 0x0C g (r.num * 2 ^ 8 + opCode b * 2 + 1) :: opLits b
  | .bra g off => [mkWord 1 0x0D g off.toNat]
  | .call g off => [mkWord 1 0x0E g off.toNat]
  | .jmpr g a => mkWord 1 0x0F g (opCode a * 2 ^ 8 + 0) :: opLits a
  | .ret g => [mkWord 1 0x0F g 1]
  | .join g k => [mkWord 1 0x10 g (k.val * 2 ^ 15 + 0)]
  | .leave g k => [mkWord 1 0x10 g (k.val * 2 ^ 15 + 1)]
  | .waitm g k => [mkWord 1 0x11 g (k.val * 2 ^ 15 + 0)]
  | .mrd g d k => [mkWord 1 0x11 g (opCode d * 2 ^ 15 + k.val * 2 ^ 8 + 1)]
  | .mwr g k a => mkWord 1 0x12 g (k.val * 2 ^ 15 + opCode a * 2 ^ 8) :: opLits a
  | .vote g d p kind => [mkWord 1 0x12 g (opCode d * 2 ^ 15 + p.val * 2 ^ 8 + codeOf voteKinds kind * 2 + 1)]
  | .gred g d a op => encT2 1 0x13 0 g d a (codeOf redFns op)
  | .gscan g d a ex op => encT2 1 0x13 1 g d a (codeOf redFns op + if ex then 16 else 0)
  | .spawn g a b => mkWord 1 0x14 g (opCode a * 2 ^ 8 + opCode b * 2 + 0) :: opLits b
  | .spawnh g a b => mkWord 1 0x14 g (opCode a * 2 ^ 8 + opCode b * 2 + 1) :: opLits b
  | .exit g => [mkWord 1 0x15 g 0]
  | .yield g => [mkWord 1 0x15 g 1]
  | .phreg g role a => mkWord 1 0x16 g ((codeOf phRoles role + 1) * 2 ^ 15 + opCode a * 2 ^ 8 + 0) :: opLits a
  | .phdereg g role a => mkWord 1 0x16 g ((codeOf phRoles role + 1) * 2 ^ 15 + opCode a * 2 ^ 8 + 1) :: opLits a
  | .phInit g l d a => encM 1 0x17 g l d a 0
  | .phArrive g l d a => encM 1 0x17 g l d a 1
  | .phArrwait g l p a => mkWord 1 0x17 g (l.val * 2 ^ 18 + p.val * 2 ^ 11 + opCode a * 2 ^ 4 + 2) :: opLits a
  | .phWait g l p a => mkWord 1 0x17 g (l.val * 2 ^ 18 + p.val * 2 ^ 11 + opCode a * 2 ^ 4 + 3) :: opLits a
  | .phTest g l p a => mkWord 1 0x17 g (l.val * 2 ^ 18 + p.val * 2 ^ 11 + opCode a * 2 ^ 4 + 4) :: opLits a
  | .phDrop g l a => mkWord 1 0x17 g (l.val * 2 ^ 18 + opCode a * 2 ^ 4 + 5) :: opLits a
  | .qbind g k a => mkWord 1 0x18 g ((112 + k.val) * 2 ^ 15 + opCode a * 2 ^ 8) :: opLits a
  | .qfree g k => [mkWord 1 0x18 g ((112 + k.val) * 2 ^ 15 + 1)]
  | .waitc g ct val => [mkWord 1 0x19 g (codeOf ctrs ct * 2 ^ 18 + val.toNat)]
  | .seal g d => [mkWord 1 0x1A g (opCode d * 2 ^ 15 + 0)]
  | .bquery g d => [mkWord 1 0x1A g (opCode d * 2 ^ 15 + 1)]
  | .cflush p g a b => encCPfx p (mkWord 1 0x1B g (opCode a * 2 ^ 8 + opCode b * 2 + 0) :: (opLits a ++ opLits b))
  | .cinval p g a b => encCPfx p (mkWord 1 0x1B g (opCode a * 2 ^ 8 + opCode b * 2 + 1) :: (opLits a ++ opLits b))
  | .mmaMma g l d a => encM 1 0x1C g l d a 0
  | .mmaMmar g l k a => [mkWord 1 0x1C g (l.val * 2 ^ 18 + (112 + k.val) * 2 ^ 11 + opCode a * 2 ^ 4 + 1)]
  | .mmaMpair g l d a => encM 1 0x1C g l d a 2
  | .mmaMload g l a => mkWord 1 0x1C g (l.val * 2 ^ 18 + opCode a * 2 ^ 4 + 3) :: opLits a
  | .mmaMclear g l a => mkWord 1 0x1C g (l.val * 2 ^ 18 + opCode a * 2 ^ 4 + 4) :: opLits a
  | .mmaMrow g l a => mkWord 1 0x1C g (l.val * 2 ^ 18 + opCode a * 2 ^ 4 + 5) :: opLits a
  | .tmplInst g l d a => encM 1 0x1D g l d a 0
  | .tmplValid g l d a => encM 1 0x1D g l d a 1
  | .tmplDrop g l d => [mkWord 1 0x1D g (l.val * 2 ^ 18 + opCode d * 2 ^ 11 + 2)]
  | .rosin g => [mkWord 1 0x1E g 0]
  | .rosout g => [mkWord 1 0x1E g 1]
  | .rastTri g l d a => encM 1 0x1F g l d a 0
  | .foutTile g l d a => encM 1 0x20 g l d a 0
  | .foutEnd g l d a => encM 1 0x20 g l d a 1
  | .resmapSet g l d a => encM 1 0x21 g l d a 0
  | .resmapClear g l d a => encM 1 0x21 g l d a 1
  | .resmapDrain g l => [mkWord 1 0x21 g (l.val * 2 ^ 18 + 2)]
  | .trap g a => mkWord 1 0x22 g (opCode a * 2 ^ 8 + 0) :: opLits a
  | .brk g a => mkWord 1 0x22 g (opCode a * 2 ^ 8 + 1) :: opLits a
  | .rte g => [mkWord 1 0x23 g 0]
  | .migpt g => [mkWord 1 0x24 g 0]
  | .nop g => [mkWord 1 0x24 g 1]
  | .bar g => [mkWord 1 0x26 g 0]
  | .clbar g => [mkWord 1 0x26 g 1]
  | .deferredTrapDelivery _ => []
  | .loadComplete _ => []
  | .storePerformed _ => []
  | .cacheWriteback _ _ _ _ => []
  | .promotionRequest _ _ => []
  | .ctlwComplete _ => []
  | .binTimerExpiry _ _ => []
  | .spawnWaitServed _ => []
  | .taskQueueDelivery _ => []
  | .yieldExpiry _ => []
  | .copyAccept _ _ => []
  | .copyComplete _ => []
  | .copyFailure _ _ => []
  | .matrixCommandAccept _ => []
  | .matrixCommandStart _ => []
  | .matrixRowComplete _ => []
  | .residueMismatch _ _ => []
  | .pairwaitExpiry _ => []
  | .mmarResultPush _ _ => []
  | .rastAccept _ => []
  | .rastTriangle _ => []
  | .wdogRosExpiry _ _ => []
  | .tileReadComplete _ _ _ => []
  | .frameComplete _ _ => []
  | .encCfgWrite _ _ _ _ => []
  | .tableWalk _ => []
  | .runAheadEnd _ => []
  | .faultBatchWrite _ => []
  | .slcFresp _ _ => []
  | .tinvInval _ _ => []
  | .tinvRelease _ _ => []
  | .tinvInvalContext _ _ => []
  | .tinvComplete _ => []
  | .wdogBarExpiry _ => []
  | .wdogHangExpiry _ => []
  | .powerUp => []
  | .registerWrite _ _ _ _ _ => []
  | .lock _ => []
  | .run _ => []
  | .drain _ _ => []
  | .reset _ => []
  | .sliceResetComplete _ => []
  | .powerOff _ _ => []
  | .powerOn _ _ => []
  | .partCmd _ => []
  | .ceOwnWrite _ _ => []
  | .ceTailWrite _ _ => []
  | .ceDescriptorComplete _ => []
  | .contextCreate _ _ => []
  | .contextReload _ _ => []
  | .contextDestroy _ _ => []
  | .doorbell _ _ _ _ => []
  | .launchRecordTake _ _ => []
  | .placementDecision _ => []
  | .preemptSaveComplete _ => []
  | .ageLimitExpiry _ => []
  | .gridComplete _ => []
  | .migtempPass _ _ => []
  | .migwaitExpiry _ => []
  | .migrationTransferComplete _ => []
  | .whetstonePassStart => []
  | .whetstoneDrainTimeout => []
  | .whetstoneScanComplete _ => []
  | .whetstoneSkip => []
  | .monitorSample _ _ _ _ _ => []
  | .monCtlWrite _ _ _ => []
  | .monClr _ _ => []
  | .leaseGrant _ _ => []
  | .leaseReclaim _ _ => []
  | .leaseScrubComplete _ _ => []
  | .powerMeterTick _ => []
  | .qosFabWrite _ _ _ => []
  | .timeSet _ => []
  | .pause _ _ => []
  | .pauseComplete _ => []
  | .resume _ _ => []
  | .slcVtvalWrite _ _ => []
  | .slcCkvalWrite _ _ => []
  | .fwupdGo _ => []
  | .fwupdComplete => []
  | .sealSizeWrite _ _ _ => []
  | .sealFlush _ _ _ => []
  | .sealFlushComplete _ => []
  | .sweepLineCommit _ _ => []
  | .linkFlitReceive _ _ _ => []
  | .linkInboundAccess _ _ _ => []
  | .worldCreate _ => []
  | .worldDestroy _ => []
  | .ctrread _ _ _ => []
  | .tagflip _ _ _ => []
  | .spdmRequest _ => []
  | .worldSessionChange _ _ _ => []
  | .illegalInstruction _ => []
  | .fetchProtection _ => []
  | .tmplAccept _ => []
  | .resmapAccept _ => []
  | .foutAccept _ => []
  | .hostAccess _ _ _ => []
  | .linkUpChange _ _ _ => []
  | .linkKeyChange _ => []
  | .uncorrectableError _ => []
  | .migtempRearm _ _ => []
  | .packageReset => []

/-- The instruction that the decoder reads from a table word `w` (32 bits and more, later words above it), with MEMDEF at reset and zero words after it. -/
def decodeTableWord (_nbits w : Nat) : Option Instr :=
  match decode .glb [BitVec.ofNat 32 w, BitVec.ofNat 32 (w / 2 ^ 32), BitVec.ofNat 32 (w / 2 ^ 64), BitVec.ofNat 32 (w / 2 ^ 96)] with
  | .ok (i, _) => some i
  | .error _ => none

end Sys2Proof
end

