-- ==== Sys2Proof/Machine/Tick.lean ====
section
/-! DEFINITION. The front end and the clock: fetching an instruction (05 R110), issue sets, slots, the issue table and issue tokens
(03 R45-R49; 27 R408), what one clock adds to every counter (23 R368; 19 R313; 21 R333; 27 R419), and the schedule that runs when the
agenda is empty (log 1). -/

namespace Sys2Proof.Machine

/-! Fetch (05 R80, R110). -/

/-- What one word's fetch finds. -/
inductive WordRes where
  | ok (w : Word)
  | beyond
  | noX (va : Nat)
  | miss (va : Nat)
  | poison (va : Nat)
deriving DecidableEq, Repr

/-- The byte address of the word at a PC. -/
def State.codeVa (s : State) (c : Nat) (pc : Word) : Nat := (s.ctx c).codebase + 4 * pc.toNat

/-- The word at a PC of a context's code image, read at its home through a core's translations. -/
def State.fetchWord (s : State) (core c : Nat) (pc : Word) : WordRes × State :=
  if (s.ctx c).codesize ≤ pc.toNat then (.beyond, s)
  else
    let va := s.codeVa c pc
    match s.tlbFind core c va false with
    | none => (.miss va, s)
    | some e =>
      if leafSys e.leaf || !leafX e.leaf then (.noX va, s)
      else
        let (x, p, s) := s.homeBytes (ctxFirst c) c (leafComp e.leaf % 8) (e.pa va) 4 va
        if p = 0 then (.ok (BitVec.ofNat 32 x), s) else (.poison va, s)

/-- What the fetch of a whole instruction comes to. -/
inductive Fetched where
  | instr (i : Instr) (len : Nat) (word : Word)
  | illegal (aux word : Word)
  | beyond
  | noX (va : Nat)
  | miss (va : Nat)
  | poison (va : Nat)
deriving DecidableEq, Repr

/-- The instruction word of some fetched words: the one after a prefix, else the first. -/
def instrWord (ws : List Word) : Word :=
  match ws with
  | [] => 0
  | [w] => w
  | w :: v :: _ => if isModifier w then v else w

/-- One more word is fetched until the words decode, cannot decode, or the image ends; `n` bounds the length of an instruction. -/
def State.fetchMore (s : State) (core c : Nat) (sp : Space) (pc : Word) (n : Nat) (ws : List Word) : Fetched × State :=
  match n with
  | 0 => (.illegal 0 (instrWord ws), s)
  | n + 1 =>
    match s.fetchWord core c (pc + BitVec.ofNat 32 ws.length) with
    | (.beyond, s) =>
      if ws.isEmpty then (.beyond, s)
      else match decode sp ws with
        | .ok (i, k) => (.instr i k (instrWord ws), s)
        | .error r => (.illegal r.aux (instrWord ws), s)
    | (.noX va, s) => (.noX va, s)
    | (.miss va, s) => (.miss va, s)
    | (.poison va, s) => (.poison va, s)
    | (.ok w, s) =>
      match decode sp (ws ++ [w]) with
      | .ok (i, k) => (.instr i k (instrWord (ws ++ [w])), s)
      | .error r =>
        if r.why = .missingWord then s.fetchMore core c sp pc n (ws ++ [w])
        else (.illegal r.aux (instrWord (ws ++ [w])), s)

/-- The longest instruction: prefix, instruction word and two literal words (05 R80, R87). -/
def maxWords : Nat := 4

/-- The instruction at a PC for a group: MEMDEF's space decides whether an address literal is one word or two (05 R87). -/
def State.fetch (s : State) (gid : Nat) (pc : Word) : Fetched × State :=
  let t := s.team (teamOf gid)
  s.fetchMore t.core t.ctx (spaceOf (fld (s.ctlFor t.ctx gid).memdef.toNat 17 15)) pc maxWords []

/-! Issue classes and issue sets (03 R46-R48). -/

/-- Issue classes. -/
inductive Cls where
  | lane | mem | group | engine
deriving DecidableEq, Repr

/-- The class of an instruction word (03 R48). -/
def clsOf (w : Word) : Cls :=
  let op := bits w 30 25
  if w.getLsbD 31 then
    (if op = 0x1C ∨ op = 0x1D ∨ op = 0x1F ∨ op = 0x20 ∨ op = 0x21 then .engine else .group)
  else if op < 0x2C then .lane else .mem

/-- Sets that a class may still issue in a clock, and the count of one more. -/
def Slots.room (x : Slots) : Cls → Bool
  | .lane => decide (x.lane < 4)
  | .mem => decide (x.mem < 1)
  | .group => decide (x.group < 2)
  | .engine => decide (x.engine < 1)
def Slots.take (x : Slots) : Cls → Slots
  | .lane => { x with lane := x.lane + 1 }
  | .mem => { x with mem := x.mem + 1 }
  | .group => { x with group := x.group + 1 }
  | .engine => { x with engine := x.engine + 1 }

/-- The instruction issues per group: every group-set instruction, shfl.idx and shfl.xor (03 R47). -/
def perGroup (i : Instr) (word : Word) : Bool :=
  match i with
  | .shflIdx _ _ _ _ => true
  | .shflXor _ _ _ _ => true
  | _ => word.getLsbD 31

/-- Threads of a team that are ready at a PC, with the clock since which they stand there. -/
def State.readyThreads (s : State) (team : Nat) (pc : Word) : List (Nat × Nat) :=
  (s.threads.filter (fun e => decide (teamOf (gidOf e.1) = team) && s.readyAtPc e.1 pc)).map (fun e => (e.1, e.2.since))

/-- A set drawn from chosen ready threads: in each lane the one that has waited longest at the PC, the lower group first (03 R46). -/
def laneSet (ready : List (Nat × Nat)) (tids : List Nat) : List Nat :=
  ((ready.filter (fun e => tids.contains e.1)).filter (fun e => ready.all (fun o =>
    decide (laneOf o.1 ≠ laneOf e.1) || decide (e.2 < o.2) || (decide (e.2 = o.2) && decide (e.1 ≤ o.1))))).map (·.1)

/-- The members of one group. -/
def oneGroup (tids : List Nat) : List Nat :=
  match tids with
  | [] => []
  | t :: _ => tids.filter (fun u => gidOf u = gidOf t)

/-! Readiness (03 R45, R75). A thread that its next instruction would only make wait is not ready: whether it would is what that
instruction itself, executed on the thread alone or on its group's threads there, comes to (log 1). -/

/-- Threads that stand at a PC and that nothing but their instruction can hold back. -/
def State.standingAt (s : State) (team : Nat) (pc : Word) : List (Nat × Nat) :=
  (s.readyThreads team pc).filter (fun e => !s.runAheadOver (gidOf e.1))

/-- Nothing of the thread is outstanding, so that no lane-form or group-form instruction waits for it. -/
def State.atRest (s : State) (tid : Nat) : Bool :=
  let t := s.thread tid
  t.sb.isEmpty && t.ldc == 0 && t.stc == 0 && t.batc == 0 && t.engc == 0 && t.resc == 0 && t.openCopies.isEmpty &&
  t.acqPending.isEmpty && t.ticket.isNone && (s.group (gidOf tid)).binds.isEmpty

/-- Sweeps under way in the slices. -/
def State.sweepsOn (s : State) : List (List Sweep) := s.slices.map (fun e => e.2.sealing.sweeps)

/-- Members of a set that the instruction would make try again: they wait for what it needs. One whose attempt sets off a sweep that it
then waits for (29 R427) makes that attempt. -/
def State.triesAgain (s : State) (i : Instr) (set : Issue) : List Nat :=
  match exec i { s with cur := set } with
  | .next u =>
    if u.sweepsOn = s.sweepsOn then set.tids.filter (fun t =>
      let x := u.thread t
      decide (x.wait = .retry) && decide (x.pc = set.pc) && decide (s.clock < x.readyAt))
    else []
  | _ => []

/-- Of the threads that stand at an instruction, those that are ready. -/
def State.unheld (s : State) (i : Instr) (set : Issue) (standing : List (Nat × Nat)) : List (Nat × Nat) :=
  let quick : Bool := clsOf set.word = .lane ∨ clsOf set.word = .group
  if perGroup i set.word then
    let all := standing.map (·.1)
    let held := (groupsIn all).flatMap (fun g =>
      let ts := all.filter (fun t => gidOf t = g)
      if quick && ts.all s.atRest then [] else s.triesAgain i { set with tids := ts })
    standing.filter (fun e => !held.contains e.1)
  else standing.filter (fun e => (quick && s.atRest e.1) || (s.triesAgain i { set with tids := [e.1] }).isEmpty)

/-- What a (team, PC) pair offers: what its fetch finds, and the threads ready there. -/
def State.offer (s : State) (team : Nat) (pc : Word) : Fetched × List (Nat × Nat) × State :=
  let l := s.standingAt team pc
  match l with
  | [] => (.beyond, [], s)
  | (t, _) :: _ =>
    match s.fetch (gidOf t) pc with
    | (.instr i len word, u) => (.instr i len word, u.unheld i { team := team, pc := pc, len := len, word := word } l, u)
    | (f, u) => (f, l, u)

/-- The class of what a fetch has found. -/
def Fetched.cls : Fetched → Option Cls
  | .instr _ _ word => some (clsOf word)
  | .illegal _ word => some (clsOf word)
  | _ => none

/-- The (team, PC) pair has a ready thread whose instruction is of a class. -/
def State.offersSet (s : State) (team : Nat) (pc : Word) (k : Cls) : Bool :=
  let o := s.offer team pc
  decide (o.1.cls = some k) && !o.2.1.isEmpty

/-- A set of chosen ready threads for an instruction. -/
def issueSet (ready : List (Nat × Nat)) (tids : List Nat) (alone : Bool) : List Nat :=
  if alone then oneGroup ((ready.filter (fun e => tids.contains e.1)).map (·.1)) else laneSet ready tids

/-! Issue tokens (27 R408), as fractions. -/

def fracAdd (a b : Nat × Nat) : Nat × Nat :=
  let n := a.1 * b.2 + b.1 * a.2
  let d := a.2 * b.2
  let g := Nat.gcd n d
  (n / Nat.max 1 g, d / Nat.max 1 g)
def fracLe (a b : Nat × Nat) : Bool := decide (a.1 * b.2 ≤ b.1 * a.2)

/-- Tokens of a context on a core. -/
def Core.tokens (x : Core) (c : Nat) : Nat × Nat := (spGet x.tok c).getD (0, 1)
def Core.holds (x : Core) (c : Nat) : Bool := fracLe (1, 1) (x.tokens c)

/-- Contexts with a team that holds resources of the core. -/
def State.residents (s : State) (core : Nat) : List Nat := (s.teamsOn core).foldl (fun l e => insertNew e.2.ctx l) []

/-- One clock's refill: each resident context's share of 8 tokens, at most 64 held. -/
def State.refill (s : State) (core : Nat) (x : Core) : Core :=
  let rs := s.residents core
  let w := rs.foldl (fun n c => n + (s.ctx c).isw) 0
  { x with tok := rs.foldl (fun tok c =>
    let share : Nat × Nat := if w = 0 then (0, 1) else (8 * (s.ctx c).isw, w)
    let t := fracAdd ((spGet tok c).getD (0, 1)) share
    spPut tok c (if fracLe (64, 1) t then (64, 1) else t)) x.tok }

/-- A set costs one token of a context that holds one, and nothing else. -/
def State.charge (s : State) (core c : Nat) : State :=
  s.modCore core (fun (x : Core) =>
    if x.holds c then { x with tok := spPut x.tok c ((x.tokens c).1 - (x.tokens c).2, (x.tokens c).2) } else x)

/-! The issue table (03 R49). -/

/-- Entries of the table. -/
def tableSize : Nat := 512

/-- The (team, PC) pair has an entry, or one is free for it. -/
def Core.admits (x : Core) (team : Nat) (pc : Word) : Bool :=
  (x.table.take tableSize).any (fun e => decide (e.team = team) && decide (e.pc = pc)) || decide (x.table.length < tableSize)

/-- The pair's entry issues in this clock. -/
def State.hitEntry (s : State) (core team : Nat) (pc : Word) : State :=
  s.modCore core (fun (x : Core) =>
    if x.table.any (fun e => decide (e.team = team) && decide (e.pc = pc)) then
      { x with table := x.table.map (fun e => if e.team = team ∧ e.pc = pc then { e with hit := true } else e) }
    else { x with table := x.table ++ [{ team := team, pc := pc, age := 0, hit := true }] })

/-- Ages and requests at the end of a clock: an entry without ready threads is given up, one that issued nothing ages, and each pair
of ready threads without an entry requests one, in the order in which they came to stand there. -/
def State.ageTable (s : State) (core : Nat) (x : Core) : Core :=
  let pairs := s.threads.foldl (fun (l : List (Nat × Word)) e =>
    let t := teamOf (gidOf e.1)
    if (s.team t).core = core ∧ l.contains (t, e.2.pc) = false then l ++ [(t, e.2.pc)] else l) []
  let ready := pairs.flatMap (fun p => (s.offer p.1 p.2).2.1.map (fun r => (p.1, p.2, r.2)))
  let has (l : List TableEnt) (t : Nat) (pc : Word) : Bool := l.any (fun e => decide (e.team = t) && decide (e.pc = pc))
  let kept := x.table.filter (fun e => ready.any (fun r => decide (r.1 = e.team) && decide (r.2.1 = e.pc)))
  let held := (kept.take tableSize).map (fun e => { e with age := if e.hit then e.age else Nat.min 255 (e.age + 1), hit := false })
  let table := held ++ kept.drop tableSize
  let late := ready.foldl (fun n r => Nat.max n r.2.2) 0
  let fresh := ready.filter (fun r => !has table r.1 r.2.1)
  let inOrder := (fresh.filter (fun r => r.2.2 < late)) ++ (fresh.filter (fun r => r.2.2 = late))
  { x with table := inOrder.foldl (fun l r => if has l r.1 r.2.1 then l else l ++ [{ team := r.1, pc := r.2.1, age := 0 }]) table }

/-! Issuing a set (03 R46-R49; 23 R361; 25 R387; 27 R408). -/

/-- What the issue of a set does beside its instruction: slot, token, entry, stamp, progress, run-ahead's count. -/
def State.noteIssue (s : State) (core c team : Nat) (pc : Word) (cls : Cls) (tids : List Nat) : State :=
  let s := (s.charge core c).modCore core (fun (x : Core) => { x with slots := x.slots.take cls })
  let s := (s.hitEntry core team pc).stamp c core
  let s := s.modCtx c (fun (x : Ctx) => { x with stirred := true })
  (groupsIn tids).foldl (fun (s : State) g => s.modGroup g (fun (x : Group) =>
    { x with park := x.park.map (fun p => if p.running then { p with issued := p.issued + 1 } else p) })) s

/-- The acquire that a thread's first instruction makes (03 R67; 21 R331); run-ahead acquires nothing (23 R360). -/
def State.startAcquires (s : State) (tids : List Nat) : State :=
  tids.foldl (fun (s : State) t =>
    match (s.thread t).startAcq with
    | some sc =>
      if (s.group (gidOf t)).inRa then s
      else (s.acquireAt (s.whoT t) sc).modThread t (fun (x : Thread) => { x with startAcq := none })
    | none => s) s

/-- Pages that run-ahead has fetched from count as translated by it (23 R361). -/
def State.noteFetch (s : State) (tids : List Nat) (pc : Word) (len : Nat) : State :=
  (groupsIn tids).foldl (fun (s : State) g =>
    if (s.group g).inRa then
      (List.range len).foldl (fun (s : State) k =>
        let t := s.team (teamOf g)
        match s.tlbFind t.core t.ctx (s.codeVa t.ctx (pc + BitVec.ofNat 32 k)) false with
        | some e => s.noteTranslated g e
        | none => s) s
    else s) s

/-- A fetch that must walk: the members wait for it; in run-ahead the page is translated at once, or gathered and the run ends
(05 R110; 23 R360). -/
def State.fetchMiss (s : State) (tids : List Nat) (va : Nat) : State :=
  (groupsIn tids).foldl (fun (s : State) g =>
    let ts := tids.filter (fun t => gidOf t = g)
    if (s.group g).inRa then
      match s.raXlate (ts.headD 0) va .fetch with
      | (.got _ _, s) => s
      | (_, s) => s.endRunAhead ts
    else s.waitXlate g ts (ts.map (fun t => (t, va, .fetch)))) s

/-- A fetch of a poisoned sector: 0x0D at the fetched PC, or what 25 R374 decides; run-ahead ends there. -/
def State.fetchPoison (s : State) (tids : List Nat) (va : Nat) : State :=
  let ra (t : Nat) : Bool := (s.group (gidOf t)).inRa
  let s := s.endRunAhead (tids.filter ra)
  let met := tids.filter (fun t => !ra t)
  let s := met.foldl (fun (s : State) t => s.consume t 7 va (((s.tlbFind (s.coreOfT t) (s.ctxOfT t) va false).map (·.pa va)).getD 0)
    (fun s => s.takeTrap t { code := 0x0D, addr := BitVec.ofNat 64 va } s.cur.pc s.cur.pc)) s
  met.foldl (fun (s : State) t => s.modReal t (fun (x : Thread) => { x with readyAt := Nat.max x.readyAt (s.clock + 1) })) s

/-- What an issue attempt comes to: an instruction to execute in a state, or a state in which the attempt has ended. -/
inductive Attempt where
  | run (i : Instr) (s : State)
  | ended (s : State)
deriving DecidableEq, Repr

/-- Another entry of the core goes before a pair's in a class: one whose context holds issue tokens before one whose context does not
(27 R408), and else one at age 255 before a younger one, the older first (03 R49). -/
def State.yields (s : State) (core c team : Nat) (pc : Word) (k : Cls) : Bool :=
  let x := s.core core
  let es := x.table.take tableSize
  let here (e : TableEnt) : Bool := decide (e.team = team) && decide (e.pc = pc)
  let place := es.findIdx here
  let aged : Bool := es.any (fun e => here e && decide (e.age = 255))
  es.zipIdx.any (fun e =>
    let holds := x.opp.contains (s.team e.1.team).ctx
    !here e.1 &&
    ((holds && !x.opp.contains c) || (holds == x.opp.contains c && decide (e.1.age = 255) && (!aged || decide (e.2 < place)))) &&
    s.offersSet e.1.team e.1.pc k)

/-- An issue of some threads of a team at a PC: the instruction is fetched and the set formed of those that are ready; without a free
slot or table entry, or while another entry goes first, nothing issues. -/
def State.beginIssue (s : State) (team : Nat) (pc : Word) (tids : List Nat) : Attempt :=
  let any := ((s.standingAt team pc).filter (fun e => tids.contains e.1)).map (·.1)
  match any with
  | [] => .ended s
  | t :: _ =>
    let core := s.coreOfT t
    let c := s.ctxOfT t
    let (f, ready, s) := s.offer team pc
    let go (i : Instr) (len : Nat) (word : Word) (alone : Bool) : Attempt :=
      let set := issueSet ready tids alone
      if !set.isEmpty && (s.core core).slots.room (clsOf word) && (s.core core).admits team pc && !s.yields core c team pc (clsOf word) then
        let s := { s with cur := { team := team, pc := pc, len := len, word := word, tids := set } }
        .run i (((s.noteIssue core c team pc (clsOf word) set).noteFetch set pc len).startAcquires set)
      else .ended s
    let stay (s : State) : State := { s with cur := { team := team, pc := pc, len := 1, word := 0, tids := any } }
    match f with
    | .instr i len word => go i len word (perGroup i word)
    | .illegal aux word => go (.illegalInstruction aux) 1 word (word.getLsbD 31)
    | .beyond => .run (.fetchProtection 0) (stay s)
    | .noX va => .run (.fetchProtection (BitVec.ofNat 64 va)) ((stay s).noteFetch any pc 1)
    | .miss va => .ended ((stay s).fetchMiss any va)
    | .poison va => .ended ((stay s).fetchPoison any va)

/-- What every step brings about beside its instruction or event: capacity that a choice waits for is held for it (21 R335), and
DRAINED follows the partitions (27 R400). -/
def State.settleStep (s s' : State) : State :=
  (List.range 12).foldl (fun (a : State) i => if a.slcState i = stDrain && a.first i = i then a.drainCheck i else a) (s.reserveAll s')

/-! One clock. -/

/-- The context has a thread that is resident and not stopped. -/
def State.runsSomewhere (s : State) (c : Nat) : Bool :=
  s.threads.any (fun e => decide (s.ctxOfT e.1 = c) && s.teamIssues (teamOf (gidOf e.1)))

/-- The contexts for which the new clock is an opportunity clock on a core (23 R368). -/
def State.opportunities (s : State) (core : Nat) (x : Core) : List Nat :=
  if (s.slice (coreSlice core)).throttled then []
  else (s.residents core).filter (fun c => x.holds c &&
    (s.teamsOn core).any (fun e => decide (e.2.ctx = c) && s.teamIssues e.1))

/-- Counted waits of the threads (23 R368): one more in an opportunity clock of the thread's core; parked threads add nothing. -/
def State.countWaits (s : State) : State :=
  { s with threads := s.threads.map (fun e =>
      if e.2.wait.counted && !(s.group (gidOf e.1)).parked && s.groupIssues (gidOf e.1) &&
          (s.core (s.coreOfT e.1)).opp.contains (s.ctxOfT e.1) then (e.1, { e.2 with wdogBar := e.2.wdogBar + 1 }) else e) }

/-- The clock is an opportunity clock for a ticket: on the core of its thread, while that thread's team is not stopped; on any core of
its context while no thread holds it yet (19 R313; 23 R368). -/
def State.ticketAges (s : State) (k : Ticket) : Bool :=
  match k.tid with
  | some t => s.teamIssues (teamOf (gidOf t)) && (s.core (s.coreOfT t)).opp.contains k.ctx
  | none => s.cores.any (fun e => e.2.opp.contains k.ctx)

/-- The tickets that stand oldest on their key age in their opportunity clocks (19 R313). -/
def ageTickets (ages : Ticket → Bool) : List Ticket → List (Nat × Nat) → List Ticket
  | [], _ => []
  | k :: r, seen =>
    if k.st = 2 then k :: ageTickets ages r seen
    else if seen.contains (k.ctx, k.key) then k :: ageTickets ages r seen
    else (if ages k then { k with count := k.count + 1 } else k) :: ageTickets ages r ((k.ctx, k.key) :: seen)

/-- The cores that a grid's teams hold. -/
def State.coresHeld (s : State) (g : Nat) : Nat :=
  ((s.teams.filter (fun e => decide (e.2.grid = g) && (match e.2.state with | .saved _ _ => false | _ => true))).foldl
    (fun l e => insertNew e.2.core l) ([] : List Nat)).length

/-- What the clock that ends adds to the counters. -/
def State.endClock (s : State) : State :=
  let opp := s.cores.flatMap (fun e => e.2.opp)
  let s := s.countWaits
  let unplaced (g : Nat) : Bool := s.clusters.any (fun e => decide (e.2.grid = g) && decide (e.2.state = .waiting))
  let waits (c : Nat) : Bool := s.slices.any (fun e => e.2.outstanding.any (fun b => b.ctx = c))
  { s with
    ctxs := s.ctxs.map (fun e => (e.1, { e.2 with
      hang := if e.2.stirred || waits e.1 then 0 else if opp.contains e.1 then e.2.hang + 1 else e.2.hang,
      stirred := false,
      clockCount := if s.runsSomewhere e.1 then (e.2.clockCount + 1) % 2 ^ 64 else e.2.clockCount })),
    slices := s.slices.map (fun e => (e.1, { e.2 with tickets := ageTickets s.ticketAges e.2.tickets [] })),
    grids := s.grids.map (fun e => (e.1, if e.2.nextCluster < e.2.lrec.clusters ∨ unplaced e.1 = true then { e.2 with service := e.2.service + s.coresHeld e.1 } else e.2)) }

/-- A core at the start of a clock. -/
def State.openCore (s : State) (core : Nat) (x : Core) : Core :=
  let y := s.refill core { s.ageTable core x with slots := {} }
  { y with opp := s.opportunities core y }

/-- The events that wait in the slices are appended to their queues, but for a slice whose controller changes firmware (27 R420). -/
def State.settleErrors (s : State) : State :=
  (List.range 12).foldl (fun (s : State) i =>
    let v := s.slice i
    if v.errWait = [] ∨ v.fwBusy = true then s
    else v.errWait.foldl (fun (s : State) e => s.appendError i e.1 e.2) (s.modSlice i (fun (x : Slice) => { x with errWait := [] }))) s

/-- The next clock: masks are tested and triggers taken with the clock's updates all in, the counters move, and accepted resmaps and
finished grids are looked at. -/
def State.tick (s : State) : State :=
  let s := s.settleErrors.settleAllMasks.settleTriggers.endClock
  let s := { s with clock := s.clock + 1, plan := none }
  let s : State := { s with cores := s.cores.map (fun e => (e.1, s.openCore e.1 e.2)) }
  let s := (s.ctxs.filter (fun e => !e.2.drains.isEmpty)).foldl (fun (s : State) e => s.settleDrains e.1) s
  s.grids.foldl (fun (s : State) e => s.gridCheck e.1) s

/-! The schedule that runs when the agenda is empty (log 1): within a clock the machine's own events in a fixed order, then issue sets
in the order of OVT12-A0 (03 R49; 27 R408), then the next clock. -/

/-- Events that may be due on a core. -/
def State.coreEvents (s : State) (c : Nat) (x : Core) : List Instr :=
  List.flatten [
    x.bins.map (fun b => Instr.binTimerExpiry c b.no),
    if x.spawnQ.isEmpty then [] else [Instr.spawnWaitServed c],
    if x.tcmds.isEmpty then [] else [Instr.tmplAccept c],
    x.pushes.map (fun p => Instr.copyAccept c p.chan),
    x.copies.map (fun y => match s.copyFails c y with
      | some why => Instr.copyFailure y.id why
      | none => Instr.copyComplete y.id),
    if x.mcmds.isEmpty then []
      else [Instr.matrixCommandAccept c, Instr.matrixCommandStart c, Instr.matrixRowComplete c, Instr.pairwaitExpiry c],
    if x.lease.st = 3 then [Instr.leaseScrubComplete (coreSlice c) (corePos c)] else []]

/-- Events that may be due on a stream of an encoder lane. -/
def streamEvents (i k : Nat) (v : Stream) : List Instr :=
  List.flatten [
    if v.tiles.isEmpty then []
      else [Instr.tileReadComplete i k none, Instr.tileReadComplete i k (some .cancelled), Instr.tileReadComplete i k (some .poison)],
    if v.frames.isEmpty then [] else [Instr.frameComplete i k]]

/-- Events that may be due in a slice. -/
def State.sliceEvents (s : State) (i : Nat) (x : Slice) : List Instr :=
  List.flatten [
    if x.raster.isEmpty then [] else [Instr.rastAccept i, Instr.rastTriangle i],
    if x.fcmds.isEmpty then [] else [Instr.foutAccept i],
    x.streams.flatMap (fun v => streamEvents i v.1 v.2),
    x.tickets.map (fun k => Instr.wdogRosExpiry i k.id),
    if x.tinv.isSome then [Instr.tinvComplete i] else [],
    if x.resetFrom.isSome then [Instr.sliceResetComplete i] else [],
    if x.meterAt + 1750 ≤ s.clock then [Instr.powerMeterTick i] else [],
    x.sealing.sweeps.map (fun w => Instr.sweepLineCommit i w.page),
    if fld (s.sreg i 0x800C).toNat 0 0 = 1 then [Instr.sealFlushComplete i] else []]

/-- Events that may be due in a partition. -/
def State.partEvents (s : State) (f : Nat) : List Instr :=
  List.flatten [
    if (s.slice f).waitingBatches.isEmpty then [] else [Instr.faultBatchWrite f],
    if (s.slice f).taskq.isEmpty then [] else [Instr.taskQueueDelivery f],
    if (s.slice f).rescmds.isEmpty then [] else [Instr.resmapAccept f],
    if s.slcState f = stRun ∨ s.slcState f = stDrain then
      (s.slice f).rung.map (fun q => Instr.launchRecordTake f q) ++ [Instr.placementDecision f, Instr.preemptSaveComplete f] else []]

/-- Events that may be due for threads, groups and contexts. -/
def State.threadEvents (s : State) : List Instr :=
  List.flatten [
    (s.threads.filter (fun e => !e.2.deferred.isEmpty)).map (fun e => Instr.deferredTrapDelivery e.1),
    s.loads.map (fun l => Instr.loadComplete l.id),
    s.stores.map (fun x => Instr.storePerformed x.id),
    s.walks.map (fun w => Instr.tableWalk w.id),
    s.promos.map (fun p => Instr.promotionRequest p.core p.id),
    s.ctxs.flatMap (fun e => e.2.writes.map (fun w => Instr.ctlwComplete w.id)),
    (s.groups.filter (fun e => e.2.parked)).map (fun e => Instr.runAheadEnd e.1),
    s.groups.flatMap (fun e => (unionNew [] (e.2.results.map (·.2.1))).map (fun k => Instr.mmarResultPush e.1 k)),
    (s.threads.filter (fun e => s.barExpired e.1)).map (fun e => Instr.wdogBarExpiry e.1),
    s.ctxs.map (fun e => Instr.wdogHangExpiry e.1),
    (s.ctxs.filter (fun e => decide (0 < e.2.paused))).map (fun e => Instr.pauseComplete e.1)]

/-- Events that may be due for launches, teams and the device-wide units. -/
def State.deviceEvents (s : State) : List Instr :=
  List.flatten [
    (s.clusters.filter (fun e => e.2.chosen.isSome && !e.2.closed)).map (fun e => Instr.ageLimitExpiry e.1),
    (s.grids.filter (fun e => decide (e.2.phase = 1))).map (fun e => Instr.gridComplete e.1),
    (s.teams.filter (fun e => e.2.mig.isSome)).map (fun e => Instr.migwaitExpiry e.1),
    (s.teams.filter (fun e => e.2.mig.isSome)).map (fun e => Instr.migrationTransferComplete e.1),
    (s.ces.filter (fun e => decide (e.2.head ≠ e.2.tail))).map (fun e => Instr.ceDescriptorComplete e.1),
    [Instr.whetstonePassStart, Instr.whetstoneDrainTimeout, Instr.whetstoneSkip, Instr.whetstoneScanComplete true],
    if s.sec.fwSlice.isSome then [Instr.fwupdComplete] else []]

/-- The events that the machine itself may bring about now. Each has no effect unless its condition holds. -/
def State.ownEvents (s : State) : List Instr :=
  List.flatten [
    s.threadEvents,
    s.cores.flatMap (fun e => s.coreEvents e.1 e.2),
    s.slices.flatMap (fun e => s.sliceEvents e.1 e.2),
    ((List.range 12).filter (fun i => decide (s.first i = i))).flatMap (fun f => s.partEvents f),
    s.deviceEvents]

/-- An entry put among others by falling age, after those of its own age. -/
def insertAge (e : TableEnt) : List TableEnt → List TableEnt
  | [] => [e]
  | x :: r => if x.age < e.age then e :: x :: r else x :: insertAge e r

/-- The entries of a core in the order of OVT12-A0: holders of tokens before borrowers, age 255 first, then by age, then by allocation. -/
def State.entryOrder (s : State) (core : Nat) : List TableEnt :=
  let x := s.core core
  let es := x.table.take tableSize
  let byAge (l : List TableEnt) : List TableEnt := l.foldl (fun acc e => insertAge e acc) []
  let holder (e : TableEnt) : Bool := x.opp.contains (s.team e.team).ctx
  byAge (es.filter holder) ++ byAge (es.filter (fun e => !holder e))

/-- A set that an entry can issue now: its members, none where no thread is ready or no slot is left for the instruction. -/
def State.entryChoice (s : State) (core : Nat) (e : TableEnt) : Option Choice :=
  let o := s.offer e.team e.pc
  let ready := o.2.1
  let all := ready.map (·.1)
  let pick (word : Word) (alone : Bool) : Option Choice :=
    if (s.core core).slots.room (clsOf word) then some (.issue e.team e.pc (issueSet ready all alone)) else none
  if ready.isEmpty then none
  else match o.1 with
    | .instr i _ word => pick word (perGroup i word)
    | .illegal _ word => pick word (word.getLsbD 31)
    | _ => some (.issue e.team e.pc (issueSet ready all false))

/-- The next issue set over the cores. -/
def State.nextIssue (s : State) : Option Choice :=
  (s.cores.map (·.1)).findSome? (fun c => (s.entryOrder c).findSome? (s.entryChoice c))

end Sys2Proof.Machine
end

