-- ==== Sys2Proof/Machine/Step.lean ====
section
/-! DEFINITION. One step of the machine: the next choice of the agenda, or what the machine does by itself (log 1). -/

namespace Sys2Proof.Machine

/-- exec of an instruction or event, with what every step brings about beside it. -/
def State.run (s : State) (i : Instr) : Host.Outcome State Fault Refusal :=
  match exec i s with
  | .next t => .next (s.settleStep t)
  | .fault f => .fault f
  | .refused r => .refused r

/-- An issue set attempts to issue. -/
def State.issue (s : State) (team : Nat) (pc : Word) (tids : List Nat) : Host.Outcome State Fault Refusal :=
  match s.beginIssue team pc tids with
  | .run i t => t.run i
  | .ended t => .next (s.settleStep t)

/-- One choice carried out. -/
def State.choose (s : State) (c : Choice) : Host.Outcome State Fault Refusal :=
  match c with
  | .issue team pc tids => s.issue team pc tids
  | .event i => s.run i

/-- What the machine does with an empty agenda. -/
def State.byItself (s : State) : Host.Outcome State Fault Refusal :=
  if !s.booted then s.run .powerUp
  else match s.plan.getD s.ownEvents with
  | i :: r => State.run { s with plan := some r } i
  | [] =>
    match s.nextIssue with
    | some c => State.choose { s with plan := some [] } c
    | none => .next (s.settleStep s.tick)

def step (s : State) : Host.Outcome State Fault Refusal :=
  match s.agenda with
  | c :: rest => State.choose { s with agenda := rest } c
  | [] => s.byItself

/-! Placing one instruction where the next step fetches it. -/

/-- Little-endian bytes of `n` words from an address on, as cells; bytes equal to what memory holds anyway are not listed. -/
def wordCells (base : Nat) (n w : Nat) : List Host.Cell :=
  ((List.range (4 * n)).map (fun i => (base + i, BitVec.ofNat 8 (w / 2 ^ (8 * i))))).filter (fun e => e.2 ≠ 0)

/-- The machine with an instruction placed: slice 0 is in RUN as partition 0 with one core, context 0 has a code image of four words
whose page is translated, one team of one group of 32 threads stands at PC 0, and the agenda's first choice issues them. -/
def State.withFetchWord (s : State) (_nbits w : Nat) : State :=
  let core := coreKey 0 0
  let page : TlbEnt := { ctx := ctxKey 0 0, base := 0x100000, size := 65536, leaf := 0x100109, leafAddr := 0x200000 }
  let slice0 := s.slice 0
  { s with
    booted := true,
    mem := wordCells 0x100000 4 w,
    slices := spPut s.slices 0 { slice0 with regs := spWrite 0 slice0.regs 0 (BitVec.ofNat 64 0x1003) },
    cores := spPut s.cores core { (s.core core) with present := true, tlb := [page] },
    ctxs := spPut s.ctxs (ctxKey 0 0) { (s.ctx (ctxKey 0 0)) with ptroot := 0x300000, codebase := 0x100000, codesize := 4 },
    grids := [(1, { lrec := { nregs := 64 }, number := 1, nextCluster := 1 })],
    clusters := [(1, { grid := 1, teams := [1], state := .running })],
    teams := [(1, { cluster := 1, grid := 1, core := core, nregs := 64 })],
    groups := [(groupKey 1 0, { team := 1, masks := [(0, 0xFFFFFFFF)] })],
    threads := (List.range 32).map (fun l => (tidOf (groupKey 1 0) l, {})),
    agenda := [.issue 1 0 ((List.range 32).map (tidOf (groupKey 1 0)))] }

end Sys2Proof.Machine
end

