-- ==== Sys2Proof/Safety/Lane.lean ====
section
/-! DEFINITION. Terms of the statements about lane instructions: what a lane reads through each operand form, where it writes, and
what an issue set of settled lanes comes to. The value tables are written from 09 R142-R163, in numbers where the rule gives numbers. -/

namespace Sys2Proof.Terms

open Sys2Proof.Machine

/-! One lane's operands (05 R84-R92; 09 R140). A value of `w` registers is a number, its first register lowest. -/

/-- The value of `w` registers from `n` on. -/
def regsVal (t : Thread) (n : Nat) : Nat → Nat
  | 0 => 0
  | w + 1 => (t.reg n).toNat + 2 ^ 32 * regsVal t (n + 1) w

/-- Registers that no operation on its way holds and that are not poisoned. -/
def sound (t : Thread) (n : Nat) : Nat → Bool
  | 0 => true
  | w + 1 => t.clear false n && !t.poisonRegs.contains n && sound t (n + 1) w

/-- Registers that no operation on its way holds. -/
def free (t : Thread) (n : Nat) : Nat → Bool
  | 0 => true
  | w + 1 => t.clear false n && free t (n + 1) w

/-- `w` registers from `n` on take a value. -/
def putRegs (t : Thread) (n v : Nat) : Nat → Thread
  | 0 => t
  | w + 1 => putRegs (t.putReg n (BitVec.ofNat 32 v) false) (n + 1) (v / 2 ^ 32) w

/-- A source of `w` registers and the lane after its access; none where the access traps, must wait, or pops the result of a job at
partition scope, which acquires too (13 R232). -/
def readSrc (nregs : Nat) (t : Thread) (o : Operand) (w : Nat) : Option (Nat × Thread) :=
  match o with
  | .v n => if sound t n.val w then some (regsVal t n.val w, t) else none
  | .x k =>
    match xAccess nregs w .src (t.x k.val) with
    | some (n, x) =>
      let u := t.putX k.val x false
      if sound u n w then some (regsVal u n w, u) else none
    | none => none
  | .q k =>
    if w ≤ 2 ∧ t.popAcq k.val ≠ some .partition then some ((t.pop k.val).1.toNat % 2 ^ (32 * w), (t.pop k.val).2) else none
  | .lit a => if w ≤ 2 then some (a.toNat, t) else none
  | .lit2 lo hi => if w ≤ 2 then some ((lo.toNat + 2 ^ 32 * hi.toNat) % 2 ^ (32 * w), t) else none

/-- A destination of `w` registers takes a value. -/
def writeDst (nregs : Nat) (t : Thread) (o : Operand) (w v : Nat) : Option Thread :=
  match o with
  | .v n => if free t n.val w then some (putRegs t n.val v w) else none
  | .x k =>
    match xAccess nregs w .dst (t.x k.val) with
    | some (n, x) =>
      let u := t.putX k.val x false
      if free u n w then some (putRegs u n v w) else none
    | none => none
  | .q k =>
    if w ≤ 2 then some { t with qs := t.qs ++ [{ k := k.val, id := 0, val := some (BitVec.ofNat 64 (v % 2 ^ (32 * w))) }] } else none
  | _ => none

/-- A destination that is a source too: its old value makes the new one, in one access (09 R140). -/
def updateDst (nregs : Nat) (t : Thread) (o : Operand) (w : Nat) (f : Nat → Nat) : Option Thread :=
  match o with
  | .v n => if sound t n.val w then some (putRegs t n.val (f (regsVal t n.val w)) w) else none
  | .x k =>
    match xAccess nregs w .both (t.x k.val) with
    | some (n, x) =>
      let u := t.putX k.val x false
      if sound u n w then some (putRegs u n (f (regsVal u n w)) w) else none
    | none => none
  | _ => none

/-- Sources read in the order A, B, C. -/
def readAll (nregs : Nat) (t : Thread) : List (Operand × Nat) → Option (List Nat × Thread)
  | [] => some ([], t)
  | (o, w) :: r =>
    match readSrc nregs t o w with
    | none => none
    | some (v, t) =>
      match readAll nregs t r with
      | none => none
      | some (vs, t) => some (v :: vs, t)

/-! A lane instruction. -/

/-- Where the result goes: nowhere, a destination of `w` registers, or a destination read in place. -/
inductive Out where
  | none
  | dst (o : Operand) (w : Nat)
  | upd (o : Operand) (w : Nat)

/-- A lane instruction as a rule gives it: guard, sources, predicates it reads beside the guard and predicates it writes, result and
other effects. The result sees FPDEF, the lane before the instruction and the sources, and for a destination read in place its old
value last; `ok` says when the instruction neither traps nor waits; `post` acts before the destination is written, `last` after it, and
`after` once the lane is past the instruction. -/
structure LaneOp where
  guard : Guard
  srcs : List (Operand × Nat) := []
  reads : List Nat := []
  writes : List Nat := []
  out : Out := .none
  ok : Nat → Thread → List Nat → Bool := fun _ _ _ => true
  f : Word → Thread → List Nat → Nat := fun _ _ _ => 0
  post : Word → Thread → List Nat → Thread → Thread := fun _ _ _ t => t
  last : Thread → Thread := fun t => t
  after : Thread → List Nat → Thread → Thread := fun _ _ t => t

/-- The operands with their roles. -/
def LaneOp.uses (p : LaneOp) : List Use :=
  p.srcs.map (fun e => src e.1) ++
  match p.out with
  | .none => []
  | .dst o _ => [dst o]
  | .upd o _ => [both o]

/-- An active lane after the instruction, with its sources; none where it traps or must wait. -/
def LaneOp.run (p : LaneOp) (nregs : Nat) (fpdef : Word) (t : Thread) : Option (List Nat × Thread) :=
  if !(p.reads.all (fun k => t.clear true k) && p.writes.all (fun k => k == 0 || t.clear true k)) then none
  else match readAll nregs t p.srcs with
  | none => none
  | some (xs, u) =>
    if !p.ok nregs t xs then none
    else
      let u := p.post fpdef t xs u
      let r := match p.out with
        | .none => some u
        | .dst o w => writeDst nregs u o w (p.f fpdef t xs)
        | .upd o w => updateDst nregs u o w (fun old => p.f fpdef t (xs ++ [old]))
      r.map (fun u => (xs, p.last u))

/-- A lane pushed nothing to a copy channel. -/
def noPush (binds : Sp QBind) (t : Thread) : Bool :=
  t.qs.all (fun e => e.id ≠ 0 || (spGet binds e.k).map (·.kind) ≠ some 1)

/-- The members of the issue set can all complete: out of run-ahead, operands within the allocation and bound (05 R89, R91), the guard
known, and for an active lane its queues ready and no access that traps or waits. -/
def LaneReady (s : State) (p : Nat → LaneOp) : Prop :=
  s.members.Nodup ∧ ∀ tid ∈ s.members,
    (s.laneEnv (gidOf tid)).ra = false ∧
    staticCause (s.laneEnv (gidOf tid)) (p tid).uses = none ∧
    ((p tid).guard.val ≠ 0 → (s.thread tid).clear true (p tid).guard.val = true) ∧
    ((s.thread tid).pred (p tid).guard.val = true →
      queuesReady (s.thread tid) (p tid).uses = true ∧
      ∃ xs t, (p tid).run (s.laneEnv (gidOf tid)).nregs (s.laneEnv (gidOf tid)).fpdef (s.thread tid) = some (xs, t) ∧
        noPush (s.laneEnv (gidOf tid)).binds t = true)

/-- A member after the instruction: an active lane with its effect, any other as it was, both past the instruction (03 R50, R54). -/
def LaneOp.member (p : LaneOp) (s : State) (tid : Nat) : Thread :=
  let t := s.thread tid
  if t.pred p.guard.val then
    match p.run (s.laneEnv (gidOf tid)).nregs (s.laneEnv (gidOf tid)).fpdef t with
    | some (xs, u) => p.after t xs (u.advance s.cur.len s.clock)
    | none => t
  else t.advance s.cur.len s.clock

/-- The state with other thread records, and nothing else changed. -/
def withThreads (s : State) (m : Sp Thread) : State := { s with threads := m }

/-- The records of some threads replaced, and nothing else. -/
def putThreads (s : State) (ts : List Nat) (f : Nat → Thread) : State :=
  withThreads s (ts.foldl (fun m tid => spPut m tid (f tid)) s.threads)

/-- The state after a lane instruction: the records of its members replaced, and nothing else. -/
def laneResult (p : Nat → LaneOp) (s : State) : State := putThreads s s.members (fun tid => (p tid).member s tid)

/-! Numbers of the rules. -/

/-- The signed reading of the low `w` bits. -/
def sgn (w x : Nat) : Int := if x % 2 ^ w < 2 ^ (w - 1) then (x % 2 ^ w : Nat) else (x % 2 ^ w : Nat) - (2 ^ w : Nat)

/-- The low `w` bits of an integer. -/
def wrap (w : Nat) (i : Int) : Nat := (i % (2 ^ w : Nat)).toNat

def op1 (f : Nat → Nat) : Word → Thread → List Nat → Nat := fun _ _ xs => f (xs.getD 0 0)
def op2 (f : Nat → Nat → Nat) : Word → Thread → List Nat → Nat := fun _ _ xs => f (xs.getD 0 0) (xs.getD 1 0)
def op3 (f : Nat → Nat → Nat → Nat) : Word → Thread → List Nat → Nat := fun _ _ xs => f (xs.getD 0 0) (xs.getD 1 0) (xs.getD 2 0)

/-- D, A, B of the widths given. -/
def tri (wd wa wb : Nat) (g : Guard) (d a b : Operand) (f : Nat → Nat → Nat) : LaneOp :=
  { guard := g, srcs := [(a, wa), (b, wb)], out := .dst d wd, f := op2 f }

/-- D, A of the widths given. -/
def duo (wd wa : Nat) (g : Guard) (d a : Operand) (f : Nat → Nat) : LaneOp :=
  { guard := g, srcs := [(a, wa)], out := .dst d wd, f := op1 f }

/-- D read in place, A, B single registers. -/
def acc (wd : Nat) (g : Guard) (d a b : Operand) (f : Nat → Nat → Nat → Nat) : LaneOp :=
  { guard := g, srcs := [(a, 1), (b, 1)], out := .upd d wd, f := op3 f }

/-- Integer arithmetic and logic (09 R142). -/
def arithOp : Instr → Option LaneOp
  | .addB32 g d a b => some (tri 1 1 1 g d a b (fun x y => x + y))
  | .subB32 g d a b => some (tri 1 1 1 g d a b (fun x y => x + 2 ^ 32 - y))
  | .addB64 g d a b => some (tri 2 2 2 g d a b (fun x y => x + y))
  | .subB64 g d a b => some (tri 2 2 2 g d a b (fun x y => x + 2 ^ 64 - y))
  | .mulB32 g d a b => some (tri 1 1 1 g d a b (fun x y => x * y))
  | .mulhS32 g d a b => some (tri 1 1 1 g d a b (fun x y => wrap 32 (sgn 32 x * sgn 32 y / 2 ^ 32)))
  | .mulhZ32 g d a b => some (tri 1 1 1 g d a b (fun x y => x * y / 2 ^ 32))
  | .mulxS32 g d a b => some (tri 2 1 1 g d a b (fun x y => wrap 64 (sgn 32 x * sgn 32 y)))
  | .macB32 g d a b => some (acc 1 g d a b (fun x y z => x * y + z))
  | .macxS32 g d a b => some (acc 2 g d a b (fun x y z => wrap 64 (sgn 32 x * sgn 32 y + z)))
  | .andB32 g d a b => some (tri 1 1 1 g d a b (fun x y => x &&& y))
  | .orB32 g d a b => some (tri 1 1 1 g d a b (fun x y => x ||| y))
  | .xorB32 g d a b => some (tri 1 1 1 g d a b (fun x y => x ^^^ y))
  | .andn g d a b => some (tri 1 1 1 g d a b (fun x y => x &&& (2 ^ 32 - 1 - y)))
  | .minS32 g d a b => some (tri 1 1 1 g d a b (fun x y => if sgn 32 x ≤ sgn 32 y then x else y))
  | .maxS32 g d a b => some (tri 1 1 1 g d a b (fun x y => if sgn 32 x ≤ sgn 32 y then y else x))
  | .minZ32 g d a b => some (tri 1 1 1 g d a b (fun x y => if x ≤ y then x else y))
  | .maxZ32 g d a b => some (tri 1 1 1 g d a b (fun x y => if x ≤ y then y else x))
  | .addrS g d a b => some (tri 2 2 1 g d a b (fun x y => x + wrap 64 (sgn 32 y)))
  | .addrZ g d a b => some (tri 2 2 1 g d a b (fun x y => x + y))
  | _ => none

/-! Shifts, immediates, bit fields, unary functions and moves (09 R143-R146, R153). -/

def shlN (x n : Nat) : Nat := if n < 32 then x * 2 ^ n else 0
def shrN (x n : Nat) : Nat := if n < 32 then x / 2 ^ n else 0
def sarN (x n : Nat) : Nat := if n < 32 then wrap 32 (sgn 32 x / (2 ^ n : Nat)) else if sgn 32 x < 0 then 2 ^ 32 - 1 else 0
def rolN (x n : Nat) : Nat := x * 2 ^ (n % 32) + x / 2 ^ (32 - n % 32)

def shiN (k : ShiKind) (x n : Nat) : Nat :=
  match k with
  | .shl => shlN x n
  | .shr => shrN x n
  | .sar => sarN x n
  | .rol => rolN x n

/-- pos, len and the sign flag of a field word. -/
def fPos (y : Nat) : Nat := y % 256
def fLen (y : Nat) : Nat := if y / 256 % 256 ≤ 32 then y / 256 % 256 else 32
def fSigned (y : Nat) : Bool := y.testBit 16

def bfeN (x y : Nat) : Nat :=
  let f := x / 2 ^ fPos y % 2 ^ fLen y
  if fSigned y ∧ 0 < fLen y ∧ 2 ^ (fLen y - 1) ≤ f then wrap 32 ((f : Int) - (2 ^ fLen y : Nat)) else f

def bfiN (x y z : Nat) : Nat :=
  let mask := (2 ^ fLen y - 1) * 2 ^ fPos y % 2 ^ 32
  (z &&& (2 ^ 32 - 1 - mask)) ||| (x * 2 ^ fPos y % 2 ^ 32 &&& mask)

/-- unop at width `w`: counts count bits or places, moves move them. -/
def unopN (w : Nat) (fn : UnFn) (x : Nat) : Nat :=
  match fn with
  | .not => 2 ^ w - 1 - x
  | .neg => 2 ^ w - x
  | .abs => if x < 2 ^ (w - 1) then x else 2 ^ w - x
  | .popc => (List.range w).countP (fun i => x.testBit i)
  | .clz => (List.range w).countP (fun i => decide (x < 2 ^ i))
  | .ctz => (List.range w).countP (fun i => decide (x % 2 ^ (i + 1) = 0))
  | .brev => ((List.range w).map (fun i => if x.testBit i then 2 ^ (w - 1 - i) else 0)).sum
  | .bswap => ((List.range (w / 8)).map (fun i => x / 256 ^ i % 256 * 256 ^ (w / 8 - 1 - i))).sum
  | .sext8 => wrap w (sgn 8 x)
  | .sext16 => wrap w (sgn 16 x)
  | .sext32 => wrap w (sgn 32 x)

def shiftOp : Instr → Option LaneOp
  | .shl g d a b => some (tri 1 1 1 g d a b (fun x y => shlN x (y % 256)))
  | .shr g d a b => some (tri 1 1 1 g d a b (fun x y => shrN x (y % 256)))
  | .sar g d a b => some (tri 1 1 1 g d a b (fun x y => sarN x (y % 256)))
  | .rol g d a b => some (tri 1 1 1 g d a b (fun x y => rolN x (y % 256)))
  | .shi g d a k n => some (duo 1 1 g d a (fun x => shiN k x n.toNat))
  | .addi g d a imm => some (duo 1 1 g d a (fun x => x + wrap 32 (sgn 8 imm.toNat)))
  | .andi g d a imm => some (duo 1 1 g d a (fun x => x &&& wrap 32 (sgn 8 imm.toNat)))
  | .ori g d a imm => some (duo 1 1 g d a (fun x => x ||| wrap 32 (sgn 8 imm.toNat)))
  | .xori g d a imm => some (duo 1 1 g d a (fun x => x ^^^ wrap 32 (sgn 8 imm.toNat)))
  | .movi g d imm => some { guard := g, out := .dst d 1, f := fun _ _ _ => wrap 32 (sgn 15 imm.toNat) }
  | .movB32 g d a => some (duo 1 1 g d a (fun x => x))
  | .movB64 g d a => some (duo 2 2 g d a (fun x => x))
  | .bfe g d a b => some (tri 1 1 1 g d a b bfeN)
  | .bfi g d a b => some (acc 1 g d a b bfiN)
  | .unopB32 g d a fn => some (duo 1 1 g d a (unopN 32 fn))
  | .unopB64 g d a fn => some (duo 2 2 g d a (unopN 64 fn))
  | _ => none

/-! Predicates, selection and index registers (09 R147-R151, R154). -/

/-- A predicate takes a value, known from then on; predicate 0 is not written. -/
def putPred (t : Thread) (p : Nat) (v : Bool) : Thread :=
  if p = 0 then t else { t.setPred p v with unkPreds := t.unkPreds.filter (· ≠ p) }

/-- A condition into PT and its negation into PF. -/
def putPreds (pt pf : Guard) (t : Thread) (c : Bool) : Thread := putPred (putPred t pt.val c) pf.val (!c)

/-- A comparison of two sources of `w` registers. -/
def cmpBy (w : Nat) (c : Word → Nat → Nat → Bool) (g pt pf : Guard) (a b : Operand) : LaneOp :=
  { guard := g, srcs := [(a, w), (b, w)], writes := [pt.val, pf.val],
    post := fun fp _ xs t => putPreds pt pf t (c fp (xs.getD 0 0) (xs.getD 1 0)) }

/-- A float comparison: false for a NaN; FPDEF<3> flushes subnormals (09 R147). -/
def fcond (f : Fmt) (lt : Bool) (fp : Word) (x y : Nat) : Bool :=
  if lt then (f.read (fpFtz fp) x).lt (f.read (fpFtz fp) y) else (f.read (fpFtz fp) x).eq (f.read (fpFtz fp) y)

/-- The predicates of a mask take the bits of a word. -/
def maskPreds (mask : BitVec 7) (x : Nat) : Nat → Thread → Thread
  | 0, t => t
  | k + 1, t => maskPreds mask x k (if mask.getLsbD k then putPred t (k + 1) (x.testBit (k + 1)) else t)

def predOp : Instr → Option LaneOp
  | .cmpS32 g pt pf lt a b => some (cmpBy 1 (fun _ x y => if lt then decide (sgn 32 x < sgn 32 y) else x == y) g pt pf a b)
  | .cmpS64 g pt pf lt a b => some (cmpBy 2 (fun _ x y => if lt then decide (sgn 64 x < sgn 64 y) else x == y) g pt pf a b)
  | .cmpZ32 g pt pf lt a b => some (cmpBy 1 (fun _ x y => if lt then decide (x < y) else x == y) g pt pf a b)
  | .cmpZ64 g pt pf lt a b => some (cmpBy 2 (fun _ x y => if lt then decide (x < y) else x == y) g pt pf a b)
  | .cmpF32 g pt pf lt a b => some (cmpBy 1 (fcond f32 lt) g pt pf a b)
  | .cmpF64 g pt pf lt a b => some (cmpBy 2 (fcond f64 lt) g pt pf a b)
  | .selB32 sg d a b => some
    { guard := 0, srcs := [(a, 1), (b, 1)], reads := [sg.val], out := .dst d 1,
      f := fun _ t xs => if t.pred sg.val then xs.getD 0 0 else xs.getD 1 0 }
  | .selB64 sg d a b => some
    { guard := 0, srcs := [(a, 2), (b, 2)], reads := [sg.val], out := .dst d 2,
      f := fun _ t xs => if t.pred sg.val then xs.getD 0 0 else xs.getD 1 0 }
  | .plog g lut pd pa pb => some
    { guard := g, reads := [pa.val, pb.val], writes := [pd.val],
      post := fun _ t _ u => putPred u pd.val (lut.getLsbD ((if t.pred pa.val then 2 else 0) + (if t.pred pb.val then 1 else 0))) }
  | .pmov g d a mask => some
    { guard := g, srcs := [(a, 1)], reads := [1, 2, 3, 4, 5, 6, 7], out := .dst d 1,
      f := fun _ t _ => t.preds.toNat / 2 * 2,
      post := fun _ _ xs u => maskPreds mask (xs.getD 0 0) 7 u }
  | .xget g d k => some { guard := g, out := .dst d 1, f := fun _ t _ => (t.x k.val).toNat }
  | _ => none

end Sys2Proof.Terms
end

