-- ==== Sys2Proof/Safety/Uniform.lean ====
section
/-! DEFINITION. Terms of the statements about uniform instructions (03 R52; 11 R166-R171, R175-R179): what the leader lane of each
group reads, and what every lane set in m0 then holds. -/

namespace Sys2Proof.Terms

open Sys2Proof.Machine

/-- Each thread record becomes a function of itself, and nothing else changes. -/
def ThreadsBecome (s t : State) (f : Nat → Thread → Thread) : Prop :=
  t = withThreads s t.threads ∧ ∀ tid, spGet t.threads tid = (spGet s.threads tid).map (f tid)

/-- A uniform instruction in one group: guard (0 for one that has none), operands checked, sources the leader reads, predicates it
reads, and what every lane set in m0 receives from `f` of the leader and its sources: `w` registers from `n` on, or the two predicates
`pt` and `pf`, the condition and its negation. `ok` says when nothing makes the group wait or consume poison. -/
structure UniOp where
  guard : Guard
  uses : List Use
  srcs : List (Operand × Nat) := []
  reads : List Nat := []
  ok : Bool := true
  n : Nat := 0
  w : Nat := 0
  f : Thread → List Nat → Nat := fun _ _ => 0
  preds : Option (Nat × Nat × (List Nat → Bool)) := none

/-- Members of the set that belong to a group, those of them that are active, and the leader: the lowest (03 R52). -/
def ofGroup (s : State) (gid : Nat) : List Nat := s.members.filter (fun t => gidOf t = gid)
def activeOf (s : State) (g : Guard) (gid : Nat) : List Nat := (ofGroup s gid).filter (fun t => (s.thread t).pred g.val)
def leaderOf (s : State) (g : Guard) (gid : Nat) : Option Nat := (activeOf s g gid).head?

/-- What the leader reads, and its record after its accesses. -/
def UniOp.led (p : UniOp) (s : State) (gid l : Nat) : Option (List Nat × Thread) :=
  if p.reads.all (fun k => (s.thread l).clear true k) then readAll (s.laneEnv gid).nregs (s.thread l) p.srcs else none

/-- The set can complete in every group: out of run-ahead, operands within the allocation and bound, no register or guard named has a
result on its way in a member, and the leader's queues are ready and its accesses neither trap nor wait. -/
def UniReady (s : State) (p : Nat → UniOp) : Prop :=
  s.members.Nodup ∧ ∀ gid ∈ groupsIn s.members,
    (s.laneEnv gid).ra = false ∧ staticCause (s.laneEnv gid) (p gid).uses = none ∧ (p gid).ok = true ∧
    (∀ t ∈ ofGroup s gid, memberClear (s.thread t) (p gid).guard.val (p gid).uses = true) ∧
    ∀ l, leaderOf s (p gid).guard gid = some l →
      queuesReady (s.thread l) (p gid).uses = true ∧ ((p gid).led s gid l).isSome = true

/-- A result written by a uniform instruction: an older result on its way no longer writes the register (09 R141). -/
def takeRegs (t : Thread) (n v : Nat) : Nat → Thread
  | 0 => t
  | w + 1 => takeRegs (t.uniformReg n (BitVec.ofNat 32 v) false) (n + 1) (v / 2 ^ 32) w

/-- A lane set in m0 receives the result. -/
def UniOp.receive (p : UniOp) (lead : Thread) (xs : List Nat) (t : Thread) : Thread :=
  let t := takeRegs t p.n (p.f lead xs) p.w
  match p.preds with
  | none => t
  | some (pt, pf, c) => (t.uniformPred pt (c xs) false).uniformPred pf (!c xs) false

/-- A thread outside the set that a uniform instruction has written issues again from the next clock on (09 R141). -/
def heldBack (s : State) (tid : Nat) (t : Thread) : Thread :=
  if s.cur.tids.contains tid then t else { t with readyAt := max t.readyAt (s.clock + 1) }

/-- A lane set in m0 whose register a result on its way will write: it alone writes the register, and the lane is held back as by a result
(09 R141). -/
def markLane (s : State) (tid n : Nat) (t : Thread) : Thread :=
  heldBack s tid { t with sb := t.sb.filter (fun e => !(!e.isPred && e.n == n)) ++ [{ op := s.nextId, isPred := false, n := n }] }

/-- A lane is set in its group's mask 0. -/
def inM0 (s : State) (tid : Nat) : Bool := (spRead 0 (s.group (gidOf tid)).masks 0).getLsbD (laneOf tid)

/-- A thread after a uniform instruction: the leader with its accesses, a lane of m0 with the result, a member past the instruction, another
lane written held for the clock. -/
def UniOp.after (p : UniOp) (s : State) (tid : Nat) (t : Thread) : Thread :=
  let gid := gidOf tid
  let t :=
    match leaderOf s p.guard gid with
    | none => t
    | some l =>
      match p.led s gid l with
      | none => t
      | some (xs, u) =>
        let t := if tid = l then u else t
        if inM0 s tid then heldBack s tid (p.receive (s.thread l) xs t) else t
  if s.members.contains tid then t.advance s.cur.len s.clock else t

/-- The state after a uniform instruction. -/
def Uniform (s t : State) (p : Nat → UniOp) : Prop := ThreadsBecome s t (fun tid => (p (gidOf tid)).after s tid)

/-! The instructions. -/

def uni (w : Nat) (g : Guard) (n : Fin 112) (a b : Operand) (f : Nat → Nat → Nat) : UniOp :=
  { guard := g, uses := [src a, src b] ++ wideDst (.v n) (w == 2), srcs := [(a, w), (b, w)], n := n.val, w := w, f := fun _ xs => f (xs.getD 0 0) (xs.getD 1 0) }

def uniOne (g : Guard) (n : Fin 112) (a : Operand) (f : Nat → Nat) : UniOp :=
  { guard := g, uses := [src a, dst (.v n)], srcs := [(a, 1)], n := n.val, w := 1, f := fun _ xs => f (xs.getD 0 0) }

def uniCond (g pt pf : Guard) (a b : Operand) (c : Nat → Nat → Bool) : UniOp :=
  { guard := g, uses := [src a, src b], srcs := [(a, 1), (b, 1)], preds := some (pt.val, pf.val, fun xs => c (xs.getD 0 0) (xs.getD 1 0)) }

/-- Uniform arithmetic, moves and comparisons (11 R167-R169). -/
def uniOp : Instr → Option UniOp
  | .gaddB32 g (.v n) a b => some (uni 1 g n a b (fun x y => x + y))
  | .gsubB32 g (.v n) a b => some (uni 1 g n a b (fun x y => x + 2 ^ 32 - y))
  | .gaddB64 g (.v n) a b => some (uni 2 g n a b (fun x y => x + y))
  | .gsubB64 g (.v n) a b => some (uni 2 g n a b (fun x y => x + 2 ^ 64 - y))
  | .gmulB32 g (.v n) a b => some (uni 1 g n a b (fun x y => x * y))
  | .gmulhS32 g (.v n) a b => some (uni 1 g n a b (fun x y => wrap 32 (sgn 32 x * sgn 32 y / 2 ^ 32)))
  | .gand g (.v n) a b => some (uni 1 g n a b (fun x y => x &&& y))
  | .gor g (.v n) a b => some (uni 1 g n a b (fun x y => x ||| y))
  | .gxor g (.v n) a b => some (uni 1 g n a b (fun x y => x ^^^ y))
  | .gandn g (.v n) a b => some (uni 1 g n a b (fun x y => x &&& (2 ^ 32 - 1 - y)))
  | .gshl g (.v n) a b => some (uni 1 g n a b (fun x y => shlN x (y % 256)))
  | .gshr g (.v n) a b => some (uni 1 g n a b (fun x y => shrN x (y % 256)))
  | .gminS32 g (.v n) a b => some (uni 1 g n a b (fun x y => if sgn 32 x ≤ sgn 32 y then x else y))
  | .gmaxS32 g (.v n) a b => some (uni 1 g n a b (fun x y => if sgn 32 x ≤ sgn 32 y then y else x))
  | .gaddi g (.v n) a imm => some (uniOne g n a (fun x => x + wrap 32 (sgn 8 imm.toNat)))
  | .gmovi g (.v n) imm => some { guard := g, uses := [dst (.v n)], n := n.val, w := 1, f := fun _ _ => wrap 32 (sgn 15 imm.toNat) }
  | .gmov g (.v n) a => some (uniOne g n a (fun x => x))
  | .gsel sg (.v n) a b => some
    { guard := 0, uses := [src a, src b, dst (.v n)], srcs := [(a, 1), (b, 1)], reads := [sg.val], n := n.val, w := 1,
      f := fun t xs => if t.pred sg.val then xs.getD 0 0 else xs.getD 1 0 }
  | .gcmpS32 g pt pf lt a b => some (uniCond g pt pf a b (fun x y => if lt then decide (sgn 32 x < sgn 32 y) else x == y))
  | .gcmpZ32 g pt pf lt a b => some (uniCond g pt pf a b (fun x y => if lt then decide (x < y) else x == y))
  | _ => none

/-- A 64-bit control register (11 R171). -/
def ctlWords (r : CtlReg) : Nat :=
  match r with
  | .feedbase | .cpytab | .restab => 2
  | _ => 1

/-- The lane's source of a reduction: a direct register or pair, or a literal. -/
def redSrc (t : Thread) (a : Operand) (op : RedFn) : Nat :=
  match a with
  | .v n => regsVal t n.val (if redWide op then 2 else 1)
  | .lit x => x.toNat
  | .lit2 lo hi => lo.toNat + 2 ^ 32 * hi.toNat
  | _ => 0

/-- The value that lane `l` of a group brings to a reduction: its source where the lane is active, else the identity (11 R178, R179). -/
def brought (s : State) (g : Guard) (gid : Nat) (a : Operand) (op : RedFn) (l : Nat) : Nat :=
  if (activeOf s g gid).contains (tidOf gid l) then redSrc (s.thread (tidOf gid l)) a op else redIdentity op

/-- The tree of 07 R134: lane i with lane i + 1 of each level, five levels over 32 lanes. -/
def tree32 (f : Nat → Nat → Nat) (v : Nat → Nat) : Nat → Nat
  | 0 => v 0
  | k + 1 => tree32 f (fun i => f (v (2 * i)) (v (2 * i + 1))) k

/-- No active lane's source is poisoned. -/
def redSound (s : State) (g : Guard) (gid : Nat) (a : Operand) (op : RedFn) : Bool :=
  (activeOf s g gid).all (fun t => !Thread.srcMarked (s.thread t).poisonRegs a (redWide op))

/-- Uniform reads of state that lanes do not hold, by group: masks, control registers, and the reduction (11 R171, R175, R178). -/
def uniRead (s : State) : Instr → Option (Nat → UniOp)
  | .mrd g (.v n) k => some (fun gid =>
    { guard := g, uses := [dst (.v n)], n := n.val, w := 1, f := fun _ _ => (spRead 0 (s.group gid).masks k.val).toNat })
  | .ctl g (.v n) r => some (fun gid =>
    { guard := g, uses := wideDst (.v n) (ctlWords r == 2), n := n.val, w := ctlWords r, f := fun _ _ => ((s.ctlFor (s.team (teamOf gid)).ctx gid).get r).toNat })
  | .gred g (.v n) a op => some (fun gid =>
    { guard := g, uses := pairUse a (redWide op) ++ wideDst (.v n) (redWide op), ok := redSound s g gid a op, n := n.val, w := if redWide op then 2 else 1,
      f := fun _ _ => tree32 (redCombine op (s.laneEnv gid).fpdef) (brought s g gid a op) 5 })
  | _ => none

/-- The combination of the values below lane `l`, in ascending lane order (11 R179). -/
def before (f : Nat → Nat → Nat) (v : Nat → Nat) (id : Nat) : Nat → Nat
  | 0 => id
  | l + 1 => f (before f v id l) (v l)

/-- A scan writes each active lane. -/
def scanned (s : State) (g : Guard) (n : Nat) (a : Operand) (ex : Bool) (op : RedFn) (tid : Nat) (t : Thread) : Thread :=
  let gid := gidOf tid
  let f := redCombine op (s.laneEnv gid).fpdef
  let v := brought s g gid a op
  let t := if (activeOf s g gid).contains tid then
      putRegs t n (before f v (redIdentity op) (if ex then laneOf tid else laneOf tid + 1)) (if redWide op then 2 else 1) else t
  if s.members.contains tid then t.advance s.cur.len s.clock else t

end Sys2Proof.Terms
end

