-- ==== Sys2Proof/Safety/Joint.lean ====
section
/-! DEFINITION. Terms of the statements about exchanges, masks, joint waits, yields, traps and returns (09 R152; 11 R175, R176, R182,
R195-R199; 03 R56-R60, R74). -/

namespace Sys2Proof.Terms

open Sys2Proof.Machine

/-! Exchange (09 R152). -/

/-- A and B of a lane of a shuffle. -/
def shflSrcs (s : State) (a b : Operand) (tid : Nat) : Option (List Nat) :=
  (readAll (s.laneEnv (gidOf tid)).nregs (s.thread tid) [(a, 1), (b, 1)]).map (·.1)

/-- The thread in a lane of the same group. -/
def laneMate (tid l : Nat) : Nat := 32 * (tid / 32) + l

/-- A shuffle in one lane: A of the lane that B names, where it is an active lane of the set, else the lane's own A. -/
def shflOp (s : State) : Instr → Option (Nat → LaneOp)
  | .shflIdx g d a b => some (fun tid =>
    { guard := g, srcs := [(a, 1), (b, 1)], out := .dst d 1,
      f := fun _ _ xs =>
        let mate := laneMate tid (xs.getD 1 0 % 32)
        if (activeOf s g (gidOf tid)).contains mate then ((shflSrcs s a b mate).getD []).getD 0 0 else xs.getD 0 0 })
  | .shflXor g d a b => some (fun tid =>
    { guard := g, srcs := [(a, 1), (b, 1)], out := .dst d 1,
      f := fun _ _ xs =>
        let mate := laneMate tid (Nat.xor (tid % 32) (xs.getD 1 0 % 32))
        if (activeOf s g (gidOf tid)).contains mate then ((shflSrcs s a b mate).getD []).getD 0 0 else xs.getD 0 0 })
  | _ => none

/-! Masks and joint waits. -/

/-- Active members of the set. -/
def actives (s : State) (g : Guard) : List Nat := s.members.filter (fun t => (s.thread t).pred g.val)

/-- The set issues an instruction without operands: out of run-ahead, the guard known. -/
def Plain (s : State) (g : Guard) : Prop := LaneReady s (fun _ => { guard := g })

/-- A record that waits at the instruction under execution. -/
def arrived (s : State) (w : Wait) (x : Thread) : Thread :=
  { x with wait := w, waitLen := s.cur.len, waitWord := s.cur.word, since := s.clock, wdogBar := 0 }

/-- The lane's bit in a mask. -/
def bitOf (tid : Nat) : Word := 1 <<< (tid % 32)

/-- A mask of a list of masks with some bits set, or cleared. -/
def withBits (m : Sp Word) (k : Nat) (b : Word) (set : Bool) : Sp Word :=
  spWrite 0 m k (if set then spRead 0 m k ||| b else spRead 0 m k &&& ~~~b)

/-- The masks of the groups of some threads changed at the bit of each, and the change noted among the updates of the clock (11 R175). -/
def maskBits (s : State) (ts : List Nat) (k : Nat) (set : Bool) : State :=
  ts.foldl (fun s tid => s.modGroup (gidOf tid) (fun x =>
    { x with masks := withBits x.masks k (bitOf tid) set,
             joined := withBits x.joined k (bitOf tid) set,
             left := withBits x.left k (bitOf tid) (!set) })) s

/-- Members past the instruction. -/
def passed (s : State) : State := putThreads s s.members (fun tid => (s.thread tid).advance s.cur.len s.clock)

/-- Active members for which `q` holds wait; the other members are past the instruction. -/
def waiting (s : State) (g : Guard) (w : Wait) (q : Nat → Bool) : State :=
  putThreads s s.members (fun tid =>
    if (s.thread tid).pred g.val && q tid then arrived s w (s.thread tid) else (s.thread tid).advance s.cur.len s.clock)

/-- A thread waits on mask `k` and has no load or store outstanding. -/
def onMask (k : Nat) (x : Thread) : Bool := decide (x.wait = .mask k) && x.ldc == 0 && x.stc == 0

/-- Every live thread set in mask `k` of a group waits on it, and some thread does; nothing of the waiting ones is outstanding (log 14). -/
def maskFull (s : State) (gid k : Nat) : Bool :=
  (s.threadsOfGroup gid).any (fun e => decide (e.2.wait = .mask k)) &&
  (s.threadsOfGroup gid).all (fun e => decide (e.2.wait ≠ .mask k) || onMask k e.2) &&
  (List.range 32).all (fun l => !(spRead 0 (s.group gid).masks k).getLsbD l ||
    (match spGet (s.threadsOfGroup gid) (tidOf gid l) with | some x => onMask k x | none => true))

/-- Threads of a list leave their wait. -/
def released (s : State) (ts : List (Nat × Thread)) : State :=
  ts.foldl (fun s e => s.modThread e.1 (fun x => x.leaveWait s.clock)) s

/-- The group does not run ahead and is not parked. -/
def Unparked (s : State) (gid : Nat) : Prop := (s.group gid).park = none

/-! Traps. -/

/-- A thread as it enters its handler (11 R198). -/
def inHandler (t : Thread) (code : Nat) (aux : Word) (addr : DWord) (trappc base : Word) (clock : Nat) : Thread :=
  { t with trapcode := BitVec.ofNat 32 code, trappc := trappc, trapaddr := addr, trapaux := aux, handler := true, pc := base,
           since := clock, readyAt := clock + 1, wait := .none, wdogBar := 0 }

/-- A thread that has issued an instruction which traps: the instructions before it count it (05 R99). -/
def issuedTrap (t : Thread) : Thread := { t with look := t.look.map (fun e => (e.1, e.2 - 1)) }

/-- The thread takes a trap in its handler at `base`: it exists, it is not in handler mode, its group is not parked, and its context has
the handler. -/
def HandlerAt (s : State) (tid : Nat) (base : Word) : Prop :=
  (spGet s.threads tid).isSome = true ∧ (s.thread tid).handler = false ∧ (s.group (gidOf tid)).park = none ∧
  (s.ctx (s.ctxOfT tid)).ctl.trapbase = base ∧ base ≠ 0xFFFFFFFF

/-- trap and brk read their operand in every active lane. -/
def softOp (g : Guard) (a : Operand) : LaneOp := { guard := g, srcs := [(a, 1)] }

/-- The operand as the lane reads it, and the lane after its access. -/
def operandOf (s : State) (a : Operand) (tid : Nat) : Word × Thread :=
  match readSrc (s.laneEnv (gidOf tid)).nregs (s.thread tid) a 1 with
  | some (v, u) => (BitVec.ofNat 32 v, u)
  | none => (0, s.thread tid)

/-- Active members in the handler with TRAPAUX their operand and TRAPPC the next instruction; the others past the instruction. -/
def softTrapped (s : State) (g : Guard) (a : Operand) (code : Nat) : State :=
  putThreads s s.members (fun tid =>
    let t := s.thread tid
    if t.pred g.val then
      let x := operandOf s a tid
      inHandler (issuedTrap x.2) code x.1 0 (s.cur.pc + BitVec.ofNat 32 s.cur.len) (s.ctx (s.ctxOfT tid)).ctl.trapbase s.clock
    else t.advance s.cur.len s.clock)

/-- A thread after rte: out of handler mode, TRAPCODE 0, at TRAPPC (11 R199). -/
def returned (t : Thread) (clock : Nat) : Thread :=
  { issuedTrap t with handler := false, trapcode := 0, pc := t.trappc, since := clock, wait := .none }

/-- Every member in the handler of a cause raised whatever the guard. -/
def allTrapped (s : State) (code : Nat) (aux : Word) (addr : DWord) : State :=
  putThreads s s.members (fun tid =>
    inHandler (issuedTrap (s.thread tid)) code aux addr s.cur.pc (s.ctx (s.ctxOfT tid)).ctl.trapbase s.clock)

/-! Uniform instructions that change the group or the context (11 R173, R175, R188, R189). -/

/-- A thread after a uniform instruction that writes no lane: the leader with its accesses, a member past the instruction. -/
def UniOp.unwritten (p : UniOp) (s : State) (tid : Nat) (t : Thread) : Thread :=
  let t := if leaderOf s p.guard (gidOf tid) = some tid then ((p.led s (gidOf tid) tid).map (·.2)).getD t else t
  if s.members.contains tid then t.advance s.cur.len s.clock else t

/-- Group records changed by what each group's leader reads; threads as after the instruction. -/
def GroupsBecome (s t : State) (p : UniOp) (f : List Nat → Group → Group) : Prop :=
  t = { s with threads := t.threads, groups := t.groups } ∧
  (∀ tid, spGet t.threads tid = (spGet s.threads tid).map (p.unwritten s tid)) ∧
  ∀ gid, spGet t.groups gid = (spGet s.groups gid).map (fun x =>
    match leaderOf s p.guard gid with
    | none => x
    | some l => match p.led s gid l with
      | none => x
      | some (xs, _) => f xs x)

/-- The lane that supplies a handle checked whatever the guard: the leader, or the lowest member where no lane is active (00 R13). -/
def handleLane (s : State) (g : Guard) (gid : Nat) : Option Nat := (leaderOf s g gid).orElse (fun _ => (ofGroup s gid).head?)

/-- A handle that a lane names directly. -/
def named (t : Thread) (a : Operand) : Option Word :=
  match a with
  | .v n => some (t.reg n.val)
  | .lit w => some w
  | _ => none

/-- A word with bits hi..lo of another. -/
def takeBits (x y hi lo : Nat) : Nat := x - x / 2 ^ lo % 2 ^ (hi - lo + 1) * 2 ^ lo + y / 2 ^ lo % 2 ^ (hi - lo + 1) * 2 ^ lo

/-- What a control register takes from a write (11 R171, R172; 07 R124): reserved field values leave their field, bits of no field read
zero. -/
def ctlTaken (r : CtlReg) (old v : Nat) : Nat :=
  match r with
  | .memdef =>
    let pol := if v / 2 ^ 12 % 8 < 5 then v else old
    let sp := if v / 2 ^ 15 % 8 < 7 then v else old
    let sc := if v / 2 ^ 18 % 8 < 5 then v else old
    takeBits (takeBits (takeBits (takeBits 0 pol 14 12) sp 17 15) sc 20 18) v 22 21
  | .fpdef => takeBits (takeBits 0 (if 1 ≤ v % 8 ∧ v % 8 ≤ 5 then v else old) 2 0) v 3 3
  | _ => v

/-- The write holds a reserved value or a bit that must be zero, and is counted (00 R6). -/
def ctlCounted (r : CtlReg) (v : Nat) : Bool :=
  match r with
  | .memdef => decide (5 ≤ v / 2 ^ 12 % 8) || decide (v / 2 ^ 15 % 8 = 7) || decide (5 ≤ v / 2 ^ 18 % 8) || decide (v % 2 ^ 12 ≠ 0) ||
      decide (v / 2 ^ 23 ≠ 0)
  | .fpdef => decide (v % 8 = 0) || decide (6 ≤ v % 8) || decide (v / 2 ^ 4 ≠ 0)
  | _ => false

/-- A control register set. -/
def ctlSet (c : Ctl) (r : CtlReg) (v : Nat) : Ctl :=
  match r with
  | .memdef => { c with memdef := BitVec.ofNat 32 v }
  | .fpdef => { c with fpdef := BitVec.ofNat 32 v }
  | .trapbase => { c with trapbase := BitVec.ofNat 32 v }
  | .feedbase => { c with feedbase := BitVec.ofNat 64 v }
  | .feedsize => { c with feedsize := BitVec.ofNat 32 v }
  | .feedhead => { c with feedhead := BitVec.ofNat 32 v }
  | .feedtail => { c with feedtail := BitVec.ofNat 32 v }
  | _ => c

/-- The control registers that ctlw may name (11 R171). -/
def ctlProgram (r : CtlReg) : Bool :=
  match r with
  | .memdef | .fpdef | .trapbase | .feedbase | .feedsize | .feedhead | .feedtail => true
  | _ => false

/-! Vote and exit (11 R176, R181; 03 R55, R56, R61). -/

/-- The whole group stands at a collective instruction that issues: its 32 lanes are the set, each set in m0, out of run-ahead and unparked,
every guard true, nothing named on its way. -/
def WholeGroup (s : State) (gid : Nat) (g : Guard) (us : List Use) : Prop :=
  s.members = (List.range 32).map (tidOf gid) ∧ (s.group gid).park = none ∧ spRead 0 (s.group gid).masks 0 = 0xFFFFFFFF ∧
  staticCause (s.laneEnv gid) us = none ∧ ∀ tid ∈ s.members, memberClear (s.thread tid) g.val us = true ∧ (s.thread tid).pred g.val = true

/-- A lane of the group once the collective instruction has issued: it leaves its wait. -/
def throughCollective (s : State) (x : Thread) : Thread := (arrived s .collective x).leaveWait s.clock

/-- The result of a vote on the 32 predicates, lane 0 lowest (11 R176). -/
def voted (k : VoteKind) (v : Nat → Bool) : Nat :=
  let ones := (List.range 32).countP v
  match k with
  | .mask => ((List.range 32).map (fun l => if v l then 2 ^ l else 0)).sum
  | .every => if ones = 32 then 1 else 0
  | .some => if 0 < ones then 1 else 0
  | .same => if ones = 0 ∨ ones = 32 then 1 else 0
  | .count => ones
  | .first => ((List.range 32).find? v).getD 32

/-- Groups without the lane's bits, and the lane noted among the clock's updates of the masks as leaving each (03 R61; 11 R175). -/
def unmasked (s : State) (tid : Nat) : Sp Group :=
  match spGet s.groups (gidOf tid) with
  | none => s.groups
  | some x =>
    let ms := x.masks.map (fun e => (e.1, e.2 &&& ~~~((1 : Word) <<< (tid % 32))))
    let every (m : Sp Word) (set : Bool) : Sp Word := (List.range 11).foldl (fun m k => withBits m (k + 1) (bitOf tid) set) m
    spPut s.groups (gidOf tid) { x with masks := ms.filter (fun e => e.2 ≠ 0), joined := every x.joined false, left := every x.left true }

end Sys2Proof.Terms
end

