-- ==== Sys2Proof/Safety/Memory.lean ====
section
/-! DEFINITION. Terms of the statements about memory instructions (13 R200-R206, R217-R219; 15 R236-R255; 11 R191): an issue set of one
active lane, what it reads, and the access on its way that it leaves. -/

namespace Sys2Proof.Terms

open Sys2Proof.Machine

/-- The issue set is one active lane, which nothing holds back at issue: out of run-ahead, operands within the allocation and bound, its
guard known and true, its queues ready. -/
def Alone (s : State) (tid : Nat) (g : Guard) (us : List Use) : Prop :=
  s.members = [tid] ∧ (s.laneEnv (gidOf tid)).ra = false ∧ staticCause (s.laneEnv (gidOf tid)) us = none ∧
  (g.val ≠ 0 → (s.thread tid).clear true g.val = true) ∧ (s.thread tid).pred g.val = true ∧ queuesReady (s.thread tid) us = true

/-- A source of `w` registers as the lane reads it at issue, and the lane after the access. -/
def laneRead (s : State) (tid : Nat) (o : Operand) (w : Nat) : Option (Nat × Thread) :=
  readSrc (s.laneEnv (gidOf tid)).nregs (s.thread tid) o w

/-- The fields of the access, by its prefix or by MEMDEF (05 R94, R96). -/
def fieldsOf (s : State) (tid : Nat) (p : MPfx) (unit : Nat) : MAcc := s.accFor (gidOf tid) p unit

/-- Registers of an address in a space: a pair in paged spaces (13 R201). -/
def addrWidth (sp : Space) : Nat := if isGlb sp then 2 else 1

/-- The access may be sent: no acquire of the thread is on its way (13 R219), its counters have room (11 R191), and a release finds its
loads and stores completed (13 R218). -/
def settled (t : Thread) (m : MAcc) : Prop :=
  t.acqPending = [] ∧ t.ldc < 262143 ∧ t.stc < 262143 ∧ (m.releases = true → t.ldc = 0 ∧ t.stc = 0)

/-- The place of an access of `n` bytes: address A plus the offset, aligned, within the space (13 R200, R201; 15 R237). -/
def placeAt (s : State) (tid : Nat) (m : MAcc) (x align n : Nat) : Except Cause Place :=
  s.placeOf (teamOf (gidOf tid)) m.space (addrOf m.space (BitVec.ofNat 64 x) m.off) align n

/-- Where a result on its way will land: registers free of other operations, or a new entry of a queue; and the lane after the access. -/
def landing (s : State) (tid : Nat) (t : Thread) (d : Operand) (w : Nat) : Option ((Nat → Dest) × Thread) :=
  match d with
  | .v n => if free t n.val w then some (fun _ => .regs n.val w, t) else none
  | .x k =>
    match xAccess (s.laneEnv (gidOf tid)).nregs w .dst (t.x k.val) with
    | some (n, x) => if free (t.putX k.val x false) n w then some (fun _ => .regs n w, t.putX k.val x false) else none
    | none => none
  | .q k => if w ≤ 2 then some (fun id => .queue k.val id, t) else none
  | _ => none

/-- The lane pushed nothing to a copy channel. -/
def noChannel (s : State) (tid : Nat) (t : Thread) : Prop := noPush (s.group (gidOf tid)).binds t = true

/-- The lane is past the instruction. -/
def past (s : State) (tid : Nat) (t : Thread) : State := s.setThread tid (t.advance s.cur.len s.clock)

/-- The lane's last-page register takes the translation (23 R353). -/
def touched (s : State) (tid : Nat) (e : TlbEnt) : State := s.touchLast (s.coreOfT tid) (laneOf tid) e

/-- The copy channel that a result for a queue is a push to, with the queue's number (11 R189). -/
def channelOf (s : State) (tid : Nat) (d : Dest) : Option (Nat × Nat) :=
  match d with
  | .queue k _ => (spGet (s.group (gidOf tid)).binds k).bind (fun b => if b.kind = 1 then some (k, b.chan) else none)
  | _ => none

/-- The requests of a promoted access, one for each core of the context (13 R226). -/
def promosOf (s : State) (tid : Nat) (promo : Bool) : List Promo :=
  let cores := if promo then s.ctxCores (s.ctxOfT tid) else []
  (List.range cores.length).map (fun i => ⟨s.nextId + 1 + i, cores.getD i 0, s.nextId⟩)

/-- A load-class operation on its way: LDC one higher, its bound on issue noted, an acquire noted, its destination marked, a push whose value
comes later where the destination is a copy channel (03 R45; 05 R89, R99; 11 R191). -/
def loadSent (s : State) (tid : Nat) (t : Thread) (bound : Nat) (x : Load) (promo : Bool := false) : State :=
  let u := t.advance s.cur.len s.clock
  let u : Thread := { u with stc := (s.thread tid).stc, ldc := u.ldc + 1, look := u.look ++ [(x.id, bound)], acqPending := u.acqPending ++ (if x.acq.isSome then [x.id] else []) }
  let u := u.markDest x.id x.dest
  let ps := promosOf s tid promo
  let r : State := { s with
    nextId := s.nextId + 1 + ps.length
    promos := s.promos ++ ps
    loads := s.loads ++ [{ x with promo := ps.map (·.id), promoted := promo }] }
  match channelOf s tid x.dest with
  | none => { r with threads := spPut s.threads tid u }
  | some (k, c) =>
    ({ r with threads := spPut s.threads tid { u with openCopies := u.openCopies ++ [x.id] } } : State).modCore (s.coreOfT tid) (fun y =>
      { y with pushes := y.pushes ++ [{ id := x.id, tid := tid, k := k, chan := c, val := 0, pc := x.pc, filled := false }] })

/-- A store-class operation on its way: STC one higher. -/
def storeSent (s : State) (tid : Nat) (t : Thread) (x : Store) : State :=
  let u := t.advance s.cur.len s.clock
  { s with nextId := s.nextId + 1, threads := spPut s.threads tid { u with stc := (s.thread tid).stc + 1 }, stores := s.stores ++ [x] }

/-- An operation that has acted and is still to be counted performed. -/
def actedNow (s : State) (tid : Nat) (sc : Scope) (flush : List Nat) : Store :=
  { id := s.nextId, tid := tid, team := teamOf (gidOf tid), space := .glb, va := 0, pa := 0, size := 0, data := 0, scope := sc, pol := 0,
    setFull := false, et := false, acted := true, flush := flush }

/-- The acquire of an access. -/
def acqOf (m : MAcc) : Option Scope := if m.acquires then some m.scope else none

/-- ld, st: bytes and extension by width (05 R104). -/
def widthOf (w : MemW) : Nat × Bool :=
  match w with
  | .s8 => (1, true)
  | .z8 => (1, false)
  | .s16 => (2, true)
  | .z16 => (2, false)
  | .b32 => (4, false)
  | .b64 => (8, false)
  | .b128 => (16, false)
  | .b256 => (32, false)

/-- Registers of a width. -/
def regsOf (w : MemW) : Nat := ((widthOf w).1 + 3) / 4

/-- A value of `w` registers as words, low first. -/
def wordsOf (w v : Nat) : List Word := (List.range w).map (fun i => BitVec.ofNat 32 (v / 2 ^ (32 * i)))

/-- The words of a load of `n` bytes: narrow ones extended. -/
def extended (n : Nat) (signed : Bool) (v : Nat) : List Word :=
  if n < 4 then [BitVec.ofNat 32 (if signed then wrap 32 (sgn (8 * n) v) else v)] else wordsOf (n / 4) v

/-- The compartment of a page's lines (29 R432). -/
def compOf (e : TlbEnt) : Nat := leafComp e.leaf % 8

/-- A load of global or constant memory on its way: its bytes are bound when it completes. -/
def glbLoad (s : State) (tid : Nat) (m : MAcc) (w : MemW) (d : Nat → Dest) (va pa : Nat) (e : TlbEnt) : Load :=
  { id := s.nextId, tid := tid, pc := s.cur.pc, dest := d s.nextId, acq := acqOf m, issued := s.clock, set := s.nextId,
    kind := .bytes m.space (teamOf (gidOf tid)) va pa (widthOf w).1 (widthOf w).2 (effPol (leafCpol e.leaf) m.pol) (compOf e) (leafEt e.leaf) }

/-- A load of a local store on its way. -/
def locLoad (s : State) (tid : Nat) (m : MAcc) (w : MemW) (d : Nat → Dest) (u off : Nat) : Load :=
  { id := s.nextId, tid := tid, pc := s.cur.pc, dest := d s.nextId, acq := acqOf m, issued := s.clock, set := s.nextId,
    kind := .bytes m.space u (s.localAddr m.space u off) off (widthOf w).1 (widthOf w).2 0 0 false }

/-- A load whose words are known; `set`: its issue set, where its lanes have an order (15 R241). -/
def wordLoad (s : State) (tid : Nat) (m : MAcc) (d : Nat → Dest) (ws : List Word) (set : Nat := 0) : Load :=
  { id := s.nextId, tid := tid, pc := s.cur.pc, dest := d s.nextId, acq := acqOf m, issued := s.clock, set := set, kind := .words ws none }

/-- A promoted atomic on its way: it acts when every core has answered (13 R226). -/
def laterAtomic (s : State) (set tid : Nat) (m : MAcc) (d : Nat → Dest) (op : AtomOp) (fp : Word) (x va pa : Nat) (e : TlbEnt) : Load :=
  { id := s.nextId, tid := tid, pc := s.cur.pc, dest := d s.nextId, acq := acqOf m, issued := s.clock, set := set,
    kind := .rmw op fp x va pa (compOf e) m.pol (m.acquires && decide (m.scope = .system)) }

/-- No access of the thread is on its way, nor one of the issue set's. -/
def NoneBefore (s : State) (tid : Nat) : Prop := (∀ l ∈ s.loads, l.tid ≠ tid) ∧ (∀ x ∈ s.stores, x.tid ≠ tid)

/-- The cluster's OUTSIDE flag is set (25 R375). -/
def outside (s : State) (tid : Nat) : State :=
  match spGet s.clusters (s.teamOfT tid).cluster with
  | some c => { s with clusters := spPut s.clusters (s.teamOfT tid).cluster { c with outside := true } }
  | none => s

/-- A team record changed. -/
def teamSet (s : State) (u : Nat) (f : Team → Team) : State := { s with teams := spPut s.teams u (f (s.team u)) }

/-- What a release does before its access (13 R218): none where a line must wait for a sweep. -/
def releaseDone (s : State) (tid : Nat) (m : MAcc) : Option State :=
  if m.releases then s.releaseAt (s.whoT tid) m.scope else some s

/-- D of an atomic: where the result goes, the operand read in the same access, and the lane after it. -/
def operandAt (s : State) (tid : Nat) (t : Thread) (d : Operand) (w : Nat) : Option (Loc × Nat × Thread) :=
  match d with
  | .v n => if sound t n.val w then some (.reg n.val, regsVal t n.val w, t) else none
  | .x k =>
    match xAccess (s.laneEnv (gidOf tid)).nregs w .both (t.x k.val) with
    | some (n, x) => if sound (t.putX k.val x false) n w then some (.reg n, regsVal (t.putX k.val x false) n w, t.putX k.val x false) else none
    | none => none
  | .q k =>
    if w ≤ 2 ∧ t.popAcq k.val ≠ some .partition then some (.queue k.val, (t.pop k.val).1.toNat % 2 ^ (32 * w), (t.pop k.val).2) else none
  | _ => none

/-- Where an operation's result lands. -/
def destAt (l : Loc) (w id : Nat) : Dest :=
  match l with
  | .reg n => .regs n w
  | .queue k => .queue k id

/-- A store to global memory on its way. -/
def glbStore (s : State) (set tid : Nat) (m : MAcc) (w : MemW) (v va pa : Nat) (e : TlbEnt) : Store :=
  { id := s.nextId, tid := tid, team := teamOf (gidOf tid), space := .glb, va := va, pa := pa, size := (widthOf w).1,
    data := v % 2 ^ (8 * (widthOf w).1), scope := m.scope, pol := effPol (leafCpol e.leaf) m.pol, comp := compOf e, setFull := false,
    et := leafEt e.leaf, acted := false, set := set }

/-- A store to a local store on its way. -/
def locStore (s : State) (set tid : Nat) (m : MAcc) (w : MemW) (v u sp off : Nat) : Store :=
  { id := s.nextId, tid := tid, team := u, space := spaceOf sp, va := off, pa := off, size := (widthOf w).1,
    data := v % 2 ^ (8 * (widthOf w).1), scope := m.scope, pol := 0, setFull := decide (m.fe = .setFull), et := false, acted := false, set := set }

/-- Each of the bytes lies in a footprint range of the launch (25 R375). -/
def inFootprint (s : State) (tid va n : Nat) : Prop :=
  let l := (s.grid (s.teamOfT tid).grid).lrec
  ∀ a, va ≤ a → a < va + n → (l.foot0.1 ≤ a ∧ a < l.foot0.1 + l.foot0.2) ∨ (l.foot1.1 ≤ a ∧ a < l.foot1.1 + l.foot1.2)

/-! Atomics (15 R245, R246): the new value from the old one and the operand, none where a compare fails. -/

/-- A word of 64 bits. -/
def wide (op : AtomOp) : Bool :=
  match op with
  | .add64 | .cas64 | .fadd64 | .maxZ64 | .minZ64 => true
  | _ => false

/-- Registers of the operand. -/
def operandRegs (op : AtomOp) : Nat :=
  match op with
  | .cas32 => 2
  | .cas64 => 4
  | _ => if wide op then 2 else 1

def atomicNew (op : AtomOp) (fpdef : Word) (old x : Nat) : Option Nat :=
  let w := if wide op then 64 else 32
  let v := x % 2 ^ w
  match op with
  | .add32 | .add64 => some ((old + v) % 2 ^ w)
  | .minS => some (if sgn 32 old ≤ sgn 32 v then old else v)
  | .maxS => some (if sgn 32 v ≤ sgn 32 old then old else v)
  | .minZ | .minZ64 => some (if old ≤ v then old else v)
  | .maxZ | .maxZ64 => some (if v ≤ old then old else v)
  | .and => some (Nat.land old v)
  | .or => some (Nat.lor old v)
  | .xor => some (Nat.xor old v)
  | .exch => some v
  | .cas32 | .cas64 => if old = v then some (x / 2 ^ w % 2 ^ w) else none
  | .fadd32 => some (redCombine .fadd32 fpdef old v)
  | .fadd64 => some (redCombine .fadd64 fpdef old v)

/-! Accumulators (15 R248-R253). -/

/-- Registers of D: none, a single, or a pair. -/
def accRegs (fn : XaccFn) : Nat :=
  match fn with
  | .addF64 | .subF64 | .merge => 2
  | .addF32 | .subF32 => 1
  | _ => 0

/-- The operands of an accumulator function. -/
def accSrcs (fn : XaccFn) (sp : Space) (d a : Operand) : List (Operand × Nat) :=
  (a, addrWidth sp) :: (if accRegs fn = 0 then [] else [(d, accRegs fn)])

/-- The pages of the objects, each translated for the access and none of them peer memory (01 R36). -/
def Mapped (s : State) (tid : Nat) (ps : List (Nat × AccK)) (hs : List Hit) : Prop :=
  ps.map (fun p => s.xlate tid p.1 p.2) = hs.map (fun h => .hit h.1 h.2) ∧ ∀ h ∈ hs, isPeerPa h.1 = false

/-- The lane's last-page register takes each translation in turn. -/
def touchedAll (s : State) (tid : Nat) (hs : List Hit) : State := hs.foldl (fun s h => touched s tid h.2) s

/-- An object of `n` bytes at `va` as its homes hold it, no byte of it poisoned. -/
def objAt (s : State) (w : Who) (hs : List Hit) (va n : Nat) (fresh : Bool) : Option (Nat × State) :=
  match s.readObj w (objLines hs va n) fresh va with
  | (x, false, t) => some (x, t)
  | _ => none

/-- A valid object: its header, then the object whole by the KIND found (15 R251). -/
def accAt (s : State) (w : Who) (fn : XaccFn) (hs : List Hit) (va : Nat) (fresh : Bool) : Option (AccKind × Nat × List ObjLine × State) := do
  let (h, s) ← objAt s w hs va 64 fresh
  let n := xaccSize fn (kindOf (accKindField h))
  let (x, s) ← objAt s w hs va n fresh
  let k ← accValid x
  return (k, x, objLines hs va n, s)

/-- What an accumulator function writes (15 R250-R252): the lines of the target and its new image; none where 15 R251 stops it. A clear gives an
empty object of its kind; an add or subtract takes the value exactly, from the kinds that accept it; a merge takes a source object of the
target's kind that does not overlap it in part. -/
def accNew (s : State) (w : Who) (fn : XaccFn) (va v : Nat) (hs : List Hit) : Option (List ObjLine × Nat × State) :=
  match fn with
  | .clrF64 => (objAt s w hs va 320 false).map (fun r => (objLines hs va 320, 256, r.2))
  | .clrF32 => (objAt s w hs va 64 false).map (fun r => (objLines hs va 64, 512, r.2))
  | .merge => do
    let (kx, x, os, s) ← accAt s w fn hs va false
    let (ky, y, ms, s) ← accAt s w fn hs v false
    if kx = ky ∧ (ms = os ∨ ∀ l ∈ ms, ∀ o ∈ os, o.1 ≠ l.1) then some (os, kx.write (kx.merge (kx.read y) (kx.read x)), s) else none
  | _ => do
    let (k, x, os, s) ← accAt s w fn hs va false
    let value := match fn with
      | .addF64 => f64.value v
      | .subF64 => (f64.value v).neg
      | .addF32 => f32.value (v % 2 ^ 32)
      | _ => (f32.value (v % 2 ^ 32)).neg
    if (fn = .addF64 ∨ fn = .subF64) ∧ k.code ≠ 1 then none else some (os, k.write (k.add (k.read x) value), s)

end Sys2Proof.Terms
end

