-- ==== Sys2Proof/Safety/Phaser.lean ====
section
/-! DEFINITION. Terms of the statements about phasers (03 R68-R72; 11 R183-R187) and spawns (03 R62). -/

namespace Sys2Proof.Terms

open Sys2Proof.Machine

/-- What an operation on a phaser waits for before it is sent. -/
def phSettled (t : Thread) (release : Bool) : Prop := t.acqPending = [] ∧ (release = true → t.ldc = 0 ∧ t.stc = 0)

/-- The translation that reaches a phaser in global memory, and the state once the lane has used it and set OUTSIDE; nothing holds the lane
back (27 R402). -/
def phReached (s : State) (tid : Nat) (pl : Place) (k : AccK) : Option (List Hit × State) :=
  match pl with
  | .loc _ _ _ => if s.laneClear tid [] then some ([], s) else none
  | .glb va =>
    match s.xlate tid va k with
    | .hit pa e => if s.laneClear tid [(pa, e)] && !s.peerError pa then some ([(pa, e)], outside (touched s tid e) tid) else none
    | _ => none

/-- The three registers that a test reads of its quad, the handle and the phase, and the lane after the access: the fourth is ignored
(11 R185). -/
def quadLow (s : State) (tid : Nat) (a : Operand) : Option (Nat × Thread) :=
  let t := s.thread tid
  match a with
  | .v n => if sound t n.val 3 then some (regsVal t n.val 3, t) else none
  | .x k =>
    match xAccess (s.laneEnv (gidOf tid)).nregs 4 .src (t.x k.val) with
    | some (n, x) => if sound (t.putX k.val x false) n 3 then some (regsVal (t.putX k.val x false) n 3, t.putX k.val x false) else none
    | none => none
  | _ => none

/-- A lane's operation finds phaser `v` at `loc`, in the state `t`: handle read, place reached, no poison, the checks of 03 R69 passed. -/
def PhFound (s : State) (tid : Nat) (h : Nat) (k : AccK) (pl : Place) (hs : List Hit) (v : Nat) (loc : PhLoc) (t : State) : Prop :=
  s.phPlace (teamOf (gidOf tid)) (BitVec.ofNat 64 h) = .ok pl ∧
  ∃ s', phReached s tid pl k = some (hs, s') ∧ s'.readPh tid pl hs = (some v, loc, t)

/-- The fields of a phaser (03 R68). -/
structure PhFields where
  phase : Nat
  nsig : Nat
  nwait : Nat
  arrived : Nat
  blocked : Nat
  dsig : Int
  dwait : Int
  init : Bool
  dropped : Bool
  kind : Nat
deriving DecidableEq, Repr

/-- The fields at their bits. -/
def phFields (v : Nat) : PhFields :=
  { phase := v % 2 ^ 32, nsig := v / 2 ^ 32 % 2 ^ 16, nwait := v / 2 ^ 48 % 2 ^ 16, arrived := v / 2 ^ 64 % 2 ^ 16,
    blocked := v / 2 ^ 80 % 2 ^ 16, dsig := sgn 16 (v / 2 ^ 96 % 2 ^ 16), dwait := sgn 16 (v / 2 ^ 112 % 2 ^ 16),
    init := v / 2 ^ 128 % 2 == 1, dropped := v / 2 ^ 129 % 2 == 1, kind := v / 2 ^ 130 % 4 }

/-- A registration of one role (03 R70): counted at once while no phase is under way, else at the next phase; none where a count leaves
its range. -/
def counted (free : Bool) (n : Nat) (d x : Int) : Option (Nat × Int) :=
  if free then (if 0 ≤ (n : Int) + x ∧ (n : Int) + x ≤ 65535 then some (((n : Int) + x).toNat, d) else none)
  else (if -32768 ≤ d + x ∧ d + x ≤ 32767 ∧ 0 ≤ (n : Int) + d + x ∧ (n : Int) + d + x ≤ 65535 then some (n, d + x) else none)

/-- The record that a spawn sends (03 R62). -/
def recordOf (s : State) (tid : Nat) (e args : Nat) : SpawnRec :=
  { entry := BitVec.ofNat 32 e, args := wordsOf 8 args, grid := (s.teamOfT tid).grid, ctx := (s.teamOfT tid).ctx }

end Sys2Proof.Terms
end

