-- ==== Sys2Proof/Safety/Engine.lean ====
section
/-! DEFINITION. Terms of the statements about the matrix arrays (17 R256-R258, R273-R285). -/

namespace Sys2Proof.Terms

open Sys2Proof.Machine

/-- An operand of the lane that supplies it: registers, low first, or a literal. -/
def valueOf (t : Thread) (a : Operand) (w : Nat) : Nat :=
  match a with
  | .v n => regsVal t n.val w
  | .lit x => x.toNat
  | .lit2 lo hi => lo.toNat + hi.toNat * 2 ^ 32
  | _ => 0

/-- A matrix instruction: guard, bound on issue, the operands checked, the register that its status will be written to, the command with the
register sources it holds (17 R273), and further registers that every lane must have at hand (17 R281). -/
structure MIssue where
  guard : Guard
  look : Fin 16
  uses : List Use
  status : Option Nat
  cmd : MCmd
  rows : List Nat := []

/-- The command that a matrix instruction sends for a group. -/
def matrixIssue (s : State) (gid : Nat) (i : Instr) : Option MIssue :=
  let t := s.thread (tidOf gid 0)
  let env := s.laneEnv gid
  let c (fn : MFn) : MCmd := { id := s.nextId, gid := gid, fn := fn, pc := s.cur.pc }
  match i with
  | .mmaMma g l (.v d) (.v a) => some { guard := g, look := l, uses := src (.v d) :: wideUse (.v a) 4, status := some d.val, cmd := { c .mma with
      ctl := t.reg d.val, aw := BitVec.ofNat 64 (regsVal t a.val 2), cw := BitVec.ofNat 64 (regsVal t (a.val + 2) 2), dreg := d.val,
      flush := fpFtz env.fpdef } }
  | .mmaMpair g l (.v d) (.v a) => some { guard := g, look := l, uses := src (.v d) :: wideUse (.v a) 4, status := some d.val, cmd := { c .mpair with
      ctl := t.reg d.val, aw := BitVec.ofNat 64 (regsVal t a.val 2), cw := BitVec.ofNat 64 (regsVal t (a.val + 2) 2), dreg := d.val,
      flush := fpFtz env.fpdef } }
  | .mmaMload g l a => some { guard := g, look := l, uses := wideUse a 2, status := none, cmd := { c .mload with aw := BitVec.ofNat 64 (valueOf t a 2) } }
  | .mmaMclear g l a => some { guard := g, look := l, uses := wideUse a 2, status := none, cmd := { c .mclear with cw := BitVec.ofNat 64 (valueOf t a 2) } }
  | .mmaMrow g l a => some { guard := g, look := l, uses := wideUse a 1, status := none, cmd := { c .mrow with aw := BitVec.ofNat 64 (valueOf t a 1) } }
  | .mmaMmar g l k (.v a) =>
    let n := env.nregs - a.val
    if (spGet (s.group gid).binds k.val).map (·.kind) = some 2 then
      some { guard := g, look := l, uses := [], status := none, rows := upto a.val n, cmd := { c .mmar with
        q := k.val, flush := fpFtz env.fpdef, dreg := a.val,
        bad := (List.range 32).flatMap (fun x => ((List.range n).filter (fun j =>
          (s.thread (tidOf gid x)).poisonRegs.contains (a.val + j))).map (fun j => (tidOf gid x, j))),
        rows := (List.range 32).map (fun x => (List.range n).map (fun j => (s.thread (tidOf gid x)).reg (a.val + j))) } }
    else none
  | _ => none

/-- A command in the queue of its core. -/
def queuedM (s : State) (core : Nat) (c : MCmd) : State :=
  { s with
    nextId := s.nextId + 1
    cores := spPut s.cores core { s.core core with mcmds := (s.core core).mcmds ++ [c] } }

/-- A lane of a group that sent a command: past it, or waiting for room in the queue; D marked; its bound on issue noted. -/
def sentCommand (s : State) (m : MIssue) (room : Bool) (x : Thread) : Thread :=
  let y := if room then throughCollective s x else arrived s .engine x
  { y with
    sb := y.sb ++ (match m.status with | some n => [{ op := m.cmd.id, isPred := false, n := n }] | none => [])
    look := y.look ++ [(m.cmd.id, m.look.val + (if room then 0 else 1))] }

/-- A command accepted: it counts in ENGC of every lane of its group, and the wait for room in the queue is over (17 R275). -/
def acceptedM (s : State) (core : Nat) (m : MCmd) : State :=
  ((({ s with nextId := s.nextId + 1 } : State).modM core m.id (fun _ => { m with acc := s.nextId })).eachOf m.gid (fun u =>
    { u.passCommand m.id s.clock with engc := (u.passCommand m.id s.clock).engc + 1 })).stir (s.team (teamOf m.gid)).ctx

/-- A lane of a group whose command has ended: status and MROW in its D, ENGC one lower, the scope at which its writes are acquired noted, its
bound on issue gone (17 R277; 13 R232). -/
def endedCommand (m : MCmd) (status mrow : Nat) (x : Thread) : Thread :=
  let y := if m.fn = .mma ∨ m.fn = .mpair then x.deliver m.id (.regs m.dreg 1) [BitVec.ofNat 32 (status + 2 ^ 16 * (mrow % 2 ^ 11))] else x
  { y with
    engc := y.engc - 1
    engcDone := addScopes y.engcDone [jobScope (m.reads ++ m.writes)]
    look := y.look.filter (fun e => e.1 ≠ m.id) }

/-- The queue of a core once a command has ended: without it; with any status but DONE the group's later accepted commands are skipped,
mrow excepted (17 R283). -/
def queueAfter (ms : List MCmd) (m : MCmd) (status : Nat) : List MCmd :=
  (ms.filter (fun x => x.id ≠ m.id)).map (fun x =>
    if status ≠ 0 ∧ x.gid = m.gid ∧ 0 < x.acc ∧ x.fn ≠ .mrow then { x with skip := true } else x)

/-- The state once a command has ended, but for its group's threads; its context has made progress (23 R368). -/
def endedM (s : State) (core : Nat) (m : MCmd) (status : Nat) : State :=
  State.stir { s with
    cores := spPut s.cores core { s.core core with mcmds := queueAfter (s.core core).mcmds m status }
    groups := if status = 0 ∧ (m.fn = .mma ∨ m.fn = .mpair) then spPut s.groups m.gid { s.group m.gid with mrow := 0 } else s.groups } (s.team (teamOf m.gid)).ctx

/-- Bytes of an operand of a team, from an offset in it: local stores only. -/
def localPart (s : State) (gid : Nat) (w : DWord) (off n : Nat) : Nat :=
  (s.team (teamOf gid)).readLocal (wordSpace w) (wordAddr w + off) n

/-- An operand in a local store whose bytes hold no poison. -/
def cleanLocal (s : State) (gid : Nat) (w : DWord) : Prop :=
  wordSpace w ≠ 0 ∧ ∀ off n, (s.team (teamOf gid)).poisonedAt (wordSpace w) (wordAddr w + off) n = false

/-- The B block of a group: its rows and its scales (17 R258, R278). -/
def blockB (s : State) (gid : Nat) (w : DWord) (h : Hdr) : List Nat × Nat :=
  ((List.range h.rows).map (fun i => localPart s gid w (16 + i * h.stride) h.rowBytes),
   if h.smode = 1 then localPart s gid w h.scaleoff (h.rows / 32 * h.cols) else 0)

/-- Row `i` of A and its scales. -/
def rowA (s : State) (gid : Nat) (w : DWord) (h : Hdr) (i : Nat) : Nat × Nat :=
  (localPart s gid w (16 + i * h.stride) h.rowBytes,
   if h.smode = 1 then localPart s gid w (h.scaleoff + i * (h.cols / 32)) (h.cols / 32) else 0)

/-- Row `i` of C as an mma writes it. -/
def newRow (s : State) (m : MCmd) (ah bh ch : Hdr) (bw : DWord) (i : Nat) : Nat :=
  let a := rowA s m.gid m.aw ah i
  let b := blockB s m.gid bw bh
  let old := (s.team (teamOf m.gid)).readLocal 4 (wordAddr m.cw + 16 + i * ch.stride) ch.rowBytes
  packElems (fmtBits ch.fmt) (rowOfC bh ah.fmt m.flush a.1 a.2 b.1 b.2 ((List.range ch.cols).map (elemAt old (fmtBits ch.fmt))))

end Sys2Proof.Terms
end

