-- ==== Sys2Proof/Safety/Copies.lean ====
section
/-! DEFINITION. Terms of the statements about copies and the template table (17 R259-R271). -/

namespace Sys2Proof.Terms

open Sys2Proof.Machine

/-- Digits of a number, the first place lowest, over given extents. -/
def digits (l : List Nat) (r : Nat) : List Nat :=
  match l with
  | [] => []
  | t :: rest => r % t :: digits rest (r / t)

/-- The nibble address of an element of tile `t` that is read: by 17 R260 its origin plus its place, mirrored, times the strides. -/
def elemNib (x : Tsr) (t : Nat) (js : List Nat) : Nat :=
  2 * x.base + ((List.range x.ext.length).map (fun i =>
    mirror x.mirrorEdge ((x.origin t).getD i 0 + js.getD i 0) (x.ext.getD i 0) * x.steps.getD i 0)).sum

/-- The tensor side of a copy. -/
def tensorFeet (team : Nat) (t : Tmpl) (x : Tsr) (tidx : Nat) : List Foot :=
  match x.range t.dir tidx with
  | some r => [⟨if t.tsp then 1 else 0, if t.tsp then team else 0, r.1, r.2⟩]
  | none => []

/-- The tile side of a copy in a local store; a CSPAD side is of cluster scope (13 R229). -/
def tileFeet (t : Tmpl) (x : Tsr) (u sp off : Nat) : List Foot := [⟨if t.tilesp = 5 then 5 else sp, u, off, x.tileBytes⟩]

/-- The tensor side lies within SPAD, where it is in SPAD. -/
def tensorFits (s : State) (team : Nat) (t : Tmpl) (x : Tsr) (tidx : Nat) : Prop :=
  t.tsp = true → ∀ r, x.range t.dir tidx = some r → r.1 + r.2 ≤ (s.team team).region 1

/-- A copy to global memory, an element of which lies outside the footprints of the launch, sets OUTSIDE (25 R375). -/
def copyOutside (s : State) (tid : Nat) (t : Tmpl) (x : Tsr) (tidx : Nat) : State :=
  if t.dir && !t.tsp && (x.rowNibs true tidx).flatten.any (fun a => (a.map (fun a => !s.inFoot tid (a / 2) ((x.nibs + 1) / 2))).getD false)
  then outside s tid else s

/-- The copy that a push starts, its tile side in a local store. -/
def startedCopy (s : State) (p : Push) (t : Tmpl) (x : Tsr) (u sp off : Nat) : Copy :=
  let tidx := p.val.toNat / 2 ^ 32
  let tens := tensorFeet (teamOf (gidOf p.tid)) t x tidx
  let tile := tileFeet t x u sp off
  { id := p.id, acc := s.nextId, tid := p.tid, pc := p.pc, chan := p.chan, tmpl := t, tsr := x, tidx := tidx,
    doff := p.val.toNat / 2 ^ 10 % 2 ^ 22, gid := gidOf p.tid, destGid := groupKey u 0,
    reads := if t.dir then tile else tens, writes := if t.dir then tens else tile }

/-- Rows of a tile in a local store. -/
def putRows (t : Team) (sp off : Nat) (x : Tsr) (rows : List (List Nat)) : Team :=
  (List.range rows.length).foldl (fun t i => t.writeLocal sp (off + i * x.pitch) x.pitch (packRow x.nibs (rows.getD i []))) t

/-- A template instruction in one group: guard, bound, operands, sources of the leader. -/
def tmplUni (g : Guard) (us : List Use) (rs : List (Operand × Nat)) : UniOp := { guard := g, uses := us, srcs := rs }

/-- The template table's COUNT as the group uses it. -/
def tableCount (s : State) (gid : Nat) : Nat := cpyCount (s.ctlFor (s.team (teamOf gid)).ctx gid).cpytab

/-- A group has sent a tmpl command: the command in its core's queue, the leader with its accesses, D marked in every lane of m0, the
members past the instruction with the bound on issue noted. -/
def TemplateSent (s t : State) (g : Guard) (gid lead : Nat) (u : Thread) (l : Fin 16) (d : Option Nat) (fn : Nat) (idx : Word) (va : Nat) : Prop :=
  let core := (s.team (teamOf gid)).core
  let c : TCmd := { fn := fn, gid := gid, tids := activeOf s g gid, pc := s.cur.pc, idx := idx, va := va, dreg := d.getD 0, op := s.nextId }
  ThreadsBecome { s with
    nextId := s.nextId + 1
    cores := spPut s.cores core { s.core core with tcmds := (s.core core).tcmds ++ [c] } } t (fun tid x =>
      let x := if tid = lead then u else x
      let x : Thread := match d with
        | some n => if gidOf tid = gid ∧ inM0 s tid then markLane s tid n x else x
        | none => x
      if s.members.contains tid then
        let y := x.advance s.cur.len s.clock
        { y with look := y.look ++ [(s.nextId, l.val)] }
      else x)

/-- A job met nothing that keeps it from going on. -/
def nothing (m : Met) : Prop := m.faults = [] ∧ m.fail = none

end Sys2Proof.Terms
end

