-- ==== Sys2Proof/Safety/Render.lean ====
section
/-! DEFINITION. Terms of the statements about textures, residency, ray tests, rasterisation and frame-out (19 R287-R323). -/

namespace Sys2Proof.Terms

open Sys2Proof.Machine

/-- The pages of a lane's reads, each translated, and no peer that answers with an error (01 R36). -/
def Reached (s : State) (tid : Nat) (ps : List (Nat × AccK)) (hs : List Hit) : Prop :=
  ps.map (fun p => s.xlate tid p.1 p.2) = hs.map (fun h => .hit h.1 h.2) ∧ ∀ h ∈ hs, s.peerError h.1 = false

/-- Words from a register on. -/
def wordsAt (t : Thread) (n w : Nat) : List Word := (List.range w).map (fun i => t.reg (n + i))

/-- A result known at issue, on its way to its registers or queue; `set`: the issue set of a texture load (19 R301). -/
def knownLoad (s : State) (tid : Nat) (d : Nat → Dest) (ws : List Word) (tex : Bool) (set : Nat := 0) : Load :=
  { id := s.nextId, tid := tid, pc := s.cur.pc, dest := d s.nextId, kind := .words ws none, acq := none, tex := tex, issued := s.clock, set := set }

/-- The feedback entries due for a lookup (19 R300, R303): one for each page of the wanted level that is not resident. -/
def feedsDue (s : State) (tid : Nat) (q : List Word) (p : TexPlan) (nofb : Bool) : List Feed :=
  let c := s.ctxOfT tid
  let res := (q.headD 0).toNat
  let word (u : Nat × Nat × Nat) : Nat :=
    res + 2 ^ 16 * p.want + 2 ^ 20 * p.ach + (if p.zero then 2 ^ 24 else 0) + 2 ^ 32 * u.2.1 + 2 ^ 48 * u.2.2 + 2 ^ 64 * u.1
      + 2 ^ 96 * (s.vtime c / 2 ^ 10 % 2 ^ 32)
  if (p.zero || p.ach != p.want) && !nofb then
    p.due.map (fun u => { load := s.nextId, core := s.coreOfT tid, ctx := c, res := res, pn := u.1, entry := BitVec.ofNat 128 (word u) })
  else []

/-- The operands of a ray test: a ray or box in eight registers, the node index in D+4, the stack in D+5, the base in D+6 and D+7. -/
def rayReady (t : Thread) (d a : Fin 112) (spill : Bool) : Prop :=
  sound t a.val 8 = true ∧ sound t (d.val + 4) 1 = true ∧ (spill = true → sound t (d.val + 5) 1 = true) ∧ sound t (d.val + 6) 2 = true ∧
  free t d.val 8 = true

/-- The address of the record that a test reads. -/
def rayAddr (t : Thread) (d : Fin 112) (stride : Nat) : Nat := regsVal t (d.val + 6) 2 + stride * (t.reg (d.val + 4)).toNat

/-- The entries that a spilling test writes to the stack in SPAD: codes of the hit children but the nearest, the farthest first. -/
def spillCodes (t : Thread) (d : Fin 112) (order : List Nat) : List Nat :=
  (order.drop 1).reverse.map (fun c => (4 * (t.reg (d.val + 4)).toNat + 1 + c) % 2 ^ 32)

/-- Codes written one after another from an offset of SPAD. -/
def putCodes (t : Team) (off : Nat) (codes : List Nat) : Team :=
  (List.range codes.length).foldl (fun t i => t.writeLocal 1 (off + 4 * i) 4 (codes.getD i 0)) t

/-- A command of a uniform instruction sent by the one group of the set: the leader with its accesses, D marked in every lane of m0, the
members past the instruction with the bound on issue noted. -/
def lanesSent (s : State) (gid lead : Nat) (u : Thread) (l : Fin 16) (d : Option Nat) (tid : Nat) (x : Thread) : Thread :=
  let x := if tid = lead then u else x
  let x : Thread := match d with
    | some n => if gidOf tid = gid ∧ inM0 s tid then markLane s tid n x else x
    | none => x
  if s.members.contains tid then
    let y := x.advance s.cur.len s.clock
    { y with look := y.look ++ [(s.nextId, l.val)] }
  else x

/-- The OUTSIDE flag of the clusters of some threads. -/
def outsideAll (s : State) (ts : List Nat) : State := ts.foldl outside s

/-- A slice with one more residency command. -/
def withRes (s : State) (f : Nat) (r : ResCmd) : State :=
  { s with
    nextId := s.nextId + 1
    slices := spPut s.slices f { s.slice f with rescmds := (s.slice f).rescmds ++ [r] } }

/-- A slice with one more fout command. -/
def withFout (s : State) (i : Nat) (c : FCmd) : State :=
  { s with
    nextId := s.nextId + 1
    slices := spPut s.slices i { s.slice i with fcmds := (s.slice i).fcmds ++ [c] } }

/-- A slice with one more raster command. -/
def withRaster (s : State) (i : Nat) (r : RCmd) : State :=
  { s with
    nextId := s.nextId + 1
    slices := spPut s.slices i { s.slice i with raster := (s.slice i).raster ++ [r] } }

/-- The raster command of a group: the state's address from lane 0, a triangle's address from each lane. -/
def rasterCmd (s : State) (gid : Nat) (d a : Operand) : RCmd :=
  { id := s.nextId, gid := gid, core := (s.team (teamOf gid)).core, pc := s.cur.pc, stateVa := valueOf (s.thread (tidOf gid 0)) d 2,
    tris := (List.range 32).map (fun l => valueOf (s.thread (tidOf gid l)) a 2) }

/-- A lane of a group that sent a raster command. -/
def sentRaster (s : State) (l : Fin 16) (room : Bool) (x : Thread) : Thread :=
  let y := if room then throughCollective s x else arrived s .engine x
  { y with look := y.look ++ [(s.nextId, l.val + (if room then 0 else 1))] }

end Sys2Proof.Terms
end

