-- ==== Sys2Proof/Safety/Events.lean ====
section
/-! DEFINITION. Terms of the statements about events (03 R46; 13 R215-R226; 23 R350-R371). -/

namespace Sys2Proof.Terms

open Sys2Proof.Machine

/-- Nothing that must act before an access still stands (13 R217; 15 R241). -/
def Oldest (s : State) (id tid set : Nat) (isLoad : Bool) (span : Option (Nat × Nat × Nat)) : Prop :=
  s.accsBefore { id := id, tid := tid, set := set, isLoad := isLoad, span := span } = []

/-- A load whose words are bound written to its destination: LDC one lower, its acquire no longer awaited. -/
def delivered (s : State) (l : Load) (ws : List Word) : State :=
  ({ s with loads := s.loads.filter (fun x => x.id ≠ l.id) } : State).modBoth l.tid (fun t =>
    { t.deliver l.id l.dest ws with
      ldc := t.ldc - 1
      acqPending := t.acqPending.filter (· ≠ l.id) })

/-- A load whose result is the entry of a copy channel's queue gives its push the value (11 R189). -/
def pushFilled (s : State) (l : Load) (ws : List Word) : State :=
  s.fillPush l.tid l.id (match l.dest with
    | .queue _ _ => some ((ws.getD 1 0) ++ (ws.getD 0 0))
    | _ => none)

/-- The acquire of a load follows its read (13 R219). -/
def acquired (s : State) (l : Load) : State :=
  match l.acq with
  | some sc => s.acquireAt (s.whoT l.tid) sc
  | none => s

/-- A store counted: STC one lower. -/
def counted1 (s : State) (x : Store) : State :=
  ({ s with stores := s.stores.filter (fun y => y.id ≠ x.id) } : State).modBoth x.tid (fun t => { t with stc := t.stc - 1 })

/-- The walks without one. -/
def withoutWalk (s : State) (id : Nat) : State := { s with walks := s.walks.filter (fun x => x.id ≠ id) }

/-- Threads of a group that waited for translation go on. -/
def translatedGroup (s : State) (g : Nat) : State :=
  (s.threadsOfGroup g).foldl (fun s e => if e.2.wait = .translate then s.modThread e.1 (fun t => { t with wait := .none }) else s) s

/-- A walk that faulted with a kind. -/
def faultedWalk (s : State) (id kind : Nat) : State :=
  { s with walks := s.walks.map (fun x => if x.id = id then { x with fault := some kind } else x) }

/-- A walk that ended in a cause, with the place of poison. -/
def causedWalk (s : State) (id : Nat) (c : Cause × Nat) : State :=
  { s with walks := s.walks.map (fun x => if x.id = id then { x with cause := some c } else x) }

/-- A line of a cluster cache that has taken the dirty bytes of an L1's (13 R208, R211). -/
def tookDirty (y x : Line) : Line :=
  { y with
    data := lineMerge y.data x.data x.dirty
    valid := y.valid ||| x.dirty
    dirty := y.dirty ||| x.dirty
    comp := x.comp
    poison := (y.poison &&& ~~~(sectorsWhole x.dirty)) ||| (x.poison &&& sectorsOf x.dirty)
    writers := unionNew y.writers x.writers }

end Sys2Proof.Terms
end

