-- ==== Sys2Proof/Safety/Flow.lean ====
section
/-! DEFINITION. Terms of the statements about control transfer, special registers, batches and counters (11 R170, R174, R182,
R191-R193), as lane instructions. -/

namespace Sys2Proof.Terms

open Sys2Proof.Machine

/-- The lane continues at `pc`. -/
def goTo (pc : Word) (t : Thread) : Thread := { t with pc := pc }

/-- Control transfer from the instruction at `pc` (11 R174), and nop (R182). -/
def jumpOp (pc : Word) : Instr → Option LaneOp
  | .bra g off => some { guard := g, after := fun _ _ u => goTo (pc + 1 + off.signExtend 32) u }
  | .call g off => some
    { guard := g, post := fun _ _ _ u => { u with link := pc + 1 }, after := fun _ _ u => goTo (pc + 1 + off.signExtend 32) u }
  | .jmpr g a => some { guard := g, srcs := [(a, 1)], after := fun _ xs u => goTo (BitVec.ofNat 32 (xs.getD 0 0)) u }
  | .ret g => some { guard := g, after := fun t _ u => goTo t.link u }
  | .nop g => some { guard := g }
  | _ => none

/-- The words of a special register in a lane (11 R170, 03 R43): its number, and whether it is 64 bits wide. -/
def spNum (s : State) (tid : Nat) (r : SpReg) : Nat × Bool :=
  let t := s.thread tid
  let g := s.group (gidOf tid)
  let tm := s.team (teamOf (gidOf tid))
  match r with
  | .lane => (tid % 32, false)
  | .thread => (32 * g.idx + tid % 32, false)
  | .group => (g.idx, false)
  | .team => (tm.idx, false)
  | .teamdim => (if tm.binEntry.isSome then g.launched else tm.nthreads % 2 ^ 16 + 2 ^ 16 * (tm.nthreads / 32), false)
  | .cluster => (if tm.binEntry.isSome then 2 ^ 32 - 1 else (s.cluster tm.cluster).idx.toNat, false)
  | .clpos => (tm.clpos, false)
  | .grid => ((s.grid tm.grid).number.toNat, false)
  | .corelog => (tm.corelog, false)
  | .slicelog => (tm.slicelog, false)
  | .bin => (match g.bin with | some b => b | none => 2 ^ 32 - 1, false)
  | .time => (s.time, true)
  | .vtime => (s.vtime tm.ctx, true)
  | .clock => ((s.ctx tm.ctx).clockCount, true)
  | .link => (t.link.toNat, false)
  | .seed => (t.seed.toNat, false)
  | .mrow => (g.mrow, false)
  | .trapcode => (t.trapcode.toNat, false)
  | .trappc => (t.trappc.toNat, false)
  | .trapaddr => (t.trapaddr.toNat, true)
  | .trapaux => (t.trapaux.toNat, false)
  | .subcnt => ((s.ctx tm.ctx).subcnt, false)
  | .feedlost => ((s.ctx tm.ctx).feedlost, false)
  | .assure => (s.assure tm.ctx, true)

/-- Width of a special register in registers. -/
def spWidth (r : SpReg) : Nat :=
  match r with
  | .time | .vtime | .clock | .trapaddr | .assure => 2
  | _ => 1

/-- sreg and sregw: a write to a register that is not RW has no effect (11 R170). -/
def spOp (s : State) : Instr → Option (Nat → LaneOp)
  | .sreg g d r => some (fun tid => { guard := g, out := .dst d (spWidth r), f := fun _ _ _ => (spNum s tid r).1 })
  | .sregw g r b => some (fun _ =>
    { guard := g, srcs := [(b, spWidth r)],
      post := fun _ _ xs u =>
        let v := BitVec.ofNat 32 (xs.getD 0 0)
        match r with
        | .link => { u with link := v }
        | .seed => { u with seed := v }
        | .trappc => { u with trappc := v }
        | _ => u })
  | _ => none

/-- The counters of a thread (11 R191). -/
def ctrVal (t : Thread) : Ctr → Nat
  | .ldc => t.ldc
  | .stc => t.stc
  | .batc => t.batc
  | .engc => t.engc
  | .resc => t.resc

/-- A batch of the copies pushed since the last one; an empty batch, and those behind finished ones, leave at once (11 R192), and the scopes
at which their copies' writes are acquired stay for a waitc (13 R232). -/
def sealed (t : Thread) : Thread :=
  let bs := t.batches ++ [{ num := t.nextBatch, copies := t.openCopies, scopes := t.openDone }]
  let gone := bs.takeWhile (fun b => b.copies.isEmpty)
  let rest := bs.dropWhile (fun b => b.copies.isEmpty)
  { t with openCopies := [], openDone := [], nextBatch := t.nextBatch + 1, batches := rest, batc := t.batc + 1 - gone.length,
           batcDone := addScopes t.batcDone (gone.flatMap (·.scopes)) }

/-- seal and bquery, and waitc as it concerns the thread (11 R191-R193). -/
def batchOp : Instr → Option LaneOp
  | .seal g d => some
    { guard := g, out := .dst d 1, ok := fun _ t _ => decide (t.batches.length < 15), f := fun _ t _ => t.nextBatch.toNat, last := sealed }
  | .bquery g d => some
    { guard := g, out := .dst d 1, f := fun _ t _ => match t.batches with | b :: _ => b.num.toNat | [] => t.nextBatch.toNat }
  | .waitc g c val => some
    { guard := g, ok := fun _ t _ => decide (ctrVal t c ≤ val.toNat),
      last := fun u => match c with | .batc => { u with batcDone := [] } | .engc => { u with engcDone := [] } | _ => u }
  | _ => none

end Sys2Proof.Terms
end

