-- ==== Sys2Proof/Safety/LaneFloat.lean ====
section
/-! DEFINITION. Terms of the statements about lane instructions on numbers of the formats (09 R155-R163) and about index registers
(R154): the instruction each constructor stands for, over the exact operations and the rounding of 07. -/

namespace Sys2Proof.Terms

open Sys2Proof.Machine

/-- Rounding mode, saturation and flushing from the prefix and FPDEF (09 R155). -/
def fenvOf (p : Option APfx) (fp : Word) : FEnv :=
  { mode := pfxMode p (fpRnd fp), sat := pfxSat p, flush := pfxFtz p (fpFtz fp) }

/-- Three sources of `w` registers: the addend is C where the prefix names one, else D read in place (09 R140, R156). -/
def triC (w : Nat) (p : Option APfx) (g : Guard) (d a b : Operand) (f : FEnv → Nat → Nat → Nat → Nat) : LaneOp :=
  match pfxC p with
  | some c =>
    { guard := g, srcs := [(a, w), (b, w), (c, w)], out := .dst d w,
      f := fun fp _ xs => f (fenvOf p fp) (xs.getD 0 0) (xs.getD 1 0) (xs.getD 2 0) }
  | none =>
    { guard := g, srcs := [(a, w), (b, w)], out := .upd d w,
      f := fun fp _ xs => f (fenvOf p fp) (xs.getD 0 0) (xs.getD 1 0) (xs.getD 2 0) }

def fbin (w : Nat) (f : FEnv → Nat → Nat → Nat) (p : Option APfx) (g : Guard) (d a b : Operand) : LaneOp :=
  { guard := g, srcs := [(a, w), (b, w)], out := .dst d w, f := fun fp _ xs => f (fenvOf p fp) (xs.getD 0 0) (xs.getD 1 0) }

def fun1 (w : Nat) (f : FEnv → Nat → Nat) (p : Option APfx) (g : Guard) (d a : Operand) : LaneOp :=
  { guard := g, srcs := [(a, w)], out := .dst d w, f := fun fp _ xs => f (fenvOf p fp) (xs.getD 0 0) }

/-- Two elements of `w` bits, each computed alone (09 R159). -/
def twice (w : Nat) (f : Nat → Nat) : Nat := f 0 % 2 ^ w + 2 ^ w * (f 1 % 2 ^ w)

/-- Arithmetic on f32 and f64 (09 R156, R158). -/
def floatOp : Instr → Option LaneOp
  | .faddF32 p g d a b => some (fbin 1 (fun e x y => e.put f32 (Fv.add e.mode.isRd (e.get f32 x) (e.get f32 y))) p g d a b)
  | .fsubF32 p g d a b => some (fbin 1 (fun e x y => e.put f32 (Fv.sub e.mode.isRd (e.get f32 x) (e.get f32 y))) p g d a b)
  | .fmulF32 p g d a b => some (fbin 1 (fun e x y => e.put f32 (Fv.mul (e.get f32 x) (e.get f32 y))) p g d a b)
  | .fdivF32 p g d a b => some (fbin 1 (fun e x y => e.put f32 (Fv.div (e.get f32 x) (e.get f32 y))) p g d a b)
  | .fminF32 p g d a b => some (fbin 1 (fun e x y => e.put f32 (Fv.minnum (e.get f32 x) (e.get f32 y))) p g d a b)
  | .fmaxF32 p g d a b => some (fbin 1 (fun e x y => e.put f32 (Fv.maxnum (e.get f32 x) (e.get f32 y))) p g d a b)
  | .faddF64 p g d a b => some (fbin 2 (fun e x y => e.put f64 (Fv.add e.mode.isRd (e.get f64 x) (e.get f64 y))) p g d a b)
  | .fsubF64 p g d a b => some (fbin 2 (fun e x y => e.put f64 (Fv.sub e.mode.isRd (e.get f64 x) (e.get f64 y))) p g d a b)
  | .fmulF64 p g d a b => some (fbin 2 (fun e x y => e.put f64 (Fv.mul (e.get f64 x) (e.get f64 y))) p g d a b)
  | .fdivF64 p g d a b => some (fbin 2 (fun e x y => e.put f64 (Fv.div (e.get f64 x) (e.get f64 y))) p g d a b)
  | .fminF64 p g d a b => some (fbin 2 (fun e x y => e.put f64 (Fv.minnum (e.get f64 x) (e.get f64 y))) p g d a b)
  | .fmaxF64 p g d a b => some (fbin 2 (fun e x y => e.put f64 (Fv.maxnum (e.get f64 x) (e.get f64 y))) p g d a b)
  | .fsqrtF32 p g d a => some (fun1 1 (fun e x => e.put f32 ((e.get f32 x).sqrt f32.fbits)) p g d a)
  | .fsqrtF64 p g d a => some (fun1 2 (fun e x => e.put f64 ((e.get f64 x).sqrt f64.fbits)) p g d a)
  | .fscale p g d a b => some (fbin 1 (fun e x y => e.put f32 ((e.get f32 x).scale (sgn 32 y))) p g d a b)
  | .fclass p g d a b => some (fbin 1 (fun e x y => 2 ^ fclassBit e.flush x &&& y) p g d a b)
  | _ => none

/-- x × y + z or x × y - z, rounded once. -/
def fused (f : Fmt) (minus : Bool) (e : FEnv) (x y z : Nat) : Nat :=
  e.put f (Fv.add e.mode.isRd (Fv.mul (e.get f x) (e.get f y)) (if minus then (e.get f z).neg else e.get f z))

/-- Fused, packed and dot-product forms (09 R156, R159, R160). -/
def fusedOp : Instr → Option LaneOp
  | .fmaF32 p g d a b => some (triC 1 p g d a b (fused f32 false))
  | .fmsF32 p g d a b => some (triC 1 p g d a b (fused f32 true))
  | .fmaF64 p g d a b => some (triC 2 p g d a b (fused f64 false))
  | .fmsF64 p g d a b => some (triC 2 p g d a b (fused f64 true))
  | .pfmaF32x2 p g d a b => some (triC 2 p g d a b (fun e x y z => twice 32 (fun i => fused f32 false e (elem 32 x i) (elem 32 y i) (elem 32 z i))))
  | .pfmaBf16x2 p g d a b => some (triC 1 p g d a b (fun e x y z => twice 16 (fun i => fused bf16 false e (elem 16 x i) (elem 16 y i) (elem 16 z i))))
  | .paddF32x2 p g d a b => some (fbin 2 (fun e x y => twice 32 (fun i =>
      e.put f32 (Fv.add e.mode.isRd (e.get f32 (elem 32 x i)) (e.get f32 (elem 32 y i))))) p g d a b)
  | .pmulF32x2 p g d a b => some (fbin 2 (fun e x y => twice 32 (fun i =>
      e.put f32 (Fv.mul (e.get f32 (elem 32 x i)) (e.get f32 (elem 32 y i))))) p g d a b)
  | .dot4S8 p g d a b => some (triC 1 p g d a b (fun e x y z =>
      let n := sgn 32 z + sgn 8 (elem 8 x 0) * sgn 8 (elem 8 y 0) + sgn 8 (elem 8 x 1) * sgn 8 (elem 8 y 1)
        + sgn 8 (elem 8 x 2) * sgn 8 (elem 8 y 2) + sgn 8 (elem 8 x 3) * sgn 8 (elem 8 y 3)
      wrap 32 (if e.sat then max (-(2 ^ 31)) (min (2 ^ 31 - 1) n) else n)))
  | .dot2Bf16 p g d a b => some (triC 1 p g d a b (fun e x y z =>
      let q (i : Nat) : Fv := Fv.mul (e.get bf16 (elem 16 x i)) (e.get bf16 (elem 16 y i))
      e.put f32 (Fv.add e.mode.isRd (Fv.add e.mode.isRd (e.get f32 z) (q 0)) (q 1))))
  | _ => none

/-- The SEED after `n` draws (07 R128). -/
def seedAfter (x : Word) : Nat → Word
  | 0 => x
  | n + 1 => seedAfter (nextSeed x) n

/-- One element of a conversion in the bits it takes in the destination: an integer of fewer than 32 bits that stands alone fills its
register (09 R163). -/
def cvtPart (c : CvtCode) (sat : Bool) (p : Option APfx) (fp : Word) (seed : Word) (x i : Nat) : Nat :=
  let e := fenvOf p fp
  let mode := if pfxStochastic p then Mode.rs ((seedAfter seed (i + 1)).toNat / 256) else e.mode
  wrap (if c.count = 1 then 32 * tyRegs c.dst 1 else tyBits c.dst) (cvtElem c.dst c.src mode sat e.flush (elem (tyBits c.src) x i))

/-- All elements of a conversion, the first lowest. -/
def cvtAll (c : CvtCode) (sat : Bool) (p : Option APfx) (fp : Word) (seed : Word) (x : Nat) : Nat :=
  ((List.range c.count).map (fun i =>
    cvtPart c sat p fp seed x i * 2 ^ ((if c.count = 1 then 32 * tyRegs c.dst 1 else tyBits c.dst) * i))).sum

/-- A conversion: SEED moves once for each element under stochastic rounding. -/
def cvtBy (sat : Bool) (p : Option APfx) (g : Guard) (d a : Operand) (c : CvtCode) : LaneOp :=
  { guard := g, srcs := [(a, tyRegs c.src c.count)], out := .dst d (tyRegs c.dst c.count),
    f := fun fp t xs => cvtAll c sat p fp t.seed (xs.getD 0 0),
    post := fun _ t _ u => { u with seed := if pfxStochastic p then seedAfter t.seed c.count else t.seed } }

/-- Special functions, conversions and xset (09 R154, R161-R163). -/
def convOp : Instr → Option LaneOp
  | .cvt p g d a c => some (cvtBy false p g d a c)
  | .cvtSat p g d a c => some (cvtBy true p g d a c)
  | .ffnF32 p g d a fn => some (fun1 1 (fun e x => ffnElem f32 fn e.sat e.flush x) p g d a)
  | .ffnF16 p g d a fn => some (fun1 1 (fun e x => ffnElem f16 fn e.sat e.flush (elem 16 x 0) + 2 ^ 16 * ffnElem f16 fn e.sat e.flush (elem 16 x 1)) p g d a)
  | .xset g k a => some
    { guard := g, srcs := [(a, 1)],
      ok := fun nregs _ xs => decide (xs.getD 0 0 % 256 + (if xs.getD 0 0 / 256 % 256 = 0 then 256 else xs.getD 0 0 / 256 % 256) ≤ nregs),
      post := fun _ _ xs u => u.putX k.val (BitVec.ofNat 32 (xs.getD 0 0)) false }
  | _ => none

end Sys2Proof.Terms
end

