-- ==== Sys2Proof/Safety/Whole.lean ====
section
/-! DEFINITION. Terms of the statements about fetching, a step, and what every step keeps (05 R110; 27 R397, R400). -/

namespace Sys2Proof.Terms

open Sys2Proof.Machine

/-- The first `n` words from a PC on, as the front end of a core reads them; none where a word meets a miss, a missing permission, poison or
the end of the image. -/
def wordsFetched (s : State) (core c : Nat) (pc : Word) : Nat → Option (List Word × State)
  | 0 => some ([], s)
  | n + 1 =>
    match wordsFetched s core c pc n with
    | none => none
    | some (ws, a) =>
      match a.fetchWord core c (pc + BitVec.ofNat 32 ws.length) with
      | (.ok w, b) => some (ws ++ [w], b)
      | _ => none

/-- Words that an instruction begins with but that are not all of it. -/
def Unfinished (sp : Space) (ws : List Word) : Prop := ∃ r, decode sp ws = .error r ∧ r.why = .missingWord

/-- The lowest slice of a partition in DRAIN. -/
def Drains (s : State) (f : Nat) : Prop := f < 12 ∧ s.first f = f ∧ s.slcState f = stDrain

/-- DRAINED of every slice of a partition in DRAIN shows whether the partition's work has come to rest (a slice of one such partition only). -/
def DrainRight (s : State) : Prop :=
  ∀ f, Drains s f → ∀ i ∈ s.partSlices f, (∀ g, Drains s g → i ∈ s.partSlices g → g = f) → (spGet s.slices i).isSome = true →
    ((s.sreg i 0).toNat / 8 % 2 = 1 ↔ s.drainedNow f = true)

end Sys2Proof.Terms
end

