-- ==== Sys2Proof/Certificates/Slice0/Obligations.lean ====
section
/-! DEFINITION. The statements for the provers. -/

open Sys2Proof Sys2Proof.Machine Sys2Proof.Terms

/-! Lane instructions. Each statement says that the set completes, what every member's record becomes, and that nothing else of the
machine changes (`laneResult` changes thread records only). -/

/-- 09 R142: add, sub, mul, mulh, mulx, mac, macx, and, or, xor, andn, min, max and addr, on every operand form. -/
def Obligations.integer_arithmetic : Prop :=
  ∀ (i : Instr) (p : LaneOp) (s : State), arithOp i = some p → LaneReady s (fun _ => p) →
    exec i s = .next (laneResult (fun _ => p) s)

/-- 09 R143-R146, R153: shifts, immediates, bit fields, unary functions and moves. -/
def Obligations.shifts_bits_moves : Prop :=
  ∀ (i : Instr) (p : LaneOp) (s : State), shiftOp i = some p → LaneReady s (fun _ => p) →
    exec i s = .next (laneResult (fun _ => p) s)

/-- 09 R147-R151, R154: comparisons into predicates, selection, predicate logic, and the read of an index register. -/
def Obligations.compare_select_predicates : Prop :=
  ∀ (i : Instr) (p : LaneOp) (s : State), predOp i = some p → LaneReady s (fun _ => p) →
    exec i s = .next (laneResult (fun _ => p) s)

/-- 09 R156-R158: arithmetic on f32 and f64, square roots, scaling and classification. -/
def Obligations.float_arithmetic : Prop :=
  ∀ (i : Instr) (p : LaneOp) (s : State), floatOp i = some p → LaneReady s (fun _ => p) →
    exec i s = .next (laneResult (fun _ => p) s)

/-- 09 R156, R159, R160: fused multiply-add with C or with D read in place, packed forms, dot products. -/
def Obligations.fused_packed_dot : Prop :=
  ∀ (i : Instr) (p : LaneOp) (s : State), fusedOp i = some p → LaneReady s (fun _ => p) →
    exec i s = .next (laneResult (fun _ => p) s)

/-- 09 R154, R161-R163: conversions with SEED's moves, special functions (their results the model's free values, log 7), xset. -/
def Obligations.convert_special_index : Prop :=
  ∀ (i : Instr) (p : LaneOp) (s : State), convOp i = some p → LaneReady s (fun _ => p) →
    exec i s = .next (laneResult (fun _ => p) s)

/-- 11 R174, R182: bra, call, jmpr, ret and nop; a member whose guard is false falls through. -/
def Obligations.control_transfer : Prop :=
  ∀ (i : Instr) (p : LaneOp) (s : State), jumpOp s.cur.pc i = some p → LaneReady s (fun _ => p) →
    exec i s = .next (laneResult (fun _ => p) s)

/-- 11 R170, 03 R43: sreg reads each special register, sregw writes the RW ones and nothing else. R191-R193; 13 R232: seal, bquery and
waitc; a waitc on BATC or ENGC acquires the writes of the jobs it waits out too, at their scopes, which changes no thread record beside. -/
def Obligations.special_registers_and_counters : Prop :=
  (∀ (i : Instr) (p : Nat → LaneOp) (s : State), spOp s i = some p → LaneReady s p → exec i s = .next (laneResult p s)) ∧
  (∀ (i : Instr) (p : LaneOp) (s : State), batchOp i = some p → LaneReady s (fun _ => p) →
     ((∀ g val, i ≠ .waitc g .batc val ∧ i ≠ .waitc g .engc val) → exec i s = .next (laneResult (fun _ => p) s)) ∧
     ∃ t, exec i s = .next t ∧ t.threads = (laneResult (fun _ => p) s).threads ∧ t.groups = s.groups ∧ t.ctxs = s.ctxs ∧
       t.clusters = s.clusters ∧ t.grids = s.grids ∧ t.loads = s.loads ∧ t.stores = s.stores ∧ t.cur = s.cur)

/-- 09 R152: shfl.idx and shfl.xor exchange A among the active lanes of each group. -/
def Obligations.lane_exchange : Prop :=
  ∀ (i : Instr) (p : Nat → LaneOp) (s : State), shflOp s i = some p → LaneReady s p →
    ∃ t, exec i s = .next t ∧ ThreadsBecome s t (fun tid x => if s.members.contains tid then (p tid).member s tid else x)

/-! Uniform instructions. -/

/-- 11 R167-R169, R171, R175, R178: the leader lane's sources, the result in every lane of m0; ctl, mrd and gred, where a ctl of FEEDHEAD
acquires too. R177, R179: gscan in the active members of each group, in ascending lane order. -/
def Obligations.uniform_arithmetic : Prop :=
  ((∀ (i : Instr) (p : UniOp) (s : State), uniOp i = some p → UniReady s (fun _ => p) →
      ∃ t, exec i s = .next t ∧ Uniform s t (fun _ => p)) ∧
   (∀ (i : Instr) (p : Nat → UniOp) (s : State), uniRead s i = some p → UniReady s p →
      ((∀ g d, i ≠ .ctl g d .feedhead) → ∃ t, exec i s = .next t ∧ Uniform s t p) ∧
      ∃ t, exec i s = .next t ∧ (∀ tid, spGet t.threads tid = (spGet s.threads tid).map ((p (gidOf tid)).after s tid)) ∧
        t.groups = s.groups ∧ t.ctxs = s.ctxs ∧ t.clusters = s.clusters ∧ t.grids = s.grids ∧ t.loads = s.loads ∧ t.stores = s.stores)) ∧
  (∀ (g : Guard) (n : Fin 112) (a : Operand) (ex : Bool) (op : RedFn) (p : Nat → UniOp) (s : State),
     uniRead s (.gred g (.v n) a op) = some p → UniReady s p →
     ∃ t, exec (.gscan g (.v n) a ex op) s = .next t ∧ ThreadsBecome s t (scanned s g n.val a ex op))

/-! Masks and joint waits. -/

/-- 11 R175, 03 R58-R60, R74: join and leave change the bits of the active members; waitm waits where the thread's bit is set; the masks are
tested once the clock's updates are all in, at its end: the waiters of a mask leave together once every live thread set in it waits there, and the
waiters of bar and clbar once every live thread of the team or cluster does; else nothing changes. (That the waiters' earlier accesses have
completed is the model's condition, log 14.) -/
def Obligations.masks_and_joint_releases : Prop :=
  (∀ (g : Guard) (k : Fin 12) (s : State), Plain s g →
     exec (.join g k) s = .next (maskBits (passed s) (actives s g) k.val true) ∧
     exec (.leave g k) s = .next (maskBits (passed s) (actives s g) k.val false) ∧
     exec (.waitm g k) s =
       .next (waiting s g (.mask k.val) (fun tid => (spRead 0 (s.group (gidOf tid)).masks k.val).getLsbD (laneOf tid)))) ∧
  (∀ (s : State) (gid : Nat), (s.settleAllMasks.group gid).joined = [] ∧ (s.settleAllMasks.group gid).left = []) ∧
  ((∀ (s : State) (gid k : Nat), Unparked s gid →
     s.settleMask gid k = if maskFull s gid k then released s ((s.threadsOfGroup gid).filter (fun e => decide (e.2.wait = .mask k))) else s) ∧
   (∀ (s : State) (t : Nat), (∀ e ∈ s.threadsOfTeam t, Unparked s (gidOf e.1)) →
     let ts := (s.threadsOfTeam t).map (fun e => (e.1, (spGet s.threads e.1).getD e.2))
     s.settleBar t = if ts ≠ [] ∧ ∀ e ∈ ts, (e.2.wait = .bar ∨ (s.team t).binEntry.isSome = true ∧ e.2.wait = .clbar) ∧ e.2.ldc = 0 ∧ e.2.stc = 0
       then released s ts else s) ∧
   (∀ (s : State) (c : Nat), (∀ e ∈ s.threadsOfCluster c, Unparked s (gidOf e.1)) →
     let ts := (s.threadsOfCluster c).map (fun e => (e.1, (spGet s.threads e.1).getD e.2))
     s.settleClbar c = if ts ≠ [] ∧ ∀ e ∈ ts, e.2.wait = .clbar ∧ e.2.ldc = 0 ∧ e.2.stc = 0 then released s ts else s))

/-- 11 R195, R196, R182: bar, clbar and migpt wait, where a migration is pending for migpt; yield passes, not ready for 16 clocks, its
entry's age 0, and is ready once they are over. -/
def Obligations.barriers_yield_migpt : Prop :=
  (∀ (g : Guard) (s : State), Plain s g →
     exec (.bar g) s = .next ((teamsIn s.members).foldl (fun s t => s.settleBar t) (waiting s g .bar (fun _ => true))) ∧
     exec (.clbar g) s =
       .next ((teamsIn s.members).foldl (fun s t => (s.settleBar t).settleClbar (s.team t).cluster) (waiting s g .clbar (fun _ => true))) ∧
     exec (.migpt g) s =
       .next ((teamsIn s.members).foldl (fun s t => s.migCheck t) (waiting s g .migpt (fun tid => (s.teamOfT tid).mig.isSome))) ∧
     exec (.yield g) s =
       .next ((actives s g).foldl (fun s' tid => s'.ageReset (teamOf (gidOf tid)) s.cur.pc)
         (laneResult (fun _ => { guard := g, after := fun _ _ u => { u with readyAt := s.clock + 16 } }) s))) ∧
  (∀ (s : State) (tid : Nat), (spGet s.threads tid).isSome = true → Unparked s (gidOf tid) →
     exec (.yieldExpiry tid) s = .next (if (s.thread tid).readyAt ≤ s.clock then s.setThread tid { s.thread tid with readyAt := 0 } else s))

/-! Traps and returns. -/

/-- 11 R197, R198: trap and brk in every active member. R199: rte in handler mode; outside it, cause 0x01 ends the context of a thread without
a handler and otherwise enters it. -/
def Obligations.software_traps_and_return : Prop :=
  (∀ (g : Guard) (a : Operand) (s : State), LaneReady s (fun _ => softOp g a) → (∀ tid ∈ actives s g, ∃ base, HandlerAt s tid base) →
     exec (.trap g a) s = .next (softTrapped s g a 0x0E) ∧ exec (.brk g a) s = .next (softTrapped s g a 0x0F)) ∧
  (∀ (g : Guard) (s : State), Plain s g →
     ((∀ tid ∈ actives s g, (s.thread tid).handler = true) →
       exec (.rte g) s = .next (putThreads s s.members (fun tid =>
         if (s.thread tid).pred g.val then returned (s.thread tid) s.clock else (s.thread tid).advance s.cur.len s.clock))) ∧
     ((∀ tid ∈ s.members, (s.thread tid).pred g.val = true ∧ ∃ base, HandlerAt s tid base) →
       exec (.rte g) s = .next (allTrapped s 0x01 s.cur.word 0)))

/-- 05 R101, R108, R110; 11 R198: an illegal word traps every member with its word in TRAPAUX, a fetch without permission with its
address in TRAPADDR; a deferred cause is delivered at the thread's boundary, the lowest code of its oldest instruction first. -/
def Obligations.raised_traps : Prop :=
  (∀ (s : State), s.members.Nodup → (∀ tid ∈ s.members, ∃ base, HandlerAt s tid base) →
    (∀ aux, exec (.illegalInstruction aux) s = .next (allTrapped s 0x01 aux 0)) ∧
    (∀ addr, exec (.fetchProtection addr) s = .next (allTrapped s 0x06 0 addr))) ∧
  (∀ (s : State) (tid : Nat) (base : Word) (d : Deferred) (r : List Deferred), HandlerAt s tid base → (s.thread tid).deferred = d :: r →
    ∃ e ∈ (s.thread tid).deferred, e.pc = d.pc ∧ (∀ o ∈ (s.thread tid).deferred, o.pc = d.pc → e.cause.code ≤ o.cause.code) ∧
      exec (.deferredTrapDelivery tid) s = .next (putThreads s [tid] (fun _ =>
        inHandler { s.thread tid with deferred := (s.thread tid).deferred.filter (fun o => o.pc ≠ d.pc) } e.cause.code e.cause.aux
          e.cause.addr d.pc base s.clock)))

/-! Memory instructions. The issue set is one active lane; an access in global memory has its page translated. -/

/-- 15 R242; 13 R201, R205, R206; 05 R99, R104; 11 R191: a load leaves the set with its access on its way, its bytes still to be bound.
A full/empty load first waits at its bank, and leaves with its data once it has been served. -/
def Obligations.loads : Prop :=
  ∀ (p : MPfx) (g : Guard) (l : Fin 16) (d a : Operand) (w : MemW) (s : State) (tid x : Nat) (u v : Thread) (at' : Nat → Dest) (pl : Place),
    let m := fieldsOf s tid p (widthOf w).1
    let n := (widthOf w).1
    Alone s tid g [src a, dst d] → memStatic .ld m a s.cur.word = none → settled (s.thread tid) m →
    laneRead s tid a (addrWidth m.space) = some (x, u) → placeAt s tid m x n n = .ok pl →
    landing s tid u d (regsOf w) = some (at', v) → noChannel s tid v →
    (∀ va pa e, pl = .glb va → s.xlate tid va .read = .hit pa e → s.peerError pa = false →
      exec (.ld p g l d a w) s = .next (loadSent (touched s tid e) tid v l.val (glbLoad s tid m w at' va pa e) m.promo)) ∧
    (∀ t sp off, pl = .loc t sp off → m.fe = .none →
      exec (.ld p g l d a w) s = .next (loadSent s tid v l.val (locLoad s tid m w at' t off) m.promo)) ∧
    (∀ t sp off e k, pl = .loc t sp off → m.fe ≠ .none → (spGet s.teams t).isSome = true →
      (s.team t).feq.find? (fun e => e.tid = tid && e.got.isSome) = some e → e.got = some k → (s.team t).poisonedAt sp off n = false →
      exec (.ld p g l d a w) s =
        .next (loadSent (teamSet s t (fun x => { x with feq := x.feq.filter (fun o => o.id ≠ e.id) })) tid v l.val
          (wordLoad s tid m at' (extended n (widthOf w).2 k)) m.promo)) ∧
    (∀ t sp off, pl = .loc t sp off → m.fe ≠ .none → (spGet s.teams t).isSome = true → (s.team t).feq = [] → NoneBefore s tid →
      let e : FeWait := { id := s.nextId, tid := tid, sp := sp, off := off, n := n, consume := decide (m.fe = .consume), got := none }
      let y := arrived s (.fullEmpty s.nextId) (s.thread tid)
      exec (.ld p g l d a w) s = .next (
        if (s.team t).allFull sp off n then
          { teamSet s t (fun x =>
              let x := { x with feq := [{ e with got := some (x.readLocal sp off n) }] }
              if m.fe = .consume then x.setEmpty sp off n else x) with
            nextId := s.nextId + 1, threads := spPut s.threads tid { y with wait := .retry, readyAt := s.clock } }
        else { teamSet s t (fun x => { x with feq := [e] }) with nextId := s.nextId + 1, threads := spPut s.threads tid y }))

/-- 15 R243; 13 R218; 11 R191; 25 R375: a store leaves with its bytes on their way, after what its release asks for; a store outside
the launch's footprint sets OUTSIDE. -/
def Obligations.stores : Prop :=
  ∀ (p : MPfx) (g : Guard) (l : Fin 16) (d a : Operand) (w : MemW) (s : State) (tid x k : Nat) (u : Thread) (pl : Place),
    let m := fieldsOf s tid p (widthOf w).1
    let n := (widthOf w).1
    Alone s tid g [src a, src d] → memStatic .st m a s.cur.word = none → settled (s.thread tid) m →
    readAll (s.laneEnv (gidOf tid)).nregs (s.thread tid) [(a, addrWidth m.space), (d, regsOf w)] = some ([x, k], u) →
    placeAt s tid m x n n = .ok pl → noChannel s tid u →
    (∀ va pa e s', pl = .glb va → s.xlate tid va .write = .hit pa e → s.peerError pa = false → releaseDone s tid m = some s' →
      let s1 := touched s' tid e
      (inFootprint s1 tid va n →
        exec (.st p g l d a w) s = .next (storeSent s1 tid u (glbStore s1 s1.nextId tid m w k va pa e))) ∧
      (¬ inFootprint s1 tid va n →
        exec (.st p g l d a w) s = .next (storeSent (outside s1 tid) tid u (glbStore s1 s1.nextId tid m w k va pa e)))) ∧
    (∀ t sp off s', pl = .loc t sp off → releaseDone s tid m = some s' →
      exec (.st p g l d a w) s = .next (storeSent s' tid u (locStore s' s'.nextId tid m w k t sp off)))

/-- 15 R244-R247; 13 R225, R226: atom acts at once and leaves with the old value on its way, a promoted one once every core has answered; red
acts at once, its completion still to be counted. -/
def Obligations.atomics : Prop :=
  ∀ (p : MPfx) (g : Guard) (l : Fin 16) (d a : Operand) (op : AtomOp) (s s' : State) (tid x : Nat) (u : Thread) (pl : Place),
    let m := fieldsOf s tid p (if wide op then 8 else 4)
    let n := if wide op then 8 else 4
    let r := if wide op then 2 else 1
    let fp := (s'.laneEnv (gidOf tid)).fpdef
    laneRead s tid a (addrWidth m.space) = some (x, u) → placeAt s tid m x n n = .ok pl → settled (s.thread tid) m →
    releaseDone s tid m = some s' → NoneBefore s' tid →
    (∀ loc k v, Alone s tid g [src a, both d] → memStatic .atom m a s.cur.word = none → operandAt s tid u d (operandRegs op) = some (loc, k, v) →
      noChannel s tid v →
      (∀ va pa e, pl = .glb va → s.xlate tid va .both = .hit pa e → s.peerError pa = false → s.laneClear tid [(pa, e)] = true →
        let s1 := outside (touched s' tid e) tid
        (m.promo = true → exec (.atom p g l d a op) s =
          .next (loadSent s1 tid v l.val (laterAtomic s1 s1.nextId tid m (destAt loc r) op fp k va pa e) true)) ∧
        (∀ s2 old, m.promo = false →
          s1.rmwGlb (s1.whoT tid) op fp k pa (compOf e) m.pol (m.acquires && decide (m.scope = .system)) va = (some old, s2) →
          exec (.atom p g l d a op) s = .next (loadSent s2 tid v l.val (wordLoad s2 tid m (destAt loc r) (wordsOf r old) s1.nextId)))) ∧
      (∀ t sp off, pl = .loc t sp off → s.laneClear tid [] = true → (spGet s'.teams t).isSome = true → (s'.team t).poisonedAt 1 off n = false →
        let s1 := outside s' tid
        let old := (s'.team t).readLocal 1 off n
        let s2 := match atomicNew op fp old k with
          | some y => teamSet s1 t (fun x => x.writeLocal 1 off n y)
          | none => s1
        exec (.atom p g l d a op) s = .next (loadSent s2 tid v l.val (wordLoad s2 tid m (destAt loc r) (wordsOf r old) s1.nextId) m.promo))) ∧
    (∀ k v, Alone s tid g [src a, src d] → memStatic .red m a s.cur.word = none →
      readSrc (s.laneEnv (gidOf tid)).nregs u d (operandRegs op) = some (k, v) → noChannel s tid v →
      (∀ va pa e s2 old, pl = .glb va → s.xlate tid va .write = .hit pa e → s.peerError pa = false → s.laneClear tid [(pa, e)] = true →
        let s1 := outside (touched s' tid e) tid
        s1.rmwGlb (s1.whoT tid) op fp k pa (compOf e) m.pol false va = (some old, s2) →
        exec (.red p g l d a op) s = .next (storeSent s2 tid v (actedNow s2 tid m.scope []))) ∧
      (∀ t sp off, pl = .loc t sp off → s.laneClear tid [] = true → (spGet s'.teams t).isSome = true → (s'.team t).poisonedAt 1 off n = false →
        let s1 := outside s' tid
        let s2 := match atomicNew op fp ((s'.team t).readLocal 1 off n) k with
          | some y => teamSet s1 t (fun x => x.writeLocal 1 off n y)
          | none => s1
        exec (.red p g l d a op) s = .next (storeSent s2 tid v (actedNow s2 tid m.scope []))))

/-- 15 R245, R246: the new value of each atomic, and the word read and written at the home of global memory: the old value comes from the
line's home once every copy has been recalled, a compare that fails writes nothing, and the requesting core is granted the line. 07 R135-R137: an accumulator's image and its parts; adding
a finite value adds it exactly, OVF recording a sum out of range; merge adds the bodies; a rounding read of an object without flags rounds the
body's exact value. -/
def Obligations.atomic_and_exact_values : Prop :=
  ((∀ op fp old x, old < 2 ^ (if wide op then 64 else 32) → rmwNew op fp old x = atomicNew op fp old x) ∧
   (∀ (s : State) (w : Who) (op : AtomOp) (fp : Word) (x pa comp pol va : Nat) (fresh : Bool), isHostPa pa = false →
     let n := if wide op then 8 else 4
     let r := (s.recallLine w.first (pa / 64)).homeRead w.first (pa / 64) w.ctx comp true (if fresh then (s.recallLine w.first (pa / 64)).clock + 1 else 0) va
     let s1 := r.2.applyPol w (pa / 64) comp pol
     let old := lineGet r.1.data (pa % 64) n
     r.1.poison &&& sectorsOf (byteMask (pa % 64) n) = 0 →
     s.rmwGlb w op fp x pa comp pol fresh va = (some old, match atomicNew op fp old x with
       | none => s1.grantLine w (pa / 64) comp r.1
       | some v => (s1.homeWrite w.first (pa / 64) w.ctx comp (lineAt (pa % 64) n v) (byteMask (pa % 64) n) 0 false).grantLine w (pa / 64) comp
           { r.1 with data := lineMerge r.1.data (lineAt (pa % 64) n v) (byteMask (pa % 64) n) }))) ∧
  (∀ k : AccKind, k = acc64 ∨ k = acc32 →
     (∀ a : Acc, a.count < 2 ^ 48 → a.body < 2 ^ k.bodyBits → k.read (k.write a) = a ∧ k.ok (k.write a) = true) ∧
     (∀ (a : Acc) (neg : Bool) (n d : Nat), 0 < d → d ∣ n * 2 ^ k.wexp →
       let b := k.add a (.fin neg n d)
       let sum := sext k.bodyBits a.body + (if neg then -1 else 1) * ((n * 2 ^ k.wexp / d : Nat) : Int)
       b.count = min (a.count + 1) (2 ^ 48 - 1) ∧ b.nan = a.nan ∧ b.pinf = a.pinf ∧ b.ninf = a.ninf ∧
       (-(2 ^ (k.bodyBits - 1) : Int) ≤ sum ∧ sum < 2 ^ (k.bodyBits - 1) → sext k.bodyBits b.body = sum ∧ b.ovf = a.ovf) ∧
       (¬ (-(2 ^ (k.bodyBits - 1) : Int) ≤ sum ∧ sum < 2 ^ (k.bodyBits - 1)) → b.ovf = true)) ∧
     (∀ a b : Acc,
       let c := k.merge a b
       let sum := sext k.bodyBits a.body + sext k.bodyBits b.body
       c.count = min (a.count + b.count) (2 ^ 48 - 1) ∧ c.nan = (a.nan || b.nan) ∧ c.pinf = (a.pinf || b.pinf) ∧ c.ninf = (a.ninf || b.ninf) ∧
       (-(2 ^ (k.bodyBits - 1) : Int) ≤ sum ∧ sum < 2 ^ (k.bodyBits - 1) → sext k.bodyBits c.body = sum ∧ c.ovf = (a.ovf || b.ovf))) ∧
     (∀ (a : Acc) (f : Fmt) (mode : Mode), a.nan = false → a.pinf = false → a.ninf = false → a.ovf = false →
       k.rnd a f mode = if sext k.bodyBits a.body = 0 then 0 else
         f.round mode false (.fin (decide (sext k.bodyBits a.body < 0)) (sext k.bodyBits a.body).natAbs (2 ^ k.wexp))))

/-- 15 R248-R253; 13 R213, R218: xacc on objects that pass the checks of R251 writes its whole object at once and is still to be counted; xrnd of a
valid object leaves with the rounding read on its way. The requesting core is granted the lines. -/
def Obligations.accumulators : Prop :=
  (∀ (p : MPfx) (g : Guard) (l : Fin 16) (d a : Operand) (fn : XaccFn) (s s' s2 : State) (tid x va v : Nat) (xs : List Nat) (u : Thread)
      (hs : List Hit) (os : List ObjLine),
    let m := fieldsOf s tid p 64
    let k := xs.headD 0
    let s1 := outside (touchedAll s' tid hs) tid
    let w := s1.whoT tid
    Alone s tid g (xaccUses fn d a) → memStatic .xacc m a s.cur.word = none → settled (s.thread tid) m →
    readAll (s.laneEnv (gidOf tid)).nregs (s.thread tid) (accSrcs fn m.space d a) = some (x :: xs, u) →
    placeAt s tid m x 64 64 = .ok (.glb va) → (fn = .merge → ∃ q, s.placeOf (teamOf (gidOf tid)) .glb k 64 64 = .ok q) → noChannel s tid u →
    Mapped s tid (s.xaccPages tid fn (some (va, k))) hs → s.laneClear tid hs = true → releaseDone s tid m = some s' → NoneBefore s' tid →
    accNew s1 w fn va k hs = some (os, v, s2) →
    let s3 := (s2.writeObj w os v).grantObj w os v m.pol
    exec (.xacc p g l d a fn) s = .next (storeSent s3 tid u (actedNow s3 tid m.scope []))) ∧
  (∀ (p : MPfx) (g : Guard) (l : Fin 16) (d a : Operand) (single : Bool) (mode : XrndMode) (s s' s2 : State) (tid x va y : Nat) (u v : Thread)
      (at' : Nat → Dest) (hs : List Hit) (kind : AccKind) (os : List ObjLine),
    let m := fieldsOf s tid p 64
    let n := if single then 1 else 2
    let s1 := touchedAll s' tid hs
    let w := s1.whoT tid
    Alone s tid g [src a, dst d] → memStatic .xrnd m a s.cur.word = none → settled (s.thread tid) m →
    laneRead s tid a (addrWidth m.space) = some (x, u) → placeAt s tid m x 64 64 = .ok (.glb va) →
    landing s tid u d n = some (at', v) → noChannel s tid v →
    Mapped s tid (objPages va (xaccSize .merge (s.kindAt tid va .read)) .read) hs → s.laneClear tid hs = true →
    releaseDone s tid m = some s' → NoneBefore s' tid →
    accAt s1 w .merge hs va (m.acquires && decide (m.scope = .system)) = some (kind, y, os, s2) →
    let s3 := s2.grantObj w os y m.pol
    exec (.xrnd p g l d a single mode) s = .next (loadSent s3 tid v l.val
      (wordLoad s3 tid m at' (wordsOf n (kind.rnd (kind.read y) (if single then f32 else f64) (xrndMode mode))))))

/-- 15 R254, R255; 13 R205: fe sets or clears every granule of a range, or writes whether all are full to a predicate. -/
def Obligations.full_empty : Prop :=
  ∀ (p : MPfx) (g : Guard) (l : Fin 16) (d a : Operand) (s s' : State) (tid x k t sp off : Nat) (u : Thread),
    let m := fieldsOf s tid p 16
    readAll (s.laneEnv (gidOf tid)).nregs (s.thread tid) [(a, 1), (d, 1)] = some ([x, k], u) → k % 16 = 0 →
    placeAt s tid m x 16 k = .ok (.loc t sp off) → settled (s.thread tid) m → noChannel s tid u →
    Alone s tid g [src a, src d] → s.laneClear tid [] = true → releaseDone s tid m = some s' → NoneBefore s' tid → (spGet s'.teams t).isSome = true →
    (memStatic .feSet m a s.cur.word = none →
      exec (.fe p g l d a .clr) s =
        .next (storeSent (teamSet s' t (fun x => x.setEmpty sp off k)) tid u (actedNow s' tid m.scope [])) ∧
      ((s'.team t).feq = [] → exec (.fe p g l d a .set) s =
        .next (storeSent (teamSet s' t (fun x => x.setFull sp off k)) tid u (actedNow s' tid m.scope [])))) ∧
    (∀ q : Fin 7, memStatic .feTest m a s.cur.word = none → u.clear true (q.val + 1) = true →
      exec (.fe p g l d a (.test q)) s = .next (loadSent s' tid u l.val
        (wordLoad s' tid m (fun _ => .pred (q.val + 1)) [if (s'.team t).allFull sp off k then 1 else 0])))

/-- 11 R194; 13 R218, R219: cflush and cinval once for the group through its leader; a scope narrower than partition writes nothing back
and drops nothing, and cflush counts one store in each active member in every case. A write-back leaves no dirty byte of the team in the
L1s of the cores and the cluster caches of their slices. -/
def Obligations.cache_ranges : Prop :=
  (∀ (p : Option (Scope × Space)) (g : Guard) (a b : Operand) (s : State) (gid lead x n : Nat) (u : Thread),
    let q : UniOp := { guard := g, uses := [src a, src b], srcs := [(a, 2), (b, 1)] }
    let f := s.rangeFields gid p
    let s' := s.setThread lead u
    (∀ t ∈ s.members, gidOf t = gid) → UniReady s (fun _ => q) → isGlb f.2 = true → leaderOf s g gid = some lead → q.led s gid lead = some ([x, n], u) →
    (∀ t ∈ activeOf s g gid, (s.thread t).acqPending = [] ∧ (s.thread t).stc < 262143) →
    (¬ (f.2 = .cnst ∧ wideScope f.1 = true) →
      exec (.cflush p g a b) s = .next ((s'.rangeFlush gid (activeOf s g gid) f.1 x n).passAll s.members)) ∧
    exec (.cinval p g a b) s = .next ((s'.rangeInval gid f.1 f.2 x n).passAll s.members)) ∧
  (∀ (s : State) (gid : Nat) (sc : Scope) (sp : Space) (a n : Nat), wideScope sc = false → s.rangeInval gid sc sp a n = s) ∧
  (∀ (s : State) (t : Nat) (cores : List Nat) (sel : Nat → Bool) (c la : Nat) (x : Line), c ∈ cores → sel la = true →
    (spGet ((s.flushCores cores (some t) sel).core c).l1 la = some x ∨
     spGet ((s.flushCores cores (some t) sel).slice (coreSlice c)).cc la = some x) → x.dirty = 0 ∨ t ∉ x.writers)

/-! Control registers, votes, exits, queue bindings. -/

/-- 11 R175, R188-R190; 00 R13: mwr, qbind and qfree change the group of each leader, mwr's value under the updates that join and leave made in the
clock; a bad descriptor, a queue with entries or an unbound one traps every member. R171-R173, 00 R6, 25 R375: a ctlw of one group by its leader: the
context's register takes the value, the members wait for every core, OUTSIDE is set, a reserved value is counted, and a write of a feedback register
empties the cores' filters of the context; another register raises 0x06 in every member. Once every core holds the value the group goes on. -/
def Obligations.group_and_control_writes : Prop :=
  ((∀ (g : Guard) (k : Fin 12) (a : Operand) (s : State),
     let p : UniOp := { guard := g, uses := [src a], srcs := [(a, 1)] }
     UniReady s (fun _ => p) →
     ∃ t, exec (.mwr g k a) s = .next t ∧ GroupsBecome s t p (fun xs x =>
       { x with masks := spWrite 0 x.masks k.val ((BitVec.ofNat 32 (xs.headD 0) ||| spRead 0 x.joined k.val) &&& ~~~(spRead 0 x.left k.val)) })) ∧
   (∀ (g : Guard) (k : Fin 8) (a : Operand) (s : State),
     let p : UniOp := { guard := g, uses := [src a], srcs := [(a, 1)] }
     UniReady s (fun _ => p) →
     (∀ gid l xs u, leaderOf s g gid = some l → p.led s gid l = some (xs, u) → portBad (BitVec.ofNat 32 (xs.headD 0)) = false) →
     (∀ gid ∈ groupsIn s.members, ∀ l v, handleLane s g gid = some l → named (s.thread l) a = some v → portBad v = false) →
     (∀ gid ∈ groupsIn s.members, spGet (s.group gid).binds k.val = none ∨ s.queueUsed gid k.val = false) →
     ∃ t, exec (.qbind g k a) s = .next t ∧ GroupsBecome s t p (fun xs x =>
       { x with binds := spPut x.binds k.val { kind := xs.headD 0 % 16, chan := xs.headD 0 / 16 % 8 } })) ∧
   (∀ (g : Guard) (k : Fin 8) (s : State),
     let p : UniOp := { guard := g, uses := [] }
     UniReady s (fun _ => p) →
     (∀ gid ∈ groupsIn s.members, ∃ b, spGet (s.group gid).binds k.val = some b ∧
       if b.kind = 1 then s.untaken gid k.val = false else s.queueUsed gid k.val = false) →
     ∃ t, exec (.qfree g k) s = .next t ∧ GroupsBecome s t p (fun _ x => { x with binds := spDel x.binds k.val })) ∧
   (∀ (g : Guard) (k : Fin 8) (v : Word) (s : State) (gid : Nat), s.members.Nodup → (∀ t ∈ s.members, gidOf t = gid) →
     (∀ t ∈ s.members, memberClear (s.thread t) g.val [] = true ∧ ∃ base, HandlerAt s t base) →
     (portBad v = true ∨ (spGet (s.group gid).binds k.val).isSome = true ∧ s.queueUsed gid k.val = true →
       exec (.qbind g k (.lit v)) s = .next (allTrapped s 0x0A 0 0)) ∧
     (spGet (s.group gid).binds k.val = none → exec (.qfree g k) s = .next (allTrapped s 0x02 0 0)) ∧
     (∀ b, spGet (s.group gid).binds k.val = some b → b.kind ≠ 1 → s.queueUsed gid k.val = true →
       exec (.qfree g k) s = .next (allTrapped s 0x0A 0 0)))) ∧
  ((∀ (g : Guard) (r : CtlReg) (b : Operand) (s : State) (gid l x c : Nat) (u : Thread) (k : Ctx) (cl : Cluster),
     let p : UniOp := { guard := g, uses := [src b], srcs := [(b, ctlWords r)] }
     let tm := s.team (teamOf gid)
     ctlProgram r = true → (∀ t ∈ s.members, gidOf t = gid) → UniReady s (fun _ => p) → leaderOf s g gid = some l → p.led s gid l = some ([x], u) →
     c = tm.ctx → spGet s.ctxs c = some k → spGet s.clusters tm.cluster = some cl →
     ∃ t b', exec (.ctlw g r b) s = .next t ∧
       t.ctxs = spPut s.ctxs c { k with
         ctl := ctlSet k.ctl r (ctlTaken r (k.ctl.get r).toNat x),
         writes := k.writes ++ [{ id := s.nextId, reg := r, old := k.ctl.get r, gid := some gid, useOld := b' }] } ∧
       (∀ tid, spGet t.threads tid =
         if tid ∈ s.members then some (arrived s .ctlw (if tid = l then u else s.thread tid)) else spGet s.threads tid) ∧
       t.clusters = spPut s.clusters tm.cluster { cl with outside := true } ∧
       t.slices = (if ctlCounted r x then s.count (coreSlice tm.core) diagRsvw else s).slices ∧
       t.cores = (if r = .feedbase ∨ r = .feedsize ∨ r = .feedhead ∨ r = .feedtail then
         s.cores.map (fun e => (e.1, { e.2 with filter := e.2.filter.filter (fun q => q.1 ≠ c) })) else s.cores) ∧
       t = { s with ctxs := t.ctxs, threads := t.threads, clusters := t.clusters, slices := t.slices, cores := t.cores,
                    nextId := s.nextId + 1, freeCtr := s.freeCtr + 1 }) ∧
   (∀ (g : Guard) (r : CtlReg) (b : Operand) (s : State), ctlProgram r = false → s.members.Nodup →
     (∀ tid ∈ s.members, staticCause (s.laneEnv (gidOf tid)) [src b] = none ∧ ∃ base, HandlerAt s tid base) → exec (.ctlw g r b) s = .next (allTrapped s 0x06 0 0)) ∧
   (∀ (s : State) (id c gid : Nat) (x : Ctx) (w : CtlWrite), s.ctxs.find? (fun e => e.2.writes.any (fun w => w.id = id)) = some (c, x) →
     spGet s.ctxs c = some x → x.writes.filter (fun w => w.id = id) = [w] → w.gid = some gid → Unparked s gid →
     exec (.ctlwComplete id) s = .next (released (s.setCtx c { x with writes := x.writes.filter (fun w => w.id ≠ id) })
       ((s.threadsOfGroup gid).filter (fun e => decide (e.2.wait = .ctlw))))))

/-- 11 R176; 03 R55, R56: a vote issues once the whole group stands at it with every guard true. -/
def Obligations.votes : Prop :=
  ∀ (g : Guard) (n : Fin 112) (p : Guard) (kind : VoteKind) (s : State) (gid : Nat),
    (s.threads.map (·.1)).Nodup → WholeGroup s gid g [dst (.v n)] → (∀ tid ∈ s.members, (s.thread tid).clear true p.val = true) →
    ∃ t, exec (.vote g (.v n) p kind) s = .next t ∧ ThreadsBecome s t (fun tid x =>
      if gidOf tid = gid then
        throughCollective s (x.uniformReg n.val (BitVec.ofNat 32 (voted kind (fun l => (s.thread (tidOf gid l)).pred p.val))) false)
      else x)

/-- 03 R61; 11 R181; 19 R313: a lone thread at exit with nothing outstanding. Where another thread of its group runs on, its lane's bits
leave every mask and its record goes; as the last thread of its group it takes the group with it, and as the last of its team the team. A
thread with an entered raster-ordered ticket makes the release of rosout, releases it and raises 0x0C. -/
def Obligations.exits : Prop :=
  ∀ (g : Guard) (s : State) (tid : Nat),
    let t := s.thread tid
    let tm := teamOf (gidOf tid)
    spRising none s.threads = true → spRising none s.groups = true → spRising none s.teams = true →
    Alone s tid g [] → t.ldc = 0 → t.stc = 0 → t.batc = 0 → t.engc = 0 → t.openCopies = [] → t.look = [] →
    (t.ticket = none → (s.team tm).mig = none → (∀ e ∈ s.threadsOfCluster (s.team tm).cluster, e.2.wait.counted = false) →
      (∃ o ∈ s.threadsOfGroup (gidOf tid), o.1 ≠ tid) → (spGet s.groups (gidOf tid)).map (·.team) = some tm →
      exec (.exit g) s = .next { s with threads := spDel s.threads tid, groups := unmasked s tid }) ∧
    (t.ticket = none → (∀ o ∈ s.threadsOfGroup (gidOf tid), o.1 = tid) →
      ∃ u, exec (.exit g) s = .next u ∧ spGet u.groups (gidOf tid) = none ∧ spGet u.threads tid = none) ∧
    (t.ticket = none → (∀ o ∈ s.threadsOfTeam tm, o.1 = tid) → (∀ e ∈ s.groupsOf tm, e.1 = gidOf tid) → (s.team tm).carried = [] →
      (s.core (s.team tm).core).bins.any (fun b => b.team = tm) = false → (spGet s.teams tm).isSome = true →
      ∃ u, exec (.exit g) s = .next u ∧ spGet u.teams tm = none ∧ u.threadsOfTeam tm = []) ∧
    (∀ id base s', t.ticket = some id → s.ticketState tid = 1 → s.releaseAt (s.whoT tid) .partition = some s' → s'.thread tid = t →
      s'.ticketState tid = 1 → HandlerAt s' tid base →
      ∃ u, exec (.exit g) s = .next u ∧ u.threads = spPut s'.threads tid (inHandler t 0x0C 0 0 s.cur.pc base s.clock) ∧ u.ticketState tid = 2 ∧
        u = { s' with threads := u.threads, slices := u.slices })

/-! Phasers and spawns. -/

/-- 03 R70-R72; 11 R184, R185: what a registration, an arrival and an initialisation make of a phaser's fields, and when they trap; the
threads that a phaser releases leave their wait with the status in their predicate, and nothing else changes. -/
def Obligations.phaser_objects : Prop :=
  ((∀ (v : Nat) (role : PhRole) (x : Int), v < 2 ^ 256 → x = 1 ∨ x = -1 →
     let a := phFields v
     let free := a.nsig == 0 && a.arrived == 0
     let sg := if role = .wait then some (a.nsig, a.dsig) else counted free a.nsig a.dsig x
     let wt := if role = .sig then some (a.nwait, a.dwait) else counted free a.nwait a.dwait x
     match sg, wt with
     | some (n, d), some (m, e) => ∃ w, phRegister v role x = some w ∧ w < 2 ^ 256 ∧
         phFields w = { a with nsig := n, dsig := d, nwait := m, dwait := e } ∧ w / 2 ^ 132 = v / 2 ^ 132
     | _, _ => phRegister v role x = none) ∧
   (∀ v : Nat, v < 2 ^ 256 →
     let a := phFields v
     (a.nsig = 0 ∨ a.arrived = a.nsig → phArrival v = none) ∧
     (a.nsig ≠ 0 → a.arrived + 1 < a.nsig → ∃ w, phArrival v = some (w, false) ∧ w < 2 ^ 256 ∧ phFields w = { a with arrived := a.arrived + 1 }) ∧
     (a.nsig ≠ 0 → a.arrived + 1 = a.nsig → 0 ≤ (a.nsig : Int) + a.dsig → (a.nsig : Int) + a.dsig ≤ 65535 →
       0 ≤ (a.nwait : Int) + a.dwait → (a.nwait : Int) + a.dwait ≤ 65535 →
       ∃ w, phArrival v = some (w, true) ∧ w < 2 ^ 256 ∧ phFields w = { a with
         phase := (a.phase + 1) % 2 ^ 32,
         arrived := 0,
         nsig := ((a.nsig : Int) + a.dsig).toNat,
         nwait := ((a.nwait : Int) + a.dwait).toNat,
         dsig := 0,
         dwait := 0 })) ∧
   (∀ kind : Nat, kind < 3 → phFields (phImage kind) = ⟨0, 0, 0, 0, 0, 0, 0, true, false, kind⟩)) ∧
  (∀ (s : State) (ts : List Nat) (dropped : Bool), ts.Nodup → (∀ t ∈ ts, Unparked s (gidOf t) ∧ ∃ loc ph p, (s.thread t).wait = .phaser loc ph p) →
     ThreadsBecome s (s.releasePhaser ts dropped) (fun tid x =>
       if tid ∈ ts then
         match x.wait with
         | .phaser _ _ p => (x.setPred p dropped).leaveWait s.clock
         | _ => x
       else x))

/-- 11 R184-R187; 03 R69, R71, R72: each phaser instruction in one active lane that finds its phaser. -/
def Obligations.phasers : Prop :=
  ∀ (g : Guard) (l : Fin 16) (a : Operand) (s s' : State) (tid h v : Nat) (u : Thread) (pl : Place) (hs : List Hit) (loc : PhLoc),
    let team := teamOf (gidOf tid)
    let after (t : State) (w : Nat) : State := t.writePh tid pl hs w
    noChannel s tid u →
    (laneRead s tid a 2 = some (h, u) → Alone s tid g [src a] → phSettled (s.thread tid) false → PhFound s tid h .both pl hs v loc s' →
      s'.phOk team pl v = true →
      (∀ role w, phRegister v role 1 = some w → exec (.phreg g role a) s = .next (past (after s' w) tid u)) ∧
      (∀ role w, phRegister v role (-1) = some w → exec (.phdereg g role a) s = .next (past (after s' w) tid u)) ∧
      (∀ p, (s.thread tid).clear true p.val = true → phNwait v ≠ 0 → exec (.phWait g l p a) s =
        .next ((after s' (setFld v 95 80 (phBlocked v + 1))).setThread tid (arrived s (.phaser loc (phPhase v) p.val) u))) ∧
      (let ts := (past s' tid u).phaserWaiters loc true 0
       exec (.phDrop g l a) s = .next ((after (past s' tid u) (setFld (setFld v 129 129 1) 95 80 (phBlocked v - ts.length))).wakePhaser ts true
         (phKind v)))) ∧
    (∀ d k, readAll (s.laneEnv (gidOf tid)).nregs (s.thread tid) [(a, 2), (d, 1)] = some ([h, k], u) → Alone s tid g [src a, src d] →
      phSettled (s.thread tid) false → PhFound s tid h .both pl hs v loc s' → phInitOk pl v (BitVec.ofNat 32 k) = true →
      exec (.phInit g l d a) s = .next (past (after s' (phImage k)) tid u)) ∧
    (laneRead s tid a 2 = some (h, u) → phSettled (s.thread tid) true → PhFound s tid h .both pl hs v loc s' → s'.phOk team pl v = true →
      (∀ d z w full, Alone s tid g [src a, dst d] → phArrival v = some (w, full) → (landing s tid u d 1).isSome = true →
        writeDst (s.laneEnv (gidOf tid)).nregs u d 1 (phPhase v).toNat = some z → noChannel s tid z →
        let t := past (s'.phRelease tid (phKind v)) tid z
        exec (.phArrive g l d a) s = .next (if full then t.phComplete tid pl hs loc w else after t w)) ∧
      (∀ p w, Alone s tid g [src a] → (s.thread tid).clear true p.val = true → phNwait v ≠ 0 → phArrival v = some (w, false) →
        exec (.phArrwait g l p a) s = .next ((after (s'.phRelease tid (phKind v)) (setFld w 95 80 (phBlocked w + 1))).setThread tid
          (arrived s (.phaser loc (phPhase v) p.val) u))) ∧
      (∀ p w, Alone s tid g [src a] → (s.thread tid).clear true p.val = true → phNwait v ≠ 0 → phArrival v = some (w, true) →
        let t := past (s'.phRelease tid (phKind v)) tid (u.setPred p.val false)
        exec (.phArrwait g l p a) s = .next ((t.phComplete tid pl hs loc w).acquireAt (t.whoT tid) (kindScope (phKind v))))) ∧
    (∀ p x, quadLow s tid a = some (x, u) → Alone s tid g [src a] → phSettled (s.thread tid) false →
      (s.thread tid).clear true p.val = true → PhFound s tid (x % 2 ^ 64) .read pl hs v loc s' → s'.phOk team pl v = true →
      exec (.phTest g l p a) s = .next (
        if (phPhase v).toNat = x / 2 ^ 64 % 2 ^ 32 then past s' tid (u.setPred p.val false)
        else (past s' tid (u.setPred p.val true)).acquireAt (s'.whoT tid) (kindScope (phKind v))))

/-- 03 R62-R67; 11 R180: a spawn of one lane that nothing holds back makes the cluster's bytes reach their homes and joins an open bin of its entry,
or waits where no bin can be had; a spawnh joins the task queue, for the core that owns its address, and waits while that is full; both wait until LDC
and STC are zero. -/
def Obligations.spawns : Prop :=
  ∀ (g : Guard) (a b : Operand) (s : State) (tid args e : Nat) (u : Thread),
    let tm := s.teamOfT tid
    let r := recordOf s tid e args
    let s1 := outside s tid
    let waits (hw : Bool) : State := (s1.setThread tid (arrived s .spawn u)).modCore tm.core (fun (c : Core) =>
      { c with spawnQ := c.spawnQ ++ [{ r with parent := some tid, hw := hw }] })
    Alone s tid g [src a, src b] → entryReady (s.thread tid) b = true →
    (∀ v, named (s.thread tid) b = some v → (s.entryRow tm.ctx v).isSome = true) →
    readAll (s.laneEnv (gidOf tid)).nregs (s.thread tid) [(a, 8), (b, 1)] = some ([args, e], u) → noChannel s tid u →
    (u.ldc ≠ 0 ∨ u.stc ≠ 0 → exec (.spawn g a b) s = .next (waits false) ∧ exec (.spawnh g a b) s = .next (waits true)) ∧
    (∀ s2, u.ldc = 0 → u.stc = 0 → (∀ q ∈ (s.core tm.core).spawnQ, ∀ t, q.parent = some t → t ∉ s.cur.tids) →
      s1.releaseAt (s1.whoT tid) .partition = some s2 →
      (∀ t, s2.spawnOn tm.core r = some t → exec (.spawn g a b) s = .next (past t tid u)) ∧
      (∀ k x, spGet s2.cores tm.core = some x → x.spawnQ = [] → (s2.entryRow tm.ctx r.entry).isSome = true →
        x.bins.find? (fun o => o.entry = r.entry && o.ctx = tm.ctx && o.quads = false && o.kids.length < 32) = some k → k.kids.length < 31 →
        (∀ o ∈ x.bins, o.no = k.no → o = k) →
        exec (.spawn g a b) s = .next (past (s2.setCore tm.core { x with bins := x.bins.map (fun (o : Bin) =>
          if o.no = k.no then { o with kids := o.kids ++ [r], first := if o.kids.isEmpty then s.clock else o.first } else o) }) tid u)) ∧
      (s2.spawnOn tm.core r = none → exec (.spawn g a b) s = .next (waits false)) ∧
      (∀ core, s2.ownerCore (ctxFirst tm.ctx) (args % 2 ^ 64) = some core →
        let f := ctxFirst tm.ctx
        ((s2.slice f).taskq.length < 4096 * s2.psize f → exec (.spawnh g a b) s =
          .next (past (s2.modSlice f (fun (v : Slice) => { v with taskq := v.taskq ++ [{ core := core, srec := r }] })) tid u)) ∧
        (4096 * s2.psize f ≤ (s2.slice f).taskq.length → exec (.spawnh g a b) s = .next (waits true))))

/-- 03 R63-R65, R67: a bin launches BINTIME clocks after its first child; the core's oldest waiting record is routed once its thread has no access
under way, and the thread goes on; the partition's oldest task record reaches its core; the group of a launched bin has its lanes 0 to n - 1 in order,
each at its entry with its arguments, its first instruction an acquire at partition scope, m0 naming them. -/
def Obligations.spawn_events : Prop :=
  ((∀ (s : State) (core no : Nat) (b : Bin), (s.core core).bins.find? (fun b => b.no = no) = some b → b.kids ≠ [] →
     b.first + max 1 (s.ctx b.ctx).ctl.bintime.toNat ≤ s.clock →
     ∃ t, exec (.binTimerExpiry core no) s = .next t ∧ (t.core core).bins = (s.core core).bins.filter (fun o => o.no ≠ no)) ∧
   (∀ (s s1 t : State) (core : Nat) (r : SpawnRec) (rest : List SpawnRec) (tid : Nat), (s.core core).spawnQ = r :: rest → r.parent = some tid →
     r.hw = false → r.quad = false → (s.group (gidOf tid)).halt = none → Unparked s (gidOf tid) → (spGet s.threads tid).isSome = true →
     (s.thread tid).ldc = 0 → (s.thread tid).stc = 0 → s.releaseAt (s.whoT tid) .partition = some s1 →
     s1.tryBin core { r with parent := none, raster := none } = some t → Unparked t (gidOf tid) → (t.thread tid).wait = .spawn →
     (spGet t.threads tid).isSome = true →
     exec (.spawnWaitServed core) s =
       .next ((t.modCore core (fun (c : Core) => { c with spawnQ := rest })).setThread tid ((t.thread tid).leaveWait t.clock))) ∧
   (∀ (s : State) (part : Nat) (r : TaskRec) (rest : List TaskRec), (s.slice part).taskq = r :: rest →
     exec (.taskQueueDelivery part) s = .next (match (s.modSlice part (fun (v : Slice) => { v with taskq := rest })).spawnOn r.core r.srec with
       | some t => t
       | none => (s.modSlice part (fun (v : Slice) => { v with taskq := rest })).queueSpawn r.core r.srec))) ∧
  (∀ (s : State) (core no : Nat) (b : Bin) (tm : Team), (s.core core).bins.find? (fun b => b.no = no) = some b → b.kids.length ≤ 32 →
     spGet s.teams b.team = some tm → (∀ r ∈ b.kids, r.ticketKey = none) →
     let t := s.launchBin core no
     let gid := groupKey b.team tm.nextGroup
     (∃ gr, spGet t.groups gid = some gr ∧ gr.team = b.team ∧ gr.bin = some no ∧ gr.launched = b.kids.length ∧ gr.slot = b.slot ∧
       spRead 0 gr.masks 0 = BitVec.ofNat 32 (2 ^ b.kids.length - 1)) ∧
     (spGet t.teams b.team).map (·.nextGroup) = some (tm.nextGroup + 1) ∧
     ∀ (i : Nat) (r : SpawnRec), b.kids[i]? = some r → spGet t.threads (tidOf gid i) = some (startThread r.entry r.args s.clock .partition))

/-! Matrix arrays. -/

/-- 17 R273: the whole group sends its command with the sources read at issue, and passes it, or waits while the queue holds 16. -/
def Obligations.matrix_issue : Prop :=
  ∀ (i : Instr) (s : State) (gid : Nat) (m : MIssue), matrixIssue s gid i = some m → (s.threads.map (·.1)).Nodup →
    WholeGroup s gid m.guard m.uses → (∀ tid ∈ s.members, m.rows.all (fun r => (s.thread tid).clear false r) = true) → (m.cmd.fn ≠ .mmar → (s.thread (tidOf gid 0)).anyPoison m.uses = false) →
    (spGet s.cores (s.team (teamOf gid)).core).isSome = true →
    let core := (s.team (teamOf gid)).core
    ∃ t, exec i s = .next t ∧ ThreadsBecome (queuedM s core m.cmd) t (fun tid x =>
      if gidOf tid = gid then sentCommand s m (decide ((s.core core).mcmds.length < 16)) x else x)

/-- 17 R274-R280, R283: a command whose checks pass is accepted, and raises ENGC; the array takes the oldest command it may: mload binds
the B block, mrow sets MROW, mclear clears C, and mma, mmar and mpair begin, an mpair whose partner is not there alone; a command that ends writes its status and MROW in every lane's D,
takes ENGC down, puts MROW to 0 where an mma or mpair is done, and with any status but DONE skips the group's later accepted commands. -/
def Obligations.matrix_events : Prop :=
  ((∀ (s s' t : State) (core : Nat) (m x : MCmd), (s.core core).mcmds.find? (fun c => c.acc = 0) = some m →
     ((s.core core).mcmds.filter (fun c => decide (0 < c.acc))).length < 16 → (∀ e ∈ s.threadsOfGroup m.gid, e.2.engc < 262143) →
     m.batch = none → m.cancelled = false → s.groupIssues m.gid = true → s.checkM core m = (.ok x, s') → x.poisonedLanes = [] →
     s'.pushRelease ((s'.threadsOfGroup m.gid).map (·.1)) x.reads = some t → (t.core core).withdrawn = false →
     exec (.matrixCommandAccept core) s = .next (acceptedM t core x)) ∧
   (∀ (s : State) (core home : Nat) (m : MCmd), s.nextM core = some (home, m) →
     let t := (s.stamp (s.team (teamOf m.gid)).ctx core).stir (s.team (teamOf m.gid)).ctx
     (m.skip = true → exec (.matrixCommandStart core) s = .next (t.finishM home m 5)) ∧
     (m.skip = false →
       (m.fn = .mload → exec (.matrixCommandStart core) s = .next ((t.modGroup m.gid (fun (g : Group) => { g with bword := some m.aw })).finishM home m 0)) ∧
       (m.fn = .mrow → exec (.matrixCommandStart core) s =
         .next ((t.modGroup m.gid (fun (g : Group) => { g with mrow := m.aw.toNat % 2 ^ 11 })).finishM home m 0)) ∧
       (m.fn = .mclear → ∀ h, m.ch = some h → exec (.matrixCommandStart core) s = .next ((t.clearTile m h).finishM home m 0)) ∧
       (m.fn = .mma ∨ m.fn = .mmar → m.onLease = none → exec (.matrixCommandStart core) s =
         .next ((t.modCore core (fun (c : Core) => { c with held := (t.group m.gid).bword.map (fun w => (m.gid, w)) })).modM home m.id
           (fun x => { x with started := true, row := if m.fn = .mma then (t.group m.gid).mrow else 0 }))) ∧
       (m.fn = .mpair → t.waitersFor m = [] → t.waitingPartner m = none →
         (∀ u, t.partnerTeam m.gid m.ctl = some u → (t.core (t.team u).core).withdrawn = false) →
         exec (.matrixCommandStart core) s = .next (t.modM home m.id (fun x =>
           { x with started := true, row := (t.group m.gid).mrow, aloneSince := some t.clock })))))) ∧
  (∀ (s : State) (core status : Nat) (m : MCmd), (s.threads.map (·.1)).Nodup → (s.group m.gid).park = none →
     (spGet s.groups m.gid).isSome = true → (spGet s.cores core).isSome = true →
     ThreadsBecome (endedM s core m status) (s.finishM core m status) (fun tid x =>
       if gidOf tid = m.gid then endedCommand m status (if status = 0 then 0 else (s.group m.gid).mrow) x else x))

/-- 17 R276-R279, R281, R285: an array completes one row of an mma whose operands lie in local stores: the row is written in C, MROW moves
past it, and the last row ends the command; a command with no row left ends; PAIRWAIT_EXPIRY ends a side that waited alone; MMAR_RESULT_PUSH
moves the oldest held result of each lane to its queue where an entry is free. -/
def Obligations.matrix_rows : Prop :=
  (∀ (s : State) (core : Nat) (m : MCmd) (ah bh ch : Hdr) (bw : DWord), s.runningM core = some (core, m) → m.partner = none → m.aloneSince = none →
    m.batch = none → m.onLease = none → m.cancelled = false → s.groupIssues m.gid = true → (s.slice (coreSlice core)).throttled = false →
    m.fn = .mma →
    (ctlN m.ctl ≤ m.row → exec (.matrixRowComplete core) s = .next (s.finishM core m 0)) ∧
    (m.row < ctlN m.ctl → m.ah = some ah → m.bh = some bh → m.ch = some ch → (s.group m.gid).bword = some bw →
      cleanLocal s m.gid m.aw → cleanLocal s m.gid bw → (∀ off n, (s.team (teamOf m.gid)).poisonedAt 4 off n = false) →
      let t := (s.putRow core m m.row (newRow s m ah bh ch bw m.row)).stir (s.team (teamOf m.gid)).ctx
      exec (.matrixRowComplete core) s = .next (if ctlN m.ctl ≤ m.row + 1 then t.finishM core m 0 else t))) ∧
  (∀ (s : State) (core : Nat) (m : MCmd) (c : Nat), (s.core core).mcmds.find? (fun m => m.started && m.aloneSince.isSome) = some m →
    m.aloneSince = some c → c + (s.ctlFor (s.team (teamOf m.gid)).ctx m.gid).pairwait.toNat ≤ s.clock →
    exec (.pairwaitExpiry core) s = .next (s.finishM core m 1)) ∧
  (∀ (s : State) (gid k : Nat), (spGet (s.group gid).binds k).map (·.kind) = some 2 → (s.group gid).park = none →
    (spGet s.groups gid).isSome = true →
    ∃ t, exec (.mmarResultPush gid k) s = .next t ∧
      t = { s with
        threads := t.threads
        groups := spPut s.groups gid { s.group gid with results := (t.group gid).results } } ∧
      (∀ tid, gidOf tid ≠ gid → spGet t.threads tid = spGet s.threads tid) ∧
      ∀ l < 32,
        let mine (e : Nat × Nat × DWord × Scope) : Bool := decide (e.1 = 32 * k + l) && decide (e.2.1 = k)
        match (s.group gid).results.find? mine, spGet s.threads (tidOf gid l) with
        | some e, some x =>
          if x.qLen k < 8 then
            spGet t.threads (tidOf gid l) = some { x with qs := x.qs ++ [{ k := k, id := 0, val := some e.2.2.1, acq := some e.2.2.2 }] } ∧
            (t.group gid).results.filter mine = ((s.group gid).results.filter mine).drop 1
          else spGet t.threads (tidOf gid l) = some x ∧ (t.group gid).results.filter mine = (s.group gid).results.filter mine
        | _, _ => spGet t.threads (tidOf gid l) = spGet s.threads (tidOf gid l) ∧
          (t.group gid).results.filter mine = (s.group gid).results.filter mine)

/-- 07 R133; 17 R258: a row of C for int8 and int4 elements is C's old row plus the exact sums of products, each wrapped to 32 bits; for
formats summed in f32 with K at most 32 and no scales it is the old element plus the sum, each rounded once. -/
def Obligations.matrix_row_values : Prop :=
  (∀ (bh : Hdr) (flush : Bool) (aRow aSc bSc : Nat) (bRows old : List Nat) (j : Nat), bh.fmt = 7 ∨ bh.fmt = 8 → j < bh.cols →
    let w := fmtBits bh.fmt
    (rowOfC bh bh.fmt flush aRow aSc bRows bSc old)[j]? =
      some (wrap 32 (((List.range bh.rows).map (fun i => sgn w (aRow / 2 ^ (w * i) % 2 ^ w) * sgn w (bRows.getD i 0 / 2 ^ (w * j) % 2 ^ w))).sum +
        (old.getD j 0 : Nat)))) ∧
  (∀ (bh : Hdr) (fa fb : Fmt) (aFmt : Nat) (flush : Bool) (aRow aSc bSc : Nat) (bRows old : List Nat) (j : Nat), fmtShape aFmt = some fa →
    fmtShape bh.fmt = some fb → aFmt ≠ 6 → bh.smode = 0 → 0 < bh.rows → bh.rows ≤ 32 → j < bh.cols →
    let terms := (List.range bh.rows).map (fun i =>
      (fa.read flush (elemAt aRow (fmtBits aFmt) i)).mul (fb.read flush (elemAt (bRows.getD i 0) (fmtBits bh.fmt) j)))
    let sum := f32.fround .rne false flush (exactSum false terms)
    (rowOfC bh aFmt flush aRow aSc bRows bSc old)[j]? =
      some (f32.fround .rne false flush (Fv.add false (f32.read flush (old.getD j 0)) (f32.read flush sum))))

/-! Copies. -/

/-- 17 R260, R261: where a tile's elements lie: origins, mirroring, row pitch, and the order of rows. R267-R271;
13 R231: a push whose records pass their checks starts a copy, once its thread's stores to the bytes read are performed; a copy that meets nothing writes its bytes and counts in
its batch: a read copy fills its tile's rows; a copy that fails raises 0x0B in the pushing thread and arrives at no phaser. -/
def Obligations.copies : Prop :=
  ((∀ (edge : Bool) (x e : Nat), 0 < e → mirror edge x e < e ∧ (x < e → mirror edge x e = x)) ∧
   (∀ (e k : Nat), k < e → mirror true (e - 1 + k) e = e - 1 - k ∧ mirror false (e + k) e = e - 1 - k) ∧
   (∀ x : Tsr, x.pitch % 16 = 0 ∧ x.tile.headD 0 * x.nibs ≤ 2 * x.pitch ∧ 2 * x.pitch < x.tile.headD 0 * x.nibs + 32) ∧
   (∀ (l : List Nat) (r : Nat), (outer l)[r]? = if r < l.prod then some (digits l r) else none) ∧
   (∀ (x : Tsr) (t i : Nat), x.tile.length = x.ext.length → (∀ y ∈ x.tile, 0 < y) → (∀ y ∈ x.ext, 0 < y) → i < x.ext.length →
     t < ((x.ext.zip x.tile).map (fun e => ceilDiv e.1 e.2)).prod →
     (x.origin t).getD i 0 % x.tile.getD i 0 = 0 ∧ (x.origin t).getD i 0 < x.ext.getD i 0) ∧
   (∀ (x : Tsr) (t : Nat), x.tile.length = x.ext.length → 0 < x.ext.length →
     x.rowNibs false t = (outer (x.tile.drop 1)).map (fun js => (List.range (x.tile.headD 0)).map (fun j => some (elemNib x t (j :: js)))))) ∧
  ((∀ (s s' s'' : State) (core chan : Nat) (p : Push) (t : Tmpl) (x : Tsr) (u sp off : Nat),
     let tidx := p.val.toNat / 2 ^ 32
     let team := teamOf (gidOf p.tid)
     (s.core core).pushes.find? (fun p => p.chan = chan) = some p → (s.core core).copies.length < (if (s.core core).wide then 512 else 256) →
     p.batch = none → p.filled = true → p.cancelled = false →
     s.namedBy p = (.ok t x, s') → s'.tileAt team t x (p.val.toNat / 2 ^ 10 % 2 ^ 22) = .ok (.loc u sp off) → t.gate = 0 →
     tensorFits s' team t x tidx → s'.pushRelease [p.tid] (if t.dir then tileFeet t x u sp off else tensorFeet team t x tidx) = some s'' →
     let r := copyOutside (s''.takeEntry p) p.tid t x tidx
     exec (.copyAccept core chan) s = .next ((({ r with nextId := r.nextId + 1 } : State).modCore core (fun (c : Core) =>
       { c with copies := c.copies ++ [startedCopy r p t x u sp off] })).stir (s.ctxOfT p.tid))) ∧
   (∀ (s : State) (id core : Nat) (y : Copy), s.findCopy id = some (core, y) → s.copyGoes core y = true → y.cancelled = false →
     nothing (s.copyTry core y).1 → exec (.copyComplete id) s = .next (s.copyTry core y).2) ∧
   (∀ (s s' : State) (core : Nat) (y : Copy) (u sp off : Nat) (rows : List (List Nat)), y.tmpl.phv = false → y.tmpl.fe = false → y.tmpl.dir = false →
     s.tileAt (teamOf (gidOf y.tid)) y.tmpl y.tsr y.doff = .ok (.loc u sp off) → s.readTensor y {} = (rows, {}, s') →
     s.copyTry core y = ({}, (s'.modTeam u (fun k => putRows k sp off y.tsr rows)).endCopy core y)) ∧
   (∀ (s : State) (id core : Nat) (y : Copy), s.findCopy id = some (core, y) → s.copyGoes core y = true →
     (s.copyFails core y = some .cancelled → exec (.copyFailure id .cancelled) s = .next (s.failCopy core y 1)) ∧
     (s.copyFails core y = some .poison → exec (.copyFailure id .poison) s = .next (
       let p := s.copyPoison core y
       s.consumeAs 0x0B y.tid p.1 p.2.1 p.2.2 (fun s => s.failCopy core y 2))) ∧
     (s.copyFails core y = some .gate → exec (.copyFailure id .gate) s = .next (s.failCopy core y 3))))

/-- 17 R264-R266: tmpl.inst, tmpl.valid and tmpl.drop send a command once for the group; accepted, they write the entry's image and its
valid bit, give the number of tiles, and clear the valid bit. -/
def Obligations.templates : Prop :=
  (∀ (g : Guard) (l : Fin 16) (d : Fin 112) (a : Operand) (s : State) (gid lead i va : Nat) (u : Thread),
    let q := tmplUni g [src (.v d), src a] [(.v d, 1), (a, 2)]
    let s' := s.setThread lead u
    s.members ≠ [] → (∀ t ∈ s.members, gidOf t = gid) → UniReady s (fun _ => q) → leaderOf s g gid = some lead →
    q.led s gid lead = some ([i, va], u) → (spGet s.cores (s.team (teamOf gid)).core).isSome = true → i < tableCount s gid → va % 32 = 0 → va < 2 ^ 50 →
    (∀ p ∈ s'.tmplPages lead 0 (BitVec.ofNat 32 i) va, s'.xlate lead p.1 p.2 ≠ .miss) →
    (∀ p ∈ (s'.tmplPages lead 0 (BitVec.ofNat 32 i) va).take 2, ∀ c, s'.xlate lead p.1 p.2 ≠ .refused c) →
    ∃ t, exec (.tmplInst g l (.v d) a) s = .next t ∧ TemplateSent s t g gid lead u l none 0 (BitVec.ofNat 32 i) va) ∧
  (∀ (g : Guard) (l : Fin 16) (d : Fin 112) (a : Operand) (s : State) (gid lead va : Nat) (u : Thread),
    let q := tmplUni g [src a, dst (.v d)] [(a, 2)]
    let s' := s.setThread lead u
    s.members ≠ [] → (∀ t ∈ s.members, gidOf t = gid) → UniReady s (fun _ => q) → leaderOf s g gid = some lead →
    q.led s gid lead = some ([va], u) → (spGet s.cores (s.team (teamOf gid)).core).isSome = true → va % 64 = 0 → va < 2 ^ 50 →
    s'.xlate lead va .read ≠ .miss → (∀ c, s'.xlate lead va .read ≠ .refused c) →
    ∃ t, exec (.tmplValid g l (.v d) a) s = .next t ∧ TemplateSent s t g gid lead u l (some d.val) 1 0 va) ∧
  (∀ (g : Guard) (l : Fin 16) (d : Fin 112) (s : State) (gid lead i : Nat) (u : Thread),
    let q := tmplUni g [src (.v d)] [(.v d, 1)]
    s.members ≠ [] → (∀ t ∈ s.members, gidOf t = gid) → UniReady s (fun _ => q) → leaderOf s g gid = some lead →
    q.led s gid lead = some ([i], u) → (spGet s.cores (s.team (teamOf gid)).core).isSome = true → i < tableCount s gid →
    ∃ t, exec (.tmplDrop g l (.v d)) s = .next t ∧ TemplateSent s t g gid lead u l none 2 (BitVec.ofNat 32 i) 0) ∧
  (∀ (s : State) (core : Nat) (c : TCmd) (rest : List TCmd), (s.core core).tcmds = c :: rest → c.batch = none → c.cancelled = false →
    let tid := c.tids.headD 0
    let ctx := s.ctxOfT tid
    (c.fn = 2 → exec (.tmplAccept core) s =
      .next (((s.stir ctx).modCtx ctx (fun x => { x with tmplValid := x.tmplValid.filter (· ≠ c.idx.toNat) })).endT core c)) ∧
    (∀ s0, s.ownStores c.tids c.va (if c.fn = 1 then 64 else 32) = some s0 →
      (c.fn = 1 → ∀ v m s', (s0.stir ctx).jobRead (s0.jobOf tid true c.pc) c.va 64 {} = (v, m, s') → nothing m →
        (∀ r, firstReason (tsrReasons (tsrOf v) false false) = some r →
          exec (.tmplAccept core) s = .next (s'.failT core c { code := 0x08, aux := BitVec.ofNat 32 r })) ∧
        (firstReason (tsrReasons (tsrOf v) false false) = none → exec (.tmplAccept core) s =
          .next ((s'.eachOf c.gid (fun t => t.deliver c.op (.regs c.dreg 1) [BitVec.ofNat 32 (tsrOf v).tiles])).endT core c))) ∧
      (c.fn = 0 → ∀ img m s1 t x s2 pa leaf m' s3, (s0.stir ctx).jobRead (s0.jobOf tid true c.pc) c.va 32 {} = (img, m, s1) → nothing m →
        s1.checkCopy tid c.pc img false = (.ok t x, s2) →
        s2.jobPage ctx (cpyBase (s2.ctlFor ctx c.gid).cpytab + 32 * c.idx.toNat) .write (fun _ => true) c.pc {} = (some (pa, leaf), m', s3) →
        exec (.tmplAccept core) s = .next (((s3.homePut (ctxFirst ctx) ctx (leafComp leaf % 8) pa 32 img false).modCtx ctx (fun x =>
          { x with tmplValid := insertNew c.idx.toNat x.tmplValid })).endT core c))))

/-! Rendering. -/

/-- 19 R296-R300: a texture load of one lane whose descriptor, map and texels are at hand: the words of its data and its status are on their
way, and the feedback entries are due. -/
def Obligations.texture_loads : Prop :=
  ∀ (smp : Bool) (g : Guard) (l : Fin 16) (d : Operand) (a : Fin 112) (w : TexW) (nofb : Bool) (s s1 s2 s4 : State) (tid : Nat) (ds : Desc)
      (dest : Nat → Dest) (u : Thread) (p : TexPlan) (hs : List Hit) (ts : List Nat),
    let n := texWords w
    let t := s1.thread tid
    let q := wordsAt t a.val 4
    let s3 := touchedAll s2 tid hs
    Alone s tid g (wideUse (.v a) 4 ++ [dst d]) → (s.thread tid).clear false a.val = true → settled t (memdefAcc 0 0) →
    s.resNamed tid ((s.thread tid).reg a.val) = (.ok ds, s1) → t.pred g.val = true → (g.val ≠ 0 → t.clear true g.val = true) →
    queuesReady t (wideUse (.v a) 4 ++ [dst d]) = true → sound t a.val 4 = true →
    landing s tid t d (n + 1) = some (dest, u) → noChannel s4 tid u →
    s1.texPlan tid ds smp q = (.ok p, s2) → Reached s2 tid ((ds.reads smp q p).map (fun va => (va, .unit))) hs → s2.laneClear tid hs = true →
    s3.readTexels tid (texBytes (ds.fmt p.ach)) hs (ds.reads smp q p) = (ts, none, s4) →
    let r := loadSent s4 tid u l.val (knownLoad s4 tid dest (ds.data smp q p n ts ++ [p.status]) true s2.nextId)
    exec (if smp then .smp g l d (.v a) w nofb else .tld g l d (.v a) w nofb) s =
      .next { r with feeds := r.feeds ++ feedsDue s4 tid q p nofb }

/-- 19 R289, R297, R298: texel addresses, address modes and the status word. R314, R316, R317: the hit children of a node are valid ones,
each once and near to far; reserved bits set give no hit and their flag; a triangle record with them set misses. R306, R307: a pixel is covered on
the same side of its edges whichever way round the vertices run, and the quads of a triangle are those inside the viewport with a covered pixel,
in rising order. -/
def Obligations.render_values : Prop :=
  ((∀ (mode : Nat) (i : Int) (e : Nat), 0 < e → wrapMode mode i e < e ∧ (0 ≤ i → i < e → wrapMode mode i e = i.toNat) ∧
     (mode = 1 → wrapMode mode (i + e) e = wrapMode mode i e) ∧ (2 ≤ mode → wrapMode mode (-1 - i) e = wrapMode mode i e)) ∧
   (∀ (d : Desc) (l x y : Nat), d.fmt l < 8 → d.base ≤ d.texel l x y ∧
     (d.texel l x y - d.base) / 65536 = d.pageOf l x y ∧ (d.texel l x y - d.base) % 65536 =
       (y % pageH (d.fmt l) * pageW (d.fmt l) + x % pageW (d.fmt l)) * texBytes (d.fmt l)) ∧
   (∀ p : TexPlan, p.want < 16 → p.ach < 16 →
     let v := p.status.toNat
     v % 16 = p.ach ∧ v / 2 ^ 4 % 16 = p.want ∧ (v / 2 ^ 8 % 2 = 1 ↔ p.zero = true ∨ p.ach ≠ p.want) ∧ (v / 2 ^ 11 % 2 = 1 ↔ p.zero = true) ∧
     (v / 2 ^ 12 % 2 = 1 ↔ p.oor = true) ∧ v < 2 ^ 13 ∧ v / 2 ^ 9 % 4 = 0)) ∧
  ((∀ (box : Bool) (q : List Word) (node : Nat),
     let r := nodeTest box q node
     r.1.length = 5 ∧ r.2.Nodup ∧ (∀ c ∈ r.2, c < 4 ∧ node / 2 ^ (960 + c) % 2 = 1) ∧
     (∀ c < 4, ((r.1.getD 4 0).toNat / 2 ^ c % 2 = 1 ↔ c ∈ r.2)) ∧ ((r.1.getD 4 0).toNat / 2 ^ 12 % 8 = r.2.length) ∧
     (∀ i < r.2.length, (r.1.getD 4 0).toNat / 2 ^ (4 + 2 * i) % 4 = r.2.getD i 0) ∧
     (node / 2 ^ 968 % 2 ^ 56 ≠ 0 → r = ([0x7F800000, 0x7F800000, 0x7F800000, 0x7F800000, 0x8000], []))) ∧
   (∀ (cullb : Bool) (q : List Word) (tri : Nat),
     (triTest cullb q tri).length = 5 ∧
     (tri / 2 ^ 320 % 2 ^ 64 ≠ 0 → triTest cullb q tri = [0x7F800000, 0, 0, 0xFFFFFFFF, 4]) ∧
     (((triTest cullb q tri).getD 4 0).toNat % 2 = 1 → (triTest cullb q tri).getD 3 0 = BitVec.ofNat 32 (tri / 2 ^ 288)))) ∧
  ((∀ (x0 y0 x1 y1 x2 y2 : Int) (px py : Nat),
     let s := (x1 - x0) * (y2 - y0) - (x2 - x0) * (y1 - y0)
     s ≠ 0 → Tri.covers ⟨[x0, x2, x1], [y0, y2, y1], -s⟩ px py = Tri.covers ⟨[x0, x1, x2], [y0, y1, y2], s⟩ px py) ∧
   (∀ (t : Tri) (w h : Nat), t.xs.length = 3 → t.ys.length = 3 → t.s = (t.x 1 - t.x 0) * (t.y 2 - t.y 0) - (t.x 2 - t.x 0) * (t.y 1 - t.y 0) →
     t.s ≠ 0 → ((t.quads w h).map (fun q => (q.2, q.1))).Pairwise (fun a b => a.1 < b.1 ∨ a.1 = b.1 ∧ a.2 < b.2) ∧
     ∀ (px py : Nat), px < w → py < h → t.covers px py = true → (px / 2 * 2, py / 2 * 2) ∈ t.quads w h))

/-- 19 R314-R317: a node or triangle test of one lane: the results are on their way to D to D+4, and a spilling test has written the hit
children but the nearest to its stack in SPAD and sends the new top to D+5. -/
def Obligations.ray_tests : Prop :=
  (∀ (g : Guard) (l : Fin 16) (d a : Fin 112) (box spill : Bool) (s s' : State) (tid node : Nat) (hs : List Hit),
    let t := s.thread tid
    let va := rayAddr t d 128
    let s0 := touchedAll s tid hs
    let r := nodeTest box (wordsAt t a.val 8) node
    let top := t.reg (d.val + 5)
    let team := teamOf (gidOf tid)
    Alone s tid g (wideUse (.v a) 8 ++ wideUse (.v d) 8) → settled t (memdefAcc 0 0) → rayReady t d a spill → va % 128 = 0 → va + 128 ≤ 2 ^ 50 →
    (spill = true → top.toNat % 4 = 0) → Reached s tid (recPages (some va) 128) hs → s.laneClear tid hs = true → noChannel s' tid t →
    s0.readRecord tid va 128 hs = (node, none, s') →
    (spill = false → exec (.rtbox g l (.v d) (.v a) box spill) s =
      .next (loadSent s' tid t l.val (knownLoad s' tid (fun _ => .regs d.val 5) r.1 false))) ∧
    (spill = true → r.2.length < 2 → exec (.rtbox g l (.v d) (.v a) box spill) s =
      .next (loadSent s' tid t l.val (knownLoad s' tid (fun _ => .regs d.val 6) (r.1 ++ [top]) false))) ∧
    (spill = true → 2 ≤ r.2.length → top.toNat + 4 * (r.2.length - 1) ≤ (s'.team team).region 1 → NoneBefore s' tid →
      (spGet s'.teams team).isSome = true →
      let s'' := teamSet s' team (fun k => putCodes k top.toNat (spillCodes t d r.2))
      exec (.rtbox g l (.v d) (.v a) box spill) s = .next (loadSent s'' tid t l.val
        (knownLoad s'' tid (fun _ => .regs d.val 6) (r.1 ++ [top + BitVec.ofNat 32 (4 * (r.2.length - 1))]) false)))) ∧
  (∀ (g : Guard) (l : Fin 16) (d a : Fin 112) (cullb : Bool) (s s' : State) (tid tri : Nat) (hs : List Hit),
    let t := s.thread tid
    let va := rayAddr t d 48
    let s0 := touchedAll s tid hs
    Alone s tid g (wideUse (.v a) 8 ++ wideUse (.v d) 8) → settled t (memdefAcc 0 0) → rayReady t d a false → va % 16 = 0 → va + 48 ≤ 2 ^ 50 →
    Reached s tid (recPages (some va) 48) hs → s.laneClear tid hs = true → noChannel s' tid t → s0.readRecord tid va 48 hs = (tri, none, s') →
    exec (.rttri g l (.v d) (.v a) cullb) s =
      .next (loadSent s' tid t l.val (knownLoad s' tid (fun _ => .regs d.val 5) (triTest cullb (wordsAt t a.val 8) tri) false)))

/-- 19 R292-R295: resmap.set and resmap.clear send one command for the group, checked; resmap.drain passes where RESC is 0; accepted, a
command marks its pages, drops stale copies, forgets the feedback filters, and a clear raises RESC until earlier texture loads are done. -/
def Obligations.residency : Prop :=
  (∀ (isSet : Bool) (g : Guard) (l : Fin 16) (d a : Operand) (s s1 : State) (gid lead sel r first count : Nat) (u : Thread) (ds : Desc)
      (hs : List Hit),
    let q : UniOp := { guard := g, uses := [src d, src a], srcs := [(d, 1), (a, 1)] }
    let act := activeOf s1 g gid
    let f := ctxFirst (s1.ctxOfT lead)
    let s2 := s1.setThread lead u
    s.members ≠ [] → (∀ t ∈ s.members, gidOf t = gid) → UniReady s (fun _ => q) → leaderOf s g gid = some lead →
    (s.thread lead).handle (s.laneEnv gid).nregs a 0 = some (BitVec.ofNat 32 r) → s.resNamed lead (BitVec.ofNat 32 r) false = (.ok ds, s1) →
    UniReady s1 (fun _ => q) → q.led s1 gid lead = some ([sel, r], u) →
    ds.select (BitVec.ofNat 32 sel) (!isSet) = .ok (first, count) → (spGet s1.slices f).isSome = true →
    Reached s2 lead (mapPages ds.rmap first count) hs →
    (isSet = false → ∀ t ∈ act,
      (s2.thread t).resc + ((s2.slice f).rescmds.filter (fun r => !r.set && r.tids.contains t)).length < 262143) →
    ∃ t, exec (if isSet then .resmapSet g l d a else .resmapClear g l d a) s = .next t ∧
      ThreadsBecome (withRes (outsideAll s1 act) f
        { set := isSet, gid := gid, tids := act, pc := s1.cur.pc, op := s1.nextId, rmap := ds.rmap, base := ds.base, first := first, count := count,
          ctx := s1.ctxOfT lead }) t
        (lanesSent s1 gid lead u l none)) ∧
  (∀ (g : Guard) (l : Fin 16) (s : State), UniReady s (fun _ => { guard := g, uses := [] }) →
    (∀ t ∈ s.members, (s.thread t).pred g.val = true → (s.thread t).resc = 0) →
    exec (.resmapDrain g l) s = .next (passed (outsideAll s ((groupsIn s.members).flatMap (activeOf s g))))) ∧
  (∀ (s : State) (part : Nat) (r : ResCmd), s.resmapNext part = some r →
    let s1 := (s.modSlice part (fun (v : Slice) => { v with rescmds := v.rescmds.filter (fun q => q.op ≠ r.op) })).markPages r
    let s2 := (((if r.set then s1.dropStale r else s1).forgetFeeds r.ctx).stir r.ctx).eachOf r.gid (fun t =>
      { t with look := t.look.filter (fun e => e.1 ≠ r.op) })
    (r.set = true → exec (.resmapAccept part) s = .next s2) ∧
    (r.set = false →
      let s3 := s2.eachThread r.tids (fun t => { t with resc := t.resc + 1 })
      exec (.resmapAccept part) s = .next (s3.modCtx r.ctx (fun x => { x with drains := x.drains ++ [{ clock := s3.clock, tids := r.tids }] }))))

/-- 19 R311-R313: rosin enters the thread's ticket once every earlier ticket on its key is released, as an acquire at partition scope; rosout
releases it after a release at partition scope; a thread without a ticket in that state passes. -/
def Obligations.ordered_sections : Prop :=
  ∀ (g : Guard) (s : State) (tid : Nat),
    let t := s.thread tid
    let id := t.ticket.getD 0
    Alone s tid g [] → noChannel s tid t →
    (s.ticketState tid ≠ 0 → exec (.rosin g) s = .next (past s tid t)) ∧
    (s.ticketState tid = 0 → s.ticketFirst id = true → exec (.rosin g) s = .next (past ((s.setTicket id 1).acquireAt (s.whoT tid) .partition) tid t)) ∧
    (s.ticketState tid ≠ 1 → exec (.rosout g) s = .next (past s tid t)) ∧
    (∀ s', s.ticketState tid = 1 → t.ldc = 0 → t.stc = 0 → s.releaseAt (s.whoT tid) .partition = some s' →
      exec (.rosout g) s = .next (past (s'.setTicket id 2) tid t))

/-- 19 R304-R306, R309: a group sends a raster command; accepted with an acceptable state it counts in ENGC; the rasteriser then takes the
command's triangles in order: an absent or culled one is passed, a large one gives its quads, a small one a thread, and with none left the
command ends. -/
def Obligations.rasterisation : Prop :=
  (∀ (g : Guard) (l : Fin 16) (d a : Operand) (s s' : State) (gid : Nat),
    let i := coreSlice (s.team (teamOf gid)).core
    let r := rasterCmd s gid d a
    let here := putThreads s s.members (fun tid => arrived s .collective (s.thread tid))
    (s.threads.map (·.1)).Nodup → WholeGroup s gid g (wideUse d 2 ++ wideUse a 2) → (spGet s'.slices i).isSome = true →
    (∀ t ∈ s.members, (s.thread t).quiet = true ∧ (s.thread t).anyPoison (wideUse d 2 ++ wideUse a 2) = false) →
    here.rastCause (s.team (teamOf gid)).ctx r.stateVa r.tris = none → here.releaseAt (here.whoT (tidOf gid 0)) .partition = some s' →
    ∃ t, exec (.rastTri g l d a) s = .next t ∧ ThreadsBecome (withRaster (outsideAll s' s.members) i { r with id := s'.nextId }) t (fun tid x =>
      if gidOf tid = gid then sentRaster s' l (decide ((s'.slice i).raster.length < 256)) x else x)) ∧
  (∀ (s s1 s2 : State) (i v : Nat) (r x : RCmd) (m : Met), (s.slice i).raster.find? (fun c => !c.accepted) = some r →
    ((s.slice i).raster.filter (·.accepted)).length < 256 → (∀ e ∈ s.threadsOfGroup r.gid, e.2.engc < 262143) → r.batch = none →
    s.groupIssues r.gid = true → s.mayBegin r.core (s.team (teamOf r.gid)).ctx s.nextId (r.foot.take 1) [] = true →
    s.pushRelease ((s.threadsOfGroup r.gid).map (·.1)) r.foot = some s1 →
    s1.jobRead (s1.rasterJob r) r.stateVa 64 {} = (v, m, s2) → nothing m → s2.rasterState r v = .ok x →
    let s3 : State := { s2 with nextId := s2.nextId + 1 }
    exec (.rastAccept i) s = .next (((s3.modR i r.id (fun _ => { x with acc := s2.nextId, reads := r.foot })).eachOf r.gid (fun t =>
      { t.passCommand r.id s2.clock with engc := (t.passCommand r.id s2.clock).engc + 1 })).stir (s2.team (teamOf r.gid)).ctx)) ∧
  (∀ (s : State) (i : Nat) (r : RCmd), (s.slice i).raster.find? (·.accepted) = some r → r.batch = none →
    let t := s.team (teamOf r.gid)
    s.rasterHeld r.core r.id = false → s.mayBegin r.core t.ctx r.acc r.reads [] = true →
    (∀ q rest s', r.quads = q :: rest → s.placeQuad i r q = some s' →
      exec (.rastTriangle i) s = .next ((s'.modR i r.id (fun x => { x with quads := rest })).stir t.ctx)) ∧
    (r.quads = [] →
      let after (s : State) (qs : List (List SpawnRec)) : State :=
        (s.modR i r.id (fun x => { x with nextTri := x.nextTri + 1, quads := qs })).stir t.ctx
      (r.tris.length ≤ r.nextTri → exec (.rastTriangle i) s = .next ((s.endR i r).stir t.ctx)) ∧
      (r.tris[r.nextTri]? = some 0 → exec (.rastTriangle i) s = .next (after s [])) ∧
      (∀ va v m s1, r.tris[r.nextTri]? = some va → va ≠ 0 → s.jobRead (s.rasterJob r) va 48 {} = (v, m, s1) → nothing m →
        let id := BitVec.ofNat 32 (v / 2 ^ 288)
        (triOf v = none → exec (.rastTriangle i) s = .next (after s1 [])) ∧
        (∀ tri, triOf v = some tri →
          (tri.classify r.cull r.width r.height r.thr = .culled → exec (.rastTriangle i) s = .next (after s1 [])) ∧
          (tri.classify r.cull r.width r.height r.thr = .large →
            exec (.rastTriangle i) s = .next (after s1 ((tri.quads r.width r.height).map (fun q => r.quad tri id t.grid t.ctx q)))) ∧
          (tri.classify r.cull r.width r.height r.thr = .small →
            exec (.rastTriangle i) s = .next (after s1 [[r.softRec va id t.grid t.ctx]]))))))

/-- 19 R319-R323: fout sends its command; accepted, it writes D by the state of its stream, and a tile or a frame's end joins the stream; a
tile read or failed ends its job; a frame with all tiles read leaves its bitstream and entry; ENC_CFG starts and ends a stream. -/
def Obligations.frame_out : Prop :=
  (∀ (fn : Bool) (g : Guard) (l : Fin 16) (d a : Fin 112) (s : State) (gid lead : Nat),
    let us := wideUse (.v a) 4 ++ [dst (.v d)]
    let tm := s.team (teamOf gid)
    let i := coreSlice tm.core
    let x := s.thread lead
    let base := regsVal x a.val 2
    let w := (x.reg (a.val + 3)).toNat
    let c : FCmd := { fn := if fn then 1 else 0, gid := gid, tids := activeOf s g gid, pc := s.cur.pc, stream := w / 2 ^ 24 % 16,
                      frame := (x.reg (a.val + 2)).toNat, tile := w % 2 ^ 24, base := if fn then 0 else base, dreg := d.val, op := s.nextId }
    s.members ≠ [] → (∀ t ∈ s.members, gidOf t = gid) → UniReady s (fun _ => { guard := g, uses := us }) → leaderOf s g gid = some lead →
    s.foutBad i tm.ctx w = none → sound x (a.val + 2) 2 = true → (fn = false → sound x a.val 2 = true ∧ base % 256 = 0 ∧ base < 2 ^ 50) →
    (spGet s.slices i).isSome = true →
    ∃ t, exec (if fn then .foutEnd g l (.v d) (.v a) else .foutTile g l (.v d) (.v a)) s = .next t ∧
      ThreadsBecome (withFout s i c) t (lanesSent s gid lead x l (some d.val))) ∧
  (∀ (s s1 : State) (i : Nat) (c : FCmd) (rest : List FCmd), (s.slice i).fcmds = c :: rest →
    (∀ t ∈ c.tids, ((s.realThread t).getD {}).engc < 262143) → s.groupIssues c.gid = true →
    let r := foutResult (s.stream i c.stream) (s.encGeo i c.stream).count c.fn c.frame c.tile
    let feet := s.foutFoot i c
    let answered (s : State) : State := ((s.modSlice i (fun (v : Slice) => { v with fcmds := rest })).eachOf c.gid (fun t =>
      t.deliver c.op (.regs c.dreg 1) [BitVec.ofNat 32 r.1])).stir (s.team (teamOf c.gid)).ctx
    let s2 := s1.eachThread c.tids (fun t => { t with engc := t.engc + 1 })
    (r.1 ≠ 0 → exec (.foutAccept i) s = .next (answered s)) ∧
    (r.1 = 0 → s.encReg i c.stream encCfg % 2 = 1 → s.pushRelease c.tids feet = some s1 →
      (c.fn = 0 → exec (.foutAccept i) s = .next (answered (({ s2 with nextId := s2.nextId + 1 } : State).setStream i c.stream { r.2 with
        tiles := r.2.tiles ++ [{ idx := c.tile, base := c.base, tids := c.tids, frame := c.frame, read := false, missing := false, pc := c.pc,
                                 gid := c.gid, acc := s2.nextId, reads := feet }] }))) ∧
      (c.fn ≠ 0 → ∃ e, exec (.foutAccept i) s =
        .next (answered ({ s2 with freeCtr := s2.freeCtr + 1 }.setStream i c.stream { r.2 with ended := true, frames := r.2.frames ++ [e] })) ∧
        e.frame = c.frame ∧ e.tids = c.tids))) ∧
  (∀ (x : Stream) (count fn frame tile : Nat),
    let r := foutResult x count fn frame tile
    (frame < x.cur → r = (1, x)) ∧ (x.cur < frame → x.ended = false → r = (4, x)) ∧
    (x.cur ≤ frame → (x.cur < frame → x.ended = true) → fn = 0 → count ≤ tile → r = (2, x)) ∧
    (¬ (fn = 0 ∧ count ≤ tile) → frame = x.cur → r = (if x.ended then 3 else 0, x)) ∧
    (¬ (fn = 0 ∧ count ≤ tile) → x.cur < frame → x.ended = true → r = (0, { x with cur := frame, ended := false }))) ∧
  (∀ (s s1 : State) (i k : Nat) (t : Tile) (ls : Sp (BitVec 512)) (m : Met), (s.stream i k).tiles.find? (fun t => !t.read) = some t → t.batch = none →
    let x := s.team (teamOf t.gid)
    s.mayBegin x.core x.ctx t.acc t.reads [] = true → s.jobLines (s.tileJob t) ((s.encGeo i k).ranges t.base t.idx) {} = (ls, m, s1) →
    m.faults = [] →
    (m.fail = none → exec (.tileReadComplete i k none) s = .next ((s1.endTile i k t false).stir x.ctx)) ∧
    (∀ f, m.fail = some f → exec (.tileReadComplete i k (some f)) s = .next ((s1.failTile i k t f m.failAt).stir x.ctx))) ∧
  (∀ (s : State) (i k : Nat) (f : EFrame) (rest : List EFrame), (s.stream i k).frames = f :: rest → (s.stream i k).frameRead f.frame = true →
    let bytes := Config.frameBytes f.draw % 2 ^ 32
    (s.ringUsed i k).1 + bytes + 16 ≤ (s.ringUsed i k).2 →
    exec (.frameComplete i k) s = .next (((((s.ringPut i k f bytes).ringEntry i k f bytes).modStream i k (fun x =>
      { x with
        frames := rest
        tiles := x.tiles.filter (fun t => t.frame ≠ f.frame) })).engcFall f.tids .partition).stir f.ctx)) ∧
  (∀ (fn : Func) (s : State) (i k : Nat) (v : Word), s.reaches fn i = true → k < 16 →
    let old := s.encReg i k encCfg
    (old % 2 = 1 → v.toNat % 2 = 1 → exec (.encCfgWrite fn i k v) s = .next (s.status i ctlBadState)) ∧
    (old % 2 = 0 → v.toNat % 2 = 1 → s.encGood i k v.toNat = false → exec (.encCfgWrite fn i k v) s = .next (s.status i ctlConfigInvalid)) ∧
    (v.toNat / 2 ^ 26 = 0 → v.toNat / 2 % 4 ≠ 3 → v.toNat / 16 % 4 ≠ 3 →
      let s1 := s.setEnc i k encCfg (encCfgValue old v.toNat)
      (old % 2 = 1 → v.toNat % 2 = 0 → exec (.encCfgWrite fn i k v) s = .next (s1.endStream i k)) ∧
      (old % 2 = 0 → v.toNat % 2 = 1 → s.encGood i k v.toNat = true → exec (.encCfgWrite fn i k v) s = .next
        (((((s1.setEnc i k encCrhead 0).setEnc i k encCrtail 0).setEnc i k encBshead 0).setEnc i k encBstail 0).setStream i k {}))))

/-! Events of the memory system. -/

/-- 05 R100; 11 R191; 13 R205, R215, R217, R219: a load that nothing older holds back binds its bytes, writes its destination, and acquires;
a store that nothing older holds back is performed and counted; what a load of a local store reads and what a store there writes. -/
def Obligations.access_events : Prop :=
  (∀ (s s1 : State) (l0 l l' : Load) (ws : List Word),
    let s0 := s.settleFeeds l0
    s.loads.find? (fun x => x.id = l.id) = some l0 → s0.loads.find? (fun x => x.id = l.id) = some l → l.promo = [] → l.cause = none →
    Oldest s0 l.id l.tid l.set true l.span → s0.loadOpen l = true → s0.bindLoad l = (l', s1) →
    l'.kind = .words ws none → l'.id = l.id ∧ l'.tid = l.tid ∧ l'.acq = l.acq ∧ l'.cause = none →
    exec (.loadComplete l.id) s =
      .next (((acquired (pushFilled (delivered s1 l' ws) l' ws) l').settleThread l.tid).settleDrains (s.ctxOfT l0.tid))) ∧
  (∀ (s : State) (l : Load) (sp : Space) (t va off n : Nat) (signed : Bool), l.kind = .bytes sp t va off n signed 0 0 false → isGlb sp = false →
    let k := if sp = .cspad then 1 else spaceNum sp
    (s.team t).poisonedAt k off n = false → n = 1 ∨ n = 2 ∨ n = 4 ∨ n = 8 ∨ n = 16 ∨ n = 32 →
    s.bindLoad l = ({ l with kind := .words (extended n signed ((s.team t).readLocal k off n)) none }, s)) ∧
  (∀ (s s1 : State) (x : Store), s.stores.find? (fun y => y.id = x.id) = some x → Oldest s x.id x.tid x.set false x.span →
    s.performStore x = some s1 → exec (.storePerformed x.id) s = .next ((counted1 s1 x).settleThread x.tid)) ∧
  (∀ (s : State) (x : Store), x.acted = false → isGlb x.space = false → x.setFull = false → (spGet s.teams x.team).isSome = true →
    s.performStore x = some (teamSet s x.team (fun t => t.writeLocal (if x.space = .cspad then 1 else spaceNum x.space) x.pa x.size x.data)))

/-- Memory (log 3) and the local stores (13 R200): every operation keeps the canonical form; a read of the bytes written gives the value; other
bytes stay. -/
def Obligations.memory_laws : Prop :=
  ∀ m : Memory, m.wf = true →
    (∀ a b, Memory.wf (m.set a b) = true ∧ (m.set a b).get a = b ∧ ∀ q, q ≠ a → (m.set a b).get q = m.get q) ∧
    (∀ a n v, Memory.wf (m.write a n v) = true ∧ (m.write a n v).read a n = v % 2 ^ (8 * n) ∧
      ∀ q, q < a ∨ a + n ≤ q → (m.write a n v).get q = m.get q) ∧
    (∀ (la : Nat) (d : BitVec 512) (k : BitVec 64), Memory.wf (m.setLine la d k) = true ∧
      (∀ i < 64, (m.setLine la d k).get (64 * la + i) = if k.getLsbD i then BitVec.ofNat 8 (d.toNat / 2 ^ (8 * i)) else m.get (64 * la + i)) ∧
      ∀ q, q / 64 ≠ la → (m.setLine la d k).get q = m.get q) ∧
    (∀ a n, m.read a n = ((List.range n).map (fun i => (m.get (a + i)).toNat * 2 ^ (8 * i))).sum) ∧
    (∀ (t : Team) (k off n v : Nat), t.bytes = m → (t.writeLocal k off n v).readLocal k off n = v % 2 ^ (8 * n) ∧
      ∀ a, a < off ∨ off + n ≤ a → (t.writeLocal k off n v).readLocal k a 1 = t.readLocal k a 1)

/-- 23 R350, R353, R359-R361: a walk that ends in a translation which the access may use installs it and its threads go on; one that faults, or
meets a cause, is looked at for each group, which parks or traps; the end of run-ahead restores the checkpoint and sends the pages gathered. -/
def Obligations.translation_events : Prop :=
  (∀ (s s1 : State) (w : Walk), s.walks.find? (fun x => decide (x.id = w.id) && x.fault.isNone && x.cause.isNone) = some w →
    let k := AccK.ofNum w.acc
    let gids := groupsIn (w.reqs.map (·.1))
    let caused (c : Cause) (pa : Nat) : State := gids.foldl (fun t g => t.resolveGroup g) (causedWalk s1 w.id (c, pa))
    (∀ e, s.walk w.ctx w.va = (.done e, s1) → s1.refusal w.ctx w.va e.leaf k = none →
      (∀ g ∈ gids, ∀ x ∈ s1.walks, x.id ≠ w.id → x.reqs.any (fun r => gidOf r.1 = g) = false) →
      let m := s1.markLeaf e k.writes
      exec (.tableWalk w.id) s = .next (gids.foldl translatedGroup (withoutWalk (m.2.installTlb w.core m.1) w.id))) ∧
    (∀ e c, s.walk w.ctx w.va = (.done e, s1) → s1.refusal w.ctx w.va e.leaf k = some c → exec (.tableWalk w.id) s = .next (caused c 0)) ∧
    (∀ kind, s.walk w.ctx w.va = (.fault kind, s1) →
      exec (.tableWalk w.id) s = .next (gids.foldl (fun t g => t.resolveGroup g) (faultedWalk s1 w.id kind))) ∧
    (∀ pa, s.walk w.ctx w.va = (.poison pa, s1) → exec (.tableWalk w.id) s = .next (caused { code := 0x0D } pa)) ∧
    (∀ pa, s.walk w.ctx w.va = (.unbacked pa, s1) → exec (.tableWalk w.id) s = .next (caused { code := 0x05 } 0))) ∧
  (∀ (s : State) (gid : Nat), s.runAheadOver gid = true → exec (.runAheadEnd gid) s = .next (s.endRunAheadGroup gid)) ∧
  (∀ (s : State) (gid : Nat) (p : Park), (s.group gid).park = some p → p.running = true → (∀ e ∈ p.threads, gidOf e.1 = gid) →
    (p.threads.map (·.1)).Nodup → spRising none s.threads = true →
    let t := s.endRunAheadGroup gid
    (∀ e ∈ p.threads, spGet t.threads e.1 = some e.2) ∧ (∀ tid, gidOf tid ≠ gid → spGet t.threads tid = spGet s.threads tid) ∧
    (t.group gid).masks = p.masks ∧ (t.group gid).binds = p.binds ∧
    (p.pages = [] → (t.group gid).park = none) ∧
    (p.pages ≠ [] → (spGet s.slices (ctxFirst (s.team (teamOf gid)).ctx)).isSome = true →
      (t.group gid).park = some { pages := p.pages, running := false, batch := some (s.slice (ctxFirst (s.team (teamOf gid)).ctx)).batchNo } ∧
      ((t.slice (ctxFirst (s.team (teamOf gid)).ctx)).waitingBatches.getLast?.map (·.recs)) = some (p.pages.take 32)))

/-- 13 R208, R211, R226: an L1 hands a line's dirty bytes to its slice's cluster cache and may then drop it; a cluster cache writes a line to its
home and, before it drops it, takes it from the L1s under it; a deep cache writes a line to memory, and drops it only unpinned; a promotion
request flushes its core and is answered. -/
def Obligations.cache_events : Prop :=
  (∀ (s : State) (core la : Nat) (x : Line) (drop : Bool), spGet (s.core core).l1 la = some x → x.dirty ≠ 0 → spRising none (s.core core).l1 = true →
    let i := coreSlice core
    (spGet s.slices i).isSome = true →
    ∃ t, exec (.cacheWriteback .l1 core la drop) s = .next t ∧ spGet (t.core core).l1 la = (if drop then none else some { x with dirty := 0 }) ∧
      spGet (t.slice i).cc la = some (tookDirty ((spGet (s.slice i).cc la).getD {}) x) ∧
      (∀ b, b ≠ la → spGet (t.core core).l1 b = spGet (s.core core).l1 b ∧ spGet (t.slice i).cc b = spGet (s.slice i).cc b)) ∧
  (∀ (s : State) (core la : Nat), exec (.cacheWriteback .constant core la true) s = .next (s.modCore core (fun c => { c with kc := spDel c.kc la }))) ∧
  (∀ (s : State) (i la : Nat), exec (.cacheWriteback .cluster i la false) s = .next (s.cleanCc i la) ∧
    exec (.cacheWriteback .cluster i la true) s = .next (((s.dropL1s i la).cleanCc i la).dropCc i la)) ∧
  (∀ (s : State) (i la : Nat) (x : DLine), spGet (s.slice i).deep la = some x →
    (s.cleanDeep i la = none → ∀ drop, exec (.cacheWriteback .deep i la drop) s = .next (s.startSweep la)) ∧
    (∀ t, s.cleanDeep i la = some t → exec (.cacheWriteback .deep i la false) s = .next t ∧
      (x.pins = [] → exec (.cacheWriteback .deep i la true) s = .next (t.dropDeep i la)) ∧
      (x.pins ≠ [] → exec (.cacheWriteback .deep i la true) s = .next t))) ∧
  (∀ (s : State) (core id : Nat) (p : Promo), s.promos.find? (fun p => p.id = id && p.core = core) = some p →
    let t := s.flushCores [core] none (fun _ => true)
    exec (.promotionRequest core id) s = .next { t with
      promos := t.promos.filter (fun x => x.id ≠ id)
      loads := t.loads.map (fun (x : Load) => if x.id = p.load then { x with promo := x.promo.filter (· ≠ id) } else x) })

/-- 23 R363-R365: a waiting batch is written once the ring has room, at SLC_FBASE's ring, and raises the fault interrupt; an answer removes an
outstanding batch and lets its waiter go on, its cancelled pages as failures; an answer to no batch is counted. -/
def Obligations.fault_queue : Prop :=
  (∀ (s : State) (f : Nat) (b : FBatch) (rest : List FBatch), (s.slice f).waitingBatches = b :: rest → (s.slice f).fwBusy = false →
    let ctl := (s.sreg f 0x2008).toNat
    let n := 2 ^ (ctl % 32)
    let h := (s.sreg f 0x200C).toNat
    let k := b.recs.length
    ctl / 2 ^ 8 % 2 = 1 → (h + 2 ^ 32 - (s.sreg f 0x2010).toNat) % 2 ^ 32 + k ≤ n →
    exec (.faultBatchWrite f) s = .next (
      let t := (List.range k).foldl (fun (t : State) i =>
        match b.recs[i]? with
        | some r => t.systemPut f (ctxKey f 1023) 0 ((s.sreg f 0x2000).toNat + 32 * ((h + i) % n)) 32 (faultRec b i r)
        | none => t) s
      (((t.setSreg f 0x200C (BitVec.ofNat 64 ((h + k) % 2 ^ 32))).modSlice f (fun (v : Slice) =>
        { v with
          waitingBatches := rest
          outstanding := v.outstanding ++ [b] })).signal (.vf f) 1))) ∧
  (∀ (b : FBatch) (i : Nat) (r : FRec), r.va < 2 ^ 50 → r.kind < 8 → r.acc < 4 → b.unit < 16 → ctxNum b.ctx < 2 ^ 16 → b.slicelog < 16 → b.core < 16 →
    b.gslot < 128 → b.no < 2 ^ 32 → b.recs.length < 64 → i < 32 →
    let v := faultRec b i r
    v % 2 ^ 50 = r.va ∧ v / 2 ^ 50 % 8 = r.kind ∧ v / 2 ^ 53 % 4 = r.acc ∧ (v / 2 ^ 55 % 2 = 1 ↔ r.ra = true) ∧ v / 2 ^ 56 % 16 = b.unit ∧
    v / 2 ^ 64 % 2 ^ 16 = ctxNum b.ctx ∧ v / 2 ^ 80 % 16 = b.slicelog ∧ v / 2 ^ 84 % 16 = b.core ∧ v / 2 ^ 88 % 2 ^ 8 = b.gslot ∧
    v / 2 ^ 96 % 2 ^ 32 = b.no ∧ v / 2 ^ 128 % 2 ^ 8 = b.recs.length ∧ v / 2 ^ 136 % 2 ^ 8 = i ∧ v / 2 ^ 160 % 2 ^ 32 = r.pc.toNat ∧
    v / 2 ^ 192 = b.stamp.toNat) ∧
  (∀ (s : State) (i : Nat) (v : DWord), s.reaches (s.pfOf i) i = true →
    let f := s.first i
    let no := v.toNat % 2 ^ 32
    ((s.slice f).outstanding.find? (fun b => b.no = no) = none → exec (.slcFresp i v) s = .next (s.count f diagDbell)) ∧
    (∀ b, (s.slice f).outstanding.find? (fun b => b.no = no) = some b →
      let s1 := s.modSlice f (fun (x : Slice) => { x with outstanding := x.outstanding.filter (fun y => y.no ≠ no) })
      let bad := cancelled b (v.toNat / 2 ^ 32)
      (b.unit = 0 → exec (.slcFresp i v) s = .next ((s1.answerGroup b.who bad).drainCheck f)) ∧
      (b.unit = 1 → exec (.slcFresp i v) s = .next ((s1.answerCopy b.who (!bad.isEmpty)).drainCheck f)) ∧
      (b.unit = 2 → exec (.slcFresp i v) s = .next ((s1.answerM b.who bad).drainCheck f)) ∧
      (b.unit = 3 → exec (.slcFresp i v) s = .next ((s1.answerR b.who (!bad.isEmpty)).drainCheck f)) ∧
      (b.unit = 4 → exec (.slcFresp i v) s = .next ((s1.answerTile f no (!bad.isEmpty)).drainCheck f))))

/-- 23 R355-R358: a write of SLC_TINVCMD that is acceptable starts its command: no core keeps a covered translation, other translations stay; one
that is not sets NACK only. The command ends once no access that took a covered translation is left, a RELEASE once none of its lines is.
R368, R371: a counted wait at WDOG_BAR, a context without progress for WDOG_HANG, and (19 R313) the ticket oldest on its key at WDOG_ROS are
triggers; the first in order of a clock ends the context. -/
def Obligations.invalidation_and_watchdogs : Prop :=
  (∀ (s : State) (i op : Nat) (v : Word) (cmd : Instr), s.reaches (s.pfOf i) i = true →
    (op = 1 ∧ cmd = .tinvInval i v) ∨ (op = 2 ∧ cmd = .tinvRelease i v) ∨ (op = 3 ∧ cmd = .tinvInvalContext i v) →
    (spGet s.slices (s.first i)).isSome = true →
    let f := s.first i
    let st := (s.sreg f 0x2034).toNat
    let n := v.toNat
    let bad := st % 2 = 1 ∨ n / 2 ^ 12 % 4 ≠ op ∨ n / 2 ^ 10 % 4 ≠ 0 ∨ n / 2 ^ 14 % 4 ≠ 0
    let z : Tinv := { ctx := ctxKey f (n % 2 ^ 10), op := op, va := (s.sreg f 0x2020).toNat / 2 ^ 16 % 2 ^ 34 * 65536,
                      pa := (s.sreg f 0x2028).toNat / 2 ^ 16 % 2 ^ 36 * 65536, pages := n / 2 ^ 16 + 1, mark := s.nextId }
    (bad → exec cmd s = .next (s.setSreg f 0x2034 (BitVec.ofNat 64 (setFld st 1 1 1)))) ∧
    (¬ bad → ∃ t, exec cmd s = .next t ∧ (t.slice f).tinv = some z ∧ (t.sreg f 0x2034).toNat % 4 = 1 ∧
      (op = 2 → (t.sreg f 0x2034).toNat / 2 ^ 8 % 2 ^ 24 = 0) ∧
      let hit (e : TlbEnt) : Prop := e.ctx = z.ctx ∧ (op = 3 ∨ e.base < z.va + 65536 * z.pages ∧ z.va < e.base + e.size)
      (∀ core e, e ∈ (t.core core).tlb ↔ e ∈ (s.core core).tlb ∧ ¬ hit e) ∧
      (∀ core l, l ∈ (t.core core).last ↔ l ∈ (s.core core).last ∧ ¬ hit l.2))) ∧
  (∀ (s : State) (i : Nat) (z : Tinv), (s.slice i).tinv = some z → s.tinvOpen z = false →
    let st := (s.sreg i 0x2034).toNat
    let ended (a : State) (st : Nat) : State :=
      (a.modSlice i (fun (v : Slice) => { v with tinv := none })).setSreg i 0x2034 (BitVec.ofNat 64 (setFld st 0 0 0))
    let r := s.releaseFrames i z
    let st2 := setFld st 31 8 (Nat.min (fld st 31 8 + r.1) 0xFFFFFF)
    (z.op ≠ 2 → exec (.tinvComplete i) s = .next (ended s st)) ∧
    (z.op = 2 → (∀ j ∈ r.2.partSlices i, ∀ x ∈ (r.2.slice j).deep, z.frames x.1 = false) → exec (.tinvComplete i) s = .next (ended r.2 st2)) ∧
    (z.op = 2 → (∃ j ∈ r.2.partSlices i, ∃ x ∈ (r.2.slice j).deep, z.frames x.1 = true) →
      exec (.tinvComplete i) s = .next (r.2.setSreg i 0x2034 (BitVec.ofNat 64 st2)))) ∧
  (∀ (s : State) (c : Nat), (spGet s.ctxs c).isSome = true → (s.ctx c).term = none →
    let fires (i : Instr) (d0 : Diag) : Prop := ∃ d, exec i s = .next (s.modCtx c (fun x => { x with trigger := some d })) ∧
      s.diagRank d ≤ s.diagRank d0 ∧ ∀ b, (s.ctx c).trigger = some b → s.diagRank d ≤ s.diagRank b
    (∀ tid x, s.realThread tid = some x → (spGet s.threads tid).isSome = true → s.ctxOfT tid = c → x.wait.counted = true →
      let lim := (s.ctlFor c (gidOf tid)).wdogBar
      0 < lim.toNat → lim.toNat ≤ x.wdogBar →
      let w := s.waitInfo tid
      fires (.wdogBarExpiry tid) { code := 0x10, tid := some tid, pc := x.pc, aux := x.waitWord, waitkind := w.1, waiting := w.2.1, needed := w.2.2,
                                   limit := lim }) ∧
    (let lim := (s.ctx c).ctl.wdogHang
     0 < lim.toNat → lim.toNat ≤ (s.ctx c).hang → fires (.wdogHangExpiry c) { code := 0x11, pc := 0xFFFFFFFF, limit := lim }) ∧
    (∀ i id k tid, (s.slice i).tickets.find? (fun k => k.id = id) = some k → k.tid = some tid → k.st ≠ 2 → k.ctx = c →
      let lim := (s.ctx c).ctl.wdogRos
      0 < lim.toNat → lim.toNat ≤ k.count →
      fires (.wdogRosExpiry i id) { code := 0x11, tid := some tid, pc := ((s.realThread tid).getD {}).pc, waitkind := 7, limit := lim })) ∧
  (∀ (s : State) (c : Nat) (x : Ctx) (d : Diag), (s.ctxs.map (·.1)).Nodup → spGet s.ctxs c = some x → x.trigger = some d →
    (∀ e ∈ s.ctxs, e.1 ≠ c → e.2.trigger = none) → s.settleTriggers = s.terminate c d)

/-- 01 R39: power-up puts each slice's binding registers to the table that its health record gives, with every core absent. 27 R397-R402: LOCK, RUN,
DRAIN, RESET, POWER_OFF and POWER_ON in the states that take them; a request in another state changes the status only; a reset ends in
CONFIG_OPEN once every sweep has ended and no dirty line is left. -/
def Obligations.slice_states : Prop :=
  (∀ s : State, s.booted = false → spRising none s.slices = true → (∀ i < 12, (spGet s.slices i).map (·.regs) = some (sliceRegsReset i)) →
    let s0 : State := if s.recordSigned then s else { s with failedHalves := s.fusedHalves, failedFronts := s.fusedFronts }
    (∀ i < 12, ((s0.bootBind i).filter bindEn).length = 16) →
    ∃ t, exec .powerUp s = .next t ∧ t.booted = true ∧ t.sec.up = true ∧ (∀ c < 192, spGet t.cores c = some {}) ∧
      (∀ e < 24, spGet t.ces e = some {}) ∧ (∀ i < 12, t.slcState i = stOpen ∧ t.first i = i ∧ t.psize i = 1) ∧
      (∀ i < 12, s.bootFails.contains i = false → ∀ f < 17, t.bind i f = (s0.bootBind i).getD f 0) ∧
      (∀ i < 12, s.bootFails.contains i = true → (t.sreg i 0x3000).toNat / 2 % 2 = 1)) ∧
  (∀ (s : State) (i : Nat) (fn : Func), isPf fn = true → s.presents fn i = true →
    let s1 := s.status i ctlOk
    let f := s1.first i
    (s.slcState i = stOpen → (∀ st, s1.lockCheck f = some st → exec (.lock i) s = .next (s1.status i st)) ∧
      (s1.lockCheck f = none → exec (.lock i) s = .next (((s1.setState f stLocked).partSlices f).foldl
        (fun (a : State) j => (a.applyBind j).extend (0x20 + j) (a.bindImage j)) (s1.setState f stLocked)))) ∧
    (s.slcState i = stLocked → exec (.run i) s = .next ((s1.setState (s.first i) stRun).modSlice (s.first i) (fun (v : Slice) => { v with batchNo := 0 }))) ∧
    (s.slcState i = stDrain → exec (.run i) s = .next ((s1.setState (s.first i) stRun).setDrained (s.first i) 0)) ∧
    (s.slcState i = stRun → ∀ save : Bool,
      let s2 := ((s1.setState f stDrain).modSlice f (fun (v : Slice) => { v with sched := { v.sched with claims := [] } })).reclaimLent f
      let running := (s2.clusters.filter (fun e => decide (ctxFirst e.2.ctx = f) && decide (e.2.state = .running))).map (·.1)
      exec (.drain i save) s = .next ((if save then running.foldl (fun (a : State) c => a.stopCluster c) s2 else s2).drainCheck f)) ∧
    (s.slcState i = stReset → ∀ save : Bool, ∀ q ∈ [Instr.lock i, .run i, .drain i save, .reset i, .powerOff fn i, .powerOn fn i],
      exec q s = .next (s.status i ctlBusy)) ∧
    (s.slcState i = stOff → ∀ save : Bool, ∀ q ∈ [Instr.lock i, .run i, .drain i save, .reset i, .powerOff fn i],
      exec q s = .next (s.status i ctlBadState)) ∧
    (s.slcState i = stRun → ∀ q ∈ [Instr.lock i, .run i, .powerOff fn i, .powerOn fn i], exec q s = .next (s.status i ctlBadState))) ∧
  (∀ (s : State) (f st : Nat), st < 8 → (∀ j ∈ s.partSlices f, (spGet s.slices j).isSome = true ∧ spRising none (s.slice j).regs = true) →
    ∀ j ∈ s.partSlices f, (s.setState f st).slcState j = st ∧ (s.setState f st).first j = s.first j ∧ (s.setState f st).psize j = s.psize j) ∧
  (∀ (s : State) (i st : Nat), st < 256 → ∀ j ∈ s.partSlices (s.first i), (spGet s.slices j).isSome = true → spRising none (s.slice j).regs = true →
    ((s.status i st).sreg j 8).toNat % 256 = st ∧ (s.status i st).slcState j = s.slcState j) ∧
  (∀ (s : State) (i : Nat), s.presents (s.pfOf i) i = true → s.slcState i = stOpen ∨ s.slcState i = stLocked ∨
      s.slcState i = stDrain ∧ (s.sreg (s.first i) 0).toNat / 8 % 2 = 1 →
    let f := s.first i
    let s1 := ((s.status i ctlOk).endLeasesOf f).stopCes f
    exec (.reset i) s = .next (((s1.partSlices f).foldl (fun (a : State) j =>
      a.modSlice j (fun (v : Slice) => { v with resetFrom := some (s.slcState i) })) s1).setState f stReset)) ∧
  (∀ (s : State) (i : Nat), s.first i = i → s.slcState i = stReset → (∀ j ∈ s.partSlices i, (s.slice j).sealing.sweeps = []) →
    s.flushCores (s.allCores i) none (fun _ => true) = s → (∀ j ∈ s.partSlices i, ∀ e ∈ (s.slice j).deep, e.2.dirty = 0) → s.whet.phase = 0 →
    let s1 := (s.allCores i).foldl (fun (a : State) c => a.modCore c Core.cleared) s
    exec (.sliceResetComplete i) s = .next ((((s.partSlices i).foldl (fun (a : State) j =>
      a.modSlice j (fun (v : Slice) => v.cleared (a.resetRegs j))) s1).setState i stOpen).setDrained i 0)) ∧
  (∀ (s : State) (i : Nat) (fn : Func), isPf fn = true → s.presents fn i = true → s.slcState i = stOpen →
    let s0 := s.status i ctlOk
    let f := s0.first i
    let s1 := ((s0.dropWorld f).stopCes f).dropPartition f
    let is := s0.partSlices f
    let lost (a : Nat) : Bool := isDevPa a && is.contains (paSlice a)
    ∃ t, exec (.powerOff fn i) s = .next t ∧ t.mem = s1.mem.filter (fun e => !lost e.1) ∧
      (∀ j ∈ is, (spGet s1.slices j).isSome = true → (t.slice j).deep = [] ∧ (t.slice j).cc = [] ∧ (t.slice j).linkUp = false)) ∧
  (∀ (s : State) (i : Nat) (fn : Func), isPf fn = false → s.presents fn i = true → exec (.powerOff fn i) s = .next (s.status i ctlPfOnly) ∧
    exec (.powerOn fn i) s = .next (s.status i ctlPfOnly)) ∧
  (∀ (s : State) (i : Nat) (fn : Func), isPf fn = true → s.presents fn i = true → s.slcState i = stOff → s.first i = i → s.psize i = 1 → (spGet s.slices i).isSome = true →
    spRising none (s.slice i).regs = true → ((s.bootBind i).filter bindEn).length = 16 →
    ∃ t, exec (.powerOn fn i) s = .next t ∧ t.slcState i = stOpen ∧ t.first i = i ∧ t.psize i = 1 ∧
      (s.bootFails.contains i = false → ∀ f < 17, t.bind i f = (s.bootBind i).getD f 0) ∧
      (s.bootFails.contains i = true → (t.sreg i 0x3000).toNat / 2 % 2 = 1) ∧ t.cores = s.cores ∧ t.mem = s.mem) ∧
  (∀ s : State, ∃ t, exec .packageReset s = .next t ∧ t.booted = false ∧ t.threads = [] ∧ t.teams = [] ∧ t.sec.up = false ∧
    (Memory.wf s.mem = true → ∀ a, devBytes ≤ a → Memory.get t.mem a = Memory.get s.mem a))

/-- 27 R403: a PART_CMD is refused by its fields, a slice that is not in CONFIG_OPEN, the two halves of a bifurcated card, or work that stands;
else the run becomes one partition and the slices left over stand alone. 00 R5-R7, R444; 01 R33, R34; 27 R397, R399: where a register write
goes, and what each kind of register makes of it. -/
def Obligations.partitions_and_registers : Prop :=
  (∀ (s : State) (v : Word), s.booted = true →
    let n := v.toNat
    let f := n % 16
    let k := n / 16 % 16
    let fs := s.overlapping f k
    let good := List.contains [1, 2, 3, 4, 6, 12] k = true ∧ f % k = 0 ∧ f + k ≤ 12 ∧ n / 2 ^ 8 = 0
    let isOpen := ∀ p ∈ fs, s.slcState p = stOpen
    let split := s.bifurcated = true ∧ f < 6 ∧ 6 < f + k
    let held := (∃ e < 24, ∃ p ∈ fs, s.ceOwner e = some p ∧ s.ceBusy e = true) ∨ ∃ p ∈ fs, (spGet s.sec.worlds p).isSome = true
    (¬ good → exec (.partCmd v) s = .next (s.setPartSt 1)) ∧
    (good → ¬ isOpen → exec (.partCmd v) s = .next (s.setPartSt 2)) ∧
    (good → isOpen → split → exec (.partCmd v) s = .next (s.setPartSt 3)) ∧
    (good → isOpen → ¬ split → held → exec (.partCmd v) s = .next (s.setPartSt 4)) ∧
    (good → isOpen → ¬ split → ¬ held → (∀ j < 12, (spGet s.slices j).isSome = true ∧ spRising none (s.slice j).regs = true) →
      (∀ p ∈ fs, p + s.psize p ≤ 12) → (∀ j, f ≤ j → j < f + k → j ∈ s.partSlices (s.first j)) → spRising none s.pf = true →
      ∃ t, exec (.partCmd v) s = .next t ∧ (t.pfreg 0x3404).toNat = 0 ∧
        (∀ j, f ≤ j → j < f + k → t.first j = f ∧ t.psize j = k ∧ ((t.sreg j 0).toNat / 16 % 2 = 0 ↔ j = f)) ∧
        (∀ p ∈ fs, ∀ j ∈ s.partSlices p, ¬ (f ≤ j ∧ j < f + k) → t.first j = j ∧ t.psize j = 1 ∧ (t.sreg j 0).toNat / 16 % 2 = 0))) ∧
  (∀ (s : State) (off size : Nat) (v : DWord), s.booted = true → size = 1 ∨ size = 2 ∨ size = 4 ∨ size = 8 → off % size = 0 →
    let x := v.toNat % 2 ^ (8 * size)
    exec (.registerWrite .pf 0 off size v) s = .next ((regsMet pfRegAt off size).foldl (fun (a : State) r => a.pfMeet off size x r) s) ∧
    (s.presents .pf (off / 0x80000) = true →
      exec (.registerWrite .pf 2 off size v) s = .next (s.sliceWrite .pf (off / 0x80000) (off % 0x80000) size x)) ∧
    (s.presents .pf2 (off / 0x80000 + 6) = true →
      exec (.registerWrite .pf2 2 off size v) s = .next (s.sliceWrite .pf2 (off / 0x80000 + 6) (off % 0x80000) size x) ∧
      exec (.registerWrite .pf2 0 off size v) s = .next s) ∧
    (∀ i, s.presents (.vf i) i = true → (off < 0x80000 → exec (.registerWrite (.vf i) 0 off size v) s = .next (s.sliceWrite (.vf i) i off size x)) ∧
      (0x80000 ≤ off → off < 0xA0000 → s.slcState i ≠ stOff →
        exec (.registerWrite (.vf i) 0 off size v) s = .next (s.doorbell (s.first i) ((off - 0x80000) / 8) (if off % 8 = 0 then size else 0) x)))) ∧
  (∀ (s : State) (fn : Func) (i off size v : Nat) (r : RegSpec),
    let head := 0xA000 ≤ r.off ∧ r.off < 0xA800 ∧ s.encReg i ((r.off - 0xA000) / 0x80) encCfg % 2 = 1
    (r.pfOnly = true → isPf fn = false → s.sliceMeet fn i off size v r = s.status i ctlPfOnly) ∧
    (r.pfOnly = false ∨ isPf fn = true →
      (r.kind = .ro → (head → s.sliceMeet fn i off size v r = s.status i ctlBadState) ∧ (¬ head → s.sliceMeet fn i off size v r = s)) ∧
      (r.kind = .wo → regWhole r off size = false → s.sliceMeet fn i off size v r = s.count i diagRsvw) ∧
      (r.kind = .rw → r.locked = true → s.slcState i ≠ stOpen → s.sliceMeet fn i off size v r = s.lockedWrite i) ∧
      (r.kind = .rw → r.locked = false ∨ s.slcState i = stOpen → s.sliceMeet fn i off size v r =
        s.sliceRegWrite fn i r (regMerge r (s.storedReg i r) off size v) (regCover r off size)))) ∧
  (∀ (r : RegSpec) (off size : Nat), r.width ≤ 8 → ∀ b < r.width,
    regCover r off size / 2 ^ (8 * b) % 256 = if off ≤ r.off + b ∧ r.off + b < off + size then 255 else 0) ∧
  (∀ (s : State) (i : Nat), s.sliceRegValue i { off := 0x8018, width := 8 } % 64 = 0 ∧ s.sliceRegValue i { off := 0x8018, width := 8 } < 2 ^ 52) ∧
  (∀ (r : RegSpec) (cur off size v : Nat), r.width ≤ 8 → regMerge r cur off size v < 2 ^ (8 * r.width) ∧
    ∀ b < r.width, regMerge r cur off size v / 2 ^ (8 * b) % 256 =
      if off ≤ r.off + b ∧ r.off + b < off + size then v / 2 ^ (8 * (r.off + b - off)) % 256 else cur / 2 ^ (8 * b) % 256)

/-- 21 R330, R332: a record taken is rejected, ended with its context, or becomes a launch. R333: order among launches. R335, R336, R340: a placement
decision, a chosen rectangle that closes, the claimant once its victims are saved. R342-R344, 11 R196: migration. R332: a grid's completion. -/
def Obligations.launches_and_migration : Prop :=
  (∀ (s : State) (f q : Nat), s.mayPlace f = true → q < 16384 →
    let d := (s.queueDesc f q).1
    let s0 := (s.queueDesc f q).2
    let c := ctxKey f (d / 2 ^ 64 % 2 ^ 10)
    let head := d / 2 ^ 96 % 2 ^ 32
    d / 2 ^ 50 % 2 = 1 → head ≠ d / 2 ^ 128 % 2 ^ 32 → (s.ctx c).paused = 0 → s.descBad f d = false →
    let r := s0.recordRead f (d % 2 ^ 50 + 128 * (head % 2 ^ (d / 2 ^ 51 % 2 ^ 5))) 128
    let s1 := r.2.putDesc f q (setFld d 127 96 ((head + 1) % 2 ^ 32))
    let l := launchOf r.1
    let last (a : State) (g : Nat) : State := a.modSlice f (fun (v : Slice) => { v with launched := spWrite 0 v.launched q g })
    (∀ code, (s1.ctx c).term = some code → exec (.launchRecordTake f q) s = .next ((last s1 0).writePair c l 2 code 0)) ∧
    (∀ n, (s1.ctx c).term = none → s1.launchReason f c r.1 = some n → exec (.launchRecordTake f q) s = .next ((last s1 0).writePair c l 1 n 0)) ∧
    ((s1.ctx c).term = none → s1.launchReason f c r.1 = none → exec (.launchRecordTake f q) s =
      .next (((last { s1 with nextId := s1.nextId + 1 } s1.nextId).modCtx c (fun (x : Ctx) =>
        { x with nextGrid := (x.nextGrid + 1) % 2 ^ 32 })).setGrid s1.nextId
          { ctx := c, part := f, queue := q, number := BitVec.ofNat 32 (s1.ctx c).nextGrid, lrec := l, passedAt := s1.clock,
            prev := spRead 0 (s1.slice f).launched q }))) ∧
  (∀ (s : State) (a b : Nat),
    let x := s.grid a
    let y := s.grid b
    (x.lrec.deadlineClass = true → y.lrec.deadlineClass = false → s.before a b = true ∧ s.before b a = false) ∧
    (x.lrec.deadlineClass = true → y.lrec.deadlineClass = true → s.slack a < s.slack b → s.before a b = true ∧ s.before b a = false) ∧
    (x.lrec.deadlineClass = false → y.lrec.deadlineClass = false → x.service * (y.lrec.weight + 1) < y.service * (x.lrec.weight + 1) →
      s.before a b = true ∧ s.before b a = false) ∧
    (s.before a b = true → s.before b a = false)) ∧
  (∀ (s : State) (f : Nat), s.mayPlace f = true →
    let s1 := s.openClusters f
    let order := (s1.ranked f).flatMap (fun g => s1.waitingOf g)
    (order = [] → exec (.placementDecision f) s = .next (s1.dropHeld f none)) ∧
    (∀ cl rest, order = cl :: rest →
      let s2 := s1.dropHeld f (some cl)
      (∀ o s3, s2.rectFor f cl = some (o, s3) → exec (.placementDecision f) s = .next (s3.placeAt cl o)) ∧
      (s2.rectFor f cl = none →
        let may := (s2.grid (s2.cluster cl).grid).lrec.deadlineClass = true ∧ ∀ k ∈ (s2.slice f).sched.claims, k.1 ≠ cl
        (∀ s3, may → s2.preempt f cl = some s3 → exec (.placementDecision f) s = .next (s3.placeFirst f rest)) ∧
        (¬ may ∨ s2.preempt f cl = none → exec (.placementDecision f) s = .next (((s2.chooseRect f cl).askBack cl).placeFirst f rest))))) ∧
  (∀ (s : State) (f : Nat),
    let s1 := s.savePending f
    exec (.preemptSaveComplete f) s = .next (((s1.slice f).sched.claims.foldl (fun (a : State) k => a.settleClaim f k) s1).drainCheck f)) ∧
  (∀ (s : State) (f cl o : Nat) (vs : List Nat),
    let k := (cl, o, vs)
    let saving := ∃ v ∈ vs, (spGet s.clusters v).isSome ∧ (s.cluster v).state = .stopping
    let s2 := s.modSlice f (fun (v : Slice) => { v with sched := { v.sched with claims := v.sched.claims.filter (· ≠ k) } })
    let x := s2.cluster cl
    let goes := (spGet s2.clusters cl).isSome = true ∧ (x.state = .waiting ∨ x.state = .stopped ∨ x.state = .killed) ∧ s2.mayPlace f = true ∧
      s2.launchOpen x.grid = true ∧ s2.rectFits cl o (fun _ => ({}, 0)) = true
    (saving → s.settleClaim f k = s) ∧ (¬ saving → goes → s.settleClaim f k = s2.placeAt cl o) ∧ (¬ saving → ¬ goes → s.settleClaim f k = s2)) ∧
  (∀ (s : State) (cl o at_ : Nat), (s.cluster cl).chosen = some (o, at_) → at_ + (s.sreg (ctxFirst (s.cluster cl).ctx) 0x101C).toNat ≤ s.clock →
    exec (.ageLimitExpiry cl) s = .next (s.modCluster cl (fun (c : Cluster) => { c with closed := true }))) ∧
  (∀ (s : State) (g : Nat) (x : Grid), spGet s.grids g = some x → x.phase = 1 →
    let s1 := (s.flushCores (s.allCores x.part) none (fun _ => true)).flushHomesNow (fun _ l => l.writers.contains x.ctx)
    let s2 := s1.writePair x.ctx x.lrec 0 0 x.relaunches
    exec (.gridComplete g) s = .next { s2 with grids := spDel s2.grids g }) ∧
  (∀ (s : State) (core : Nat) (temp : Int),
    let x := s.core core
    let lim := s.migtemp core
    let f := s.first (coreSlice core)
    let put (armed : Bool) : State := s.modCore core (fun (c : Core) => { c with temp := temp, armed := armed })
    let pass := x.temp < lim ∧ lim ≤ temp ∧ x.armed = true
    ∀ i ∈ [Instr.migtempPass core temp, .migtempRearm core temp],
      (¬ pass → exec i s = .next (put (x.armed || decide (temp < lim - 5)))) ∧
      (pass → x.inPass = true ∨ (put false).mayPlace f = false → exec i s = .next (put false)) ∧
      (pass → x.inPass = false → (put false).mayPlace f = true → exec i s =
        .next ((((put false).teamsOn core).map (·.1)).foldl (fun (a : State) t => a.askMove f t (some (lim - 5))) (put false)))) ∧
  (∀ (s : State) (t : Nat) (m : Mig), (s.team t).mig = some m →
    (m.moving = false → (s.team t).state = .resident → m.since + (s.ctx (s.team t).ctx).ctl.migwait.toNat ≤ s.clock →
      exec (.migwaitExpiry t) s = .next (s.stopTeam t true)) ∧
    (m.moving = true → ((s.cutTeam t).team t).state = .stopping → (s.cutTeam t).teamBusy t = false →
      exec (.migrationTransferComplete t) s = .next (((s.cutTeam t).leaveCore t).installTeam t m.dest)))

/-- 17 R282: a residue mismatch maps in a spare column and the row runs again; with none left the command fails and the core leaves placement. 25
R384-R388: the whetstone pass, its waits of 10 ms and 100 ms, and its outcomes. R392-R395: monitors. R372: what an uncorrectable error poisons. -/
def Obligations.reliability : Prop :=
  (∀ (s : State) (core half : Nat) (m : MCmd) (home : Nat), s.runningM core = some (home, m) → m.aloneSince = none → half < (s.coreHalves core).length →
    let i := coreSlice core
    let h := (s.coreHalves core).getD half 0
    let used := spRead 0 (s.slice i).spareUsed h
    (used < 2 → exec (.residueMismatch core half) s = .next
      (((s.modSlice i (fun (v : Slice) => { v with spareUsed := spWrite 0 v.spareUsed h (used + 1) })).healthFields i).logError i 7 6 none (corePos core) 0 0 0
        (1 - used))) ∧
    (2 ≤ used → s.pairSide m = none →
      exec (.residueMismatch core half) s = .next ((s.failM home m { code := 0x0B, aux := 4 }).withdrawCore core [h] []))) ∧
  (∀ (s : State) (c : Nat), s.whet.phase = 0 → 0 < s.whetGap → s.whet.lastAt + s.whetGap ≤ s.time →
    (s.testable.find? (fun c => decide (s.whet.next ≤ c))).orElse (fun _ => s.testable.head?) = some c →
    ∃ t, exec .whetstonePassStart s = .next t ∧
      t.whet = Whet.mk 1 c (c + 1) s.time s.time (s.ctxs.map (fun e => (e.1, s.vtime e.1))) ∧ ((spGet s.cores c).isSome = true → (t.core c).inPass = true) ∧
      (∀ k, k ≠ c → spGet t.cores k = spGet s.cores k) ∧ t.teams = s.teams ∧ t.slices = s.slices) ∧
  (∀ s : State, s.whet.phase = 1 → s.whet.since + 10000000 ≤ s.time →
    let f := s.first (coreSlice s.whet.core)
    let s1 : State := { s with whet := { s.whet with phase := 2 } }
    exec .whetstoneDrainTimeout s = .next (((s1.teamsOn s.whet.core).map (·.1)).foldl (fun (a : State) t =>
      let b := a.askMove f t none
      if (b.team t).mig = none ∧ (b.team t).state = .resident ∧ b.canSave ((b.cluster (b.team t).cluster).teams) = true
      then b.stopCluster (b.team t).cluster else b) s1)) ∧
  (∀ s : State, s.whet.phase ≠ 0 → s.passEmpty = false → s.whet.since + 100000000 ≤ s.time → exec .whetstoneSkip s = .next (s.endPass s.whet.core)) ∧
  (∀ s : State, s.whet.phase ≠ 0 → s.passEmpty = true → spRising none s.ctxs = true →
    let c := s.whet.core
    ∃ t, exec (.whetstoneScanComplete true) s = .next t ∧ t.whet = { s.whet with phase := 0 } ∧ ((spGet s.cores c).isSome = true → (t.core c).inPass = false) ∧
      t.teams = s.teams ∧ t.slices = s.slices ∧ t.mem = s.mem ∧
      (∀ k, spRising none (s.ctx k).stamps = true → spGet (t.ctx k).stamps c = none)) ∧
  (∀ s : State, s.whet.phase ≠ 0 → s.passEmpty = true →
    let c := s.whet.core
    let marked := s.ctxs.filterMap (fun e => (spGet e.2.stamps c).map (fun u => (e.1, u)))
    let s1 := marked.foldl (fun (a : State) e => a.modCtx e.1 (fun (x : Ctx) =>
      { x with
        stamps := spDel x.stamps c
        frozen := some (Nat.min e.2 (x.frozen.getD e.2)) })) s
    let s2 := marked.foldl (fun (a : State) e =>
      a.logError (coreSlice c) 9 9 (some e.1) (corePos c) 0 0 0 ((spGet s.whet.startV e.1).getD (a.vtime e.1)) (some e.2)) s1
    exec (.whetstoneScanComplete false) s = .next ((s2.withdrawCore c (s2.coreHalves c) (s2.coreFront c)).endPass s.whet.next)) ∧
  (∀ (s : State) (i n src core ctx : Nat) (x : Int), n < 8 → (spGet s.slices i).isSome = true → spRising none (s.slice i).regs = true →
    let ctl := s.mon i n 0
    let k := coreKey i core
    ∃ t, exec (.monitorSample i src core ctx x) s = .next t ∧
      (src ≠ 5 → (∀ k, k ≠ i → spGet t.slices k = spGet s.slices k) ∧ (src ≠ 6 → t.cores = s.cores)) ∧
      ((spGet s.cores k).isSome = true → (src = 5 → (t.core k).temp = x) ∧ (src = 6 → (t.core k).droop = x.toNat)) ∧
      (ctl % 16 ≠ src ∨ src = 0 ∨ ctl / 16 % 2 = 0 ∨ monTakes ctl core ctx = false → ∀ o < 0x80, t.mon i n o = s.mon i n o) ∧
      (ctl % 16 = src → 0 < src → src ≠ 4 → ctl / 16 % 2 = 1 → monTakes ctl core ctx = true → 0 ≤ x → x < 2 ^ 32 →
        s.mon i n 4 < 2 ^ 32 → s.mon i n 8 < 2 ^ 32 →
        t.mon i n 4 = min x.toNat (s.mon i n 4) ∧ t.mon i n 8 = max x.toNat (s.mon i n 8) ∧
        t.mon i n 0xC = min (s.mon i n 0xC + 1) 0xFFFFFFFF ∧
        ∀ k < 16, t.mon i n (0x10 + 4 * k) = if k = monBin x then min (s.mon i n (0x10 + 4 * k) + 1) 0xFFFFFFFF else s.mon i n (0x10 + 4 * k))) ∧
  (∀ x : Int, (x < 1 → monBin x = 0) ∧ (∀ k : Nat, k < 14 → 2 ^ k ≤ x → x < 2 ^ (k + 1) → monBin x = k + 1) ∧ (2 ^ 14 ≤ x → monBin x = 15)) ∧
  (∀ (s : State) (i n : Nat) (v : Word), s.reaches (s.pfOf i) i = true → n < 8 →
    let old := s.mon i n 0
    let new := monCtlValue old v.toNat
    let s1 := if 8 ≤ v.toNat % 16 ∨ v.toNat / 64 % 4 = 3 ∨ v.toNat / 2 ^ 22 ≠ 0 then s.count i diagRsvw else s
    (v.toNat / 32 % 2 = 1 ∨ setFld new 4 4 0 ≠ setFld old 4 4 0 → exec (.monCtlWrite i n v) s = .next ((s1.setMon i n 0 new).clearMon i n)) ∧
    (v.toNat / 32 % 2 = 0 → setFld new 4 4 0 = setFld old 4 4 0 → exec (.monCtlWrite i n v) s = .next (s1.setMon i n 0 new)) ∧
    exec (.monClr i n) s = .next (s.clearMon i n)) ∧
  (∀ (s : State) (i n : Nat), n < 8 → (spGet s.slices i).isSome = true → spRising none (s.slice i).regs = true →
    let t := s.clearMon i n
    let signed := s.mon i n 0 % 16 = 4
    t.mon i n 0 = s.mon i n 0 ∧ t.mon i n 4 = (if signed then 0x7FFFFFFF else 0xFFFFFFFF) ∧ t.mon i n 8 = (if signed then 0x80000000 else 0) ∧
    ∀ k < 17, t.mon i n (0xC + 4 * k) = 0) ∧
  (∀ (s : State) (x i c t n : Nat),
    (32 * x < devBytes → exec (.uncorrectableError (.gddr x)) s = .next { s with memPoison := insertNew x s.memPoison }) ∧
    (∃ t1, exec (.uncorrectableError (.deep i x)) s = .next t1 ∧ t1.mem = s.mem ∧ t1.cores = s.cores ∧
      ∀ l, spGet (s.slice i).deep (x / 2) = some l → spGet (t1.slice i).deep (x / 2) = some { l with poison := l.poison ||| (1 <<< (x % 2)) }) ∧
    (∃ t1, exec (.uncorrectableError (.l1 c x)) s = .next t1 ∧ t1.mem = s.mem ∧ t1.slices = s.slices ∧
      ∀ l, spGet (s.core c).l1 (x / 2) = some l → spGet (t1.core c).l1 (x / 2) = some { l with poison := l.poison ||| (1 <<< (x % 2)) }) ∧
    (∃ t1, exec (.uncorrectableError (.constant c x)) s = .next t1 ∧ t1.mem = s.mem ∧ t1.slices = s.slices ∧
      ∀ l, spGet (s.core c).kc (x / 2) = some l → spGet (t1.core c).kc (x / 2) = some { l with poison := l.poison ||| (1 <<< (x % 2)) }) ∧
    (∃ t1, exec (.uncorrectableError (.cluster i x)) s = .next t1 ∧ t1.mem = s.mem ∧ t1.cores = s.cores ∧
      ∀ l, spGet (s.slice i).cc (x / 2) = some l → spGet (t1.slice i).cc (x / 2) = some { l with poison := l.poison ||| (1 <<< (x % 2)) }) ∧
    (∀ sp, sp ≠ .cspad → 32 * x < (s.team t).region (spaceNum sp) → ∃ t1, exec (.uncorrectableError (.localStore t sp x)) s = .next t1 ∧
      t1.mem = s.mem ∧ t1.cores = s.cores ∧ ((spGet s.teams t).isSome = true → (t1.team t).poisonedAt (spaceNum sp) (32 * x) 1 = true)) ∧
    exec (.uncorrectableError (.reg t n)) s = .next (s.modReal t (fun (v : Thread) => { v with poisonRegs := insertNew n v.poisonRegs })))

/-- 27 R405: ownership of pool engines. R411: the power balance. R412: fabric guarantees. R414-R416: matrix leases. R417-R419: TIME, pause, resume and
the two counters of a paused context. R420: firmware update. -/
def Obligations.tenancy : Prop :=
  (∀ (s : State) (i : Nat) (v : Word), s.reaches (s.pfOf i) i = true → v.toNat / 2 ^ 24 % 4 = 1 → v.toNat / 2 ^ 18 % 2 ^ 6 = 0 → v.toNat / 2 ^ 26 = 0 →
    let n := v.toNat
    let k := coreKey i (n % 16)
    ((s.slice (s.first i)).fwBusy = true → exec (.leaseGrant i v) s = .next (s.status i ctlBusy)) ∧
    ((s.slice (s.first i)).fwBusy = false → s.leaseRefused i n = true → exec (.leaseGrant i v) s = .next (s.status i ctlRefused)) ∧
    ((s.slice (s.first i)).fwBusy = false → s.leaseRefused i n = false → exec (.leaseGrant i v) s =
      .next ((s.status i ctlOk).modCore k (fun (c : Core) => { c with lease := { st := 1, first := n / 16 % 16, ctx := n / 256 % 2 ^ 10 } })))) ∧
  (∀ (s : State) (i k : Nat), (s.core (coreKey i k)).lease.st = 1 ∨ (s.core (coreKey i k)).lease.st = 2 →
    ∃ t, exec (.leaseReclaim i k) s = .next t ∧
      ((∀ e ∈ s.cores, ∀ m ∈ e.2.mcmds, m.onLease ≠ some (coreKey i k)) → ∀ c, spGet s.cores (coreKey i k) = some c →
        spGet t.cores (coreKey i k) = some { c with
          held := none
          lease := { c.lease with
            st := 3
            scrubAt := s.clock + 4096 } } ∧ t.teams = s.teams)) ∧
  (∀ (s : State) (i k : Nat), (s.core (coreKey i k)).lease.st = 3 → (s.core (coreKey i k)).lease.scrubAt ≤ s.clock →
    let l := (s.core (coreKey i k)).lease
    exec (.leaseScrubComplete i k) s = .next (((s.modCore (coreKey i k) (fun (c : Core) =>
      { c with
        held := none
        lease := { c.lease with st := 0 } })).drainCheck (s.first i)).drainCheck l.first)) ∧
  (∀ (s : State) (i : Nat), (s.slice i).meterAt + 1750 ≤ s.clock →
    let cap : Int := s.powerCap i
    let b := min ((s.slice i).balance - (Config.energy s.freeCtr : Int) + cap * 1000) (cap * 100000)
    exec (.powerMeterTick i) s = .next (({ s with freeCtr := s.freeCtr + 1 } : State).modSlice i (fun (v : Slice) =>
      { v with
        meterAt := s.clock
        balance := b
        throttled := decide (cap ≠ 0) && decide (b < 0) }))) ∧
  (∀ (s : State) (fn : Func) (i : Nat) (v : Word), s.reaches fn i = true →
    let others := ((upto (i / 3 * 3) 3).filter (· ≠ i)).foldl (fun n j => n + (s.sreg j 0x500C).toNat % 2 ^ 11) 0
    let w := v.toNat % 2 ^ 11
    (isPf fn = false → exec (.qosFabWrite fn i v) s = .next (s.status i ctlPfOnly)) ∧
    (isPf fn = true → 1024 < others + w → exec (.qosFabWrite fn i v) s = .next (s.status i ctlOvercommit)) ∧
    (isPf fn = true → others + w ≤ 1024 → v.toNat / 2 ^ 11 = 0 → exec (.qosFabWrite fn i v) s = .next (s.setSreg i 0x500C (BitVec.ofNat 64 w)))) ∧
  (∀ (s : State) (v : DWord), s.booted = true → s.timeOff + s.clock < 2 ^ 63 →
    ∃ t, exec (.timeSet v) s = .next t ∧ t.time = max s.time v.toNat ∧ t.threads = s.threads ∧ t.ctxs = s.ctxs ∧ t.slices = s.slices) ∧
  (∀ (s : State) (i : Nat) (v : Word), s.reaches (s.pfOf i) i = true → v.toNat / 2 ^ 10 % 2 ^ 6 = 0 → v.toNat / 2 ^ 18 % 4 = 0 → v.toNat / 2 ^ 21 = 0 →
    let c := ctxKey (s.first i) (v.toNat % 2 ^ 10)
    let now := v.toNat / 2 ^ 20 % 2
    let ok := s.status i ctlOk
    (v.toNat / 2 ^ 16 % 4 = 1 →
      ((spGet s.ctxs c).isNone = true ∨ (s.ctx c).paused ≠ 0 → exec (.pause i v) s = .next (s.status i ctlBadState)) ∧
      ((spGet s.ctxs c).isSome = true → (s.ctx c).paused = 0 →
        let s1 := ok.modCtx c (fun (y : Ctx) => { y with paused := 1 + now })
        (now = 1 → exec (.pause i v) s = .next s1) ∧
        (now = 0 → exec (.pause i v) s = .next (((s1.clusters.filter (fun e => decide (e.2.ctx = c) && decide (e.2.state = .running))).map (·.1)).foldl
          (fun (a : State) k => a.stopCluster k) s1)))) ∧
    (v.toNat / 2 ^ 16 % 4 = 2 →
      ((spGet s.ctxs c).isNone = true ∨ (s.ctx c).paused = 0 → exec (.resume i v) s = .next (s.status i ctlBadState)) ∧
      ((spGet s.ctxs c).isSome = true → (s.ctx c).paused = 3 →
        exec (.resume i v) s = .next (ok.modCtx c (fun (y : Ctx) =>
          { y with
            paused := 0
            vsince := s.time }))))) ∧
  (∀ (s : State) (c : Nat), (s.ctx c).paused = 1 ∨ (s.ctx c).paused = 2 → s.pauseReady c = true →
    ∃ t, exec (.pauseComplete c) s = .next t ∧ (t.ctx c).paused = 3 ∧ t.vtime c = s.vtime c ∧ t.teams = s.teams ∧
      ∀ k, k ≠ c → spGet t.ctxs k = spGet s.ctxs k) ∧
  (∀ (s : State) (c clk : Nat), (s.ctx c).paused = 3 → ({ s with clock := clk } : State).vtime c = s.vtime c) ∧
  (∀ (s : State) (i : Nat) (v : DWord), s.reaches (s.pfOf i) i = true →
    let c := s.tmCtx i
    ((s.ctx c).paused = 3 → s.vtime c ≤ v.toNat →
      exec (.slcVtvalWrite i v) s = .next (s.modCtx c (fun (y : Ctx) => { y with vbase := v.toNat }))) ∧
    ((s.ctx c).paused ≠ 3 ∨ v.toNat < s.vtime c → exec (.slcVtvalWrite i v) s = .next (s.status i ctlBadState)) ∧
    ((s.ctx c).paused = 3 → (s.ctx c).clockCount ≤ v.toNat →
      exec (.slcCkvalWrite i v) s = .next (s.modCtx c (fun (y : Ctx) => { y with clockCount := v.toNat }))) ∧
    ((s.ctx c).paused ≠ 3 ∨ v.toNat < (s.ctx c).clockCount → exec (.slcCkvalWrite i v) s = .next (s.status i ctlBadState))) ∧
  (∀ (s : State) (v : Word), s.booted = true → v.toNat / 2 ^ 8 = 1 → v.toNat / 16 % 16 = 0 → v.toNat % 16 < 12 →
    let i := v.toNat % 16
    let s1 : State := { s with freeCtr := s.freeCtr + 1 }
    (s.sec.fwSlice ≠ none → exec (.fwupdGo v) s = .next (s.setFwSt 4)) ∧
    (s.sec.fwSlice = none → Config.firmwareSigned (s.pfreg 0x3420).toNat s.freeCtr = false → exec (.fwupdGo v) s = .next (s1.setFwSt 3)) ∧
    (s.sec.fwSlice = none → Config.firmwareSigned (s.pfreg 0x3420).toNat s.freeCtr = true → ∃ t, exec (.fwupdGo v) s = .next t ∧
      t.sec.fwSlice = some i ∧ ((spGet s.slices i).isSome = true → (t.slice i).fwBusy = true) ∧ (spRising none s.pf = true → (t.pfreg 0x3428).toNat = 1) ∧
      t.ctxs = s.ctxs ∧ t.teams = s.teams ∧ t.threads = s.threads)) ∧
  (∀ (s : State) (i : Nat), s.sec.fwSlice = some i → (s.slice i).errWait = [] →
    let s1 : State := { s with sec := { s.sec with fwSlice := none } }
    exec .fwupdComplete s = .next (((s1.modSlice i (fun (x : Slice) =>
      { x with
        fwBusy := false
        errWait := [] })).extendOpen (0x10 + i)).setFwSt 2)) ∧
  (∀ (s : State) (e : Nat) (v : Word), s.booted = true → e < 24 → v.toNat / 2 ^ 5 = 0 →
    let f := v.toNat % 16
    let old := (s.pfreg (0x3500 + 4 * e)).toNat
    (12 ≤ f ∨ s.first f ≠ f → exec (.ceOwnWrite e v) s = .next (s.setPartSt 1)) ∧
    (f < 12 → s.first f = f → v.toNat ≠ old → s.ceBusy e = true → exec (.ceOwnWrite e v) s = .next (s.setPartSt 4)) ∧
    (f < 12 → s.first f = f → v.toNat = old ∨ s.ceBusy e = false →
      exec (.ceOwnWrite e v) s = .next ((s.setPfreg (0x3500 + 4 * e) (BitVec.ofNat 64 v.toNat)).setPartSt 0)))

/-- 21 R324-R326: creating, reloading and destroying contexts, and the CODE of each refusal. R328: doorbells. 27 R405, R406: a descriptor of a pool
engine that finishes or fails; a tail reaches the ring of an owned engine only. -/
def Obligations.contexts_and_pool_engines : Prop :=
  (∀ (s : State) (i : Nat) (v : Word), s.reaches (s.pfOf i) i = true → v.toNat / 2 ^ 10 % 2 ^ 6 = 0 → v.toNat / 2 ^ 20 = 0 →
    let f := s.first i
    let c := ctxKey f (v.toNat % 2 ^ 10)
    let there := (spGet s.ctxs c).isSome
    let fails (code : Nat) : State := s.logError f 13 9 (some c) 15 code 0 0 v.toNat
    (v.toNat / 2 ^ 16 = 1 →
      (there = true → exec (.contextCreate i v) s = .next (fails 2)) ∧
      (there = false → ∀ code, s.loadContext f c true = .error code → exec (.contextCreate i v) s = .next (fails code)) ∧
      (there = false → ∀ t, s.loadContext f c true = .ok t → exec (.contextCreate i v) s = .next t)) ∧
    (v.toNat / 2 ^ 16 = 2 →
      (there = false → exec (.contextReload i v) s = .next (fails 3)) ∧
      (there = true → ∀ code, s.loadContext f c false = .error code → exec (.contextReload i v) s = .next (fails code)) ∧
      (there = true → ∀ t, s.loadContext f c false = .ok t → exec (.contextReload i v) s = .next t)) ∧
    (v.toNat / 2 ^ 16 = 3 →
      let waits := (∃ e ∈ s.grids, e.2.ctx = c ∧ e.2.nextCluster < e.2.lrec.clusters) ∨ ∃ e ∈ s.clusters, e.2.ctx = c ∧ e.2.state ≠ .running
      let used := (∃ e ∈ s.teams, e.2.ctx = c) ∨ waits ∨ s.queueNames f (v.toNat % 2 ^ 10) = true
      let s1 := (s.grids.filter (fun e => e.2.ctx = c)).foldl (fun (a : State) e => a.finishGrid e.1 e.2) s
      (there = false → exec (.contextDestroy i v) s = .next (fails 3)) ∧
      (there = true → used → exec (.contextDestroy i v) s = .next (fails 4)) ∧
      (there = true → ¬ used → exec (.contextDestroy i v) s = .next { s1 with ctxs := spDel s1.ctxs c }))) ∧
  (∀ (x : Ctx) (r : Nat),
    let y := x.withRecord r
    y.ptroot = r % 2 ^ 64 ∧ y.codebase = r / 2 ^ 64 % 2 ^ 64 ∧ y.codesize = r / 2 ^ 128 % 2 ^ 32 ∧ y.entbase = r / 2 ^ 160 % 2 ^ 64 ∧
    y.entcount = r / 2 ^ 224 % 2 ^ 9 ∧ y.savebase = r / 2 ^ 256 % 2 ^ 64 ∧ y.savesize = r / 2 ^ 320 % 2 ^ 32 ∧ y.ctl = x.ctl ∧ y.entries = x.entries ∧
    y.compmask = x.compmask ∧ y.term = x.term) ∧
  (∀ (s : State) (i q size : Nat) (v : DWord), s.reaches (.vf i) i = true → q < 16384 →
    let f := s.first i
    let d := (s.queueDesc f q).1
    let s0 := (s.queueDesc f q).2
    let s1 := s0.modSlice f (fun (x : Slice) => { x with rung := insertNew q x.rung })
    let head := d / 2 ^ 96 % 2 ^ 32
    let ahead (x : Nat) : Nat := (x + 2 ^ 32 - head) % 2 ^ 32
    let tail := v.toNat % 2 ^ 32
    let good := size = 8 ∧ v.toNat < 2 ^ 32 ∧ d / 2 ^ 50 % 2 = 1
    (¬ good → exec (.doorbell i q size v) s = .next (s1.count f diagDbell)) ∧
    (good → s0.descBad f d = true → exec (.doorbell i q size v) s = .next (s1.putDesc f q (setFld (setFld d 167 160 2) 50 50 0))) ∧
    (good → s0.descBad f d = false → 2 ^ (d / 2 ^ 51 % 2 ^ 5) < ahead tail →
      exec (.doorbell i q size v) s = .next (s1.putDesc f q (setFld (setFld d 167 160 1) 50 50 0))) ∧
    (good → s0.descBad f d = false → ahead tail ≤ 2 ^ (d / 2 ^ 51 % 2 ^ 5) →
      (ahead tail < ahead (d / 2 ^ 128 % 2 ^ 32) → exec (.doorbell i q size v) s = .next s1) ∧
      (ahead (d / 2 ^ 128 % 2 ^ 32) ≤ ahead tail → exec (.doorbell i q size v) s = .next (s1.putDesc f q (setFld d 159 128 tail))))) ∧
  (∀ (s : State) (e : Nat) (v : Word), s.booted = true → e < 24 →
    (s.ceOwner e = none → exec (.ceTailWrite e v) s = .next s) ∧
    (s.ceOwner e ≠ none → exec (.ceTailWrite e v) s = .next (s.setCe e { s.ce e with tail := v }))) ∧
  (∀ (s : State) (e f : Nat), s.ceOwner e = some f → (s.ce e).ctl.toNat / 2 ^ 8 % 2 = 1 → (s.ce e).head ≠ (s.ce e).tail →
    let x := s.ce e
    let a := x.base.toNat + 32 * (x.head.toNat % 2 ^ (x.ctl.toNat % 16))
    let stopped (t : State) (err addr : Nat) : State := t.setCe e { t.ce e with
      ctl := (t.ce e).ctl &&& 0xFFFFFEFF
      erraddr := BitVec.ofNat 64 addr
      stat := BitVec.ofNat 32 err }
    (s.backed f a = false ∨ s.inSealed a = true → exec (.ceDescriptorComplete e) s = .next (stopped s 2 a)) ∧
    (s.backed f a = true → s.inSealed a = false →
      let d := (s.homeBytes f (ctxKey f 1023) 0 a 32).1
      let s1 := (s.homeBytes f (ctxKey f 1023) 0 a 32).2.2
      let len := d / 2 ^ 128 % 2 ^ 32
      let c := ctxKey f (d / 2 ^ 168 % 2 ^ 10)
      let x1 : CeSide := { virt := d / 2 ^ 160 % 2 == 1, addr := d % 2 ^ 64, ctx := c, write := false }
      let x2 : CeSide := { virt := d / 2 ^ 161 % 2 == 1, addr := d / 2 ^ 64 % 2 ^ 64, ctx := c, write := true }
      let bad := len = 0 ∨ len % 16 ≠ 0 ∨ d / 2 ^ 162 % 2 ^ 6 ≠ 0 ∨ d / 2 ^ 178 % 2 ^ 78 ≠ 0
      ((s.homeBytes f (ctxKey f 1023) 0 a 32).2.1 ≠ 0 → exec (.ceDescriptorComplete e) s = .next (stopped s1 5 a)) ∧
      ((s.homeBytes f (ctxKey f 1023) 0 a 32).2.1 = 0 → bad → exec (.ceDescriptorComplete e) s = .next (stopped s1 1 a)) ∧
      ((s.homeBytes f (ctxKey f 1023) 0 a 32).2.1 = 0 → ¬ bad →
        let r := (cePieces x1.addr x2.addr len len 0).foldl (fun (z : CeRes × State) p =>
          match z.1 with
          | .good => z.2.cePiece f x1 x2 p.1 p.2
          | _ => z) (.good, s1)
        (r.1 = .good → exec (.ceDescriptorComplete e) s = .next (r.2.setCe e { x with head := x.head + 1 })) ∧
        (∀ err addr, r.1 = .bad err addr → exec (.ceDescriptorComplete e) s = .next (stopped r.2 err addr))))) ∧
  (∀ a b n : Nat,
    let ps := cePieces a b n n 0
    (ps.map (·.2)).sum = n ∧ (∀ p ∈ ps, 0 < p.2 ∧ p.1 + p.2 ≤ n ∧ (a + p.1) / 64 = (a + p.1 + p.2 - 1) / 64 ∧ (b + p.1) / 64 = (b + p.1 + p.2 - 1) / 64))

/-- 29 R423, R428; 30 R440, R441: the sealed data range, its flush and its diagnostics. R429-R430: worlds. R436-R439: requests of a session and changes
by a world's owner. R421, R422; 01 R36: keys, flits and ports. 13 R209; 27 R402; 29 R435: accesses of the host and of link peers. -/
def Obligations.worlds_and_links : Prop :=
  (∀ (s : State) (fn : Func) (i : Nat) (v : Word), s.reaches fn i = true →
    let n := v.toNat
    (isPf fn = false → exec (.sealSizeWrite fn i v) s = .next (s.status i ctlPfOnly) ∧ exec (.sealFlush fn i v) s = .next (s.status i ctlPfOnly)) ∧
    (isPf fn = true → s.slcState i ≠ stOpen ∨ s.worldOf i ≠ 0 → exec (.sealSizeWrite fn i v) s = .next (s.status i ctlBadState)) ∧
    (isPf fn = true → s.slcState i = stOpen → s.worldOf i = 0 → n ≤ 4096 →
      exec (.sealSizeWrite fn i v) s = .next (s.setSreg i 0x8000 (BitVec.ofNat 64 n))) ∧
    (isPf fn = true → n = 1 → exec (.sealFlush fn i v) s = .next (s.setSreg i 0x800C (BitVec.ofNat 64 (setFld (s.sreg i 0x800C).toNat 0 0 1)))) ∧
    ((s.sreg i 0x800C).toNat % 2 = 1 → exec (.sealFlushComplete i) s =
      .next ((s.sealFlushAll i).setSreg i 0x800C (BitVec.ofNat 64 (setFld (s.sreg i 0x800C).toNat 0 0 0)))) ∧
    (∀ page, paSlice (4096 * page) = i → exec (.sweepLineCommit i page) s = .next (s.sweepLine page)) ∧
    (n % 16 = 1 ∨ n % 16 = 2 →
      let cmd := if n % 16 = 1 then Instr.ctrread fn i v else .tagflip fn i v
      let st := s.dcmdStatus i n
      let la := (s.sreg i 0x8018).toNat / 64
      let results (r : Nat × Nat) : State := (s.setSreg i 0x8028 (BitVec.ofNat 64 r.1)).setSreg i 0x8030 (BitVec.ofNat 64 r.2)
      (isPf fn = false → exec cmd s = .next (s.status i ctlPfOnly)) ∧
      (isPf fn = true → st ≠ 0 → exec cmd s = .next (s.setSreg i 0x8024 (BitVec.ofNat 64 (st * 16)))) ∧
      (isPf fn = true → st = 0 → n % 16 = 1 → ∀ r, s.counterAt i la (n / 16 % 8) = some r →
        exec cmd s = .next ((results r).setSreg i 0x8024 0)) ∧
      (isPf fn = true → st = 0 → n % 16 = 1 → s.counterAt i la (n / 16 % 8) = none →
        exec cmd s = .next (((results (0, 0)).setSreg i 0x8024 0x50).tagFound la 1023 0)) ∧
      (isPf fn = true → st = 0 → n % 16 = 2 → exec cmd s = .next ((s.tagFlip i la (n / 256)).setSreg i 0x8024 0)))) ∧
  (∀ (s : State) (v : Word), s.booted = true →
    let n := v.toNat
    let f := n % 16
    let st := s.worldStatus n
    (n / 256 % 4 = 1 ∨ n / 256 % 4 = 2 → st ≠ 0 →
      exec (if n / 256 % 4 = 1 then .worldCreate v else .worldDestroy v) s = .next (s.setWorldSt st)) ∧
    (n / 256 % 4 = 1 → st = 0 → ∃ t, exec (.worldCreate v) s = .next t ∧ spGet t.sec.worlds f = some { num := s.sec.nextWorld } ∧
      t.sec.nextWorld = s.sec.nextWorld + 1 ∧ (∀ g, g ≠ f → spGet t.sec.worlds g = spGet s.sec.worlds g) ∧ t.mem = s.mem ∧ t.ctxs = s.ctxs ∧
      (∀ j ∈ s.partSlices f, (t.slice j).sealing = {})) ∧
    (n / 256 % 4 = 2 → st = 0 → ∃ t, exec (.worldDestroy v) s = .next t ∧ t.mem = s.mem ∧ t.ctxs = s.ctxs ∧
      (spRising none s.sec.worlds = true → spGet t.sec.worlds f = none) ∧ (∀ w, spGet s.sec.worlds f = some w →
        (∀ j ∈ s.partSlices f, (t.slice j).sealing = {} ∧ ∀ e ∈ (t.slice j).deep, e.2.world ≠ w.num) ∧
        (∀ e ∈ t.sec.sessions, e.2.world ≠ some w.num))) ∧
    (st = 1 ↔ f < 12 ∧ s.first f = f ∧ n / 16 % 16 = 0 ∧ n / 2 ^ 10 = 0 ∧ s.slcState f ≠ stOpen)) ∧
  (∀ s : State, s.booted = false → ∃ t, exec .powerUp s = .next t ∧ t.sec.identity = Config.mldsaKeys Config.fusedSecret ∧ t.sec.chain.length = 4 ∧
    t.sec.chain.getLast?.map (fun c => (c.subject, c.issuer)) = some (t.sec.aliasKeys.pub, t.sec.identity.pub) ∧
    (t.sec.chain.take 2) = [Config.rootCert, Config.modelCert]) ∧
  (∀ (s : State) (q : SpdmReq), s.sec.up = true → ∃ t r, exec (.spdmRequest q) s = .next t ∧ t.freeCtr = s.freeCtr + 1 ∧
    t.sec.replies = s.sec.replies ++ [r] ∧ r.digests = s.measured q ∧ (q = .getCertificate → r.certs = s.sec.chain) ∧
    r.sig = (if spdmSigns q then
      some (Config.mldsaSign s.sec.aliasKeys.secret (r.digests.foldl (fun a d => Config.shake256 a d.toNat) r.body)) else none) ∧
    t.mem = s.mem ∧ t.slices = s.slices ∧ t.ctxs = s.ctxs ∧
    (∀ n, q = .endSession n → spRising none s.sec.sessions = true → spGet t.sec.sessions n = none) ∧
    (∀ n f w x, q = .openWorld n f → spGet s.sec.sessions n = some x → spGet s.sec.worlds f = some w → x.finished = true → x.world = none →
      w.session = none → spGet t.sec.worlds f = some { w with session := some n } ∧ spGet t.sec.sessions n = some { x with world := some w.num })) ∧
  (∀ (s : State) (n f : Nat) (x : Session) (w : World), spGet s.sec.sessions n = some x → spGet s.sec.worlds f = some w →
    (∀ chg, x.world ≠ some w.num → ∃ t r, exec (.worldSessionChange n f chg) s = .next t ∧ t.sec.replies = s.sec.replies ++ [r] ∧ r.ok = false ∧
      t.sec.worlds = s.sec.worlds ∧ t.sec.measurements = s.sec.measurements ∧ t.ctxs = s.ctxs ∧ t.mem = s.mem) ∧
    (x.world = some w.num →
      (∀ c mask, c < 1024 → (spGet s.ctxs (ctxKey f c)).isSome = true →
        let z := s.wholeContext (ctxKey f c)
        ((s.flashClear z).tinvOpen z = true → exec (.worldSessionChange n f (.compMask c mask)) s = .next (s.flashClear z)) ∧
        ((s.flashClear z).tinvOpen z = false → ∃ t, exec (.worldSessionChange n f (.compMask c mask)) s = .next t ∧
        (t.ctx (ctxKey f c)).compmask = mask ∧ (∀ core, ∀ e ∈ (t.core core).tlb, e.ctx ≠ ctxKey f c) ∧ t.mem = s.mem ∧
        (∀ k, k ≠ ctxKey f c → spGet t.ctxs k = spGet s.ctxs k) ∧ ∃ r, t.sec.replies = s.sec.replies ++ [r] ∧ r.ok = true)) ∧
      (∀ (id : Nat) (v : Word), 0 < id → id < 256 → ∃ t, exec (.worldSessionChange n f (.gate id v)) s = .next t ∧
        spGet t.sec.worlds f = some { w with gates := spWrite 0 w.gates id (BitVec.ofNat 32 (v.toNat % 2 ^ 18)) } ∧ t.ctxs = s.ctxs ∧ t.mem = s.mem))) ∧
  (∀ (s : State) (l : LinkId) (lines : List Nat), linkReal l = true → (spGet s.sec.linkKeys (linkNo l)).isSome = true →
    spRead 0 s.sec.flits (linkNo l) + 1 < 2 ^ 48 →
    let s1 : State := { s with sec := { s.sec with flits := spWrite 0 s.sec.flits (linkNo l) (spRead 0 s.sec.flits (linkNo l) + 1) } }
    exec (.linkFlitReceive l true lines) s = .next s1 ∧
    exec (.linkFlitReceive l false lines) s = .next ((lines.foldl (fun (a : State) la => a.poisonLine la) s1).logError (linkSlice l) 11 8 none 15 0 0 0 0) ∧
    ∃ t, exec (.linkKeyChange l) s = .next t ∧ spGet t.sec.linkKeys (linkNo l) = some s.nextId ∧ t.mem = s.mem ∧ t.slices = s.slices ∧
      (spRising none s.sec.flits = true → spRead 0 t.sec.flits (linkNo l) = 0)) ∧
  (∀ (s : State) (p lanes : Nat), s.presents (s.pfOf p) p = true → s.slcState p ≠ stOff → 0 < lanes → lanes ≤ 8 → (spGet s.slices p).isSome = true →
    spRising none (s.slice p).regs = true →
    (∃ t, exec (.linkUpChange p true lanes) s = .next t ∧ (t.slice p).linkUp = true ∧ (t.sreg p 0xB000).toNat = 1 + lanes * 2 ∧
      spGet t.sec.linkKeys (8 + 2 * p) = some s.nextId ∧ spGet t.sec.linkKeys (9 + 2 * p) = some (s.nextId + 1)) ∧
    (∃ t, exec (.linkUpChange p false lanes) s = .next t ∧ (t.slice p).linkUp = false ∧ (t.sreg p 0xB000).toNat = 0)) ∧
  (∀ (s : State) (pa size : Nat) (wr : Option (List Byte)), s.booted = true →
    let n := match wr with | some l => l.length | none => size
    0 < n → isHostPa pa = true ∨ isDevPa pa = true ∧ isDevPa (pa + n - 1) = true →
    (s.homeOpen pa = false ∨ s.homeOpen (pa + n - 1) = false → exec (.hostAccess pa wr size) s = .next s) ∧
    (s.homeOpen pa = true → s.homeOpen (pa + n - 1) = true →
      (s.meetsSealed pa n = true → exec (.hostAccess pa wr size) s = .next { s with answer := (1, 0) }) ∧
      (s.meetsSealed pa n = false → wr = none → exec (.hostAccess pa wr size) s = .next (s.serveRead pa size)) ∧
      (∀ l, s.meetsSealed pa n = false → wr = some l → exec (.hostAccess pa wr size) s = .next (s.serveWrite pa l)))) ∧
  (∀ (s : State) (p off : Nat) (acc : LinkAcc), (s.slice p).linkUp = true → 0 < (linkNeeds acc).1 →
    let n := (linkNeeds acc).1
    let bit := (linkNeeds acc).2
    let pa := (s.sreg p 0xB008).toNat + off
    let inPart (a : Nat) : Bool := isDevPa a && (s.partSlices (s.first p)).contains (paSlice a)
    let good := off + n ≤ (s.sreg p 0xB010).toNat * 0x200000 ∧ (s.sreg p 0xB014).toNat / 2 ^ bit % 2 = 1 ∧ inPart pa = true ∧ inPart (pa + n - 1) = true
    (¬ good → exec (.linkInboundAccess p off acc) s = .next { s with answer := (1, 0) }) ∧
    (good → s.meetsSealed pa n = true → exec (.linkInboundAccess p off acc) s = .next { s with answer := (2, 0) }) ∧
    (good → s.meetsSealed pa n = false → s.homeOpen pa = true → s.homeOpen (pa + n - 1) = true →
      (∀ k, acc = .read k → exec (.linkInboundAccess p off acc) s = .next (s.serveRead pa k)) ∧
      (∀ l, acc = .write l → exec (.linkInboundAccess p off acc) s = .next (s.serveWrite pa l)) ∧
      (∀ op x y, acc = .atomic op x y → pa % n ≠ 0 → exec (.linkInboundAccess p off acc) s = .next { s with answer := (1, 0) }) ∧
      (∀ op x y old s1, acc = .atomic op x y → pa % n = 0 →
        s.rmwGlb { core := coreKey (s.first p) 0, team := 0, ctx := ctxKey (s.first p) 1023, first := s.first p } op 1
          (x.toNat % 2 ^ (8 * n) + y.toNat * 2 ^ (8 * n)) pa 0 0 false = (some old, s1) →
        exec (.linkInboundAccess p off acc) s = .next { s1 with answer := (0, old) }))) ∧
  (∀ (s : State) (pa n : Nat), isDevPa pa = false → (s.serveRead pa n).answer = (0, Memory.read s.mem pa n) ∧ (s.serveRead pa n).mem = s.mem) ∧
  (∀ (s : State) (pa : Nat) (l : List Byte), isDevPa pa = false → Memory.wf s.mem = true → Memory.wf (s.serveWrite pa l).mem = true ∧
    (∀ i < l.length, Memory.get (s.serveWrite pa l).mem (pa + i) = l.getD i 0) ∧
    ∀ a, a < pa ∨ pa + l.length ≤ a → Memory.get (s.serveWrite pa l).mem a = Memory.get s.mem a)

/-! The machine as a whole. -/

/-- 00 R8; 27 R397; 21 R324; 25 R384, R393; 11 R170, R171: the values that reset and creation give; memory in its form, DRAINED right. -/
def Obligations.reset_values : Prop :=
  let s := State.reset
  s.time = 0 ∧ (s.pfreg 0x3000).toNat = 1200 ∧ (s.pfreg 0x3404).toNat = 0 ∧ Memory.wf s.mem = true ∧ DrainRight s ∧
  (∀ i < 12, (s.sreg i 0).toNat = 0x1001 + i * 256 ∧ s.slcState i = stOpen ∧ s.first i = i ∧ s.psize i = 1 ∧ (s.sreg i 8).toNat = 0 ∧
    (s.sreg i 0x1000).toNat = 0 ∧ (s.sreg i 0x1008).toNat = 0 ∧ (s.sreg i 0x1018).toNat = 95 ∧ (s.sreg i 0x101C).toNat = 262144 ∧
    (s.sreg i 0x1020).toNat = 50000 ∧ ∀ n < 8, s.mon i n 0 = 0 ∧ s.mon i n 4 = 0xFFFFFFFF ∧ s.mon i n 8 = 0) ∧
  (let x : Ctl := {}
   x.memdef = 0x00040000 ∧ x.fpdef = 1 ∧ x.trapbase = 0xFFFFFFFF ∧ x.bintime = 1024 ∧ x.wdogBar = 0x04000000 ∧ x.wdogHang = 0x40000000 ∧
   x.wdogRos = 0x01000000 ∧ x.rastthr = 0x400 ∧ x.feedbase = 0 ∧ x.feedsize = 0 ∧ x.feedhead = 0 ∧ x.feedtail = 0 ∧ x.cpytab = 0 ∧ x.restab = 0 ∧
   x.migwait = 65536 ∧ x.pairwait = 4096) ∧
  (let t : Thread := {}
   t.link = 0 ∧ t.seed = 0 ∧ t.trapcode = 0 ∧ t.trappc = 0 ∧ t.trapaddr = 0 ∧ t.trapaux = 0 ∧ t.handler = false)

/-- 05 R80, R110; 03 R46-R49: the words at the PC that the core may read and that decode are the instruction fetched; a step whose choice issues
some threads there forms the set and runs exec of that instruction on it, with slot, token, entry and stamp noted before and holds, progress and
DRAINED settled after, which touch no thread, group, team or memory; an event chosen is run the same way. With an empty agenda the events that are
due come first, then issue sets in order, then the next clock (the model's schedule, log 1). -/
def Obligations.step_runs_decoded : Prop :=
  (∀ (s s1 : State) (core c x : Nat) (pc : Word) (e : TlbEnt), pc.toNat < (s.ctx c).codesize → s.tlbFind core c (s.codeVa c pc) false = some e →
    leafSys e.leaf = false → leafX e.leaf = true → s.homeBytes (ctxFirst c) c (leafComp e.leaf % 8) (e.pa (s.codeVa c pc)) 4 (s.codeVa c pc) = (x, 0, s1) →
    s.fetchWord core c pc = (.ok (BitVec.ofNat 32 x), s1)) ∧
  (∀ (s s1 : State) (gid n : Nat) (pc : Word) (ws : List Word) (i : Instr), 1 ≤ n → n ≤ 4 →
    let t := s.team (teamOf gid)
    let sp := spaceOf ((s.ctlFor t.ctx gid).memdef.toNat / 2 ^ 15 % 8)
    wordsFetched s t.core t.ctx pc n = some (ws, s1) → decode sp ws = .ok (i, n) → (∀ k, 0 < k → k < n → Unfinished sp (ws.take k)) →
    s.fetch gid pc = (.instr i n (instrWord ws), s1)) ∧
  (∀ (s s1 : State) (team len tid since : Nat) (pc word : Word) (tids : List Nat) (more : List (Nat × Nat)) (rest : List Choice) (i : Instr),
    s.agenda = .issue team pc tids :: rest →
    let s0 : State := { s with agenda := rest }
    let there := s0.standingAt team pc
    there = (tid, since) :: more → (∃ t ∈ tids, ∃ c, (t, c) ∈ there) → s0.fetch (gidOf tid) pc = (.instr i len word, s1) →
    let fetched : Issue := { team := team, pc := pc, len := len, word := word }
    let set := issueSet (s1.unheld i fetched there) tids (perGroup i word)
    let core := (s0.team team).core
    let ctx := (s0.team team).ctx
    set ≠ [] → (s1.core core).slots.room (clsOf word) = true → (s1.core core).admits team pc = true →
    s1.yields core ctx team pc (clsOf word) = false →
    let s2 : State := { s1 with cur := { fetched with tids := set } }
    let s3 := ((s2.noteIssue core ctx team pc (clsOf word) set).noteFetch set pc len).startAcquires set
    ∀ t, exec i s3 = .next t → step s = .next (s3.settleStep t)) ∧
  (∀ (s t : State) (i : Instr) (rest : List Choice), s.agenda = .event i :: rest →
    exec i { s with agenda := rest } = .next t → step s = .next (State.settleStep { s with agenda := rest } t)) ∧
  (∀ s : State, s.booted = true → s.agenda = [] →
    (∀ i rest t, s.plan.getD s.ownEvents = i :: rest → exec i { s with plan := some rest } = .next t →
      step s = .next (State.settleStep { s with plan := some rest } t)) ∧
    (∀ c, s.plan.getD s.ownEvents = [] → s.nextIssue = some c → step s = step { s with plan := some [], agenda := [c] }) ∧
    (s.plan.getD s.ownEvents = [] → s.nextIssue = none → step s = .next (s.settleStep s.tick))) ∧
  (∀ s t : State, (s.settleStep t).threads = t.threads ∧ (s.settleStep t).groups = t.groups ∧ (s.settleStep t).teams = t.teams ∧
    (s.settleStep t).mem = t.mem ∧ (s.settleStep t).cores = t.cores ∧ (s.settleStep t).loads = t.loads ∧ (s.settleStep t).stores = t.stores)

/-- 05 R80-R107: the words of some instructions, bit by bit from the encodings, decode to them. -/
def Obligations.decoded_words : Prop :=
  decode .glb [BitVec.ofNat 32 (5 * 2 ^ 15 + 6 * 2 ^ 8 + 7 * 2)] = .ok (.addB32 0 (.v 5) (.v 6) (.v 7), 1) ∧
  decode .glb [BitVec.ofNat 32 (0x01 * 2 ^ 25 + 3 * 2 ^ 22 + 8 * 2 ^ 15 + 127 * 2 ^ 8 + 12 * 2 + 1), 0x11, 0x22] =
    .ok (.subB64 3 (.v 8) (.lit2 0x11 0x22) (.v 12), 3) ∧
  decode .glb [BitVec.ofNat 32 (0x18 * 2 ^ 25 + 9 * 2 ^ 15 + 0x7FFF)] = .ok (.movi 0 (.v 9) 0x7FFF, 1) ∧
  decode .glb [BitVec.ofNat 32 (0x3F * 2 ^ 25 + 1 * 2 ^ 23 + 2 * 2 ^ 20), BitVec.ofNat 32 (0x1B * 2 ^ 25 + 1 * 2 ^ 15 + 2 * 2 ^ 8 + 3 * 2)] =
    .ok (.faddF32 (some { rnd := .rz, sat := false, ftz := false, c := none }) 0 (.v 1) (.v 2) (.v 3), 2) ∧
  decode .glb [BitVec.ofNat 32 (0x30 * 2 ^ 25 + 2 * 2 ^ 18 + 20 * 2 ^ 11 + 4 * 2 ^ 4 + 4)] = .ok (.ld .none 0 2 (.v 20) (.v 4) .b32, 1) ∧
  decode .glb [BitVec.ofNat 32 (2 ^ 31 + 0x23 * 2 ^ 25 + 1 * 2 ^ 22)] = .ok (.rte 1, 1) ∧
  decode .glb [BitVec.ofNat 32 (2 ^ 31 + 0x10 * 2 ^ 25 + 4 * 2 ^ 15)] = .ok (.join 0 4, 1)

/-- 05 R80-R107: every well-formed instruction is what the decoder reads from its words, with every operand at every value, whatever words follow. -/
def Obligations.encode_decode : Prop :=
  ∀ (i : Instr) (sp : Space) (rest : List Word), i.wf sp = true → encode i ≠ [] → decode sp (encode i ++ rest) = .ok (i, (encode i).length)

/-- 05 R80-R108: what the decoder reads is well formed, takes one to four words, and is encoded by those very words: no two encodings mean the same,
and no unused bit is dropped. -/
def Obligations.decode_encode : Prop :=
  ∀ (sp : Space) (ws : List Word) (i : Instr) (n : Nat), decode sp ws = .ok (i, n) →
    i.wf sp = true ∧ 1 ≤ n ∧ n ≤ 4 ∧ n ≤ ws.length ∧ encode i = ws.take n

/-- 27 R397, R400: every step keeps DRAINED right: of each partition in DRAIN it shows whether its teams are saved or gone and its engines at rest. -/
def Obligations.drained_invariant : Prop :=
  ∀ s t : State, DrainRight s → step s = .next t → DrainRight t
end

