-- ==== Sys2Proof/Laws/Sparse.lean ====
section
/-! SUPPORT. Laws of finite maps as sorted lists: read after write, and the canonical form kept. -/

namespace Sys2Proof.Machine

variable {α : Type}

@[simp] theorem spGet_spPut_self (m : Sp α) (k : Nat) (v : α) : spGet (spPut m k v) k = some v := by
  induction m with
  | nil => simp [spPut, spGet]
  | cons e r ih =>
    obtain ⟨j, w⟩ := e
    simp only [spPut]
    split
    · simp [spGet]
    · split
      · simp [spGet]
      · rename_i h1 h2
        simp [spGet, h2, h1, ih]

theorem spGet_spPut_ne (m : Sp α) {k q : Nat} (v : α) (h : q ≠ k) : spGet (spPut m k v) q = spGet m q := by
  induction m with
  | nil =>
    simp only [spPut, spGet]
    split
    · omega
    · split <;> rfl
  | cons e r ih =>
    obtain ⟨j, w⟩ := e
    simp only [spPut]
    split
    · rename_i h1
      simp only [spGet]
      split
      · omega
      · split
        · split
          · omega
          · split
            · rfl
            · omega
        · rfl
    · split
      · rename_i h1 h2
        subst h2
        simp [spGet, Ne.symm h]
      · simp only [spGet, ih]

theorem spPut_same (m : Sp α) {k : Nat} {v : α} (h : spGet m k = some v) : spPut m k v = m := by
  induction m with
  | nil => simp [spGet] at h
  | cons e r ih =>
    obtain ⟨j, w⟩ := e
    simp only [spGet] at h
    simp only [spPut]
    split at h
    · rename_i h1
      subst h1
      simp_all
    · rename_i h1
      split at h
      · simp at h
      · rename_i h2
        simp [h2, h1, ih h]

@[simp] theorem spPut_spPut (m : Sp α) (k : Nat) (v w : α) : spPut (spPut m k v) k w = spPut m k w := by
  induction m with
  | nil => simp [spPut]
  | cons e r ih =>
    obtain ⟨j, u⟩ := e
    simp only [spPut]
    split
    · simp [spPut]
    · split
      · simp [spPut]
      · rename_i h1 h2
        simp [spPut, h1, h2, ih]

/-- A fold of writes leaves other keys alone. -/
theorem spGet_foldl_ne (ts : List Nat) (f : Nat → α) (m : Sp α) {q : Nat} (h : q ∉ ts) :
    spGet (ts.foldl (fun m t => spPut m t (f t)) m) q = spGet m q := by
  induction ts generalizing m with
  | nil => rfl
  | cons t r ih =>
    simp only [List.mem_cons, not_or] at h
    simp only [List.foldl_cons]
    rw [ih _ h.2, spGet_spPut_ne _ _ h.1]

theorem spGet_foldl_mem (ts : List Nat) (f : Nat → α) (m : Sp α) {q : Nat} (h : q ∈ ts) :
    spGet (ts.foldl (fun m t => spPut m t (f t)) m) q = some (f q) := by
  induction ts generalizing m with
  | nil => simp at h
  | cons t r ih =>
    simp only [List.foldl_cons]
    by_cases hr : q ∈ r
    · exact ih _ hr
    · have : q = t := by simpa [hr] using h
      subst this
      rw [spGet_foldl_ne _ _ _ hr]
      simp

/-! Maps with a default value. -/

theorem spRising_lo {lo lo' : Option Nat} (m : Sp α) (h : spRising lo m = true)
    (hl : ∀ l', lo' = some l' → ∃ l, lo = some l ∧ l' ≤ l) : spRising lo' m = true := by
  cases m with
  | nil => rfl
  | cons e r =>
    obtain ⟨k, v⟩ := e
    simp only [spRising, Bool.and_eq_true] at h ⊢
    refine ⟨?_, h.2⟩
    cases lo' with
    | none => rfl
    | some l' =>
      obtain ⟨l, rfl, hle⟩ := hl l' rfl
      have := h.1
      simp only [decide_eq_true_eq] at this ⊢
      omega

theorem spRising_spPut (m : Sp α) (lo : Option Nat) (k : Nat) (v : α) (h : spRising lo m = true)
    (hk : ∀ l, lo = some l → l < k) : spRising lo (spPut m k v) = true := by
  induction m generalizing lo with
  | nil =>
    simp only [spPut, spRising, Bool.and_true]
    cases lo with
    | none => rfl
    | some l => simpa using hk l rfl
  | cons e r ih =>
    obtain ⟨j, w⟩ := e
    simp only [spRising, Bool.and_eq_true] at h
    simp only [spPut]
    split
    · rename_i h1
      simp only [spRising, Bool.and_eq_true]
      refine ⟨?_, by simpa using h1, h.2⟩
      cases lo with
      | none => rfl
      | some l => simpa using hk l rfl
    · split
      · rename_i h1 h2
        subst h2
        simp only [spRising, Bool.and_eq_true]
        exact h
      · rename_i h1 h2
        simp only [spRising, Bool.and_eq_true]
        refine ⟨h.1, ih _ h.2 ?_⟩
        intro l hl
        simp only [Option.some.injEq] at hl
        omega

theorem spRising_spDel (m : Sp α) (lo : Option Nat) (k : Nat) (h : spRising lo m = true) : spRising lo (spDel m k) = true := by
  induction m generalizing lo with
  | nil => rfl
  | cons e r ih =>
    obtain ⟨j, w⟩ := e
    have h' := h
    simp only [spRising, Bool.and_eq_true] at h
    simp only [spDel]
    split
    · refine spRising_lo r h.2 ?_
      intro l hl
      subst hl
      refine ⟨j, rfl, ?_⟩
      have := h.1
      simp only [decide_eq_true_eq] at this
      omega
    · split
      · exact h'
      · simp only [spRising, Bool.and_eq_true]
        exact ⟨h.1, ih _ h.2⟩

theorem all_spDel (m : Sp α) (k : Nat) (q : Nat × α → Bool) (h : m.all q = true) : (spDel m k).all q = true := by
  induction m with
  | nil => rfl
  | cons e r ih =>
    obtain ⟨j, w⟩ := e
    simp only [List.all_cons, Bool.and_eq_true] at h
    simp only [spDel]
    split
    · exact h.2
    · split
      · simp [h.1, h.2]
      · simp [h.1, ih h.2]

theorem all_spPut (m : Sp α) (k : Nat) (v : α) (q : Nat × α → Bool) (h : m.all q = true) (hv : q (k, v) = true) :
    (spPut m k v).all q = true := by
  induction m with
  | nil => simp [spPut, hv]
  | cons e r ih =>
    obtain ⟨j, w⟩ := e
    have h' := h
    simp only [List.all_cons, Bool.and_eq_true] at h
    simp only [spPut]
    split
    · simp only [List.all_cons, Bool.and_eq_true]
      exact ⟨hv, h.1, h.2⟩
    · split
      · simp only [List.all_cons, Bool.and_eq_true]
        exact ⟨hv, h.2⟩
      · simp only [List.all_cons, Bool.and_eq_true]
        exact ⟨h.1, ih h.2⟩

theorem spWf_spWrite [DecidableEq α] (d : α) (m : Sp α) (k : Nat) (v : α) (h : spWf d m = true) : spWf d (spWrite d m k v) = true := by
  simp only [spWf, Bool.and_eq_true] at h ⊢
  simp only [spWrite]
  split
  · exact ⟨spRising_spDel _ _ _ h.1, all_spDel _ _ _ h.2⟩
  · rename_i hv
    exact ⟨spRising_spPut _ _ _ _ h.1 (by simp), all_spPut _ _ _ _ h.2 (by simpa using hv)⟩

theorem spGet_spDel_ne (m : Sp α) {k q : Nat} (h : q ≠ k) (hr : spRising none m = true) : spGet (spDel m k) q = spGet m q := by
  have key : ∀ (lo : Option Nat), spRising lo m = true → spGet (spDel m k) q = spGet m q := by
    clear hr
    induction m with
    | nil => intros; rfl
    | cons e r ih =>
      obtain ⟨j, w⟩ := e
      intro lo hr
      simp only [spRising, Bool.and_eq_true] at hr
      simp only [spDel]
      split
      · rename_i h1
        subst h1
        simp only [spGet]
        rw [if_neg (Ne.symm h)]
        split
        · rename_i hq
          -- every key of r is above j
          cases r with
          | nil => rfl
          | cons e' r' =>
            obtain ⟨j', w'⟩ := e'
            have hj := hr.2
            simp only [spRising, Bool.and_eq_true, decide_eq_true_eq] at hj
            simp only [spGet]
            rw [if_neg (by omega), if_pos (by omega)]
        · rfl
      · split
        · rfl
        · simp only [spGet]
          rw [ih _ hr.2]
  exact key none hr

theorem spGet_spDel_self (m : Sp α) (k : Nat) (hr : spRising none m = true) : spGet (spDel m k) k = none := by
  have key : ∀ (lo : Option Nat), spRising lo m = true → spGet (spDel m k) k = none := by
    clear hr
    induction m with
    | nil => intros; rfl
    | cons e r ih =>
      obtain ⟨j, w⟩ := e
      intro lo hr
      simp only [spRising, Bool.and_eq_true] at hr
      simp only [spDel]
      split
      · rename_i h1
        subst h1
        cases r with
        | nil => rfl
        | cons e' r' =>
          obtain ⟨j', w'⟩ := e'
          have hj := hr.2
          simp only [spRising, Bool.and_eq_true, decide_eq_true_eq] at hj
          simp only [spGet]
          rw [if_neg (by omega), if_pos (by omega)]
      · split
        · rename_i h1 h2
          simp only [spGet]
          rw [if_neg h1, if_pos h2]
        · rename_i h1 h2
          simp only [spGet]
          rw [if_neg h1, if_neg h2, ih _ hr.2]
  exact key none hr

/-- Read after write of a canonical map. -/
theorem spRead_spWrite_self [DecidableEq α] (d : α) (m : Sp α) (k : Nat) (v : α) (hm : spWf d m = true) :
    spRead d (spWrite d m k v) k = v := by
  simp only [spWf, Bool.and_eq_true] at hm
  simp only [spRead, spWrite]
  split
  · rename_i hv
    rw [spGet_spDel_self _ _ hm.1]
    simpa using hv.symm
  · simp

theorem spRead_spWrite_ne [DecidableEq α] (d : α) (m : Sp α) {k q : Nat} (v : α) (h : q ≠ k) (hm : spWf d m = true) :
    spRead d (spWrite d m k v) q = spRead d m q := by
  simp only [spWf, Bool.and_eq_true] at hm
  simp only [spRead, spWrite]
  split
  · rw [spGet_spDel_ne _ h hm.1]
  · rw [spGet_spPut_ne _ _ h]

end Sys2Proof.Machine
end

