-- ==== Sys2Proof/Laws/Cells.lean ====
section
/-! SUPPORT. Every operation on memory keeps its canonical form (log 3), and the memory of reset has it. -/

namespace Sys2Proof.Machine

theorem Memory.wf_set (m : Memory) (a : Nat) (b : Byte) (h : Memory.wf m = true) : Memory.wf (Memory.set m a b) = true :=
  spWf_spWrite _ m a b h

theorem Memory.wf_write (n : Nat) : ∀ (m : Memory) (a v : Nat), Memory.wf m = true → Memory.wf (Memory.write m a n v) = true := by
  induction n with
  | zero => exact fun _ _ _ h => h
  | succ k ih => exact fun m a v h => ih _ _ _ (Memory.wf_set m a _ h)

theorem Memory.wf_setLine (m : Memory) (la : Nat) (d : BitVec 512) (mask : BitVec 64) (h : Memory.wf m = true) :
    Memory.wf (Memory.setLine m la d mask) = true := by
  unfold Memory.setLine
  generalize List.range 64 = l
  induction l generalizing m with
  | nil => exact h
  | cons i r ih =>
    simp only [List.foldl_cons]
    apply ih
    split
    · exact Memory.wf_set _ _ _ h
    · exact h

theorem spRising_filter {α : Type} (q : Nat × α → Bool) (m : Sp α) (lo : Option Nat) (h : spRising lo m = true) :
    spRising lo (m.filter q) = true := by
  have low : ∀ (m : Sp α) (a : Option Nat) (k : Nat), (∀ l, a = some l → l < k) → spRising (some k) m = true → spRising a m = true := by
    intro m a k hk hm
    cases m with
    | nil => rfl
    | cons e r =>
      simp only [spRising, Bool.and_eq_true, decide_eq_true_eq] at hm ⊢
      refine ⟨?_, hm.2⟩
      cases a with
      | none => rfl
      | some l => simpa using Nat.lt_trans (hk l rfl) hm.1
  induction m generalizing lo with
  | nil => rfl
  | cons e r ih =>
    simp only [spRising, Bool.and_eq_true] at h
    simp only [List.filter_cons]
    split
    · simp only [spRising, Bool.and_eq_true]
      exact ⟨h.1, ih _ h.2⟩
    · apply low _ _ e.1 _ (ih _ h.2)
      intro l hl
      subst hl
      simpa using h.1

/-- Regions that lose their contents: what is left is in form. -/
theorem Memory.wf_filter (m : Memory) (q : Host.Cell → Bool) (h : Memory.wf m = true) : Memory.wf (List.filter q m) = true := by
  simp only [Memory.wf, spWf, Bool.and_eq_true] at h ⊢
  refine ⟨spRising_filter q m none h.1, ?_⟩
  have := h.2
  simp only [List.all_eq_true, List.mem_filter] at this ⊢
  exact fun x hx => this x hx.1

theorem reset_mem_wf : Memory.wf State.reset.mem = true := rfl

end Sys2Proof.Machine
end

