-- ==== Sys2Proof/Laws/State.lean ====
section
/-! SUPPORT. What each update of the state leaves alone: one lemma for each update and field, and what it makes of the field it changes. -/

namespace Sys2Proof.Machine

/-! Update of one Thread. -/

@[simp] theorem setThread_threads (s : State) (k : Nat) (x : Thread) : (s.setThread k x).threads = spPut s.threads k x := rfl
@[simp] theorem setThread_clock (s : State) (k : Nat) (x : Thread) : (s.setThread k x).clock = s.clock := rfl
@[simp] theorem setThread_plan (s : State) (k : Nat) (x : Thread) : (s.setThread k x).plan = s.plan := rfl
@[simp] theorem setThread_agenda (s : State) (k : Nat) (x : Thread) : (s.setThread k x).agenda = s.agenda := rfl
@[simp] theorem setThread_cur (s : State) (k : Nat) (x : Thread) : (s.setThread k x).cur = s.cur := rfl
@[simp] theorem setThread_freeCtr (s : State) (k : Nat) (x : Thread) : (s.setThread k x).freeCtr = s.freeCtr := rfl
@[simp] theorem setThread_nextId (s : State) (k : Nat) (x : Thread) : (s.setThread k x).nextId = s.nextId := rfl
@[simp] theorem setThread_booted (s : State) (k : Nat) (x : Thread) : (s.setThread k x).booted = s.booted := rfl
@[simp] theorem setThread_failedHalves (s : State) (k : Nat) (x : Thread) : (s.setThread k x).failedHalves = s.failedHalves := rfl
@[simp] theorem setThread_failedFronts (s : State) (k : Nat) (x : Thread) : (s.setThread k x).failedFronts = s.failedFronts := rfl
@[simp] theorem setThread_recordSigned (s : State) (k : Nat) (x : Thread) : (s.setThread k x).recordSigned = s.recordSigned := rfl
@[simp] theorem setThread_fusedHalves (s : State) (k : Nat) (x : Thread) : (s.setThread k x).fusedHalves = s.fusedHalves := rfl
@[simp] theorem setThread_fusedFronts (s : State) (k : Nat) (x : Thread) : (s.setThread k x).fusedFronts = s.fusedFronts := rfl
@[simp] theorem setThread_bootFails (s : State) (k : Nat) (x : Thread) : (s.setThread k x).bootFails = s.bootFails := rfl
@[simp] theorem setThread_bifurcated (s : State) (k : Nat) (x : Thread) : (s.setThread k x).bifurcated = s.bifurcated := rfl
@[simp] theorem setThread_timeOff (s : State) (k : Nat) (x : Thread) : (s.setThread k x).timeOff = s.timeOff := rfl
@[simp] theorem setThread_msix (s : State) (k : Nat) (x : Thread) : (s.setThread k x).msix = s.msix := rfl
@[simp] theorem setThread_mem (s : State) (k : Nat) (x : Thread) : (s.setThread k x).mem = s.mem := rfl
@[simp] theorem setThread_memPoison (s : State) (k : Nat) (x : Thread) : (s.setThread k x).memPoison = s.memPoison := rfl
@[simp] theorem setThread_pf (s : State) (k : Nat) (x : Thread) : (s.setThread k x).pf = s.pf := rfl
@[simp] theorem setThread_ces (s : State) (k : Nat) (x : Thread) : (s.setThread k x).ces = s.ces := rfl
@[simp] theorem setThread_sec (s : State) (k : Nat) (x : Thread) : (s.setThread k x).sec = s.sec := rfl
@[simp] theorem setThread_whet (s : State) (k : Nat) (x : Thread) : (s.setThread k x).whet = s.whet := rfl
@[simp] theorem setThread_slices (s : State) (k : Nat) (x : Thread) : (s.setThread k x).slices = s.slices := rfl
@[simp] theorem setThread_cores (s : State) (k : Nat) (x : Thread) : (s.setThread k x).cores = s.cores := rfl
@[simp] theorem setThread_ctxs (s : State) (k : Nat) (x : Thread) : (s.setThread k x).ctxs = s.ctxs := rfl
@[simp] theorem setThread_grids (s : State) (k : Nat) (x : Thread) : (s.setThread k x).grids = s.grids := rfl
@[simp] theorem setThread_clusters (s : State) (k : Nat) (x : Thread) : (s.setThread k x).clusters = s.clusters := rfl
@[simp] theorem setThread_teams (s : State) (k : Nat) (x : Thread) : (s.setThread k x).teams = s.teams := rfl
@[simp] theorem setThread_groups (s : State) (k : Nat) (x : Thread) : (s.setThread k x).groups = s.groups := rfl
@[simp] theorem setThread_loads (s : State) (k : Nat) (x : Thread) : (s.setThread k x).loads = s.loads := rfl
@[simp] theorem setThread_stores (s : State) (k : Nat) (x : Thread) : (s.setThread k x).stores = s.stores := rfl
@[simp] theorem setThread_walks (s : State) (k : Nat) (x : Thread) : (s.setThread k x).walks = s.walks := rfl
@[simp] theorem setThread_promos (s : State) (k : Nat) (x : Thread) : (s.setThread k x).promos = s.promos := rfl
@[simp] theorem setThread_feeds (s : State) (k : Nat) (x : Thread) : (s.setThread k x).feeds = s.feeds := rfl
@[simp] theorem setThread_answer (s : State) (k : Nat) (x : Thread) : (s.setThread k x).answer = s.answer := rfl

theorem modThread_eq (s : State) (k : Nat) (f : Thread → Thread) : s.modThread k f = { s with threads := (s.modThread k f).threads } := by
  unfold State.modThread
  split <;> rfl

@[simp] theorem modThread_clock (s : State) (k : Nat) (f : Thread → Thread) : (s.modThread k f).clock = s.clock := by rw [modThread_eq]
@[simp] theorem modThread_plan (s : State) (k : Nat) (f : Thread → Thread) : (s.modThread k f).plan = s.plan := by rw [modThread_eq]
@[simp] theorem modThread_agenda (s : State) (k : Nat) (f : Thread → Thread) : (s.modThread k f).agenda = s.agenda := by rw [modThread_eq]
@[simp] theorem modThread_cur (s : State) (k : Nat) (f : Thread → Thread) : (s.modThread k f).cur = s.cur := by rw [modThread_eq]
@[simp] theorem modThread_freeCtr (s : State) (k : Nat) (f : Thread → Thread) : (s.modThread k f).freeCtr = s.freeCtr := by rw [modThread_eq]
@[simp] theorem modThread_nextId (s : State) (k : Nat) (f : Thread → Thread) : (s.modThread k f).nextId = s.nextId := by rw [modThread_eq]
@[simp] theorem modThread_booted (s : State) (k : Nat) (f : Thread → Thread) : (s.modThread k f).booted = s.booted := by rw [modThread_eq]
@[simp] theorem modThread_failedHalves (s : State) (k : Nat) (f : Thread → Thread) : (s.modThread k f).failedHalves = s.failedHalves := by rw [modThread_eq]
@[simp] theorem modThread_failedFronts (s : State) (k : Nat) (f : Thread → Thread) : (s.modThread k f).failedFronts = s.failedFronts := by rw [modThread_eq]
@[simp] theorem modThread_recordSigned (s : State) (k : Nat) (f : Thread → Thread) : (s.modThread k f).recordSigned = s.recordSigned := by rw [modThread_eq]
@[simp] theorem modThread_fusedHalves (s : State) (k : Nat) (f : Thread → Thread) : (s.modThread k f).fusedHalves = s.fusedHalves := by rw [modThread_eq]
@[simp] theorem modThread_fusedFronts (s : State) (k : Nat) (f : Thread → Thread) : (s.modThread k f).fusedFronts = s.fusedFronts := by rw [modThread_eq]
@[simp] theorem modThread_bootFails (s : State) (k : Nat) (f : Thread → Thread) : (s.modThread k f).bootFails = s.bootFails := by rw [modThread_eq]
@[simp] theorem modThread_bifurcated (s : State) (k : Nat) (f : Thread → Thread) : (s.modThread k f).bifurcated = s.bifurcated := by rw [modThread_eq]
@[simp] theorem modThread_timeOff (s : State) (k : Nat) (f : Thread → Thread) : (s.modThread k f).timeOff = s.timeOff := by rw [modThread_eq]
@[simp] theorem modThread_msix (s : State) (k : Nat) (f : Thread → Thread) : (s.modThread k f).msix = s.msix := by rw [modThread_eq]
@[simp] theorem modThread_mem (s : State) (k : Nat) (f : Thread → Thread) : (s.modThread k f).mem = s.mem := by rw [modThread_eq]
@[simp] theorem modThread_memPoison (s : State) (k : Nat) (f : Thread → Thread) : (s.modThread k f).memPoison = s.memPoison := by rw [modThread_eq]
@[simp] theorem modThread_pf (s : State) (k : Nat) (f : Thread → Thread) : (s.modThread k f).pf = s.pf := by rw [modThread_eq]
@[simp] theorem modThread_ces (s : State) (k : Nat) (f : Thread → Thread) : (s.modThread k f).ces = s.ces := by rw [modThread_eq]
@[simp] theorem modThread_sec (s : State) (k : Nat) (f : Thread → Thread) : (s.modThread k f).sec = s.sec := by rw [modThread_eq]
@[simp] theorem modThread_whet (s : State) (k : Nat) (f : Thread → Thread) : (s.modThread k f).whet = s.whet := by rw [modThread_eq]
@[simp] theorem modThread_slices (s : State) (k : Nat) (f : Thread → Thread) : (s.modThread k f).slices = s.slices := by rw [modThread_eq]
@[simp] theorem modThread_cores (s : State) (k : Nat) (f : Thread → Thread) : (s.modThread k f).cores = s.cores := by rw [modThread_eq]
@[simp] theorem modThread_ctxs (s : State) (k : Nat) (f : Thread → Thread) : (s.modThread k f).ctxs = s.ctxs := by rw [modThread_eq]
@[simp] theorem modThread_grids (s : State) (k : Nat) (f : Thread → Thread) : (s.modThread k f).grids = s.grids := by rw [modThread_eq]
@[simp] theorem modThread_clusters (s : State) (k : Nat) (f : Thread → Thread) : (s.modThread k f).clusters = s.clusters := by rw [modThread_eq]
@[simp] theorem modThread_teams (s : State) (k : Nat) (f : Thread → Thread) : (s.modThread k f).teams = s.teams := by rw [modThread_eq]
@[simp] theorem modThread_groups (s : State) (k : Nat) (f : Thread → Thread) : (s.modThread k f).groups = s.groups := by rw [modThread_eq]
@[simp] theorem modThread_loads (s : State) (k : Nat) (f : Thread → Thread) : (s.modThread k f).loads = s.loads := by rw [modThread_eq]
@[simp] theorem modThread_stores (s : State) (k : Nat) (f : Thread → Thread) : (s.modThread k f).stores = s.stores := by rw [modThread_eq]
@[simp] theorem modThread_walks (s : State) (k : Nat) (f : Thread → Thread) : (s.modThread k f).walks = s.walks := by rw [modThread_eq]
@[simp] theorem modThread_promos (s : State) (k : Nat) (f : Thread → Thread) : (s.modThread k f).promos = s.promos := by rw [modThread_eq]
@[simp] theorem modThread_feeds (s : State) (k : Nat) (f : Thread → Thread) : (s.modThread k f).feeds = s.feeds := by rw [modThread_eq]
@[simp] theorem modThread_answer (s : State) (k : Nat) (f : Thread → Thread) : (s.modThread k f).answer = s.answer := by rw [modThread_eq]
theorem modThread_of_get (s : State) (k : Nat) (f : Thread → Thread) (x : Thread) (h : spGet s.threads k = some x) :
    s.modThread k f = { s with threads := spPut s.threads k (f x) } := by
  unfold State.modThread
  rw [h]
  rfl

/-! Update of one Group. -/

@[simp] theorem setGroup_groups (s : State) (k : Nat) (x : Group) : (s.setGroup k x).groups = spPut s.groups k x := rfl
@[simp] theorem setGroup_clock (s : State) (k : Nat) (x : Group) : (s.setGroup k x).clock = s.clock := rfl
@[simp] theorem setGroup_plan (s : State) (k : Nat) (x : Group) : (s.setGroup k x).plan = s.plan := rfl
@[simp] theorem setGroup_agenda (s : State) (k : Nat) (x : Group) : (s.setGroup k x).agenda = s.agenda := rfl
@[simp] theorem setGroup_cur (s : State) (k : Nat) (x : Group) : (s.setGroup k x).cur = s.cur := rfl
@[simp] theorem setGroup_freeCtr (s : State) (k : Nat) (x : Group) : (s.setGroup k x).freeCtr = s.freeCtr := rfl
@[simp] theorem setGroup_nextId (s : State) (k : Nat) (x : Group) : (s.setGroup k x).nextId = s.nextId := rfl
@[simp] theorem setGroup_booted (s : State) (k : Nat) (x : Group) : (s.setGroup k x).booted = s.booted := rfl
@[simp] theorem setGroup_failedHalves (s : State) (k : Nat) (x : Group) : (s.setGroup k x).failedHalves = s.failedHalves := rfl
@[simp] theorem setGroup_failedFronts (s : State) (k : Nat) (x : Group) : (s.setGroup k x).failedFronts = s.failedFronts := rfl
@[simp] theorem setGroup_recordSigned (s : State) (k : Nat) (x : Group) : (s.setGroup k x).recordSigned = s.recordSigned := rfl
@[simp] theorem setGroup_fusedHalves (s : State) (k : Nat) (x : Group) : (s.setGroup k x).fusedHalves = s.fusedHalves := rfl
@[simp] theorem setGroup_fusedFronts (s : State) (k : Nat) (x : Group) : (s.setGroup k x).fusedFronts = s.fusedFronts := rfl
@[simp] theorem setGroup_bootFails (s : State) (k : Nat) (x : Group) : (s.setGroup k x).bootFails = s.bootFails := rfl
@[simp] theorem setGroup_bifurcated (s : State) (k : Nat) (x : Group) : (s.setGroup k x).bifurcated = s.bifurcated := rfl
@[simp] theorem setGroup_timeOff (s : State) (k : Nat) (x : Group) : (s.setGroup k x).timeOff = s.timeOff := rfl
@[simp] theorem setGroup_msix (s : State) (k : Nat) (x : Group) : (s.setGroup k x).msix = s.msix := rfl
@[simp] theorem setGroup_mem (s : State) (k : Nat) (x : Group) : (s.setGroup k x).mem = s.mem := rfl
@[simp] theorem setGroup_memPoison (s : State) (k : Nat) (x : Group) : (s.setGroup k x).memPoison = s.memPoison := rfl
@[simp] theorem setGroup_pf (s : State) (k : Nat) (x : Group) : (s.setGroup k x).pf = s.pf := rfl
@[simp] theorem setGroup_ces (s : State) (k : Nat) (x : Group) : (s.setGroup k x).ces = s.ces := rfl
@[simp] theorem setGroup_sec (s : State) (k : Nat) (x : Group) : (s.setGroup k x).sec = s.sec := rfl
@[simp] theorem setGroup_whet (s : State) (k : Nat) (x : Group) : (s.setGroup k x).whet = s.whet := rfl
@[simp] theorem setGroup_slices (s : State) (k : Nat) (x : Group) : (s.setGroup k x).slices = s.slices := rfl
@[simp] theorem setGroup_cores (s : State) (k : Nat) (x : Group) : (s.setGroup k x).cores = s.cores := rfl
@[simp] theorem setGroup_ctxs (s : State) (k : Nat) (x : Group) : (s.setGroup k x).ctxs = s.ctxs := rfl
@[simp] theorem setGroup_grids (s : State) (k : Nat) (x : Group) : (s.setGroup k x).grids = s.grids := rfl
@[simp] theorem setGroup_clusters (s : State) (k : Nat) (x : Group) : (s.setGroup k x).clusters = s.clusters := rfl
@[simp] theorem setGroup_teams (s : State) (k : Nat) (x : Group) : (s.setGroup k x).teams = s.teams := rfl
@[simp] theorem setGroup_threads (s : State) (k : Nat) (x : Group) : (s.setGroup k x).threads = s.threads := rfl
@[simp] theorem setGroup_loads (s : State) (k : Nat) (x : Group) : (s.setGroup k x).loads = s.loads := rfl
@[simp] theorem setGroup_stores (s : State) (k : Nat) (x : Group) : (s.setGroup k x).stores = s.stores := rfl
@[simp] theorem setGroup_walks (s : State) (k : Nat) (x : Group) : (s.setGroup k x).walks = s.walks := rfl
@[simp] theorem setGroup_promos (s : State) (k : Nat) (x : Group) : (s.setGroup k x).promos = s.promos := rfl
@[simp] theorem setGroup_feeds (s : State) (k : Nat) (x : Group) : (s.setGroup k x).feeds = s.feeds := rfl
@[simp] theorem setGroup_answer (s : State) (k : Nat) (x : Group) : (s.setGroup k x).answer = s.answer := rfl

theorem modGroup_eq (s : State) (k : Nat) (f : Group → Group) : s.modGroup k f = { s with groups := (s.modGroup k f).groups } := by
  unfold State.modGroup
  split <;> rfl

@[simp] theorem modGroup_clock (s : State) (k : Nat) (f : Group → Group) : (s.modGroup k f).clock = s.clock := by rw [modGroup_eq]
@[simp] theorem modGroup_plan (s : State) (k : Nat) (f : Group → Group) : (s.modGroup k f).plan = s.plan := by rw [modGroup_eq]
@[simp] theorem modGroup_agenda (s : State) (k : Nat) (f : Group → Group) : (s.modGroup k f).agenda = s.agenda := by rw [modGroup_eq]
@[simp] theorem modGroup_cur (s : State) (k : Nat) (f : Group → Group) : (s.modGroup k f).cur = s.cur := by rw [modGroup_eq]
@[simp] theorem modGroup_freeCtr (s : State) (k : Nat) (f : Group → Group) : (s.modGroup k f).freeCtr = s.freeCtr := by rw [modGroup_eq]
@[simp] theorem modGroup_nextId (s : State) (k : Nat) (f : Group → Group) : (s.modGroup k f).nextId = s.nextId := by rw [modGroup_eq]
@[simp] theorem modGroup_booted (s : State) (k : Nat) (f : Group → Group) : (s.modGroup k f).booted = s.booted := by rw [modGroup_eq]
@[simp] theorem modGroup_failedHalves (s : State) (k : Nat) (f : Group → Group) : (s.modGroup k f).failedHalves = s.failedHalves := by rw [modGroup_eq]
@[simp] theorem modGroup_failedFronts (s : State) (k : Nat) (f : Group → Group) : (s.modGroup k f).failedFronts = s.failedFronts := by rw [modGroup_eq]
@[simp] theorem modGroup_recordSigned (s : State) (k : Nat) (f : Group → Group) : (s.modGroup k f).recordSigned = s.recordSigned := by rw [modGroup_eq]
@[simp] theorem modGroup_fusedHalves (s : State) (k : Nat) (f : Group → Group) : (s.modGroup k f).fusedHalves = s.fusedHalves := by rw [modGroup_eq]
@[simp] theorem modGroup_fusedFronts (s : State) (k : Nat) (f : Group → Group) : (s.modGroup k f).fusedFronts = s.fusedFronts := by rw [modGroup_eq]
@[simp] theorem modGroup_bootFails (s : State) (k : Nat) (f : Group → Group) : (s.modGroup k f).bootFails = s.bootFails := by rw [modGroup_eq]
@[simp] theorem modGroup_bifurcated (s : State) (k : Nat) (f : Group → Group) : (s.modGroup k f).bifurcated = s.bifurcated := by rw [modGroup_eq]
@[simp] theorem modGroup_timeOff (s : State) (k : Nat) (f : Group → Group) : (s.modGroup k f).timeOff = s.timeOff := by rw [modGroup_eq]
@[simp] theorem modGroup_msix (s : State) (k : Nat) (f : Group → Group) : (s.modGroup k f).msix = s.msix := by rw [modGroup_eq]
@[simp] theorem modGroup_mem (s : State) (k : Nat) (f : Group → Group) : (s.modGroup k f).mem = s.mem := by rw [modGroup_eq]
@[simp] theorem modGroup_memPoison (s : State) (k : Nat) (f : Group → Group) : (s.modGroup k f).memPoison = s.memPoison := by rw [modGroup_eq]
@[simp] theorem modGroup_pf (s : State) (k : Nat) (f : Group → Group) : (s.modGroup k f).pf = s.pf := by rw [modGroup_eq]
@[simp] theorem modGroup_ces (s : State) (k : Nat) (f : Group → Group) : (s.modGroup k f).ces = s.ces := by rw [modGroup_eq]
@[simp] theorem modGroup_sec (s : State) (k : Nat) (f : Group → Group) : (s.modGroup k f).sec = s.sec := by rw [modGroup_eq]
@[simp] theorem modGroup_whet (s : State) (k : Nat) (f : Group → Group) : (s.modGroup k f).whet = s.whet := by rw [modGroup_eq]
@[simp] theorem modGroup_slices (s : State) (k : Nat) (f : Group → Group) : (s.modGroup k f).slices = s.slices := by rw [modGroup_eq]
@[simp] theorem modGroup_cores (s : State) (k : Nat) (f : Group → Group) : (s.modGroup k f).cores = s.cores := by rw [modGroup_eq]
@[simp] theorem modGroup_ctxs (s : State) (k : Nat) (f : Group → Group) : (s.modGroup k f).ctxs = s.ctxs := by rw [modGroup_eq]
@[simp] theorem modGroup_grids (s : State) (k : Nat) (f : Group → Group) : (s.modGroup k f).grids = s.grids := by rw [modGroup_eq]
@[simp] theorem modGroup_clusters (s : State) (k : Nat) (f : Group → Group) : (s.modGroup k f).clusters = s.clusters := by rw [modGroup_eq]
@[simp] theorem modGroup_teams (s : State) (k : Nat) (f : Group → Group) : (s.modGroup k f).teams = s.teams := by rw [modGroup_eq]
@[simp] theorem modGroup_threads (s : State) (k : Nat) (f : Group → Group) : (s.modGroup k f).threads = s.threads := by rw [modGroup_eq]
@[simp] theorem modGroup_loads (s : State) (k : Nat) (f : Group → Group) : (s.modGroup k f).loads = s.loads := by rw [modGroup_eq]
@[simp] theorem modGroup_stores (s : State) (k : Nat) (f : Group → Group) : (s.modGroup k f).stores = s.stores := by rw [modGroup_eq]
@[simp] theorem modGroup_walks (s : State) (k : Nat) (f : Group → Group) : (s.modGroup k f).walks = s.walks := by rw [modGroup_eq]
@[simp] theorem modGroup_promos (s : State) (k : Nat) (f : Group → Group) : (s.modGroup k f).promos = s.promos := by rw [modGroup_eq]
@[simp] theorem modGroup_feeds (s : State) (k : Nat) (f : Group → Group) : (s.modGroup k f).feeds = s.feeds := by rw [modGroup_eq]
@[simp] theorem modGroup_answer (s : State) (k : Nat) (f : Group → Group) : (s.modGroup k f).answer = s.answer := by rw [modGroup_eq]
theorem modGroup_of_get (s : State) (k : Nat) (f : Group → Group) (x : Group) (h : spGet s.groups k = some x) :
    s.modGroup k f = { s with groups := spPut s.groups k (f x) } := by
  unfold State.modGroup
  rw [h]
  rfl

/-! Update of one Team. -/

@[simp] theorem setTeam_teams (s : State) (k : Nat) (x : Team) : (s.setTeam k x).teams = spPut s.teams k x := rfl
@[simp] theorem setTeam_clock (s : State) (k : Nat) (x : Team) : (s.setTeam k x).clock = s.clock := rfl
@[simp] theorem setTeam_plan (s : State) (k : Nat) (x : Team) : (s.setTeam k x).plan = s.plan := rfl
@[simp] theorem setTeam_agenda (s : State) (k : Nat) (x : Team) : (s.setTeam k x).agenda = s.agenda := rfl
@[simp] theorem setTeam_cur (s : State) (k : Nat) (x : Team) : (s.setTeam k x).cur = s.cur := rfl
@[simp] theorem setTeam_freeCtr (s : State) (k : Nat) (x : Team) : (s.setTeam k x).freeCtr = s.freeCtr := rfl
@[simp] theorem setTeam_nextId (s : State) (k : Nat) (x : Team) : (s.setTeam k x).nextId = s.nextId := rfl
@[simp] theorem setTeam_booted (s : State) (k : Nat) (x : Team) : (s.setTeam k x).booted = s.booted := rfl
@[simp] theorem setTeam_failedHalves (s : State) (k : Nat) (x : Team) : (s.setTeam k x).failedHalves = s.failedHalves := rfl
@[simp] theorem setTeam_failedFronts (s : State) (k : Nat) (x : Team) : (s.setTeam k x).failedFronts = s.failedFronts := rfl
@[simp] theorem setTeam_recordSigned (s : State) (k : Nat) (x : Team) : (s.setTeam k x).recordSigned = s.recordSigned := rfl
@[simp] theorem setTeam_fusedHalves (s : State) (k : Nat) (x : Team) : (s.setTeam k x).fusedHalves = s.fusedHalves := rfl
@[simp] theorem setTeam_fusedFronts (s : State) (k : Nat) (x : Team) : (s.setTeam k x).fusedFronts = s.fusedFronts := rfl
@[simp] theorem setTeam_bootFails (s : State) (k : Nat) (x : Team) : (s.setTeam k x).bootFails = s.bootFails := rfl
@[simp] theorem setTeam_bifurcated (s : State) (k : Nat) (x : Team) : (s.setTeam k x).bifurcated = s.bifurcated := rfl
@[simp] theorem setTeam_timeOff (s : State) (k : Nat) (x : Team) : (s.setTeam k x).timeOff = s.timeOff := rfl
@[simp] theorem setTeam_msix (s : State) (k : Nat) (x : Team) : (s.setTeam k x).msix = s.msix := rfl
@[simp] theorem setTeam_mem (s : State) (k : Nat) (x : Team) : (s.setTeam k x).mem = s.mem := rfl
@[simp] theorem setTeam_memPoison (s : State) (k : Nat) (x : Team) : (s.setTeam k x).memPoison = s.memPoison := rfl
@[simp] theorem setTeam_pf (s : State) (k : Nat) (x : Team) : (s.setTeam k x).pf = s.pf := rfl
@[simp] theorem setTeam_ces (s : State) (k : Nat) (x : Team) : (s.setTeam k x).ces = s.ces := rfl
@[simp] theorem setTeam_sec (s : State) (k : Nat) (x : Team) : (s.setTeam k x).sec = s.sec := rfl
@[simp] theorem setTeam_whet (s : State) (k : Nat) (x : Team) : (s.setTeam k x).whet = s.whet := rfl
@[simp] theorem setTeam_slices (s : State) (k : Nat) (x : Team) : (s.setTeam k x).slices = s.slices := rfl
@[simp] theorem setTeam_cores (s : State) (k : Nat) (x : Team) : (s.setTeam k x).cores = s.cores := rfl
@[simp] theorem setTeam_ctxs (s : State) (k : Nat) (x : Team) : (s.setTeam k x).ctxs = s.ctxs := rfl
@[simp] theorem setTeam_grids (s : State) (k : Nat) (x : Team) : (s.setTeam k x).grids = s.grids := rfl
@[simp] theorem setTeam_clusters (s : State) (k : Nat) (x : Team) : (s.setTeam k x).clusters = s.clusters := rfl
@[simp] theorem setTeam_groups (s : State) (k : Nat) (x : Team) : (s.setTeam k x).groups = s.groups := rfl
@[simp] theorem setTeam_threads (s : State) (k : Nat) (x : Team) : (s.setTeam k x).threads = s.threads := rfl
@[simp] theorem setTeam_loads (s : State) (k : Nat) (x : Team) : (s.setTeam k x).loads = s.loads := rfl
@[simp] theorem setTeam_stores (s : State) (k : Nat) (x : Team) : (s.setTeam k x).stores = s.stores := rfl
@[simp] theorem setTeam_walks (s : State) (k : Nat) (x : Team) : (s.setTeam k x).walks = s.walks := rfl
@[simp] theorem setTeam_promos (s : State) (k : Nat) (x : Team) : (s.setTeam k x).promos = s.promos := rfl
@[simp] theorem setTeam_feeds (s : State) (k : Nat) (x : Team) : (s.setTeam k x).feeds = s.feeds := rfl
@[simp] theorem setTeam_answer (s : State) (k : Nat) (x : Team) : (s.setTeam k x).answer = s.answer := rfl

theorem modTeam_eq (s : State) (k : Nat) (f : Team → Team) : s.modTeam k f = { s with teams := (s.modTeam k f).teams } := by
  unfold State.modTeam
  split <;> rfl

@[simp] theorem modTeam_clock (s : State) (k : Nat) (f : Team → Team) : (s.modTeam k f).clock = s.clock := by rw [modTeam_eq]
@[simp] theorem modTeam_plan (s : State) (k : Nat) (f : Team → Team) : (s.modTeam k f).plan = s.plan := by rw [modTeam_eq]
@[simp] theorem modTeam_agenda (s : State) (k : Nat) (f : Team → Team) : (s.modTeam k f).agenda = s.agenda := by rw [modTeam_eq]
@[simp] theorem modTeam_cur (s : State) (k : Nat) (f : Team → Team) : (s.modTeam k f).cur = s.cur := by rw [modTeam_eq]
@[simp] theorem modTeam_freeCtr (s : State) (k : Nat) (f : Team → Team) : (s.modTeam k f).freeCtr = s.freeCtr := by rw [modTeam_eq]
@[simp] theorem modTeam_nextId (s : State) (k : Nat) (f : Team → Team) : (s.modTeam k f).nextId = s.nextId := by rw [modTeam_eq]
@[simp] theorem modTeam_booted (s : State) (k : Nat) (f : Team → Team) : (s.modTeam k f).booted = s.booted := by rw [modTeam_eq]
@[simp] theorem modTeam_failedHalves (s : State) (k : Nat) (f : Team → Team) : (s.modTeam k f).failedHalves = s.failedHalves := by rw [modTeam_eq]
@[simp] theorem modTeam_failedFronts (s : State) (k : Nat) (f : Team → Team) : (s.modTeam k f).failedFronts = s.failedFronts := by rw [modTeam_eq]
@[simp] theorem modTeam_recordSigned (s : State) (k : Nat) (f : Team → Team) : (s.modTeam k f).recordSigned = s.recordSigned := by rw [modTeam_eq]
@[simp] theorem modTeam_fusedHalves (s : State) (k : Nat) (f : Team → Team) : (s.modTeam k f).fusedHalves = s.fusedHalves := by rw [modTeam_eq]
@[simp] theorem modTeam_fusedFronts (s : State) (k : Nat) (f : Team → Team) : (s.modTeam k f).fusedFronts = s.fusedFronts := by rw [modTeam_eq]
@[simp] theorem modTeam_bootFails (s : State) (k : Nat) (f : Team → Team) : (s.modTeam k f).bootFails = s.bootFails := by rw [modTeam_eq]
@[simp] theorem modTeam_bifurcated (s : State) (k : Nat) (f : Team → Team) : (s.modTeam k f).bifurcated = s.bifurcated := by rw [modTeam_eq]
@[simp] theorem modTeam_timeOff (s : State) (k : Nat) (f : Team → Team) : (s.modTeam k f).timeOff = s.timeOff := by rw [modTeam_eq]
@[simp] theorem modTeam_msix (s : State) (k : Nat) (f : Team → Team) : (s.modTeam k f).msix = s.msix := by rw [modTeam_eq]
@[simp] theorem modTeam_mem (s : State) (k : Nat) (f : Team → Team) : (s.modTeam k f).mem = s.mem := by rw [modTeam_eq]
@[simp] theorem modTeam_memPoison (s : State) (k : Nat) (f : Team → Team) : (s.modTeam k f).memPoison = s.memPoison := by rw [modTeam_eq]
@[simp] theorem modTeam_pf (s : State) (k : Nat) (f : Team → Team) : (s.modTeam k f).pf = s.pf := by rw [modTeam_eq]
@[simp] theorem modTeam_ces (s : State) (k : Nat) (f : Team → Team) : (s.modTeam k f).ces = s.ces := by rw [modTeam_eq]
@[simp] theorem modTeam_sec (s : State) (k : Nat) (f : Team → Team) : (s.modTeam k f).sec = s.sec := by rw [modTeam_eq]
@[simp] theorem modTeam_whet (s : State) (k : Nat) (f : Team → Team) : (s.modTeam k f).whet = s.whet := by rw [modTeam_eq]
@[simp] theorem modTeam_slices (s : State) (k : Nat) (f : Team → Team) : (s.modTeam k f).slices = s.slices := by rw [modTeam_eq]
@[simp] theorem modTeam_cores (s : State) (k : Nat) (f : Team → Team) : (s.modTeam k f).cores = s.cores := by rw [modTeam_eq]
@[simp] theorem modTeam_ctxs (s : State) (k : Nat) (f : Team → Team) : (s.modTeam k f).ctxs = s.ctxs := by rw [modTeam_eq]
@[simp] theorem modTeam_grids (s : State) (k : Nat) (f : Team → Team) : (s.modTeam k f).grids = s.grids := by rw [modTeam_eq]
@[simp] theorem modTeam_clusters (s : State) (k : Nat) (f : Team → Team) : (s.modTeam k f).clusters = s.clusters := by rw [modTeam_eq]
@[simp] theorem modTeam_groups (s : State) (k : Nat) (f : Team → Team) : (s.modTeam k f).groups = s.groups := by rw [modTeam_eq]
@[simp] theorem modTeam_threads (s : State) (k : Nat) (f : Team → Team) : (s.modTeam k f).threads = s.threads := by rw [modTeam_eq]
@[simp] theorem modTeam_loads (s : State) (k : Nat) (f : Team → Team) : (s.modTeam k f).loads = s.loads := by rw [modTeam_eq]
@[simp] theorem modTeam_stores (s : State) (k : Nat) (f : Team → Team) : (s.modTeam k f).stores = s.stores := by rw [modTeam_eq]
@[simp] theorem modTeam_walks (s : State) (k : Nat) (f : Team → Team) : (s.modTeam k f).walks = s.walks := by rw [modTeam_eq]
@[simp] theorem modTeam_promos (s : State) (k : Nat) (f : Team → Team) : (s.modTeam k f).promos = s.promos := by rw [modTeam_eq]
@[simp] theorem modTeam_feeds (s : State) (k : Nat) (f : Team → Team) : (s.modTeam k f).feeds = s.feeds := by rw [modTeam_eq]
@[simp] theorem modTeam_answer (s : State) (k : Nat) (f : Team → Team) : (s.modTeam k f).answer = s.answer := by rw [modTeam_eq]
theorem modTeam_of_get (s : State) (k : Nat) (f : Team → Team) (x : Team) (h : spGet s.teams k = some x) :
    s.modTeam k f = { s with teams := spPut s.teams k (f x) } := by
  unfold State.modTeam
  rw [h]
  rfl

/-! Update of one Cluster. -/

@[simp] theorem setCluster_clusters (s : State) (k : Nat) (x : Cluster) : (s.setCluster k x).clusters = spPut s.clusters k x := rfl
@[simp] theorem setCluster_clock (s : State) (k : Nat) (x : Cluster) : (s.setCluster k x).clock = s.clock := rfl
@[simp] theorem setCluster_plan (s : State) (k : Nat) (x : Cluster) : (s.setCluster k x).plan = s.plan := rfl
@[simp] theorem setCluster_agenda (s : State) (k : Nat) (x : Cluster) : (s.setCluster k x).agenda = s.agenda := rfl
@[simp] theorem setCluster_cur (s : State) (k : Nat) (x : Cluster) : (s.setCluster k x).cur = s.cur := rfl
@[simp] theorem setCluster_freeCtr (s : State) (k : Nat) (x : Cluster) : (s.setCluster k x).freeCtr = s.freeCtr := rfl
@[simp] theorem setCluster_nextId (s : State) (k : Nat) (x : Cluster) : (s.setCluster k x).nextId = s.nextId := rfl
@[simp] theorem setCluster_booted (s : State) (k : Nat) (x : Cluster) : (s.setCluster k x).booted = s.booted := rfl
@[simp] theorem setCluster_failedHalves (s : State) (k : Nat) (x : Cluster) : (s.setCluster k x).failedHalves = s.failedHalves := rfl
@[simp] theorem setCluster_failedFronts (s : State) (k : Nat) (x : Cluster) : (s.setCluster k x).failedFronts = s.failedFronts := rfl
@[simp] theorem setCluster_recordSigned (s : State) (k : Nat) (x : Cluster) : (s.setCluster k x).recordSigned = s.recordSigned := rfl
@[simp] theorem setCluster_fusedHalves (s : State) (k : Nat) (x : Cluster) : (s.setCluster k x).fusedHalves = s.fusedHalves := rfl
@[simp] theorem setCluster_fusedFronts (s : State) (k : Nat) (x : Cluster) : (s.setCluster k x).fusedFronts = s.fusedFronts := rfl
@[simp] theorem setCluster_bootFails (s : State) (k : Nat) (x : Cluster) : (s.setCluster k x).bootFails = s.bootFails := rfl
@[simp] theorem setCluster_bifurcated (s : State) (k : Nat) (x : Cluster) : (s.setCluster k x).bifurcated = s.bifurcated := rfl
@[simp] theorem setCluster_timeOff (s : State) (k : Nat) (x : Cluster) : (s.setCluster k x).timeOff = s.timeOff := rfl
@[simp] theorem setCluster_msix (s : State) (k : Nat) (x : Cluster) : (s.setCluster k x).msix = s.msix := rfl
@[simp] theorem setCluster_mem (s : State) (k : Nat) (x : Cluster) : (s.setCluster k x).mem = s.mem := rfl
@[simp] theorem setCluster_memPoison (s : State) (k : Nat) (x : Cluster) : (s.setCluster k x).memPoison = s.memPoison := rfl
@[simp] theorem setCluster_pf (s : State) (k : Nat) (x : Cluster) : (s.setCluster k x).pf = s.pf := rfl
@[simp] theorem setCluster_ces (s : State) (k : Nat) (x : Cluster) : (s.setCluster k x).ces = s.ces := rfl
@[simp] theorem setCluster_sec (s : State) (k : Nat) (x : Cluster) : (s.setCluster k x).sec = s.sec := rfl
@[simp] theorem setCluster_whet (s : State) (k : Nat) (x : Cluster) : (s.setCluster k x).whet = s.whet := rfl
@[simp] theorem setCluster_slices (s : State) (k : Nat) (x : Cluster) : (s.setCluster k x).slices = s.slices := rfl
@[simp] theorem setCluster_cores (s : State) (k : Nat) (x : Cluster) : (s.setCluster k x).cores = s.cores := rfl
@[simp] theorem setCluster_ctxs (s : State) (k : Nat) (x : Cluster) : (s.setCluster k x).ctxs = s.ctxs := rfl
@[simp] theorem setCluster_grids (s : State) (k : Nat) (x : Cluster) : (s.setCluster k x).grids = s.grids := rfl
@[simp] theorem setCluster_teams (s : State) (k : Nat) (x : Cluster) : (s.setCluster k x).teams = s.teams := rfl
@[simp] theorem setCluster_groups (s : State) (k : Nat) (x : Cluster) : (s.setCluster k x).groups = s.groups := rfl
@[simp] theorem setCluster_threads (s : State) (k : Nat) (x : Cluster) : (s.setCluster k x).threads = s.threads := rfl
@[simp] theorem setCluster_loads (s : State) (k : Nat) (x : Cluster) : (s.setCluster k x).loads = s.loads := rfl
@[simp] theorem setCluster_stores (s : State) (k : Nat) (x : Cluster) : (s.setCluster k x).stores = s.stores := rfl
@[simp] theorem setCluster_walks (s : State) (k : Nat) (x : Cluster) : (s.setCluster k x).walks = s.walks := rfl
@[simp] theorem setCluster_promos (s : State) (k : Nat) (x : Cluster) : (s.setCluster k x).promos = s.promos := rfl
@[simp] theorem setCluster_feeds (s : State) (k : Nat) (x : Cluster) : (s.setCluster k x).feeds = s.feeds := rfl
@[simp] theorem setCluster_answer (s : State) (k : Nat) (x : Cluster) : (s.setCluster k x).answer = s.answer := rfl

theorem modCluster_eq (s : State) (k : Nat) (f : Cluster → Cluster) : s.modCluster k f = { s with clusters := (s.modCluster k f).clusters } := by
  unfold State.modCluster
  split <;> rfl

@[simp] theorem modCluster_clock (s : State) (k : Nat) (f : Cluster → Cluster) : (s.modCluster k f).clock = s.clock := by rw [modCluster_eq]
@[simp] theorem modCluster_plan (s : State) (k : Nat) (f : Cluster → Cluster) : (s.modCluster k f).plan = s.plan := by rw [modCluster_eq]
@[simp] theorem modCluster_agenda (s : State) (k : Nat) (f : Cluster → Cluster) : (s.modCluster k f).agenda = s.agenda := by rw [modCluster_eq]
@[simp] theorem modCluster_cur (s : State) (k : Nat) (f : Cluster → Cluster) : (s.modCluster k f).cur = s.cur := by rw [modCluster_eq]
@[simp] theorem modCluster_freeCtr (s : State) (k : Nat) (f : Cluster → Cluster) : (s.modCluster k f).freeCtr = s.freeCtr := by rw [modCluster_eq]
@[simp] theorem modCluster_nextId (s : State) (k : Nat) (f : Cluster → Cluster) : (s.modCluster k f).nextId = s.nextId := by rw [modCluster_eq]
@[simp] theorem modCluster_booted (s : State) (k : Nat) (f : Cluster → Cluster) : (s.modCluster k f).booted = s.booted := by rw [modCluster_eq]
@[simp] theorem modCluster_failedHalves (s : State) (k : Nat) (f : Cluster → Cluster) : (s.modCluster k f).failedHalves = s.failedHalves := by rw [modCluster_eq]
@[simp] theorem modCluster_failedFronts (s : State) (k : Nat) (f : Cluster → Cluster) : (s.modCluster k f).failedFronts = s.failedFronts := by rw [modCluster_eq]
@[simp] theorem modCluster_recordSigned (s : State) (k : Nat) (f : Cluster → Cluster) : (s.modCluster k f).recordSigned = s.recordSigned := by rw [modCluster_eq]
@[simp] theorem modCluster_fusedHalves (s : State) (k : Nat) (f : Cluster → Cluster) : (s.modCluster k f).fusedHalves = s.fusedHalves := by rw [modCluster_eq]
@[simp] theorem modCluster_fusedFronts (s : State) (k : Nat) (f : Cluster → Cluster) : (s.modCluster k f).fusedFronts = s.fusedFronts := by rw [modCluster_eq]
@[simp] theorem modCluster_bootFails (s : State) (k : Nat) (f : Cluster → Cluster) : (s.modCluster k f).bootFails = s.bootFails := by rw [modCluster_eq]
@[simp] theorem modCluster_bifurcated (s : State) (k : Nat) (f : Cluster → Cluster) : (s.modCluster k f).bifurcated = s.bifurcated := by rw [modCluster_eq]
@[simp] theorem modCluster_timeOff (s : State) (k : Nat) (f : Cluster → Cluster) : (s.modCluster k f).timeOff = s.timeOff := by rw [modCluster_eq]
@[simp] theorem modCluster_msix (s : State) (k : Nat) (f : Cluster → Cluster) : (s.modCluster k f).msix = s.msix := by rw [modCluster_eq]
@[simp] theorem modCluster_mem (s : State) (k : Nat) (f : Cluster → Cluster) : (s.modCluster k f).mem = s.mem := by rw [modCluster_eq]
@[simp] theorem modCluster_memPoison (s : State) (k : Nat) (f : Cluster → Cluster) : (s.modCluster k f).memPoison = s.memPoison := by rw [modCluster_eq]
@[simp] theorem modCluster_pf (s : State) (k : Nat) (f : Cluster → Cluster) : (s.modCluster k f).pf = s.pf := by rw [modCluster_eq]
@[simp] theorem modCluster_ces (s : State) (k : Nat) (f : Cluster → Cluster) : (s.modCluster k f).ces = s.ces := by rw [modCluster_eq]
@[simp] theorem modCluster_sec (s : State) (k : Nat) (f : Cluster → Cluster) : (s.modCluster k f).sec = s.sec := by rw [modCluster_eq]
@[simp] theorem modCluster_whet (s : State) (k : Nat) (f : Cluster → Cluster) : (s.modCluster k f).whet = s.whet := by rw [modCluster_eq]
@[simp] theorem modCluster_slices (s : State) (k : Nat) (f : Cluster → Cluster) : (s.modCluster k f).slices = s.slices := by rw [modCluster_eq]
@[simp] theorem modCluster_cores (s : State) (k : Nat) (f : Cluster → Cluster) : (s.modCluster k f).cores = s.cores := by rw [modCluster_eq]
@[simp] theorem modCluster_ctxs (s : State) (k : Nat) (f : Cluster → Cluster) : (s.modCluster k f).ctxs = s.ctxs := by rw [modCluster_eq]
@[simp] theorem modCluster_grids (s : State) (k : Nat) (f : Cluster → Cluster) : (s.modCluster k f).grids = s.grids := by rw [modCluster_eq]
@[simp] theorem modCluster_teams (s : State) (k : Nat) (f : Cluster → Cluster) : (s.modCluster k f).teams = s.teams := by rw [modCluster_eq]
@[simp] theorem modCluster_groups (s : State) (k : Nat) (f : Cluster → Cluster) : (s.modCluster k f).groups = s.groups := by rw [modCluster_eq]
@[simp] theorem modCluster_threads (s : State) (k : Nat) (f : Cluster → Cluster) : (s.modCluster k f).threads = s.threads := by rw [modCluster_eq]
@[simp] theorem modCluster_loads (s : State) (k : Nat) (f : Cluster → Cluster) : (s.modCluster k f).loads = s.loads := by rw [modCluster_eq]
@[simp] theorem modCluster_stores (s : State) (k : Nat) (f : Cluster → Cluster) : (s.modCluster k f).stores = s.stores := by rw [modCluster_eq]
@[simp] theorem modCluster_walks (s : State) (k : Nat) (f : Cluster → Cluster) : (s.modCluster k f).walks = s.walks := by rw [modCluster_eq]
@[simp] theorem modCluster_promos (s : State) (k : Nat) (f : Cluster → Cluster) : (s.modCluster k f).promos = s.promos := by rw [modCluster_eq]
@[simp] theorem modCluster_feeds (s : State) (k : Nat) (f : Cluster → Cluster) : (s.modCluster k f).feeds = s.feeds := by rw [modCluster_eq]
@[simp] theorem modCluster_answer (s : State) (k : Nat) (f : Cluster → Cluster) : (s.modCluster k f).answer = s.answer := by rw [modCluster_eq]
theorem modCluster_of_get (s : State) (k : Nat) (f : Cluster → Cluster) (x : Cluster) (h : spGet s.clusters k = some x) :
    s.modCluster k f = { s with clusters := spPut s.clusters k (f x) } := by
  unfold State.modCluster
  rw [h]
  rfl

/-! Update of one Grid. -/

@[simp] theorem setGrid_grids (s : State) (k : Nat) (x : Grid) : (s.setGrid k x).grids = spPut s.grids k x := rfl
@[simp] theorem setGrid_clock (s : State) (k : Nat) (x : Grid) : (s.setGrid k x).clock = s.clock := rfl
@[simp] theorem setGrid_plan (s : State) (k : Nat) (x : Grid) : (s.setGrid k x).plan = s.plan := rfl
@[simp] theorem setGrid_agenda (s : State) (k : Nat) (x : Grid) : (s.setGrid k x).agenda = s.agenda := rfl
@[simp] theorem setGrid_cur (s : State) (k : Nat) (x : Grid) : (s.setGrid k x).cur = s.cur := rfl
@[simp] theorem setGrid_freeCtr (s : State) (k : Nat) (x : Grid) : (s.setGrid k x).freeCtr = s.freeCtr := rfl
@[simp] theorem setGrid_nextId (s : State) (k : Nat) (x : Grid) : (s.setGrid k x).nextId = s.nextId := rfl
@[simp] theorem setGrid_booted (s : State) (k : Nat) (x : Grid) : (s.setGrid k x).booted = s.booted := rfl
@[simp] theorem setGrid_failedHalves (s : State) (k : Nat) (x : Grid) : (s.setGrid k x).failedHalves = s.failedHalves := rfl
@[simp] theorem setGrid_failedFronts (s : State) (k : Nat) (x : Grid) : (s.setGrid k x).failedFronts = s.failedFronts := rfl
@[simp] theorem setGrid_recordSigned (s : State) (k : Nat) (x : Grid) : (s.setGrid k x).recordSigned = s.recordSigned := rfl
@[simp] theorem setGrid_fusedHalves (s : State) (k : Nat) (x : Grid) : (s.setGrid k x).fusedHalves = s.fusedHalves := rfl
@[simp] theorem setGrid_fusedFronts (s : State) (k : Nat) (x : Grid) : (s.setGrid k x).fusedFronts = s.fusedFronts := rfl
@[simp] theorem setGrid_bootFails (s : State) (k : Nat) (x : Grid) : (s.setGrid k x).bootFails = s.bootFails := rfl
@[simp] theorem setGrid_bifurcated (s : State) (k : Nat) (x : Grid) : (s.setGrid k x).bifurcated = s.bifurcated := rfl
@[simp] theorem setGrid_timeOff (s : State) (k : Nat) (x : Grid) : (s.setGrid k x).timeOff = s.timeOff := rfl
@[simp] theorem setGrid_msix (s : State) (k : Nat) (x : Grid) : (s.setGrid k x).msix = s.msix := rfl
@[simp] theorem setGrid_mem (s : State) (k : Nat) (x : Grid) : (s.setGrid k x).mem = s.mem := rfl
@[simp] theorem setGrid_memPoison (s : State) (k : Nat) (x : Grid) : (s.setGrid k x).memPoison = s.memPoison := rfl
@[simp] theorem setGrid_pf (s : State) (k : Nat) (x : Grid) : (s.setGrid k x).pf = s.pf := rfl
@[simp] theorem setGrid_ces (s : State) (k : Nat) (x : Grid) : (s.setGrid k x).ces = s.ces := rfl
@[simp] theorem setGrid_sec (s : State) (k : Nat) (x : Grid) : (s.setGrid k x).sec = s.sec := rfl
@[simp] theorem setGrid_whet (s : State) (k : Nat) (x : Grid) : (s.setGrid k x).whet = s.whet := rfl
@[simp] theorem setGrid_slices (s : State) (k : Nat) (x : Grid) : (s.setGrid k x).slices = s.slices := rfl
@[simp] theorem setGrid_cores (s : State) (k : Nat) (x : Grid) : (s.setGrid k x).cores = s.cores := rfl
@[simp] theorem setGrid_ctxs (s : State) (k : Nat) (x : Grid) : (s.setGrid k x).ctxs = s.ctxs := rfl
@[simp] theorem setGrid_clusters (s : State) (k : Nat) (x : Grid) : (s.setGrid k x).clusters = s.clusters := rfl
@[simp] theorem setGrid_teams (s : State) (k : Nat) (x : Grid) : (s.setGrid k x).teams = s.teams := rfl
@[simp] theorem setGrid_groups (s : State) (k : Nat) (x : Grid) : (s.setGrid k x).groups = s.groups := rfl
@[simp] theorem setGrid_threads (s : State) (k : Nat) (x : Grid) : (s.setGrid k x).threads = s.threads := rfl
@[simp] theorem setGrid_loads (s : State) (k : Nat) (x : Grid) : (s.setGrid k x).loads = s.loads := rfl
@[simp] theorem setGrid_stores (s : State) (k : Nat) (x : Grid) : (s.setGrid k x).stores = s.stores := rfl
@[simp] theorem setGrid_walks (s : State) (k : Nat) (x : Grid) : (s.setGrid k x).walks = s.walks := rfl
@[simp] theorem setGrid_promos (s : State) (k : Nat) (x : Grid) : (s.setGrid k x).promos = s.promos := rfl
@[simp] theorem setGrid_feeds (s : State) (k : Nat) (x : Grid) : (s.setGrid k x).feeds = s.feeds := rfl
@[simp] theorem setGrid_answer (s : State) (k : Nat) (x : Grid) : (s.setGrid k x).answer = s.answer := rfl

theorem modGrid_eq (s : State) (k : Nat) (f : Grid → Grid) : s.modGrid k f = { s with grids := (s.modGrid k f).grids } := by
  unfold State.modGrid
  split <;> rfl

@[simp] theorem modGrid_clock (s : State) (k : Nat) (f : Grid → Grid) : (s.modGrid k f).clock = s.clock := by rw [modGrid_eq]
@[simp] theorem modGrid_plan (s : State) (k : Nat) (f : Grid → Grid) : (s.modGrid k f).plan = s.plan := by rw [modGrid_eq]
@[simp] theorem modGrid_agenda (s : State) (k : Nat) (f : Grid → Grid) : (s.modGrid k f).agenda = s.agenda := by rw [modGrid_eq]
@[simp] theorem modGrid_cur (s : State) (k : Nat) (f : Grid → Grid) : (s.modGrid k f).cur = s.cur := by rw [modGrid_eq]
@[simp] theorem modGrid_freeCtr (s : State) (k : Nat) (f : Grid → Grid) : (s.modGrid k f).freeCtr = s.freeCtr := by rw [modGrid_eq]
@[simp] theorem modGrid_nextId (s : State) (k : Nat) (f : Grid → Grid) : (s.modGrid k f).nextId = s.nextId := by rw [modGrid_eq]
@[simp] theorem modGrid_booted (s : State) (k : Nat) (f : Grid → Grid) : (s.modGrid k f).booted = s.booted := by rw [modGrid_eq]
@[simp] theorem modGrid_failedHalves (s : State) (k : Nat) (f : Grid → Grid) : (s.modGrid k f).failedHalves = s.failedHalves := by rw [modGrid_eq]
@[simp] theorem modGrid_failedFronts (s : State) (k : Nat) (f : Grid → Grid) : (s.modGrid k f).failedFronts = s.failedFronts := by rw [modGrid_eq]
@[simp] theorem modGrid_recordSigned (s : State) (k : Nat) (f : Grid → Grid) : (s.modGrid k f).recordSigned = s.recordSigned := by rw [modGrid_eq]
@[simp] theorem modGrid_fusedHalves (s : State) (k : Nat) (f : Grid → Grid) : (s.modGrid k f).fusedHalves = s.fusedHalves := by rw [modGrid_eq]
@[simp] theorem modGrid_fusedFronts (s : State) (k : Nat) (f : Grid → Grid) : (s.modGrid k f).fusedFronts = s.fusedFronts := by rw [modGrid_eq]
@[simp] theorem modGrid_bootFails (s : State) (k : Nat) (f : Grid → Grid) : (s.modGrid k f).bootFails = s.bootFails := by rw [modGrid_eq]
@[simp] theorem modGrid_bifurcated (s : State) (k : Nat) (f : Grid → Grid) : (s.modGrid k f).bifurcated = s.bifurcated := by rw [modGrid_eq]
@[simp] theorem modGrid_timeOff (s : State) (k : Nat) (f : Grid → Grid) : (s.modGrid k f).timeOff = s.timeOff := by rw [modGrid_eq]
@[simp] theorem modGrid_msix (s : State) (k : Nat) (f : Grid → Grid) : (s.modGrid k f).msix = s.msix := by rw [modGrid_eq]
@[simp] theorem modGrid_mem (s : State) (k : Nat) (f : Grid → Grid) : (s.modGrid k f).mem = s.mem := by rw [modGrid_eq]
@[simp] theorem modGrid_memPoison (s : State) (k : Nat) (f : Grid → Grid) : (s.modGrid k f).memPoison = s.memPoison := by rw [modGrid_eq]
@[simp] theorem modGrid_pf (s : State) (k : Nat) (f : Grid → Grid) : (s.modGrid k f).pf = s.pf := by rw [modGrid_eq]
@[simp] theorem modGrid_ces (s : State) (k : Nat) (f : Grid → Grid) : (s.modGrid k f).ces = s.ces := by rw [modGrid_eq]
@[simp] theorem modGrid_sec (s : State) (k : Nat) (f : Grid → Grid) : (s.modGrid k f).sec = s.sec := by rw [modGrid_eq]
@[simp] theorem modGrid_whet (s : State) (k : Nat) (f : Grid → Grid) : (s.modGrid k f).whet = s.whet := by rw [modGrid_eq]
@[simp] theorem modGrid_slices (s : State) (k : Nat) (f : Grid → Grid) : (s.modGrid k f).slices = s.slices := by rw [modGrid_eq]
@[simp] theorem modGrid_cores (s : State) (k : Nat) (f : Grid → Grid) : (s.modGrid k f).cores = s.cores := by rw [modGrid_eq]
@[simp] theorem modGrid_ctxs (s : State) (k : Nat) (f : Grid → Grid) : (s.modGrid k f).ctxs = s.ctxs := by rw [modGrid_eq]
@[simp] theorem modGrid_clusters (s : State) (k : Nat) (f : Grid → Grid) : (s.modGrid k f).clusters = s.clusters := by rw [modGrid_eq]
@[simp] theorem modGrid_teams (s : State) (k : Nat) (f : Grid → Grid) : (s.modGrid k f).teams = s.teams := by rw [modGrid_eq]
@[simp] theorem modGrid_groups (s : State) (k : Nat) (f : Grid → Grid) : (s.modGrid k f).groups = s.groups := by rw [modGrid_eq]
@[simp] theorem modGrid_threads (s : State) (k : Nat) (f : Grid → Grid) : (s.modGrid k f).threads = s.threads := by rw [modGrid_eq]
@[simp] theorem modGrid_loads (s : State) (k : Nat) (f : Grid → Grid) : (s.modGrid k f).loads = s.loads := by rw [modGrid_eq]
@[simp] theorem modGrid_stores (s : State) (k : Nat) (f : Grid → Grid) : (s.modGrid k f).stores = s.stores := by rw [modGrid_eq]
@[simp] theorem modGrid_walks (s : State) (k : Nat) (f : Grid → Grid) : (s.modGrid k f).walks = s.walks := by rw [modGrid_eq]
@[simp] theorem modGrid_promos (s : State) (k : Nat) (f : Grid → Grid) : (s.modGrid k f).promos = s.promos := by rw [modGrid_eq]
@[simp] theorem modGrid_feeds (s : State) (k : Nat) (f : Grid → Grid) : (s.modGrid k f).feeds = s.feeds := by rw [modGrid_eq]
@[simp] theorem modGrid_answer (s : State) (k : Nat) (f : Grid → Grid) : (s.modGrid k f).answer = s.answer := by rw [modGrid_eq]
theorem modGrid_of_get (s : State) (k : Nat) (f : Grid → Grid) (x : Grid) (h : spGet s.grids k = some x) :
    s.modGrid k f = { s with grids := spPut s.grids k (f x) } := by
  unfold State.modGrid
  rw [h]
  rfl

/-! Update of one Ctx. -/

@[simp] theorem setCtx_ctxs (s : State) (k : Nat) (x : Ctx) : (s.setCtx k x).ctxs = spPut s.ctxs k x := rfl
@[simp] theorem setCtx_clock (s : State) (k : Nat) (x : Ctx) : (s.setCtx k x).clock = s.clock := rfl
@[simp] theorem setCtx_plan (s : State) (k : Nat) (x : Ctx) : (s.setCtx k x).plan = s.plan := rfl
@[simp] theorem setCtx_agenda (s : State) (k : Nat) (x : Ctx) : (s.setCtx k x).agenda = s.agenda := rfl
@[simp] theorem setCtx_cur (s : State) (k : Nat) (x : Ctx) : (s.setCtx k x).cur = s.cur := rfl
@[simp] theorem setCtx_freeCtr (s : State) (k : Nat) (x : Ctx) : (s.setCtx k x).freeCtr = s.freeCtr := rfl
@[simp] theorem setCtx_nextId (s : State) (k : Nat) (x : Ctx) : (s.setCtx k x).nextId = s.nextId := rfl
@[simp] theorem setCtx_booted (s : State) (k : Nat) (x : Ctx) : (s.setCtx k x).booted = s.booted := rfl
@[simp] theorem setCtx_failedHalves (s : State) (k : Nat) (x : Ctx) : (s.setCtx k x).failedHalves = s.failedHalves := rfl
@[simp] theorem setCtx_failedFronts (s : State) (k : Nat) (x : Ctx) : (s.setCtx k x).failedFronts = s.failedFronts := rfl
@[simp] theorem setCtx_recordSigned (s : State) (k : Nat) (x : Ctx) : (s.setCtx k x).recordSigned = s.recordSigned := rfl
@[simp] theorem setCtx_fusedHalves (s : State) (k : Nat) (x : Ctx) : (s.setCtx k x).fusedHalves = s.fusedHalves := rfl
@[simp] theorem setCtx_fusedFronts (s : State) (k : Nat) (x : Ctx) : (s.setCtx k x).fusedFronts = s.fusedFronts := rfl
@[simp] theorem setCtx_bootFails (s : State) (k : Nat) (x : Ctx) : (s.setCtx k x).bootFails = s.bootFails := rfl
@[simp] theorem setCtx_bifurcated (s : State) (k : Nat) (x : Ctx) : (s.setCtx k x).bifurcated = s.bifurcated := rfl
@[simp] theorem setCtx_timeOff (s : State) (k : Nat) (x : Ctx) : (s.setCtx k x).timeOff = s.timeOff := rfl
@[simp] theorem setCtx_msix (s : State) (k : Nat) (x : Ctx) : (s.setCtx k x).msix = s.msix := rfl
@[simp] theorem setCtx_mem (s : State) (k : Nat) (x : Ctx) : (s.setCtx k x).mem = s.mem := rfl
@[simp] theorem setCtx_memPoison (s : State) (k : Nat) (x : Ctx) : (s.setCtx k x).memPoison = s.memPoison := rfl
@[simp] theorem setCtx_pf (s : State) (k : Nat) (x : Ctx) : (s.setCtx k x).pf = s.pf := rfl
@[simp] theorem setCtx_ces (s : State) (k : Nat) (x : Ctx) : (s.setCtx k x).ces = s.ces := rfl
@[simp] theorem setCtx_sec (s : State) (k : Nat) (x : Ctx) : (s.setCtx k x).sec = s.sec := rfl
@[simp] theorem setCtx_whet (s : State) (k : Nat) (x : Ctx) : (s.setCtx k x).whet = s.whet := rfl
@[simp] theorem setCtx_slices (s : State) (k : Nat) (x : Ctx) : (s.setCtx k x).slices = s.slices := rfl
@[simp] theorem setCtx_cores (s : State) (k : Nat) (x : Ctx) : (s.setCtx k x).cores = s.cores := rfl
@[simp] theorem setCtx_grids (s : State) (k : Nat) (x : Ctx) : (s.setCtx k x).grids = s.grids := rfl
@[simp] theorem setCtx_clusters (s : State) (k : Nat) (x : Ctx) : (s.setCtx k x).clusters = s.clusters := rfl
@[simp] theorem setCtx_teams (s : State) (k : Nat) (x : Ctx) : (s.setCtx k x).teams = s.teams := rfl
@[simp] theorem setCtx_groups (s : State) (k : Nat) (x : Ctx) : (s.setCtx k x).groups = s.groups := rfl
@[simp] theorem setCtx_threads (s : State) (k : Nat) (x : Ctx) : (s.setCtx k x).threads = s.threads := rfl
@[simp] theorem setCtx_loads (s : State) (k : Nat) (x : Ctx) : (s.setCtx k x).loads = s.loads := rfl
@[simp] theorem setCtx_stores (s : State) (k : Nat) (x : Ctx) : (s.setCtx k x).stores = s.stores := rfl
@[simp] theorem setCtx_walks (s : State) (k : Nat) (x : Ctx) : (s.setCtx k x).walks = s.walks := rfl
@[simp] theorem setCtx_promos (s : State) (k : Nat) (x : Ctx) : (s.setCtx k x).promos = s.promos := rfl
@[simp] theorem setCtx_feeds (s : State) (k : Nat) (x : Ctx) : (s.setCtx k x).feeds = s.feeds := rfl
@[simp] theorem setCtx_answer (s : State) (k : Nat) (x : Ctx) : (s.setCtx k x).answer = s.answer := rfl

theorem modCtx_eq (s : State) (k : Nat) (f : Ctx → Ctx) : s.modCtx k f = { s with ctxs := (s.modCtx k f).ctxs } := by
  unfold State.modCtx
  split <;> rfl

@[simp] theorem modCtx_clock (s : State) (k : Nat) (f : Ctx → Ctx) : (s.modCtx k f).clock = s.clock := by rw [modCtx_eq]
@[simp] theorem modCtx_plan (s : State) (k : Nat) (f : Ctx → Ctx) : (s.modCtx k f).plan = s.plan := by rw [modCtx_eq]
@[simp] theorem modCtx_agenda (s : State) (k : Nat) (f : Ctx → Ctx) : (s.modCtx k f).agenda = s.agenda := by rw [modCtx_eq]
@[simp] theorem modCtx_cur (s : State) (k : Nat) (f : Ctx → Ctx) : (s.modCtx k f).cur = s.cur := by rw [modCtx_eq]
@[simp] theorem modCtx_freeCtr (s : State) (k : Nat) (f : Ctx → Ctx) : (s.modCtx k f).freeCtr = s.freeCtr := by rw [modCtx_eq]
@[simp] theorem modCtx_nextId (s : State) (k : Nat) (f : Ctx → Ctx) : (s.modCtx k f).nextId = s.nextId := by rw [modCtx_eq]
@[simp] theorem modCtx_booted (s : State) (k : Nat) (f : Ctx → Ctx) : (s.modCtx k f).booted = s.booted := by rw [modCtx_eq]
@[simp] theorem modCtx_failedHalves (s : State) (k : Nat) (f : Ctx → Ctx) : (s.modCtx k f).failedHalves = s.failedHalves := by rw [modCtx_eq]
@[simp] theorem modCtx_failedFronts (s : State) (k : Nat) (f : Ctx → Ctx) : (s.modCtx k f).failedFronts = s.failedFronts := by rw [modCtx_eq]
@[simp] theorem modCtx_recordSigned (s : State) (k : Nat) (f : Ctx → Ctx) : (s.modCtx k f).recordSigned = s.recordSigned := by rw [modCtx_eq]
@[simp] theorem modCtx_fusedHalves (s : State) (k : Nat) (f : Ctx → Ctx) : (s.modCtx k f).fusedHalves = s.fusedHalves := by rw [modCtx_eq]
@[simp] theorem modCtx_fusedFronts (s : State) (k : Nat) (f : Ctx → Ctx) : (s.modCtx k f).fusedFronts = s.fusedFronts := by rw [modCtx_eq]
@[simp] theorem modCtx_bootFails (s : State) (k : Nat) (f : Ctx → Ctx) : (s.modCtx k f).bootFails = s.bootFails := by rw [modCtx_eq]
@[simp] theorem modCtx_bifurcated (s : State) (k : Nat) (f : Ctx → Ctx) : (s.modCtx k f).bifurcated = s.bifurcated := by rw [modCtx_eq]
@[simp] theorem modCtx_timeOff (s : State) (k : Nat) (f : Ctx → Ctx) : (s.modCtx k f).timeOff = s.timeOff := by rw [modCtx_eq]
@[simp] theorem modCtx_msix (s : State) (k : Nat) (f : Ctx → Ctx) : (s.modCtx k f).msix = s.msix := by rw [modCtx_eq]
@[simp] theorem modCtx_mem (s : State) (k : Nat) (f : Ctx → Ctx) : (s.modCtx k f).mem = s.mem := by rw [modCtx_eq]
@[simp] theorem modCtx_memPoison (s : State) (k : Nat) (f : Ctx → Ctx) : (s.modCtx k f).memPoison = s.memPoison := by rw [modCtx_eq]
@[simp] theorem modCtx_pf (s : State) (k : Nat) (f : Ctx → Ctx) : (s.modCtx k f).pf = s.pf := by rw [modCtx_eq]
@[simp] theorem modCtx_ces (s : State) (k : Nat) (f : Ctx → Ctx) : (s.modCtx k f).ces = s.ces := by rw [modCtx_eq]
@[simp] theorem modCtx_sec (s : State) (k : Nat) (f : Ctx → Ctx) : (s.modCtx k f).sec = s.sec := by rw [modCtx_eq]
@[simp] theorem modCtx_whet (s : State) (k : Nat) (f : Ctx → Ctx) : (s.modCtx k f).whet = s.whet := by rw [modCtx_eq]
@[simp] theorem modCtx_slices (s : State) (k : Nat) (f : Ctx → Ctx) : (s.modCtx k f).slices = s.slices := by rw [modCtx_eq]
@[simp] theorem modCtx_cores (s : State) (k : Nat) (f : Ctx → Ctx) : (s.modCtx k f).cores = s.cores := by rw [modCtx_eq]
@[simp] theorem modCtx_grids (s : State) (k : Nat) (f : Ctx → Ctx) : (s.modCtx k f).grids = s.grids := by rw [modCtx_eq]
@[simp] theorem modCtx_clusters (s : State) (k : Nat) (f : Ctx → Ctx) : (s.modCtx k f).clusters = s.clusters := by rw [modCtx_eq]
@[simp] theorem modCtx_teams (s : State) (k : Nat) (f : Ctx → Ctx) : (s.modCtx k f).teams = s.teams := by rw [modCtx_eq]
@[simp] theorem modCtx_groups (s : State) (k : Nat) (f : Ctx → Ctx) : (s.modCtx k f).groups = s.groups := by rw [modCtx_eq]
@[simp] theorem modCtx_threads (s : State) (k : Nat) (f : Ctx → Ctx) : (s.modCtx k f).threads = s.threads := by rw [modCtx_eq]
@[simp] theorem modCtx_loads (s : State) (k : Nat) (f : Ctx → Ctx) : (s.modCtx k f).loads = s.loads := by rw [modCtx_eq]
@[simp] theorem modCtx_stores (s : State) (k : Nat) (f : Ctx → Ctx) : (s.modCtx k f).stores = s.stores := by rw [modCtx_eq]
@[simp] theorem modCtx_walks (s : State) (k : Nat) (f : Ctx → Ctx) : (s.modCtx k f).walks = s.walks := by rw [modCtx_eq]
@[simp] theorem modCtx_promos (s : State) (k : Nat) (f : Ctx → Ctx) : (s.modCtx k f).promos = s.promos := by rw [modCtx_eq]
@[simp] theorem modCtx_feeds (s : State) (k : Nat) (f : Ctx → Ctx) : (s.modCtx k f).feeds = s.feeds := by rw [modCtx_eq]
@[simp] theorem modCtx_answer (s : State) (k : Nat) (f : Ctx → Ctx) : (s.modCtx k f).answer = s.answer := by rw [modCtx_eq]
theorem modCtx_of_get (s : State) (k : Nat) (f : Ctx → Ctx) (x : Ctx) (h : spGet s.ctxs k = some x) :
    s.modCtx k f = { s with ctxs := spPut s.ctxs k (f x) } := by
  unfold State.modCtx
  rw [h]
  rfl

/-! Update of one Core. -/

@[simp] theorem setCore_cores (s : State) (k : Nat) (x : Core) : (s.setCore k x).cores = spPut s.cores k x := rfl
@[simp] theorem setCore_clock (s : State) (k : Nat) (x : Core) : (s.setCore k x).clock = s.clock := rfl
@[simp] theorem setCore_plan (s : State) (k : Nat) (x : Core) : (s.setCore k x).plan = s.plan := rfl
@[simp] theorem setCore_agenda (s : State) (k : Nat) (x : Core) : (s.setCore k x).agenda = s.agenda := rfl
@[simp] theorem setCore_cur (s : State) (k : Nat) (x : Core) : (s.setCore k x).cur = s.cur := rfl
@[simp] theorem setCore_freeCtr (s : State) (k : Nat) (x : Core) : (s.setCore k x).freeCtr = s.freeCtr := rfl
@[simp] theorem setCore_nextId (s : State) (k : Nat) (x : Core) : (s.setCore k x).nextId = s.nextId := rfl
@[simp] theorem setCore_booted (s : State) (k : Nat) (x : Core) : (s.setCore k x).booted = s.booted := rfl
@[simp] theorem setCore_failedHalves (s : State) (k : Nat) (x : Core) : (s.setCore k x).failedHalves = s.failedHalves := rfl
@[simp] theorem setCore_failedFronts (s : State) (k : Nat) (x : Core) : (s.setCore k x).failedFronts = s.failedFronts := rfl
@[simp] theorem setCore_recordSigned (s : State) (k : Nat) (x : Core) : (s.setCore k x).recordSigned = s.recordSigned := rfl
@[simp] theorem setCore_fusedHalves (s : State) (k : Nat) (x : Core) : (s.setCore k x).fusedHalves = s.fusedHalves := rfl
@[simp] theorem setCore_fusedFronts (s : State) (k : Nat) (x : Core) : (s.setCore k x).fusedFronts = s.fusedFronts := rfl
@[simp] theorem setCore_bootFails (s : State) (k : Nat) (x : Core) : (s.setCore k x).bootFails = s.bootFails := rfl
@[simp] theorem setCore_bifurcated (s : State) (k : Nat) (x : Core) : (s.setCore k x).bifurcated = s.bifurcated := rfl
@[simp] theorem setCore_timeOff (s : State) (k : Nat) (x : Core) : (s.setCore k x).timeOff = s.timeOff := rfl
@[simp] theorem setCore_msix (s : State) (k : Nat) (x : Core) : (s.setCore k x).msix = s.msix := rfl
@[simp] theorem setCore_mem (s : State) (k : Nat) (x : Core) : (s.setCore k x).mem = s.mem := rfl
@[simp] theorem setCore_memPoison (s : State) (k : Nat) (x : Core) : (s.setCore k x).memPoison = s.memPoison := rfl
@[simp] theorem setCore_pf (s : State) (k : Nat) (x : Core) : (s.setCore k x).pf = s.pf := rfl
@[simp] theorem setCore_ces (s : State) (k : Nat) (x : Core) : (s.setCore k x).ces = s.ces := rfl
@[simp] theorem setCore_sec (s : State) (k : Nat) (x : Core) : (s.setCore k x).sec = s.sec := rfl
@[simp] theorem setCore_whet (s : State) (k : Nat) (x : Core) : (s.setCore k x).whet = s.whet := rfl
@[simp] theorem setCore_slices (s : State) (k : Nat) (x : Core) : (s.setCore k x).slices = s.slices := rfl
@[simp] theorem setCore_ctxs (s : State) (k : Nat) (x : Core) : (s.setCore k x).ctxs = s.ctxs := rfl
@[simp] theorem setCore_grids (s : State) (k : Nat) (x : Core) : (s.setCore k x).grids = s.grids := rfl
@[simp] theorem setCore_clusters (s : State) (k : Nat) (x : Core) : (s.setCore k x).clusters = s.clusters := rfl
@[simp] theorem setCore_teams (s : State) (k : Nat) (x : Core) : (s.setCore k x).teams = s.teams := rfl
@[simp] theorem setCore_groups (s : State) (k : Nat) (x : Core) : (s.setCore k x).groups = s.groups := rfl
@[simp] theorem setCore_threads (s : State) (k : Nat) (x : Core) : (s.setCore k x).threads = s.threads := rfl
@[simp] theorem setCore_loads (s : State) (k : Nat) (x : Core) : (s.setCore k x).loads = s.loads := rfl
@[simp] theorem setCore_stores (s : State) (k : Nat) (x : Core) : (s.setCore k x).stores = s.stores := rfl
@[simp] theorem setCore_walks (s : State) (k : Nat) (x : Core) : (s.setCore k x).walks = s.walks := rfl
@[simp] theorem setCore_promos (s : State) (k : Nat) (x : Core) : (s.setCore k x).promos = s.promos := rfl
@[simp] theorem setCore_feeds (s : State) (k : Nat) (x : Core) : (s.setCore k x).feeds = s.feeds := rfl
@[simp] theorem setCore_answer (s : State) (k : Nat) (x : Core) : (s.setCore k x).answer = s.answer := rfl

theorem modCore_eq (s : State) (k : Nat) (f : Core → Core) : s.modCore k f = { s with cores := (s.modCore k f).cores } := by
  unfold State.modCore
  split <;> rfl

@[simp] theorem modCore_clock (s : State) (k : Nat) (f : Core → Core) : (s.modCore k f).clock = s.clock := by rw [modCore_eq]
@[simp] theorem modCore_plan (s : State) (k : Nat) (f : Core → Core) : (s.modCore k f).plan = s.plan := by rw [modCore_eq]
@[simp] theorem modCore_agenda (s : State) (k : Nat) (f : Core → Core) : (s.modCore k f).agenda = s.agenda := by rw [modCore_eq]
@[simp] theorem modCore_cur (s : State) (k : Nat) (f : Core → Core) : (s.modCore k f).cur = s.cur := by rw [modCore_eq]
@[simp] theorem modCore_freeCtr (s : State) (k : Nat) (f : Core → Core) : (s.modCore k f).freeCtr = s.freeCtr := by rw [modCore_eq]
@[simp] theorem modCore_nextId (s : State) (k : Nat) (f : Core → Core) : (s.modCore k f).nextId = s.nextId := by rw [modCore_eq]
@[simp] theorem modCore_booted (s : State) (k : Nat) (f : Core → Core) : (s.modCore k f).booted = s.booted := by rw [modCore_eq]
@[simp] theorem modCore_failedHalves (s : State) (k : Nat) (f : Core → Core) : (s.modCore k f).failedHalves = s.failedHalves := by rw [modCore_eq]
@[simp] theorem modCore_failedFronts (s : State) (k : Nat) (f : Core → Core) : (s.modCore k f).failedFronts = s.failedFronts := by rw [modCore_eq]
@[simp] theorem modCore_recordSigned (s : State) (k : Nat) (f : Core → Core) : (s.modCore k f).recordSigned = s.recordSigned := by rw [modCore_eq]
@[simp] theorem modCore_fusedHalves (s : State) (k : Nat) (f : Core → Core) : (s.modCore k f).fusedHalves = s.fusedHalves := by rw [modCore_eq]
@[simp] theorem modCore_fusedFronts (s : State) (k : Nat) (f : Core → Core) : (s.modCore k f).fusedFronts = s.fusedFronts := by rw [modCore_eq]
@[simp] theorem modCore_bootFails (s : State) (k : Nat) (f : Core → Core) : (s.modCore k f).bootFails = s.bootFails := by rw [modCore_eq]
@[simp] theorem modCore_bifurcated (s : State) (k : Nat) (f : Core → Core) : (s.modCore k f).bifurcated = s.bifurcated := by rw [modCore_eq]
@[simp] theorem modCore_timeOff (s : State) (k : Nat) (f : Core → Core) : (s.modCore k f).timeOff = s.timeOff := by rw [modCore_eq]
@[simp] theorem modCore_msix (s : State) (k : Nat) (f : Core → Core) : (s.modCore k f).msix = s.msix := by rw [modCore_eq]
@[simp] theorem modCore_mem (s : State) (k : Nat) (f : Core → Core) : (s.modCore k f).mem = s.mem := by rw [modCore_eq]
@[simp] theorem modCore_memPoison (s : State) (k : Nat) (f : Core → Core) : (s.modCore k f).memPoison = s.memPoison := by rw [modCore_eq]
@[simp] theorem modCore_pf (s : State) (k : Nat) (f : Core → Core) : (s.modCore k f).pf = s.pf := by rw [modCore_eq]
@[simp] theorem modCore_ces (s : State) (k : Nat) (f : Core → Core) : (s.modCore k f).ces = s.ces := by rw [modCore_eq]
@[simp] theorem modCore_sec (s : State) (k : Nat) (f : Core → Core) : (s.modCore k f).sec = s.sec := by rw [modCore_eq]
@[simp] theorem modCore_whet (s : State) (k : Nat) (f : Core → Core) : (s.modCore k f).whet = s.whet := by rw [modCore_eq]
@[simp] theorem modCore_slices (s : State) (k : Nat) (f : Core → Core) : (s.modCore k f).slices = s.slices := by rw [modCore_eq]
@[simp] theorem modCore_ctxs (s : State) (k : Nat) (f : Core → Core) : (s.modCore k f).ctxs = s.ctxs := by rw [modCore_eq]
@[simp] theorem modCore_grids (s : State) (k : Nat) (f : Core → Core) : (s.modCore k f).grids = s.grids := by rw [modCore_eq]
@[simp] theorem modCore_clusters (s : State) (k : Nat) (f : Core → Core) : (s.modCore k f).clusters = s.clusters := by rw [modCore_eq]
@[simp] theorem modCore_teams (s : State) (k : Nat) (f : Core → Core) : (s.modCore k f).teams = s.teams := by rw [modCore_eq]
@[simp] theorem modCore_groups (s : State) (k : Nat) (f : Core → Core) : (s.modCore k f).groups = s.groups := by rw [modCore_eq]
@[simp] theorem modCore_threads (s : State) (k : Nat) (f : Core → Core) : (s.modCore k f).threads = s.threads := by rw [modCore_eq]
@[simp] theorem modCore_loads (s : State) (k : Nat) (f : Core → Core) : (s.modCore k f).loads = s.loads := by rw [modCore_eq]
@[simp] theorem modCore_stores (s : State) (k : Nat) (f : Core → Core) : (s.modCore k f).stores = s.stores := by rw [modCore_eq]
@[simp] theorem modCore_walks (s : State) (k : Nat) (f : Core → Core) : (s.modCore k f).walks = s.walks := by rw [modCore_eq]
@[simp] theorem modCore_promos (s : State) (k : Nat) (f : Core → Core) : (s.modCore k f).promos = s.promos := by rw [modCore_eq]
@[simp] theorem modCore_feeds (s : State) (k : Nat) (f : Core → Core) : (s.modCore k f).feeds = s.feeds := by rw [modCore_eq]
@[simp] theorem modCore_answer (s : State) (k : Nat) (f : Core → Core) : (s.modCore k f).answer = s.answer := by rw [modCore_eq]
theorem modCore_of_get (s : State) (k : Nat) (f : Core → Core) (x : Core) (h : spGet s.cores k = some x) :
    s.modCore k f = { s with cores := spPut s.cores k (f x) } := by
  unfold State.modCore
  rw [h]
  rfl

/-! Update of one Slice. -/

@[simp] theorem setSlice_slices (s : State) (k : Nat) (x : Slice) : (s.setSlice k x).slices = spPut s.slices k x := rfl
@[simp] theorem setSlice_clock (s : State) (k : Nat) (x : Slice) : (s.setSlice k x).clock = s.clock := rfl
@[simp] theorem setSlice_plan (s : State) (k : Nat) (x : Slice) : (s.setSlice k x).plan = s.plan := rfl
@[simp] theorem setSlice_agenda (s : State) (k : Nat) (x : Slice) : (s.setSlice k x).agenda = s.agenda := rfl
@[simp] theorem setSlice_cur (s : State) (k : Nat) (x : Slice) : (s.setSlice k x).cur = s.cur := rfl
@[simp] theorem setSlice_freeCtr (s : State) (k : Nat) (x : Slice) : (s.setSlice k x).freeCtr = s.freeCtr := rfl
@[simp] theorem setSlice_nextId (s : State) (k : Nat) (x : Slice) : (s.setSlice k x).nextId = s.nextId := rfl
@[simp] theorem setSlice_booted (s : State) (k : Nat) (x : Slice) : (s.setSlice k x).booted = s.booted := rfl
@[simp] theorem setSlice_failedHalves (s : State) (k : Nat) (x : Slice) : (s.setSlice k x).failedHalves = s.failedHalves := rfl
@[simp] theorem setSlice_failedFronts (s : State) (k : Nat) (x : Slice) : (s.setSlice k x).failedFronts = s.failedFronts := rfl
@[simp] theorem setSlice_recordSigned (s : State) (k : Nat) (x : Slice) : (s.setSlice k x).recordSigned = s.recordSigned := rfl
@[simp] theorem setSlice_fusedHalves (s : State) (k : Nat) (x : Slice) : (s.setSlice k x).fusedHalves = s.fusedHalves := rfl
@[simp] theorem setSlice_fusedFronts (s : State) (k : Nat) (x : Slice) : (s.setSlice k x).fusedFronts = s.fusedFronts := rfl
@[simp] theorem setSlice_bootFails (s : State) (k : Nat) (x : Slice) : (s.setSlice k x).bootFails = s.bootFails := rfl
@[simp] theorem setSlice_bifurcated (s : State) (k : Nat) (x : Slice) : (s.setSlice k x).bifurcated = s.bifurcated := rfl
@[simp] theorem setSlice_timeOff (s : State) (k : Nat) (x : Slice) : (s.setSlice k x).timeOff = s.timeOff := rfl
@[simp] theorem setSlice_msix (s : State) (k : Nat) (x : Slice) : (s.setSlice k x).msix = s.msix := rfl
@[simp] theorem setSlice_mem (s : State) (k : Nat) (x : Slice) : (s.setSlice k x).mem = s.mem := rfl
@[simp] theorem setSlice_memPoison (s : State) (k : Nat) (x : Slice) : (s.setSlice k x).memPoison = s.memPoison := rfl
@[simp] theorem setSlice_pf (s : State) (k : Nat) (x : Slice) : (s.setSlice k x).pf = s.pf := rfl
@[simp] theorem setSlice_ces (s : State) (k : Nat) (x : Slice) : (s.setSlice k x).ces = s.ces := rfl
@[simp] theorem setSlice_sec (s : State) (k : Nat) (x : Slice) : (s.setSlice k x).sec = s.sec := rfl
@[simp] theorem setSlice_whet (s : State) (k : Nat) (x : Slice) : (s.setSlice k x).whet = s.whet := rfl
@[simp] theorem setSlice_cores (s : State) (k : Nat) (x : Slice) : (s.setSlice k x).cores = s.cores := rfl
@[simp] theorem setSlice_ctxs (s : State) (k : Nat) (x : Slice) : (s.setSlice k x).ctxs = s.ctxs := rfl
@[simp] theorem setSlice_grids (s : State) (k : Nat) (x : Slice) : (s.setSlice k x).grids = s.grids := rfl
@[simp] theorem setSlice_clusters (s : State) (k : Nat) (x : Slice) : (s.setSlice k x).clusters = s.clusters := rfl
@[simp] theorem setSlice_teams (s : State) (k : Nat) (x : Slice) : (s.setSlice k x).teams = s.teams := rfl
@[simp] theorem setSlice_groups (s : State) (k : Nat) (x : Slice) : (s.setSlice k x).groups = s.groups := rfl
@[simp] theorem setSlice_threads (s : State) (k : Nat) (x : Slice) : (s.setSlice k x).threads = s.threads := rfl
@[simp] theorem setSlice_loads (s : State) (k : Nat) (x : Slice) : (s.setSlice k x).loads = s.loads := rfl
@[simp] theorem setSlice_stores (s : State) (k : Nat) (x : Slice) : (s.setSlice k x).stores = s.stores := rfl
@[simp] theorem setSlice_walks (s : State) (k : Nat) (x : Slice) : (s.setSlice k x).walks = s.walks := rfl
@[simp] theorem setSlice_promos (s : State) (k : Nat) (x : Slice) : (s.setSlice k x).promos = s.promos := rfl
@[simp] theorem setSlice_feeds (s : State) (k : Nat) (x : Slice) : (s.setSlice k x).feeds = s.feeds := rfl
@[simp] theorem setSlice_answer (s : State) (k : Nat) (x : Slice) : (s.setSlice k x).answer = s.answer := rfl

theorem modSlice_eq (s : State) (k : Nat) (f : Slice → Slice) : s.modSlice k f = { s with slices := (s.modSlice k f).slices } := by
  unfold State.modSlice
  split <;> rfl

@[simp] theorem modSlice_clock (s : State) (k : Nat) (f : Slice → Slice) : (s.modSlice k f).clock = s.clock := by rw [modSlice_eq]
@[simp] theorem modSlice_plan (s : State) (k : Nat) (f : Slice → Slice) : (s.modSlice k f).plan = s.plan := by rw [modSlice_eq]
@[simp] theorem modSlice_agenda (s : State) (k : Nat) (f : Slice → Slice) : (s.modSlice k f).agenda = s.agenda := by rw [modSlice_eq]
@[simp] theorem modSlice_cur (s : State) (k : Nat) (f : Slice → Slice) : (s.modSlice k f).cur = s.cur := by rw [modSlice_eq]
@[simp] theorem modSlice_freeCtr (s : State) (k : Nat) (f : Slice → Slice) : (s.modSlice k f).freeCtr = s.freeCtr := by rw [modSlice_eq]
@[simp] theorem modSlice_nextId (s : State) (k : Nat) (f : Slice → Slice) : (s.modSlice k f).nextId = s.nextId := by rw [modSlice_eq]
@[simp] theorem modSlice_booted (s : State) (k : Nat) (f : Slice → Slice) : (s.modSlice k f).booted = s.booted := by rw [modSlice_eq]
@[simp] theorem modSlice_failedHalves (s : State) (k : Nat) (f : Slice → Slice) : (s.modSlice k f).failedHalves = s.failedHalves := by rw [modSlice_eq]
@[simp] theorem modSlice_failedFronts (s : State) (k : Nat) (f : Slice → Slice) : (s.modSlice k f).failedFronts = s.failedFronts := by rw [modSlice_eq]
@[simp] theorem modSlice_recordSigned (s : State) (k : Nat) (f : Slice → Slice) : (s.modSlice k f).recordSigned = s.recordSigned := by rw [modSlice_eq]
@[simp] theorem modSlice_fusedHalves (s : State) (k : Nat) (f : Slice → Slice) : (s.modSlice k f).fusedHalves = s.fusedHalves := by rw [modSlice_eq]
@[simp] theorem modSlice_fusedFronts (s : State) (k : Nat) (f : Slice → Slice) : (s.modSlice k f).fusedFronts = s.fusedFronts := by rw [modSlice_eq]
@[simp] theorem modSlice_bootFails (s : State) (k : Nat) (f : Slice → Slice) : (s.modSlice k f).bootFails = s.bootFails := by rw [modSlice_eq]
@[simp] theorem modSlice_bifurcated (s : State) (k : Nat) (f : Slice → Slice) : (s.modSlice k f).bifurcated = s.bifurcated := by rw [modSlice_eq]
@[simp] theorem modSlice_timeOff (s : State) (k : Nat) (f : Slice → Slice) : (s.modSlice k f).timeOff = s.timeOff := by rw [modSlice_eq]
@[simp] theorem modSlice_msix (s : State) (k : Nat) (f : Slice → Slice) : (s.modSlice k f).msix = s.msix := by rw [modSlice_eq]
@[simp] theorem modSlice_mem (s : State) (k : Nat) (f : Slice → Slice) : (s.modSlice k f).mem = s.mem := by rw [modSlice_eq]
@[simp] theorem modSlice_memPoison (s : State) (k : Nat) (f : Slice → Slice) : (s.modSlice k f).memPoison = s.memPoison := by rw [modSlice_eq]
@[simp] theorem modSlice_pf (s : State) (k : Nat) (f : Slice → Slice) : (s.modSlice k f).pf = s.pf := by rw [modSlice_eq]
@[simp] theorem modSlice_ces (s : State) (k : Nat) (f : Slice → Slice) : (s.modSlice k f).ces = s.ces := by rw [modSlice_eq]
@[simp] theorem modSlice_sec (s : State) (k : Nat) (f : Slice → Slice) : (s.modSlice k f).sec = s.sec := by rw [modSlice_eq]
@[simp] theorem modSlice_whet (s : State) (k : Nat) (f : Slice → Slice) : (s.modSlice k f).whet = s.whet := by rw [modSlice_eq]
@[simp] theorem modSlice_cores (s : State) (k : Nat) (f : Slice → Slice) : (s.modSlice k f).cores = s.cores := by rw [modSlice_eq]
@[simp] theorem modSlice_ctxs (s : State) (k : Nat) (f : Slice → Slice) : (s.modSlice k f).ctxs = s.ctxs := by rw [modSlice_eq]
@[simp] theorem modSlice_grids (s : State) (k : Nat) (f : Slice → Slice) : (s.modSlice k f).grids = s.grids := by rw [modSlice_eq]
@[simp] theorem modSlice_clusters (s : State) (k : Nat) (f : Slice → Slice) : (s.modSlice k f).clusters = s.clusters := by rw [modSlice_eq]
@[simp] theorem modSlice_teams (s : State) (k : Nat) (f : Slice → Slice) : (s.modSlice k f).teams = s.teams := by rw [modSlice_eq]
@[simp] theorem modSlice_groups (s : State) (k : Nat) (f : Slice → Slice) : (s.modSlice k f).groups = s.groups := by rw [modSlice_eq]
@[simp] theorem modSlice_threads (s : State) (k : Nat) (f : Slice → Slice) : (s.modSlice k f).threads = s.threads := by rw [modSlice_eq]
@[simp] theorem modSlice_loads (s : State) (k : Nat) (f : Slice → Slice) : (s.modSlice k f).loads = s.loads := by rw [modSlice_eq]
@[simp] theorem modSlice_stores (s : State) (k : Nat) (f : Slice → Slice) : (s.modSlice k f).stores = s.stores := by rw [modSlice_eq]
@[simp] theorem modSlice_walks (s : State) (k : Nat) (f : Slice → Slice) : (s.modSlice k f).walks = s.walks := by rw [modSlice_eq]
@[simp] theorem modSlice_promos (s : State) (k : Nat) (f : Slice → Slice) : (s.modSlice k f).promos = s.promos := by rw [modSlice_eq]
@[simp] theorem modSlice_feeds (s : State) (k : Nat) (f : Slice → Slice) : (s.modSlice k f).feeds = s.feeds := by rw [modSlice_eq]
@[simp] theorem modSlice_answer (s : State) (k : Nat) (f : Slice → Slice) : (s.modSlice k f).answer = s.answer := by rw [modSlice_eq]
theorem modSlice_of_get (s : State) (k : Nat) (f : Slice → Slice) (x : Slice) (h : spGet s.slices k = some x) :
    s.modSlice k f = { s with slices := spPut s.slices k (f x) } := by
  unfold State.modSlice
  rw [h]
  rfl

/-! Update of one Ce. -/

@[simp] theorem setCe_ces (s : State) (k : Nat) (x : Ce) : (s.setCe k x).ces = spPut s.ces k x := rfl
@[simp] theorem setCe_clock (s : State) (k : Nat) (x : Ce) : (s.setCe k x).clock = s.clock := rfl
@[simp] theorem setCe_plan (s : State) (k : Nat) (x : Ce) : (s.setCe k x).plan = s.plan := rfl
@[simp] theorem setCe_agenda (s : State) (k : Nat) (x : Ce) : (s.setCe k x).agenda = s.agenda := rfl
@[simp] theorem setCe_cur (s : State) (k : Nat) (x : Ce) : (s.setCe k x).cur = s.cur := rfl
@[simp] theorem setCe_freeCtr (s : State) (k : Nat) (x : Ce) : (s.setCe k x).freeCtr = s.freeCtr := rfl
@[simp] theorem setCe_nextId (s : State) (k : Nat) (x : Ce) : (s.setCe k x).nextId = s.nextId := rfl
@[simp] theorem setCe_booted (s : State) (k : Nat) (x : Ce) : (s.setCe k x).booted = s.booted := rfl
@[simp] theorem setCe_failedHalves (s : State) (k : Nat) (x : Ce) : (s.setCe k x).failedHalves = s.failedHalves := rfl
@[simp] theorem setCe_failedFronts (s : State) (k : Nat) (x : Ce) : (s.setCe k x).failedFronts = s.failedFronts := rfl
@[simp] theorem setCe_recordSigned (s : State) (k : Nat) (x : Ce) : (s.setCe k x).recordSigned = s.recordSigned := rfl
@[simp] theorem setCe_fusedHalves (s : State) (k : Nat) (x : Ce) : (s.setCe k x).fusedHalves = s.fusedHalves := rfl
@[simp] theorem setCe_fusedFronts (s : State) (k : Nat) (x : Ce) : (s.setCe k x).fusedFronts = s.fusedFronts := rfl
@[simp] theorem setCe_bootFails (s : State) (k : Nat) (x : Ce) : (s.setCe k x).bootFails = s.bootFails := rfl
@[simp] theorem setCe_bifurcated (s : State) (k : Nat) (x : Ce) : (s.setCe k x).bifurcated = s.bifurcated := rfl
@[simp] theorem setCe_timeOff (s : State) (k : Nat) (x : Ce) : (s.setCe k x).timeOff = s.timeOff := rfl
@[simp] theorem setCe_msix (s : State) (k : Nat) (x : Ce) : (s.setCe k x).msix = s.msix := rfl
@[simp] theorem setCe_mem (s : State) (k : Nat) (x : Ce) : (s.setCe k x).mem = s.mem := rfl
@[simp] theorem setCe_memPoison (s : State) (k : Nat) (x : Ce) : (s.setCe k x).memPoison = s.memPoison := rfl
@[simp] theorem setCe_pf (s : State) (k : Nat) (x : Ce) : (s.setCe k x).pf = s.pf := rfl
@[simp] theorem setCe_sec (s : State) (k : Nat) (x : Ce) : (s.setCe k x).sec = s.sec := rfl
@[simp] theorem setCe_whet (s : State) (k : Nat) (x : Ce) : (s.setCe k x).whet = s.whet := rfl
@[simp] theorem setCe_slices (s : State) (k : Nat) (x : Ce) : (s.setCe k x).slices = s.slices := rfl
@[simp] theorem setCe_cores (s : State) (k : Nat) (x : Ce) : (s.setCe k x).cores = s.cores := rfl
@[simp] theorem setCe_ctxs (s : State) (k : Nat) (x : Ce) : (s.setCe k x).ctxs = s.ctxs := rfl
@[simp] theorem setCe_grids (s : State) (k : Nat) (x : Ce) : (s.setCe k x).grids = s.grids := rfl
@[simp] theorem setCe_clusters (s : State) (k : Nat) (x : Ce) : (s.setCe k x).clusters = s.clusters := rfl
@[simp] theorem setCe_teams (s : State) (k : Nat) (x : Ce) : (s.setCe k x).teams = s.teams := rfl
@[simp] theorem setCe_groups (s : State) (k : Nat) (x : Ce) : (s.setCe k x).groups = s.groups := rfl
@[simp] theorem setCe_threads (s : State) (k : Nat) (x : Ce) : (s.setCe k x).threads = s.threads := rfl
@[simp] theorem setCe_loads (s : State) (k : Nat) (x : Ce) : (s.setCe k x).loads = s.loads := rfl
@[simp] theorem setCe_stores (s : State) (k : Nat) (x : Ce) : (s.setCe k x).stores = s.stores := rfl
@[simp] theorem setCe_walks (s : State) (k : Nat) (x : Ce) : (s.setCe k x).walks = s.walks := rfl
@[simp] theorem setCe_promos (s : State) (k : Nat) (x : Ce) : (s.setCe k x).promos = s.promos := rfl
@[simp] theorem setCe_feeds (s : State) (k : Nat) (x : Ce) : (s.setCe k x).feeds = s.feeds := rfl
@[simp] theorem setCe_answer (s : State) (k : Nat) (x : Ce) : (s.setCe k x).answer = s.answer := rfl

/-! Handles, draws, signals. -/

@[simp] theorem fresh_nextId (s : State) : s.fresh.2.nextId = s.nextId + 1 := rfl
@[simp] theorem fresh_clock (s : State) : s.fresh.2.clock = s.clock := rfl
@[simp] theorem fresh_plan (s : State) : s.fresh.2.plan = s.plan := rfl
@[simp] theorem fresh_agenda (s : State) : s.fresh.2.agenda = s.agenda := rfl
@[simp] theorem fresh_cur (s : State) : s.fresh.2.cur = s.cur := rfl
@[simp] theorem fresh_freeCtr (s : State) : s.fresh.2.freeCtr = s.freeCtr := rfl
@[simp] theorem fresh_booted (s : State) : s.fresh.2.booted = s.booted := rfl
@[simp] theorem fresh_failedHalves (s : State) : s.fresh.2.failedHalves = s.failedHalves := rfl
@[simp] theorem fresh_failedFronts (s : State) : s.fresh.2.failedFronts = s.failedFronts := rfl
@[simp] theorem fresh_recordSigned (s : State) : s.fresh.2.recordSigned = s.recordSigned := rfl
@[simp] theorem fresh_fusedHalves (s : State) : s.fresh.2.fusedHalves = s.fusedHalves := rfl
@[simp] theorem fresh_fusedFronts (s : State) : s.fresh.2.fusedFronts = s.fusedFronts := rfl
@[simp] theorem fresh_bootFails (s : State) : s.fresh.2.bootFails = s.bootFails := rfl
@[simp] theorem fresh_bifurcated (s : State) : s.fresh.2.bifurcated = s.bifurcated := rfl
@[simp] theorem fresh_timeOff (s : State) : s.fresh.2.timeOff = s.timeOff := rfl
@[simp] theorem fresh_msix (s : State) : s.fresh.2.msix = s.msix := rfl
@[simp] theorem fresh_mem (s : State) : s.fresh.2.mem = s.mem := rfl
@[simp] theorem fresh_memPoison (s : State) : s.fresh.2.memPoison = s.memPoison := rfl
@[simp] theorem fresh_pf (s : State) : s.fresh.2.pf = s.pf := rfl
@[simp] theorem fresh_ces (s : State) : s.fresh.2.ces = s.ces := rfl
@[simp] theorem fresh_sec (s : State) : s.fresh.2.sec = s.sec := rfl
@[simp] theorem fresh_whet (s : State) : s.fresh.2.whet = s.whet := rfl
@[simp] theorem fresh_slices (s : State) : s.fresh.2.slices = s.slices := rfl
@[simp] theorem fresh_cores (s : State) : s.fresh.2.cores = s.cores := rfl
@[simp] theorem fresh_ctxs (s : State) : s.fresh.2.ctxs = s.ctxs := rfl
@[simp] theorem fresh_grids (s : State) : s.fresh.2.grids = s.grids := rfl
@[simp] theorem fresh_clusters (s : State) : s.fresh.2.clusters = s.clusters := rfl
@[simp] theorem fresh_teams (s : State) : s.fresh.2.teams = s.teams := rfl
@[simp] theorem fresh_groups (s : State) : s.fresh.2.groups = s.groups := rfl
@[simp] theorem fresh_threads (s : State) : s.fresh.2.threads = s.threads := rfl
@[simp] theorem fresh_loads (s : State) : s.fresh.2.loads = s.loads := rfl
@[simp] theorem fresh_stores (s : State) : s.fresh.2.stores = s.stores := rfl
@[simp] theorem fresh_walks (s : State) : s.fresh.2.walks = s.walks := rfl
@[simp] theorem fresh_promos (s : State) : s.fresh.2.promos = s.promos := rfl
@[simp] theorem fresh_feeds (s : State) : s.fresh.2.feeds = s.feeds := rfl
@[simp] theorem fresh_answer (s : State) : s.fresh.2.answer = s.answer := rfl
@[simp] theorem draw_freeCtr (s : State) : s.draw.2.freeCtr = s.freeCtr + 1 := rfl
@[simp] theorem draw_clock (s : State) : s.draw.2.clock = s.clock := rfl
@[simp] theorem draw_plan (s : State) : s.draw.2.plan = s.plan := rfl
@[simp] theorem draw_agenda (s : State) : s.draw.2.agenda = s.agenda := rfl
@[simp] theorem draw_cur (s : State) : s.draw.2.cur = s.cur := rfl
@[simp] theorem draw_nextId (s : State) : s.draw.2.nextId = s.nextId := rfl
@[simp] theorem draw_booted (s : State) : s.draw.2.booted = s.booted := rfl
@[simp] theorem draw_failedHalves (s : State) : s.draw.2.failedHalves = s.failedHalves := rfl
@[simp] theorem draw_failedFronts (s : State) : s.draw.2.failedFronts = s.failedFronts := rfl
@[simp] theorem draw_recordSigned (s : State) : s.draw.2.recordSigned = s.recordSigned := rfl
@[simp] theorem draw_fusedHalves (s : State) : s.draw.2.fusedHalves = s.fusedHalves := rfl
@[simp] theorem draw_fusedFronts (s : State) : s.draw.2.fusedFronts = s.fusedFronts := rfl
@[simp] theorem draw_bootFails (s : State) : s.draw.2.bootFails = s.bootFails := rfl
@[simp] theorem draw_bifurcated (s : State) : s.draw.2.bifurcated = s.bifurcated := rfl
@[simp] theorem draw_timeOff (s : State) : s.draw.2.timeOff = s.timeOff := rfl
@[simp] theorem draw_msix (s : State) : s.draw.2.msix = s.msix := rfl
@[simp] theorem draw_mem (s : State) : s.draw.2.mem = s.mem := rfl
@[simp] theorem draw_memPoison (s : State) : s.draw.2.memPoison = s.memPoison := rfl
@[simp] theorem draw_pf (s : State) : s.draw.2.pf = s.pf := rfl
@[simp] theorem draw_ces (s : State) : s.draw.2.ces = s.ces := rfl
@[simp] theorem draw_sec (s : State) : s.draw.2.sec = s.sec := rfl
@[simp] theorem draw_whet (s : State) : s.draw.2.whet = s.whet := rfl
@[simp] theorem draw_slices (s : State) : s.draw.2.slices = s.slices := rfl
@[simp] theorem draw_cores (s : State) : s.draw.2.cores = s.cores := rfl
@[simp] theorem draw_ctxs (s : State) : s.draw.2.ctxs = s.ctxs := rfl
@[simp] theorem draw_grids (s : State) : s.draw.2.grids = s.grids := rfl
@[simp] theorem draw_clusters (s : State) : s.draw.2.clusters = s.clusters := rfl
@[simp] theorem draw_teams (s : State) : s.draw.2.teams = s.teams := rfl
@[simp] theorem draw_groups (s : State) : s.draw.2.groups = s.groups := rfl
@[simp] theorem draw_threads (s : State) : s.draw.2.threads = s.threads := rfl
@[simp] theorem draw_loads (s : State) : s.draw.2.loads = s.loads := rfl
@[simp] theorem draw_stores (s : State) : s.draw.2.stores = s.stores := rfl
@[simp] theorem draw_walks (s : State) : s.draw.2.walks = s.walks := rfl
@[simp] theorem draw_promos (s : State) : s.draw.2.promos = s.promos := rfl
@[simp] theorem draw_feeds (s : State) : s.draw.2.feeds = s.feeds := rfl
@[simp] theorem draw_answer (s : State) : s.draw.2.answer = s.answer := rfl
@[simp] theorem signal_clock (s : State) (k : Func) (v : Nat) : (s.signal k v).clock = s.clock := rfl
@[simp] theorem signal_plan (s : State) (k : Func) (v : Nat) : (s.signal k v).plan = s.plan := rfl
@[simp] theorem signal_agenda (s : State) (k : Func) (v : Nat) : (s.signal k v).agenda = s.agenda := rfl
@[simp] theorem signal_cur (s : State) (k : Func) (v : Nat) : (s.signal k v).cur = s.cur := rfl
@[simp] theorem signal_freeCtr (s : State) (k : Func) (v : Nat) : (s.signal k v).freeCtr = s.freeCtr := rfl
@[simp] theorem signal_nextId (s : State) (k : Func) (v : Nat) : (s.signal k v).nextId = s.nextId := rfl
@[simp] theorem signal_booted (s : State) (k : Func) (v : Nat) : (s.signal k v).booted = s.booted := rfl
@[simp] theorem signal_failedHalves (s : State) (k : Func) (v : Nat) : (s.signal k v).failedHalves = s.failedHalves := rfl
@[simp] theorem signal_failedFronts (s : State) (k : Func) (v : Nat) : (s.signal k v).failedFronts = s.failedFronts := rfl
@[simp] theorem signal_recordSigned (s : State) (k : Func) (v : Nat) : (s.signal k v).recordSigned = s.recordSigned := rfl
@[simp] theorem signal_fusedHalves (s : State) (k : Func) (v : Nat) : (s.signal k v).fusedHalves = s.fusedHalves := rfl
@[simp] theorem signal_fusedFronts (s : State) (k : Func) (v : Nat) : (s.signal k v).fusedFronts = s.fusedFronts := rfl
@[simp] theorem signal_bootFails (s : State) (k : Func) (v : Nat) : (s.signal k v).bootFails = s.bootFails := rfl
@[simp] theorem signal_bifurcated (s : State) (k : Func) (v : Nat) : (s.signal k v).bifurcated = s.bifurcated := rfl
@[simp] theorem signal_timeOff (s : State) (k : Func) (v : Nat) : (s.signal k v).timeOff = s.timeOff := rfl
@[simp] theorem signal_msix (s : State) (k : Func) (v : Nat) : (s.signal k v).msix = s.msix ++ [(k, v)] := rfl
@[simp] theorem signal_mem (s : State) (k : Func) (v : Nat) : (s.signal k v).mem = s.mem := rfl
@[simp] theorem signal_memPoison (s : State) (k : Func) (v : Nat) : (s.signal k v).memPoison = s.memPoison := rfl
@[simp] theorem signal_pf (s : State) (k : Func) (v : Nat) : (s.signal k v).pf = s.pf := rfl
@[simp] theorem signal_ces (s : State) (k : Func) (v : Nat) : (s.signal k v).ces = s.ces := rfl
@[simp] theorem signal_sec (s : State) (k : Func) (v : Nat) : (s.signal k v).sec = s.sec := rfl
@[simp] theorem signal_whet (s : State) (k : Func) (v : Nat) : (s.signal k v).whet = s.whet := rfl
@[simp] theorem signal_slices (s : State) (k : Func) (v : Nat) : (s.signal k v).slices = s.slices := rfl
@[simp] theorem signal_cores (s : State) (k : Func) (v : Nat) : (s.signal k v).cores = s.cores := rfl
@[simp] theorem signal_ctxs (s : State) (k : Func) (v : Nat) : (s.signal k v).ctxs = s.ctxs := rfl
@[simp] theorem signal_grids (s : State) (k : Func) (v : Nat) : (s.signal k v).grids = s.grids := rfl
@[simp] theorem signal_clusters (s : State) (k : Func) (v : Nat) : (s.signal k v).clusters = s.clusters := rfl
@[simp] theorem signal_teams (s : State) (k : Func) (v : Nat) : (s.signal k v).teams = s.teams := rfl
@[simp] theorem signal_groups (s : State) (k : Func) (v : Nat) : (s.signal k v).groups = s.groups := rfl
@[simp] theorem signal_threads (s : State) (k : Func) (v : Nat) : (s.signal k v).threads = s.threads := rfl
@[simp] theorem signal_loads (s : State) (k : Func) (v : Nat) : (s.signal k v).loads = s.loads := rfl
@[simp] theorem signal_stores (s : State) (k : Func) (v : Nat) : (s.signal k v).stores = s.stores := rfl
@[simp] theorem signal_walks (s : State) (k : Func) (v : Nat) : (s.signal k v).walks = s.walks := rfl
@[simp] theorem signal_promos (s : State) (k : Func) (v : Nat) : (s.signal k v).promos = s.promos := rfl
@[simp] theorem signal_feeds (s : State) (k : Func) (v : Nat) : (s.signal k v).feeds = s.feeds := rfl
@[simp] theorem signal_answer (s : State) (k : Func) (v : Nat) : (s.signal k v).answer = s.answer := rfl
@[simp] theorem setPfreg_clock (s : State) (k : Nat) (v : DWord) : (s.setPfreg k v).clock = s.clock := rfl
@[simp] theorem setPfreg_plan (s : State) (k : Nat) (v : DWord) : (s.setPfreg k v).plan = s.plan := rfl
@[simp] theorem setPfreg_agenda (s : State) (k : Nat) (v : DWord) : (s.setPfreg k v).agenda = s.agenda := rfl
@[simp] theorem setPfreg_cur (s : State) (k : Nat) (v : DWord) : (s.setPfreg k v).cur = s.cur := rfl
@[simp] theorem setPfreg_freeCtr (s : State) (k : Nat) (v : DWord) : (s.setPfreg k v).freeCtr = s.freeCtr := rfl
@[simp] theorem setPfreg_nextId (s : State) (k : Nat) (v : DWord) : (s.setPfreg k v).nextId = s.nextId := rfl
@[simp] theorem setPfreg_booted (s : State) (k : Nat) (v : DWord) : (s.setPfreg k v).booted = s.booted := rfl
@[simp] theorem setPfreg_failedHalves (s : State) (k : Nat) (v : DWord) : (s.setPfreg k v).failedHalves = s.failedHalves := rfl
@[simp] theorem setPfreg_failedFronts (s : State) (k : Nat) (v : DWord) : (s.setPfreg k v).failedFronts = s.failedFronts := rfl
@[simp] theorem setPfreg_recordSigned (s : State) (k : Nat) (v : DWord) : (s.setPfreg k v).recordSigned = s.recordSigned := rfl
@[simp] theorem setPfreg_fusedHalves (s : State) (k : Nat) (v : DWord) : (s.setPfreg k v).fusedHalves = s.fusedHalves := rfl
@[simp] theorem setPfreg_fusedFronts (s : State) (k : Nat) (v : DWord) : (s.setPfreg k v).fusedFronts = s.fusedFronts := rfl
@[simp] theorem setPfreg_bootFails (s : State) (k : Nat) (v : DWord) : (s.setPfreg k v).bootFails = s.bootFails := rfl
@[simp] theorem setPfreg_bifurcated (s : State) (k : Nat) (v : DWord) : (s.setPfreg k v).bifurcated = s.bifurcated := rfl
@[simp] theorem setPfreg_timeOff (s : State) (k : Nat) (v : DWord) : (s.setPfreg k v).timeOff = s.timeOff := rfl
@[simp] theorem setPfreg_msix (s : State) (k : Nat) (v : DWord) : (s.setPfreg k v).msix = s.msix := rfl
@[simp] theorem setPfreg_mem (s : State) (k : Nat) (v : DWord) : (s.setPfreg k v).mem = s.mem := rfl
@[simp] theorem setPfreg_memPoison (s : State) (k : Nat) (v : DWord) : (s.setPfreg k v).memPoison = s.memPoison := rfl
@[simp] theorem setPfreg_pf (s : State) (k : Nat) (v : DWord) : (s.setPfreg k v).pf = spWrite 0 s.pf k v := rfl
@[simp] theorem setPfreg_ces (s : State) (k : Nat) (v : DWord) : (s.setPfreg k v).ces = s.ces := rfl
@[simp] theorem setPfreg_sec (s : State) (k : Nat) (v : DWord) : (s.setPfreg k v).sec = s.sec := rfl
@[simp] theorem setPfreg_whet (s : State) (k : Nat) (v : DWord) : (s.setPfreg k v).whet = s.whet := rfl
@[simp] theorem setPfreg_slices (s : State) (k : Nat) (v : DWord) : (s.setPfreg k v).slices = s.slices := rfl
@[simp] theorem setPfreg_cores (s : State) (k : Nat) (v : DWord) : (s.setPfreg k v).cores = s.cores := rfl
@[simp] theorem setPfreg_ctxs (s : State) (k : Nat) (v : DWord) : (s.setPfreg k v).ctxs = s.ctxs := rfl
@[simp] theorem setPfreg_grids (s : State) (k : Nat) (v : DWord) : (s.setPfreg k v).grids = s.grids := rfl
@[simp] theorem setPfreg_clusters (s : State) (k : Nat) (v : DWord) : (s.setPfreg k v).clusters = s.clusters := rfl
@[simp] theorem setPfreg_teams (s : State) (k : Nat) (v : DWord) : (s.setPfreg k v).teams = s.teams := rfl
@[simp] theorem setPfreg_groups (s : State) (k : Nat) (v : DWord) : (s.setPfreg k v).groups = s.groups := rfl
@[simp] theorem setPfreg_threads (s : State) (k : Nat) (v : DWord) : (s.setPfreg k v).threads = s.threads := rfl
@[simp] theorem setPfreg_loads (s : State) (k : Nat) (v : DWord) : (s.setPfreg k v).loads = s.loads := rfl
@[simp] theorem setPfreg_stores (s : State) (k : Nat) (v : DWord) : (s.setPfreg k v).stores = s.stores := rfl
@[simp] theorem setPfreg_walks (s : State) (k : Nat) (v : DWord) : (s.setPfreg k v).walks = s.walks := rfl
@[simp] theorem setPfreg_promos (s : State) (k : Nat) (v : DWord) : (s.setPfreg k v).promos = s.promos := rfl
@[simp] theorem setPfreg_feeds (s : State) (k : Nat) (v : DWord) : (s.setPfreg k v).feeds = s.feeds := rfl
@[simp] theorem setPfreg_answer (s : State) (k : Nat) (v : DWord) : (s.setPfreg k v).answer = s.answer := rfl

@[simp] theorem setSreg_clock (s : State) (k i : Nat) (v : DWord) : (s.setSreg k i v).clock = s.clock := by simp [State.setSreg]
@[simp] theorem setSreg_plan (s : State) (k i : Nat) (v : DWord) : (s.setSreg k i v).plan = s.plan := by simp [State.setSreg]
@[simp] theorem setSreg_agenda (s : State) (k i : Nat) (v : DWord) : (s.setSreg k i v).agenda = s.agenda := by simp [State.setSreg]
@[simp] theorem setSreg_cur (s : State) (k i : Nat) (v : DWord) : (s.setSreg k i v).cur = s.cur := by simp [State.setSreg]
@[simp] theorem setSreg_freeCtr (s : State) (k i : Nat) (v : DWord) : (s.setSreg k i v).freeCtr = s.freeCtr := by simp [State.setSreg]
@[simp] theorem setSreg_nextId (s : State) (k i : Nat) (v : DWord) : (s.setSreg k i v).nextId = s.nextId := by simp [State.setSreg]
@[simp] theorem setSreg_booted (s : State) (k i : Nat) (v : DWord) : (s.setSreg k i v).booted = s.booted := by simp [State.setSreg]
@[simp] theorem setSreg_failedHalves (s : State) (k i : Nat) (v : DWord) : (s.setSreg k i v).failedHalves = s.failedHalves := by simp [State.setSreg]
@[simp] theorem setSreg_failedFronts (s : State) (k i : Nat) (v : DWord) : (s.setSreg k i v).failedFronts = s.failedFronts := by simp [State.setSreg]
@[simp] theorem setSreg_recordSigned (s : State) (k i : Nat) (v : DWord) : (s.setSreg k i v).recordSigned = s.recordSigned := by simp [State.setSreg]
@[simp] theorem setSreg_fusedHalves (s : State) (k i : Nat) (v : DWord) : (s.setSreg k i v).fusedHalves = s.fusedHalves := by simp [State.setSreg]
@[simp] theorem setSreg_fusedFronts (s : State) (k i : Nat) (v : DWord) : (s.setSreg k i v).fusedFronts = s.fusedFronts := by simp [State.setSreg]
@[simp] theorem setSreg_bootFails (s : State) (k i : Nat) (v : DWord) : (s.setSreg k i v).bootFails = s.bootFails := by simp [State.setSreg]
@[simp] theorem setSreg_bifurcated (s : State) (k i : Nat) (v : DWord) : (s.setSreg k i v).bifurcated = s.bifurcated := by simp [State.setSreg]
@[simp] theorem setSreg_timeOff (s : State) (k i : Nat) (v : DWord) : (s.setSreg k i v).timeOff = s.timeOff := by simp [State.setSreg]
@[simp] theorem setSreg_msix (s : State) (k i : Nat) (v : DWord) : (s.setSreg k i v).msix = s.msix := by simp [State.setSreg]
@[simp] theorem setSreg_mem (s : State) (k i : Nat) (v : DWord) : (s.setSreg k i v).mem = s.mem := by simp [State.setSreg]
@[simp] theorem setSreg_memPoison (s : State) (k i : Nat) (v : DWord) : (s.setSreg k i v).memPoison = s.memPoison := by simp [State.setSreg]
@[simp] theorem setSreg_pf (s : State) (k i : Nat) (v : DWord) : (s.setSreg k i v).pf = s.pf := by simp [State.setSreg]
@[simp] theorem setSreg_ces (s : State) (k i : Nat) (v : DWord) : (s.setSreg k i v).ces = s.ces := by simp [State.setSreg]
@[simp] theorem setSreg_sec (s : State) (k i : Nat) (v : DWord) : (s.setSreg k i v).sec = s.sec := by simp [State.setSreg]
@[simp] theorem setSreg_whet (s : State) (k i : Nat) (v : DWord) : (s.setSreg k i v).whet = s.whet := by simp [State.setSreg]
@[simp] theorem setSreg_cores (s : State) (k i : Nat) (v : DWord) : (s.setSreg k i v).cores = s.cores := by simp [State.setSreg]
@[simp] theorem setSreg_ctxs (s : State) (k i : Nat) (v : DWord) : (s.setSreg k i v).ctxs = s.ctxs := by simp [State.setSreg]
@[simp] theorem setSreg_grids (s : State) (k i : Nat) (v : DWord) : (s.setSreg k i v).grids = s.grids := by simp [State.setSreg]
@[simp] theorem setSreg_clusters (s : State) (k i : Nat) (v : DWord) : (s.setSreg k i v).clusters = s.clusters := by simp [State.setSreg]
@[simp] theorem setSreg_teams (s : State) (k i : Nat) (v : DWord) : (s.setSreg k i v).teams = s.teams := by simp [State.setSreg]
@[simp] theorem setSreg_groups (s : State) (k i : Nat) (v : DWord) : (s.setSreg k i v).groups = s.groups := by simp [State.setSreg]
@[simp] theorem setSreg_threads (s : State) (k i : Nat) (v : DWord) : (s.setSreg k i v).threads = s.threads := by simp [State.setSreg]
@[simp] theorem setSreg_loads (s : State) (k i : Nat) (v : DWord) : (s.setSreg k i v).loads = s.loads := by simp [State.setSreg]
@[simp] theorem setSreg_stores (s : State) (k i : Nat) (v : DWord) : (s.setSreg k i v).stores = s.stores := by simp [State.setSreg]
@[simp] theorem setSreg_walks (s : State) (k i : Nat) (v : DWord) : (s.setSreg k i v).walks = s.walks := by simp [State.setSreg]
@[simp] theorem setSreg_promos (s : State) (k i : Nat) (v : DWord) : (s.setSreg k i v).promos = s.promos := by simp [State.setSreg]
@[simp] theorem setSreg_feeds (s : State) (k i : Nat) (v : DWord) : (s.setSreg k i v).feeds = s.feeds := by simp [State.setSreg]
@[simp] theorem setSreg_answer (s : State) (k i : Nat) (v : DWord) : (s.setSreg k i v).answer = s.answer := by simp [State.setSreg]
@[simp] theorem count_clock (s : State) (k i : Nat) : (s.count k i).clock = s.clock := by simp [State.count]
@[simp] theorem count_plan (s : State) (k i : Nat) : (s.count k i).plan = s.plan := by simp [State.count]
@[simp] theorem count_agenda (s : State) (k i : Nat) : (s.count k i).agenda = s.agenda := by simp [State.count]
@[simp] theorem count_cur (s : State) (k i : Nat) : (s.count k i).cur = s.cur := by simp [State.count]
@[simp] theorem count_freeCtr (s : State) (k i : Nat) : (s.count k i).freeCtr = s.freeCtr := by simp [State.count]
@[simp] theorem count_nextId (s : State) (k i : Nat) : (s.count k i).nextId = s.nextId := by simp [State.count]
@[simp] theorem count_booted (s : State) (k i : Nat) : (s.count k i).booted = s.booted := by simp [State.count]
@[simp] theorem count_failedHalves (s : State) (k i : Nat) : (s.count k i).failedHalves = s.failedHalves := by simp [State.count]
@[simp] theorem count_failedFronts (s : State) (k i : Nat) : (s.count k i).failedFronts = s.failedFronts := by simp [State.count]
@[simp] theorem count_recordSigned (s : State) (k i : Nat) : (s.count k i).recordSigned = s.recordSigned := by simp [State.count]
@[simp] theorem count_fusedHalves (s : State) (k i : Nat) : (s.count k i).fusedHalves = s.fusedHalves := by simp [State.count]
@[simp] theorem count_fusedFronts (s : State) (k i : Nat) : (s.count k i).fusedFronts = s.fusedFronts := by simp [State.count]
@[simp] theorem count_bootFails (s : State) (k i : Nat) : (s.count k i).bootFails = s.bootFails := by simp [State.count]
@[simp] theorem count_bifurcated (s : State) (k i : Nat) : (s.count k i).bifurcated = s.bifurcated := by simp [State.count]
@[simp] theorem count_timeOff (s : State) (k i : Nat) : (s.count k i).timeOff = s.timeOff := by simp [State.count]
@[simp] theorem count_msix (s : State) (k i : Nat) : (s.count k i).msix = s.msix := by simp [State.count]
@[simp] theorem count_mem (s : State) (k i : Nat) : (s.count k i).mem = s.mem := by simp [State.count]
@[simp] theorem count_memPoison (s : State) (k i : Nat) : (s.count k i).memPoison = s.memPoison := by simp [State.count]
@[simp] theorem count_pf (s : State) (k i : Nat) : (s.count k i).pf = s.pf := by simp [State.count]
@[simp] theorem count_ces (s : State) (k i : Nat) : (s.count k i).ces = s.ces := by simp [State.count]
@[simp] theorem count_sec (s : State) (k i : Nat) : (s.count k i).sec = s.sec := by simp [State.count]
@[simp] theorem count_whet (s : State) (k i : Nat) : (s.count k i).whet = s.whet := by simp [State.count]
@[simp] theorem count_cores (s : State) (k i : Nat) : (s.count k i).cores = s.cores := by simp [State.count]
@[simp] theorem count_ctxs (s : State) (k i : Nat) : (s.count k i).ctxs = s.ctxs := by simp [State.count]
@[simp] theorem count_grids (s : State) (k i : Nat) : (s.count k i).grids = s.grids := by simp [State.count]
@[simp] theorem count_clusters (s : State) (k i : Nat) : (s.count k i).clusters = s.clusters := by simp [State.count]
@[simp] theorem count_teams (s : State) (k i : Nat) : (s.count k i).teams = s.teams := by simp [State.count]
@[simp] theorem count_groups (s : State) (k i : Nat) : (s.count k i).groups = s.groups := by simp [State.count]
@[simp] theorem count_threads (s : State) (k i : Nat) : (s.count k i).threads = s.threads := by simp [State.count]
@[simp] theorem count_loads (s : State) (k i : Nat) : (s.count k i).loads = s.loads := by simp [State.count]
@[simp] theorem count_stores (s : State) (k i : Nat) : (s.count k i).stores = s.stores := by simp [State.count]
@[simp] theorem count_walks (s : State) (k i : Nat) : (s.count k i).walks = s.walks := by simp [State.count]
@[simp] theorem count_promos (s : State) (k i : Nat) : (s.count k i).promos = s.promos := by simp [State.count]
@[simp] theorem count_feeds (s : State) (k i : Nat) : (s.count k i).feeds = s.feeds := by simp [State.count]
@[simp] theorem count_answer (s : State) (k i : Nat) : (s.count k i).answer = s.answer := by simp [State.count]

end Sys2Proof.Machine
end

