-- ==== Sys2Proof/Laws/Lane.lean ====
section
/-! SUPPORT. What a lane-form instruction comes to when every member of its issue set can complete: its members' records replaced, and
nothing else. One lemma for each operand form, one for the set. -/

namespace Sys2Proof.Machine

open Sys2Proof.Terms

/-! The lane monad. -/

theorem laneM_bind_ok {α β : Type} {m : LaneM α} {f : α → LaneM β} {env : LEnv} {l l' : LaneSt} {a : α}
    (h : m env l = .ok (a, l')) : (m >>= f) env l = f a env l' := by
  show (m env >>= fun a => f a env) l = _
  show Except.bind (m env l) _ = _
  rw [h]
  rfl

theorem laneM_pure {α : Type} (a : α) (env : LEnv) (l : LaneSt) : (pure a : LaneM α) env l = .ok (a, l) := rfl

/-! Sources. -/

theorem regsVal_lt (t : Thread) (n w : Nat) : regsVal t n w < 2 ^ (32 * w) := by
  induction w generalizing n with
  | zero => simp [regsVal]
  | succ w ih =>
    have h1 := ih (n + 1)
    have h2 : (t.reg n).toNat < 2 ^ 32 := (t.reg n).isLt
    have h3 : 2 ^ (32 * (w + 1)) = 2 ^ 32 * 2 ^ (32 * w) := by rw [← Nat.pow_add]; congr 1; omega
    simp only [regsVal, h3]
    have : 2 ^ 32 * (regsVal t (n + 1) w + 1) ≤ 2 ^ 32 * 2 ^ (32 * w) := Nat.mul_le_mul_left _ h1
    omega

theorem readReg_ok (env : LEnv) (t : Thread) (n : Nat) (hra : env.ra = false) (hc : t.clear false n = true)
    (hp : t.poisonRegs.contains n = false) : readReg n env { th := t } = .ok (t.reg n, { th := t }) := by
  simp only [readReg, hra, hc, hp, Bool.not_true, Bool.false_eq_true, if_false, Bool.not_false, Bool.and_false, Bool.or_self,
    Bool.false_and]

theorem sound_succ {t : Thread} {n w : Nat} (h : sound t n (w + 1) = true) :
    t.clear false n = true ∧ t.poisonRegs.contains n = false ∧ sound t (n + 1) w = true := by
  simpa [sound, and_assoc] using h

theorem free_succ {t : Thread} {n w : Nat} (h : free t n (w + 1) = true) :
    t.clear false n = true ∧ free t (n + 1) w = true := by
  simpa [free] using h

theorem readPair_ok (env : LEnv) (t : Thread) (n : Nat) (hra : env.ra = false) (hs : sound t n 2 = true) :
    readPair n env { th := t } = .ok (BitVec.ofNat 64 (regsVal t n 2), { th := t }) := by
  obtain ⟨h1, h2, h3⟩ := sound_succ hs
  obtain ⟨h4, h5, -⟩ := sound_succ h3
  unfold readPair
  rw [laneM_bind_ok (readReg_ok env t n hra h1 h2), laneM_bind_ok (readReg_ok env t (n + 1) hra h4 h5), laneM_pure]
  congr 2
  apply BitVec.eq_of_toNat_eq
  have e1 := (t.reg n).isLt
  have e2 := (t.reg (n + 1)).isLt
  simp only [regsVal, BitVec.toNat_append, BitVec.toNat_ofNat, Nat.mul_zero, Nat.add_zero]
  rw [Nat.shiftLeft_eq, Nat.mul_comm, ← Nat.two_pow_add_eq_or_of_lt e1]
  omega

theorem idxAccess_ok (env : LEnv) (t : Thread) (k w n : Nat) (role : Role) (x : Word) (hra : env.ra = false)
    (h : xAccess env.nregs w role (t.x k) = some (n, x)) :
    idxAccess k w role env { th := t } = .ok (n, { th := t.putX k x false }) := by
  simp only [idxAccess, hra, h, Bool.false_and, Bool.false_eq_true, if_false]

/-- A source of one register. -/
theorem rd1_ok {env : LEnv} {t u : Thread} {o : Operand} {v : Nat} (hra : env.ra = false)
    (h : readSrc env.nregs t o 1 = some (v, u)) : rd1 o env { th := t } = .ok (BitVec.ofNat 32 v, { th := u }) := by
  cases o with
  | v n =>
    simp only [readSrc] at h
    split at h <;> simp only [Option.some.injEq, Prod.mk.injEq, reduceCtorEq] at h
    rename_i hs
    obtain ⟨h1, h2, -⟩ := sound_succ hs
    obtain ⟨rfl, rfl⟩ := h
    simp only [rd1, readReg_ok env t n.val hra h1 h2, regsVal, Nat.mul_zero, Nat.add_zero, BitVec.ofNat_toNat, BitVec.setWidth_eq]
  | x k =>
    simp only [readSrc] at h
    split at h <;> try simp at h
    rename_i n x hx
    obtain ⟨hs, rfl, rfl⟩ := h
    obtain ⟨h1, h2, -⟩ := sound_succ hs
    simp only [rd1]
    rw [laneM_bind_ok (idxAccess_ok env t k.val 1 n .src x hra hx), readReg_ok env _ n hra h1 h2]
    simp only [regsVal, Nat.mul_zero, Nat.add_zero, BitVec.ofNat_toNat, BitVec.setWidth_eq]
  | q k =>
    simp only [readSrc, Option.ite_none_right_eq_some, Option.some.injEq, Prod.mk.injEq] at h
    obtain ⟨⟨-, hk⟩, rfl, rfl⟩ := h
    have : popQ k.val env { th := t } = .ok ((t.pop k.val).1, { th := (t.pop k.val).2 }) := by
      simp only [popQ, hk, decide_false, Bool.or_self]
    simp only [rd1]
    rw [laneM_bind_ok this, laneM_pure]
    congr 2
    apply BitVec.eq_of_toNat_eq
    simp
  | lit a =>
    simp only [readSrc, Option.ite_none_right_eq_some, Option.some.injEq, Prod.mk.injEq] at h
    obtain ⟨-, rfl, rfl⟩ := h
    simp only [rd1, laneM_pure, BitVec.ofNat_toNat, BitVec.setWidth_eq]
  | lit2 lo hi =>
    simp only [readSrc, Option.ite_none_right_eq_some, Option.some.injEq, Prod.mk.injEq] at h
    obtain ⟨-, rfl, rfl⟩ := h
    simp only [rd1, laneM_pure]
    congr 2
    apply BitVec.eq_of_toNat_eq
    have := lo.isLt
    simp
    omega

/-- A source pair. -/
theorem rd2_ok {env : LEnv} {t u : Thread} {o : Operand} {v : Nat} (hra : env.ra = false)
    (h : readSrc env.nregs t o 2 = some (v, u)) : rd2 o env { th := t } = .ok (BitVec.ofNat 64 v, { th := u }) := by
  cases o with
  | v n =>
    simp only [readSrc, Option.ite_none_right_eq_some, Option.some.injEq, Prod.mk.injEq] at h
    obtain ⟨hs, rfl, rfl⟩ := h
    exact readPair_ok env t n.val hra hs
  | x k =>
    simp only [readSrc] at h
    split at h <;> try simp at h
    rename_i n x hx
    obtain ⟨hs, rfl, rfl⟩ := h
    simp only [rd2]
    rw [laneM_bind_ok (idxAccess_ok env t k.val 2 n .src x hra hx), readPair_ok env _ n hra hs]
  | q k =>
    simp only [readSrc, Option.ite_none_right_eq_some, Option.some.injEq, Prod.mk.injEq] at h
    obtain ⟨⟨-, hk⟩, rfl, rfl⟩ := h
    have : popQ k.val env { th := t } = .ok ((t.pop k.val).1, { th := (t.pop k.val).2 }) := by
      simp only [popQ, hk, decide_false, Bool.or_self]
    simp only [rd2]
    rw [this]
    congr 2
    apply BitVec.eq_of_toNat_eq
    have := (t.pop k.val).1.isLt
    simp
    omega
  | lit a =>
    simp only [readSrc, Option.ite_none_right_eq_some, Option.some.injEq, Prod.mk.injEq] at h
    obtain ⟨-, rfl, rfl⟩ := h
    simp only [rd2, laneM_pure]
    congr 2
    apply BitVec.eq_of_toNat_eq
    have := a.isLt
    simp
  | lit2 lo hi =>
    simp only [readSrc, Option.ite_none_right_eq_some, Option.some.injEq, Prod.mk.injEq] at h
    obtain ⟨-, rfl, rfl⟩ := h
    simp only [rd2, laneM_pure]
    congr 2
    apply BitVec.eq_of_toNat_eq
    have e1 := lo.isLt
    have e2 := hi.isLt
    simp only [BitVec.toNat_append, BitVec.toNat_ofNat]
    rw [Nat.shiftLeft_eq, Nat.mul_comm, ← Nat.two_pow_add_eq_or_of_lt e1]
    omega

theorem readMany_ok (env : LEnv) (t : Thread) (n w : Nat) (hra : env.ra = false) (hs : sound t n w = true) :
    readMany n w env { th := t } = .ok ((List.range w).map (fun i => t.reg (n + i)), { th := t }) := by
  induction w generalizing n with
  | zero => rfl
  | succ w ih =>
    obtain ⟨h1, h2, h3⟩ := sound_succ hs
    simp only [readMany]
    rw [laneM_bind_ok (readReg_ok env t n hra h1 h2), laneM_bind_ok (ih (n + 1) h3), laneM_pure]
    simp only [List.range_succ_eq_map, List.map_cons, List.map_map, Nat.add_zero]
    congr 3
    apply List.map_congr_left
    intro i _
    simp only [Function.comp]
    congr 1
    omega

/-! Destinations. -/

theorem writeReg_ok (env : LEnv) (t : Thread) (n : Nat) (v : Word) (hra : env.ra = false) (hc : t.clear false n = true) :
    writeReg n v env { th := t } = .ok ((), { th := t.putReg n v false }) := by
  simp only [writeReg, hra, hc, Bool.not_true, Bool.false_eq_true, if_false, Bool.false_and]

theorem putReg_clear (t : Thread) (n m : Nat) (v : Word) (b : Bool) : (t.putReg n v b).clear false m = t.clear false m := rfl

theorem free_putReg (t : Thread) (n m w : Nat) (v : Word) (b : Bool) : free (t.putReg n v b) m w = free t m w := by
  induction w generalizing m with
  | zero => rfl
  | succ w ih => simp only [free, putReg_clear, ih]

theorem sound_free {t : Thread} {n w : Nat} (h : sound t n w = true) : free t n w = true := by
  induction w generalizing n with
  | zero => rfl
  | succ w ih =>
    obtain ⟨h1, -, h3⟩ := sound_succ h
    simp only [free, h1, ih h3, Bool.and_self]

theorem ofNat32_mod (v : Nat) : BitVec.ofNat 32 (v % 2 ^ 32) = BitVec.ofNat 32 v := by
  apply BitVec.eq_of_toNat_eq
  simp

theorem putRegs_one (t : Thread) (n v : Nat) : putRegs t n v 1 = t.putReg n (BitVec.ofNat 32 v) false := rfl

/-- A register or a queue takes one register's value. -/
theorem put1_reg {env : LEnv} {t : Thread} {n v : Nat} {x : Word} (hra : env.ra = false) (hf : free t n 1 = true)
    (hx : x = BitVec.ofNat 32 v) : put1 (.reg n) x env { th := t } = .ok ((), { th := putRegs t n v 1 }) := by
  obtain ⟨h1, -⟩ := free_succ hf
  subst hx
  simp only [put1, putRegs_one]
  exact writeReg_ok env t n _ hra h1

theorem put2_reg {env : LEnv} {t : Thread} {n v : Nat} {x : DWord} (hra : env.ra = false) (hf : free t n 2 = true)
    (hx : x = BitVec.ofNat 64 v) : put2 (.reg n) x env { th := t } = .ok ((), { th := putRegs t n v 2 }) := by
  obtain ⟨h1, h2⟩ := free_succ hf
  obtain ⟨h3, -⟩ := free_succ h2
  subst hx
  simp only [put2, putRegs]
  rw [laneM_bind_ok (writeReg_ok env t n _ hra h1)]
  rw [writeReg_ok env _ (n + 1) _ hra (by rw [putReg_clear]; exact h3)]
  have e1 : BitVec.truncate 32 (BitVec.ofNat 64 v) = BitVec.ofNat 32 v := by
    apply BitVec.eq_of_toNat_eq
    simp
  have e2 : BitVec.truncate 32 (BitVec.ofNat 64 v >>> 32) = BitVec.ofNat 32 (v / 2 ^ 32) := by
    apply BitVec.eq_of_toNat_eq
    simp [Nat.shiftRight_eq_div_pow]
    omega
  rw [e1, e2]

theorem wr1_ok {env : LEnv} {t u : Thread} {o : Operand} {v : Nat} {x : Word} (hra : env.ra = false)
    (h : writeDst env.nregs t o 1 v = some u) (hx : x = BitVec.ofNat 32 v) : wr1 o x env { th := t } = .ok ((), { th := u }) := by
  cases o with
  | v n =>
    simp only [writeDst, Option.ite_none_right_eq_some, Option.some.injEq] at h
    obtain ⟨hf, rfl⟩ := h
    simp only [wr1, locate]
    rw [laneM_bind_ok (laneM_pure _ _ _)]
    exact put1_reg hra hf hx
  | x k =>
    simp only [writeDst] at h
    split at h <;> try simp at h
    rename_i n y hy
    obtain ⟨hf, rfl⟩ := h
    have hl : locate (.x k) 1 .dst env { th := t } = .ok (.reg n, { th := t.putX k.val y false }) := by
      simp only [locate]
      rw [laneM_bind_ok (idxAccess_ok env t k.val 1 n .dst y hra hy), laneM_pure]
    simp only [wr1]
    rw [laneM_bind_ok hl]
    exact put1_reg hra hf hx
  | q k =>
    simp only [writeDst, Option.ite_none_right_eq_some, Option.some.injEq] at h
    obtain ⟨-, rfl⟩ := h
    subst hx
    simp only [wr1, locate]
    rw [laneM_bind_ok (laneM_pure _ _ _)]
    simp only [put1, pushQ, Bool.false_eq_true, if_false]
    congr 8
    apply BitVec.eq_of_toNat_eq
    simp
  | lit a => simp [writeDst] at h
  | lit2 lo hi => simp [writeDst] at h

theorem wr2_ok {env : LEnv} {t u : Thread} {o : Operand} {v : Nat} {x : DWord} (hra : env.ra = false)
    (h : writeDst env.nregs t o 2 v = some u) (hx : x = BitVec.ofNat 64 v) : wr2 o x env { th := t } = .ok ((), { th := u }) := by
  cases o with
  | v n =>
    simp only [writeDst, Option.ite_none_right_eq_some, Option.some.injEq] at h
    obtain ⟨hf, rfl⟩ := h
    simp only [wr2, locate]
    rw [laneM_bind_ok (laneM_pure _ _ _)]
    exact put2_reg hra hf hx
  | x k =>
    simp only [writeDst] at h
    split at h <;> try simp at h
    rename_i n y hy
    obtain ⟨hf, rfl⟩ := h
    have hl : locate (.x k) 2 .dst env { th := t } = .ok (.reg n, { th := t.putX k.val y false }) := by
      simp only [locate]
      rw [laneM_bind_ok (idxAccess_ok env t k.val 2 n .dst y hra hy), laneM_pure]
    simp only [wr2]
    rw [laneM_bind_ok hl]
    exact put2_reg hra hf hx
  | q k =>
    simp only [writeDst, Option.ite_none_right_eq_some, Option.some.injEq] at h
    obtain ⟨-, rfl⟩ := h
    subst hx
    simp only [wr2, locate]
    rw [laneM_bind_ok (laneM_pure _ _ _)]
    simp only [put2, pushQ, Bool.false_eq_true, if_false]
    congr 8
    apply BitVec.eq_of_toNat_eq
    simp
  | lit a => simp [writeDst] at h
  | lit2 lo hi => simp [writeDst] at h

/-- A single destination that is read in place. -/
theorem upd1_ok {env : LEnv} {t u : Thread} {o : Operand} {f : Nat → Nat} {g : Word → Word} (hra : env.ra = false)
    (h : updateDst env.nregs t o 1 f = some u) (hx : ∀ x : Word, g x = BitVec.ofNat 32 (f x.toNat)) :
    (do let l ← locate o 1 .both; let z ← old1 l; put1 l (g z)) env { th := t } = .ok ((), { th := u }) := by
  have key : ∀ (t : Thread) (n : Nat), sound t n 1 = true → (do let z ← old1 (.reg n); put1 (.reg n) (g z)) env { th := t } =
      .ok ((), { th := putRegs t n (f (regsVal t n 1)) 1 }) := by
    intro t n hs
    obtain ⟨h1, h2, -⟩ := sound_succ hs
    simp only [old1]
    rw [laneM_bind_ok (readReg_ok env t n hra h1 h2)]
    exact put1_reg hra (sound_free hs) (by rw [hx]; simp [regsVal])
  cases o with
  | v n =>
    simp only [updateDst, Option.ite_none_right_eq_some, Option.some.injEq] at h
    obtain ⟨hf, rfl⟩ := h
    simp only [locate]
    rw [laneM_bind_ok (laneM_pure _ _ _)]
    exact key t n.val hf
  | x k =>
    simp only [updateDst] at h
    split at h <;> try simp at h
    rename_i n y hy
    obtain ⟨hf, rfl⟩ := h
    have hl : locate (.x k) 1 .both env { th := t } = .ok (.reg n, { th := t.putX k.val y false }) := by
      simp only [locate]
      rw [laneM_bind_ok (idxAccess_ok env t k.val 1 n .both y hra hy), laneM_pure]
    rw [laneM_bind_ok hl]
    exact key _ n hf
  | q k => simp [updateDst] at h
  | lit a => simp [updateDst] at h
  | lit2 lo hi => simp [updateDst] at h

theorem upd2_ok {env : LEnv} {t u : Thread} {o : Operand} {f : Nat → Nat} {g : DWord → DWord} (hra : env.ra = false)
    (h : updateDst env.nregs t o 2 f = some u) (hx : ∀ x : DWord, g x = BitVec.ofNat 64 (f x.toNat)) :
    (do let l ← locate o 2 .both; let z ← old2 l; put2 l (g z)) env { th := t } = .ok ((), { th := u }) := by
  have key : ∀ (t : Thread) (n : Nat), sound t n 2 = true → (do let z ← old2 (.reg n); put2 (.reg n) (g z)) env { th := t } =
      .ok ((), { th := putRegs t n (f (regsVal t n 2)) 2 }) := by
    intro t n hs
    simp only [old2]
    rw [laneM_bind_ok (readPair_ok env t n hra hs)]
    refine put2_reg hra (sound_free hs) ?_
    rw [hx, BitVec.toNat_ofNat, Nat.mod_eq_of_lt (regsVal_lt t n 2)]
  cases o with
  | v n =>
    simp only [updateDst, Option.ite_none_right_eq_some, Option.some.injEq] at h
    obtain ⟨hf, rfl⟩ := h
    simp only [locate]
    rw [laneM_bind_ok (laneM_pure _ _ _)]
    exact key t n.val hf
  | x k =>
    simp only [updateDst] at h
    split at h <;> try simp at h
    rename_i n y hy
    obtain ⟨hf, rfl⟩ := h
    have hl : locate (.x k) 2 .both env { th := t } = .ok (.reg n, { th := t.putX k.val y false }) := by
      simp only [locate]
      rw [laneM_bind_ok (idxAccess_ok env t k.val 2 n .both y hra hy), laneM_pure]
    rw [laneM_bind_ok hl]
    exact key _ n hf
  | q k => simp [updateDst] at h
  | lit a => simp [updateDst] at h
  | lit2 lo hi => simp [updateDst] at h

/-! Predicates. -/

theorem readPred_ok {env : LEnv} {t : Thread} {p : Nat} (hra : env.ra = false) (hc : t.clear true p = true) :
    readPred p env { th := t } = .ok (t.pred p, { th := t }) := by
  simp only [readPred, hc, hra, Bool.not_true, Bool.false_eq_true, if_false, Bool.false_and, Bool.or_self]

theorem writePred_ok {env : LEnv} {t : Thread} {p : Nat} {v : Bool} (hra : env.ra = false)
    (hc : (p == 0 || t.clear true p) = true) : writePred p v env { th := t } = .ok ((), { th := putPred t p v }) := by
  simp only [writePred, putPred]
  split
  · rfl
  · rename_i h
    have hc' : t.clear true p = true := by simpa [h] using hc
    simp only [hc', Bool.not_true, Bool.false_eq_true, if_false, hra, Bool.false_and, markList, Bool.not_false, Bool.and_true]

theorem putPred_clear (t : Thread) (p q : Nat) (v b : Bool) : (putPred t p v).clear b q = t.clear b q := by
  unfold putPred Thread.setPred
  split
  · rfl
  · simp [Thread.clear]

/-! One lane, and the set. -/

/-- An active lane that neither traps nor waits runs its body. -/
theorem laneRun_ran {α : Type} {env : LEnv} {g : Nat} {us : List Use} {body : LaneM α} {t u : Thread} {a : α}
    (hra : env.ra = false) (hst : staticCause env us = none) (hg : g ≠ 0 → t.clear true g = true) (hp : t.pred g = true)
    (hq : queuesReady t us = true) (hb : body { env with gunk := false } { th := t } = .ok (a, { th := u })) :
    laneRun env g us body t = .ran a { th := u } := by
  have hblock : (g != 0 && !t.clear true g && (none : Option Cause).isNone) = false := by
    by_cases h : g = 0
    · simp [h]
    · simp [hg h]
  have hb' : body { nregs := env.nregs, binds := env.binds, fpdef := env.fpdef } { th := t } = .ok (a, { th := u }) := by
    rw [← hb]
    simp only [hra]
  simp only [laneRun, laneRunX, hst, Option.map_none, lowerCause, hra, Bool.false_and, hp, Bool.false_or, Bool.not_true, hq,
    Option.isNone_none, Bool.and_false, Bool.false_eq_true, if_false, hb']
  rw [if_neg (by simpa using hblock)]

theorem laneRun_skip {α : Type} {env : LEnv} {g : Nat} {us : List Use} {body : LaneM α} {t : Thread}
    (hra : env.ra = false) (hst : staticCause env us = none) (hg : g ≠ 0 → t.clear true g = true) (hp : t.pred g = false) :
    laneRun env g us body t = .skip := by
  have hblock : (g != 0 && !t.clear true g && (none : Option Cause).isNone) = false := by
    by_cases h : g = 0
    · simp [h]
    · simp [hg h]
  simp only [laneRun, laneRunX, hst, Option.map_none, lowerCause, hra, Bool.false_and, hp, Bool.or_self, Bool.not_false, if_true]
  rw [if_neg (by simpa using hblock)]

theorem members_get {s : State} {tid : Nat} (h : tid ∈ s.members) : ∃ x, spGet s.threads tid = some x := by
  have := (List.mem_filter.1 h).2
  unfold State.readyAtPc at this
  split at this
  · simp at this
  · rename_i t ht
    exact ⟨t, ht⟩

theorem thread_of_get {s : State} {tid : Nat} {x : Thread} (h : spGet s.threads tid = some x) : s.thread tid = x := by
  simp [State.thread, h]

theorem modThread_of_mem {s : State} {tid : Nat} (h : (spGet s.threads tid).isSome = true) (f : Thread → Thread) :
    s.modThread tid f = withThreads s (spPut s.threads tid (f (s.thread tid))) := by
  obtain ⟨x, hx⟩ := Option.isSome_iff_exists.1 h
  rw [modThread_of_get s tid f x hx, thread_of_get hx, withThreads]

theorem takePush_quiet {s : State} {tid : Nat} {pc : Word} (hn : noPush (s.group (gidOf tid)).binds (s.thread tid) = true) :
    s.takePush tid pc = s := by
  have : (s.thread tid).qs.find? (fun (e : QEnt) => e.id == 0 && ((spGet (s.group (gidOf tid)).binds e.k).map (·.kind)) == some 1) =
      none := by
    rw [List.find?_eq_none]
    intro e he
    have := (List.all_eq_true.1 hn) e he
    simp only [ne_eq, decide_not, Bool.or_eq_true, Bool.not_eq_true', decide_eq_false_iff_not] at this
    rcases this with h | h <;> simp [h]
  simp only [State.takePush, this]

/-- A result without a push to a copy channel: the record takes it, past the instruction. -/
theorem commitLane_quiet {s : State} {tid : Nat} {u : Thread} (h : (spGet s.threads tid).isSome = true)
    (hn : noPush (s.laneEnv (gidOf tid)).binds u = true) :
    s.commitLane tid { th := u } = withThreads s (spPut s.threads tid (u.advance s.cur.len s.clock)) := by
  simp only [State.commitLane, State.popAcquire, Bool.false_eq_true, if_false]
  rw [modThread_of_mem h]
  split
  · apply takePush_quiet
    rw [thread_of_get (x := u.advance s.cur.len s.clock) (by simp [withThreads])]
    exact hn
  · rfl

/-- A set whose members can all complete: their records replaced, and nothing else. -/
theorem perLane_of {α : Type} {s : State} {g : Guard} {us : List Use} {body : Nat → LaneM α} {act : State → Nat → α → LaneSt → State}
    (p : Nat → LaneOp) (hready : LaneReady s p) (hg : ∀ tid, (p tid).guard = g) (hus : ∀ tid, (p tid).uses = us)
    (hbody : ∀ tid, tid ∈ s.members → (s.thread tid).pred g.val = true → ∀ xs u, (s.laneEnv (gidOf tid)).ra = false →
      (p tid).run (s.laneEnv (gidOf tid)).nregs (s.laneEnv (gidOf tid)).fpdef (s.thread tid) = some (xs, u) →
      noPush (s.laneEnv (gidOf tid)).binds u = true →
      ∃ a, body tid { s.laneEnv (gidOf tid) with gunk := false } { th := s.thread tid } = .ok (a, { th := u }) ∧
        ∀ m : Sp Thread, spGet m tid = some (s.thread tid) →
          act (withThreads s m) tid a { th := u } =
            withThreads s (spPut m tid ((p tid).after (s.thread tid) xs (u.advance s.cur.len s.clock)))) :
    s.perLane g us body act = laneResult p s := by
  obtain ⟨hnd, hall⟩ := hready
  have key : ∀ (todo : List Nat) (m : Sp Thread), todo.Nodup → (∀ t ∈ todo, t ∈ s.members) →
      (∀ t ∈ todo, spGet m t = spGet s.threads t) →
      todo.foldl (fun (acc : State × List (Nat × Cause)) tid =>
        let (s, tr) := acc
        match laneRun (s.laneEnv (gidOf tid)) g.val us (body tid) (s.thread tid) with
        | .skip => (s.passAll [tid], tr)
        | .ran a l => (act s tid a l, tr)
        | .trap c => (s, tr ++ [(tid, c)])
        | .block => (s.retryAll [tid], tr)
        | .raEnd => (s.endRunAhead [tid], tr)) (withThreads s m, []) =
      (withThreads s (todo.foldl (fun m tid => spPut m tid ((p tid).member s tid)) m), []) := by
    intro todo
    induction todo with
    | nil => intros; rfl
    | cons tid r ih =>
      intro m hn hmem hget
      have hm := hmem tid (by simp)
      obtain ⟨x, hx⟩ := members_get hm
      have hth : s.thread tid = x := thread_of_get hx
      have hx' : spGet m tid = some x := by rw [hget tid (by simp), hx]
      obtain ⟨hra, hst, hgd, hact⟩ := hall tid hm
      have hb0 := hbody tid hm
      rw [hus] at hst
      rw [hg] at hgd hact
      have henv : (withThreads s m).laneEnv (gidOf tid) = s.laneEnv (gidOf tid) := rfl
      have hth' : (withThreads s m).thread tid = x := thread_of_get hx'
      have hstep : (match laneRun ((withThreads s m).laneEnv (gidOf tid)) g.val us (body tid) ((withThreads s m).thread tid) with
          | .skip => ((withThreads s m).passAll [tid], ([] : List (Nat × Cause)))
          | .ran a l => (act (withThreads s m) tid a l, [])
          | .trap c => (withThreads s m, [] ++ [(tid, c)])
          | .block => ((withThreads s m).retryAll [tid], [])
          | .raEnd => ((withThreads s m).endRunAhead [tid], [])) =
          (withThreads s (spPut m tid ((p tid).member s tid)), []) := by
        rw [henv, hth']
        rw [hth] at hact hgd hb0
        by_cases hp : x.pred g.val = true
        · obtain ⟨hq, xs, u, hrun, hnp⟩ := hact hp
          rw [hus] at hq
          obtain ⟨a, hb, hact'⟩ := hb0 hp xs u hra hrun hnp
          rw [laneRun_ran hra hst hgd hp hq hb]
          dsimp only
          rw [hact' m hx']
          simp only [LaneOp.member, hth, hg, hp, if_true, hrun]
        · rw [laneRun_skip hra hst hgd (by simpa using hp)]
          dsimp only [State.passAll, List.foldl_cons, List.foldl_nil]
          rw [modThread_of_mem (s := withThreads s m) (by simp [withThreads, hx']), hth']
          simp only [LaneOp.member, hth, hg, hp, if_false, Bool.false_eq_true]
          rfl
      simp only [List.foldl_cons]
      rw [hstep]
      have hn' := List.nodup_cons.1 hn
      rw [ih _ hn'.2 (fun t ht => hmem t (by simp [ht]))]
      intro t ht
      have hne : t ≠ tid := fun h => hn'.1 (h ▸ ht)
      rw [spGet_spPut_ne _ _ hne, hget t (by simp [ht])]
  unfold State.perLane
  have := key s.members s.threads hnd (fun t h => h) (fun t _ => rfl)
  rw [show withThreads s s.threads = s from rfl] at this
  exact congrArg (fun (r : State × List (Nat × Cause)) => r.1.trapMembers r.2) this

/-- The same, for a body that does not look at its lane's group or at the state it acts on. -/
theorem perLane_eq {α : Type} (s : State) (g : Guard) (us : List Use) (body : Nat → LaneM α) (act : State → Nat → α → LaneSt → State)
    (p : Nat → LaneOp) (hready : LaneReady s p) (hg : ∀ tid, (p tid).guard = g) (hus : ∀ tid, (p tid).uses = us)
    (hbody : ∀ tid env t xs u, env.ra = false → env.gunk = false → tid ∈ s.members →
      (p tid).run env.nregs env.fpdef t = some (xs, u) →
      ∃ a, body tid env { th := t } = .ok (a, { th := u }) ∧
        ∀ s' : State, (spGet s'.threads tid).isSome = true → s'.cur = s.cur → s'.clock = s.clock →
          noPush (s'.laneEnv (gidOf tid)).binds u = true →
          act s' tid a { th := u } = withThreads s' (spPut s'.threads tid ((p tid).after t xs (u.advance s'.cur.len s'.clock)))) :
    s.perLane g us body act = laneResult p s := by
  refine perLane_of p hready hg hus ?_
  intro tid hm _ xs u hra hrun hnp
  obtain ⟨a, hb, hact⟩ := hbody tid { s.laneEnv (gidOf tid) with gunk := false } (s.thread tid) xs u hra rfl hm hrun
  refine ⟨a, hb, ?_⟩
  intro m hget
  exact hact (withThreads s m) (by simp [withThreads, hget]) rfl rfl hnp

/-- The common case: the whole effect is on the lane's own record. -/
theorem liftLane_of {s : State} {g : Guard} {us : List Use} {body : LaneM Unit} (p : LaneOp)
    (hready : LaneReady s (fun _ => p)) (hg : p.guard = g) (hus : p.uses = us) (hafter : p.after = fun _ _ t => t)
    (hbody : ∀ env t xs u, env.ra = false → env.gunk = false → p.run env.nregs env.fpdef t = some (xs, u) →
      body env { th := t } = .ok ((), { th := u })) :
    s.liftLane g us body = laneResult (fun _ => p) s := by
  refine perLane_eq s g us _ _ _ hready (fun _ => hg) (fun _ => hus) ?_
  intro tid env t xs u hra hgu hm hrun
  refine ⟨(), hbody env t xs u hra hgu hrun, ?_⟩
  intro s' hs' _ _ hnp
  rw [commitLane_quiet hs' hnp, hafter]

theorem liftLane_eq (s : State) (p : LaneOp) (us : List Use) (body : LaneM Unit)
    (hready : LaneReady s (fun _ => p)) (hus : p.uses = us) (hafter : p.after = fun _ _ t => t)
    (hbody : ∀ env t xs u, env.ra = false → env.gunk = false → p.run env.nregs env.fpdef t = some (xs, u) →
      body env { th := t } = .ok ((), { th := u })) :
    s.liftLane p.guard us body = laneResult (fun _ => p) s := liftLane_of p hready rfl hus hafter hbody

end Sys2Proof.Machine
end

