-- ==== Sys2Proof/Laws/LaneShapes.lean ====
section
/-! SUPPORT. The shapes of lane instructions: one, two or three sources and a destination, each with the result its value function gives. -/

namespace Sys2Proof.Machine

open Sys2Proof.Terms

/-! What a completed run has done. -/

theorem run_dst {p : LaneOp} {nregs : Nat} {fp : Word} {t u : Thread} {xs : List Nat} {o : Operand} {w : Nat} (ho : p.out = .dst o w)
    (h : p.run nregs fp t = some (xs, u)) :
    p.reads.all (fun k => t.clear true k) = true ∧ p.writes.all (fun k => k == 0 || t.clear true k) = true ∧
    ∃ u1 u2, readAll nregs t p.srcs = some (xs, u1) ∧ p.ok nregs t xs = true ∧
      writeDst nregs (p.post fp t xs u1) o w (p.f fp t xs) = some u2 ∧ u = p.last u2 := by
  simp only [LaneOp.run, ho] at h
  split at h
  · simp at h
  · rename_i hc
    simp only [Bool.not_eq_true', Bool.not_eq_false, Bool.and_eq_true] at hc
    refine ⟨hc.1, hc.2, ?_⟩
    split at h
    · simp at h
    · rename_i xs' u1 hr
      split at h
      · simp at h
      · rename_i hok
        simp only [Option.map_eq_some_iff, Prod.mk.injEq] at h
        obtain ⟨u2, hw, rfl, rfl⟩ := h
        exact ⟨u1, u2, hr, by simpa using hok, hw, rfl⟩

theorem run_upd {p : LaneOp} {nregs : Nat} {fp : Word} {t u : Thread} {xs : List Nat} {o : Operand} {w : Nat} (ho : p.out = .upd o w)
    (h : p.run nregs fp t = some (xs, u)) :
    p.reads.all (fun k => t.clear true k) = true ∧ p.writes.all (fun k => k == 0 || t.clear true k) = true ∧
    ∃ u1 u2, readAll nregs t p.srcs = some (xs, u1) ∧ p.ok nregs t xs = true ∧
      updateDst nregs (p.post fp t xs u1) o w (fun old => p.f fp t (xs ++ [old])) = some u2 ∧ u = p.last u2 := by
  simp only [LaneOp.run, ho] at h
  split at h
  · simp at h
  · rename_i hc
    simp only [Bool.not_eq_true', Bool.not_eq_false, Bool.and_eq_true] at hc
    refine ⟨hc.1, hc.2, ?_⟩
    split at h
    · simp at h
    · rename_i xs' u1 hr
      split at h
      · simp at h
      · rename_i hok
        simp only [Option.map_eq_some_iff, Prod.mk.injEq] at h
        obtain ⟨u2, hw, rfl, rfl⟩ := h
        exact ⟨u1, u2, hr, by simpa using hok, hw, rfl⟩

theorem run_none {p : LaneOp} {nregs : Nat} {fp : Word} {t u : Thread} {xs : List Nat} (ho : p.out = .none)
    (h : p.run nregs fp t = some (xs, u)) :
    p.reads.all (fun k => t.clear true k) = true ∧ p.writes.all (fun k => k == 0 || t.clear true k) = true ∧
    ∃ u1, readAll nregs t p.srcs = some (xs, u1) ∧ p.ok nregs t xs = true ∧ u = p.last (p.post fp t xs u1) := by
  simp only [LaneOp.run, ho] at h
  split at h
  · simp at h
  · rename_i hc
    simp only [Bool.not_eq_true', Bool.not_eq_false, Bool.and_eq_true] at hc
    refine ⟨hc.1, hc.2, ?_⟩
    split at h
    · simp at h
    · rename_i xs' u1 hr
      split at h
      · simp at h
      · rename_i hok
        simp only [Option.map_some, Option.some.injEq, Prod.mk.injEq] at h
        obtain ⟨rfl, rfl⟩ := h
        exact ⟨u1, hr, by simpa using hok, rfl⟩

theorem readAll_one {nregs : Nat} {t u : Thread} {xs : List Nat} {a : Operand} {w : Nat} (h : readAll nregs t [(a, w)] = some (xs, u)) :
    ∃ x, readSrc nregs t a w = some (x, u) ∧ xs = [x] := by
  simp only [readAll] at h
  split at h
  · simp at h
  · rename_i x t1 h1
    simp only [Option.some.injEq, Prod.mk.injEq] at h
    obtain ⟨rfl, rfl⟩ := h
    exact ⟨x, h1, rfl⟩

theorem readAll_cons {nregs : Nat} {t u : Thread} {xs : List Nat} {a : Operand} {w : Nat} {r : List (Operand × Nat)}
    (h : readAll nregs t ((a, w) :: r) = some (xs, u)) :
    ∃ x t1 ys, readSrc nregs t a w = some (x, t1) ∧ readAll nregs t1 r = some (ys, u) ∧ xs = x :: ys := by
  simp only [readAll] at h
  split at h
  · simp at h
  · rename_i x t1 h1
    split at h
    · simp at h
    · rename_i ys t2 h2
      simp only [Option.some.injEq, Prod.mk.injEq] at h
      obtain ⟨rfl, rfl⟩ := h
      exact ⟨x, t1, ys, h1, h2, rfl⟩

theorem readSrc_lt {nregs : Nat} {t u : Thread} {o : Operand} {w v : Nat} (hw : 1 ≤ w) (h : readSrc nregs t o w = some (v, u)) :
    v < 2 ^ (32 * w) := by
  have hp : 0 < 2 ^ (32 * w) := Nat.pow_pos (by omega)
  cases o with
  | v n =>
    simp only [readSrc, Option.ite_none_right_eq_some, Option.some.injEq, Prod.mk.injEq] at h
    rw [← h.2.1]
    exact regsVal_lt _ _ _
  | x k =>
    simp only [readSrc] at h
    split at h <;> try simp at h
    rw [← h.2.1]
    exact regsVal_lt _ _ _
  | q k =>
    simp only [readSrc, Option.ite_none_right_eq_some, Option.some.injEq, Prod.mk.injEq] at h
    rw [← h.2.1]
    exact Nat.mod_lt _ hp
  | lit a =>
    simp only [readSrc, Option.ite_none_right_eq_some, Option.some.injEq, Prod.mk.injEq] at h
    rw [← h.2.1]
    exact Nat.lt_of_lt_of_le a.isLt (Nat.pow_le_pow_right (by omega) (by omega))
  | lit2 lo hi =>
    simp only [readSrc, Option.ite_none_right_eq_some, Option.some.injEq, Prod.mk.injEq] at h
    rw [← h.2.1]
    exact Nat.mod_lt _ hp

/-! Sources of the widths 1 and 2, by one name. -/

/-- D, A, B. -/
theorem tri_body {W WA WB : Type} {rdA : LaneM WA} {rdB : LaneM WB} {wr : W → LaneM Unit} {f : WA → WB → W}
    {wd wa wb : Nat} {g : Guard} {d a b : Operand} {F : Nat → Nat → Nat} (ofA : Nat → WA) (ofB : Nat → WB) (ofD : Nat → W)
    (hA : ∀ {env : LEnv} {t u : Thread} {v : Nat}, env.ra = false → readSrc env.nregs t a wa = some (v, u) →
      rdA env { th := t } = .ok (ofA v, { th := u }))
    (hB : ∀ {env : LEnv} {t u : Thread} {v : Nat}, env.ra = false → readSrc env.nregs t b wb = some (v, u) →
      rdB env { th := t } = .ok (ofB v, { th := u }))
    (hW : ∀ {env : LEnv} {t u : Thread} {v : Nat} {x : W}, env.ra = false → writeDst env.nregs t d wd v = some u → x = ofD v →
      wr x env { th := t } = .ok ((), { th := u }))
    (ha : 1 ≤ wa) (hb : 1 ≤ wb) (hf : ∀ x y, x < 2 ^ (32 * wa) → y < 2 ^ (32 * wb) → f (ofA x) (ofB y) = ofD (F x y))
    (env : LEnv) (t : Thread) (xs : List Nat) (u : Thread) (hra : env.ra = false)
    (h : (tri wd wa wb g d a b F).run env.nregs env.fpdef t = some (xs, u)) :
    (do let x ← rdA; let y ← rdB; wr (f x y)) env { th := t } = .ok ((), { th := u }) := by
  obtain ⟨-, -, u1, u2, hr, -, hw, rfl⟩ := run_dst (p := tri wd wa wb g d a b F) rfl h
  obtain ⟨x, t1, ys, h1, hr2, rfl⟩ := readAll_cons hr
  obtain ⟨y, h2, rfl⟩ := readAll_one hr2
  rw [laneM_bind_ok (hA hra h1), laneM_bind_ok (hB hra h2)]
  exact hW hra hw (hf x y (readSrc_lt ha h1) (readSrc_lt hb h2))

/-- D, A. -/
theorem duo_body {W WA : Type} {rdA : LaneM WA} {wr : W → LaneM Unit} {f : WA → W}
    {wd wa : Nat} {g : Guard} {d a : Operand} {F : Nat → Nat} (ofA : Nat → WA) (ofD : Nat → W)
    (hA : ∀ {env : LEnv} {t u : Thread} {v : Nat}, env.ra = false → readSrc env.nregs t a wa = some (v, u) →
      rdA env { th := t } = .ok (ofA v, { th := u }))
    (hW : ∀ {env : LEnv} {t u : Thread} {v : Nat} {x : W}, env.ra = false → writeDst env.nregs t d wd v = some u → x = ofD v →
      wr x env { th := t } = .ok ((), { th := u }))
    (ha : 1 ≤ wa) (hf : ∀ x, x < 2 ^ (32 * wa) → f (ofA x) = ofD (F x))
    (env : LEnv) (t : Thread) (xs : List Nat) (u : Thread) (hra : env.ra = false)
    (h : (duo wd wa g d a F).run env.nregs env.fpdef t = some (xs, u)) :
    (do let x ← rdA; wr (f x)) env { th := t } = .ok ((), { th := u }) := by
  obtain ⟨-, -, u1, u2, hr, -, hw, rfl⟩ := run_dst (p := duo wd wa g d a F) rfl h
  obtain ⟨x, h1, rfl⟩ := readAll_one hr
  rw [laneM_bind_ok (hA hra h1)]
  exact hW hra hw (hf x (readSrc_lt ha h1))

/-! The shapes. -/

theorem laneBin1_eq {f : Word → Word → Word} {F : Nat → Nat → Nat} (g : Guard) (d a b : Operand) (s : State)
    (hf : ∀ x y, x < 2 ^ 32 → y < 2 ^ 32 → f (BitVec.ofNat 32 x) (BitVec.ofNat 32 y) = BitVec.ofNat 32 (F x y))
    (hr : LaneReady s (fun _ => tri 1 1 1 g d a b F)) :
    laneBin1 f g d a b s = .next (laneResult (fun _ => tri 1 1 1 g d a b F) s) :=
  congrArg _ (liftLane_eq s (tri 1 1 1 g d a b F) _ _ hr rfl rfl (fun env t xs u hra _ h =>
    tri_body (BitVec.ofNat 32) (BitVec.ofNat 32) (BitVec.ofNat 32) rd1_ok rd1_ok wr1_ok (by omega) (by omega) hf env t xs u hra h))

theorem laneBin2_eq {f : DWord → DWord → DWord} {F : Nat → Nat → Nat} (g : Guard) (d a b : Operand) (s : State)
    (hf : ∀ x y, x < 2 ^ 64 → y < 2 ^ 64 → f (BitVec.ofNat 64 x) (BitVec.ofNat 64 y) = BitVec.ofNat 64 (F x y))
    (hr : LaneReady s (fun _ => tri 2 2 2 g d a b F)) :
    laneBin2 f g d a b s = .next (laneResult (fun _ => tri 2 2 2 g d a b F) s) :=
  congrArg _ (liftLane_eq s (tri 2 2 2 g d a b F) _ _ hr rfl rfl (fun env t xs u hra _ h =>
    tri_body (BitVec.ofNat 64) (BitVec.ofNat 64) (BitVec.ofNat 64) rd2_ok rd2_ok wr2_ok (by omega) (by omega) hf env t xs u hra h))

theorem laneUn1_eq {f : Word → Word} {F : Nat → Nat} (g : Guard) (d a : Operand) (s : State)
    (hf : ∀ x, x < 2 ^ 32 → f (BitVec.ofNat 32 x) = BitVec.ofNat 32 (F x)) (hr : LaneReady s (fun _ => duo 1 1 g d a F)) :
    laneUn1 f g d a s = .next (laneResult (fun _ => duo 1 1 g d a F) s) :=
  congrArg _ (liftLane_eq s (duo 1 1 g d a F) _ _ hr rfl rfl (fun env t xs u hra _ h =>
    duo_body (BitVec.ofNat 32) (BitVec.ofNat 32) rd1_ok wr1_ok (by omega) hf env t xs u hra h))

theorem laneUn2_eq {f : DWord → DWord} {F : Nat → Nat} (g : Guard) (d a : Operand) (s : State)
    (hf : ∀ x, x < 2 ^ 64 → f (BitVec.ofNat 64 x) = BitVec.ofNat 64 (F x)) (hr : LaneReady s (fun _ => duo 2 2 g d a F)) :
    laneUn2 f g d a s = .next (laneResult (fun _ => duo 2 2 g d a F) s) :=
  congrArg _ (liftLane_eq s (duo 2 2 g d a F) _ _ hr rfl rfl (fun env t xs u hra _ h =>
    duo_body (BitVec.ofNat 64) (BitVec.ofNat 64) rd2_ok wr2_ok (by omega) hf env t xs u hra h))

/-- D read in place, with A and B. -/
theorem laneAcc1_eq {f : Word → Word → Word → Word} {F : Nat → Nat → Nat → Nat} (g : Guard) (d a b : Operand) (s : State)
    (hf : ∀ x y (z : Word), x < 2 ^ 32 → y < 2 ^ 32 →
      f (BitVec.ofNat 32 x) (BitVec.ofNat 32 y) z = BitVec.ofNat 32 (F x y z.toNat))
    (hr : LaneReady s (fun _ => acc 1 g d a b F)) :
    laneAcc1 f g d a b s = .next (laneResult (fun _ => acc 1 g d a b F) s) := by
  refine congrArg _ (liftLane_eq s (acc 1 g d a b F) _ _ hr rfl rfl ?_)
  intro env t xs u hra _ h
  obtain ⟨-, -, u1, u2, hr, -, hw, rfl⟩ := run_upd (p := acc 1 g d a b F) rfl h
  obtain ⟨x, t1, ys, h1, hr2, rfl⟩ := readAll_cons hr
  obtain ⟨y, h2, rfl⟩ := readAll_one hr2
  rw [laneM_bind_ok (rd1_ok hra h1), laneM_bind_ok (rd1_ok hra h2)]
  exact upd1_ok hra hw (fun z => hf x y z (readSrc_lt (by omega) h1) (readSrc_lt (by omega) h2))

/-! Comparisons and predicate words. -/

theorem read_sb {nregs : Nat} {t u : Thread} {o : Operand} {w v : Nat} (h : readSrc nregs t o w = some (v, u)) : u.sb = t.sb := by
  cases o with
  | v n => simp only [readSrc, Option.ite_none_right_eq_some, Option.some.injEq, Prod.mk.injEq] at h; rw [← h.2.2]
  | x k =>
    simp only [readSrc] at h
    split at h <;> try simp at h
    rw [← h.2.2]
    rfl
  | q k =>
    simp only [readSrc, Option.ite_none_right_eq_some, Option.some.injEq, Prod.mk.injEq] at h
    rw [← h.2.2]
    unfold Thread.pop
    split <;> rfl
  | lit a => simp only [readSrc, Option.ite_none_right_eq_some, Option.some.injEq, Prod.mk.injEq] at h; rw [← h.2.2]
  | lit2 a b => simp only [readSrc, Option.ite_none_right_eq_some, Option.some.injEq, Prod.mk.injEq] at h; rw [← h.2.2]
theorem clear_of_sb {t u : Thread} (h : u.sb = t.sb) (b : Bool) (p : Nat) : u.clear b p = t.clear b p := by simp [Thread.clear, h]

theorem read_preds {nregs : Nat} {t u : Thread} {o : Operand} {w v : Nat} (h : readSrc nregs t o w = some (v, u)) : u.preds = t.preds := by
  cases o with
  | v n => simp only [readSrc, Option.ite_none_right_eq_some, Option.some.injEq, Prod.mk.injEq] at h; rw [← h.2.2]
  | x k =>
    simp only [readSrc] at h
    split at h <;> try simp at h
    rw [← h.2.2]
    rfl
  | q k =>
    simp only [readSrc, Option.ite_none_right_eq_some, Option.some.injEq, Prod.mk.injEq] at h
    rw [← h.2.2]
    unfold Thread.pop
    split <;> rfl
  | lit a => simp only [readSrc, Option.ite_none_right_eq_some, Option.some.injEq, Prod.mk.injEq] at h; rw [← h.2.2]
  | lit2 a b => simp only [readSrc, Option.ite_none_right_eq_some, Option.some.injEq, Prod.mk.injEq] at h; rw [← h.2.2]

theorem putCond_ok {env : LEnv} {t : Thread} {pt pf : Guard} {c : Bool} (hra : env.ra = false)
    (h1 : (pt.val == 0 || t.clear true pt.val) = true) (h2 : (pf.val == 0 || t.clear true pf.val) = true) :
    putCond pt pf c env { th := t } = .ok ((), { th := putPreds pt pf t c }) := by
  unfold putCond
  rw [laneM_bind_ok (writePred_ok hra h1)]
  exact writePred_ok hra (by rw [putPred_clear]; exact h2)

theorem laneCmp32_eq {cond : LEnv → Word → Word → Bool} {c : Word → Nat → Nat → Bool} (g pt pf : Guard) (a b : Operand) (s : State)
    (hf : ∀ env x y, x < 2 ^ 32 → y < 2 ^ 32 → cond env (BitVec.ofNat 32 x) (BitVec.ofNat 32 y) = c env.fpdef x y)
    (hr : LaneReady s (fun _ => cmpBy 1 c g pt pf a b)) :
    laneCmp32 cond g pt pf a b s = .next (laneResult (fun _ => cmpBy 1 c g pt pf a b) s) := by
  refine congrArg _ (liftLane_eq s (cmpBy 1 c g pt pf a b) _ _ hr rfl rfl ?_)
  intro env t xs u hra _ h
  obtain ⟨-, hw, u1, hr, -, rfl⟩ := run_none (p := cmpBy 1 c g pt pf a b) rfl h
  obtain ⟨x, t1, ys, h1, hr2, rfl⟩ := readAll_cons hr
  obtain ⟨y, h2, rfl⟩ := readAll_one hr2
  have hsb : u1.sb = t.sb := (read_sb h2).trans (read_sb h1)
  have henv : (read : LaneM LEnv) env { th := t } = .ok (env, { th := t }) := rfl
  rw [laneM_bind_ok henv, laneM_bind_ok (rd1_ok hra h1), laneM_bind_ok (rd1_ok hra h2)]
  simp only [cmpBy, List.all_cons, List.all_nil, Bool.and_true, Bool.and_eq_true] at hw
  rw [hf env x y (readSrc_lt (by omega) h1) (readSrc_lt (by omega) h2)]
  exact putCond_ok hra (by rw [clear_of_sb hsb]; exact hw.1) (by rw [clear_of_sb hsb]; exact hw.2)

theorem laneCmp64_eq {cond : LEnv → DWord → DWord → Bool} {c : Word → Nat → Nat → Bool} (g pt pf : Guard) (a b : Operand) (s : State)
    (hf : ∀ env x y, x < 2 ^ 64 → y < 2 ^ 64 → cond env (BitVec.ofNat 64 x) (BitVec.ofNat 64 y) = c env.fpdef x y)
    (hr : LaneReady s (fun _ => cmpBy 2 c g pt pf a b)) :
    laneCmp64 cond g pt pf a b s = .next (laneResult (fun _ => cmpBy 2 c g pt pf a b) s) := by
  refine congrArg _ (liftLane_eq s (cmpBy 2 c g pt pf a b) _ _ hr rfl rfl ?_)
  intro env t xs u hra _ h
  obtain ⟨-, hw, u1, hr, -, rfl⟩ := run_none (p := cmpBy 2 c g pt pf a b) rfl h
  obtain ⟨x, t1, ys, h1, hr2, rfl⟩ := readAll_cons hr
  obtain ⟨y, h2, rfl⟩ := readAll_one hr2
  have hsb : u1.sb = t.sb := (read_sb h2).trans (read_sb h1)
  have henv : (read : LaneM LEnv) env { th := t } = .ok (env, { th := t }) := rfl
  rw [laneM_bind_ok henv, laneM_bind_ok (rd2_ok hra h1), laneM_bind_ok (rd2_ok hra h2)]
  simp only [cmpBy, List.all_cons, List.all_nil, Bool.and_true, Bool.and_eq_true] at hw
  rw [hf env x y (readSrc_lt (by omega) h1) (readSrc_lt (by omega) h2)]
  exact putCond_ok hra (by rw [clear_of_sb hsb]; exact hw.1) (by rw [clear_of_sb hsb]; exact hw.2)

theorem readPreds_ok {env : LEnv} {t : Thread} (hra : env.ra = false) (h : ([1,2,3,4,5,6,7] : List Nat).all (fun k => t.clear true k) = true) :
   readPreds env {th := t} = .ok (predWord t.preds, {th := t}) := by
  simp only [List.all_cons, List.all_nil, Bool.and_true, Bool.and_eq_true] at h
  obtain ⟨h1,h2,h3,h4,h5,h6,h7⟩ := h
  unfold readPreds
  rw [laneM_bind_ok (readPred_ok hra h1), laneM_bind_ok (readPred_ok hra h2), laneM_bind_ok (readPred_ok hra h3), laneM_bind_ok (readPred_ok hra h4),
    laneM_bind_ok (readPred_ok hra h5), laneM_bind_ok (readPred_ok hra h6), laneM_bind_ok (readPred_ok hra h7)]
  rfl

theorem writeMasked_ok {env : LEnv} (hra : env.ra = false) (x : Nat) (mask : BitVec 7) (k : Nat) (hk : k ≤ 7) : ∀ {t : Thread},
    ([1,2,3,4,5,6,7] : List Nat).all (fun k => t.clear true k) = true →
    writeMasked (BitVec.ofNat 32 x) mask k env {th := t} = .ok ((), {th := maskPreds mask x k t}) := by
  induction k with
  | zero => intros; rfl
  | succ k ih =>
    intro t h
    simp only [writeMasked, maskPreds]
    have hb : (BitVec.ofNat 32 x).getLsbD (k+1) = x.testBit (k+1) := by
      rw [BitVec.getLsbD_ofNat]; simp; omega
    rw [hb]
    by_cases hm : mask.getLsbD k
    · rw [if_pos hm, if_pos hm]
      have hc : t.clear true (k+1) = true := by
        have := (List.all_eq_true.1 h) (k+1) (by simp; omega)
        exact this
      rw [laneM_bind_ok (writePred_ok hra (by simp [hc]))]
      refine ih (by omega) ?_
      simp only [putPred_clear]; exact h
    · rw [if_neg hm, if_neg hm]
      exact ih (by omega) h

/-! Numbers of the formats. -/

theorem fenv_ok (p : Option APfx) (env : LEnv) (l : LaneSt) : fenv p env l = .ok (fenvOf p env.fpdef, l) := rfl

theorem laneF32_eq {op : FEnv → Nat → Nat → Nat} {F : FEnv → Nat → Nat → Nat} (p : Option APfx) (g : Guard) (d a b : Operand) (s : State)
    (hf : ∀ e x y, x < 2 ^ 32 → y < 2 ^ 32 → BitVec.ofNat 32 (op e x y) = BitVec.ofNat 32 (F e x y))
    (hr : LaneReady s (fun _ => fbin 1 F p g d a b)) :
    laneF32 op p g d a b s = .next (laneResult (fun _ => fbin 1 F p g d a b) s) := by
  refine congrArg _ (liftLane_eq s (fbin 1 F p g d a b) _ _ hr rfl rfl ?_)
  intro env t xs u hra _ h
  obtain ⟨-, -, u1, u2, hr, -, hw, rfl⟩ := run_dst (p := fbin 1 F p g d a b) rfl h
  obtain ⟨x, t1, ys, h1, hr2, rfl⟩ := readAll_cons hr
  obtain ⟨y, h2, rfl⟩ := readAll_one hr2
  have hx := readSrc_lt (by omega) h1
  have hy := readSrc_lt (by omega) h2
  rw [laneM_bind_ok (fenv_ok p env _), laneM_bind_ok (rd1_ok hra h1), laneM_bind_ok (rd1_ok hra h2)]
  refine wr1_ok hra hw ?_
  rw [BitVec.toNat_ofNat, BitVec.toNat_ofNat, Nat.mod_eq_of_lt hx, Nat.mod_eq_of_lt hy, hf _ _ _ hx hy]
  rfl

theorem laneF64_eq {op : FEnv → Nat → Nat → Nat} {F : FEnv → Nat → Nat → Nat} (p : Option APfx) (g : Guard) (d a b : Operand) (s : State)
    (hf : ∀ e x y, x < 2 ^ 64 → y < 2 ^ 64 → BitVec.ofNat 64 (op e x y) = BitVec.ofNat 64 (F e x y))
    (hr : LaneReady s (fun _ => fbin 2 F p g d a b)) :
    laneF64 op p g d a b s = .next (laneResult (fun _ => fbin 2 F p g d a b) s) := by
  refine congrArg _ (liftLane_eq s (fbin 2 F p g d a b) _ _ hr rfl rfl ?_)
  intro env t xs u hra _ h
  obtain ⟨-, -, u1, u2, hr, -, hw, rfl⟩ := run_dst (p := fbin 2 F p g d a b) rfl h
  obtain ⟨x, t1, ys, h1, hr2, rfl⟩ := readAll_cons hr
  obtain ⟨y, h2, rfl⟩ := readAll_one hr2
  have hx := readSrc_lt (by omega) h1
  have hy := readSrc_lt (by omega) h2
  rw [laneM_bind_ok (fenv_ok p env _), laneM_bind_ok (rd2_ok hra h1), laneM_bind_ok (rd2_ok hra h2)]
  refine wr2_ok hra hw ?_
  rw [BitVec.toNat_ofNat, BitVec.toNat_ofNat, Nat.mod_eq_of_lt hx, Nat.mod_eq_of_lt hy, hf _ _ _ hx hy]
  rfl

theorem fun1_body {op : FEnv → Nat → Nat} {F : FEnv → Nat → Nat} (p : Option APfx) (g : Guard) (d a : Operand) (s : State)
    (hf : ∀ e x, x < 2 ^ 32 → BitVec.ofNat 32 (op e x) = BitVec.ofNat 32 (F e x))
    (hr : LaneReady s (fun _ => fun1 1 F p g d a)) :
    s.liftLane g [src a, dst d] (do let e ← fenv p; let x ← rd1 a; wr1 d (BitVec.ofNat 32 (op e x.toNat))) = laneResult (fun _ => fun1 1 F p g d a) s := by
  refine (liftLane_eq s (fun1 1 F p g d a) _ _ hr rfl rfl ?_)
  intro env t xs u hra _ h
  obtain ⟨-, -, u1, u2, hr, -, hw, rfl⟩ := run_dst (p := fun1 1 F p g d a) rfl h
  obtain ⟨x, h1, rfl⟩ := readAll_one hr
  have hx := readSrc_lt (by omega) h1
  rw [laneM_bind_ok (fenv_ok p env _), laneM_bind_ok (rd1_ok hra h1)]
  refine wr1_ok hra hw ?_
  rw [BitVec.toNat_ofNat, Nat.mod_eq_of_lt hx, hf _ _ hx]
  rfl
theorem fun2_body {op : FEnv → Nat → Nat} {F : FEnv → Nat → Nat} (p : Option APfx) (g : Guard) (d a : Operand) (s : State)
    (hf : ∀ e x, x < 2 ^ 64 → BitVec.ofNat 64 (op e x) = BitVec.ofNat 64 (F e x))
    (hr : LaneReady s (fun _ => fun1 2 F p g d a)) :
    s.liftLane g [src a, dst d] (do let e ← fenv p; let x ← rd2 a; wr2 d (BitVec.ofNat 64 (op e x.toNat))) = laneResult (fun _ => fun1 2 F p g d a) s := by
  refine (liftLane_eq s (fun1 2 F p g d a) _ _ hr rfl rfl ?_)
  intro env t xs u hra _ h
  obtain ⟨-, -, u1, u2, hr, -, hw, rfl⟩ := run_dst (p := fun1 2 F p g d a) rfl h
  obtain ⟨x, h1, rfl⟩ := readAll_one hr
  have hx := readSrc_lt (by omega) h1
  rw [laneM_bind_ok (fenv_ok p env _), laneM_bind_ok (rd2_ok hra h1)]
  refine wr2_ok hra hw ?_
  rw [BitVec.toNat_ofNat, Nat.mod_eq_of_lt hx, hf _ _ hx]
  rfl

theorem sgn_sext (w x : Nat) : sgn w x = sext w x := by 
  unfold sgn sext
  split <;> simp

theorem laneTri1_eq {op : FEnv → Word → Word → Word → Word} {F : FEnv → Nat → Nat → Nat → Nat} (p : Option APfx) (g : Guard) (d a b : Operand) (s : State)
    (hf : ∀ e x y z, x < 2 ^ 32 → y < 2 ^ 32 → z < 2^32 → op e (BitVec.ofNat 32 x) (BitVec.ofNat 32 y) (BitVec.ofNat 32 z) = BitVec.ofNat 32 (F e x y z))
    (hr : LaneReady s (fun _ => triC 1 p g d a b F)) :
    laneTri1 op p g d a b s = .next (laneResult (fun _ => triC 1 p g d a b F) s) := by
  unfold laneTri1
  cases hc : pfxC p with
  | some c =>
    simp only [cUse, dUse, hc]
    refine congrArg _ (liftLane_of (triC 1 p g d a b F) hr (by simp [triC, hc]) (us := [src a, src b] ++ [src c] ++ [dst d]) (by simp [triC, hc, LaneOp.uses]) (by simp [triC, hc]) ?_)
    intro env t xs u hra _ h
    simp only [triC, hc] at h
    obtain ⟨-, -, u1, u2, hr, -, hw, rfl⟩ := run_dst rfl h
    obtain ⟨x, t1, ys, h1, hr2, rfl⟩ := readAll_cons hr
    obtain ⟨y, t2, zs, h2, hr3, rfl⟩ := readAll_cons hr2
    obtain ⟨z, h3, rfl⟩ := readAll_one hr3
    rw [laneM_bind_ok (fenv_ok p env _), laneM_bind_ok (rd1_ok hra h1), laneM_bind_ok (rd1_ok hra h2), laneM_bind_ok (rd1_ok hra h3)]
    exact wr1_ok hra hw (hf _ _ _ _ (readSrc_lt (by omega) h1) (readSrc_lt (by omega) h2) (readSrc_lt (by omega) h3))
  | none =>
    simp only [cUse, dUse, hc]
    refine congrArg _ (liftLane_of (triC 1 p g d a b F) hr (by simp [triC, hc]) (us := [src a, src b] ++ [] ++ [both d]) (by simp [triC, hc, LaneOp.uses]) (by simp [triC, hc]) ?_)
    intro env t xs u hra _ h
    simp only [triC, hc] at h
    obtain ⟨-, -, u1, u2, hr, -, hw, rfl⟩ := run_upd rfl h
    obtain ⟨x, t1, ys, h1, hr2, rfl⟩ := readAll_cons hr
    obtain ⟨y, h2, rfl⟩ := readAll_one hr2
    rw [laneM_bind_ok (fenv_ok p env _), laneM_bind_ok (rd1_ok hra h1), laneM_bind_ok (rd1_ok hra h2)]
    refine upd1_ok hra hw (fun z => ?_)
    have := hf (fenvOf p env.fpdef) x y z.toNat (readSrc_lt (by omega) h1) (readSrc_lt (by omega) h2) z.isLt
    rw [BitVec.ofNat_toNat, BitVec.setWidth_eq] at this
    exact this

theorem laneTri2_eq {op : FEnv → DWord → DWord → DWord → DWord} {F : FEnv → Nat → Nat → Nat → Nat} (p : Option APfx) (g : Guard) (d a b : Operand) (s : State)
    (hf : ∀ e x y z, x < 2 ^ 64 → y < 2 ^ 64 → z < 2^64 → op e (BitVec.ofNat 64 x) (BitVec.ofNat 64 y) (BitVec.ofNat 64 z) = BitVec.ofNat 64 (F e x y z))
    (hr : LaneReady s (fun _ => triC 2 p g d a b F)) :
    laneTri2 op p g d a b s = .next (laneResult (fun _ => triC 2 p g d a b F) s) := by
  unfold laneTri2
  cases hc : pfxC p with
  | some c =>
    simp only [cUse, dUse, hc]
    refine congrArg _ (liftLane_of (triC 2 p g d a b F) hr (by simp [triC, hc]) (us := [src a, src b] ++ [src c] ++ [dst d]) (by simp [triC, hc, LaneOp.uses]) (by simp [triC, hc]) ?_)
    intro env t xs u hra _ h
    simp only [triC, hc] at h
    obtain ⟨-, -, u1, u2, hr, -, hw, rfl⟩ := run_dst rfl h
    obtain ⟨x, t1, ys, h1, hr2, rfl⟩ := readAll_cons hr
    obtain ⟨y, t2, zs, h2, hr3, rfl⟩ := readAll_cons hr2
    obtain ⟨z, h3, rfl⟩ := readAll_one hr3
    rw [laneM_bind_ok (fenv_ok p env _), laneM_bind_ok (rd2_ok hra h1), laneM_bind_ok (rd2_ok hra h2), laneM_bind_ok (rd2_ok hra h3)]
    exact wr2_ok hra hw (hf _ _ _ _ (readSrc_lt (by omega) h1) (readSrc_lt (by omega) h2) (readSrc_lt (by omega) h3))
  | none =>
    simp only [cUse, dUse, hc]
    refine congrArg _ (liftLane_of (triC 2 p g d a b F) hr (by simp [triC, hc]) (us := [src a, src b] ++ [] ++ [both d]) (by simp [triC, hc, LaneOp.uses]) (by simp [triC, hc]) ?_)
    intro env t xs u hra _ h
    simp only [triC, hc] at h
    obtain ⟨-, -, u1, u2, hr, -, hw, rfl⟩ := run_upd rfl h
    obtain ⟨x, t1, ys, h1, hr2, rfl⟩ := readAll_cons hr
    obtain ⟨y, h2, rfl⟩ := readAll_one hr2
    rw [laneM_bind_ok (fenv_ok p env _), laneM_bind_ok (rd2_ok hra h1), laneM_bind_ok (rd2_ok hra h2)]
    refine upd2_ok hra hw (fun z => ?_)
    have := hf (fenvOf p env.fpdef) x y z.toNat (readSrc_lt (by omega) h1) (readSrc_lt (by omega) h2) z.isLt
    rw [BitVec.ofNat_toNat, BitVec.setWidth_eq] at this
    exact this

theorem packed_two (w : Nat) (f : Nat → Nat) : packed w 2 f = twice w f := by
  simp only [packed, twice, show List.range 2 = [0,1] from rfl, List.foldl_cons, List.foldl_nil, Nat.mul_zero, Nat.pow_zero, Nat.mul_one, Nat.zero_add]
  rw [Nat.mul_comm (f 1 % _)]

theorem max_clamp (n : Int) : max (-(2 ^ 31)) (min (2 ^ 31 - 1) n) = clampI (-(2 ^ 31)) (2 ^ 31 - 1) n := by
  unfold clampI
  split
  · omega
  · split <;> omega

/-! Operands of several registers. -/

theorem wordsNat_regs (t : Thread) (n w : Nat) : wordsNat ((List.range w).map (fun i => t.reg (n + i))) = regsVal t n w := by
  induction w generalizing n with
  | zero => rfl
  | succ w ih =>
    have := ih (n + 1)
    simp only [List.range_succ_eq_map, List.map_cons, List.map_map, Nat.add_zero, regsVal, ← this]
    unfold wordsNat
    simp only [List.foldr_cons]
    congr 4
    funext i
    simp only [Function.comp]
    congr 1
    omega

/-- A source of `w` registers, as a number. -/
theorem rdN_ok {env : LEnv} {t u : Thread} {o : Operand} {w v : Nat} (hw : 1 ≤ w) (hra : env.ra = false)
    (h : readSrc env.nregs t o w = some (v, u)) : ∃ xs, rdN o w env { th := t } = .ok (xs, { th := u }) ∧ wordsNat xs = v := by
  have hlt := readSrc_lt hw h
  rcases (show w = 1 ∨ w = 2 ∨ ∃ k, w = k + 3 from by
      rcases Nat.lt_or_ge w 3 with h3 | h3
      · omega
      · exact .inr (.inr ⟨w - 3, by omega⟩)) with rfl | rfl | ⟨w, rfl⟩
  · refine ⟨[BitVec.ofNat 32 v], ?_, ?_⟩
    · simp only [rdN]
      rw [laneM_bind_ok (rd1_ok hra h), laneM_pure]
    · simp only [wordsNat, List.foldr_cons, List.foldr_nil, BitVec.toNat_ofNat]
      omega
  · refine ⟨[BitVec.truncate 32 (BitVec.ofNat 64 v), BitVec.truncate 32 (BitVec.ofNat 64 v >>> 32)], ?_, ?_⟩
    · simp only [rdN]
      rw [laneM_bind_ok (rd2_ok hra h), laneM_pure]
    · simp only [wordsNat, List.foldr_cons, List.foldr_nil, BitVec.truncate_eq_setWidth, BitVec.toNat_setWidth,
        BitVec.toNat_ushiftRight, BitVec.toNat_ofNat, Nat.shiftRight_eq_div_pow]
      omega
  · cases o with
    | v n =>
      simp only [readSrc, Option.ite_none_right_eq_some, Option.some.injEq, Prod.mk.injEq] at h
      obtain ⟨hs, rfl, rfl⟩ := h
      exact ⟨_, readMany_ok env t n.val (w + 3) hra hs, wordsNat_regs t n.val (w + 3)⟩
    | x k =>
      simp only [readSrc] at h
      split at h <;> try simp at h
      rename_i n x hx
      obtain ⟨hs, rfl, rfl⟩ := h
      refine ⟨_, ?_, wordsNat_regs _ n (w + 3)⟩
      simp only [rdN]
      rw [laneM_bind_ok (idxAccess_ok env t k.val (w + 3) n .src x hra hx), readMany_ok env _ n (w + 3) hra hs]
    | q k =>
      simp only [readSrc, Option.ite_none_right_eq_some] at h
      omega
    | lit a =>
      simp only [readSrc, Option.ite_none_right_eq_some] at h
      omega
    | lit2 lo hi =>
      simp only [readSrc, Option.ite_none_right_eq_some] at h
      omega

theorem putMany_ok {env : LEnv} {t : Thread} {n w v : Nat} (hra : env.ra = false) (hf : free t n w = true) :
    putMany n ((List.range w).map (fun i => BitVec.ofNat 32 (v / 2 ^ (32 * i)))) env { th := t } =
      .ok ((), { th := putRegs t n v w }) := by
  induction w generalizing t n v with
  | zero => rfl
  | succ w ih =>
    obtain ⟨h1, h2⟩ := free_succ hf
    simp only [List.range_succ_eq_map, List.map_cons, List.map_map, putMany, putRegs, Nat.mul_zero, Nat.pow_zero, Nat.div_one]
    rw [laneM_bind_ok (writeReg_ok env t n _ hra h1)]
    have := ih (t := t.putReg n (BitVec.ofNat 32 v) false) (n := n + 1) (v := v / 2 ^ 32) (by rw [free_putReg]; exact h2)
    rw [← this]
    congr 2
    funext i
    simp only [Function.comp]
    rw [Nat.div_div_eq_div_mul, ← Nat.pow_add]
    congr 3
    omega

/-- A destination of `w` registers takes a number. -/
theorem wrN_ok {env : LEnv} {t u : Thread} {o : Operand} {w v : Nat} (hw : 1 ≤ w) (hra : env.ra = false)
    (h : writeDst env.nregs t o w v = some u) : wrN o (natWords w v) env { th := t } = .ok ((), { th := u }) := by
  rcases (show w = 1 ∨ w = 2 ∨ ∃ k, w = k + 3 from by
      rcases Nat.lt_or_ge w 3 with h3 | h3
      · omega
      · exact .inr (.inr ⟨w - 3, by omega⟩)) with rfl | rfl | ⟨w, rfl⟩
  · have hl : natWords 1 v = [BitVec.ofNat 32 v] := by
      simp [natWords]
    rw [hl]
    exact wr1_ok hra h rfl
  · have hl : natWords 2 v = [BitVec.ofNat 32 v, BitVec.ofNat 32 (v / 2 ^ 32)] := by
      simp [natWords, List.range_succ]
    rw [hl]
    refine wr2_ok (x := BitVec.ofNat 32 (v / 2 ^ 32) ++ BitVec.ofNat 32 v) hra h ?_
    apply BitVec.eq_of_toNat_eq
    have e1 : (BitVec.ofNat 32 v).toNat < 2 ^ 32 := (BitVec.ofNat 32 v).isLt
    rw [BitVec.toNat_append, Nat.shiftLeft_eq, Nat.mul_comm, ← Nat.two_pow_add_eq_or_of_lt e1]
    simp only [BitVec.toNat_ofNat]
    omega
  · have hl : ∃ a b c r, natWords (w + 3) v = a :: b :: c :: r := by
      simp only [natWords, List.range_succ_eq_map, List.map_cons]
      exact ⟨_, _, _, _, rfl⟩
    obtain ⟨a, b, c, r, hl⟩ := hl
    have hlen : (natWords (w + 3) v).length = w + 3 := by simp [natWords]
    have hput : ∀ (t : Thread) (n : Nat), free t n (w + 3) = true →
        putN (.reg n) (natWords (w + 3) v) env { th := t } = .ok ((), { th := putRegs t n v (w + 3) }) := by
      intro t n hf
      have := putMany_ok (v := v) hra hf
      rw [show (List.range (w + 3)).map (fun i => BitVec.ofNat 32 (v / 2 ^ (32 * i))) = natWords (w + 3) v from rfl] at this
      rw [hl] at this ⊢
      exact this
    cases o with
    | v n =>
      simp only [writeDst, Option.ite_none_right_eq_some, Option.some.injEq] at h
      obtain ⟨hf, rfl⟩ := h
      simp only [wrN, locate]
      rw [laneM_bind_ok (laneM_pure _ _ _)]
      exact hput t n.val hf
    | x k =>
      simp only [writeDst] at h
      split at h <;> try simp at h
      rename_i n y hy
      obtain ⟨hf, rfl⟩ := h
      have hloc : locate (.x k) (w + 3) .dst env { th := t } = .ok (.reg n, { th := t.putX k.val y false }) := by
        simp only [locate]
        rw [laneM_bind_ok (idxAccess_ok env t k.val (w + 3) n .dst y hra hy), laneM_pure]
      simp only [wrN, hlen]
      rw [laneM_bind_ok hloc]
      exact hput _ n hf
    | q k =>
      simp only [writeDst, Option.ite_none_right_eq_some] at h
      omega
    | lit a => simp [writeDst] at h
    | lit2 lo hi => simp [writeDst] at h

theorem read_seed {nregs : Nat} {t u : Thread} {o : Operand} {w v : Nat} (h : readSrc nregs t o w = some (v, u)) : u.seed = t.seed := by
  cases o with
  | v n => simp only [readSrc, Option.ite_none_right_eq_some, Option.some.injEq, Prod.mk.injEq] at h; rw [← h.2.2]
  | x k =>
    simp only [readSrc] at h
    split at h <;> try simp at h
    rw [← h.2.2]
    rfl
  | q k =>
    simp only [readSrc, Option.ite_none_right_eq_some, Option.some.injEq, Prod.mk.injEq] at h
    rw [← h.2.2]
    unfold Thread.pop
    split <;> rfl
  | lit a => simp only [readSrc, Option.ite_none_right_eq_some, Option.some.injEq, Prod.mk.injEq] at h; rw [← h.2.2]
  | lit2 a b => simp only [readSrc, Option.ite_none_right_eq_some, Option.some.injEq, Prod.mk.injEq] at h; rw [← h.2.2]

end Sys2Proof.Machine
end

