-- ==== Sys2Proof/Laws/LaneValues.lean ====
section
/-! SUPPORT. Value functions of the integer lane instructions in numbers, as 09 R142-R146 give them. -/

namespace Sys2Proof.Machine

open Sys2Proof.Terms

/-! The signed reading. -/

theorem toInt_ofNat {w x : Nat} (hw : 0 < w) (h : x < 2 ^ w) : (BitVec.ofNat w x).toInt = sgn w x := by
  have hp : 2 ^ w = 2 * 2 ^ (w - 1) := by
    rw [← Nat.pow_succ']
    congr 1
    omega
  rw [BitVec.toInt_eq_toNat_cond, BitVec.toNat_ofNat, Nat.mod_eq_of_lt h]
  unfold sgn
  rw [Nat.mod_eq_of_lt h]
  split <;> split <;> omega

theorem ofInt_wrap (w : Nat) (i : Int) : BitVec.ofInt w i = BitVec.ofNat w (wrap w i) := by
  apply BitVec.eq_of_toNat_eq
  rw [BitVec.toNat_ofInt, BitVec.toNat_ofNat]
  unfold wrap
  have hp : (0 : Int) < (2 ^ w : Nat) := by exact_mod_cast Nat.pow_pos (by omega)
  have h1 := Int.emod_lt_of_pos i hp
  have h2 := Int.emod_nonneg i (by omega : ((2 ^ w : Nat) : Int) ≠ 0)
  rw [Nat.mod_eq_of_lt (by omega)]

theorem signExtend_ofNat {w v x : Nat} (hw : 0 < w) (h : x < 2 ^ w) : (BitVec.ofNat w x).signExtend v = BitVec.ofInt v (sgn w x) := by
  rw [BitVec.signExtend, toInt_ofNat hw h]

theorem signExtend_imm {w v : Nat} (hw : 0 < w) (x : BitVec w) : x.signExtend v = BitVec.ofNat v (wrap v (sgn w x.toNat)) := by
  have := signExtend_ofNat (v := v) hw x.isLt
  rw [BitVec.ofNat_toNat, BitVec.setWidth_eq] at this
  rw [this, ofInt_wrap]

/-! Arithmetic and logic (09 R142). -/

theorem value_sub {w : Nat} (x y : Nat) (hy : y < 2 ^ w) : BitVec.ofNat w x - BitVec.ofNat w y = BitVec.ofNat w (x + 2 ^ w - y) := by
  apply BitVec.eq_of_toNat_eq
  rw [BitVec.toNat_sub, BitVec.toNat_ofNat, BitVec.toNat_ofNat, BitVec.toNat_ofNat, Nat.mod_eq_of_lt hy]
  rw [show x + 2 ^ w - y = (2 ^ w - y) + x by omega, Nat.add_mod, Nat.mod_mod, ← Nat.add_mod]

theorem value_mulh (i : Int) (p : DWord) (h : p = BitVec.ofInt 64 i) : (p >>> 32).truncate 32 = BitVec.ofNat 32 (wrap 32 (i / 2 ^ 32)) := by
  subst h
  apply BitVec.eq_of_toNat_eq
  simp only [BitVec.truncate_eq_setWidth, BitVec.toNat_setWidth, BitVec.toNat_ushiftRight, BitVec.toNat_ofInt, BitVec.toNat_ofNat, wrap,
    Nat.shiftRight_eq_div_pow]
  omega

theorem value_mulhS (x y : Nat) (hx : x < 2 ^ 32) (hy : y < 2 ^ 32) :
    mulhS (BitVec.ofNat 32 x) (BitVec.ofNat 32 y) = BitVec.ofNat 32 (wrap 32 (sgn 32 x * sgn 32 y / 2 ^ 32)) := by
  unfold mulhS
  apply value_mulh
  rw [signExtend_ofNat (by omega) hx, signExtend_ofNat (by omega) hy, BitVec.ofInt_mul]

theorem value_mulhZ (x y : Nat) (hx : x < 2 ^ 32) (hy : y < 2 ^ 32) :
    mulhZ (BitVec.ofNat 32 x) (BitVec.ofNat 32 y) = BitVec.ofNat 32 (x * y / 2 ^ 32) := by
  unfold mulhZ
  have h : x * y < 2 ^ 64 := by
    have h1 : x * y ≤ (2 ^ 32 - 1) * (2 ^ 32 - 1) := Nat.mul_le_mul (by omega) (by omega)
    omega
  apply BitVec.eq_of_toNat_eq
  simp only [BitVec.truncate_eq_setWidth, BitVec.toNat_setWidth, BitVec.toNat_ushiftRight, BitVec.toNat_mul, BitVec.toNat_ofNat,
    Nat.shiftRight_eq_div_pow]
  have hx' : x % 2 ^ 64 = x := Nat.mod_eq_of_lt (by omega)
  have hy' : y % 2 ^ 64 = y := Nat.mod_eq_of_lt (by omega)
  rw [Nat.mod_eq_of_lt hx, Nat.mod_eq_of_lt hy, hx', hy', Nat.mod_eq_of_lt h]

theorem value_mulx (x y : Nat) (hx : x < 2 ^ 32) (hy : y < 2 ^ 32) :
    mulx (BitVec.ofNat 32 x) (BitVec.ofNat 32 y) = BitVec.ofNat 64 (wrap 64 (sgn 32 x * sgn 32 y)) := by
  unfold mulx
  rw [signExtend_ofNat (by omega) hx, signExtend_ofNat (by omega) hy, ← BitVec.ofInt_mul, ofInt_wrap]

theorem value_macx (x y : Nat) (z : DWord) (hx : x < 2 ^ 32) (hy : y < 2 ^ 32) :
    mulx (BitVec.ofNat 32 x) (BitVec.ofNat 32 y) + z = BitVec.ofNat 64 (wrap 64 (sgn 32 x * sgn 32 y + z.toNat)) := by
  unfold mulx
  rw [signExtend_ofNat (by omega) hx, signExtend_ofNat (by omega) hy, ← BitVec.ofInt_mul, ← ofInt_wrap, BitVec.ofInt_add]
  congr 1
  simp

theorem value_and {w : Nat} (x y : Nat) : BitVec.ofNat w x &&& BitVec.ofNat w y = BitVec.ofNat w (x &&& y) := by
  apply BitVec.eq_of_toNat_eq
  simp

theorem value_or {w : Nat} (x y : Nat) : BitVec.ofNat w x ||| BitVec.ofNat w y = BitVec.ofNat w (x ||| y) := by
  apply BitVec.eq_of_toNat_eq
  simp

theorem value_xor {w : Nat} (x y : Nat) : BitVec.ofNat w x ^^^ BitVec.ofNat w y = BitVec.ofNat w (x ^^^ y) := by
  apply BitVec.eq_of_toNat_eq
  simp

theorem value_not {w : Nat} (y : Nat) (hy : y < 2 ^ w) : ~~~(BitVec.ofNat w y) = BitVec.ofNat w (2 ^ w - 1 - y) := by
  apply BitVec.eq_of_toNat_eq
  rw [BitVec.toNat_not, BitVec.toNat_ofNat, BitVec.toNat_ofNat, Nat.mod_eq_of_lt hy, Nat.mod_eq_of_lt (by omega)]

theorem value_slt {w x y : Nat} (hw : 0 < w) (hx : x < 2 ^ w) (hy : y < 2 ^ w) :
    (BitVec.ofNat w x).slt (BitVec.ofNat w y) = decide (sgn w x < sgn w y) := by
  rw [BitVec.slt, toInt_ofNat hw hx, toInt_ofNat hw hy]

theorem value_ult {w x y : Nat} (hx : x < 2 ^ w) (hy : y < 2 ^ w) : (BitVec.ofNat w x).ult (BitVec.ofNat w y) = decide (x < y) := by
  simp [BitVec.ult, Nat.mod_eq_of_lt hx, Nat.mod_eq_of_lt hy]

/-! Shifts (09 R143). -/

theorem value_shl (x n : Nat) : shlW (BitVec.ofNat 32 x) n = BitVec.ofNat 32 (shlN x n) := by
  unfold shlW shlN
  split
  · apply BitVec.eq_of_toNat_eq
    simp [Nat.shiftLeft_eq]
  · rfl

theorem value_shr (x n : Nat) (hx : x < 2 ^ 32) : shrW (BitVec.ofNat 32 x) n = BitVec.ofNat 32 (shrN x n) := by
  unfold shrW shrN
  split
  · apply BitVec.eq_of_toNat_eq
    rw [BitVec.toNat_ushiftRight, BitVec.toNat_ofNat, BitVec.toNat_ofNat, Nat.mod_eq_of_lt hx, Nat.shiftRight_eq_div_pow,
      Nat.mod_eq_of_lt (Nat.lt_of_le_of_lt (Nat.div_le_self _ _) hx)]
  · rfl

theorem value_msb (x : Nat) : (BitVec.ofNat 32 x).getLsbD 31 = decide (sgn 32 x < 0) := by
  rw [BitVec.getLsbD_ofNat, Nat.testBit_eq_decide_div_mod_eq]
  unfold sgn
  simp only [show (31 : Nat) < 32 by omega, decide_true, Bool.true_and]
  congr 1
  apply propext
  split <;> omega

theorem value_sar (x n : Nat) (hx : x < 2 ^ 32) : sarW (BitVec.ofNat 32 x) n = BitVec.ofNat 32 (Terms.sarN x n) := by
  unfold sarW Terms.sarN
  split
  · rw [BitVec.sshiftRight, toInt_ofNat (by omega) hx, ofInt_wrap, Int.shiftRight_eq_div_pow]
  · rw [value_msb x]
    simp only [decide_eq_true_eq]
    split <;> rfl

theorem value_rol (x n : Nat) (hx : x < 2 ^ 32) : rolW (BitVec.ofNat 32 x) n = BitVec.ofNat 32 (rolN x n) := by
  unfold rolW rolN
  have hk : n % 32 < 32 := Nat.mod_lt _ (by omega)
  generalize n % 32 = k at hk
  apply BitVec.eq_of_toNat_eq
  rw [BitVec.toNat_or, BitVec.toNat_shiftLeft, BitVec.toNat_ushiftRight, BitVec.toNat_ofNat, BitVec.toNat_ofNat,
    Nat.mod_eq_of_lt hx, Nat.shiftLeft_eq, Nat.shiftRight_eq_div_pow]
  have hp : 2 ^ 32 = 2 ^ k * 2 ^ (32 - k) := by rw [← Nat.pow_add]; congr 1; omega
  have h1 : x * 2 ^ k % 2 ^ 32 = 2 ^ k * (x % 2 ^ (32 - k)) := by
    rw [hp, Nat.mul_comm x, Nat.mul_mod_mul_left]
  have h2 : x / 2 ^ (32 - k) < 2 ^ k := by
    apply Nat.div_lt_of_lt_mul
    rw [Nat.mul_comm, ← hp]
    exact hx
  rw [h1, ← Nat.two_pow_add_eq_or_of_lt h2, Nat.add_mod, h1]
  have h3 : 2 ^ k * (x % 2 ^ (32 - k)) + x / 2 ^ (32 - k) < 2 ^ 32 := by
    have h4 : x % 2 ^ (32 - k) < 2 ^ (32 - k) := Nat.mod_lt _ (Nat.pow_pos (by omega))
    have h5 : 2 ^ k * (x % 2 ^ (32 - k) + 1) ≤ 2 ^ k * 2 ^ (32 - k) := Nat.mul_le_mul_left _ h4
    rw [hp]
    rw [Nat.mul_add] at h5
    omega
  have h6 : x / 2 ^ (32 - k) < 2 ^ 32 := Nat.lt_of_le_of_lt (Nat.div_le_self _ _) hx
  rw [Nat.mod_eq_of_lt h6, Nat.mod_eq_of_lt h3]

theorem value_shi (k : ShiKind) (x n : Nat) (hx : x < 2 ^ 32) : shiftOf k (BitVec.ofNat 32 x) n = BitVec.ofNat 32 (shiN k x n) := by
  cases k
  · exact value_shl x n
  · exact value_shr x n hx
  · exact value_sar x n hx
  · exact value_rol x n hx

/-! Unary functions (09 R146). -/

theorem sum_foldl (f : Nat → Nat) (B n : Nat) :
    (List.range n).foldl (fun a i => B * a + f i) 0 = ((List.range n).map (fun i => f i * B ^ (n - 1 - i))).sum := by
  induction n with
  | zero => rfl
  | succ n ih =>
    rw [List.range_succ, List.foldl_append, ih, List.map_append, List.sum_append]
    simp only [List.foldl_cons, List.foldl_nil, List.map_cons, List.map_nil, List.sum_cons, List.sum_nil, Nat.add_zero]
    have h1 : n + 1 - 1 - n = 0 := by omega
    rw [h1, Nat.pow_zero, Nat.mul_one]
    congr 1
    have key : ∀ l : List Nat, (∀ i ∈ l, i < n) →
        B * (l.map (fun i => f i * B ^ (n - 1 - i))).sum = (l.map (fun i => f i * B ^ (n + 1 - 1 - i))).sum := by
      intro l
      induction l with
      | nil => simp
      | cons i r ihl =>
        intro h
        have hi := h i (by simp)
        simp only [List.map_cons, List.sum_cons, Nat.mul_add, ihl (fun j hj => h j (by simp [hj]))]
        congr 1
        rw [show n + 1 - 1 - i = (n - 1 - i) + 1 by omega, Nat.pow_succ, Nat.mul_comm B, Nat.mul_assoc]
    exact key _ (fun i hi => List.mem_range.1 hi)

theorem countP_ge (w m : Nat) (h : m ≤ w) : (List.range w).countP (fun i => decide (m ≤ i)) = w - m := by
  induction w with
  | zero => simp
  | succ w ih =>
    rw [List.range_succ, List.countP_append]
    simp only [List.countP_cons, List.countP_nil, Nat.zero_add]
    by_cases hm : m ≤ w
    · rw [ih hm]
      simp [hm]
      omega
    · have : m = w + 1 := by omega
      subst this
      have : (List.range w).countP (fun i => decide (w + 1 ≤ i)) = 0 := by
        rw [List.countP_eq_zero]
        intro i hi
        have := List.mem_range.1 hi
        simp
        omega
      rw [this]
      simp

theorem value_clz {w : Nat} (x : Nat) (hx : x < 2 ^ w) :
    clzB (BitVec.ofNat w x) = (List.range w).countP (fun i => decide (x < 2 ^ i)) := by
  unfold clzB
  have h0 : (BitVec.ofNat w x = 0) ↔ x = 0 := by
    constructor
    · intro h
      have := congrArg BitVec.toNat h
      simpa [Nat.mod_eq_of_lt hx] using this
    · rintro rfl; rfl
  by_cases hz : x = 0
  · rw [if_pos (h0.2 hz)]
    subst hz
    have : (fun i => decide (0 < 2 ^ i)) = fun i => decide (0 ≤ i) := by
      funext i
      rw [decide_eq_true (Nat.pow_pos (by decide) : 0 < 2 ^ i), decide_eq_true (Nat.zero_le i)]
    rw [this, countP_ge w 0 (by omega)]
    rfl
  · rw [if_neg (fun h => hz (h0.1 h))]
    rw [BitVec.toNat_ofNat, Nat.mod_eq_of_lt hx]
    have h1 : (fun i => decide (x < 2 ^ i)) = fun i => decide (Nat.log2 x + 1 ≤ i) := by
      funext i
      congr 1
      apply propext
      rw [← Nat.log2_lt hz]
      omega
    have h2 : Nat.log2 x < w := (Nat.log2_lt hz).2 hx
    rw [h1, countP_ge w _ h2]
    omega

theorem value_unop {w : Nat} (hw : 32 ≤ w) (fn : UnFn) (x : Nat) (hx : x < 2 ^ w) :
    unop fn (BitVec.ofNat w x) = BitVec.ofNat w (unopN w fn x) := by
  have hp : 2 ^ w = 2 * 2 ^ (w - 1) := by
    rw [← Nat.pow_succ']
    congr 1
    omega
  have hneg : (0 : BitVec w) - BitVec.ofNat w x = BitVec.ofNat w (2 ^ w - x) := by
    have := value_sub (w := w) 0 x hx
    rw [Nat.zero_add] at this
    exact this
  have hs : ∀ v, 0 < v → v ≤ w → ((BitVec.ofNat w x).truncate v).signExtend w = BitVec.ofNat w (wrap w (sgn v x)) := by
    intro v hv hvw
    have h1 : (BitVec.ofNat w x).truncate v = BitVec.ofNat v (x % 2 ^ v) := by
      apply BitVec.eq_of_toNat_eq
      simp only [BitVec.truncate_eq_setWidth, BitVec.toNat_setWidth, BitVec.toNat_ofNat, Nat.mod_mod]
      rw [Nat.mod_eq_of_lt hx]
    rw [h1, signExtend_ofNat hv (Nat.mod_lt _ (Nat.pow_pos (by omega))), ofInt_wrap]
    congr 2
    unfold sgn
    rw [Nat.mod_mod]
  cases fn
  case not => exact value_not x hx
  case neg => exact hneg
  case abs =>
    simp only [unop, unopN]
    rw [BitVec.msb_eq_decide, BitVec.toNat_ofNat, Nat.mod_eq_of_lt hx]
    simp only [decide_eq_true_eq]
    split <;> split
    · omega
    · exact hneg
    · rfl
    · omega
  case popc =>
    simp only [unop, unopN, popcB]
    congr 2
    funext i
    rw [BitVec.getLsbD, BitVec.toNat_ofNat, Nat.mod_eq_of_lt hx]
  case clz =>
    simp only [unop, unopN]
    rw [value_clz x hx]
  case ctz =>
    simp only [unop, unopN, ctzB]
    congr 2
    funext i
    rw [BitVec.toNat_ofNat, Nat.mod_eq_of_lt hx]
    rfl
  case brev =>
    simp only [unop, unopN, brevB]
    rw [sum_foldl (fun i => ((BitVec.ofNat w x).getLsbD i).toNat) 2 w]
    congr 3
    funext i
    rw [BitVec.getLsbD, BitVec.toNat_ofNat, Nat.mod_eq_of_lt hx]
    cases x.testBit i <;> simp
  case bswap =>
    simp only [unop, unopN, bswapB]
    rw [sum_foldl (fun i => (BitVec.ofNat w x).toNat / 2 ^ (8 * i) % 256) 256 (w / 8)]
    congr 3
    funext i
    rw [BitVec.toNat_ofNat, Nat.mod_eq_of_lt hx, Nat.pow_mul]
  case sext8 => exact hs 8 (by omega) (by omega)
  case sext16 => exact hs 16 (by omega) (by omega)
  case sext32 => exact hs 32 (by omega) (by omega)

/-! Bit fields (09 R145). -/

theorem field_len (y : Nat) (hy : y < 2 ^ 32) : fieldLen (BitVec.ofNat 32 y) = fLen y := by
  unfold fieldLen fLen
  rw [BitVec.toNat_ofNat, Nat.mod_eq_of_lt hy]
  split
  · exact Nat.min_eq_left ‹_›
  · exact Nat.min_eq_right (by omega)

theorem field_pos (y : Nat) (hy : y < 2 ^ 32) : fieldPos (BitVec.ofNat 32 y) = fPos y := by
  unfold fieldPos fPos
  rw [BitVec.toNat_ofNat, Nat.mod_eq_of_lt hy]

theorem value_bfe (x y : Nat) (hx : x < 2 ^ 32) (hy : y < 2 ^ 32) :
    bfeW (BitVec.ofNat 32 x) (BitVec.ofNat 32 y) = BitVec.ofNat 32 (bfeN x y) := by
  unfold bfeW bfeN
  simp only [field_len y hy, field_pos y hy, BitVec.toNat_ofNat, Nat.mod_eq_of_lt hx]
  have hsg : (BitVec.ofNat 32 y).getLsbD 16 = fSigned y := by
    rw [BitVec.getLsbD_ofNat]
    rfl
  rw [hsg]
  generalize hl : fLen y = l
  have hf : x / 2 ^ fPos y % 2 ^ l < 2 ^ l := Nat.mod_lt _ (Nat.pow_pos (by omega))
  generalize x / 2 ^ fPos y % 2 ^ l = f at hf
  have hbit : 0 < l → (f.testBit (l - 1) = true ↔ 2 ^ (l - 1) ≤ f) := by
    intro h0
    have hp : 2 ^ l = 2 * 2 ^ (l - 1) := by
      rw [← Nat.pow_succ']
      congr 1
      omega
    rw [Nat.testBit_eq_decide_div_mod_eq, decide_eq_true_eq]
    constructor
    · intro h
      have : f / 2 ^ (l - 1) ≠ 0 := by
        intro h'
        rw [h'] at h
        simp at h
      have h3 : 0 < 2 ^ (l - 1) := Nat.pow_pos (by omega)
      by_cases h4 : 2 ^ (l - 1) ≤ f
      · exact h4
      · exact absurd (Nat.div_eq_of_lt (by omega)) this
    · intro h
      have h3 : 0 < 2 ^ (l - 1) := Nat.pow_pos (by omega)
      have h4 : f / 2 ^ (l - 1) = 1 := by
        apply Nat.div_eq_of_lt_le <;> omega
      rw [h4]
  by_cases hc : fSigned y = true ∧ 0 < l ∧ 2 ^ (l - 1) ≤ f
  · rw [if_pos (by simp [hc.1, hc.2.1, (hbit hc.2.1).2 hc.2.2]), if_pos hc, ofInt_wrap]
    congr 2
  · rw [if_neg, if_neg hc]
    intro h
    simp only [Bool.and_eq_true, decide_eq_true_eq] at h
    exact hc ⟨h.1.1, h.1.2, (hbit h.1.2).1 h.2⟩

theorem value_bfi (x y : Nat) (z : Word) (hy : y < 2 ^ 32) :
    bfiW (BitVec.ofNat 32 x) (BitVec.ofNat 32 y) z = BitVec.ofNat 32 (bfiN x y z.toNat) := by
  unfold bfiW bfiN
  simp only [field_len y hy, field_pos y hy]
  generalize (2 ^ fLen y - 1) * 2 ^ fPos y = m
  have hm : m % 2 ^ 32 < 2 ^ 32 := Nat.mod_lt _ (by omega)
  have h1 : BitVec.ofNat 32 m = BitVec.ofNat 32 (m % 2 ^ 32) := (ofNat32_mod m).symm
  have h2 : BitVec.ofNat 32 x <<< fPos y = BitVec.ofNat 32 (x * 2 ^ fPos y % 2 ^ 32) := by
    rw [ofNat32_mod]
    apply BitVec.eq_of_toNat_eq
    simp [Nat.shiftLeft_eq]
  have h3 : z = BitVec.ofNat 32 z.toNat := by simp
  rw [h1, h2, value_not _ hm, value_and, ← value_or, ← value_and]
  congr 2
  simp

end Sys2Proof.Machine
end

