-- ==== Sys2Proof/Laws/Trap.lean ====
section
/-! SUPPORT. Lemmas about run-ahead guards and about taking a trap (11 R198). -/

namespace Sys2Proof.Machine

open Sys2Proof.Terms

theorem noRunAhead_ok {env : LEnv} {t : Thread} (hra : env.ra = false) : noRunAhead env { th := t } = .ok ((), { th := t }) := by
  simp [noRunAhead, hra]

theorem needKnown_ok {env : LEnv} {t : Thread} (hra : env.ra = false) : needKnown env { th := t } = .ok ((), { th := t }) := by
  simp [needKnown, hra]

theorem modReal_unparked {s : State} {tid : Nat} {f : Thread → Thread} (h : (s.group (gidOf tid)).park = none) :
    s.modReal tid f = s.modThread tid f := by
  unfold State.modReal
  rw [h]

theorem trapEnds_none {s : State} {tid : Nat} {base : Word} (h : HandlerAt s tid base) : s.trapEnds tid = none := by
  obtain ⟨h1, h2, h3, h4, h5⟩ := h
  have hr : s.realThread tid = spGet s.threads tid := by
    unfold State.realThread
    rw [h3]
  have hth : (s.realThread tid).getD {} = s.thread tid := by
    rw [hr]
    rfl
  unfold State.trapEnds
  simp only [hth, h2, h4, h5, if_false, Bool.false_eq_true]

/-- Taking a trap with a handler: the thread enters it, and nothing else changes (11 R198). -/
theorem takeTrap_enter {s : State} {tid : Nat} {c : Cause} {pc tp base : Word} (h : HandlerAt s tid base) :
    s.takeTrap tid c pc tp = withThreads s (spPut s.threads tid (inHandler (s.thread tid) c.code c.aux c.addr tp base s.clock)) := by
  have he := trapEnds_none h
  obtain ⟨h1, h2, h3, h4, h5⟩ := h
  unfold State.takeTrap
  rw [he, h4, if_neg (by
    rw [Option.isNone_iff_eq_none]
    intro h
    rw [h] at h1
    simp at h1)]
  dsimp only
  rw [modReal_unparked h3, modThread_of_mem h1]
  rfl

theorem handlerAt_withThreads {s : State} {m : Sp Thread} {tid : Nat} {base : Word} (h : HandlerAt s tid base)
    (hm : spGet m tid = some (s.thread tid)) : HandlerAt (withThreads s m) tid base := by
  obtain ⟨h1, h2, h3, h4, h5⟩ := h
  refine ⟨by simp [withThreads, hm], ?_, h3, h4, h5⟩
  rw [thread_of_get (s := withThreads s m) hm]
  exact h2

end Sys2Proof.Machine
end

