-- ==== Sys2Proof/Laws/Memory.lean ====
section
/-! SUPPORT. Lemmas about the common course of memory instructions for an issue set of one active lane. -/

namespace Sys2Proof.Machine

open Sys2Proof.Terms

theorem trapMembers_nil (s : State) : s.trapMembers [] = s := rfl

theorem laneRunX_ran {α : Type} {s : State} {gid g : Nat} {us : List Use} {body : LaneM α} {t u : Thread} {a : α}
    (hra : (s.laneEnv gid).ra = false) (hst : staticCause (s.laneEnv gid) us = none) (hg : g ≠ 0 → t.clear true g = true)
    (hp : t.pred g = true) (hq : queuesReady t us = true) (hb : body (s.laneEnv gid) { th := t } = .ok (a, { th := u })) :
    laneRunX (s.laneEnv gid) g us none body t = .ran a { th := u } :=
  laneRun_ran hra hst hg hp hq hb

theorem settled_nil (s : State) : (s.retryAll []).endRunAhead [] = s := rfl

/-- The one lane of a memory instruction whose operands are read: it goes on to its pages. -/
theorem memSet_ran {α : Type} {s : State} {tid : Nat} {f : MemForm α} {a : α} {u : Thread} (h : Alone s tid f.g f.us)
    (hs : f.stat (gidOf tid) = none) (hb : f.body tid (s.laneEnv (gidOf tid)) { th := s.thread tid } = .ok (a, { th := u })) :
    s.memSet f = s.memLanes f [(tid, a, { th := u })] [] [] := by
  obtain ⟨hm, hra, hst, hc, hpr, hq⟩ := h
  have hr := laneRunX_ran hra hst hc hpr hq hb
  have hp : (s.group (gidOf tid)).inRa = false := hra
  unfold State.memSet
  simp only [hm, List.map_cons, List.map_nil, hs, hr, List.filterMap_cons, List.filterMap_nil, List.filter_cons, List.filter_nil, hp,
    Bool.not_false, if_true, Bool.false_eq_true, if_false, List.foldl_nil, settled_nil]
  rfl

theorem inLanes_one {α : Type} (r : Ran α) : inLanes [r] = [r] := by
  have h : laneOf r.1 < 32 := Nat.mod_lt _ (by decide)
  have key : ∀ n, (List.range n).flatMap (fun k => [r].filter (fun r => laneOf r.1 = k)) = if laneOf r.1 < n then [r] else [] := by
    intro n
    induction n with
    | zero => simp
    | succ n ih =>
      rw [List.range_succ, List.flatMap_append, ih]
      by_cases h1 : laneOf r.1 < n
      · simp [h1, Nat.lt_succ_of_lt h1, Nat.ne_of_lt h1]
      · by_cases h2 : laneOf r.1 = n
        · simp [h2]
        · have h3 : ¬ laneOf r.1 < n + 1 := by omega
          simp [h1, h2, h3]
  unfold inLanes
  rw [key, if_pos h]

/-- One lane whose pages all answer and whose access may go on acts. -/
theorem memLanes_acts {α : Type} {s s' t : State} {tid : Nat} {f : MemForm α} {a : α} {ls : LaneSt} {hs : List Hit} {c : Option Cause}
    (hmiss : ∀ p ∈ f.pages s tid a, s.xlate tid p.1 p.2 ≠ .miss) (hp : s.lanePages tid (f.pages s tid a) f.out = .ok hs)
    (hc : f.clear s tid hs = (true, s')) (ha : f.act (touchedAll s' tid hs) tid a ls hs = (t, c)) :
    s.memLanes f [(tid, a, ls)] [] [] = t.trapMembers (c.map (fun c => (tid, c))).toList := by
  have hw : ([(tid, a, ls)].flatMap (fun r => (f.pages s r.1 r.2.1).map (fun p => (r.1, p.1, p.2)))).filter
      (fun w => decide (s.xlate w.1 w.2.1 w.2.2 = .miss)) = [] := by
    rw [List.filter_eq_nil_iff]
    intro w hw
    simp only [List.flatMap_cons, List.flatMap_nil, List.append_nil, List.mem_map] at hw
    obtain ⟨p, hpm, rfl⟩ := hw
    simpa using hmiss p hpm
  unfold State.memLanes
  extract_lets want
  rw [show want.filter (fun w => decide (s.xlate w.1 w.2.1 w.2.2 = .miss)) = [] from hw]
  have ht : hs.foldl (fun s h => s.touchLast (s.coreOfT tid) (laneOf tid) h.2) s' = touchedAll s' tid hs := rfl
  rename_i r
  have hr : r = (t, (c.map (fun c => (tid, c))).toList, false) := by
    simp only [r, State.passAll, inLanes_one, List.foldl_cons, List.foldl_nil, hp, Bool.false_eq_true, if_false, hc, Bool.not_true, ht, ha,
      List.nil_append]
  simp only [hr]

/-- Such an access of a memory instruction, whole. -/
theorem memSet_acts {α : Type} {s s' t : State} {tid : Nat} {f : MemForm α} {a : α} {u : Thread} {hs : List Hit}
    (h : Alone s tid f.g f.us) (hst : f.stat (gidOf tid) = none)
    (hb : f.body tid (s.laneEnv (gidOf tid)) { th := s.thread tid } = .ok (a, { th := u }))
    (hmiss : ∀ p ∈ f.pages s tid a, s.xlate tid p.1 p.2 ≠ .miss) (hp : s.lanePages tid (f.pages s tid a) f.out = .ok hs)
    (hc : f.clear s tid hs = (true, s')) (ha : f.act (touchedAll s' tid hs) tid a { th := u } hs = (t, none)) :
    s.memSet f = t := by
  rw [memSet_ran h hst hb, memLanes_acts hmiss hp hc ha]
  rfl

end Sys2Proof.Machine
end

