-- ==== Sys2Proof/Laws/PerInstr.lean ====
section
/-! SUPPORT. One fact about the syntax of each instruction: an encoded instruction has a first word, and an event has no words and is
well formed whatever the default space. -/

namespace Sys2Proof.Laws

open Sys2Proof

/-- The instruction has words, or it is an event: no words, and nothing in it to be ill-formed. -/
def Words.Statement (i : Instr) : Prop := encode i ≠ [] ∨ encode i = [] ∧ ∀ sp, i.wf sp = true

theorem Words.addB32 : ∀ x0 x1 x2 x3, Words.Statement (.addB32 x0 x1 x2 x3) := fun _ _ _ _ => .inl (List.cons_ne_nil _ _)

theorem Words.subB32 : ∀ x0 x1 x2 x3, Words.Statement (.subB32 x0 x1 x2 x3) := fun _ _ _ _ => .inl (List.cons_ne_nil _ _)

theorem Words.addB64 : ∀ x0 x1 x2 x3, Words.Statement (.addB64 x0 x1 x2 x3) := fun _ _ _ _ => .inl (List.cons_ne_nil _ _)

theorem Words.subB64 : ∀ x0 x1 x2 x3, Words.Statement (.subB64 x0 x1 x2 x3) := fun _ _ _ _ => .inl (List.cons_ne_nil _ _)

theorem Words.mulB32 : ∀ x0 x1 x2 x3, Words.Statement (.mulB32 x0 x1 x2 x3) := fun _ _ _ _ => .inl (List.cons_ne_nil _ _)

theorem Words.mulhS32 : ∀ x0 x1 x2 x3, Words.Statement (.mulhS32 x0 x1 x2 x3) := fun _ _ _ _ => .inl (List.cons_ne_nil _ _)

theorem Words.mulhZ32 : ∀ x0 x1 x2 x3, Words.Statement (.mulhZ32 x0 x1 x2 x3) := fun _ _ _ _ => .inl (List.cons_ne_nil _ _)

theorem Words.mulxS32 : ∀ x0 x1 x2 x3, Words.Statement (.mulxS32 x0 x1 x2 x3) := fun _ _ _ _ => .inl (List.cons_ne_nil _ _)

theorem Words.macB32 : ∀ x0 x1 x2 x3, Words.Statement (.macB32 x0 x1 x2 x3) := fun _ _ _ _ => .inl (List.cons_ne_nil _ _)

theorem Words.macxS32 : ∀ x0 x1 x2 x3, Words.Statement (.macxS32 x0 x1 x2 x3) := fun _ _ _ _ => .inl (List.cons_ne_nil _ _)

theorem Words.andB32 : ∀ x0 x1 x2 x3, Words.Statement (.andB32 x0 x1 x2 x3) := fun _ _ _ _ => .inl (List.cons_ne_nil _ _)

theorem Words.orB32 : ∀ x0 x1 x2 x3, Words.Statement (.orB32 x0 x1 x2 x3) := fun _ _ _ _ => .inl (List.cons_ne_nil _ _)

theorem Words.xorB32 : ∀ x0 x1 x2 x3, Words.Statement (.xorB32 x0 x1 x2 x3) := fun _ _ _ _ => .inl (List.cons_ne_nil _ _)

theorem Words.andn : ∀ x0 x1 x2 x3, Words.Statement (.andn x0 x1 x2 x3) := fun _ _ _ _ => .inl (List.cons_ne_nil _ _)

theorem Words.shl : ∀ x0 x1 x2 x3, Words.Statement (.shl x0 x1 x2 x3) := fun _ _ _ _ => .inl (List.cons_ne_nil _ _)

theorem Words.shr : ∀ x0 x1 x2 x3, Words.Statement (.shr x0 x1 x2 x3) := fun _ _ _ _ => .inl (List.cons_ne_nil _ _)

theorem Words.sar : ∀ x0 x1 x2 x3, Words.Statement (.sar x0 x1 x2 x3) := fun _ _ _ _ => .inl (List.cons_ne_nil _ _)

theorem Words.rol : ∀ x0 x1 x2 x3, Words.Statement (.rol x0 x1 x2 x3) := fun _ _ _ _ => .inl (List.cons_ne_nil _ _)

theorem Words.minS32 : ∀ x0 x1 x2 x3, Words.Statement (.minS32 x0 x1 x2 x3) := fun _ _ _ _ => .inl (List.cons_ne_nil _ _)

theorem Words.maxS32 : ∀ x0 x1 x2 x3, Words.Statement (.maxS32 x0 x1 x2 x3) := fun _ _ _ _ => .inl (List.cons_ne_nil _ _)

theorem Words.minZ32 : ∀ x0 x1 x2 x3, Words.Statement (.minZ32 x0 x1 x2 x3) := fun _ _ _ _ => .inl (List.cons_ne_nil _ _)

theorem Words.maxZ32 : ∀ x0 x1 x2 x3, Words.Statement (.maxZ32 x0 x1 x2 x3) := fun _ _ _ _ => .inl (List.cons_ne_nil _ _)

theorem Words.cmpS32 : ∀ x0 x1 x2 x3 x4 x5, Words.Statement (.cmpS32 x0 x1 x2 x3 x4 x5) := fun _ _ _ _ _ _ => .inl (List.cons_ne_nil _ _)

theorem Words.cmpS64 : ∀ x0 x1 x2 x3 x4 x5, Words.Statement (.cmpS64 x0 x1 x2 x3 x4 x5) := fun _ _ _ _ _ _ => .inl (List.cons_ne_nil _ _)

theorem Words.cmpZ32 : ∀ x0 x1 x2 x3 x4 x5, Words.Statement (.cmpZ32 x0 x1 x2 x3 x4 x5) := fun _ _ _ _ _ _ => .inl (List.cons_ne_nil _ _)

theorem Words.cmpZ64 : ∀ x0 x1 x2 x3 x4 x5, Words.Statement (.cmpZ64 x0 x1 x2 x3 x4 x5) := fun _ _ _ _ _ _ => .inl (List.cons_ne_nil _ _)

theorem Words.cmpF32 : ∀ x0 x1 x2 x3 x4 x5, Words.Statement (.cmpF32 x0 x1 x2 x3 x4 x5) := fun _ _ _ _ _ _ => .inl (List.cons_ne_nil _ _)

theorem Words.cmpF64 : ∀ x0 x1 x2 x3 x4 x5, Words.Statement (.cmpF64 x0 x1 x2 x3 x4 x5) := fun _ _ _ _ _ _ => .inl (List.cons_ne_nil _ _)

theorem Words.selB32 : ∀ x0 x1 x2 x3, Words.Statement (.selB32 x0 x1 x2 x3) := fun _ _ _ _ => .inl (List.cons_ne_nil _ _)

theorem Words.selB64 : ∀ x0 x1 x2 x3, Words.Statement (.selB64 x0 x1 x2 x3) := fun _ _ _ _ => .inl (List.cons_ne_nil _ _)

theorem Words.unopB32 : ∀ x0 x1 x2 x3, Words.Statement (.unopB32 x0 x1 x2 x3) := fun _ _ _ _ => .inl (List.cons_ne_nil _ _)

theorem Words.unopB64 : ∀ x0 x1 x2 x3, Words.Statement (.unopB64 x0 x1 x2 x3) := fun _ _ _ _ => .inl (List.cons_ne_nil _ _)

theorem Words.bfe : ∀ x0 x1 x2 x3, Words.Statement (.bfe x0 x1 x2 x3) := fun _ _ _ _ => .inl (List.cons_ne_nil _ _)

theorem Words.bfi : ∀ x0 x1 x2 x3, Words.Statement (.bfi x0 x1 x2 x3) := fun _ _ _ _ => .inl (List.cons_ne_nil _ _)

theorem Words.shflIdx : ∀ x0 x1 x2 x3, Words.Statement (.shflIdx x0 x1 x2 x3) := fun _ _ _ _ => .inl (List.cons_ne_nil _ _)

theorem Words.shflXor : ∀ x0 x1 x2 x3, Words.Statement (.shflXor x0 x1 x2 x3) := fun _ _ _ _ => .inl (List.cons_ne_nil _ _)

theorem Words.addrS : ∀ x0 x1 x2 x3, Words.Statement (.addrS x0 x1 x2 x3) := fun _ _ _ _ => .inl (List.cons_ne_nil _ _)

theorem Words.addrZ : ∀ x0 x1 x2 x3, Words.Statement (.addrZ x0 x1 x2 x3) := fun _ _ _ _ => .inl (List.cons_ne_nil _ _)

theorem Words.addi : ∀ x0 x1 x2 x3, Words.Statement (.addi x0 x1 x2 x3) := fun _ _ _ _ => .inl (List.cons_ne_nil _ _)

theorem Words.andi : ∀ x0 x1 x2 x3, Words.Statement (.andi x0 x1 x2 x3) := fun _ _ _ _ => .inl (List.cons_ne_nil _ _)

theorem Words.ori : ∀ x0 x1 x2 x3, Words.Statement (.ori x0 x1 x2 x3) := fun _ _ _ _ => .inl (List.cons_ne_nil _ _)

theorem Words.xori : ∀ x0 x1 x2 x3, Words.Statement (.xori x0 x1 x2 x3) := fun _ _ _ _ => .inl (List.cons_ne_nil _ _)

theorem Words.shi : ∀ x0 x1 x2 x3 x4, Words.Statement (.shi x0 x1 x2 x3 x4) := fun _ _ _ _ _ => .inl (List.cons_ne_nil _ _)

theorem Words.movi : ∀ x0 x1 x2, Words.Statement (.movi x0 x1 x2) := fun _ _ _ => .inl (List.cons_ne_nil _ _)

theorem Words.movB32 : ∀ x0 x1 x2, Words.Statement (.movB32 x0 x1 x2) := fun _ _ _ => .inl (List.cons_ne_nil _ _)

theorem Words.movB64 : ∀ x0 x1 x2, Words.Statement (.movB64 x0 x1 x2) := fun _ _ _ => .inl (List.cons_ne_nil _ _)

theorem Words.cvt : ∀ x0 x1 x2 x3 x4, Words.Statement (.cvt x0 x1 x2 x3 x4) := fun x0 x1 x2 x3 x4 => by cases x0 <;> exact .inl (List.cons_ne_nil _ _)

theorem Words.cvtSat : ∀ x0 x1 x2 x3 x4, Words.Statement (.cvtSat x0 x1 x2 x3 x4) := fun x0 x1 x2 x3 x4 => by cases x0 <;> exact .inl (List.cons_ne_nil _ _)

theorem Words.faddF32 : ∀ x0 x1 x2 x3 x4, Words.Statement (.faddF32 x0 x1 x2 x3 x4) := fun x0 x1 x2 x3 x4 => by cases x0 <;> exact .inl (List.cons_ne_nil _ _)

theorem Words.fsubF32 : ∀ x0 x1 x2 x3 x4, Words.Statement (.fsubF32 x0 x1 x2 x3 x4) := fun x0 x1 x2 x3 x4 => by cases x0 <;> exact .inl (List.cons_ne_nil _ _)

theorem Words.fmulF32 : ∀ x0 x1 x2 x3 x4, Words.Statement (.fmulF32 x0 x1 x2 x3 x4) := fun x0 x1 x2 x3 x4 => by cases x0 <;> exact .inl (List.cons_ne_nil _ _)

theorem Words.fdivF32 : ∀ x0 x1 x2 x3 x4, Words.Statement (.fdivF32 x0 x1 x2 x3 x4) := fun x0 x1 x2 x3 x4 => by cases x0 <;> exact .inl (List.cons_ne_nil _ _)

theorem Words.fmaF32 : ∀ x0 x1 x2 x3 x4, Words.Statement (.fmaF32 x0 x1 x2 x3 x4) := fun x0 x1 x2 x3 x4 => by cases x0 <;> exact .inl (List.cons_ne_nil _ _)

theorem Words.fmsF32 : ∀ x0 x1 x2 x3 x4, Words.Statement (.fmsF32 x0 x1 x2 x3 x4) := fun x0 x1 x2 x3 x4 => by cases x0 <;> exact .inl (List.cons_ne_nil _ _)

theorem Words.fminF32 : ∀ x0 x1 x2 x3 x4, Words.Statement (.fminF32 x0 x1 x2 x3 x4) := fun x0 x1 x2 x3 x4 => by cases x0 <;> exact .inl (List.cons_ne_nil _ _)

theorem Words.fmaxF32 : ∀ x0 x1 x2 x3 x4, Words.Statement (.fmaxF32 x0 x1 x2 x3 x4) := fun x0 x1 x2 x3 x4 => by cases x0 <;> exact .inl (List.cons_ne_nil _ _)

theorem Words.faddF64 : ∀ x0 x1 x2 x3 x4, Words.Statement (.faddF64 x0 x1 x2 x3 x4) := fun x0 x1 x2 x3 x4 => by cases x0 <;> exact .inl (List.cons_ne_nil _ _)

theorem Words.fsubF64 : ∀ x0 x1 x2 x3 x4, Words.Statement (.fsubF64 x0 x1 x2 x3 x4) := fun x0 x1 x2 x3 x4 => by cases x0 <;> exact .inl (List.cons_ne_nil _ _)

theorem Words.fmulF64 : ∀ x0 x1 x2 x3 x4, Words.Statement (.fmulF64 x0 x1 x2 x3 x4) := fun x0 x1 x2 x3 x4 => by cases x0 <;> exact .inl (List.cons_ne_nil _ _)

theorem Words.fdivF64 : ∀ x0 x1 x2 x3 x4, Words.Statement (.fdivF64 x0 x1 x2 x3 x4) := fun x0 x1 x2 x3 x4 => by cases x0 <;> exact .inl (List.cons_ne_nil _ _)

theorem Words.fmaF64 : ∀ x0 x1 x2 x3 x4, Words.Statement (.fmaF64 x0 x1 x2 x3 x4) := fun x0 x1 x2 x3 x4 => by cases x0 <;> exact .inl (List.cons_ne_nil _ _)

theorem Words.fmsF64 : ∀ x0 x1 x2 x3 x4, Words.Statement (.fmsF64 x0 x1 x2 x3 x4) := fun x0 x1 x2 x3 x4 => by cases x0 <;> exact .inl (List.cons_ne_nil _ _)

theorem Words.fminF64 : ∀ x0 x1 x2 x3 x4, Words.Statement (.fminF64 x0 x1 x2 x3 x4) := fun x0 x1 x2 x3 x4 => by cases x0 <;> exact .inl (List.cons_ne_nil _ _)

theorem Words.fmaxF64 : ∀ x0 x1 x2 x3 x4, Words.Statement (.fmaxF64 x0 x1 x2 x3 x4) := fun x0 x1 x2 x3 x4 => by cases x0 <;> exact .inl (List.cons_ne_nil _ _)

theorem Words.fsqrtF32 : ∀ x0 x1 x2 x3, Words.Statement (.fsqrtF32 x0 x1 x2 x3) := fun x0 x1 x2 x3 => by cases x0 <;> exact .inl (List.cons_ne_nil _ _)

theorem Words.fsqrtF64 : ∀ x0 x1 x2 x3, Words.Statement (.fsqrtF64 x0 x1 x2 x3) := fun x0 x1 x2 x3 => by cases x0 <;> exact .inl (List.cons_ne_nil _ _)

theorem Words.ffnF32 : ∀ x0 x1 x2 x3 x4, Words.Statement (.ffnF32 x0 x1 x2 x3 x4) := fun x0 x1 x2 x3 x4 => by cases x0 <;> exact .inl (List.cons_ne_nil _ _)

theorem Words.ffnF16 : ∀ x0 x1 x2 x3 x4, Words.Statement (.ffnF16 x0 x1 x2 x3 x4) := fun x0 x1 x2 x3 x4 => by cases x0 <;> exact .inl (List.cons_ne_nil _ _)

theorem Words.pfmaF32x2 : ∀ x0 x1 x2 x3 x4, Words.Statement (.pfmaF32x2 x0 x1 x2 x3 x4) := fun x0 x1 x2 x3 x4 => by cases x0 <;> exact .inl (List.cons_ne_nil _ _)

theorem Words.pfmaBf16x2 : ∀ x0 x1 x2 x3 x4, Words.Statement (.pfmaBf16x2 x0 x1 x2 x3 x4) := fun x0 x1 x2 x3 x4 => by cases x0 <;> exact .inl (List.cons_ne_nil _ _)

theorem Words.paddF32x2 : ∀ x0 x1 x2 x3 x4, Words.Statement (.paddF32x2 x0 x1 x2 x3 x4) := fun x0 x1 x2 x3 x4 => by cases x0 <;> exact .inl (List.cons_ne_nil _ _)

theorem Words.pmulF32x2 : ∀ x0 x1 x2 x3 x4, Words.Statement (.pmulF32x2 x0 x1 x2 x3 x4) := fun x0 x1 x2 x3 x4 => by cases x0 <;> exact .inl (List.cons_ne_nil _ _)

theorem Words.fclass : ∀ x0 x1 x2 x3 x4, Words.Statement (.fclass x0 x1 x2 x3 x4) := fun x0 x1 x2 x3 x4 => by cases x0 <;> exact .inl (List.cons_ne_nil _ _)

theorem Words.fscale : ∀ x0 x1 x2 x3 x4, Words.Statement (.fscale x0 x1 x2 x3 x4) := fun x0 x1 x2 x3 x4 => by cases x0 <;> exact .inl (List.cons_ne_nil _ _)

theorem Words.plog : ∀ x0 x1 x2 x3 x4, Words.Statement (.plog x0 x1 x2 x3 x4) := fun _ _ _ _ _ => .inl (List.cons_ne_nil _ _)

theorem Words.pmov : ∀ x0 x1 x2 x3, Words.Statement (.pmov x0 x1 x2 x3) := fun _ _ _ _ => .inl (List.cons_ne_nil _ _)

theorem Words.xset : ∀ x0 x1 x2, Words.Statement (.xset x0 x1 x2) := fun _ _ _ => .inl (List.cons_ne_nil _ _)

theorem Words.xget : ∀ x0 x1 x2, Words.Statement (.xget x0 x1 x2) := fun _ _ _ => .inl (List.cons_ne_nil _ _)

theorem Words.dot4S8 : ∀ x0 x1 x2 x3 x4, Words.Statement (.dot4S8 x0 x1 x2 x3 x4) := fun x0 x1 x2 x3 x4 => by cases x0 <;> exact .inl (List.cons_ne_nil _ _)

theorem Words.dot2Bf16 : ∀ x0 x1 x2 x3 x4, Words.Statement (.dot2Bf16 x0 x1 x2 x3 x4) := fun x0 x1 x2 x3 x4 => by cases x0 <;> exact .inl (List.cons_ne_nil _ _)

theorem Words.ld : ∀ x0 x1 x2 x3 x4 x5, Words.Statement (.ld x0 x1 x2 x3 x4 x5) := fun x0 x1 x2 x3 x4 x5 => by cases x0 <;> exact .inl (List.cons_ne_nil _ _)

theorem Words.st : ∀ x0 x1 x2 x3 x4 x5, Words.Statement (.st x0 x1 x2 x3 x4 x5) := fun x0 x1 x2 x3 x4 x5 => by cases x0 <;> exact .inl (List.cons_ne_nil _ _)

theorem Words.atom : ∀ x0 x1 x2 x3 x4 x5, Words.Statement (.atom x0 x1 x2 x3 x4 x5) := fun x0 x1 x2 x3 x4 x5 => by cases x0 <;> exact .inl (List.cons_ne_nil _ _)

theorem Words.red : ∀ x0 x1 x2 x3 x4 x5, Words.Statement (.red x0 x1 x2 x3 x4 x5) := fun x0 x1 x2 x3 x4 x5 => by cases x0 <;> exact .inl (List.cons_ne_nil _ _)

theorem Words.xacc : ∀ x0 x1 x2 x3 x4 x5, Words.Statement (.xacc x0 x1 x2 x3 x4 x5) := fun x0 x1 x2 x3 x4 x5 => by cases x0 <;> exact .inl (List.cons_ne_nil _ _)

theorem Words.xrnd : ∀ x0 x1 x2 x3 x4 x5 x6, Words.Statement (.xrnd x0 x1 x2 x3 x4 x5 x6) := fun x0 x1 x2 x3 x4 x5 x6 => by cases x0 <;> exact .inl (List.cons_ne_nil _ _)

theorem Words.tld : ∀ x0 x1 x2 x3 x4 x5, Words.Statement (.tld x0 x1 x2 x3 x4 x5) := fun _ _ _ _ _ _ => .inl (List.cons_ne_nil _ _)

theorem Words.smp : ∀ x0 x1 x2 x3 x4 x5, Words.Statement (.smp x0 x1 x2 x3 x4 x5) := fun _ _ _ _ _ _ => .inl (List.cons_ne_nil _ _)

theorem Words.rtbox : ∀ x0 x1 x2 x3 x4 x5, Words.Statement (.rtbox x0 x1 x2 x3 x4 x5) := fun _ _ _ _ _ _ => .inl (List.cons_ne_nil _ _)

theorem Words.rttri : ∀ x0 x1 x2 x3 x4, Words.Statement (.rttri x0 x1 x2 x3 x4) := fun _ _ _ _ _ => .inl (List.cons_ne_nil _ _)

theorem Words.fe : ∀ x0 x1 x2 x3 x4 x5, Words.Statement (.fe x0 x1 x2 x3 x4 x5) := fun x0 x1 x2 x3 x4 x5 => by cases x0 <;> exact .inl (List.cons_ne_nil _ _)

theorem Words.gaddB32 : ∀ x0 x1 x2 x3, Words.Statement (.gaddB32 x0 x1 x2 x3) := fun _ _ _ _ => .inl (List.cons_ne_nil _ _)

theorem Words.gsubB32 : ∀ x0 x1 x2 x3, Words.Statement (.gsubB32 x0 x1 x2 x3) := fun _ _ _ _ => .inl (List.cons_ne_nil _ _)

theorem Words.gaddB64 : ∀ x0 x1 x2 x3, Words.Statement (.gaddB64 x0 x1 x2 x3) := fun _ _ _ _ => .inl (List.cons_ne_nil _ _)

theorem Words.gsubB64 : ∀ x0 x1 x2 x3, Words.Statement (.gsubB64 x0 x1 x2 x3) := fun _ _ _ _ => .inl (List.cons_ne_nil _ _)

theorem Words.gmulB32 : ∀ x0 x1 x2 x3, Words.Statement (.gmulB32 x0 x1 x2 x3) := fun _ _ _ _ => .inl (List.cons_ne_nil _ _)

theorem Words.gmulhS32 : ∀ x0 x1 x2 x3, Words.Statement (.gmulhS32 x0 x1 x2 x3) := fun _ _ _ _ => .inl (List.cons_ne_nil _ _)

theorem Words.gand : ∀ x0 x1 x2 x3, Words.Statement (.gand x0 x1 x2 x3) := fun _ _ _ _ => .inl (List.cons_ne_nil _ _)

theorem Words.gor : ∀ x0 x1 x2 x3, Words.Statement (.gor x0 x1 x2 x3) := fun _ _ _ _ => .inl (List.cons_ne_nil _ _)

theorem Words.gxor : ∀ x0 x1 x2 x3, Words.Statement (.gxor x0 x1 x2 x3) := fun _ _ _ _ => .inl (List.cons_ne_nil _ _)

theorem Words.gandn : ∀ x0 x1 x2 x3, Words.Statement (.gandn x0 x1 x2 x3) := fun _ _ _ _ => .inl (List.cons_ne_nil _ _)

theorem Words.gshl : ∀ x0 x1 x2 x3, Words.Statement (.gshl x0 x1 x2 x3) := fun _ _ _ _ => .inl (List.cons_ne_nil _ _)

theorem Words.gshr : ∀ x0 x1 x2 x3, Words.Statement (.gshr x0 x1 x2 x3) := fun _ _ _ _ => .inl (List.cons_ne_nil _ _)

theorem Words.gminS32 : ∀ x0 x1 x2 x3, Words.Statement (.gminS32 x0 x1 x2 x3) := fun _ _ _ _ => .inl (List.cons_ne_nil _ _)

theorem Words.gmaxS32 : ∀ x0 x1 x2 x3, Words.Statement (.gmaxS32 x0 x1 x2 x3) := fun _ _ _ _ => .inl (List.cons_ne_nil _ _)

theorem Words.gcmpS32 : ∀ x0 x1 x2 x3 x4 x5, Words.Statement (.gcmpS32 x0 x1 x2 x3 x4 x5) := fun _ _ _ _ _ _ => .inl (List.cons_ne_nil _ _)

theorem Words.gcmpZ32 : ∀ x0 x1 x2 x3 x4 x5, Words.Statement (.gcmpZ32 x0 x1 x2 x3 x4 x5) := fun _ _ _ _ _ _ => .inl (List.cons_ne_nil _ _)

theorem Words.gaddi : ∀ x0 x1 x2 x3, Words.Statement (.gaddi x0 x1 x2 x3) := fun _ _ _ _ => .inl (List.cons_ne_nil _ _)

theorem Words.gmovi : ∀ x0 x1 x2, Words.Statement (.gmovi x0 x1 x2) := fun _ _ _ => .inl (List.cons_ne_nil _ _)

theorem Words.gmov : ∀ x0 x1 x2, Words.Statement (.gmov x0 x1 x2) := fun _ _ _ => .inl (List.cons_ne_nil _ _)

theorem Words.gsel : ∀ x0 x1 x2 x3, Words.Statement (.gsel x0 x1 x2 x3) := fun _ _ _ _ => .inl (List.cons_ne_nil _ _)

theorem Words.sreg : ∀ x0 x1 x2, Words.Statement (.sreg x0 x1 x2) := fun _ _ _ => .inl (List.cons_ne_nil _ _)

theorem Words.sregw : ∀ x0 x1 x2, Words.Statement (.sregw x0 x1 x2) := fun _ _ _ => .inl (List.cons_ne_nil _ _)

theorem Words.ctl : ∀ x0 x1 x2, Words.Statement (.ctl x0 x1 x2) := fun _ _ _ => .inl (List.cons_ne_nil _ _)

theorem Words.ctlw : ∀ x0 x1 x2, Words.Statement (.ctlw x0 x1 x2) := fun _ _ _ => .inl (List.cons_ne_nil _ _)

theorem Words.bra : ∀ x0 x1, Words.Statement (.bra x0 x1) := fun _ _ => .inl (List.cons_ne_nil _ _)

theorem Words.call : ∀ x0 x1, Words.Statement (.call x0 x1) := fun _ _ => .inl (List.cons_ne_nil _ _)

theorem Words.jmpr : ∀ x0 x1, Words.Statement (.jmpr x0 x1) := fun _ _ => .inl (List.cons_ne_nil _ _)

theorem Words.ret : ∀ x0, Words.Statement (.ret x0) := fun _ => .inl (List.cons_ne_nil _ _)

theorem Words.join : ∀ x0 x1, Words.Statement (.join x0 x1) := fun _ _ => .inl (List.cons_ne_nil _ _)

theorem Words.leave : ∀ x0 x1, Words.Statement (.leave x0 x1) := fun _ _ => .inl (List.cons_ne_nil _ _)

theorem Words.waitm : ∀ x0 x1, Words.Statement (.waitm x0 x1) := fun _ _ => .inl (List.cons_ne_nil _ _)

theorem Words.mrd : ∀ x0 x1 x2, Words.Statement (.mrd x0 x1 x2) := fun _ _ _ => .inl (List.cons_ne_nil _ _)

theorem Words.mwr : ∀ x0 x1 x2, Words.Statement (.mwr x0 x1 x2) := fun _ _ _ => .inl (List.cons_ne_nil _ _)

theorem Words.vote : ∀ x0 x1 x2 x3, Words.Statement (.vote x0 x1 x2 x3) := fun _ _ _ _ => .inl (List.cons_ne_nil _ _)

theorem Words.gred : ∀ x0 x1 x2 x3, Words.Statement (.gred x0 x1 x2 x3) := fun _ _ _ _ => .inl (List.cons_ne_nil _ _)

theorem Words.gscan : ∀ x0 x1 x2 x3 x4, Words.Statement (.gscan x0 x1 x2 x3 x4) := fun _ _ _ _ _ => .inl (List.cons_ne_nil _ _)

theorem Words.spawn : ∀ x0 x1 x2, Words.Statement (.spawn x0 x1 x2) := fun _ _ _ => .inl (List.cons_ne_nil _ _)

theorem Words.spawnh : ∀ x0 x1 x2, Words.Statement (.spawnh x0 x1 x2) := fun _ _ _ => .inl (List.cons_ne_nil _ _)

theorem Words.exit : ∀ x0, Words.Statement (.exit x0) := fun _ => .inl (List.cons_ne_nil _ _)

theorem Words.yield : ∀ x0, Words.Statement (.yield x0) := fun _ => .inl (List.cons_ne_nil _ _)

theorem Words.phreg : ∀ x0 x1 x2, Words.Statement (.phreg x0 x1 x2) := fun _ _ _ => .inl (List.cons_ne_nil _ _)

theorem Words.phdereg : ∀ x0 x1 x2, Words.Statement (.phdereg x0 x1 x2) := fun _ _ _ => .inl (List.cons_ne_nil _ _)

theorem Words.phInit : ∀ x0 x1 x2 x3, Words.Statement (.phInit x0 x1 x2 x3) := fun _ _ _ _ => .inl (List.cons_ne_nil _ _)

theorem Words.phArrive : ∀ x0 x1 x2 x3, Words.Statement (.phArrive x0 x1 x2 x3) := fun _ _ _ _ => .inl (List.cons_ne_nil _ _)

theorem Words.phArrwait : ∀ x0 x1 x2 x3, Words.Statement (.phArrwait x0 x1 x2 x3) := fun _ _ _ _ => .inl (List.cons_ne_nil _ _)

theorem Words.phWait : ∀ x0 x1 x2 x3, Words.Statement (.phWait x0 x1 x2 x3) := fun _ _ _ _ => .inl (List.cons_ne_nil _ _)

theorem Words.phTest : ∀ x0 x1 x2 x3, Words.Statement (.phTest x0 x1 x2 x3) := fun _ _ _ _ => .inl (List.cons_ne_nil _ _)

theorem Words.phDrop : ∀ x0 x1 x2, Words.Statement (.phDrop x0 x1 x2) := fun _ _ _ => .inl (List.cons_ne_nil _ _)

theorem Words.qbind : ∀ x0 x1 x2, Words.Statement (.qbind x0 x1 x2) := fun _ _ _ => .inl (List.cons_ne_nil _ _)

theorem Words.qfree : ∀ x0 x1, Words.Statement (.qfree x0 x1) := fun _ _ => .inl (List.cons_ne_nil _ _)

theorem Words.waitc : ∀ x0 x1 x2, Words.Statement (.waitc x0 x1 x2) := fun _ _ _ => .inl (List.cons_ne_nil _ _)

theorem Words.seal : ∀ x0 x1, Words.Statement (.seal x0 x1) := fun _ _ => .inl (List.cons_ne_nil _ _)

theorem Words.bquery : ∀ x0 x1, Words.Statement (.bquery x0 x1) := fun _ _ => .inl (List.cons_ne_nil _ _)

theorem Words.cflush : ∀ x0 x1 x2 x3, Words.Statement (.cflush x0 x1 x2 x3) := fun x0 x1 x2 x3 => by cases x0 <;> exact .inl (List.cons_ne_nil _ _)

theorem Words.cinval : ∀ x0 x1 x2 x3, Words.Statement (.cinval x0 x1 x2 x3) := fun x0 x1 x2 x3 => by cases x0 <;> exact .inl (List.cons_ne_nil _ _)

theorem Words.mmaMma : ∀ x0 x1 x2 x3, Words.Statement (.mmaMma x0 x1 x2 x3) := fun _ _ _ _ => .inl (List.cons_ne_nil _ _)

theorem Words.mmaMmar : ∀ x0 x1 x2 x3, Words.Statement (.mmaMmar x0 x1 x2 x3) := fun _ _ _ _ => .inl (List.cons_ne_nil _ _)

theorem Words.mmaMpair : ∀ x0 x1 x2 x3, Words.Statement (.mmaMpair x0 x1 x2 x3) := fun _ _ _ _ => .inl (List.cons_ne_nil _ _)

theorem Words.mmaMload : ∀ x0 x1 x2, Words.Statement (.mmaMload x0 x1 x2) := fun _ _ _ => .inl (List.cons_ne_nil _ _)

theorem Words.mmaMclear : ∀ x0 x1 x2, Words.Statement (.mmaMclear x0 x1 x2) := fun _ _ _ => .inl (List.cons_ne_nil _ _)

theorem Words.mmaMrow : ∀ x0 x1 x2, Words.Statement (.mmaMrow x0 x1 x2) := fun _ _ _ => .inl (List.cons_ne_nil _ _)

theorem Words.tmplInst : ∀ x0 x1 x2 x3, Words.Statement (.tmplInst x0 x1 x2 x3) := fun _ _ _ _ => .inl (List.cons_ne_nil _ _)

theorem Words.tmplValid : ∀ x0 x1 x2 x3, Words.Statement (.tmplValid x0 x1 x2 x3) := fun _ _ _ _ => .inl (List.cons_ne_nil _ _)

theorem Words.tmplDrop : ∀ x0 x1 x2, Words.Statement (.tmplDrop x0 x1 x2) := fun _ _ _ => .inl (List.cons_ne_nil _ _)

theorem Words.rosin : ∀ x0, Words.Statement (.rosin x0) := fun _ => .inl (List.cons_ne_nil _ _)

theorem Words.rosout : ∀ x0, Words.Statement (.rosout x0) := fun _ => .inl (List.cons_ne_nil _ _)

theorem Words.rastTri : ∀ x0 x1 x2 x3, Words.Statement (.rastTri x0 x1 x2 x3) := fun _ _ _ _ => .inl (List.cons_ne_nil _ _)

theorem Words.foutTile : ∀ x0 x1 x2 x3, Words.Statement (.foutTile x0 x1 x2 x3) := fun _ _ _ _ => .inl (List.cons_ne_nil _ _)

theorem Words.foutEnd : ∀ x0 x1 x2 x3, Words.Statement (.foutEnd x0 x1 x2 x3) := fun _ _ _ _ => .inl (List.cons_ne_nil _ _)

theorem Words.resmapSet : ∀ x0 x1 x2 x3, Words.Statement (.resmapSet x0 x1 x2 x3) := fun _ _ _ _ => .inl (List.cons_ne_nil _ _)

theorem Words.resmapClear : ∀ x0 x1 x2 x3, Words.Statement (.resmapClear x0 x1 x2 x3) := fun _ _ _ _ => .inl (List.cons_ne_nil _ _)

theorem Words.resmapDrain : ∀ x0 x1, Words.Statement (.resmapDrain x0 x1) := fun _ _ => .inl (List.cons_ne_nil _ _)

theorem Words.trap : ∀ x0 x1, Words.Statement (.trap x0 x1) := fun _ _ => .inl (List.cons_ne_nil _ _)

theorem Words.brk : ∀ x0 x1, Words.Statement (.brk x0 x1) := fun _ _ => .inl (List.cons_ne_nil _ _)

theorem Words.rte : ∀ x0, Words.Statement (.rte x0) := fun _ => .inl (List.cons_ne_nil _ _)

theorem Words.migpt : ∀ x0, Words.Statement (.migpt x0) := fun _ => .inl (List.cons_ne_nil _ _)

theorem Words.nop : ∀ x0, Words.Statement (.nop x0) := fun _ => .inl (List.cons_ne_nil _ _)

theorem Words.bar : ∀ x0, Words.Statement (.bar x0) := fun _ => .inl (List.cons_ne_nil _ _)

theorem Words.clbar : ∀ x0, Words.Statement (.clbar x0) := fun _ => .inl (List.cons_ne_nil _ _)

theorem Words.deferredTrapDelivery : ∀ x0, Words.Statement (.deferredTrapDelivery x0) := fun _ => .inr ⟨rfl, fun _ => rfl⟩

theorem Words.loadComplete : ∀ x0, Words.Statement (.loadComplete x0) := fun _ => .inr ⟨rfl, fun _ => rfl⟩

theorem Words.storePerformed : ∀ x0, Words.Statement (.storePerformed x0) := fun _ => .inr ⟨rfl, fun _ => rfl⟩

theorem Words.promotionRequest : ∀ x0 x1, Words.Statement (.promotionRequest x0 x1) := fun _ _ => .inr ⟨rfl, fun _ => rfl⟩

theorem Words.ctlwComplete : ∀ x0, Words.Statement (.ctlwComplete x0) := fun _ => .inr ⟨rfl, fun _ => rfl⟩

theorem Words.binTimerExpiry : ∀ x0 x1, Words.Statement (.binTimerExpiry x0 x1) := fun _ _ => .inr ⟨rfl, fun _ => rfl⟩

theorem Words.spawnWaitServed : ∀ x0, Words.Statement (.spawnWaitServed x0) := fun _ => .inr ⟨rfl, fun _ => rfl⟩

theorem Words.taskQueueDelivery : ∀ x0, Words.Statement (.taskQueueDelivery x0) := fun _ => .inr ⟨rfl, fun _ => rfl⟩

theorem Words.yieldExpiry : ∀ x0, Words.Statement (.yieldExpiry x0) := fun _ => .inr ⟨rfl, fun _ => rfl⟩

theorem Words.copyAccept : ∀ x0 x1, Words.Statement (.copyAccept x0 x1) := fun _ _ => .inr ⟨rfl, fun _ => rfl⟩

theorem Words.copyComplete : ∀ x0, Words.Statement (.copyComplete x0) := fun _ => .inr ⟨rfl, fun _ => rfl⟩

theorem Words.copyFailure : ∀ x0 x1, Words.Statement (.copyFailure x0 x1) := fun _ _ => .inr ⟨rfl, fun _ => rfl⟩

theorem Words.matrixCommandAccept : ∀ x0, Words.Statement (.matrixCommandAccept x0) := fun _ => .inr ⟨rfl, fun _ => rfl⟩

theorem Words.matrixCommandStart : ∀ x0, Words.Statement (.matrixCommandStart x0) := fun _ => .inr ⟨rfl, fun _ => rfl⟩

theorem Words.matrixRowComplete : ∀ x0, Words.Statement (.matrixRowComplete x0) := fun _ => .inr ⟨rfl, fun _ => rfl⟩

theorem Words.pairwaitExpiry : ∀ x0, Words.Statement (.pairwaitExpiry x0) := fun _ => .inr ⟨rfl, fun _ => rfl⟩

theorem Words.mmarResultPush : ∀ x0 x1, Words.Statement (.mmarResultPush x0 x1) := fun _ _ => .inr ⟨rfl, fun _ => rfl⟩

theorem Words.rastAccept : ∀ x0, Words.Statement (.rastAccept x0) := fun _ => .inr ⟨rfl, fun _ => rfl⟩

theorem Words.rastTriangle : ∀ x0, Words.Statement (.rastTriangle x0) := fun _ => .inr ⟨rfl, fun _ => rfl⟩

theorem Words.wdogRosExpiry : ∀ x0 x1, Words.Statement (.wdogRosExpiry x0 x1) := fun _ _ => .inr ⟨rfl, fun _ => rfl⟩

theorem Words.tileReadComplete : ∀ x0 x1 x2, Words.Statement (.tileReadComplete x0 x1 x2) := fun _ _ _ => .inr ⟨rfl, fun _ => rfl⟩

theorem Words.frameComplete : ∀ x0 x1, Words.Statement (.frameComplete x0 x1) := fun _ _ => .inr ⟨rfl, fun _ => rfl⟩

theorem Words.tableWalk : ∀ x0, Words.Statement (.tableWalk x0) := fun _ => .inr ⟨rfl, fun _ => rfl⟩

theorem Words.runAheadEnd : ∀ x0, Words.Statement (.runAheadEnd x0) := fun _ => .inr ⟨rfl, fun _ => rfl⟩

theorem Words.faultBatchWrite : ∀ x0, Words.Statement (.faultBatchWrite x0) := fun _ => .inr ⟨rfl, fun _ => rfl⟩

theorem Words.tinvComplete : ∀ x0, Words.Statement (.tinvComplete x0) := fun _ => .inr ⟨rfl, fun _ => rfl⟩

theorem Words.wdogBarExpiry : ∀ x0, Words.Statement (.wdogBarExpiry x0) := fun _ => .inr ⟨rfl, fun _ => rfl⟩

theorem Words.wdogHangExpiry : ∀ x0, Words.Statement (.wdogHangExpiry x0) := fun _ => .inr ⟨rfl, fun _ => rfl⟩

theorem Words.sliceResetComplete : ∀ x0, Words.Statement (.sliceResetComplete x0) := fun _ => .inr ⟨rfl, fun _ => rfl⟩

theorem Words.ceDescriptorComplete : ∀ x0, Words.Statement (.ceDescriptorComplete x0) := fun _ => .inr ⟨rfl, fun _ => rfl⟩

theorem Words.launchRecordTake : ∀ x0 x1, Words.Statement (.launchRecordTake x0 x1) := fun _ _ => .inr ⟨rfl, fun _ => rfl⟩

theorem Words.placementDecision : ∀ x0, Words.Statement (.placementDecision x0) := fun _ => .inr ⟨rfl, fun _ => rfl⟩

theorem Words.preemptSaveComplete : ∀ x0, Words.Statement (.preemptSaveComplete x0) := fun _ => .inr ⟨rfl, fun _ => rfl⟩

theorem Words.ageLimitExpiry : ∀ x0, Words.Statement (.ageLimitExpiry x0) := fun _ => .inr ⟨rfl, fun _ => rfl⟩

theorem Words.gridComplete : ∀ x0, Words.Statement (.gridComplete x0) := fun _ => .inr ⟨rfl, fun _ => rfl⟩

theorem Words.migwaitExpiry : ∀ x0, Words.Statement (.migwaitExpiry x0) := fun _ => .inr ⟨rfl, fun _ => rfl⟩

theorem Words.migrationTransferComplete : ∀ x0, Words.Statement (.migrationTransferComplete x0) := fun _ => .inr ⟨rfl, fun _ => rfl⟩

theorem Words.whetstonePassStart : Words.Statement (.whetstonePassStart) := .inr ⟨rfl, fun _ => rfl⟩

theorem Words.whetstoneDrainTimeout : Words.Statement (.whetstoneDrainTimeout) := .inr ⟨rfl, fun _ => rfl⟩

theorem Words.whetstoneScanComplete : ∀ x0, Words.Statement (.whetstoneScanComplete x0) := fun _ => .inr ⟨rfl, fun _ => rfl⟩

theorem Words.whetstoneSkip : Words.Statement (.whetstoneSkip) := .inr ⟨rfl, fun _ => rfl⟩

theorem Words.leaseScrubComplete : ∀ x0 x1, Words.Statement (.leaseScrubComplete x0 x1) := fun _ _ => .inr ⟨rfl, fun _ => rfl⟩

theorem Words.powerMeterTick : ∀ x0, Words.Statement (.powerMeterTick x0) := fun _ => .inr ⟨rfl, fun _ => rfl⟩

theorem Words.pauseComplete : ∀ x0, Words.Statement (.pauseComplete x0) := fun _ => .inr ⟨rfl, fun _ => rfl⟩

theorem Words.fwupdComplete : Words.Statement (.fwupdComplete) := .inr ⟨rfl, fun _ => rfl⟩

theorem Words.sealFlushComplete : ∀ x0, Words.Statement (.sealFlushComplete x0) := fun _ => .inr ⟨rfl, fun _ => rfl⟩

theorem Words.sweepLineCommit : ∀ x0 x1, Words.Statement (.sweepLineCommit x0 x1) := fun _ _ => .inr ⟨rfl, fun _ => rfl⟩

theorem Words.illegalInstruction : ∀ x0, Words.Statement (.illegalInstruction x0) := fun _ => .inr ⟨rfl, fun _ => rfl⟩

theorem Words.fetchProtection : ∀ x0, Words.Statement (.fetchProtection x0) := fun _ => .inr ⟨rfl, fun _ => rfl⟩

theorem Words.tmplAccept : ∀ x0, Words.Statement (.tmplAccept x0) := fun _ => .inr ⟨rfl, fun _ => rfl⟩

theorem Words.resmapAccept : ∀ x0, Words.Statement (.resmapAccept x0) := fun _ => .inr ⟨rfl, fun _ => rfl⟩

theorem Words.foutAccept : ∀ x0, Words.Statement (.foutAccept x0) := fun _ => .inr ⟨rfl, fun _ => rfl⟩

theorem Words.cacheWriteback : ∀ x0 x1 x2 x3, Words.Statement (.cacheWriteback x0 x1 x2 x3) := fun _ _ _ _ => .inr ⟨rfl, fun _ => rfl⟩

theorem Words.residueMismatch : ∀ x0 x1, Words.Statement (.residueMismatch x0 x1) := fun _ _ => .inr ⟨rfl, fun _ => rfl⟩

theorem Words.encCfgWrite : ∀ x0 x1 x2 x3, Words.Statement (.encCfgWrite x0 x1 x2 x3) := fun _ _ _ _ => .inr ⟨rfl, fun _ => rfl⟩

theorem Words.slcFresp : ∀ x0 x1, Words.Statement (.slcFresp x0 x1) := fun _ _ => .inr ⟨rfl, fun _ => rfl⟩

theorem Words.tinvInval : ∀ x0 x1, Words.Statement (.tinvInval x0 x1) := fun _ _ => .inr ⟨rfl, fun _ => rfl⟩

theorem Words.tinvRelease : ∀ x0 x1, Words.Statement (.tinvRelease x0 x1) := fun _ _ => .inr ⟨rfl, fun _ => rfl⟩

theorem Words.tinvInvalContext : ∀ x0 x1, Words.Statement (.tinvInvalContext x0 x1) := fun _ _ => .inr ⟨rfl, fun _ => rfl⟩

theorem Words.powerUp : Words.Statement (.powerUp) := .inr ⟨rfl, fun _ => rfl⟩

theorem Words.registerWrite : ∀ x0 x1 x2 x3 x4, Words.Statement (.registerWrite x0 x1 x2 x3 x4) := fun _ _ _ _ _ => .inr ⟨rfl, fun _ => rfl⟩

theorem Words.lock : ∀ x0, Words.Statement (.lock x0) := fun _ => .inr ⟨rfl, fun _ => rfl⟩

theorem Words.run : ∀ x0, Words.Statement (.run x0) := fun _ => .inr ⟨rfl, fun _ => rfl⟩

theorem Words.drain : ∀ x0 x1, Words.Statement (.drain x0 x1) := fun _ _ => .inr ⟨rfl, fun _ => rfl⟩

theorem Words.reset : ∀ x0, Words.Statement (.reset x0) := fun _ => .inr ⟨rfl, fun _ => rfl⟩

theorem Words.powerOff : ∀ x0 x1, Words.Statement (.powerOff x0 x1) := fun _ _ => .inr ⟨rfl, fun _ => rfl⟩

theorem Words.powerOn : ∀ x0 x1, Words.Statement (.powerOn x0 x1) := fun _ _ => .inr ⟨rfl, fun _ => rfl⟩

theorem Words.partCmd : ∀ x0, Words.Statement (.partCmd x0) := fun _ => .inr ⟨rfl, fun _ => rfl⟩

theorem Words.ceOwnWrite : ∀ x0 x1, Words.Statement (.ceOwnWrite x0 x1) := fun _ _ => .inr ⟨rfl, fun _ => rfl⟩

theorem Words.ceTailWrite : ∀ x0 x1, Words.Statement (.ceTailWrite x0 x1) := fun _ _ => .inr ⟨rfl, fun _ => rfl⟩

theorem Words.contextCreate : ∀ x0 x1, Words.Statement (.contextCreate x0 x1) := fun _ _ => .inr ⟨rfl, fun _ => rfl⟩

theorem Words.contextReload : ∀ x0 x1, Words.Statement (.contextReload x0 x1) := fun _ _ => .inr ⟨rfl, fun _ => rfl⟩

theorem Words.contextDestroy : ∀ x0 x1, Words.Statement (.contextDestroy x0 x1) := fun _ _ => .inr ⟨rfl, fun _ => rfl⟩

theorem Words.doorbell : ∀ x0 x1 x2 x3, Words.Statement (.doorbell x0 x1 x2 x3) := fun _ _ _ _ => .inr ⟨rfl, fun _ => rfl⟩

theorem Words.migtempPass : ∀ x0 x1, Words.Statement (.migtempPass x0 x1) := fun _ _ => .inr ⟨rfl, fun _ => rfl⟩

theorem Words.monitorSample : ∀ x0 x1 x2 x3 x4, Words.Statement (.monitorSample x0 x1 x2 x3 x4) := fun _ _ _ _ _ => .inr ⟨rfl, fun _ => rfl⟩

theorem Words.monCtlWrite : ∀ x0 x1 x2, Words.Statement (.monCtlWrite x0 x1 x2) := fun _ _ _ => .inr ⟨rfl, fun _ => rfl⟩

theorem Words.monClr : ∀ x0 x1, Words.Statement (.monClr x0 x1) := fun _ _ => .inr ⟨rfl, fun _ => rfl⟩

theorem Words.leaseGrant : ∀ x0 x1, Words.Statement (.leaseGrant x0 x1) := fun _ _ => .inr ⟨rfl, fun _ => rfl⟩

theorem Words.leaseReclaim : ∀ x0 x1, Words.Statement (.leaseReclaim x0 x1) := fun _ _ => .inr ⟨rfl, fun _ => rfl⟩

theorem Words.qosFabWrite : ∀ x0 x1 x2, Words.Statement (.qosFabWrite x0 x1 x2) := fun _ _ _ => .inr ⟨rfl, fun _ => rfl⟩

theorem Words.timeSet : ∀ x0, Words.Statement (.timeSet x0) := fun _ => .inr ⟨rfl, fun _ => rfl⟩

theorem Words.pause : ∀ x0 x1, Words.Statement (.pause x0 x1) := fun _ _ => .inr ⟨rfl, fun _ => rfl⟩

theorem Words.resume : ∀ x0 x1, Words.Statement (.resume x0 x1) := fun _ _ => .inr ⟨rfl, fun _ => rfl⟩

theorem Words.slcVtvalWrite : ∀ x0 x1, Words.Statement (.slcVtvalWrite x0 x1) := fun _ _ => .inr ⟨rfl, fun _ => rfl⟩

theorem Words.slcCkvalWrite : ∀ x0 x1, Words.Statement (.slcCkvalWrite x0 x1) := fun _ _ => .inr ⟨rfl, fun _ => rfl⟩

theorem Words.fwupdGo : ∀ x0, Words.Statement (.fwupdGo x0) := fun _ => .inr ⟨rfl, fun _ => rfl⟩

theorem Words.sealSizeWrite : ∀ x0 x1 x2, Words.Statement (.sealSizeWrite x0 x1 x2) := fun _ _ _ => .inr ⟨rfl, fun _ => rfl⟩

theorem Words.sealFlush : ∀ x0 x1 x2, Words.Statement (.sealFlush x0 x1 x2) := fun _ _ _ => .inr ⟨rfl, fun _ => rfl⟩

theorem Words.linkFlitReceive : ∀ x0 x1 x2, Words.Statement (.linkFlitReceive x0 x1 x2) := fun _ _ _ => .inr ⟨rfl, fun _ => rfl⟩

theorem Words.linkInboundAccess : ∀ x0 x1 x2, Words.Statement (.linkInboundAccess x0 x1 x2) := fun _ _ _ => .inr ⟨rfl, fun _ => rfl⟩

theorem Words.worldCreate : ∀ x0, Words.Statement (.worldCreate x0) := fun _ => .inr ⟨rfl, fun _ => rfl⟩

theorem Words.worldDestroy : ∀ x0, Words.Statement (.worldDestroy x0) := fun _ => .inr ⟨rfl, fun _ => rfl⟩

theorem Words.ctrread : ∀ x0 x1 x2, Words.Statement (.ctrread x0 x1 x2) := fun _ _ _ => .inr ⟨rfl, fun _ => rfl⟩

theorem Words.tagflip : ∀ x0 x1 x2, Words.Statement (.tagflip x0 x1 x2) := fun _ _ _ => .inr ⟨rfl, fun _ => rfl⟩

theorem Words.spdmRequest : ∀ x0, Words.Statement (.spdmRequest x0) := fun _ => .inr ⟨rfl, fun _ => rfl⟩

theorem Words.worldSessionChange : ∀ x0 x1 x2, Words.Statement (.worldSessionChange x0 x1 x2) := fun _ _ _ => .inr ⟨rfl, fun _ => rfl⟩

theorem Words.hostAccess : ∀ x0 x1 x2, Words.Statement (.hostAccess x0 x1 x2) := fun _ _ _ => .inr ⟨rfl, fun _ => rfl⟩

theorem Words.linkUpChange : ∀ x0 x1 x2, Words.Statement (.linkUpChange x0 x1 x2) := fun _ _ _ => .inr ⟨rfl, fun _ => rfl⟩

theorem Words.linkKeyChange : ∀ x0, Words.Statement (.linkKeyChange x0) := fun _ => .inr ⟨rfl, fun _ => rfl⟩

theorem Words.uncorrectableError : ∀ x0, Words.Statement (.uncorrectableError x0) := fun _ => .inr ⟨rfl, fun _ => rfl⟩

theorem Words.migtempRearm : ∀ x0 x1, Words.Statement (.migtempRearm x0 x1) := fun _ _ => .inr ⟨rfl, fun _ => rfl⟩

theorem Words.packageReset : Words.Statement (.packageReset) := .inr ⟨rfl, fun _ => rfl⟩

end Sys2Proof.Laws
end

