-- ==== Sys2Proof/Laws/Uniform.lean ====
section
/-! SUPPORT. What a uniform instruction comes to when every group of its set can complete: each thread record a function of itself. -/

namespace Sys2Proof.Machine

open Sys2Proof.Terms

/-! Records that become functions of themselves. -/

theorem threadsBecome_refl (s : State) : ThreadsBecome s s (fun _ t => t) :=
  ⟨rfl, fun tid => by simp⟩

theorem threadsBecome_trans {s t u : State} {f g : Nat → Thread → Thread} (h1 : ThreadsBecome s t f) (h2 : ThreadsBecome t u g) :
    ThreadsBecome s u (fun tid x => g tid (f tid x)) := by
  refine ⟨?_, fun tid => ?_⟩
  · rw [h2.1, h1.1]
    rfl
  · rw [h2.2, h1.2, Option.map_map]
    rfl

theorem threadsBecome_congr {s t : State} {f g : Nat → Thread → Thread} (h : ThreadsBecome s t f)
    (hfg : ∀ tid x, spGet s.threads tid = some x → f tid x = g tid x) : ThreadsBecome s t g := by
  refine ⟨h.1, fun tid => ?_⟩
  rw [h.2]
  cases hx : spGet s.threads tid with
  | none => rfl
  | some x => simp [hfg tid x hx]

theorem threadsBecome_modThread (s : State) (k : Nat) (f : Thread → Thread) :
    ThreadsBecome s (s.modThread k f) (fun tid x => if tid = k then f x else x) := by
  cases hk : spGet s.threads k with
  | none =>
    have : s.modThread k f = s := by
      unfold State.modThread
      rw [hk]
    rw [this]
    refine ⟨rfl, fun tid => ?_⟩
    by_cases h : tid = k
    · subst h
      rw [hk]
      rfl
    · simp [h]
  | some x =>
    rw [modThread_of_get s k f x hk]
    refine ⟨rfl, fun tid => ?_⟩
    by_cases h : tid = k
    · subst h
      simp [hk]
    · simp [h, spGet_spPut_ne _ _ h]

theorem threadsBecome_fold (ts : List Nat) (hn : ts.Nodup) (f : Thread → Thread) (s : State) :
    ThreadsBecome s (ts.foldl (fun s t => s.modThread t f) s) (fun tid x => if ts.contains tid then f x else x) := by
  induction ts generalizing s with
  | nil => exact ⟨rfl, fun tid => by simp⟩
  | cons k r ih =>
    obtain ⟨hk, hr⟩ := List.nodup_cons.1 hn
    refine threadsBecome_congr (threadsBecome_trans (threadsBecome_modThread s k f) (ih hr _)) ?_
    intro tid x _
    by_cases h : tid = k
    · subst h
      simp [hk]
    · simp [h]

theorem passAll_fold (ts : List Nat) (s : State) :
    s.passAll ts = ts.foldl (fun s' t => s'.modThread t (fun x => x.advance s.cur.len s.clock)) s := by
  unfold State.passAll
  have : ∀ (u : State), u.cur = s.cur → u.clock = s.clock →
      ts.foldl (fun s t => s.modThread t (fun x => x.advance s.cur.len s.clock)) u =
      ts.foldl (fun s' t => s'.modThread t (fun x => x.advance s.cur.len s.clock)) u := by
    induction ts with
    | nil => intros; rfl
    | cons k r ih =>
      intro u h1 h2
      simp only [List.foldl_cons, h1, h2]
      exact ih _ (by rw [modThread_cur, h1]) (by rw [modThread_clock, h2])
  exact this s rfl rfl

theorem threadsBecome_passAll (ts : List Nat) (hn : ts.Nodup) (s : State) :
    ThreadsBecome s (s.passAll ts) (fun tid x => if ts.contains tid then x.advance s.cur.len s.clock else x) := by
  rw [passAll_fold]
  exact threadsBecome_fold ts hn _ s

/-! Lanes of mask 0. -/

theorem liveLanes_nodup (s : State) (gid : Nat) : (s.liveLanes gid).Nodup := by
  unfold State.liveLanes
  refine List.Pairwise.map _ ?_ ((List.nodup_range (n := 32)).filter _)
  intro a b h1 h2
  simp only [tidOf] at h2
  omega

theorem mem_liveLanes (s : State) (gid tid : Nat) : (s.liveLanes gid).contains tid = (decide (gidOf tid = gid) && inM0 s tid) := by
  rw [Bool.eq_iff_iff, Bool.and_eq_true, decide_eq_true_eq, List.contains_iff_mem, State.liveLanes, List.mem_map]
  unfold inM0
  constructor
  · rintro ⟨l, hl, rfl⟩
    obtain ⟨hl, hm⟩ := List.mem_filter.1 hl
    have hl := List.mem_range.1 hl
    have h1 : gidOf (tidOf gid l) = gid := by unfold gidOf tidOf; omega
    have h2 : laneOf (tidOf gid l) = l := by unfold laneOf tidOf; omega
    rw [h2]
    exact ⟨h1, by simpa only [h1] using hm⟩
  · rintro ⟨rfl, hm⟩
    refine ⟨laneOf tid, List.mem_filter.2 ⟨List.mem_range.2 (Nat.mod_lt _ (by omega)), hm⟩, ?_⟩
    unfold tidOf gidOf laneOf
    omega

/-- A uniform write of the live lanes. -/
theorem threadsBecome_uniWrite (ts : List Nat) (hn : ts.Nodup) (f : Thread → Thread) (s : State) :
    ThreadsBecome s (ts.foldl (fun s t => s.uniWrite t f) s) (fun tid x => if ts.contains tid then heldBack s tid (f x) else x) := by
  induction ts generalizing s with
  | nil => exact ⟨rfl, fun tid => by simp⟩
  | cons k r ih =>
    obtain ⟨hk, hr⟩ := List.nodup_cons.1 hn
    have h1 : ThreadsBecome s (s.uniWrite k f) (fun tid x => if tid = k then heldBack s tid (f x) else x) := by
      refine threadsBecome_congr (threadsBecome_modThread s k _) ?_
      intro tid x _
      by_cases h : tid = k
      · subst h
        rfl
      · simp [h]
    have hh : ∀ tid x, heldBack (s.uniWrite k f) tid x = heldBack s tid x := by
      intro tid x
      unfold heldBack State.uniWrite
      rw [modThread_cur, modThread_clock]
    refine threadsBecome_congr (threadsBecome_trans h1 (ih hr _)) ?_
    intro tid x _
    by_cases h : tid = k
    · subst h
      simp [hk]
    · simp [h, hh]

theorem foldl_congr_mem {α β : Type} (l : List α) (f g : β → α → β) (b : β) (h : ∀ x a, a ∈ l → f x a = g x a) :
    l.foldl f b = l.foldl g b := by
  induction l generalizing b with
  | nil => rfl
  | cons a r ih =>
    simp only [List.foldl_cons, h b a (by simp)]
    exact ih _ (fun x c hc => h x c (by simp [hc]))

theorem takeRegs_words (t : Thread) (n v w : Nat) :
    (List.range (natWords w v).length).foldl (fun x i => x.uniformReg (n + i) ((natWords w v).getD i 0) false) t = takeRegs t n v w := by
  have hlen : (natWords w v).length = w := by simp [natWords]
  rw [hlen]
  have hget : ∀ i, i < w → (natWords w v).getD i 0 = BitVec.ofNat 32 (v / 2 ^ (32 * i)) := by
    intro i hi
    simp [natWords, List.getD_eq_getElem?_getD, List.getElem?_map, List.getElem?_range hi]
  have hcongr : (List.range w).foldl (fun x i => x.uniformReg (n + i) ((natWords w v).getD i 0) false) t =
      (List.range w).foldl (fun x i => x.uniformReg (n + i) (BitVec.ofNat 32 (v / 2 ^ (32 * i))) false) t := by
    apply foldl_congr_mem
    intro x i hi
    rw [hget i (List.mem_range.1 hi)]
  rw [hcongr]
  clear hcongr hget hlen
  induction w generalizing t n v with
  | zero => rfl
  | succ w ih =>
    rw [List.range_succ_eq_map, List.foldl_cons, List.foldl_map]
    simp only [takeRegs, Nat.mul_zero, Nat.pow_zero, Nat.div_one, Nat.add_zero]
    rw [← ih]
    congr 1
    funext x i
    rw [show n + Nat.succ i = n + 1 + i by omega, Nat.div_div_eq_div_mul, ← Nat.pow_add]
    congr 4
    omega

theorem threadsBecome_writeLanes (s : State) (gid n v w : Nat) :
    ThreadsBecome s (s.writeLanes gid n (natWords w v) false)
      (fun tid x => if gidOf tid = gid ∧ inM0 s tid = true then heldBack s tid (takeRegs x n v w) else x) := by
  unfold State.writeLanes
  simp only [takeRegs_words]
  refine threadsBecome_congr (threadsBecome_uniWrite _ (liveLanes_nodup s gid) _ s) ?_
  intro tid x _
  rw [mem_liveLanes]
  simp

theorem threadsBecome_writePreds (s : State) (gid p : Nat) (v : Bool) :
    ThreadsBecome s (s.writePreds gid p v false)
      (fun tid x => if gidOf tid = gid ∧ inM0 s tid = true then heldBack s tid (x.uniformPred p v false) else x) := by
  unfold State.writePreds
  refine threadsBecome_congr (threadsBecome_uniWrite _ (liveLanes_nodup s gid) _ s) ?_
  intro tid x _
  rw [mem_liveLanes]
  simp

/-- Nothing but thread records differs. -/
theorem inM0_of_become {s t : State} {f : Nat → Thread → Thread} (h : ThreadsBecome s t f) (tid : Nat) : inM0 t tid = inM0 s tid := by
  rw [h.1]
  rfl

theorem heldBack_of_become {s t : State} {f : Nat → Thread → Thread} (h : ThreadsBecome s t f) (tid : Nat) (x : Thread) :
    heldBack t tid x = heldBack s tid x := by
  rw [h.1]
  rfl

/-- Two predicates written one after the other hold the lane back once. -/
theorem heldBack_pred (s : State) (tid : Nat) (x : Thread) (p : Nat) (v u : Bool) :
    heldBack s tid ((heldBack s tid x).uniformPred p v u) = heldBack s tid (x.uniformPred p v u) := by
  unfold heldBack Thread.uniformPred
  by_cases hc : s.cur.tids.contains tid = true
  · simp only [hc, if_true]
  · by_cases hp : p = 0 <;> simp only [hc, hp, if_true, if_false, Thread.setPred, Bool.false_eq_true, Nat.max_self, Nat.max_assoc]

/-! One group of the set. -/

theorem members_withThreads (s t : State) (f : Nat → Thread → Thread) (h : ThreadsBecome s t f) (gid : Nat)
    (hf : ∀ tid x, gidOf tid = gid → f tid x = x) : t.members.filter (fun k => gidOf k = gid) = ofGroup s gid := by
  unfold ofGroup State.members
  rw [show t.cur = s.cur by rw [h.1]; rfl, List.filter_filter, List.filter_filter]
  apply List.filter_congr
  intro k _
  by_cases hk : gidOf k = gid
  · have hg : spGet t.threads k = spGet s.threads k := by
      rw [h.2]
      cases spGet s.threads k with
      | none => rfl
      | some x => simp [hf k x hk]
    have : t.readyAtPc k s.cur.pc = s.readyAtPc k s.cur.pc := by
      unfold State.readyAtPc
      rw [hg, h.1]
      rfl
    rw [this]
  · simp [hk]

theorem groupsIn_nodup (ts : List Nat) : (groupsIn ts).Nodup := by
  have : ∀ l : List Nat, l.Nodup → (ts.foldl (fun l t => insertNew (gidOf t) l) l).Nodup := by
    induction ts with
    | nil => intro l h; exact h
    | cons t r ih =>
      intro l h
      simp only [List.foldl_cons]
      apply ih
      unfold insertNew
      split
      · exact h
      · rename_i hc
        rw [List.nodup_append]
        refine ⟨h, by simp, ?_⟩
        intro a ha b hb
        simp only [List.mem_singleton] at hb
        subst hb
        intro hab
        subst hab
        exact hc (by simpa using ha)
  exact this [] List.nodup_nil

theorem mem_insertNew {x y : Nat} {l : List Nat} : y ∈ insertNew x l ↔ y = x ∨ y ∈ l := by
  unfold insertNew
  split
  · rename_i h
    simp only [List.contains_iff_mem] at h
    constructor
    · exact Or.inr
    · rintro (rfl | h')
      · exact h
      · exact h'
  · simp [or_comm]

theorem mem_groupsIn {ts : List Nat} {k : Nat} (h : k ∈ ts) : gidOf k ∈ groupsIn ts := by
  have : ∀ (l : List Nat), (k ∈ ts ∨ gidOf k ∈ l) → gidOf k ∈ ts.foldl (fun l t => insertNew (gidOf t) l) l := by
    clear h
    induction ts with
    | nil => intro l h; simpa using h
    | cons t r ih =>
      intro l h
      simp only [List.foldl_cons]
      apply ih
      simp only [List.mem_cons] at h
      rcases h with (rfl | h) | h
      · exact .inr (mem_insertNew.2 (.inl rfl))
      · exact .inl h
      · exact .inr (mem_insertNew.2 (.inr h))
  exact this [] (.inl h)

/-- What one group's leader and lanes come to, when the action after the body writes lanes of mask 0 and passes the members. -/
theorem uniformGroup_eq {α : Type} (s s0 : State) (g : Guard) (us : List Use) (guarded : Bool) (body : LaneM α) (act : State → Led α → State)
    (gid : Nat) (p : UniOp) (f0 : Nat → Thread → Thread) (h0 : ThreadsBecome s0 s f0) (hf0 : ∀ tid x, gidOf tid = gid → f0 tid x = x)
    (hg : p.guard.val = if guarded then g.val else 0) (hnd : (ofGroup s0 gid).Nodup)
    (hra : (s0.laneEnv gid).ra = false) (hst : staticCause (s0.laneEnv gid) us = none)
    (hclear : ∀ t ∈ ofGroup s0 gid, memberClear (s0.thread t) p.guard.val us = true)
    (hlead : ∀ l, leaderOf s0 p.guard gid = some l → queuesReady (s0.thread l) us = true ∧
      ∃ a u, body { s0.laneEnv gid with gunk := false } { th := s0.thread l } = .ok (a, { th := u }) ∧
        ∀ s1 : State, ThreadsBecome s s1 (fun tid x => if tid = l then u else x) →
          ThreadsBecome s1 (act s1 (Led.mk a l (activeOf s0 p.guard gid) (ofGroup s0 gid) gid false false))
            (fun tid x => let x := if gidOf tid = gid ∧ inM0 s0 tid = true then
                (match p.led s0 gid l with | some (xs, _) => heldBack s0 tid (p.receive (s0.thread l) xs x) | none => x) else x
              if (ofGroup s0 gid).contains tid then x.advance s0.cur.len s0.clock else x) ∧ ∃ xs, p.led s0 gid l = some (xs, u)) :
    ThreadsBecome s (s.uniformGroup g us guarded body act gid)
      (fun tid x => if gidOf tid = gid then p.after s0 tid x else x) := by
  have hcur : s.cur = s0.cur := by rw [h0.1]; rfl
  have hclk : s.clock = s0.clock := by rw [h0.1]; rfl
  have henv : s.laneEnv gid = s0.laneEnv gid := by rw [h0.1]; rfl
  have hall : s.members.filter (fun t => gidOf t = gid) = ofGroup s0 gid := members_withThreads s0 s f0 h0 gid hf0
  have hth : ∀ t ∈ ofGroup s0 gid, s.thread t = s0.thread t := by
    intro t ht
    have hgt : gidOf t = gid := by simpa using (List.mem_filter.1 ht).2
    unfold State.thread
    rw [h0.2]
    cases spGet s0.threads t with
    | none => rfl
    | some x => simp [hf0 t x hgt]
  have hts : (ofGroup s0 gid).filter (fun t => memberClear (s.thread t) (if guarded then g.val else 0) us) = ofGroup s0 gid := by
    rw [List.filter_eq_self]
    intro t ht
    rw [hth t ht, ← hg]
    exact hclear t ht
  have hheld : (ofGroup s0 gid).filter (fun t => !(ofGroup s0 gid).contains t) = [] := by
    rw [List.filter_eq_nil_iff]
    intro t ht
    simp [ht]
  have hact : (ofGroup s0 gid).filter (fun t => (s.thread t).pred (if guarded then g.val else 0)) = activeOf s0 p.guard gid := by
    unfold activeOf
    apply List.filter_congr
    intro t ht
    rw [hth t ht, ← hg]
  have hin : ∀ tid, inM0 s tid = inM0 s0 tid := fun tid => inM0_of_become h0 tid
  have hmem : ∀ tid, gidOf tid = gid → (s0.members.contains tid = (ofGroup s0 gid).contains tid) := by
    intro tid ht
    rw [Bool.eq_iff_iff, List.contains_iff_mem, List.contains_iff_mem]
    unfold ofGroup
    rw [List.mem_filter]
    simp [ht]
  have hmem' : ∀ tid, gidOf tid ≠ gid → (ofGroup s0 gid).contains tid = false := by
    intro tid ht
    rw [← Bool.not_eq_true, List.contains_iff_mem]
    intro h
    exact ht (by simpa using (List.mem_filter.1 h).2)
  have hretry : s.retryAll [] = s := rfl
  unfold State.uniformGroup
  simp only [hall, hts, hheld, hretry, henv, hst, hra, Bool.false_and, Bool.and_false, Bool.or_false, Bool.false_eq_true, if_false, hact]
  cases hl : (activeOf s0 p.guard gid).head? with
  | none =>
    dsimp only
    refine threadsBecome_congr (threadsBecome_passAll _ hnd s) ?_
    intro tid x _
    rw [hcur, hclk]
    by_cases ht : gidOf tid = gid
    · rw [if_pos ht]
      unfold UniOp.after
      simp only [ht, leaderOf, hl, hmem tid ht]
    · rw [if_neg ht, hmem' tid ht]
      rfl
  | some l =>
    obtain ⟨hq, a, u, hb, hact'⟩ := hlead l hl
    have hlm : l ∈ ofGroup s0 gid := by
      have := List.mem_of_mem_head? hl
      exact (List.mem_filter.1 this).1
    have hlg : gidOf l = gid := by simpa using (List.mem_filter.1 hlm).2
    dsimp only
    rw [hth l hlm, hq]
    simp only [Bool.not_true, Bool.false_eq_true, if_false]
    have hb' : body { nregs := (s0.laneEnv gid).nregs, binds := (s0.laneEnv gid).binds, fpdef := (s0.laneEnv gid).fpdef }
        { th := s0.thread l } = .ok (a, { th := u }) := by
      rw [← hb]
      simp only [hra]
    simp only [hb']
    have h1 := threadsBecome_modThread s l (fun _ => u)
    obtain ⟨h2, xs, hled⟩ := hact' _ h1
    refine threadsBecome_congr (threadsBecome_trans h1 h2) ?_
    intro tid x _
    by_cases ht : gidOf tid = gid
    · rw [if_pos ht]
      unfold UniOp.after
      simp only [ht, leaderOf, hl, hled, hmem tid ht, true_and]
    · rw [if_neg ht, hmem' tid ht]
      have hne : tid ≠ l := fun h => ht (h ▸ hlg)
      simp [ht, hne]

/-- A uniform instruction over all the groups of its set. -/
theorem uniform_eq {α : Type} (s : State) (g : Guard) (us : List Use) (guarded : Bool) (body : LaneM α) (act : State → Led α → State)
    (p : Nat → UniOp) (hready : UniReady s p) (hg : ∀ gid, (p gid).guard.val = if guarded then g.val else 0)
    (hu : ∀ gid, (p gid).uses = us)
    (hbody : ∀ gid env t xs u, env.ra = false → env.gunk = false → (p gid).reads.all (fun k => t.clear true k) = true →
      readAll env.nregs t (p gid).srcs = some (xs, u) → ∃ a, body env { th := t } = .ok (a, { th := u }) ∧
        ∀ (f0 : Nat → Thread → Thread) (s1 : State) l, (p gid).ok = true → ThreadsBecome s s1 f0 → s.thread l = t →
          leaderOf s (p gid).guard gid = some l → (∀ x, f0 l x = u) →
          (∀ k ∈ ofGroup s gid, k ≠ l → ∀ x, f0 k x = x) → ThreadsBecome s1 (act s1 (Led.mk a l (activeOf s (p gid).guard gid) (ofGroup s gid) gid false false))
            (fun tid x => let x := if gidOf tid = gid ∧ inM0 s tid = true then heldBack s tid ((p gid).receive t xs x) else x
              if (ofGroup s gid).contains tid then x.advance s.cur.len s.clock else x)) :
    Uniform s (s.uniform g us guarded body act) p := by
  obtain ⟨hnd, hall⟩ := hready
  unfold Uniform State.uniform
  have key : ∀ (todo : List Nat) (s1 : State) (f0 : Nat → Thread → Thread), todo.Nodup → (∀ gid ∈ todo, gid ∈ groupsIn s.members) →
      ThreadsBecome s s1 f0 → (∀ tid x, gidOf tid ∈ todo → f0 tid x = x) →
      ThreadsBecome s (todo.foldl (fun s gid => s.uniformGroup g us guarded body act gid) s1)
        (fun tid x => if todo.contains (gidOf tid) then (p (gidOf tid)).after s tid x else f0 tid x) := by
    intro todo
    induction todo with
    | nil =>
      intro s1 f0 _ _ h1 _
      exact threadsBecome_congr h1 (fun tid x _ => by simp)
    | cons gid r ih =>
      intro s1 f0 hn hmem h1 hf0
      obtain ⟨hk, hr⟩ := List.nodup_cons.1 hn
      obtain ⟨hra, hst, hok, hclear, hlead⟩ := hall gid (hmem gid (by simp))
      rw [hu gid] at hst
      simp only [hu gid] at hclear hlead
      simp only [List.foldl_cons]
      have hstep := uniformGroup_eq s1 s g us guarded body act gid (p gid) f0 h1
        (fun tid x h => hf0 tid x (by simp [h])) (hg gid) (hnd.filter _) hra hst hclear ?_
      · refine threadsBecome_congr (ih _ (fun tid x => if gidOf tid = gid then (p gid).after s tid x else f0 tid x) hr
          (fun q hq => hmem q (by simp [hq])) (threadsBecome_congr (threadsBecome_trans h1 hstep) ?_) ?_) ?_
        · intro tid x _
          by_cases h : gidOf tid = gid
          · simp only [h, if_true]
            rw [hf0 tid x (by simp [h])]
          · simp only [h, if_false]
        · intro tid x h
          have hne : gidOf tid ≠ gid := fun h' => hk (h' ▸ h)
          rw [if_neg hne]
          exact hf0 tid x (by simp [h])
        · intro tid x _
          by_cases h : gidOf tid = gid
          · simp [h, hk]
          · simp [h]
      · intro l hl
        obtain ⟨hq, hled⟩ := hlead l hl
        obtain ⟨⟨xs, u⟩, hled⟩ := Option.isSome_iff_exists.1 hled
        have hled' := hled
        unfold UniOp.led at hled'
        split at hled'
        · rename_i hreads
          obtain ⟨a, hb, hact⟩ := hbody gid { s.laneEnv gid with gunk := false } (s.thread l) xs u hra rfl hreads hled'
          refine ⟨hq, a, u, hb, ?_⟩
          intro s2 h2
          refine ⟨?_, xs, hled⟩
          have := hact _ s2 l hok (threadsBecome_trans h1 h2) rfl hl (fun x => if_pos rfl) ?_
          · simp only [hled]
            exact this
          · intro k hk' hne x
            have hgk : gidOf k = gid := by simpa using (List.mem_filter.1 hk').2
            rw [if_neg hne]
            exact hf0 k x (by simp [hgk])
        · simp at hled'
  have h := key (groupsIn s.members) s (fun _ x => x) (groupsIn_nodup _) (fun _ h => h) (threadsBecome_refl s) (fun _ _ _ => rfl)
  refine threadsBecome_congr h ?_
  intro tid x hx
  by_cases hc : (groupsIn s.members).contains (gidOf tid) = true
  · rw [if_pos hc]
  · rw [if_neg hc]
    have hno : ∀ k ∈ s.members, gidOf k ≠ gidOf tid := by
      intro k hk he
      apply hc
      rw [List.contains_iff_mem, ← he]
      exact mem_groupsIn hk
    have hof : ofGroup s (gidOf tid) = [] := by
      unfold ofGroup
      rw [List.filter_eq_nil_iff]
      intro k hk
      simpa using hno k hk
    unfold UniOp.after leaderOf activeOf
    simp only [hof, List.filter_nil, List.head?_nil]
    rw [if_neg]
    rw [List.contains_iff_mem]
    exact fun h => hno tid h rfl

/-! The two results: registers, and predicates. -/

/-- Registers written in the lanes of mask 0, and the members past the instruction. -/
theorem writeLanes_pass (s s1 : State) (f0 : Nat → Thread → Thread) (h0 : ThreadsBecome s s1 f0) (hnd : s.members.Nodup) (gid n v w : Nat) :
    ThreadsBecome s1 ((s1.writeLanes gid n (natWords w v) false).passAll (ofGroup s gid))
      (fun tid x => let x := if gidOf tid = gid ∧ inM0 s tid = true then heldBack s tid (takeRegs x n v w) else x
        if (ofGroup s gid).contains tid then x.advance s.cur.len s.clock else x) := by
  have h1 := threadsBecome_writeLanes s1 gid n v w
  have h2 := threadsBecome_passAll (ofGroup s gid) (hnd.filter _) (s1.writeLanes gid n (natWords w v) false)
  refine threadsBecome_congr (threadsBecome_trans h1 h2) ?_
  intro tid x _
  rw [inM0_of_become h0 tid]
  rw [show (s1.writeLanes gid n (natWords w v) false).cur = s.cur by rw [h1.1, h0.1]; rfl]
  rw [show (s1.writeLanes gid n (natWords w v) false).clock = s.clock by rw [h1.1, h0.1]; rfl]
  rw [heldBack_of_become h0 tid]

theorem writePreds_pass (s s1 : State) (f0 : Nat → Thread → Thread) (h0 : ThreadsBecome s s1 f0) (hnd : s.members.Nodup)
    (gid pt pf : Nat) (c d : Bool) :
    ThreadsBecome s1 (((s1.writePreds gid pt c false).writePreds gid pf d false).passAll (ofGroup s gid))
      (fun tid x => let x := if gidOf tid = gid ∧ inM0 s tid = true then heldBack s tid ((x.uniformPred pt c false).uniformPred pf d false) else x
        if (ofGroup s gid).contains tid then x.advance s.cur.len s.clock else x) := by
  have h1 := threadsBecome_writePreds s1 gid pt c
  have h2 := threadsBecome_writePreds (s1.writePreds gid pt c false) gid pf d
  have h3 := threadsBecome_passAll (ofGroup s gid) (hnd.filter _) ((s1.writePreds gid pt c false).writePreds gid pf d false)
  refine threadsBecome_congr (threadsBecome_trans (threadsBecome_trans h1 h2) h3) ?_
  intro tid x _
  rw [inM0_of_become h1 tid, inM0_of_become h0 tid]
  rw [show ((s1.writePreds gid pt c false).writePreds gid pf d false).cur = s.cur by rw [h2.1, h1.1, h0.1]; rfl]
  rw [show ((s1.writePreds gid pt c false).writePreds gid pf d false).clock = s.clock by rw [h2.1, h1.1, h0.1]; rfl]
  by_cases h : gidOf tid = gid ∧ inM0 s tid = true
  · simp only [h, and_self, if_true, heldBack_of_become h1, heldBack_of_become h0, heldBack_pred]
  · simp only [h, if_false]

/-- A uniform instruction that writes registers. -/
theorem liftUniform_eq (s : State) (g : Guard) (us : List Use) (guarded : Bool) (n : Fin 112) (body : LaneM (List Word)) (p : UniOp)
    (hready : UniReady s (fun _ => p)) (hg : p.guard.val = if guarded then g.val else 0) (hu : p.uses = us) (hn : p.n = n.val)
    (hpr : p.preds = none)
    (hbody : ∀ env t xs u, env.ra = false → env.gunk = false → p.reads.all (fun k => t.clear true k) = true →
      readAll env.nregs t p.srcs = some (xs, u) → body env { th := t } = .ok (natWords p.w (p.f t xs), { th := u })) :
    Uniform s (s.liftUniform g us guarded (.v n) body) (fun _ => p) := by
  refine uniform_eq s g us guarded body _ (fun _ => p) hready (fun _ => hg) (fun _ => hu) ?_
  intro gid env t xs u hra hgu hreads hread
  refine ⟨_, hbody env t xs u hra hgu hreads hread, ?_⟩
  intro f0 s1 l _ h1 _ _ _ _
  have := writeLanes_pass s s1 f0 h1 hready.1 gid n.val (p.f t xs) p.w
  simp only [UniOp.receive, hpr, hn]
  exact this

end Sys2Proof.Machine
end

