-- ==== Sys2Proof/Tests/Slice0.lean ====
section
/-! SUPPORT. Tests: words of the encodings, ill-formed terms, single steps with results taken from the spec's rules and examples, and for
each statement with hypotheses a state and operands that meet them. -/

namespace Sys2Proof.Tests

open Sys2Proof.Machine Sys2Proof.Terms

set_option maxRecDepth 100000
set_option Elab.async false

theorem test_words_integer :
    decode .glb [0x00441030] = .ok (.addB32 1 (.v 8) (.v 16) (.v 24), 1) ∧
    decode .glb [0x00441031] = .ok (.subB32 1 (.v 8) (.v 16) (.v 24), 1) ∧
    decode .glb [0x02441030] = .ok (.addB64 1 (.v 8) (.v 16) (.v 24), 1) ∧
    decode .glb [0x02441031] = .ok (.subB64 1 (.v 8) (.v 16) (.v 24), 1) ∧
    decode .glb [0x04441030] = .ok (.mulB32 1 (.v 8) (.v 16) (.v 24), 1) ∧
    decode .glb [0x04441031] = .ok (.mulhS32 1 (.v 8) (.v 16) (.v 24), 1) ∧
    decode .glb [0x06441030] = .ok (.mulhZ32 1 (.v 8) (.v 16) (.v 24), 1) ∧
    decode .glb [0x06441031] = .ok (.mulxS32 1 (.v 8) (.v 16) (.v 24), 1) ∧
    decode .glb [0x08441030] = .ok (.macB32 1 (.v 8) (.v 16) (.v 24), 1) ∧
    decode .glb [0x08441031] = .ok (.macxS32 1 (.v 8) (.v 16) (.v 24), 1) ∧
    decode .glb [0x0A441030] = .ok (.andB32 1 (.v 8) (.v 16) (.v 24), 1) ∧
    decode .glb [0x0A441031] = .ok (.orB32 1 (.v 8) (.v 16) (.v 24), 1) ∧
    decode .glb [0x0C441030] = .ok (.xorB32 1 (.v 8) (.v 16) (.v 24), 1) ∧
    decode .glb [0x0C441031] = .ok (.andn 1 (.v 8) (.v 16) (.v 24), 1) ∧
    decode .glb [0x0E441030] = .ok (.shl 1 (.v 8) (.v 16) (.v 24), 1) ∧
    decode .glb [0x0E441031] = .ok (.shr 1 (.v 8) (.v 16) (.v 24), 1) ∧
    decode .glb [0x10441030] = .ok (.sar 1 (.v 8) (.v 16) (.v 24), 1) ∧
    decode .glb [0x10441031] = .ok (.rol 1 (.v 8) (.v 16) (.v 24), 1) ∧
    decode .glb [0x12441030] = .ok (.minS32 1 (.v 8) (.v 16) (.v 24), 1) ∧
    decode .glb [0x12441031] = .ok (.maxS32 1 (.v 8) (.v 16) (.v 24), 1) ∧
    decode .glb [0x14441030] = .ok (.minZ32 1 (.v 8) (.v 16) (.v 24), 1) ∧
    decode .glb [0x14441031] = .ok (.maxZ32 1 (.v 8) (.v 16) (.v 24), 1) :=
  ⟨rfl, rfl, rfl, rfl, rfl, rfl, rfl, rfl, rfl, rfl, rfl, rfl, rfl, rfl, rfl, rfl, rfl, rfl, rfl, rfl, rfl, rfl⟩

theorem test_words_compare_select :
    decode .glb [0x16539030] = .ok (.cmpS32 1 2 3 true (.v 16) (.v 24), 1) ∧
    decode .glb [0x16539031] = .ok (.cmpS64 1 2 3 true (.v 16) (.v 24), 1) ∧
    decode .glb [0x18539030] = .ok (.cmpZ32 1 2 3 true (.v 16) (.v 24), 1) ∧
    decode .glb [0x18539031] = .ok (.cmpZ64 1 2 3 true (.v 16) (.v 24), 1) ∧
    decode .glb [0x1A539030] = .ok (.cmpF32 1 2 3 true (.v 16) (.v 24), 1) ∧
    decode .glb [0x1A539031] = .ok (.cmpF64 1 2 3 true (.v 16) (.v 24), 1) ∧
    decode .glb [0x1CC41030] = .ok (.selB32 3 (.v 8) (.v 16) (.v 24), 1) ∧
    decode .glb [0x1CC41031] = .ok (.selB64 3 (.v 8) (.v 16) (.v 24), 1) ∧
    decode .glb [0x1E441006] = .ok (.unopB32 1 (.v 8) (.v 16) .popc, 1) ∧
    decode .glb [0x1E441015] = .ok (.unopB64 1 (.v 8) (.v 16) .sext32, 1) ∧
    decode .glb [0x20441030] = .ok (.bfe 1 (.v 8) (.v 16) (.v 24), 1) ∧
    decode .glb [0x20441031] = .ok (.bfi 1 (.v 8) (.v 16) (.v 24), 1) ∧
    decode .glb [0x22441030] = .ok (.shflIdx 1 (.v 8) (.v 16) (.v 24), 1) ∧
    decode .glb [0x22441031] = .ok (.shflXor 1 (.v 8) (.v 16) (.v 24), 1) ∧
    decode .glb [0x24441030] = .ok (.addrS 1 (.v 8) (.v 16) (.v 24), 1) ∧
    decode .glb [0x24441031] = .ok (.addrZ 1 (.v 8) (.v 16) (.v 24), 1) :=
  ⟨rfl, rfl, rfl, rfl, rfl, rfl, rfl, rfl, rfl, rfl, rfl, rfl, rfl, rfl, rfl, rfl⟩

theorem test_words_immediate_move :
    decode .glb [0x2644109C] = .ok (.addi 1 (.v 8) (.v 16) 0x9C, 1) ∧
    decode .glb [0x2844109C] = .ok (.andi 1 (.v 8) (.v 16) 0x9C, 1) ∧
    decode .glb [0x2A44109C] = .ok (.ori 1 (.v 8) (.v 16) 0x9C, 1) ∧
    decode .glb [0x2C44109C] = .ok (.xori 1 (.v 8) (.v 16) 0x9C, 1) ∧
    decode .glb [0x2E4410A5] = .ok (.shi 1 (.v 8) (.v 16) .sar 37, 1) ∧
    decode .glb [0x30445432] = .ok (.movi 1 (.v 8) 0x5432, 1) ∧
    decode .glb [0x32441000] = .ok (.movB32 1 (.v 8) (.v 16), 1) ∧
    decode .glb [0x32441001] = .ok (.movB64 1 (.v 8) (.v 16), 1) ∧
    decode .glb [0x34441002] = .ok (.cvt none 1 (.v 8) (.v 16) ⟨.f32, .f64, 1⟩, 1) ∧
    decode .glb [0x34441051] = .ok (.cvtSat none 1 (.v 8) (.v 16) ⟨.s16, .f32, 1⟩, 1) :=
  ⟨rfl, rfl, rfl, rfl, rfl, rfl, rfl, rfl, rfl, rfl⟩

theorem test_words_f32 :
    decode .glb [0x36441030] = .ok (.faddF32 none 1 (.v 8) (.v 16) (.v 24), 1) ∧
    decode .glb [0x36441031] = .ok (.fsubF32 none 1 (.v 8) (.v 16) (.v 24), 1) ∧
    decode .glb [0x38441030] = .ok (.fmulF32 none 1 (.v 8) (.v 16) (.v 24), 1) ∧
    decode .glb [0x38441031] = .ok (.fdivF32 none 1 (.v 8) (.v 16) (.v 24), 1) ∧
    decode .glb [0x3A441030] = .ok (.fmaF32 none 1 (.v 8) (.v 16) (.v 24), 1) ∧
    decode .glb [0x3A441031] = .ok (.fmsF32 none 1 (.v 8) (.v 16) (.v 24), 1) ∧
    decode .glb [0x3C441030] = .ok (.fminF32 none 1 (.v 8) (.v 16) (.v 24), 1) ∧
    decode .glb [0x3C441031] = .ok (.fmaxF32 none 1 (.v 8) (.v 16) (.v 24), 1) :=
  ⟨rfl, rfl, rfl, rfl, rfl, rfl, rfl, rfl⟩

theorem test_words_f64 :
    decode .glb [0x3E441030] = .ok (.faddF64 none 1 (.v 8) (.v 16) (.v 24), 1) ∧
    decode .glb [0x3E441031] = .ok (.fsubF64 none 1 (.v 8) (.v 16) (.v 24), 1) ∧
    decode .glb [0x40441030] = .ok (.fmulF64 none 1 (.v 8) (.v 16) (.v 24), 1) ∧
    decode .glb [0x40441031] = .ok (.fdivF64 none 1 (.v 8) (.v 16) (.v 24), 1) ∧
    decode .glb [0x42441030] = .ok (.fmaF64 none 1 (.v 8) (.v 16) (.v 24), 1) ∧
    decode .glb [0x42441031] = .ok (.fmsF64 none 1 (.v 8) (.v 16) (.v 24), 1) ∧
    decode .glb [0x44441030] = .ok (.fminF64 none 1 (.v 8) (.v 16) (.v 24), 1) ∧
    decode .glb [0x44441031] = .ok (.fmaxF64 none 1 (.v 8) (.v 16) (.v 24), 1) ∧
    decode .glb [0x46441000] = .ok (.fsqrtF32 none 1 (.v 8) (.v 16), 1) ∧
    decode .glb [0x46441001] = .ok (.fsqrtF64 none 1 (.v 8) (.v 16), 1) ∧
    decode .glb [0x4844100A] = .ok (.ffnF32 none 1 (.v 8) (.v 16) .cospi, 1) ∧
    decode .glb [0x4844100B] = .ok (.ffnF16 none 1 (.v 8) (.v 16) .cospi, 1) :=
  ⟨rfl, rfl, rfl, rfl, rfl, rfl, rfl, rfl, rfl, rfl, rfl, rfl⟩

theorem test_words_packed_predicate :
    decode .glb [0x4A441030] = .ok (.pfmaF32x2 none 1 (.v 8) (.v 16) (.v 24), 1) ∧
    decode .glb [0x4A441031] = .ok (.pfmaBf16x2 none 1 (.v 8) (.v 16) (.v 24), 1) ∧
    decode .glb [0x4C441030] = .ok (.paddF32x2 none 1 (.v 8) (.v 16) (.v 24), 1) ∧
    decode .glb [0x4C441031] = .ok (.pmulF32x2 none 1 (.v 8) (.v 16) (.v 24), 1) ∧
    decode .glb [0x4E441030] = .ok (.fclass none 1 (.v 8) (.v 16) (.v 24), 1) ∧
    decode .glb [0x4E441031] = .ok (.fscale none 1 (.v 8) (.v 16) (.v 24), 1) ∧
    decode .glb [0x50710308] = .ok (.plog 1 0xC 2 3 4, 1) ∧
    decode .glb [0x504410AB] = .ok (.pmov 1 (.v 8) (.v 16) 0x55, 1) ∧
    decode .glb [0x52431000] = .ok (.xset 1 6 (.v 16), 1) ∧
    decode .glb [0x52440601] = .ok (.xget 1 (.v 8) 6, 1) ∧
    decode .glb [0x54441030] = .ok (.dot4S8 none 1 (.v 8) (.v 16) (.v 24), 1) ∧
    decode .glb [0x54441031] = .ok (.dot2Bf16 none 1 (.v 8) (.v 16) (.v 24), 1) :=
  ⟨rfl, rfl, rfl, rfl, rfl, rfl, rfl, rfl, rfl, rfl, rfl, rfl⟩

theorem test_words_memory :
    decode .glb [0x60544107] = .ok (.ld .none 1 5 (.v 8) (.v 16) .b256, 1) ∧
    decode .glb [0x62544103] = .ok (.st .none 1 5 (.v 8) (.v 16) .z16, 1) ∧
    decode .glb [0x6454410B] = .ok (.atom .none 1 5 (.v 8) (.v 16) .cas64, 1) ∧
    decode .glb [0x6654410F] = .ok (.red .none 1 5 (.v 8) (.v 16) .minZ64, 1) ∧
    decode .glb [0x68544104] = .ok (.xacc .none 1 5 (.v 8) (.v 16) .merge, 1) ∧
    decode .glb [0x6A54410B] = .ok (.xrnd .none 1 5 (.v 8) (.v 16) true .ru, 1) ∧
    decode .glb [0x6C544106] = .ok (.tld 1 5 (.v 8) (.v 16) .b128 true, 1) ∧
    decode .glb [0x6E544106] = .ok (.smp 1 5 (.v 8) (.v 16) .b128 true, 1) ∧
    decode .glb [0x70544101] = .ok (.rtbox 1 5 (.v 8) (.v 16) true false, 1) ∧
    decode .glb [0x72544101] = .ok (.rttri 1 5 (.v 8) (.v 16) true, 1) ∧
    decode .glb [0x74544108] = .ok (.fe .none 1 5 (.v 8) (.v 16) (.test 6), 1) :=
  ⟨rfl, rfl, rfl, rfl, rfl, rfl, rfl, rfl, rfl, rfl, rfl⟩

theorem test_words_uniform :
    decode .glb [0x80441030] = .ok (.gaddB32 1 (.v 8) (.v 16) (.v 24), 1) ∧
    decode .glb [0x80441031] = .ok (.gsubB32 1 (.v 8) (.v 16) (.v 24), 1) ∧
    decode .glb [0x82441030] = .ok (.gaddB64 1 (.v 8) (.v 16) (.v 24), 1) ∧
    decode .glb [0x82441031] = .ok (.gsubB64 1 (.v 8) (.v 16) (.v 24), 1) ∧
    decode .glb [0x84441030] = .ok (.gmulB32 1 (.v 8) (.v 16) (.v 24), 1) ∧
    decode .glb [0x84441031] = .ok (.gmulhS32 1 (.v 8) (.v 16) (.v 24), 1) ∧
    decode .glb [0x86441030] = .ok (.gand 1 (.v 8) (.v 16) (.v 24), 1) ∧
    decode .glb [0x86441031] = .ok (.gor 1 (.v 8) (.v 16) (.v 24), 1) ∧
    decode .glb [0x88441030] = .ok (.gxor 1 (.v 8) (.v 16) (.v 24), 1) ∧
    decode .glb [0x88441031] = .ok (.gandn 1 (.v 8) (.v 16) (.v 24), 1) ∧
    decode .glb [0x8A441030] = .ok (.gshl 1 (.v 8) (.v 16) (.v 24), 1) ∧
    decode .glb [0x8A441031] = .ok (.gshr 1 (.v 8) (.v 16) (.v 24), 1) ∧
    decode .glb [0x8C441030] = .ok (.gminS32 1 (.v 8) (.v 16) (.v 24), 1) ∧
    decode .glb [0x8C441031] = .ok (.gmaxS32 1 (.v 8) (.v 16) (.v 24), 1) ∧
    decode .glb [0x8E539030] = .ok (.gcmpS32 1 2 3 true (.v 16) (.v 24), 1) ∧
    decode .glb [0x8E539031] = .ok (.gcmpZ32 1 2 3 true (.v 16) (.v 24), 1) ∧
    decode .glb [0x9044109C] = .ok (.gaddi 1 (.v 8) (.v 16) 0x9C, 1) ∧
    decode .glb [0x92445432] = .ok (.gmovi 1 (.v 8) 0x5432, 1) ∧
    decode .glb [0x94441000] = .ok (.gmov 1 (.v 8) (.v 16), 1) ∧
    decode .glb [0x94C41031] = .ok (.gsel 3 (.v 8) (.v 16) (.v 24), 1) ∧
    decode .glb [0x96441100] = .ok (.sreg 1 (.v 8) .vtime, 1) ∧
    decode .glb [0x96401931] = .ok (.sregw 1 .seed (.v 24), 1) ∧
    decode .glb [0x98440D00] = .ok (.ctl 1 (.v 8) .restab, 1) ∧
    decode .glb [0x98400A31] = .ok (.ctlw 1 .feedhead (.v 24), 1) :=
  ⟨rfl, rfl, rfl, rfl, rfl, rfl, rfl, rfl, rfl, rfl, rfl, rfl, rfl, rfl, rfl, rfl, rfl, rfl, rfl, rfl, rfl, rfl, rfl, rfl⟩

theorem test_words_control :
    decode .glb [0x9A7FFFFE] = .ok (.bra 1 0x3FFFFE, 1) ∧
    decode .glb [0x9C412345] = .ok (.call 1 0x12345, 1) ∧
    decode .glb [0x9E401000] = .ok (.jmpr 1 (.v 16), 1) ∧
    decode .glb [0x9E400001] = .ok (.ret 1, 1) ∧
    decode .glb [0xA0458000] = .ok (.join 1 11, 1) ∧
    decode .glb [0xA0458001] = .ok (.leave 1 11, 1) ∧
    decode .glb [0xA2458000] = .ok (.waitm 1 11, 1) ∧
    decode .glb [0xA2440B01] = .ok (.mrd 1 (.v 8) 11, 1) ∧
    decode .glb [0xA4459000] = .ok (.mwr 1 11 (.v 16), 1) ∧
    decode .glb [0xA4440309] = .ok (.vote 1 (.v 8) 3 .count, 1) ∧
    decode .glb [0xA644101C] = .ok (.gred 1 (.v 8) (.v 16) .fmax64, 1) ∧
    decode .glb [0xA6441031] = .ok (.gscan 1 (.v 8) (.v 16) true .xor, 1) ∧
    decode .glb [0xA8401030] = .ok (.spawn 1 (.v 16) (.v 24), 1) ∧
    decode .glb [0xA8401031] = .ok (.spawnh 1 (.v 16) (.v 24), 1) ∧
    decode .glb [0xAA400000] = .ok (.exit 1, 1) ∧
    decode .glb [0xAA400001] = .ok (.yield 1, 1) :=
  ⟨rfl, rfl, rfl, rfl, rfl, rfl, rfl, rfl, rfl, rfl, rfl, rfl, rfl, rfl, rfl, rfl⟩

theorem test_words_phaser_queue :
    decode .glb [0xAC411000] = .ok (.phreg 1 .wait (.v 16), 1) ∧
    decode .glb [0xAC419001] = .ok (.phdereg 1 .both (.v 16), 1) ∧
    decode .glb [0xAE544100] = .ok (.phInit 1 5 (.v 8) (.v 16), 1) ∧
    decode .glb [0xAE544101] = .ok (.phArrive 1 5 (.v 8) (.v 16), 1) ∧
    decode .glb [0xAE541902] = .ok (.phArrwait 1 5 3 (.v 16), 1) ∧
    decode .glb [0xAE541903] = .ok (.phWait 1 5 3 (.v 16), 1) ∧
    decode .glb [0xAE541904] = .ok (.phTest 1 5 3 (.v 16), 1) ∧
    decode .glb [0xAE540105] = .ok (.phDrop 1 5 (.v 16), 1) ∧
    decode .glb [0xB07B9000] = .ok (.qbind 1 7 (.v 16), 1) ∧
    decode .glb [0xB07B8001] = .ok (.qfree 1 7, 1) ∧
    decode .glb [0xB24EABCD] = .ok (.waitc 1 .engc 0x2ABCD, 1) ∧
    decode .glb [0xB4440000] = .ok (.seal 1 (.v 8), 1) ∧
    decode .glb [0xB4440001] = .ok (.bquery 1 (.v 8), 1) ∧
    decode .glb [0xB6401030] = .ok (.cflush none 1 (.v 16) (.v 24), 1) ∧
    decode .glb [0xB6401031] = .ok (.cinval none 1 (.v 16) (.v 24), 1) :=
  ⟨rfl, rfl, rfl, rfl, rfl, rfl, rfl, rfl, rfl, rfl, rfl, rfl, rfl, rfl, rfl⟩

theorem test_words_engine :
    decode .glb [0xB8544100] = .ok (.mmaMma 1 5 (.v 8) (.v 16), 1) ∧
    decode .glb [0xB857B901] = .ok (.mmaMmar 1 5 7 (.v 16), 1) ∧
    decode .glb [0xB8544102] = .ok (.mmaMpair 1 5 (.v 8) (.v 16), 1) ∧
    decode .glb [0xB8540103] = .ok (.mmaMload 1 5 (.v 16), 1) ∧
    decode .glb [0xB8540104] = .ok (.mmaMclear 1 5 (.v 16), 1) ∧
    decode .glb [0xB8540105] = .ok (.mmaMrow 1 5 (.v 16), 1) ∧
    decode .glb [0xBA544100] = .ok (.tmplInst 1 5 (.v 8) (.v 16), 1) ∧
    decode .glb [0xBA544101] = .ok (.tmplValid 1 5 (.v 8) (.v 16), 1) ∧
    decode .glb [0xBA544002] = .ok (.tmplDrop 1 5 (.v 8), 1) ∧
    decode .glb [0xBC400000] = .ok (.rosin 1, 1) ∧
    decode .glb [0xBC400001] = .ok (.rosout 1, 1) ∧
    decode .glb [0xBE544100] = .ok (.rastTri 1 5 (.v 8) (.v 16), 1) ∧
    decode .glb [0xC0544100] = .ok (.foutTile 1 5 (.v 8) (.v 16), 1) ∧
    decode .glb [0xC0544101] = .ok (.foutEnd 1 5 (.v 8) (.v 16), 1) ∧
    decode .glb [0xC2544100] = .ok (.resmapSet 1 5 (.v 8) (.v 16), 1) ∧
    decode .glb [0xC2544101] = .ok (.resmapClear 1 5 (.v 8) (.v 16), 1) ∧
    decode .glb [0xC2540002] = .ok (.resmapDrain 1 5, 1) :=
  ⟨rfl, rfl, rfl, rfl, rfl, rfl, rfl, rfl, rfl, rfl, rfl, rfl, rfl, rfl, rfl, rfl, rfl⟩

theorem test_words_system :
    decode .glb [0xC4401000] = .ok (.trap 1 (.v 16), 1) ∧
    decode .glb [0xC4401001] = .ok (.brk 1 (.v 16), 1) ∧
    decode .glb [0xC6400000] = .ok (.rte 1, 1) ∧
    decode .glb [0xC8400000] = .ok (.migpt 1, 1) ∧
    decode .glb [0xC8400001] = .ok (.nop 1, 1) ∧
    decode .glb [0xCC400000] = .ok (.bar 1, 1) ∧
    decode .glb [0xCC400001] = .ok (.clbar 1, 1) :=
  ⟨rfl, rfl, rfl, rfl, rfl, rfl, rfl⟩

theorem test_words_modifier_and_literals :
    decode .glb [0x7E2C89FF, 0x60544104] =
      .ok (.ld (.mem .acq .partition .spad .dflt .peek false 0x1FF) 1 5 (.v 8) (.v 16) .b32, 2) ∧
    decode .glb [0x7F7FFFF0, 0x62544104] = .ok (.st (.off 0x7FFFF0) 1 5 (.v 8) (.v 16) .b32, 2) ∧
    decode .glb [0x7EBFFC00, 0x3A441030, 0x3F800000] =
      .ok (.fmaF32 (some ⟨.ru, true, true, some (.lit 0x3F800000)⟩) 1 (.v 8) (.v 16) (.v 24), 3) ∧
    decode .glb [0x024410FF, 0x11, 0x22] = .ok (.subB64 1 (.v 8) (.v 16) (.lit2 0x11 0x22), 3) ∧
    decode .glb [0x004473F4] = .ok (.addB32 1 (.v 8) (.q 3) (.x 2), 1) ∧
    decode .glb [0x7E0C0000, 0xB6401030] = .ok (.cflush (some (.partition, .glb)) 1 (.v 16) (.v 24), 2) :=
  ⟨rfl, rfl, rfl, rfl, rfl, rfl⟩

theorem test_words_refused :
    decode .glb [0x76000000] = .error ⟨.reservedMajor, 0x76000000⟩ ∧
    decode .glb [0xC6000001] = .error ⟨.reservedMinor, 0xC6000001⟩ ∧
    decode .glb [0x32441002] = .error ⟨.nonzeroUnused, 0x32441002⟩ ∧
    decode .glb [0x1E441016] = .error ⟨.unassignedCode, 0x1E441016⟩ ∧
    decode .glb [0x7E140000, 0x60544104] = .error ⟨.reservedField, 0x7E140000⟩ ∧
    decode .glb [0x7F800000, 0x60544104] = .error ⟨.reservedKind, 0x7F800000⟩ ∧
    decode .glb [0x7E800000, 0x7E800000] = .error ⟨.doubleModifier, 0x7E800000⟩ ∧
    decode .glb [0x7E800000, 0x00441030] = .error ⟨.modifierNotAllowed, 0x7E800000⟩ ∧
    decode .glb [0x00447FFE, 1, 2] = .error ⟨.twoLiterals, 0x00447FFE⟩ ∧
    decode .glb [0x02449030] = .error ⟨.badOperand, 0x02449030⟩ ∧
    decode .glb [0x004410FE] = .error ⟨.missingWord, 0x004410FE⟩ :=
  ⟨rfl, rfl, rfl, rfl, rfl, rfl, rfl, rfl, rfl, rfl, rfl⟩
/-! Well-formedness. Each refused term fails the one check that its comment names; beside most of them stands a term that passes it. -/

theorem test_wf_operands :
    (∀ i ∈ ([.addB64 0 (.v 8) (.v 16) (.lit2 1 2), .macB32 0 (.v 8) (.q 1) (.lit 5), .gaddB32 0 (.v 8) (.q 1) (.lit 5),
      .tld 0 0 (.q 3) (.v 16) .b32 false, .cmpS32 0 0 0 true (.v 1) (.v 2)] : List Instr), i.wf .glb = true) ∧
    ∀ i ∈ ([
      .addB64 0 (.v 9) (.v 16) (.v 24),                        -- dstOk: a pair at an odd register
      .addB32 0 (.lit 5) (.v 16) (.v 24),                      -- dstOk: a literal destination
      .cvt none 0 (.v 8) (.q 1) ⟨.e2m1, .f32, 8⟩,              -- srcOk: a queue register in an octet position
      .addB32 0 (.v 8) (.lit2 1 2) (.v 24),                    -- srcOk: a literal of the wrong length
      .macB32 0 (.q 1) (.v 16) (.v 24),                        -- accOk: a queue register that is read and written
      .rtbox 0 0 (.q 1) (.v 16) false false,                   -- directOk: a queue register
      .gaddB32 0 (.x 1) (.v 16) (.v 24),                       -- gdstOk: an indexed destination
      .jmpr 0 (.q 1),                                          -- gsrcOk: a queue register
      .gaddB32 0 (.v 8) (.x 1) (.v 24),                        -- gqOk: an indexed source
      .addB32 0 (.v 8) (.lit 1) (.lit 2),                      -- oneLit
      .tld 0 0 (.q 3) (.v 16) .b64 false,                      -- a queue register in the place of a quad
      .cmpS32 0 3 3 true (.v 1) (.v 2)                         -- both predicates the same
      ] : List Instr), i.wf .glb = false := by decide

theorem test_wf_codes :
    (∀ i ∈ ([.cvt (some ⟨.rs, false, false, none⟩) 0 (.v 8) (.v 16) ⟨.f16, .f32, 1⟩, .unopB64 0 (.v 8) (.v 16) .sext32,
      .dot4S8 (some ⟨.dflt, true, false, some (.v 3)⟩) 0 (.q 1) (.v 16) (.v 24), .ld .none 0 0 (.v 8) (.v 16) .b32,
      .atom .none 0 0 (.v 8) (.v 16) .cas64] : List Instr), i.wf .glb = true) ∧
    ∀ i ∈ ([
      .faddF32 (some ⟨.rs, false, false, none⟩) 0 (.v 8) (.v 16) (.v 24),          -- apfxArith: stochastic rounding
      .faddF32 (some ⟨.rne, false, false, some (.v 3)⟩) 0 (.v 8) (.v 16) (.v 24),  -- apfxArith: a fourth operand
      .fmaF64 (some ⟨.rne, false, false, some (.v 3)⟩) 0 (.v 8) (.v 16) (.v 24),   -- apfxFma: an odd fourth operand
      .fmaF32 none 0 (.q 1) (.v 16) (.v 24),                                        -- fmaDstOk: D is the addend
      .fclass (some ⟨.rne, false, false, none⟩) 0 (.v 8) (.v 16) (.v 24),          -- apfxClass
      .dot4S8 (some ⟨.dflt, false, true, none⟩) 0 (.v 8) (.v 16) (.v 24),          -- apfxDot4
      .cvt (some ⟨.rs, false, false, none⟩) 0 (.v 8) (.v 16) ⟨.f32, .f16, 1⟩,      -- apfxCvt
      .cvt none 0 (.v 8) (.v 16) ⟨.f16, .f16, 1⟩,                                  -- cvtAssigned
      .unopB32 0 (.v 8) (.v 16) .sext32,                                            -- no such function on 32 bits
      .ld .none 0 0 (.v 8) (.v 17) .b32,                                            -- memAOk: a global address is a pair
      .xacc .none 0 0 (.v 2) (.v 16) .clrF64,                                       -- D unused
      .red .none 0 0 (.v 8) (.v 16) .cas32,                                         -- no compare in red
      .plog 0 0xC 0 1 2,                                                            -- destination predicate 0
      .join 0 0, .leave 0 0, .waitm 0 0, .mwr 0 0 (.v 1),                           -- m0 is not written
      .phTest 0 0 0 (.v 16)                                                         -- destination predicate 0
      ] : List Instr), i.wf .glb = false := by decide

/-! Small states. Team 1 of 32 threads stands on core 0 of slice 0, which runs; its first thread is `t0`, its group 65536. -/

def t0 : Nat := 2097152

/-- The page at 0x4000_0000, readable and writable, as a core holds it. -/
def dataPage : TlbEnt := { ctx := 0, base := 0x40000000, size := 65536, leaf := 0x400307, leafAddr := 0x210000 }

/-- One thread of the group at an instruction of one word. -/
def box : State :=
  let s := State.reset.withFetchWord 32 0
  { (s.modCore 0 (fun c => { c with tlb := c.tlb ++ [dataPage] })) with
    agenda := []
    clock := 9
    nextId := 7
    cur := { team := 1, pc := 0, len := 1, word := 0x55, tids := [t0] }
    teams := [(1, { cluster := 1, grid := 1, core := 0, nregs := 64, nextGroup := 1, sizes := { spad := 4096, abuf := 4096 } })] }

/-- Registers of thread `t0`. -/
def withRegs (s : State) (l : List (Nat × Word)) : State := s.modThread t0 (fun t => { t with regs := l })

/-- The whole group at the instruction. -/
def whole (s : State) : State := { s with cur := { s.cur with tids := (List.range 32).map (tidOf 65536) } }

/-- Registers of every thread. -/
def allRegs (s : State) (l : List (Nat × Word)) : State :=
  { s with threads := s.threads.map (fun e => (e.1, { e.2 with regs := l })) }

/-- The state an outcome gives. -/
def nextOf (o : Host.Outcome State Fault Refusal) : State :=
  match o with
  | .next t => t
  | _ => State.reset

/-! Checks that can be evaluated, and what they show. -/

def laneReadyB (s : State) (p : Nat → LaneOp) : Bool :=
  decide s.members.Nodup && s.members.all (fun tid =>
    !(s.laneEnv (gidOf tid)).ra && decide (staticCause (s.laneEnv (gidOf tid)) (p tid).uses = none) &&
    (decide ((p tid).guard.val = 0) || (s.thread tid).clear true (p tid).guard.val) &&
    (!(s.thread tid).pred (p tid).guard.val || queuesReady (s.thread tid) (p tid).uses &&
      match (p tid).run (s.laneEnv (gidOf tid)).nregs (s.laneEnv (gidOf tid)).fpdef (s.thread tid) with
      | some (_, t) => noPush (s.laneEnv (gidOf tid)).binds t
      | none => false))

theorem laneReady_of_check {s : State} {p : Nat → LaneOp} (h : laneReadyB s p = true) : LaneReady s p := by
  simp only [laneReadyB, Bool.and_eq_true, List.all_eq_true, decide_eq_true_eq] at h
  refine ⟨h.1, fun tid hm => ?_⟩
  obtain ⟨⟨⟨h1, h2⟩, h3⟩, h4⟩ := h.2 tid hm
  refine ⟨by simpa using h1, h2, fun hg => ?_, fun hp => ?_⟩
  · simpa [hg] using h3
  · simp only [hp, Bool.not_true, Bool.false_or, Bool.and_eq_true] at h4
    refine ⟨h4.1, ?_⟩
    revert h4
    cases (p tid).run (s.laneEnv (gidOf tid)).nregs (s.laneEnv (gidOf tid)).fpdef (s.thread tid) with
    | none => simp
    | some e => intro h4; exact ⟨e.1, e.2, rfl, h4.2⟩

def uniReadyB (s : State) (p : Nat → UniOp) : Bool :=
  decide s.members.Nodup && (groupsIn s.members).all (fun gid =>
    !(s.laneEnv gid).ra && decide (staticCause (s.laneEnv gid) (p gid).uses = none) && (p gid).ok &&
    (ofGroup s gid).all (fun t => memberClear (s.thread t) (p gid).guard.val (p gid).uses) &&
    match leaderOf s (p gid).guard gid with
    | some l => queuesReady (s.thread l) (p gid).uses && ((p gid).led s gid l).isSome
    | none => true)

theorem uniReady_of_check {s : State} {p : Nat → UniOp} (h : uniReadyB s p = true) : UniReady s p := by
  simp only [uniReadyB, Bool.and_eq_true, List.all_eq_true, decide_eq_true_eq] at h
  refine ⟨h.1, fun gid hm => ?_⟩
  obtain ⟨⟨⟨⟨h1, h2⟩, h3⟩, h4⟩, h5⟩ := h.2 gid hm
  refine ⟨by simpa using h1, h2, h3, h4, fun l hl => ?_⟩
  simpa [hl] using h5

/-! Lane instructions. -/

/-- Register `n` of thread `t0` after an instruction of it alone. -/
def regAfter (s : State) (i : Instr) (n : Nat) : Nat := (((nextOf (exec i s)).thread t0).reg n).toNat

def lanes : State :=
  withRegs box [(8, 5), (10, 0xFFFFFFFF), (11, 2), (12, 0x80000000), (14, 0x3F800000), (15, 0x40000000), (16, 0x7FC00000), (17, 0xBF800000)]

theorem test_integer_results :
    regAfter lanes (.addB32 0 (.v 8) (.v 10) (.v 11)) 8 = 1 ∧                 -- 2^32 - 1 + 2
    regAfter lanes (.subB32 0 (.v 8) (.v 11) (.v 10)) 8 = 3 ∧
    regAfter lanes (.mulhS32 0 (.v 8) (.v 10) (.v 11)) 8 = 0xFFFFFFFF ∧       -- -1 * 2 = -2
    regAfter lanes (.mulhZ32 0 (.v 8) (.v 10) (.v 11)) 8 = 1 ∧
    regAfter lanes (.macB32 0 (.v 8) (.v 11) (.lit 3)) 8 = 11 ∧               -- D is the addend
    regAfter lanes (.minS32 0 (.v 8) (.v 10) (.v 11)) 8 = 0xFFFFFFFF ∧
    regAfter lanes (.minZ32 0 (.v 8) (.v 10) (.v 11)) 8 = 2 ∧
    regAfter lanes (.andn 0 (.v 8) (.v 10) (.v 11)) 8 = 0xFFFFFFFD := by decide +kernel

theorem test_shift_results :
    regAfter lanes (.shl 0 (.v 8) (.v 11) (.lit 32)) 8 = 0 ∧
    regAfter lanes (.sar 0 (.v 8) (.v 12) (.lit 40)) 8 = 0xFFFFFFFF ∧
    regAfter lanes (.rol 0 (.v 8) (.v 12) (.lit 33)) 8 = 1 ∧
    regAfter lanes (.shi 0 (.v 8) (.v 10) .shr 31) 8 = 1 ∧
    regAfter lanes (.bfe 0 (.v 8) (.v 12) (.lit 0x1041C)) 8 = 0xFFFFFFF8 ∧    -- 4 bits from bit 28, signed
    regAfter lanes (.bfi 0 (.v 8) (.v 11) (.lit 0x0204)) 8 = 0x25 ∧           -- 2 bits at bit 4
    regAfter lanes (.unopB32 0 (.v 8) (.v 12) .abs) 8 = 0x80000000 ∧
    regAfter lanes (.unopB32 0 (.v 8) (.v 11) .clz) 8 = 30 ∧
    regAfter lanes (.movi 0 (.v 8) 0x7FFF) 8 = 0xFFFFFFFF := by decide +kernel

theorem test_float_results :
    regAfter lanes (.faddF32 none 0 (.v 8) (.v 14) (.v 15)) 8 = 0x40400000 ∧                  -- 1 + 2
    regAfter lanes (.fdivF32 none 0 (.v 8) (.v 14) (.lit 0)) 8 = 0x7F800000 ∧                 -- 1 / 0
    regAfter lanes (.fdivF32 (some ⟨.ru, false, false, none⟩) 0 (.v 8) (.v 14) (.lit 0x40400000)) 8 = 0x3EAAAAAB ∧
    regAfter lanes (.fdivF32 (some ⟨.rz, false, false, none⟩) 0 (.v 8) (.v 14) (.lit 0x40400000)) 8 = 0x3EAAAAAA ∧
    regAfter lanes (.fminF32 none 0 (.v 8) (.v 16) (.v 15)) 8 = 0x40000000 ∧                  -- a NaN loses
    regAfter lanes (.fsqrtF32 none 0 (.v 8) (.v 17)) 8 = 0x7FC00000 ∧                         -- of -1
    regAfter lanes (.fmaF32 (some ⟨.dflt, false, false, some (.v 17)⟩) 0 (.v 8) (.v 15) (.v 15)) 8 = 0x40400000 ∧  -- 4 - 1
    regAfter lanes (.cvt none 0 (.v 8) (.lit 0x3FC00000) ⟨.s32, .f32, 1⟩) 8 = 2 ∧             -- 1.5 to even
    regAfter lanes (.dot4S8 none 0 (.v 8) (.lit 0x0102FF80) (.v 10)) 8 = 131 := by decide +kernel

theorem test_predicate_results :
    ((nextOf (exec (.cmpS32 0 1 2 true (.v 10) (.v 11)) lanes)).thread t0).preds.toNat = 2 ∧
    ((nextOf (exec (.cmpZ32 0 1 2 true (.v 10) (.v 11)) lanes)).thread t0).preds.toNat = 4 ∧
    ((nextOf (exec (.cmpF32 0 1 2 false (.v 16) (.v 16)) lanes)).thread t0).preds.toNat = 4 ∧
    regAfter lanes (.selB32 3 (.v 8) (.v 10) (.v 11)) 8 = 2 ∧
    ((nextOf (exec (.xset 0 2 (.lit 0x3E02)) lanes)).thread t0).x 2 = 0x3E02 ∧     -- 62 registers from v2: up to v63
    ((nextOf (exec (.xset 0 2 (.lit 0x3F02)) lanes)).thread t0).x 2 = 0 := by decide +kernel

theorem test_meets_integer_arithmetic :
    (∃ p, arithOp (.macxS32 0 (.v 8) (.v 10) (.lit 7)) = some p ∧ LaneReady lanes (fun _ => p)) ∧
    (∃ p, arithOp (.addrZ 0 (.x 1) (.lit2 1 2) (.v 11)) = some p ∧ LaneReady lanes (fun _ => p)) :=
  ⟨⟨_, rfl, laneReady_of_check (by decide +kernel)⟩, ⟨_, rfl, laneReady_of_check (by decide +kernel)⟩⟩

theorem test_meets_shifts_bits_moves :
    (∃ p, shiftOp (.bfi 0 (.v 8) (.v 10) (.lit 0x2000)) = some p ∧ LaneReady (whole lanes) (fun _ => p)) ∧
    (∃ p, shiftOp (.unopB64 1 (.v 8) (.v 10) .sext32) = some p ∧ LaneReady lanes (fun _ => p)) :=
  ⟨⟨_, rfl, laneReady_of_check (by decide +kernel)⟩, ⟨_, rfl, laneReady_of_check (by decide +kernel)⟩⟩

theorem test_meets_compare_select_predicates :
    (∃ p, predOp (.cmpF64 0 1 7 true (.v 10) (.v 12)) = some p ∧ LaneReady lanes (fun _ => p)) ∧
    (∃ p, predOp (.selB64 7 (.v 8) (.v 10) (.v 12)) = some p ∧ LaneReady lanes (fun _ => p)) :=
  ⟨⟨_, rfl, laneReady_of_check (by decide +kernel)⟩, ⟨_, rfl, laneReady_of_check (by decide +kernel)⟩⟩

theorem test_meets_float_arithmetic :
    ∃ p, floatOp (.fscale (some ⟨.rna, true, true, none⟩) 0 (.v 8) (.v 14) (.v 11)) = some p ∧ LaneReady lanes (fun _ => p) :=
  ⟨_, rfl, laneReady_of_check (by decide +kernel)⟩

theorem test_meets_fused_packed_dot :
    (∃ p, fusedOp (.fmaF64 (some ⟨.dflt, false, false, some (.v 16)⟩) 0 (.v 8) (.v 10) (.v 12)) = some p ∧ LaneReady lanes (fun _ => p)) ∧
    (∃ p, fusedOp (.dot2Bf16 none 0 (.v 8) (.v 10) (.v 12)) = some p ∧ LaneReady lanes (fun _ => p)) :=
  ⟨⟨_, rfl, laneReady_of_check (by decide +kernel)⟩, ⟨_, rfl, laneReady_of_check (by decide +kernel)⟩⟩

theorem test_meets_convert_special_index :
    (∃ p, convOp (.cvt (some ⟨.rs, false, false, none⟩) 0 (.v 8) (.v 14) ⟨.bf16, .f32, 1⟩) = some p ∧ LaneReady lanes (fun _ => p)) ∧
    (∃ p, convOp (.ffnF32 none 0 (.v 8) (.v 14) .exp2) = some p ∧ LaneReady lanes (fun _ => p)) ∧
    (∃ p, convOp (.xset 0 6 (.lit 0x013F)) = some p ∧ LaneReady lanes (fun _ => p)) :=
  ⟨⟨_, rfl, laneReady_of_check (by decide +kernel)⟩, ⟨_, rfl, laneReady_of_check (by decide +kernel)⟩,
   ⟨_, rfl, laneReady_of_check (by decide +kernel)⟩⟩

theorem test_meets_control_transfer :
    (∃ p, jumpOp lanes.cur.pc (.call 0 0x3FFFFF) = some p ∧ LaneReady lanes (fun _ => p)) ∧
    (∃ p, jumpOp lanes.cur.pc (.jmpr 0 (.lit 5)) = some p ∧ LaneReady lanes (fun _ => p)) :=
  ⟨⟨_, rfl, laneReady_of_check (by decide +kernel)⟩, ⟨_, rfl, laneReady_of_check (by decide +kernel)⟩⟩

/-- Thread `t0` alone, at PC 7. -/
def at7 : State := { box.modThread t0 (fun t => { t with pc := 7 }) with cur := { box.cur with pc := 7 } }

theorem test_control_transfer_results :
    ((nextOf (exec (.bra 0 0x3FFFFE) at7)).thread t0).pc = 6 ∧
    ((nextOf (exec (.call 0 3) at7)).thread t0).pc = 11 ∧
    ((nextOf (exec (.call 0 3) at7)).thread t0).link = 8 := by decide +kernel

theorem test_meets_special_registers_and_counters :
    (∃ p, spOp lanes (.sreg 0 (.v 8) .time) = some p ∧ LaneReady lanes p) ∧
    (∃ p, spOp lanes (.sregw 0 .seed (.v 10)) = some p ∧ LaneReady lanes p) ∧
    (∃ p, batchOp (.seal 0 (.v 8)) = some p ∧ LaneReady lanes (fun _ => p)) ∧
    (∃ p, batchOp (.waitc 0 .ldc 0) = some p ∧ LaneReady lanes (fun _ => p) ∧
      (∀ g val, Instr.waitc 0 .ldc 0 ≠ .waitc g .batc val ∧ Instr.waitc 0 .ldc 0 ≠ .waitc g .engc val)) ∧
    (∃ p, batchOp (.waitc 0 .batc 0) = some p ∧ LaneReady lanes (fun _ => p)) :=
  ⟨⟨_, rfl, laneReady_of_check (by decide +kernel)⟩, ⟨_, rfl, laneReady_of_check (by decide +kernel)⟩,
   ⟨_, rfl, laneReady_of_check (by decide +kernel)⟩, ⟨_, rfl, laneReady_of_check (by decide +kernel), by simp⟩,
   ⟨_, rfl, laneReady_of_check (by decide +kernel)⟩⟩

theorem test_meets_lane_exchange :
    (∃ p, shflOp (whole lanes) (.shflIdx 0 (.v 8) (.v 10) (.lit 31)) = some p ∧ LaneReady (whole lanes) p) ∧
    (∃ p, shflOp (whole lanes) (.shflXor 0 (.v 8) (.v 10) (.lit 1)) = some p ∧ LaneReady (whole lanes) p) :=
  ⟨⟨_, rfl, laneReady_of_check (by decide +kernel)⟩, ⟨_, rfl, laneReady_of_check (by decide +kernel)⟩⟩

/-- Lane 5 holds its number, the other lanes nothing. -/
def lane5 : State := whole (box.modThread (t0 + 5) (fun t => { t with regs := [(10, 77)] }))

theorem test_lane_exchange_results :
    (((nextOf (exec (.shflIdx 0 (.v 8) (.v 10) (.lit 37)) lane5)).thread (t0 + 2)).reg 8).toNat = 77 ∧
    (((nextOf (exec (.shflXor 0 (.v 8) (.v 10) (.lit 1)) lane5)).thread (t0 + 4)).reg 8).toNat = 77 := by decide +kernel

/-! Uniform instructions. -/

theorem test_meets_uniform_arithmetic :
    (∃ p, uniOp (.gsubB64 0 (.v 8) (.v 10) (.lit2 1 2)) = some p ∧ UniReady (whole lanes) (fun _ => p)) ∧
    (∃ p, uniRead (whole lanes) (.ctl 0 (.v 8) .restab) = some p ∧ UniReady (whole lanes) p ∧
      (∀ g d, Instr.ctl 0 (.v 8) .restab ≠ .ctl g d .feedhead)) ∧
    (∃ p, uniRead (whole lanes) (.ctl 0 (.v 8) .feedhead) = some p ∧ UniReady (whole lanes) p) ∧
    (∃ p, uniRead (whole lanes) (.gred 0 (.v 8) (.v 10) .fadd64) = some p ∧ UniReady (whole lanes) p) :=
  ⟨⟨_, rfl, uniReady_of_check (by decide +kernel)⟩, ⟨_, rfl, uniReady_of_check (by decide +kernel), by simp⟩,
   ⟨_, rfl, uniReady_of_check (by decide +kernel)⟩, ⟨_, rfl, uniReady_of_check (by decide +kernel)⟩⟩

/-- Each lane holds its number. -/
def numbered : State := whole ((List.range 32).foldl (fun (s : State) i => s.modThread (tidOf 65536 i) (fun t => { t with regs := [(10, BitVec.ofNat 32 i)] })) box)

theorem test_uniform_results :
    (((nextOf (exec (.gred 0 (.v 8) (.v 10) .add32) numbered)).thread (t0 + 9)).reg 8).toNat = 496 ∧
    (((nextOf (exec (.gscan 0 (.v 8) (.v 10) true .add32) numbered)).thread (t0 + 9)).reg 8).toNat = 36 ∧
    (((nextOf (exec (.gscan 0 (.v 8) (.v 10) false .maxz) numbered)).thread (t0 + 9)).reg 8).toNat = 9 ∧
    (((nextOf (exec (.gaddB32 0 (.v 8) (.v 10) (.lit 5)) numbered)).thread (t0 + 9)).reg 8).toNat = 5 := by decide +kernel

/-! Masks, joint waits, traps and returns. -/

theorem test_meets_masks_and_joint_releases :
    Plain (whole box) 0 ∧ Unparked box 65536 ∧ (∀ e ∈ box.threadsOfTeam 1, Unparked box (gidOf e.1)) ∧
    (∀ e ∈ box.threadsOfCluster 1, Unparked box (gidOf e.1)) := by
  refine ⟨laneReady_of_check (by decide +kernel), ?_⟩
  unfold Unparked
  decide +kernel

/-- Thread `t0` is set in mask 3 alone; all threads but it are at an exit. -/
def masked : State := box.modGroup 65536 (fun g => g.setMask 3 1)

theorem test_mask_results :
    (((nextOf (exec (.join 0 3) (whole box))).group 65536).mask 3).toNat = 0xFFFFFFFF ∧
    (((nextOf (exec (.leave 0 3) masked)).group 65536).mask 3).toNat = 0 ∧
    ((nextOf (exec (.waitm 0 3) masked)).settleAllMasks.thread t0).wait = .none ∧        -- the only thread set in the mask
    ((nextOf (exec (.waitm 0 3) (masked.modGroup 65536 (fun g => g.setMask 3 3)))).thread t0).wait = .mask 3 ∧
    ((nextOf (exec (.bar 0) box)).thread t0).wait = .bar ∧
    ((nextOf (exec (.bar 0) (whole box))).thread t0).wait = .none := by decide +kernel

theorem test_meets_barriers_yield_migpt :
    Plain (whole box) 0 ∧ ((spGet box.threads t0).isSome = true ∧ Unparked box (gidOf t0)) := by
  refine ⟨laneReady_of_check (by decide +kernel), ?_⟩
  unfold Unparked
  decide +kernel

/-- The context has a handler at word 0x20. -/
def handled : State := box.modCtx 0 (fun c => { c with ctl := { c.ctl with trapbase := 0x20 } })

/-- The same in handler mode, to return to word 5. -/
def handling : State := handled.modThread t0 (fun t => { t with handler := true, trappc := 5, trapcode := 14 })

theorem test_meets_software_traps_and_return :
    (LaneReady handled (fun _ => softOp 0 (.lit 9)) ∧ ∀ tid ∈ actives handled 0, HandlerAt handled tid 0x20) ∧
    (Plain handling 0 ∧ ∀ tid ∈ actives handling 0, (handling.thread tid).handler = true) ∧
    (Plain handled 0 ∧ ∀ tid ∈ handled.members, (handled.thread tid).pred (0 : Guard).val = true ∧ HandlerAt handled tid 0x20) := by
  refine ⟨⟨laneReady_of_check (by decide +kernel), ?_⟩, ⟨laneReady_of_check (by decide +kernel), ?_⟩, laneReady_of_check (by decide +kernel), ?_⟩ <;>
    (try unfold HandlerAt) <;> decide +kernel

theorem test_trap_results :
    ((nextOf (exec (.trap 0 (.lit 9)) handled)).thread t0).pc = 0x20 ∧
    ((nextOf (exec (.trap 0 (.lit 9)) handled)).thread t0).trapcode = 0x0E ∧
    ((nextOf (exec (.trap 0 (.lit 9)) handled)).thread t0).trapaux = 9 ∧
    ((nextOf (exec (.trap 0 (.lit 9)) handled)).thread t0).trappc = 1 ∧
    ((nextOf (exec (.rte 0) handling)).thread t0).pc = 5 ∧
    ((nextOf (exec (.rte 0) handling)).thread t0).trapcode = 0 ∧
    ((nextOf (exec (.rte 0) handled)).thread t0).trapcode = 1 ∧
    ((nextOf (exec (.brk 0 (.lit 9)) box)).settleTriggers.ctx 0).term = some 0x0F := by decide +kernel

/-- A load fault of an earlier instruction is due in thread `t0`. -/
def due : Deferred := { cause := { code := 6, aux := 1, addr := 0x40 }, pc := 3 }
def deferring : State := handled.modThread t0 (fun t => { t with deferred := [due] })

theorem test_meets_raised_traps :
    (handled.members.Nodup ∧ ∀ tid ∈ handled.members, HandlerAt handled tid 0x20) ∧
    (HandlerAt deferring t0 0x20 ∧ (deferring.thread t0).deferred = due :: []) := by
  unfold HandlerAt
  decide +kernel

theorem test_meets_votes :
    ((whole box).threads.map (·.1)).Nodup ∧ WholeGroup (whole box) 65536 0 [dst (.v 8)] ∧
    ∀ tid ∈ (whole box).members, ((whole box).thread tid).clear true (7 : Guard).val = true := by
  unfold WholeGroup
  decide +kernel

/-- Lanes 0 and 3 hold predicate 1. -/
def voters : State := whole ((box.modThread t0 (fun t => { t with preds := 2 })).modThread (t0 + 3) (fun t => { t with preds := 2 }))

theorem test_vote_results :
    (((nextOf (exec (.vote 0 (.v 8) 1 .mask) voters)).thread (t0 + 9)).reg 8).toNat = 9 ∧
    (((nextOf (exec (.vote 0 (.v 8) 1 .count) voters)).thread (t0 + 9)).reg 8).toNat = 2 ∧
    (((nextOf (exec (.vote 0 (.v 8) 2 .first) voters)).thread (t0 + 9)).reg 8).toNat = 32 ∧
    (((nextOf (exec (.vote 0 (.v 8) 2 .same) voters)).thread (t0 + 9)).reg 8).toNat = 1 := by decide +kernel

/-- Thread `t0` as the last of its team; and with an entered ticket. -/
def lone : State := { handled with threads := [(t0, {})] }
def ticketed : State :=
  (handled.modThread t0 (fun t => { t with ticket := some 4 })).modSlice 0 (fun v => { v with tickets := [⟨4, 0x40, 0, some t0, 1, 0⟩] })

theorem test_meets_exits :
    (spRising none box.threads = true ∧ spRising none box.groups = true ∧ spRising none box.teams = true ∧ Alone box t0 0 [] ∧
      (box.thread t0).ldc = 0 ∧ (box.thread t0).stc = 0 ∧ (box.thread t0).batc = 0 ∧ (box.thread t0).engc = 0 ∧ (box.thread t0).openCopies = [] ∧
      (box.thread t0).look = [] ∧
      (box.thread t0).ticket = none ∧ (box.team 1).mig = none ∧ (∀ e ∈ box.threadsOfCluster (box.team 1).cluster, e.2.wait.counted = false) ∧
      (∃ o ∈ box.threadsOfGroup (gidOf t0), o.1 ≠ t0) ∧ (spGet box.groups (gidOf t0)).map (·.team) = some 1) ∧
    (spRising none lone.threads = true ∧ spRising none lone.groups = true ∧ spRising none lone.teams = true ∧ Alone lone t0 0 [] ∧
      (lone.thread t0).ldc = 0 ∧ (lone.thread t0).stc = 0 ∧ (lone.thread t0).batc = 0 ∧ (lone.thread t0).engc = 0 ∧
      (lone.thread t0).openCopies = [] ∧ (lone.thread t0).look = [] ∧ (lone.thread t0).ticket = none ∧ (∀ o ∈ lone.threadsOfGroup (gidOf t0), o.1 = t0) ∧
      (∀ o ∈ lone.threadsOfTeam 1, o.1 = t0) ∧ (∀ e ∈ lone.groupsOf 1, e.1 = gidOf t0) ∧ (lone.team 1).carried = [] ∧
      (lone.core (lone.team 1).core).bins.any (fun b => b.team = 1) = false ∧ (spGet lone.teams 1).isSome = true) ∧
    (spRising none ticketed.threads = true ∧ spRising none ticketed.groups = true ∧ spRising none ticketed.teams = true ∧ Alone ticketed t0 0 [] ∧
      (ticketed.thread t0).ldc = 0 ∧ (ticketed.thread t0).stc = 0 ∧ (ticketed.thread t0).batc = 0 ∧ (ticketed.thread t0).engc = 0 ∧
      (ticketed.thread t0).openCopies = [] ∧ (ticketed.thread t0).look = [] ∧ (ticketed.thread t0).ticket = some 4 ∧
      ticketed.ticketState t0 = 1 ∧ ticketed.releaseAt (ticketed.whoT t0) .partition = some ticketed ∧ HandlerAt ticketed t0 0x20) := by
  unfold Alone HandlerAt
  refine ⟨?_, ?_, ?_⟩ <;> decide +kernel

theorem test_exit_results :
    spGet (nextOf (exec (.exit 0) box)).threads t0 = none ∧
    ((nextOf (exec (.exit 0) box)).group 65536).mask 0 = 0xFFFFFFFE ∧
    (nextOf (exec (.exit 0) lone)).teams = [] ∧
    ((nextOf (exec (.exit 0) ticketed)).thread t0).trapcode = 0x0C := by decide +kernel

/-! Group and control-register writes. -/

/-- Queue 3 of the group is a private queue; queue 4 leads to copy channel 5. -/
def bound : State := (whole box).modGroup 65536 (fun g => { g with binds := [(3, ⟨0, 0⟩), (4, ⟨1, 5⟩)] })

theorem test_meets_group_and_control_writes :
    UniReady (whole lanes) (fun _ => { guard := 0, uses := [src (.v 10)], srcs := [(.v 10, 1)] }) ∧
    (UniReady bound (fun _ => { guard := 0, uses := [src (.lit 0x41)], srcs := [(.lit 0x41, 1)] }) ∧ (∀ q, Operand.lit 0x41 ≠ .q q) ∧
      (∀ gid l xs u, leaderOf bound 0 gid = some l →
        UniOp.led { guard := 0, uses := [src (.lit 0x41)], srcs := [(.lit 0x41, 1)] } bound gid l = some (xs, u) →
        portBad (BitVec.ofNat 32 (xs.headD 0)) = false) ∧
      (∀ gid ∈ groupsIn bound.members, spGet (bound.group gid).binds 7 = none ∨ bound.queueUsed gid 7 = false)) ∧
    (UniReady bound (fun _ => { guard := 0, uses := [] }) ∧
      (∀ gid ∈ groupsIn bound.members, spGet (bound.group gid).binds 3 = some ⟨0, 0⟩ ∧ bound.queueUsed gid 3 = false) ∧
      (∀ gid ∈ groupsIn bound.members, spGet (bound.group gid).binds 4 = some ⟨1, 5⟩ ∧ bound.untaken gid 4 = false)) := by
  refine ⟨uniReady_of_check (by decide +kernel), ⟨uniReady_of_check (by decide +kernel), by simp, ?_, by decide +kernel⟩,
    uniReady_of_check (by decide +kernel), by decide +kernel, by decide +kernel⟩
  intro gid l xs u _ h
  simp only [UniOp.led, List.all_nil, if_true, readAll, readSrc] at h
  simp only [Option.some.injEq, Prod.mk.injEq, show (1 : Nat) ≤ 2 from by decide, if_true] at h
  obtain ⟨rfl, -⟩ := h
  decide

theorem test_meets_control_register_writes :
    (ctlProgram .fpdef = true ∧ (∀ t ∈ (whole lanes).members, gidOf t = 65536) ∧
      UniReady (whole lanes) (fun _ => { guard := 0, uses := [src (.v 10)], srcs := [(.v 10, ctlWords .fpdef)] }) ∧
      leaderOf (whole lanes) 0 65536 = some t0 ∧
      UniOp.led { guard := 0, uses := [src (.v 10)], srcs := [(.v 10, ctlWords .fpdef)] } (whole lanes) 65536 t0 =
        some ([0xFFFFFFFF], (whole lanes).thread t0) ∧
      ((whole lanes).team (teamOf 65536)).ctx = 0 ∧ (spGet (whole lanes).ctxs 0).isSome = true ∧ (spGet (whole lanes).clusters 1).isSome = true) ∧
    (ctlProgram .pairwait = false ∧ handled.members.Nodup ∧
      (∀ tid ∈ handled.members, staticCause (handled.laneEnv (gidOf tid)) [src (.v 10)] = none ∧ HandlerAt handled tid 0x20)) := by
  refine ⟨⟨rfl, by decide +kernel, uniReady_of_check (by decide +kernel), ?_⟩, ?_⟩
  · decide +kernel
  · unfold HandlerAt
    decide +kernel

/-- A write of FPDEF that the group waits for. -/
def fpdefWrite : CtlWrite := { id := 7, reg := .fpdef, old := 1, gid := some 65536, useOld := false }
def written : State :=
  let s := box.modCtx 0 (fun c => { c with ctl := { c.ctl with fpdef := 2 }, writes := [fpdefWrite] })
  { s with threads := s.threads.map (fun e => (e.1, { e.2 with wait := .ctlw })) }

theorem test_meets_control_write_completed :
    written.ctxs.find? (fun e => e.2.writes.any (fun w => w.id = 7)) = some (0, written.ctx 0) ∧ spGet written.ctxs 0 = some (written.ctx 0) ∧
    (written.ctx 0).writes.filter (fun w => w.id = 7) = [fpdefWrite] ∧ fpdefWrite.gid = some 65536 ∧ Unparked written 65536 ∧
    ((nextOf (exec (.ctlwComplete 7) written)).thread t0).wait = .none := by
  unfold Unparked
  decide +kernel

/-! Memory instructions. -/

theorem ok_of_check {ε α : Type} [DecidableEq α] {e : Except ε α} {x : α}
    (h : (match e with | .ok y => decide (y = x) | .error _ => false) = true) : e = .ok x := by
  cases e <;> simp_all

theorem landing_reg {s : State} {tid : Nat} {t : Thread} {n : Fin 112} {w : Nat} (h : free t n.val w = true) :
    landing s tid t (.v n) w = some (fun _ => .regs n.val w, t) := by simp [landing, h]

/-- A memory prefix with an order, a scope and a space. -/
def pfx (o : MemOrd) (sc : Scope) (sp : Space) (fe : Fe := .none) : MPfx := .mem o sc sp .dflt fe false 0

/-- A global address in v10, an offset in v12, data in v20 to v22, a count in v22. -/
def mem1 : State := withRegs box [(10, 0x40000040), (12, 0x100), (20, 0xAABBCCDD), (21, 0x11), (22, 0x40)]

/-- A full word at offset 0x100 of SPAD, with a load that waited and has been served. -/
def served : FeWait := { id := 3, tid := t0, sp := 1, off := 0x100, n := 4, consume := true, got := some 77 }
def mem2 : State := teamSet mem1 1 (fun x => { x with feq := [served] })

def glbFields (s : State) : MAcc := fieldsOf s t0 (pfx .acq .system .glb) 4
def locFields (s : State) : MAcc := fieldsOf s t0 (pfx .rlx .group .spad) 4
def feFields (s : State) : MAcc := fieldsOf s t0 (pfx .rlx .group .spad .consume) 4

theorem test_meets_loads :
    (Alone mem1 t0 0 [src (.v 10), dst (.v 3)] ∧ memStatic .ld (glbFields mem1) (.v 10) mem1.cur.word = none ∧
      settled (mem1.thread t0) (glbFields mem1) ∧ laneRead mem1 t0 (.v 10) (addrWidth (glbFields mem1).space) = some (0x40000040, mem1.thread t0) ∧
      placeAt mem1 t0 (glbFields mem1) 0x40000040 4 4 = .ok (.glb 0x40000040) ∧
      landing mem1 t0 (mem1.thread t0) (.v 3) 1 = some (fun _ => .regs 3 1, mem1.thread t0) ∧ noChannel mem1 t0 (mem1.thread t0) ∧
      (glbFields mem1).promo = false ∧ mem1.xlate t0 0x40000040 .read = .hit 0x400040 dataPage) ∧
    (Alone mem1 t0 0 [src (.v 12), dst (.v 3)] ∧ memStatic .ld (locFields mem1) (.v 12) mem1.cur.word = none ∧
      settled (mem1.thread t0) (locFields mem1) ∧ laneRead mem1 t0 (.v 12) (addrWidth (locFields mem1).space) = some (0x100, mem1.thread t0) ∧
      placeAt mem1 t0 (locFields mem1) 0x100 4 4 = .ok (.loc 1 1 0x100) ∧
      landing mem1 t0 (mem1.thread t0) (.v 3) 1 = some (fun _ => .regs 3 1, mem1.thread t0) ∧ noChannel mem1 t0 (mem1.thread t0) ∧
      (locFields mem1).promo = false ∧ (locFields mem1).fe = .none) ∧
    (Alone mem2 t0 0 [src (.v 12), dst (.v 3)] ∧ memStatic .ld (feFields mem2) (.v 12) mem2.cur.word = none ∧
      settled (mem2.thread t0) (feFields mem2) ∧ placeAt mem2 t0 (feFields mem2) 0x100 4 4 = .ok (.loc 1 1 0x100) ∧
      (feFields mem2).promo = false ∧ (feFields mem2).fe ≠ .none ∧ (spGet mem2.teams 1).isSome = true ∧
      (mem2.team 1).feq.find? (fun e => e.tid = t0 && e.got.isSome) = some served ∧ served.got = some 77 ∧ (mem2.team 1).poisonedAt 1 0x100 4 = false) ∧
    (Alone mem1 t0 0 [src (.v 12), dst (.v 3)] ∧ memStatic .ld (feFields mem1) (.v 12) mem1.cur.word = none ∧
      settled (mem1.thread t0) (feFields mem1) ∧ placeAt mem1 t0 (feFields mem1) 0x100 4 4 = .ok (.loc 1 1 0x100) ∧
      (feFields mem1).promo = false ∧ (feFields mem1).fe ≠ .none ∧ (spGet mem1.teams 1).isSome = true ∧ (mem1.team 1).feq = [] ∧
      NoneBefore mem1 t0) := by
  have land : landing mem1 t0 (mem1.thread t0) (.v 3) 1 = some (fun _ => .regs 3 1, mem1.thread t0) := landing_reg (by decide +kernel)
  unfold Alone settled noChannel NoneBefore
  refine ⟨⟨?_, ?_, ?_, ?_, ok_of_check (by decide +kernel), land, ?_⟩, ⟨?_, ?_, ?_, ?_, ok_of_check (by decide +kernel), land, ?_⟩,
    ⟨?_, ?_, ?_, ok_of_check (by decide +kernel), ?_⟩, ⟨?_, ?_, ?_, ok_of_check (by decide +kernel), ?_⟩⟩ <;> decide +kernel

theorem rlx_releases {s : State} {tid : Nat} {m : MAcc} (h : m.releases = false) : releaseDone s tid m = some s := by simp [releaseDone, h]

/-- The stored bytes end where the first range of the launch's footprint ends. -/
def footed : State := mem1.setGrid 1 { mem1.grid 1 with lrec := { (mem1.grid 1).lrec with foot0 := (0x40000000, 0x44) } }

def stFields (s : State) : MAcc := fieldsOf s t0 (pfx .rlx .group .glb) 4
def relFields (s : State) : MAcc := fieldsOf s t0 (pfx .rel .partition .spad) 4

theorem test_meets_stores :
    (∀ s ∈ [footed, mem1], Alone s t0 0 [src (.v 10), src (.v 20)] ∧ memStatic .st (stFields s) (.v 10) s.cur.word = none ∧
      settled (s.thread t0) (stFields s) ∧
      readAll (s.laneEnv (gidOf t0)).nregs (s.thread t0) [(.v 10, addrWidth (stFields s).space), (.v 20, 1)] =
        some ([0x40000040, 0xAABBCCDD], s.thread t0) ∧
      noChannel s t0 (s.thread t0) ∧ s.xlate t0 0x40000040 .write = .hit 0x400040 dataPage ∧ (stFields s).releases = false) ∧
    placeAt footed t0 (stFields footed) 0x40000040 4 4 = .ok (.glb 0x40000040) ∧
    placeAt mem1 t0 (stFields mem1) 0x40000040 4 4 = .ok (.glb 0x40000040) ∧
    inFootprint (touched footed t0 dataPage) t0 0x40000040 4 ∧ ¬ inFootprint (touched footed t0 dataPage) t0 0x40000041 4 ∧
    ¬ inFootprint (touched mem1 t0 dataPage) t0 0x40000040 4 ∧
    (Alone mem1 t0 0 [src (.v 12), src (.v 20)] ∧ memStatic .st (relFields mem1) (.v 12) mem1.cur.word = none ∧
      settled (mem1.thread t0) (relFields mem1) ∧
      readAll (mem1.laneEnv (gidOf t0)).nregs (mem1.thread t0) [(.v 12, addrWidth (relFields mem1).space), (.v 20, 1)] =
        some ([0x100, 0xAABBCCDD], mem1.thread t0) ∧
      (releaseDone mem1 t0 (relFields mem1)).isSome = true) ∧
    placeAt mem1 t0 (relFields mem1) 0x100 4 4 = .ok (.loc 1 1 0x100) := by
  have foot : ((touched footed t0 dataPage).grid ((touched footed t0 dataPage).teamOfT t0).grid).lrec.foot0 = (0x40000000, 0x44) ∧
      ((touched footed t0 dataPage).grid ((touched footed t0 dataPage).teamOfT t0).grid).lrec.foot1.2 = 0 := by decide +kernel
  have bare : ((touched mem1 t0 dataPage).grid ((touched mem1 t0 dataPage).teamOfT t0).grid).lrec.foot0.2 = 0 ∧
      ((touched mem1 t0 dataPage).grid ((touched mem1 t0 dataPage).teamOfT t0).grid).lrec.foot1.2 = 0 := by decide +kernel
  unfold Alone settled noChannel
  refine ⟨by decide +kernel, ok_of_check (by decide +kernel), ok_of_check (by decide +kernel), ?_, ?_, ?_, by decide +kernel,
    ok_of_check (by decide +kernel)⟩
  · intro a h1 h2
    simp only [foot.1]
    omega
  · intro h
    have := h 0x40000044 (by decide) (by decide)
    simp only [foot.1, foot.2] at this
    omega
  · intro h
    have := h 0x40000040 (by decide) (by decide)
    simp only [bare.1, bare.2] at this
    omega

/-- The fields of an atomic on 64 bits. -/
def atFields (s : State) : MAcc := fieldsOf s t0 (pfx .acq .system .glb) 8
def promoFields (s : State) : MAcc := fieldsOf s t0 (.mem .acq .partition .glb .dflt .none true 0) 8
def redFields (s : State) : MAcc := fieldsOf s t0 (pfx .rlx .group .glb) 8
def atLocal (s : State) : MAcc := fieldsOf s t0 (pfx .rlx .team .spad) 4

theorem test_meets_atomics :
    (laneRead mem1 t0 (.v 10) (addrWidth (atFields mem1).space) = some (0x40000040, mem1.thread t0) ∧ settled (mem1.thread t0) (atFields mem1) ∧
      (atFields mem1).promo = false ∧ (promoFields mem1).promo = true ∧ Alone mem1 t0 0 [src (.v 10), both (.v 20)] ∧ memStatic .atom (atFields mem1) (.v 10) mem1.cur.word = none ∧
      operandAt mem1 t0 (mem1.thread t0) (.v 20) (operandRegs .add64) = some (.reg 20, 0x11AABBCCDD, mem1.thread t0) ∧
      noChannel mem1 t0 (mem1.thread t0) ∧ mem1.xlate t0 0x40000040 .both = .hit 0x400040 dataPage ∧ (atFields mem1).releases = false ∧
      mem1.peerError 0x400040 = false ∧ mem1.laneClear t0 [(0x400040, dataPage)] = true ∧ NoneBefore mem1 t0 ∧
      ((outside (touched mem1 t0 dataPage) t0).rmwGlb (mem1.whoT t0) .add64 1 0x11AABBCCDD 0x400040 0 0 true).1 = some 0) ∧
    placeAt mem1 t0 (atFields mem1) 0x40000040 8 8 = .ok (.glb 0x40000040) ∧
    (laneRead mem1 t0 (.v 12) (addrWidth (atLocal mem1).space) = some (0x100, mem1.thread t0) ∧ settled (mem1.thread t0) (atLocal mem1) ∧
      (atLocal mem1).promo = false ∧ Alone mem1 t0 0 [src (.v 12), both (.v 20)] ∧ memStatic .atom (atLocal mem1) (.v 12) mem1.cur.word = none ∧
      operandAt mem1 t0 (mem1.thread t0) (.v 20) (operandRegs .cas32) = some (.reg 20, 0x11AABBCCDD, mem1.thread t0) ∧
      (atLocal mem1).releases = false ∧ mem1.laneClear t0 [] = true ∧ NoneBefore mem1 t0 ∧ (spGet mem1.teams 1).isSome = true ∧
      (mem1.team 1).poisonedAt 1 0x100 4 = false) ∧
    placeAt mem1 t0 (atLocal mem1) 0x100 4 4 = .ok (.loc 1 1 0x100) ∧
    (settled (mem1.thread t0) (redFields mem1) ∧ (redFields mem1).promo = false ∧ Alone mem1 t0 0 [src (.v 10), src (.v 20)] ∧
      memStatic .red (redFields mem1) (.v 10) mem1.cur.word = none ∧
      readSrc (mem1.laneEnv (gidOf t0)).nregs (mem1.thread t0) (.v 20) (operandRegs .maxZ64) = some (0x11AABBCCDD, mem1.thread t0) ∧
      mem1.xlate t0 0x40000040 .write = .hit 0x400040 dataPage ∧ (redFields mem1).releases = false ∧
      ((outside (touched mem1 t0 dataPage) t0).rmwGlb (mem1.whoT t0) .maxZ64 1 0x11AABBCCDD 0x400040 0 0 false).1 = some 0) ∧
    placeAt mem1 t0 (redFields mem1) 0x40000040 8 8 = .ok (.glb 0x40000040) ∧
    (Alone mem1 t0 0 [src (.v 12), src (.v 20)] ∧ memStatic .red (atLocal mem1) (.v 12) mem1.cur.word = none ∧
      readSrc (mem1.laneEnv (gidOf t0)).nregs (mem1.thread t0) (.v 20) (operandRegs .exch) = some (0xAABBCCDD, mem1.thread t0)) := by
  unfold Alone settled noChannel NoneBefore
  refine ⟨?_, ok_of_check (by decide +kernel), ?_, ok_of_check (by decide +kernel), ?_, ok_of_check (by decide +kernel), ?_⟩ <;> decide +kernel

theorem test_meets_atomic_and_exact_values :
    isHostPa 0x400040 = false ∧ (0 : Nat) ≠ 2 ∧
    ((mem1.recallLine (mem1.whoT t0).first (0x400040 / 64)).homeRead (mem1.whoT t0).first (0x400040 / 64) (mem1.whoT t0).ctx 0 true 0).1.poison &&&
      sectorsOf (byteMask (0x400040 % 64) 8) = 0 ∧
    ((5 : Nat) < 2 ^ 48 ∧ (2 ^ 2176 - 1 : Nat) < 2 ^ acc64.bodyBits) ∧ (0 < 2 ∧ 2 ∣ 3 * 2 ^ acc64.wexp) := by
  decide +kernel

/-- An accumulator that nothing has been added to. -/
def acc0 : Acc := ⟨false, false, false, false, 0, 0⟩

/-- 1.5 twice is 3; 1 and -3 are -2; +inf and -inf set both flags. -/
theorem test_exact_results :
    acc64.rnd (acc64.add (acc64.add acc0 (.fin false 3 2)) (.fin false 3 2)) f64 .rne = 0x4008000000000000 ∧
    acc32.rnd (acc32.add (acc32.add acc0 (.fin false 1 1)) (.fin true 3 1)) f32 .rne = 0xC0000000 ∧
    (acc64.add (acc64.add acc0 (.inf false)) (.inf true)).pinf = true := by decide +kernel

/-! Accumulators, full/empty bits, cache ranges. -/

theorem some_of_check {α : Type} {o : Option α} (h : o.isSome = true) : ∃ x, o = some x := by
  cases o with
  | none => simp at h
  | some x => exact ⟨x, rfl⟩

/-- A cleared f64 accumulator at 0x4000_0040. -/
def accBox : State := mem1.homePut 0 0 0 0x400040 8 0x100 false
def accFields (s : State) : MAcc := fieldsOf s t0 (pfx .rlx .partition .glb) 64
def accHits : List Hit := [(0x400040, dataPage)]
def accTouched : State := touchedAll accBox t0 accHits

theorem test_meets_accumulators :
    (Alone accBox t0 0 (xaccUses .addF64 (.v 20) (.v 10)) ∧ memStatic .xacc (accFields accBox) (.v 10) accBox.cur.word = none ∧
      settled (accBox.thread t0) (accFields accBox) ∧
      readAll (accBox.laneEnv (gidOf t0)).nregs (accBox.thread t0) (accSrcs .addF64 (accFields accBox).space (.v 20) (.v 10)) =
        some ([0x40000040, 0x11AABBCCDD], accBox.thread t0) ∧
      noChannel accBox t0 (accBox.thread t0) ∧ Mapped accBox t0 (accBox.xaccPages t0 .addF64 (some (0x40000040, 0x11AABBCCDD))) accHits ∧
      accBox.laneClear t0 accHits = true ∧ (accFields accBox).releases = false ∧ NoneBefore accBox t0) ∧
    (∀ fn ∈ [XaccFn.clrF64, .clrF32, .addF64, .subF64, .addF32, .subF32, .merge],
      ∃ r, accNew (outside accTouched t0) (accTouched.whoT t0) fn 0x40000040 (if fn = .merge then 0x40000040 else 0x11AABBCCDD) accHits = some r) ∧
    placeAt accBox t0 (accFields accBox) 0x40000040 64 64 = .ok (.glb 0x40000040) ∧
    (Alone accBox t0 0 [src (.v 10), dst (.v 30)] ∧ memStatic .xrnd (accFields accBox) (.v 10) accBox.cur.word = none ∧
      laneRead accBox t0 (.v 10) (addrWidth (accFields accBox).space) = some (0x40000040, accBox.thread t0) ∧
      Mapped accBox t0 (objPages 0x40000040 (xaccSize .merge (accBox.kindAt t0 0x40000040 .read)) .read) accHits) ∧
    (∃ r, accAt accTouched (accTouched.whoT t0) .merge accHits 0x40000040 false = some r) ∧
    landing accBox t0 (accBox.thread t0) (.v 30) 2 = some (fun _ => .regs 30 2, accBox.thread t0) := by
  unfold Alone settled noChannel NoneBefore Mapped
  refine ⟨by decide +kernel, fun fn _ => some_of_check ?_, ok_of_check (by decide +kernel), by decide +kernel, some_of_check (by decide +kernel),
    landing_reg (by decide +kernel)⟩
  cases fn <;> decide +kernel

/-- 64 bytes of SPAD from offset 0x100 on, its granules full. -/
def feBox : State := teamSet mem1 1 (fun x => x.setFull 1 0x100 0x40)
def feAcc (s : State) : MAcc := fieldsOf s t0 (pfx .rlx .team .spad) 16

theorem test_meets_full_empty :
    (readAll (feBox.laneEnv (gidOf t0)).nregs (feBox.thread t0) [(.v 12, 1), (.v 22, 1)] = some ([0x100, 0x40], feBox.thread t0) ∧
      0x40 % 16 = 0 ∧ settled (feBox.thread t0) (feAcc feBox) ∧ noChannel feBox t0 (feBox.thread t0) ∧ Alone feBox t0 0 [src (.v 12), src (.v 22)] ∧
      (feAcc feBox).releases = false ∧ NoneBefore feBox t0 ∧ (spGet feBox.teams 1).isSome = true ∧
      memStatic .feSet (feAcc feBox) (.v 12) feBox.cur.word = none ∧ (feBox.team 1).feq = [] ∧
      memStatic .feTest (feAcc feBox) (.v 12) feBox.cur.word = none ∧ (feBox.thread t0).clear true 7 = true) ∧
    placeAt feBox t0 (feAcc feBox) 0x100 16 0x40 = .ok (.loc 1 1 0x100) := by
  unfold Alone settled noChannel NoneBefore
  refine ⟨?_, ok_of_check (by decide +kernel)⟩
  decide +kernel

/-- The whole group; the range is at 0x4000_0040, 256 bytes long. -/
def ranged : State := whole mem1
def rangeUni : UniOp := { guard := 0, uses := [src (.v 10), src (.v 12)], srcs := [(.v 10, 2), (.v 12, 1)] }

theorem test_meets_cache_ranges :
    ((∀ t ∈ ranged.members, gidOf t = 65536) ∧ UniReady ranged (fun _ => rangeUni) ∧
      isGlb (ranged.rangeFields 65536 (some (.system, .glb))).2 = true ∧ leaderOf ranged 0 65536 = some t0 ∧
      rangeUni.led ranged 65536 t0 = some ([0x40000040, 0x100], ranged.thread t0) ∧ (∀ t ∈ activeOf ranged 0 65536,
        (ranged.thread t).acqPending = [] ∧ (ranged.thread t).stc < 262143) ∧
      ¬ ((ranged.rangeFields 65536 (some (.system, .glb))).2 = .cnst ∧ wideScope (ranged.rangeFields 65536 (some (.system, .glb))).1 = true)) ∧
    wideScope .cluster = false := by
  refine ⟨⟨?_, uniReady_of_check (by decide +kernel), ?_⟩, by decide⟩ <;> decide +kernel

/-- A dirty line of team 1 in the L1 of core 0 and in the cluster cache of slice 0. -/
def dirtyLine : Line := { data := 5, dirty := 1, writers := [1] }
def dirtyBox : State := (box.modCore 0 (fun c => { c with l1 := [(65537, dirtyLine)] })).modSlice 0 (fun v => { v with cc := [(65538, dirtyLine)] })

theorem test_write_back_moves_dirty_bytes :
    (spGet ((dirtyBox.flushCores [0] (some 1) (fun _ => true)).core 0).l1 65537).map (·.dirty) = some 0 ∧
    (spGet ((dirtyBox.flushCores [0] (some 1) (fun _ => true)).slice (coreSlice 0)).cc 65538).map (·.dirty) = some 0 ∧
    (spGet (dirtyBox.core 0).l1 65537).map (·.dirty) = some 1 := by decide +kernel

/-! Phasers and spawns. -/

/-- A phaser in phase 7 with nsig, nwait, arrived and kind. -/
def phaserOf (nsig nwait arr kind : Nat) : Nat := 7 + nsig * 2 ^ 32 + nwait * 2 ^ 48 + arr * 2 ^ 64 + 2 ^ 128 + kind * 2 ^ 130

/-- A thread that waits at the phaser at offset 0x200 of team 1's SPAD. -/
def atPhaser : State := box.modThread t0 (fun t => { t with wait := .phaser (.spad 1 0x200) 7 2 })

theorem test_meets_phaser_objects :
    (phaserOf 65535 1 65534 2 < 2 ^ 256 ∧ (phFields (phaserOf 65535 1 65534 2)).nsig ≠ 0 ∧
      (phFields (phaserOf 65535 1 65534 2)).arrived + 1 = (phFields (phaserOf 65535 1 65534 2)).nsig ∧
      0 ≤ ((phFields (phaserOf 65535 1 65534 2)).nsig : Int) + (phFields (phaserOf 65535 1 65534 2)).dsig ∧
      ((phFields (phaserOf 65535 1 65534 2)).nsig : Int) + (phFields (phaserOf 65535 1 65534 2)).dsig ≤ 65535 ∧
      0 ≤ ((phFields (phaserOf 65535 1 65534 2)).nwait : Int) + (phFields (phaserOf 65535 1 65534 2)).dwait ∧
      ((phFields (phaserOf 65535 1 65534 2)).nwait : Int) + (phFields (phaserOf 65535 1 65534 2)).dwait ≤ 65535) ∧
    (phFields (phaserOf 2 1 0 0)).arrived + 1 < (phFields (phaserOf 2 1 0 0)).nsig ∧
    (phFields (phaserOf 0 1 0 0)).nsig = 0 ∧ (phFields (phaserOf 2 1 2 0)).arrived = (phFields (phaserOf 2 1 2 0)).nsig ∧
    ([t0].Nodup ∧ ∀ t ∈ [t0], Unparked atPhaser (gidOf t) ∧ (atPhaser.thread t).wait = .phaser (.spad 1 0x200) 7 2) := by
  unfold Unparked
  decide +kernel

theorem test_phaser_results :
    phRegister (phaserOf 0 0 0 0) .sig 1 = some (phaserOf 1 0 0 0) ∧                  -- no phase is under way: at once
    (phRegister (phaserOf 2 0 1 0) .sig 1).map (fun w => (phFields w).dsig) = some 1 ∧ -- else with the next phase
    phRegister (phaserOf 0 0 0 0) .wait (-1) = none ∧
    phArrival (phaserOf 1 3 0 0) = some (phaserOf 1 3 0 0 + 1, true) ∧
    phArrival (phaserOf 2 3 0 0) = some (phaserOf 2 3 1 0, false) := by decide +kernel

/-- The handle of the phaser in v10; v12 to v14 hold the handle and a phase. -/
def phBox (nsig nwait arr : Nat) : State :=
  teamSet (withRegs box [(10, 0x200), (11, 0x40000000), (12, 0x200), (13, 0x40000000), (14, 7), (20, 1)]) 1
    (fun x => x.writeLocal 1 0x200 32 (phaserOf nsig nwait arr 0))
def phHandle : Nat := 0x4000000000000200
def phLoc : PhLoc := .spad 1 0x200

theorem found_of_check {s : State} {tid h : Nat} {k : AccK} {u off v : Nat} {loc : PhLoc}
    (h1 : s.phPlace (teamOf (gidOf tid)) (BitVec.ofNat 64 h) = .ok (.loc u 1 off)) (h2 : s.laneClear tid [] = true)
    (h3 : s.readPh tid (.loc u 1 off) [] = (some v, loc, s)) : PhFound s tid h k (.loc u 1 off) [] v loc s :=
  ⟨h1, s, by simp [phReached, h2], h3⟩

theorem test_meets_phasers :
    (∀ s ∈ [phBox 2 1 0, phBox 2 1 1, phBox 0 0 0], noChannel s t0 (s.thread t0) ∧ phSettled (s.thread t0) true ∧
      laneRead s t0 (.v 10) 2 = some (phHandle, s.thread t0) ∧ Alone s t0 0 [src (.v 10)]) ∧
    (∀ s ∈ [phBox 2 1 0, phBox 2 1 1], s.phOk 1 (.loc 1 1 0x200) (phaserOf 2 1 0 0) = true ∧
      Alone s t0 0 [src (.v 10), dst (.v 30)] ∧ (landing s t0 (s.thread t0) (.v 30) 1).isSome = true ∧
      (writeDst (s.laneEnv (gidOf t0)).nregs (s.thread t0) (.v 30) 1 7).isSome = true ∧
      quadLow s t0 (.v 12) = some (phHandle + 7 * 2 ^ 64, s.thread t0) ∧ Alone s t0 0 [src (.v 12)] ∧ (s.thread t0).clear true 7 = true) ∧
    ((phRegister (phaserOf 2 1 0 0) .both 1).isSome = true ∧ (phRegister (phaserOf 2 1 0 0) .sig (-1)).isSome = true ∧
      phNwait (phaserOf 2 1 0 0) ≠ 0 ∧ (phArrival (phaserOf 2 1 0 0)).map (·.2) = some false ∧
      (phArrival (phaserOf 2 1 1 0)).map (·.2) = some true ∧ phInitOk (.loc 1 1 0x200) (phaserOf 0 0 0 0) 1 = true ∧
      readAll ((phBox 0 0 0).laneEnv (gidOf t0)).nregs ((phBox 0 0 0).thread t0) [(.v 10, 2), (.v 20, 1)] =
        some ([phHandle, 1], (phBox 0 0 0).thread t0) ∧
      Alone (phBox 0 0 0) t0 0 [src (.v 10), src (.v 20)]) ∧
    PhFound (phBox 2 1 0) t0 phHandle .both (.loc 1 1 0x200) [] (phaserOf 2 1 0 0) phLoc (phBox 2 1 0) ∧
    PhFound (phBox 2 1 1) t0 phHandle .both (.loc 1 1 0x200) [] (phaserOf 2 1 1 0) phLoc (phBox 2 1 1) ∧
    PhFound (phBox 2 1 1) t0 phHandle .read (.loc 1 1 0x200) [] (phaserOf 2 1 1 0) phLoc (phBox 2 1 1) ∧
    PhFound (phBox 0 0 0) t0 phHandle .both (.loc 1 1 0x200) [] (phaserOf 0 0 0 0) phLoc (phBox 0 0 0) := by
  unfold Alone noChannel phSettled
  refine ⟨?_, ?_, ?_, found_of_check (ok_of_check (by decide +kernel)) (by decide +kernel) (by decide +kernel),
    found_of_check (ok_of_check (by decide +kernel)) (by decide +kernel) (by decide +kernel),
    found_of_check (ok_of_check (by decide +kernel)) (by decide +kernel) (by decide +kernel),
    found_of_check (ok_of_check (by decide +kernel)) (by decide +kernel) (by decide +kernel)⟩ <;> decide +kernel

/-- The context has one spawn entry; arguments in v8 to v15, the entry in v30. -/
def spawnBox : State :=
  withRegs (box.modCtx 0 (fun c => { c with entries := [⟨5, 16, false, 0⟩] })) [(8, 0x40000040), (30, 5)]
def spawnRec : SpawnRec := recordOf spawnBox t0 5 0x40000040
def openBin : Bin := { no := 3, entry := 5, ctx := 0, team := 1, slot := 0, first := 2, kids := [spawnRec] }
def binBox : State := spawnBox.modCore 0 (fun c => { c with bins := [openBin] })
/-- A record for the same entry waits on the core. -/
def fullBox : State := spawnBox.modCore 0 (fun c => { c with spawnQ := [{ spawnRec with parent := some (t0 + 1) }] })

theorem test_meets_spawns :
    (∀ s ∈ [binBox, fullBox, spawnBox], Alone s t0 0 [src (.v 8), src (.v 30)] ∧ (s.thread t0).ldc = 0 ∧ (s.thread t0).stc = 0 ∧
      entryReady (s.thread t0) (.v 30) = true ∧ named (s.thread t0) (.v 30) = some 5 ∧ (s.entryRow (s.teamOfT t0).ctx 5).isSome = true ∧
      readAll (s.laneEnv (gidOf t0)).nregs (s.thread t0) [(.v 8, 8), (.v 30, 1)] = some ([0x40000040, 5], s.thread t0) ∧
      noChannel s t0 (s.thread t0)) ∧
    ((outside binBox t0).spawnOn 0 spawnRec).isSome = true ∧
    (spGet binBox.cores (binBox.teamOfT t0).core = some (binBox.core 0) ∧ (binBox.core 0).spawnQ = [] ∧
      (binBox.core 0).bins.find? (fun o => o.entry = spawnRec.entry && o.ctx = 0 && o.quads = false && o.kids.length < 32) = some openBin ∧
      openBin.kids.length < 31 ∧ ∀ o ∈ (binBox.core 0).bins, o.no = openBin.no → o = openBin) ∧
    (outside fullBox t0).spawnOn 0 spawnRec = none ∧
    ((outside spawnBox t0).ownerCore (ctxFirst 0) (0x40000040 % 2 ^ 64)).isSome = true ∧
    (spawnBox.slice (ctxFirst 0)).taskq.length < 4096 * spawnBox.psize (ctxFirst 0) ∧
    ((outside spawnBox t0).releaseAt (spawnBox.whoT t0) .partition).isSome = true := by
  unfold Alone noChannel
  decide +kernel

/-- A bin that has stood for its time; a thread whose spawn waits; a task record. -/
def lateBox : State := { binBox with clock := 2 + 1024 }
def waitBox : State :=
  (spawnBox.modCore 0 (fun c => { c with bins := [openBin], spawnQ := [{ spawnRec with parent := some t0 }] })).modThread t0 (fun t => { t with wait := .spawn })
def taskBox : State := binBox.modSlice 0 (fun v => { v with taskq := [{ core := 0, srec := spawnRec }] })

theorem test_meets_spawn_events :
    ((lateBox.core 0).bins.find? (fun b => b.no = 3) = some openBin ∧ openBin.kids ≠ [] ∧
      openBin.first + max 1 (lateBox.ctx openBin.ctx).ctl.bintime.toNat ≤ lateBox.clock) ∧
    ((waitBox.core 0).spawnQ = { spawnRec with parent := some t0 } :: [] ∧ (waitBox.tryBin 0 spawnRec).isSome = true ∧
      ∀ t ∈ waitBox.tryBin 0 spawnRec, Unparked t (gidOf t0) ∧ (t.thread t0).wait = .spawn ∧ (spGet t.threads t0).isSome = true) ∧
    (taskBox.slice 0).taskq = { core := 0, srec := spawnRec } :: [] ∧
    (openBin.kids.length ≤ 32 ∧ spGet binBox.teams openBin.team = some (binBox.team 1) ∧ ∀ r ∈ openBin.kids, r.ticketKey = none) := by
  unfold Unparked
  decide +kernel

theorem test_spawn_results :
    ((nextOf (exec (.spawn 0 (.v 8) (.v 30)) binBox)).core 0).bins.map (·.kids.length) = [2] ∧
    ((nextOf (exec (.binTimerExpiry 0 3) lateBox)).threads.map (fun e => (e.2.pc, (e.2.reg 0).toNat))).getLast? = some (5, 0x40000040) ∧
    ((nextOf (exec (.spawnWaitServed 0) waitBox)).thread t0).wait = .none ∧
    ((nextOf (exec (.taskQueueDelivery 0) taskBox)).core 0).bins.map (·.kids.length) = [2] := by decide +kernel

/-! Matrix arrays. -/

/-- The whole group, every thread with the same registers. -/
def mBox : State := allRegs (whole box) [(3, 5), (4, 6), (8, 0x80), (9, 0x60000000), (10, 0x100), (11, 0x80000000)]

/-- Queue 3 takes results of mmar. -/
def mqBox : State := mBox.modGroup 65536 (fun g => { g with binds := [(3, ⟨2, 0⟩)] })

theorem test_meets_matrix_issue :
    (∃ m, matrixIssue mBox 65536 (.mmaMma 0 5 (.v 3) (.v 8)) = some m ∧ WholeGroup mBox 65536 m.guard m.uses ∧
      (mBox.thread (tidOf 65536 0)).anyPoison m.uses = false) ∧
    (∃ m, matrixIssue mqBox 65536 (.mmaMmar 0 5 3 (.v 56)) = some m ∧ WholeGroup mqBox 65536 m.guard m.uses ∧ m.cmd.fn = .mmar) ∧
    (∃ m, matrixIssue mBox 65536 (.mmaMrow 0 5 (.lit 7)) = some m ∧ WholeGroup mBox 65536 m.guard m.uses ∧
      (mBox.thread (tidOf 65536 0)).anyPoison m.uses = false) ∧
    (mBox.threads.map (·.1)).Nodup ∧ (spGet mBox.cores (mBox.team (teamOf 65536)).core).isSome = true ∧
    (spGet mqBox.cores (mqBox.team (teamOf 65536)).core).isSome = true := by
  unfold WholeGroup
  refine ⟨⟨_, rfl, ?_⟩, ⟨_, rfl, ?_⟩, ⟨_, rfl, ?_⟩, ?_⟩ <;> decide +kernel

/-- A command of the group. -/
def mCmd (fn : MFn) (acc : Nat) : MCmd := { mBlank fn with id := 55, gid := 65536, acc := acc, dreg := 9, aw := 3 }
def mQueue (ms : List MCmd) : State := mBox.modCore 0 (fun c => { c with mcmds := ms })
def hdrC : Hdr := ⟨9, 0, 2, true, false, 4, 5, 64, 0⟩

theorem accept_of_check {e : Accept × State} {ts : State → List Nat} {c : Nat}
    (h : (match e.1 with
      | .ok x => decide (x.poisonedLanes = []) && (match e.2.pushRelease (ts e.2) x.reads with | some t => !(t.core c).withdrawn | none => false)
      | _ => false) = true) :
    ∃ x s' t, e = (.ok x, s') ∧ x.poisonedLanes = [] ∧ s'.pushRelease (ts s') x.reads = some t ∧ (t.core c).withdrawn = false := by
  rcases e with ⟨a, s⟩
  cases a with
  | ok x =>
    simp only [Bool.and_eq_true, decide_eq_true_eq] at h
    revert h
    cases hp : s.pushRelease (ts s) x.reads with
    | none => simp
    | some t => exact fun h => ⟨x, s, t, rfl, h.1, hp, by simpa using h.2⟩
  | _ => simp at h

theorem test_meets_matrix_events :
    (((mQueue [mCmd .mrow 0]).core 0).mcmds.find? (fun c => c.acc = 0) = some (mCmd .mrow 0) ∧
      (((mQueue [mCmd .mrow 0]).core 0).mcmds.filter (fun c => decide (0 < c.acc))).length < 16 ∧
      (∀ e ∈ (mQueue [mCmd .mrow 0]).threadsOfGroup 65536, e.2.engc < 262143) ∧ (mCmd .mrow 0).batch = none ∧ (mCmd .mrow 0).cancelled = false ∧
      (mQueue [mCmd .mrow 0]).groupIssues 65536 = true) ∧
    (∃ x s' t, (mQueue [mCmd .mrow 0]).checkM 0 (mCmd .mrow 0) = (.ok x, s') ∧ x.poisonedLanes = [] ∧
      s'.pushRelease ((s'.threadsOfGroup 65536).map (·.1)) x.reads = some t ∧ (t.core 0).withdrawn = false) ∧
    (mQueue [{ mCmd .mload 3 with skip := true }]).nextM 0 = some (0, { mCmd .mload 3 with skip := true }) ∧
    (mQueue [mCmd .mload 3]).nextM 0 = some (0, mCmd .mload 3) ∧ (mQueue [mCmd .mrow 3]).nextM 0 = some (0, mCmd .mrow 3) ∧
    (mQueue [{ mCmd .mclear 3 with ch := some hdrC }]).nextM 0 = some (0, { mCmd .mclear 3 with ch := some hdrC }) ∧
    (mQueue [mCmd .mpair 3]).nextM 0 = some (0, mCmd .mpair 3) ∧ (mQueue [mCmd .mpair 3]).waitersFor (mCmd .mpair 3) = [] ∧
    (mQueue [mCmd .mpair 3]).waitingPartner (mCmd .mpair 3) = none ∧ (mQueue [mCmd .mpair 3]).partnerTeam 65536 (mCmd .mpair 3).ctl = none ∧
    (mQueue [mCmd .mma 3]).nextM 0 = some (0, mCmd .mma 3) ∧ (mCmd .mma 3).onLease = none ∧ (mCmd .mma 3).skip = false ∧
    (((mQueue [mCmd .mma 3]).threads.map (·.1)).Nodup ∧ ((mQueue [mCmd .mma 3]).group 65536).park = none ∧
      (spGet (mQueue [mCmd .mma 3]).groups 65536).isSome = true ∧ (spGet (mQueue [mCmd .mma 3]).cores 0).isSome = true) := by
  refine ⟨?_, accept_of_check (ts := fun s => (s.threadsOfGroup 65536).map (·.1)) (by decide +kernel), ?_⟩ <;> decide +kernel

/-- A 4 × 8 tile of A in SPAD at 0x40, an 8 × 5 block of B in WBUF at 0x80, a tile of C in CBUF at 0x100: int8. -/
def hdrA8 : Hdr := ⟨7, 0, 0, false, false, 4, 8, 64, 0⟩
def hdrB8 : Hdr := ⟨7, 0, 1, false, false, 8, 5, 64, 0⟩
def wordAt (sp a : Nat) : DWord := BitVec.ofNat 64 (sp * 2 ^ 61 + a)
def rowCmd (row : Nat) : MCmd :=
  { mCmd .mma 3 with
    ctl := 3
    aw := wordAt 1 0x40
    cw := wordAt 4 0x100
    bw := some (wordAt 2 0x80)
    ah := some hdrA8
    bh := some hdrB8
    ch := some hdrC
    started := true
    row := row }
def rowBox (row : Nat) : State :=
  ((mQueue [rowCmd row]).modGroup 65536 (fun g => { g with bword := some (wordAt 2 0x80), mrow := row })).modTeam 1 (fun t =>
    (((({ t with sizes := ⟨4096, 4096, 4096, 4096⟩ } : Team).writeLocal 1 (0x40 + 16 + 64) 8 0x0201).writeLocal 2 (0x80 + 16) 5 0x0A).writeLocal 2
      (0x80 + 16 + 64) 5 0xFF).writeLocal 4 (0x100 + 16 + 64) 4 7)

theorem clean_of_check {s : State} {gid : Nat} {w : DWord} (h1 : wordSpace w ≠ 0) (h2 : (s.team (teamOf gid)).poison = []) : cleanLocal s gid w :=
  ⟨h1, fun off n => by simp [Team.poisonedAt, h2]⟩

theorem test_meets_matrix_rows :
    (∀ row ∈ [2, 3], (rowBox row).runningM 0 = some (0, rowCmd row) ∧ ((rowBox row).slice (coreSlice 0)).throttled = false) ∧
    ((rowCmd 2).partner = none ∧ (rowCmd 2).aloneSince = none ∧ (rowCmd 2).batch = none ∧ (rowCmd 2).onLease = none ∧ (rowCmd 2).cancelled = false ∧
      (rowCmd 2).fn = .mma ∧ (rowBox 2).groupIssues 65536 = true ∧ ctlN (rowCmd 2).ctl = 3 ∧ ((rowBox 2).group 65536).bword = some (wordAt 2 0x80)) ∧
    (cleanLocal (rowBox 2) 65536 (wordAt 1 0x40) ∧ cleanLocal (rowBox 2) 65536 (wordAt 2 0x80) ∧
      ∀ off n, ((rowBox 2).team (teamOf 65536)).poisonedAt 4 off n = false) ∧
    (((mQueue [{ mCmd .mpair 3 with started := true, aloneSince := some 5 }]).core 0).mcmds.find? (fun m => m.started && m.aloneSince.isSome) =
        some { mCmd .mpair 3 with started := true, aloneSince := some 5 } ∧
      5 + ((mQueue []).ctlFor ((mQueue []).team 1).ctx 65536).pairwait.toNat ≤ ({ mQueue [] with clock := 4101 } : State).clock) ∧
    ((spGet (mqBox.group 65536).binds 3).map (·.kind) = some 2 ∧ (mqBox.group 65536).park = none ∧ (spGet mqBox.groups 65536).isSome = true) := by
  have clean : ((rowBox 2).team (teamOf 65536)).poison = [] := by decide +kernel
  refine ⟨?_, ?_, ⟨clean_of_check (by decide) clean, clean_of_check (by decide) clean, fun off n => by simp [Team.poisonedAt, clean]⟩, ?_⟩ <;>
    decide +kernel

/-- Row 1 of C: 1 * 10 + 2 * -1 + 7. -/
theorem test_matrix_row_result :
    (((nextOf (exec (.matrixRowComplete 0) (rowBox 1))).team 1).readLocal 4 (0x100 + 16 + 64) 4) = 15 ∧
    ((nextOf (exec (.matrixRowComplete 0) (rowBox 1))).group 65536).mrow = 2 := by decide +kernel

theorem test_meets_matrix_row_values :
    (hdrB8.fmt = 7 ∨ hdrB8.fmt = 8) ∧ 4 < hdrB8.cols ∧
    ((fmtShape 0).isSome = true ∧ (0 : Nat) ≠ 6 ∧ (⟨0, 0, 1, false, false, 32, 5, 64, 0⟩ : Hdr).smode = 0 ∧
      0 < (⟨0, 0, 1, false, false, 32, 5, 64, 0⟩ : Hdr).rows ∧ (⟨0, 0, 1, false, false, 32, 5, 64, 0⟩ : Hdr).rows ≤ 32) := by decide

/-! Copies and templates. The context's table of nine templates lies at 0x4000_0000; template 5 names a record in SPAD. -/

/-- Translation tables that map 0x4000_0000 to the frame at 0x400000. -/
def tables (m : List Host.Cell) : List Host.Cell :=
  Memory.write (Memory.write (Memory.write (Memory.write m 0x300000 8 0x301001) 0x301000 8 0x302001) 0x302400 8 0x303001) 0x303000 8 0x400307
def tabled : State := { box with mem := tables box.mem }

/-- A record of rank 2: 16 × 8 bytes in rows of 16, tiles of 4 × 2. -/
def recImg (base : Nat) : Nat := base + 2 * 2 ^ 50 + 1 * 2 ^ 53 + 16 * 2 ^ 64 + 8 * 2 ^ 96 + 4 * 2 ^ 224 + 2 * 2 ^ 240 + 16 * 2 ^ 304
def tmplImg : Nat := 0x40000200 + 2 ^ 55 + 5 * 2 ^ 56 + 0x100 * 2 ^ 64

/-- The images in memory; v3 the index 5, v4 the image's address, v6 a record's address in every thread. -/
def tmplBox : State :=
  let s := allRegs (whole tabled) [(3, 5), (4, 0x40000080), (6, 0x40000100)]
  (((s.homePut 0 0 0 0x400080 32 tmplImg false).homePut 0 0 0 0x400100 64 (recImg 0x40000300) false).homePut 0 0 0 0x400200 64 (recImg 0x300)
    false).modCtx 0 (fun c => { c with tmplValid := [5, 6], ctl := { c.ctl with cpytab := 0x40000000 + 9 } })

def instUni : UniOp := tmplUni 0 [src (.v 3), src (.v 4)] [(.v 3, 1), (.v 4, 2)]
def validUni : UniOp := tmplUni 0 [src (.v 6), dst (.v 9)] [(.v 6, 2)]
def dropUni : UniOp := tmplUni 0 [src (.v 3)] [(.v 3, 1)]

theorem test_meets_templates_issue :
    (tmplBox.members ≠ [] ∧ (∀ t ∈ tmplBox.members, gidOf t = 65536) ∧ leaderOf tmplBox 0 65536 = some t0 ∧
      (spGet tmplBox.cores (tmplBox.team (teamOf 65536)).core).isSome = true) ∧
    (UniReady tmplBox (fun _ => instUni) ∧ UniReady tmplBox (fun _ => validUni) ∧ UniReady tmplBox (fun _ => dropUni)) ∧
    instUni.led tmplBox 65536 t0 = some ([5, 0x40000080], tmplBox.thread t0) ∧ validUni.led tmplBox 65536 t0 = some ([0x40000100], tmplBox.thread t0) ∧
    dropUni.led tmplBox 65536 t0 = some ([5], tmplBox.thread t0) ∧ 5 < tableCount tmplBox 65536 ∧
    ((∀ p ∈ (tmplBox.setThread t0 (tmplBox.thread t0)).tmplPages t0 0 (BitVec.ofNat 32 5) 0x40000080,
        (tmplBox.setThread t0 (tmplBox.thread t0)).xlate t0 p.1 p.2 ≠ .miss) ∧
      (∀ p ∈ ((tmplBox.setThread t0 (tmplBox.thread t0)).tmplPages t0 0 (BitVec.ofNat 32 5) 0x40000080).take 2,
        (tmplBox.setThread t0 (tmplBox.thread t0)).xlate t0 p.1 p.2 = .hit (0x400000 + (p.1 - 0x40000000)) dataPage)) ∧
    (0x40000100 % 64 = 0 ∧
      (tmplBox.setThread t0 (tmplBox.thread t0)).xlate t0 0x40000100 .read = .hit 0x400100 dataPage) := by
  refine ⟨?_, ⟨uniReady_of_check (by decide +kernel), uniReady_of_check (by decide +kernel), uniReady_of_check (by decide +kernel)⟩, ?_⟩ <;>
    decide +kernel

/-- A tmpl command at the head of core 0's queue, v9 of every thread marked for it. -/
def tCmd (fn va : Nat) : TCmd := { fn := fn, gid := 65536, tids := tmplBox.members, pc := 0, idx := 5, va := va, dreg := 9, op := 7 }
def tQueue (fn va : Nat) : State :=
  let s := tmplBox.modCore 0 (fun c => { c with tcmds := [tCmd fn va] })
  { s with threads := s.threads.map (fun e => (e.1, { e.2 with sb := [⟨7, false, 9⟩] })) }

theorem read_of_check {e : Nat × Met × State} (h : e.2.1.faults.isEmpty = true ∧ e.2.1.fail.isNone = true) :
    ∃ v m s, e = (v, m, s) ∧ nothing m := by
  obtain ⟨v, m, s⟩ := e
  exact ⟨v, m, s, rfl, List.isEmpty_iff.1 h.1, Option.isNone_iff_eq_none.1 h.2⟩

/-- What tmpl.inst meets at acceptance: its image read, image and record in order, its place in the table reached. -/
def instGoes (s : State) (c : TCmd) : Bool :=
  let tid := c.tids.headD 0
  match s.jobRead (s.jobOf tid true c.pc) c.va 32 {} with
  | (img, m, s1) =>
    m.faults.isEmpty && m.fail.isNone &&
    match s1.checkCopy tid c.pc img false with
    | (.ok _ _, s2) =>
      (match s2.jobPage (s.ctxOfT tid) (cpyBase (s2.ctlFor (s.ctxOfT tid) c.gid).cpytab + 32 * c.idx.toNat) .write (fun _ => true) c.pc {} with
       | (some _, _, _) => true
       | _ => false)
    | _ => false

theorem inst_of_check {s : State} {c : TCmd} (h : instGoes s c = true) :
    ∃ img m s1 t x s2 pa leaf m' s3, s.jobRead (s.jobOf (c.tids.headD 0) true c.pc) c.va 32 {} = (img, m, s1) ∧ nothing m ∧
      s1.checkCopy (c.tids.headD 0) c.pc img false = (.ok t x, s2) ∧
      s2.jobPage (s.ctxOfT (c.tids.headD 0)) (cpyBase (s2.ctlFor (s.ctxOfT (c.tids.headD 0)) c.gid).cpytab + 32 * c.idx.toNat) .write
        (fun _ => true) c.pc {} = (some (pa, leaf), m', s3) := by
  unfold instGoes at h
  dsimp only at h
  rcases h1 : s.jobRead (s.jobOf (c.tids.headD 0) true c.pc) c.va 32 {} with ⟨img, m, s1⟩
  rw [h1] at h
  rcases h2 : s1.checkCopy (c.tids.headD 0) c.pc img false with ⟨n, s2⟩
  simp only [h2, Bool.and_eq_true] at h
  cases n with
  | ok t x =>
    simp only at h
    rcases h3 : s2.jobPage (s.ctxOfT (c.tids.headD 0)) (cpyBase (s2.ctlFor (s.ctxOfT (c.tids.headD 0)) c.gid).cpytab + 32 * c.idx.toNat) .write
      (fun _ => true) c.pc {} with ⟨o, m', s3⟩
    rw [h3] at h
    cases o with
    | some e => exact ⟨img, m, s1, t, x, s2, e.1, e.2, m', s3, rfl, ⟨List.isEmpty_iff.1 h.1.1, Option.isNone_iff_eq_none.1 h.1.2⟩, h2, h3⟩
    | none => simp at h
  | _ => simp at h

theorem test_meets_templates_accept :
    (((tQueue 2 0).core 0).tcmds = tCmd 2 0 :: [] ∧ (tCmd 2 0).batch = none ∧ (tCmd 2 0).cancelled = false ∧
      ((tQueue 1 0x40000100).core 0).tcmds = tCmd 1 0x40000100 :: [] ∧ ((tQueue 0 0x40000080).core 0).tcmds = tCmd 0 0x40000080 :: []) ∧
    (∃ v m s', (tQueue 1 0x40000100).jobRead ((tQueue 1 0x40000100).jobOf t0 true 0) 0x40000100 64 {} = (v, m, s') ∧ nothing m) ∧
    (∃ v m s', (tQueue 1 0x40000080).jobRead ((tQueue 1 0x40000080).jobOf t0 true 0) 0x40000080 64 {} = (v, m, s') ∧ nothing m) ∧
    firstReason (tsrReasons (tsrOf (recImg 0x40000300)) false false) = none ∧ firstReason (tsrReasons (tsrOf (2 ^ 50 * 7)) false false) ≠ none ∧
    instGoes (tQueue 0 0x40000080) (tCmd 0 0x40000080) = true := by
  refine ⟨?_, read_of_check (by decide +kernel), read_of_check (by decide +kernel), ?_⟩ <;> decide +kernel

theorem test_template_results :
    (((nextOf (exec (.tmplAccept 0) (tQueue 1 0x40000100))).thread (t0 + 9)).reg 9).toNat = 4 * 4 ∧
    ((nextOf (exec (.tmplAccept 0) (tQueue 2 0))).ctx 0).tmplValid = [6] ∧
    ((nextOf (exec (.tmplAccept 0) (tQueue 0 0x40000080))).homeBytes 0 0 0 (0x400000 + 160) 32).1 = tmplImg := by decide +kernel

/-- A push to channel 1 of copy 77: template 5, tile 1, offset 3 in the tile's space. -/
def push77 : Push := { id := 77, tid := t0, k := 2, chan := 1, val := BitVec.ofNat 64 (5 + 3 * 2 ^ 10 + 1 * 2 ^ 32), pc := 4 }
def pushBox : State :=
  (((tmplBox.homePut 0 0 0 (0x400000 + 160) 32 tmplImg false).modCore 0 (fun c => { c with pushes := [push77] })).modTeam 1 (fun t =>
    ({ t with sizes := ⟨4096, 4096, 4096, 4096⟩ } : Team).writeLocal 1 (0x300 + 4) 4 0x44332211))

/-- What a push meets at acceptance: template and record, a tile in a local store, no gate, a tensor within SPAD. -/
def pushGoes (s : State) (p : Push) : Bool :=
  match s.namedBy p with
  | (.ok t x, s') =>
    (match s'.tileAt (teamOf (gidOf p.tid)) t x (p.val.toNat / 2 ^ 10 % 2 ^ 22) with
     | .ok (.loc u sp o) => (s'.pushRelease [p.tid]
         (if t.dir then tileFeet t x u sp o else tensorFeet (teamOf (gidOf p.tid)) t x (p.val.toNat / 2 ^ 32))).isSome
     | _ => false) && decide (t.gate = 0) &&
    (match x.range t.dir (p.val.toNat / 2 ^ 32) with
     | some r => decide (r.1 + r.2 ≤ (s'.team (teamOf (gidOf p.tid))).region 1)
     | none => true)
  | _ => false

theorem push_of_check {s : State} {p : Push} (h : pushGoes s p = true) :
    ∃ t x s' u sp off, s.namedBy p = (.ok t x, s') ∧ s'.tileAt (teamOf (gidOf p.tid)) t x (p.val.toNat / 2 ^ 10 % 2 ^ 22) = .ok (.loc u sp off) ∧
      t.gate = 0 ∧ tensorFits s' (teamOf (gidOf p.tid)) t x (p.val.toNat / 2 ^ 32) ∧
      (s'.pushRelease [p.tid] (if t.dir then tileFeet t x u sp off else tensorFeet (teamOf (gidOf p.tid)) t x (p.val.toNat / 2 ^ 32))).isSome =
        true := by
  unfold pushGoes at h
  rcases h1 : s.namedBy p with ⟨n, s'⟩
  rw [h1] at h
  generalize p.val.toNat / 2 ^ 10 % 2 ^ 22 = off at h ⊢
  generalize p.val.toNat / 2 ^ 32 = top at h ⊢
  cases n with
  | ok t x =>
    simp only [Bool.and_eq_true, decide_eq_true_eq] at h
    obtain ⟨⟨ha, hb⟩, hc⟩ := h
    rcases h2 : s'.tileAt (teamOf (gidOf p.tid)) t x off with e | a
    · simp [h2] at ha
    · cases a with
      | loc u sp off =>
        rw [h2] at ha
        refine ⟨t, x, s', u, sp, off, rfl, h2, hb, fun _ r hr => ?_, ha⟩
        simpa [hr] using hc
      | regs _ _ => simp [h2] at ha
  | _ => simp at h

def copying : State := nextOf (exec (.copyAccept 0 1) pushBox)
def copy77 : Copy := (copying.core 0).copies.headD (startedCopy pushBox push77 (tmplOf tmplImg) (tsrOf (recImg 0x300)) 0 0 0)
/-- The same copy cancelled. -/
def cancelling : State := copying.modCore 0 (fun c => { c with copies := c.copies.map (fun y => { y with cancelled := true }) })

theorem test_meets_copies :
    ((pushBox.core 0).pushes.find? (fun p => p.chan = 1) = some push77 ∧ (pushBox.core 0).copies.length < 256 ∧ push77.batch = none ∧
      push77.filled = true ∧ push77.cancelled = false) ∧
    (∃ t x s' u sp off, pushBox.namedBy push77 = (.ok t x, s') ∧
      s'.tileAt (teamOf (gidOf t0)) t x (push77.val.toNat / 2 ^ 10 % 2 ^ 22) = .ok (.loc u sp off) ∧ t.gate = 0 ∧
      tensorFits s' (teamOf (gidOf t0)) t x (push77.val.toNat / 2 ^ 32) ∧
      (s'.pushRelease [t0] (if t.dir then tileFeet t x u sp off else tensorFeet (teamOf (gidOf t0)) t x (push77.val.toNat / 2 ^ 32))).isSome = true) ∧
    (copying.findCopy 77 = some (0, copy77) ∧ copying.copyGoes 0 copy77 = true ∧ copy77.cancelled = false ∧ nothing (copying.copyTry 0 copy77).1 ∧
      copy77.tmpl.phv = false ∧ copy77.tmpl.fe = false ∧ copy77.tmpl.dir = false ∧ (copying.readTensor copy77 {}).2.1 = {}) ∧
    (match copying.tileAt (teamOf (gidOf copy77.tid)) copy77.tmpl copy77.tsr copy77.doff with | .ok (.loc _ _ _) => true | _ => false) = true ∧
    (cancelling.findCopy 77 = some (0, { copy77 with cancelled := true }) ∧ cancelling.copyGoes 0 { copy77 with cancelled := true } = true ∧
      cancelling.copyFails 0 { copy77 with cancelled := true } = some .cancelled) ∧
    ((tsrOf (recImg 0x300)).tile.length = (tsrOf (recImg 0x300)).ext.length ∧ (∀ y ∈ (tsrOf (recImg 0x300)).tile, 0 < y) ∧
      (∀ y ∈ (tsrOf (recImg 0x300)).ext, 0 < y) ∧ 1 < (tsrOf (recImg 0x300)).ext.length ∧
      15 < (((tsrOf (recImg 0x300)).ext.zip (tsrOf (recImg 0x300)).tile).map (fun e => ceilDiv e.1 e.2)).prod) := by
  unfold nothing
  refine ⟨?_, push_of_check (by decide +kernel), ?_, ?_, ?_⟩ <;> decide +kernel

set_option exponentiation.threshold 1100

/-! Textures, ray tests, residency, ordered sections. -/

theorem pair_of {α β : Type} {e : α × β} {a : α} (h : e.1 = a) : e = (a, e.2) := by cases e; simp_all

theorem okpair_of_check {ε α β : Type} [DecidableEq α] {e : Except ε α × β} {x : α}
    (h : (match e.1 with | .ok y => decide (y = x) | .error _ => false) = true) : e = (.ok x, e.2) := by
  obtain ⟨r, s⟩ := e
  cases r <;> simp_all

theorem triple_of {α β γ : Type} {e : α × β × γ} {a : α} {b : β} (h : e.1 = a ∧ e.2.1 = b) : e = (a, b, e.2.2) := by
  obtain ⟨x, y, z⟩ := e
  simp_all

/-- A texture of 100 × 50 texels of one word on two levels at 0x4000_0000; its map of resident pages lies at 0x4000_0800. -/
def descImg (linear : Nat) : Nat :=
  1 + 2 * 2 ^ 3 + 2 * 2 ^ 7 + 0x4000 * 2 ^ 16 + (0x40000800 / 8) * 2 ^ 67 + 99 * 2 ^ 128 + 49 * 2 ^ 144 + 1 * 2 ^ 160 + 2 * 2 ^ 162 + linear * 2 ^ 164 +
    0x111 * 2 ^ 192
def tex1 : Desc := descOf (descImg 0)

/-- The descriptor has number 1 in the table; a lookup's resource, coordinates and level stand in v8 to v11, a sample's in v16 to v19. -/
def texBox (resident : Nat) : State :=
  let s := (tabled.homePut 0 0 0 0x400040 64 (descImg 0) false).homePut 0 0 0 0x400800 1 resident false
  (withRegs s [(8, 1), (9, 5), (10, 7), (11, 0), (16, 1), (17, 0x3F000000), (18, 0x3E800000)]).modCtx 0 (fun c =>
    { c with ctl := { c.ctl with restab := 0x40000000 } })

/-- The states and the plan of one lookup at a register. -/
def texS1 (s : State) (a : Fin 112) : State := (s.resNamed t0 ((s.thread t0).reg a.val)).2
def texQ (s : State) (a : Fin 112) : List Word := wordsAt ((texS1 s a).thread t0) a.val 4
def texS2 (s : State) (a : Fin 112) (smp : Bool) : State := ((texS1 s a).texPlan t0 tex1 smp (texQ s a)).2
def texHits (s : State) (a : Fin 112) (smp : Bool) (p : TexPlan) : List Hit :=
  (tex1.reads smp (texQ s a) p).filterMap (fun va => match (texS2 s a smp).xlate t0 va .unit with | .hit pa e => some (pa, e) | _ => none)
def texRead (s : State) (a : Fin 112) (smp : Bool) (p : TexPlan) : List Nat × Option (Nat × Nat × Nat) × State :=
  (touchedAll (texS2 s a smp) t0 (texHits s a smp p)).readTexels t0 (texBytes (tex1.fmt p.ach)) (texHits s a smp p) (tex1.reads smp (texQ s a) p)

theorem test_meets_texture_loads :
    (∃ (ds : Desc) (s1 s2 s4 : State) (p : TexPlan) (hs : List Hit) (ts : List Nat) (dest : Nat → Dest) (u : Thread),
      Alone (texBox 1) t0 0 (wideUse (.v 8) 4 ++ [dst (.v 20)]) ∧ ((texBox 1).thread t0).clear false 8 = true ∧
      settled (s1.thread t0) (memdefAcc 0 0) ∧ (texBox 1).resNamed t0 (((texBox 1).thread t0).reg 8) = (.ok ds, s1) ∧ (s1.thread t0).pred 0 = true ∧
      queuesReady (s1.thread t0) (wideUse (.v 8) 4 ++ [dst (.v 20)]) = true ∧ sound (s1.thread t0) 8 4 = true ∧
      landing s1 t0 (s1.thread t0) (.v 20) 3 = some (dest, u) ∧ noChannel s4 t0 u ∧
      s1.texPlan t0 ds false (wordsAt (s1.thread t0) 8 4) = (.ok p, s2) ∧
      Reached s2 t0 ((ds.reads false (wordsAt (s1.thread t0) 8 4) p).map (fun va => (va, .unit))) hs ∧ s2.laneClear t0 hs = true ∧
      (touchedAll s2 t0 hs).readTexels t0 (texBytes (ds.fmt p.ach)) hs (ds.reads false (wordsAt (s1.thread t0) 8 4) p) = (ts, none, s4)) ∧
    (∃ (ds : Desc) (s1 s2 s4 : State) (p : TexPlan) (hs : List Hit) (ts : List Nat) (dest : Nat → Dest) (u : Thread),
      Alone (texBox 1) t0 0 (wideUse (.v 16) 4 ++ [dst (.v 20)]) ∧ ((texBox 1).thread t0).clear false 16 = true ∧
      settled (s1.thread t0) (memdefAcc 0 0) ∧ (texBox 1).resNamed t0 (((texBox 1).thread t0).reg 16) = (.ok ds, s1) ∧ (s1.thread t0).pred 0 = true ∧
      queuesReady (s1.thread t0) (wideUse (.v 16) 4 ++ [dst (.v 20)]) = true ∧ sound (s1.thread t0) 16 4 = true ∧
      landing s1 t0 (s1.thread t0) (.v 20) 2 = some (dest, u) ∧ noChannel s4 t0 u ∧
      s1.texPlan t0 ds true (wordsAt (s1.thread t0) 16 4) = (.ok p, s2) ∧
      Reached s2 t0 ((ds.reads true (wordsAt (s1.thread t0) 16 4) p).map (fun va => (va, .unit))) hs ∧ s2.laneClear t0 hs = true ∧
      (touchedAll s2 t0 hs).readTexels t0 (texBytes (ds.fmt p.ach)) hs (ds.reads true (wordsAt (s1.thread t0) 16 4) p) = (ts, none, s4)) := by
  unfold Alone settled noChannel Reached
  refine ⟨⟨tex1, texS1 (texBox 1) 8, texS2 (texBox 1) 8 false, (texRead (texBox 1) 8 false { want := 0, ach := 0 }).2.2, { want := 0, ach := 0 },
      texHits (texBox 1) 8 false { want := 0, ach := 0 }, (texRead (texBox 1) 8 false { want := 0, ach := 0 }).1, _, _, ?_, ?_, ?_,
      okpair_of_check ?_, ?_, ?_, ?_, landing_reg ?_, ?_, okpair_of_check ?_, ?_, ?_, triple_of ⟨rfl, ?_⟩⟩,
    ⟨tex1, texS1 (texBox 1) 16, texS2 (texBox 1) 16 true, (texRead (texBox 1) 16 true { want := 0, ach := 0 }).2.2, { want := 0, ach := 0 },
      texHits (texBox 1) 16 true { want := 0, ach := 0 }, (texRead (texBox 1) 16 true { want := 0, ach := 0 }).1, _, _, ?_, ?_, ?_,
      okpair_of_check ?_, ?_, ?_, ?_, landing_reg ?_, ?_, okpair_of_check ?_, ?_, ?_, triple_of ⟨rfl, ?_⟩⟩⟩ <;> decide +kernel

theorem test_meets_render_values :
    (0 < 8 ∧ (0 : Int) ≤ 5 ∧ (5 : Int) < 8 ∧ 2 ≤ 3) ∧ tex1.fmt 0 < 8 ∧ ((⟨3, 5, true, true, []⟩ : TexPlan).want < 16 ∧ (⟨3, 5, true, true, []⟩ : TexPlan).ach < 16) ∧
    (2 : Nat) ^ 968 / 2 ^ 968 % 2 ^ 56 ≠ 0 ∧ (2 : Nat) ^ 320 / 2 ^ 320 % 2 ^ 64 ≠ 0 ∧
    (let t : Tri := ⟨[0, 64, 0], [0, 0, 64], 64 * 64⟩
     t.xs.length = 3 ∧ t.ys.length = 3 ∧ t.s = (t.x 1 - t.x 0) * (t.y 2 - t.y 0) - (t.x 2 - t.x 0) * (t.y 1 - t.y 0) ∧ t.s ≠ 0 ∧ 0 < 8 ∧
     t.covers 0 0 = true ∧ t.covers 5 5 = false) := by decide +kernel

/-- A ray along z at v24; v36 the node index, v37 the stack, v38 the base of the records. -/
def rayBox (first : Nat) : State :=
  withRegs ((tabled.homePut 0 0 0 0x400080 64 (0x3F8000003F8000003F800000 * 2 ^ 192 + 0x3F8000003F8000003F800000 * 2 ^ 320) false).homePut 0 0 0
      (0x400080 + 120) 8 first false)
    [(28, 0x3F800000), (29, 0x3F800000), (30, 0x3F800000), (31, 0x42000000), (36, 1), (37, 0x100), (38, 0x40000000)]
def rayHits (s : State) (va n : Nat) : List Hit :=
  (recPages (some va) n).filterMap (fun p => match s.xlate t0 p.1 p.2 with | .hit pa e => some (pa, e) | _ => none)
def rayRead (s : State) (va n : Nat) : Nat × Option (Nat × Nat × Nat) × State :=
  (touchedAll s t0 (rayHits s va n)).readRecord t0 va n (rayHits s va n)
def rayHitCount (s : State) : Nat := (nodeTest false (wordsAt (s.thread t0) 24 8) (rayRead s 0x40000080 128).1).2.length

theorem test_meets_ray_tests :
    (∀ s ∈ [rayBox 1, rayBox 3], Alone s t0 0 (wideUse (.v 24) 8 ++ wideUse (.v 32) 8) ∧ settled (s.thread t0) (memdefAcc 0 0) ∧
      rayReady (s.thread t0) 32 24 true ∧ rayReady (s.thread t0) 32 24 false ∧ ((s.thread t0).reg 37).toNat % 4 = 0) ∧
    (∀ s ∈ [rayBox 1, rayBox 3], rayAddr (s.thread t0) 32 128 = 0x40000080 ∧
      Reached s t0 (recPages (some 0x40000080) 128) (rayHits s 0x40000080 128) ∧
      s.laneClear t0 (rayHits s 0x40000080 128) = true ∧ (rayRead s 0x40000080 128).2.1 = none ∧
      noChannel (rayRead s 0x40000080 128).2.2 t0 (s.thread t0)) ∧
    (rayHitCount (rayBox 1) < 2 ∧ 2 ≤ rayHitCount (rayBox 3) ∧
      (((rayBox 3).thread t0).reg 37).toNat + 4 * (rayHitCount (rayBox 3) - 1) ≤ ((rayRead (rayBox 3) 0x40000080 128).2.2.team 1).region 1) ∧
    (NoneBefore (rayRead (rayBox 3) 0x40000080 128).2.2 t0 ∧ (spGet (rayRead (rayBox 3) 0x40000080 128).2.2.teams 1).isSome = true) ∧
    (let s := withRegs (rayBox 1) [(28, 0x3F800000), (36, 1), (38, 0x40000000)]
     rayAddr (s.thread t0) 32 48 = 0x40000030 ∧ rayReady (s.thread t0) 32 24 false ∧
      Reached s t0 (recPages (some 0x40000030) 48) (rayHits s 0x40000030 48) ∧
      s.laneClear t0 (rayHits s 0x40000030 48) = true ∧ (rayRead s 0x40000030 48).2.1 = none ∧
      noChannel (rayRead s 0x40000030 48).2.2 t0 (s.thread t0)) := by
  unfold Alone settled noChannel Reached rayReady NoneBefore
  refine ⟨?_, ?_, ?_, ?_, ?_⟩ <;> decide +kernel

/-- The group sets level 0 from entry 0 of resource 1. -/
def resBox : State :=
  let s := allRegs (whole (texBox 1)) [(4, 1)]
  s.modCtx 0 (fun c => c)
def resUni : UniOp := { guard := 0, uses := [src (.v 3), src (.v 4)], srcs := [(.v 3, 1), (.v 4, 1)] }
def resCmd (isSet : Bool) : ResCmd :=
  { set := isSet, gid := 65536, tids := resBox.members, pc := 0, op := 7, rmap := tex1.rmap, base := tex1.base, first := 0, count := 1, ctx := 0 }
def resQueue (isSet : Bool) : State := resBox.modSlice 0 (fun v => { v with rescmds := [resCmd isSet] })

theorem test_meets_residency :
    (resBox.members ≠ [] ∧ (∀ t ∈ resBox.members, gidOf t = 65536) ∧ leaderOf resBox 0 65536 = some t0 ∧
      (resBox.thread t0).handle (resBox.laneEnv 65536).nregs (.v 4) 0 = some (BitVec.ofNat 32 1)) ∧
    UniReady resBox (fun _ => resUni) ∧ UniReady resBox (fun _ => { guard := 0, uses := [] }) ∧
    (∃ s1, resBox.resNamed t0 (BitVec.ofNat 32 1) false = (.ok tex1, s1) ∧ UniReady s1 (fun _ => resUni) ∧
      resUni.led s1 65536 t0 = some ([0, 1], s1.thread t0) ∧ (spGet s1.slices (ctxFirst (s1.ctxOfT t0))).isSome = true ∧
      Reached (s1.setThread t0 (s1.thread t0)) t0 (mapPages tex1.rmap 0 1) [(0x400800, dataPage)] ∧
      ∀ t ∈ activeOf s1 0 65536, ((s1.setThread t0 (s1.thread t0)).thread t).resc +
        (((s1.setThread t0 (s1.thread t0)).slice (ctxFirst (s1.ctxOfT t0))).rescmds.filter (fun r => !r.set && r.tids.contains t)).length < 262143) ∧
    (tex1.select (BitVec.ofNat 32 0) true = .ok (0, 1) ∧ tex1.select (BitVec.ofNat 32 0) false = .ok (0, 1)) ∧
    (∀ t ∈ resBox.members, (resBox.thread t).resc = 0) ∧
    (∀ b ∈ [true, false], (resQueue b).resmapNext 0 = some (resCmd b) ∧ (resCmd b).set = b) := by
  unfold Reached
  refine ⟨?_, uniReady_of_check ?_, uniReady_of_check ?_, ⟨_, okpair_of_check ?_, uniReady_of_check ?_, ?_⟩, ⟨ok_of_check ?_, ok_of_check ?_⟩, ?_, ?_⟩ <;>
    decide +kernel

/-- A thread with ticket 3 in state st; ticket 2 on the same key before it in state first. -/
def tickBox (first st : Nat) : State :=
  (box.modThread t0 (fun t => { t with ticket := some 3 })).modSlice 0 (fun v =>
    { v with tickets := [⟨2, 8, 0, none, first, 1⟩, ⟨3, 8, 0, some t0, st, 1⟩] })

theorem test_meets_ordered_sections :
    (∀ s ∈ [box, tickBox 2 0, tickBox 2 1], Alone s t0 0 [] ∧ noChannel s t0 (s.thread t0)) ∧
    box.ticketState t0 = 2 ∧ ((tickBox 2 0).ticketState t0 = 0 ∧ (tickBox 2 0).ticketFirst 3 = true) ∧ (tickBox 1 0).ticketFirst 3 = false ∧
    ((tickBox 2 1).ticketState t0 = 1 ∧ ((tickBox 2 1).thread t0).ldc = 0 ∧ ((tickBox 2 1).thread t0).stc = 0 ∧
      ((tickBox 2 1).releaseAt ((tickBox 2 1).whoT t0) .partition).isSome = true) := by
  unfold Alone noChannel
  refine ⟨?_, ?_⟩ <;> decide +kernel

/-- Words of three vertices from pairs of f32 coordinates, an id of 9. -/
def triImg (a b c d e f : Nat) : Nat := a + b * 2 ^ 32 + c * 2 ^ 96 + d * 2 ^ 128 + e * 2 ^ 192 + f * 2 ^ 224 + 9 * 2 ^ 288

/-- A raster state at 0x4000_0080 (8 × 8, entries 0); triangles at 0x4000_0100, 0x4000_0130 and 0x4000_0160: of no area, small, large. -/
def rastBox : State :=
  let s := allRegs (whole tabled) [(4, 0x40000080), (6, 0x40000100)]
  let s := (s.homePut 0 0 0 0x400080 64 (8 + 8 * 2 ^ 16 + 0x40000200 * 2 ^ 128) false).homePut 0 0 0 0x400100 48 0 false
  let s := (s.homePut 0 0 0 0x400130 48 (triImg 0 0 0x40000000 0 0 0x40000000) false).homePut 0 0 0 0x400160 48
    (triImg 0 0 0x41000000 0 0 0x41000000) false
  s.modCtx 0 (fun c => { c with entries := [⟨0, 32, false, 0⟩] })

def rast (tris : List Nat) (next : Nat) (quads : List (List SpawnRec)) : RCmd :=
  { id := 5, gid := 65536, core := 0, pc := 0, stateVa := 0x40000080, tris := tris, accepted := true, width := 8, height := 8, thr := 64, nextTri := next,
    quads := quads }
def rasting (r : RCmd) : State := rastBox.modSlice 0 (fun v => { v with raster := [r] })
def waitingRast : RCmd := { rast [0x40000130] 0 [] with accepted := false }
def oneQuad : List SpawnRec := [{ entry := 0, args := [], grid := 1, ctx := 0 }]

theorem some_with {α : Type} {p : α → Bool} {o : Option α} (h : (o.map p) = some true) : ∃ x, o = some x ∧ p x = true := by
  cases o with
  | none => simp at h
  | some x => exact ⟨x, rfl, by simpa using h⟩

theorem rast_of_check {s : State} {r : RCmd} {ts : List Nat} (h : (match s.pushRelease ts r.foot with
      | some t => (match t.jobRead (t.rasterJob r) r.stateVa 64 {} with
        | (v, m, u) => m.faults.isEmpty && m.fail.isNone && (match u.rasterState r v with | .ok _ => true | .error _ => false))
      | none => false) = true) :
    ∃ t v m u x, s.pushRelease ts r.foot = some t ∧ t.jobRead (t.rasterJob r) r.stateVa 64 {} = (v, m, u) ∧ nothing m ∧ u.rasterState r v = .ok x := by
  revert h
  cases s.pushRelease ts r.foot with
  | none => simp
  | some t =>
    rcases hj : t.jobRead (t.rasterJob r) r.stateVa 64 {} with ⟨v, m, u⟩
    rcases hx : u.rasterState r v with e | x
    · simp [hj, hx]
    · simp only [hj, hx, Bool.and_eq_true, and_true]
      exact fun h => ⟨t, v, m, u, x, rfl, hj, ⟨List.isEmpty_iff.1 h.1, Option.isNone_iff_eq_none.1 h.2⟩, hx⟩

/-- The group stands at a raster instruction. -/
def rastHere : State := putThreads rastBox rastBox.members (fun tid => arrived rastBox .collective (rastBox.thread tid))

theorem test_meets_rasterisation :
    ((rastBox.threads.map (·.1)).Nodup ∧ WholeGroup rastBox 65536 0 (wideUse (.v 4) 2 ++ wideUse (.v 6) 2) ∧
      (∀ t ∈ rastBox.members, (rastBox.thread t).quiet = true ∧ (rastBox.thread t).anyPoison (wideUse (.v 4) 2 ++ wideUse (.v 6) 2) = false) ∧
      rastHere.rastCause (rastBox.team 1).ctx (rasterCmd rastBox 65536 (.v 4) (.v 6)).stateVa (rasterCmd rastBox 65536 (.v 4) (.v 6)).tris = none) ∧
    (∃ s', rastHere.releaseAt (rastHere.whoT (tidOf 65536 0)) .partition = some s' ∧ (spGet s'.slices 0).isSome = true) ∧
    (((rasting waitingRast).slice 0).raster.find? (fun c => !c.accepted) = some waitingRast ∧
      (((rasting waitingRast).slice 0).raster.filter (·.accepted)).length < 256 ∧
      (∀ e ∈ (rasting waitingRast).threadsOfGroup 65536, e.2.engc < 262143) ∧ waitingRast.batch = none ∧
      (rasting waitingRast).groupIssues 65536 = true ∧
      (rasting waitingRast).mayBegin 0 ((rasting waitingRast).team 1).ctx (rasting waitingRast).nextId (waitingRast.foot.take 1) [] = true) ∧
    (∃ t v m u x, (rasting waitingRast).pushRelease (((rasting waitingRast).threadsOfGroup 65536).map (·.1)) waitingRast.foot = some t ∧
      t.jobRead (t.rasterJob waitingRast) waitingRast.stateVa 64 {} = (v, m, u) ∧ nothing m ∧ u.rasterState waitingRast v = .ok x) ∧
    (((rasting (rast [] 0 [oneQuad])).slice 0).raster.find? (·.accepted) = some (rast [] 0 [oneQuad]) ∧
      (rasting (rast [] 0 [oneQuad])).rasterHeld 0 5 = false ∧
      (rasting (rast [] 0 [oneQuad])).mayBegin 0 ((rasting (rast [] 0 [oneQuad])).team 1).ctx 0 [] [] = true) ∧
    ((rasting (rast [] 0 [oneQuad])).placeQuad 0 (rast [] 0 [oneQuad]) oneQuad).isSome = true ∧ (rast [] 0 []).tris.length ≤ 0 ∧
    (rast [0, 0x40000100, 0x40000130, 0x40000160] 0 []).tris[0]? = some 0 ∧
    (∀ e ∈ [(0x40000100, TriClass.culled), (0x40000130, .small), (0x40000160, .large)],
      let s := rasting (rast [e.1] 0 [])
      let r := s.jobRead (s.rasterJob (rast [e.1] 0 [])) e.1 48 {}
      (r.2.1.faults = [] ∧ r.2.1.fail = none) ∧ (triOf r.1).map (fun t => t.classify 0 8 8 64) = some e.2) ∧
    triOf 0x7F800000 = none := by
  unfold WholeGroup
  refine ⟨by decide +kernel, some_with (p := fun (t : State) => (spGet t.slices 0).isSome) (by decide +kernel), by decide +kernel, rast_of_check (by decide +kernel), by decide +kernel⟩

/-! Frame-out. -/

/-- Stream 2 of slice 0 on, 64 × 64 samples of a byte; the operands of fout in v4 to v7 of every thread: base, frame 9, stream 2, tile 0. -/
def encBox : State :=
  let s := allRegs (whole tabled) [(4, 0x40000100), (6, 9), (7, 0x02000000)]
  ((((s.setEnc 0 2 encCfg 1).setEnc 0 2 encDim (63 + 63 * 2 ^ 16)).setEnc 0 2 encPitch 256).setEnc 0 2 encChroff 0x4000).setEnc 0 2 encBssize (2 ^ 21)
def fcmd (fn frame tile : Nat) : FCmd :=
  { fn := fn, gid := 65536, tids := encBox.members, pc := 0, stream := 2, frame := frame, tile := tile, base := 0x40000100, dreg := 9, op := 7 }
def encQueue (c : FCmd) (x : Stream) : State := (encBox.modSlice 0 (fun v => { v with fcmds := [c] })).setStream 0 2 x
def tile0 : Tile := { idx := 0, base := 0x40000100, tids := encBox.members, frame := 9, read := false, missing := false, pc := 0, gid := 65536 }
def frame9 : EFrame := { frame := 9, tids := encBox.members, deadline := none, ctx := 0, draw := 3 }
/-- A frame of one sample, its tile still to be read. -/
def reading : State := (encBox.setEnc 0 2 encDim 0).setStream 0 2 { cur := 9, ended := true, tiles := [tile0] }
def encoded : State := encBox.setStream 0 2 { cur := 9, ended := true, tiles := [{ tile0 with read := true }], frames := [frame9] }
def readTile : Sp (BitVec 512) × Met × State := reading.jobLines (reading.tileJob tile0) ((reading.encGeo 0 2).ranges 0x40000100 0) {}

theorem test_meets_frame_out_issue :
    (encBox.members ≠ [] ∧ (∀ t ∈ encBox.members, gidOf t = 65536) ∧ leaderOf encBox 0 65536 = some t0 ∧
      encBox.foutBad 0 (encBox.team 1).ctx 0x02000000 = none ∧ ((encBox.thread t0).reg 7).toNat = 0x02000000 ∧ sound (encBox.thread t0) 6 2 = true ∧
      sound (encBox.thread t0) 4 2 = true ∧ regsVal (encBox.thread t0) 4 2 % 256 = 0 ∧ regsVal (encBox.thread t0) 4 2 < 2 ^ 50 ∧
      (spGet encBox.slices 0).isSome = true) ∧
    UniReady encBox (fun _ => { guard := 0, uses := wideUse (.v 4) 4 ++ [dst (.v 9)] }) := by
  refine ⟨?_, uniReady_of_check ?_⟩ <;> decide +kernel

theorem test_meets_frame_out :
    (∀ c ∈ [fcmd 0 9 0, fcmd 1 9 0, fcmd 0 8 0], ((encQueue c { cur := 9 }).slice 0).fcmds = c :: [] ∧
      (∀ t ∈ c.tids, (((encQueue c { cur := 9 }).realThread t).getD {}).engc < 262143) ∧ (encQueue c { cur := 9 }).teamIssues 1 = true ∧
      ((encQueue c { cur := 9 }).modSlice 0 (fun v => { v with fcmds := [] })).encReg 0 2 encCfg % 2 = 1) ∧
    ((foutResult { cur := 9 } 1 0 8 0).1 ≠ 0 ∧ (foutResult { cur := 9 } 1 0 9 0).1 = 0 ∧ (foutResult { cur := 9 } 1 1 9 0).1 = 0 ∧
      (encBox.encGeo 0 2).count = 1) ∧
    ((8 < 9 ∧ 9 < 10 ∧ ({ cur := 9 } : Stream).ended = false ∧ ({ cur := 9, ended := true } : Stream).ended = true) ∧ 1 ≤ 1 ∧ ¬ (0 = 0 ∧ 1 ≤ 0)) ∧
    ((reading.stream 0 2).tiles.find? (fun t => !t.read) = some tile0 ∧ tile0.batch = none ∧ readTile.2.1.faults = [] ∧ readTile.2.1.fail = none) ∧
    ((encoded.stream 0 2).frames = frame9 :: [] ∧ (encoded.stream 0 2).frameRead 9 = true ∧ (encoded.ringUsed 0 2).1 = 0 ∧
      (encoded.ringUsed 0 2).2 = 2 ^ 33) ∧
    (encBox.reaches .pf 0 = true ∧ encBox.encReg 0 2 encCfg % 2 = 1 ∧ (1 : Word).toNat % 2 = 1 ∧ (0 : Word).toNat % 2 = 0 ∧ (1 : Word).toNat / 2 ^ 26 = 0 ∧
      (1 : Word).toNat / 2 % 4 ≠ 3 ∧ (1 : Word).toNat / 16 % 4 ≠ 3) ∧
    ((encBox.setEnc 0 2 encCfg 0).encReg 0 2 encCfg % 2 = 0 ∧ (encBox.setEnc 0 2 encCfg 0).encGood 0 2 1 = false) ∧
    (let s := ((encBox.setEnc 0 2 encCfg 0).setEnc 0 2 encCrctl 4).setEnc 0 2 encBssize 1
     s.reaches .pf 0 = true ∧ s.encReg 0 2 encCfg % 2 = 0 ∧ s.encGood 0 2 1 = true) := by
  refine ⟨?_, ?_, ?_, ?_, ?_, ?_, ?_, ?_⟩ <;> decide +kernel

/-- A frame's bytes always fit an empty ring of 2 ^ 33 bytes. -/
theorem test_meets_frame_bytes : 0 + Config.frameBytes frame9.draw % 2 ^ 32 + 16 ≤ 2 ^ 33 := by
  have := Nat.mod_lt (Config.frameBytes frame9.draw) (show 0 < 2 ^ 32 by decide)
  omega

/-! Events of the memory system. -/

/-- A load and a store of SPAD on their way. -/
def load1 : Load := locLoad mem1 t0 (locFields mem1) .b32 (fun _ => .regs 3 1) 1 0x100
def loading : State := loadSent mem1 t0 (mem1.thread t0) 5 load1
def store1 : Store := locStore mem1 7 t0 (locFields mem1) .b32 0x1234 1 1 0x100
def storing : State := storeSent mem1 t0 (mem1.thread t0) store1

theorem test_meets_access_events :
    (loading.loads.find? (fun x => x.id = load1.id) = some load1 ∧ loading.settleFeeds load1 = loading ∧ load1.promo = [] ∧ load1.cause = none ∧
      Oldest loading load1.id load1.tid load1.set true load1.span ∧ loading.loadOpen load1 = true ∧
      (loading.bindLoad load1).1.kind = .words (extended 4 false ((mem1.team 1).readLocal 1 0x100 4)) none ∧
      (loading.bindLoad load1).1.id = load1.id ∧ (loading.bindLoad load1).1.tid = load1.tid ∧ (loading.bindLoad load1).1.acq = load1.acq ∧
      (loading.bindLoad load1).1.cause = none) ∧
    (load1.kind = .bytes .spad 1 0x100 0x100 4 false 0 0 false ∧ (loading.team 1).poisonedAt 1 0x100 4 = false) ∧
    (storing.stores.find? (fun y => y.id = store1.id) = some store1 ∧ Oldest storing store1.id store1.tid store1.set false store1.span ∧
      (storing.performStore store1).isSome = true) ∧
    (store1.acted = false ∧ isGlb store1.space = false ∧ store1.setFull = false ∧ (spGet storing.teams store1.team).isSome = true) := by
  unfold Oldest
  refine ⟨?_, ?_, ?_, ?_⟩ <;> decide +kernel

theorem test_meets_memory_laws :
    Memory.wf [(3, 1), (4, 2)] = true ∧ (({ bytes := [(3, 1), (4, 2)], cluster := 1, grid := 1, core := 0 } : Team).bytes = [(3, 1), (4, 2)]) ∧
      (0 < 64 ∧ 63 < 64 ∧ 64 / 64 ≠ 0 ∧ 63 / 64 = 0) := by decide +kernel

/-- A walk for thread t0 at a mapped and at an unmapped page. -/
def walk1 (va : Nat) : Walk := { id := 4, core := 0, ctx := 0, va := va, acc := 0, reqs := [(t0, 0, 0)] }
def walking (va : Nat) : State := { tabled with walks := [walk1 va] }
/-- A group in run-ahead with nothing gathered, and with a page and 512 instructions issued. -/
def ahead (pages : List FRec) (n : Nat) : State :=
  box.modGroup 65536 (fun g => { g with park := some { threads := [(t0, { pc := 9 })], masks := [(0, 1)], pages := pages, issued := n } })
def page1 : FRec := { va := 0x50000000, kind := 1, acc := 0, ra := true, pc := 3 }

theorem done_of_check {e : WalkRes × State} {q : TlbEnt → State → Bool} (h : (match e.1 with | .done x => q x e.2 | _ => false) = true) :
    ∃ x s, e = (.done x, s) ∧ q x s = true := by
  obtain ⟨r, s⟩ := e
  cases r with
  | done x => exact ⟨x, s, rfl, h⟩
  | _ => simp at h

/-- The root of the tables poisoned; a page of peer memory while its link is down. -/
def poisonedRoot : State := { walking 0x40000000 with memPoison := [0x300000 / 32] }
def strayPage : State :=
  { walking 0x40000000 with mem := Memory.write (tables box.mem) 0x303000 8 (2 ^ 50 + 0x307) }

theorem test_meets_translation_events :
    ((walking 0x40000000).walks.find? (fun x => decide (x.id = 4) && x.fault.isNone && x.cause.isNone) = some (walk1 0x40000000) ∧
      (∀ g ∈ groupsIn ((walk1 0x40000000).reqs.map (·.1)), ∀ x ∈ ((walking 0x40000000).walk 0 0x40000000).2.walks, x.id ≠ 4 →
        x.reqs.any (fun r => gidOf r.1 = g) = false)) ∧
    (∃ e s, (walking 0x40000000).walk 0 0x40000000 = (.done e, s) ∧ decide (s.refusal 0 0x40000000 e.leaf (AccK.ofNum 0) = none) = true) ∧
    (∃ e s, (walking 0x40000000).walk 0 0x40000000 = (.done e, s) ∧ (s.refusal 0 0x40000000 e.leaf .fetch).isSome = true) ∧
    ((walking 0x50000000).walks.find? (fun x => decide (x.id = 4) && x.fault.isNone && x.cause.isNone) = some (walk1 0x50000000)) ∧
    (∃ s, (walking 0x50000000).walk 0 0x50000000 = (.fault 2, s)) ∧
    (∃ s, poisonedRoot.walk 0 0x40000000 = (.poison 0x300000, s)) ∧ (∃ s, strayPage.walk 0 0x40000000 = (.unbacked (2 ^ 50), s)) ∧
    (∀ s ∈ [ahead [] 512, ahead [page1] 512], s.runAheadOver 65536 = true ∧ spRising none s.threads = true ∧
      (∀ p ∈ (s.group 65536).park.toList, p.running = true ∧ (∀ e ∈ p.threads, gidOf e.1 = 65536) ∧ (p.threads.map (·.1)).Nodup) ∧
      (s.group 65536).park.isSome = true ∧ (spGet s.slices (ctxFirst (s.team (teamOf 65536)).ctx)).isSome = true) ∧
    ((ahead [page1] 512).group 65536).park.map (·.pages) ≠ some [] := by
  refine ⟨?_, done_of_check (q := fun e s => decide (s.refusal 0 0x40000000 e.leaf (AccK.ofNum 0) = none)) ?_,
    done_of_check (q := fun e s => (s.refusal 0 0x40000000 e.leaf .fetch).isSome) ?_, ?_, ⟨_, pair_of ?_⟩, ⟨_, pair_of ?_⟩, ⟨_, pair_of ?_⟩, ?_, ?_⟩ <;>
    decide +kernel

/-- Line 0x10001 of GDDR-7 in the caches, one byte of it dirty; the same in a sealed page at its full minor counter. -/
def cached : State :=
  ((box.modCore 0 (fun c => { c with l1 := [(0x10001, { data := 5, valid := 1, dirty := 1 })] })).modSlice 0 (fun v =>
    { v with cc := [(0x10001, { data := 5, valid := 1, dirty := 1, writers := [1] })], deep := [(0x10001, { data := 5, dirty := 1 })] }))
def sealedFull : State :=
  (cached.setSreg 0 0x8000 0x1000).modSlice 0 (fun v => { v with sealing := { v.sealing with cache := [(metaKey 0 0x400, { data := withMinor 1 1 127 })] } })
def promoting : State := { cached with promos := [⟨3, 0, 2⟩] }

theorem test_meets_cache_events :
    (spGet (cached.core 0).l1 0x10001 = some { data := 5, valid := 1, dirty := 1 } ∧ (0 : BitVec 2) &&& sectorsOf 1 = 0 ∧
      spGet (cached.slice 0).cc 0x10001 = some { data := 5, valid := 1, dirty := 1, writers := [1] } ∧
      spGet (cached.slice 0).deep 0x10001 = some { data := 5, dirty := 1 }) ∧
    ((cached.cleanDeep 0 0x10001).isSome = true ∧ (sealedFull.cleanDeep 0 0x10001).isNone = true ∧
      spGet (sealedFull.slice 0).deep 0x10001 = some { data := 5, dirty := 1 }) ∧
    promoting.promos.find? (fun p => p.id = 3 && p.core = 0) = some ⟨3, 0, 2⟩ := by
  refine ⟨?_, ?_, ?_⟩ <;> decide +kernel

/-- A batch of one record at the ring of slice 0, which has room for four; the same batch outstanding. -/
def batchOf (unit : Nat) : FBatch :=
  { no := 6, ctx := 3, unit := unit, who := 65536, slicelog := 2, core := 5, gslot := 7, recs := [page1], stamp := 99 }
def faulting : State :=
  ((box.setSreg 0 0x2008 0x102).setSreg 0 0x2000 0x500000).modSlice 0 (fun v => { v with waitingBatches := [batchOf 0] })
def answered (unit : Nat) : State := box.modSlice 0 (fun v => { v with outstanding := [batchOf unit] })

theorem test_meets_fault_queue :
    ((faulting.slice 0).waitingBatches = batchOf 0 :: [] ∧ (faulting.slice 0).fwBusy = false ∧ (faulting.sreg 0 0x2008).toNat / 2 ^ 8 % 2 = 1 ∧
      ((faulting.sreg 0 0x200C).toNat + 2 ^ 32 - (faulting.sreg 0 0x2010).toNat) % 2 ^ 32 + 1 ≤ 2 ^ ((faulting.sreg 0 0x2008).toNat % 32)) ∧
    (page1.va < 2 ^ 50 ∧ page1.kind < 8 ∧ page1.acc < 4 ∧ (batchOf 0).unit < 16 ∧ ctxNum (batchOf 0).ctx < 2 ^ 16 ∧ (batchOf 0).slicelog < 16 ∧
      (batchOf 0).core < 16 ∧ (batchOf 0).gslot < 128 ∧ (batchOf 0).no < 2 ^ 32 ∧ (batchOf 0).recs.length < 64 ∧ 0 < 32) ∧
    (box.reaches .pf 0 = true ∧ (box.slice (box.first 0)).outstanding.find? (fun b => b.no = (6 : DWord).toNat % 2 ^ 32) = none) ∧
    (∀ u ∈ [0, 1, 2, 3, 4], (answered u).reaches .pf 0 = true ∧
      ((answered u).slice ((answered u).first 0)).outstanding.find? (fun b => b.no = (6 : DWord).toNat % 2 ^ 32) = some (batchOf u) ∧ (batchOf u).unit = u) := by
  refine ⟨?_, ?_, ?_, ?_⟩ <;> decide +kernel

/-- Invalidation of a page of context 0, waiting for nothing; a RELEASE of the frame at 0x400000, with and without its line still in a deep cache. -/
def tinvOf (op : Nat) : Tinv := { ctx := 0, op := op, va := 0x40000000, pa := 0x400000, pages := 1, mark := 1 }
def invalidating (op : Nat) : State := box.modSlice 0 (fun v => { v with tinv := some (tinvOf op) })
def stuckRelease : State := sealedFull.modSlice 0 (fun v => { v with tinv := some (tinvOf 2) })

/-- A thread at a barrier at its limit of 5; a context at its limit; a ticket at its limit. -/
def expired : State :=
  ((box.modCtx 0 (fun c => { c with hang := 4, ctl := { c.ctl with wdogBar := 5, wdogHang := 4, wdogRos := 3 } })).modThread t0 (fun t =>
    { t with wait := .bar, wdogBar := 5 })).modSlice 0 (fun v => { v with tickets := [⟨2, 8, 0, some t0, 1, 3⟩] })

theorem test_meets_invalidation :
    (box.reaches .pf 0 = true ∧ (spGet box.slices (box.first 0)).isSome = true ∧ (box.sreg 0 0x2034).toNat % 2 = 0 ∧
      ((0x1000 : Word).toNat / 2 ^ 12 % 4 = 1 ∧ (0x1000 : Word).toNat / 2 ^ 10 % 4 = 0 ∧ (0x1000 : Word).toNat / 2 ^ 14 % 4 = 0)) ∧
    (∀ op ∈ [1, 2], ((invalidating op).slice 0).tinv = some (tinvOf op) ∧ (invalidating op).tinvOpen (tinvOf op) = false) ∧
    (∀ e ∈ ((invalidating 2).releaseFrames 0 (tinvOf 2)).2.slices, ∀ x ∈ e.2.deep, (tinvOf 2).frames x.1 = false) ∧
    ((stuckRelease.slice 0).tinv = some (tinvOf 2) ∧ stuckRelease.tinvOpen (tinvOf 2) = false) ∧
    (∃ e ∈ (stuckRelease.releaseFrames 0 (tinvOf 2)).2.slices, ∃ x ∈ e.2.deep, (tinvOf 2).frames x.1 = true) := by
  refine ⟨?_, ?_, ?_, ?_, ?_⟩ <;> decide +kernel

def firedBox : State := box.modCtx 0 (fun c => { c with trigger := some { code := 0x10 } })

theorem test_meets_watchdogs :
    ((spGet expired.ctxs 0).isSome = true ∧ (expired.ctx 0).term = none) ∧
    ((expired.realThread t0).isSome = true ∧ (spGet expired.threads t0).isSome = true ∧ expired.ctxOfT t0 = 0 ∧
      ((expired.realThread t0).getD {}).wait.counted = true ∧ 0 < (expired.ctlFor 0 65536).wdogBar.toNat ∧
      (expired.ctlFor 0 65536).wdogBar.toNat ≤ ((expired.realThread t0).getD {}).wdogBar) ∧
    (0 < (expired.ctx 0).ctl.wdogHang.toNat ∧ (expired.ctx 0).ctl.wdogHang.toNat ≤ (expired.ctx 0).hang) ∧
    ((expired.slice 0).tickets.find? (fun k => k.id = 2) = some ⟨2, 8, 0, some t0, 1, 3⟩ ∧ 0 < (expired.ctx 0).ctl.wdogRos.toNat ∧
      (expired.ctx 0).ctl.wdogRos.toNat ≤ 3) ∧
    ((firedBox.ctxs.map (·.1)).Nodup ∧ spGet firedBox.ctxs 0 = some (firedBox.ctx 0) ∧ (firedBox.ctx 0).trigger = some { code := 0x10 } ∧
      ∀ e ∈ firedBox.ctxs, e.1 ≠ 0 → e.2.trigger = none) := by
  refine ⟨?_, ?_, ?_, ?_, ?_⟩ <;> decide +kernel

/-! Slices, partitions, registers. -/

/-- The machine after power-up; slice 0 of `box` in a state. -/
def up : State := nextOf (exec .powerUp State.reset)
def inState (k : Nat) : State := box.setState 0 k
/-- Slice 3 alone without power. -/
def dark : State := up.setState 3 stOff
/-- Slice 0 in CONFIG_OPEN with what LOCK asks for; without it. -/
def lockable : State := (((up.setSreg 0 0x1000 0x10000).setSreg 0 0x1008 0x20000).setSreg 0 0x2008 0x105).setSreg 0 0x3018 0x105

theorem test_meets_power_up :
    State.reset.booted = false ∧ spRising none State.reset.slices = true ∧
      (∀ i < 12, (spGet State.reset.slices i).map (·.regs) = some (sliceRegsReset i)) ∧
      (∀ i < 12, ((State.reset.bootBind i).filter bindEn).length = 16) := by decide +kernel

theorem test_meets_slice_states :
    (∀ k ∈ [stOpen, stLocked, stRun, stDrain, stReset, stOff], (inState k).presents .pf 0 = true ∧ (inState k).slcState 0 = k) ∧
    (lockable.presents .pf 0 = true ∧ lockable.slcState 0 = stOpen ∧ (lockable.status 0 ctlOk).lockCheck ((lockable.status 0 ctlOk).first 0) = none) ∧
    ((up.slcState 0 = stOpen ∧ (up.status 0 ctlOk).lockCheck ((up.status 0 ctlOk).first 0) ≠ none)) ∧
    ((5 < 8 ∧ 255 < 256) ∧ (∀ j ∈ box.partSlices 0, (spGet box.slices j).isSome = true ∧ spRising none (box.slice j).regs = true) ∧
      0 ∈ box.partSlices (box.first 0)) ∧
    (((inState stDrain).setDrained 0 1).slcState 0 = stDrain ∧ (((inState stDrain).setDrained 0 1).sreg 0 0).toNat / 8 % 2 = 1) ∧
    (let s := inState stReset
     s.first 0 = 0 ∧ (∀ j ∈ s.partSlices 0, (s.slice j).sealing.sweeps = []) ∧ s.flushCores (s.allCores 0) none (fun _ => true) = s ∧
      (∀ j ∈ s.partSlices 0, ∀ e ∈ (s.slice j).deep, e.2.dirty = 0) ∧ s.whet.phase = 0) ∧
    (Func.vf 0 ≠ .pf ∧ box.presents (.vf 0) 0 = true) ∧
    (dark.presents .pf 3 = true ∧ dark.slcState 3 = stOff ∧ dark.first 3 = 3 ∧ dark.psize 3 = 1 ∧ (spGet dark.slices 3).isSome = true ∧
      spRising none (dark.slice 3).regs = true ∧ ((dark.bootBind 3).filter bindEn).length = 16) := by
  refine ⟨?_, ?_, ?_, ?_, ?_, ?_, ?_, ?_⟩ <;> decide +kernel

/-- Registers of each kind, and of one that only the physical function reaches. -/
def specOf (k : RegKind) (locked pfOnly : Bool) : RegSpec := { off := 0x1000, width := 4, kind := k, locked := locked, pfOnly := pfOnly }

theorem test_meets_partitions :
    ((List.contains [1, 2, 3, 4, 6, 12] (0x51 / 16 % 16) = false) ∧ up.booted = true) ∧
    (let fs := up.overlapping 0 6
     (∀ p ∈ fs, up.slcState p = stOpen) ∧ up.bifurcated = false ∧ (¬ ∃ e < 24, ∃ p ∈ fs, up.ceOwner e = some p ∧ up.ceBusy e = true) ∧
      (¬ ∃ p ∈ fs, (spGet up.sec.worlds p).isSome = true) ∧ (∀ j < 12, (spGet up.slices j).isSome = true ∧ spRising none (up.slice j).regs = true) ∧
      (∀ p ∈ fs, p + up.psize p ≤ 12) ∧ (∀ j < 0 + 6, j ∈ up.partSlices (up.first j)) ∧ spRising none up.pf = true) ∧
    (∃ p ∈ dark.overlapping 0 6, dark.slcState p ≠ stOpen) ∧
    (List.contains [1, 2, 3, 4, 6, 12] 12 = true ∧ 0 % 12 = 0 ∧ 0 + 12 ≤ 12 ∧ 0xC0 / 2 ^ 8 = 0 ∧ 0 < 6 ∧ 6 < 0 + 12 ∧
      (∀ p ∈ ({ up with bifurcated := true } : State).overlapping 0 12, ({ up with bifurcated := true } : State).slcState p = stOpen)) ∧
    (spGet ({ up with sec := { up.sec with worlds := [(0, { num := 1 })] } } : State).sec.worlds 0).isSome = true := by
  refine ⟨?_, ?_, ?_, ?_, ?_⟩ <;> decide +kernel

theorem test_meets_registers :
    (box.booted = true ∧ 0x3404 % 4 = 0 ∧ 0x18 % 8 = 0 ∧ 0x11 % 1 = 0 ∧ 0x12 % 2 = 0 ∧ 0x80010 / 0x80000 < 12) ∧
    (box.presents .pf (0x10 / 0x80000) = true ∧ ({ up with bifurcated := true } : State).presents .pf2 (0x10 / 0x80000 + 6) = true) ∧
    (0xA000 ≤ 0xA100 ∧ 0xA100 < 0xA800 ∧ encBox.encReg 0 ((0xA100 - 0xA000) / 0x80) encCfg % 2 = 1) ∧
    (box.presents (.vf 0) 0 = true ∧ 0x10 < 0x80000 ∧ 0x80000 ≤ 0x80008 ∧ 0x80008 < 0xA0000 ∧ box.slcState 0 ≠ stOff) ∧
    ((specOf .rw false true).pfOnly = true ∧ Func.vf 0 ≠ .pf ∧ (specOf .ro false false).pfOnly = false ∧ (specOf .ro false false).kind = .ro ∧
      (specOf .wo false false).kind = .wo ∧ regWhole (specOf .wo false false) 0x1000 2 = false ∧ (specOf .rw true false).kind = .rw ∧
      (specOf .rw true false).locked = true ∧ (specOf .rw false false).locked = false ∧ box.slcState 0 ≠ stOpen ∧ up.slcState 0 = stOpen ∧
      (specOf .rw false false).width ≤ 8) := by decide +kernel

/-! Launches, placement, migration. -/

/-- Queue 0 of slice 0 has one record of an entry at word 0 waiting, in ring place 3. -/
def launchBox : State :=
  let s := tabled.setSreg 0 0x1000 0x500000
  let s := s.systemPut 0 1023 0 0x500000 32 (0x600000 + 2 ^ 50 + 4 * 2 ^ 51 + 3 * 2 ^ 96 + 4 * 2 ^ 128)
  (s.systemPut 0 1023 0 (0x600000 + 128 * 3) 128 (32 * 2 ^ 32 + 1 * 2 ^ 48 + 1 * 2 ^ 52 + 1 * 2 ^ 64)).modCtx 0 (fun c =>
    { c with entries := [⟨0, 8, true, 0⟩] })
/-- The same without the entry, and of an ended context. -/
def badLaunch : State := launchBox.modCtx 0 (fun c => { c with entries := [] })
def endedLaunch : State := launchBox.modCtx 0 (fun c => { c with term := some 5 })
def takenFrom (s : State) : Nat × State :=
  (s.queueDesc 0 0).2.recordRead 0 ((s.queueDesc 0 0).1 % 2 ^ 50 + 128 * (3 % 2 ^ 4)) 128
def afterTake (s : State) : State := (takenFrom s).2.putDesc 0 0 (setFld (s.queueDesc 0 0).1 127 96 4)

theorem test_meets_launches :
    (∀ s ∈ [launchBox, badLaunch, endedLaunch], s.mayPlace 0 = true ∧ (s.queueDesc 0 0).1 / 2 ^ 50 % 2 = 1 ∧
      (s.queueDesc 0 0).1 / 2 ^ 96 % 2 ^ 32 = 3 ∧ (s.queueDesc 0 0).1 / 2 ^ 128 % 2 ^ 32 = 4 ∧ (s.queueDesc 0 0).1 / 2 ^ 51 % 2 ^ 5 = 4 ∧
      (s.queueDesc 0 0).1 / 2 ^ 64 % 2 ^ 10 = 0 ∧ (s.ctx 0).paused = 0 ∧ s.descBad 0 (s.queueDesc 0 0).1 = false) ∧
    (((afterTake launchBox).ctx 0).term = none ∧ (afterTake launchBox).launchReason 0 0 (takenFrom launchBox).1 = none) ∧
    (((afterTake badLaunch).ctx 0).term = none ∧ ((afterTake badLaunch).launchReason 0 0 (takenFrom badLaunch).1).isSome = true) ∧
    ((afterTake endedLaunch).ctx 0).term = some 5 := by
  refine ⟨?_, ?_, ?_, ?_⟩ <;> decide +kernel

/-- Launches in both classes. -/
def ranks : State :=
  { box with grids := [(2, { lrec := { deadlineClass := true, deadline := 100 } }), (3, { lrec := { deadlineClass := true, deadline := 900 } }),
                       (4, { service := 3 }), (5, { service := 9 })] }

/-- A second launch whose one cluster waits: it fits the core, or it wants all of SPAD. -/
def placing (l : Launch) (save : Nat) : State :=
  { box.modCtx 0 (fun c => { c with savesize := save }) with
    grids := [(1, box.grid 1), (2, { lrec := l, number := 2, nextCluster := 1 })]
    clusters := [(1, { grid := 1, teams := [1], state := .running }), (5, { grid := 2 })] }
def fits : State := placing {} 0
def tooBig : State := placing { sizes := { spad := 524288 } } 0
def claims : State := placing { sizes := { spad := 524288 }, deadlineClass := true, deadline := 1000 } 16

theorem test_meets_placement :
    ((ranks.grid 2).lrec.deadlineClass = true ∧ (ranks.grid 3).lrec.deadlineClass = true ∧ (ranks.grid 4).lrec.deadlineClass = false ∧
      (ranks.grid 5).lrec.deadlineClass = false ∧ ranks.slack 2 < ranks.slack 3 ∧
      (ranks.grid 4).service * ((ranks.grid 5).lrec.weight + 1) < (ranks.grid 5).service * ((ranks.grid 4).lrec.weight + 1) ∧
      ranks.before 2 4 = true) ∧
    (box.mayPlace 0 = true ∧ ((box.openClusters 0).ranked 0).flatMap (fun g => (box.openClusters 0).waitingOf g) = []) ∧
    (∀ s ∈ [fits, tooBig, claims], s.mayPlace 0 = true ∧ ((s.openClusters 0).ranked 0).flatMap (fun g => (s.openClusters 0).waitingOf g) = [5]) ∧
    (((fits.openClusters 0).dropHeld 0 (some 5)).rectFor 0 5).isSome = true ∧
    ((((tooBig.openClusters 0).dropHeld 0 (some 5)).rectFor 0 5).isNone = true ∧ (tooBig.grid 2).lrec.deadlineClass = false) ∧
    (let s := (claims.openClusters 0).dropHeld 0 (some 5)
     (s.rectFor 0 5).isNone = true ∧ (s.grid (s.cluster 5).grid).lrec.deadlineClass = true ∧ (∀ k ∈ (s.slice 0).sched.claims, k.1 ≠ 5) ∧
      (s.preempt 0 5).isSome = true) := by
  refine ⟨?_, ?_, ?_, ?_, ?_, ?_⟩ <;> decide +kernel

/-- Cluster 5 claims the rectangle of core 0 from cluster 1, which a load keeps from its save; and from one that has gone. -/
def claimed (victim : Nat) : State :=
  let s := { fits with loads := [loading.loads.headD load1], clusters := [(1, { grid := 1, teams := [1], state := .stopping }), (5, { grid := 2 })] }
  (s.modTeam 1 (fun t => { t with state := .stopping })).modSlice 0 (fun v => { v with sched := { v.sched with claims := [(5, 0, [victim])] } })
def unclaimed (s : State) : State := (s.savePending 0).modSlice 0 (fun v => { v with sched := { v.sched with claims := [] } })
/-- A chosen rectangle past its age, a grid that has ended, a team asked to move. -/
def aged : State := ({ box with clock := 2 ^ 32 } : State).modCluster 1 (fun c => { c with chosen := some (0, 1) })
def over1 : State := box.modGrid 1 (fun g => { g with phase := 1 })
def asked (moving : Bool) : State :=
  box.modTeam 1 (fun t => { t with mig := some ⟨16, 1, moving⟩, state := if moving then .stopping else .resident })
/-- Core 0 below its limit of 90 degrees. -/
def cool : State := (box.setSreg 0 0x1018 90).modCore 0 (fun c => { c with temp := 60, armed := true })

theorem test_meets_preemption_and_migration :
    (((box.savePending 0).slice 0).sched.claims = []) ∧
    ((((claimed 1).savePending 0).slice 0).sched.claims = [(5, 0, [1])] ∧ (spGet ((claimed 1).savePending 0).clusters 1).isSome = true ∧
      (((claimed 1).savePending 0).cluster 1).state = .stopping) ∧
    ((((claimed 9).savePending 0).slice 0).sched.claims = [(5, 0, [9])] ∧ (spGet ((claimed 9).savePending 0).clusters 9).isNone = true ∧
      (let s := unclaimed (claimed 9)
       (spGet s.clusters 5).isSome = true ∧ (s.cluster 5).state = .waiting ∧ s.mayPlace 0 = true ∧ s.launchOpen (s.cluster 5).grid = true ∧
        s.rectFits 5 0 (fun _ => ({}, 0)) = true)) ∧
    ((aged.cluster 1).chosen = some (0, 1) ∧ 1 + (aged.sreg (ctxFirst (aged.cluster 1).ctx) 0x101C).toNat ≤ aged.clock) ∧
    ((spGet over1.grids 1).isSome = true ∧ (over1.grid 1).phase = 1) ∧
    ((cool.core 0).temp < cool.migtemp 0 ∧ cool.migtemp 0 ≤ 95 ∧ (cool.core 0).armed = true ∧ (cool.core 0).inPass = false ∧
      (cool.modCore 0 (fun c => { c with temp := 95, armed := false })).mayPlace (cool.first 0) = true ∧
      ((cool.setState 0 stDrain).modCore 0 (fun c => { c with temp := 95, armed := false })).mayPlace 0 = false) ∧
    (((asked false).team 1).mig = some ⟨16, 1, false⟩ ∧ ((asked false).team 1).state = .resident ∧
      1 + ((asked false).ctx ((asked false).team 1).ctx).ctl.migwait.toNat ≤ ({ asked false with clock := 100000 } : State).clock) ∧
    (((asked true).team 1).mig = some ⟨16, 1, true⟩ ∧ (((asked true).cutTeam 1).team 1).state = .stopping ∧
      ((asked true).cutTeam 1).teamBusy 1 = false) := by
  refine ⟨?_, ?_, ?_, ?_, ?_, ?_, ?_, ?_⟩ <;> decide +kernel

/-! Reliability and monitors. -/

/-- A row under way on core 0; the spare columns of its first half used up. -/
def mRow : MCmd :=
  { id := 5, fn := .mma, gid := 65536, pc := 0, acc := 3, dreg := 9, ctl := 3, aw := 0, bw := none, cw := 0, started := true }
def arrayBox (used : Nat) : State :=
  let s := nextOf (exec .powerUp State.reset)
  let s := ({ s with teams := box.teams, groups := box.groups, threads := box.threads } : State).modCore 0 (fun c => { c with mcmds := [mRow] })
  s.modSlice 0 (fun v => { v with spareUsed := (List.range 40).map (fun h => (h, used)) })
/-- A pass is due; one is under way on core 0 for long enough, and its core is empty. -/
def passDue : State := ({ box with clock := 1000000000000 } : State).setPfreg 0x3000 1
def inPass (phase : Nat) : State :=
  { passDue with whet := { passDue.whet with phase := phase, core := 0, next := 1, since := 5, startV := [] } }
def passDone : State :=
  { inPass 1 with teams := [], groups := [], threads := [], ctxs := [(0, { (box.ctx 0) with stamps := [(0, 5), (3, 9)] })] }

theorem test_meets_reliability :
    (∀ n ∈ [0, 2], ((arrayBox n).runningM 0).isSome = true ∧ mRow.aloneSince = none ∧ 0 < ((arrayBox n).coreHalves 0).length ∧
      spRead 0 ((arrayBox n).slice 0).spareUsed (((arrayBox n).coreHalves 0).getD 0 0) = n ∧ (arrayBox n).pairSide mRow = none) ∧
    (passDue.whet.phase = 0 ∧ 0 < passDue.whetGap ∧ passDue.whet.lastAt + passDue.whetGap ≤ passDue.time ∧
      ((passDue.testable.find? (fun c => decide (passDue.whet.next ≤ c))).orElse (fun _ => passDue.testable.head?)).isSome = true) ∧
    ((inPass 1).whet.phase = 1 ∧ (inPass 1).whet.since + 10000000 ≤ (inPass 1).time) ∧
    ((inPass 2).whet.phase ≠ 0 ∧ (inPass 2).passEmpty = false ∧ (inPass 2).whet.since + 100000000 ≤ (inPass 2).time) ∧
    (passDone.whet.phase ≠ 0 ∧ passDone.passEmpty = true ∧ spRising none passDone.ctxs = true ∧ spRising none (passDone.ctx 0).stamps = true) := by
  refine ⟨?_, ?_, ?_, ?_, ?_⟩ <;> decide +kernel

/-- Monitor 2 of slice 0 with a control word. -/
def monBox (ctl : Nat) : State := box.setMon 0 2 0 ctl

theorem test_meets_monitors :
    (2 < 8 ∧ (spGet (monBox 0x11).slices 0).isSome = true ∧ spRising none ((monBox 0x11).slice 0).regs = true) ∧
    ((monBox 0x11).mon 0 2 0 % 16 = 1 ∧ (monBox 0x11).mon 0 2 0 / 16 % 2 = 1 ∧ monTakes ((monBox 0x11).mon 0 2 0) 3 7 = true ∧
      (monBox 0x11).mon 0 2 4 < 2 ^ 32 ∧ (monBox 0x11).mon 0 2 8 < 2 ^ 32) ∧
    ((monBox 0x01).mon 0 2 0 / 16 % 2 = 0 ∧ (monBox 0x14).mon 0 2 0 % 16 = 4) ∧
    ((0 : Int) < 1 ∧ (2 : Int) ^ 13 ≤ 2 ^ 14 - 1 ∧ (2 : Int) ^ 14 ≤ 2 ^ 14) ∧
    (box.reaches .pf 0 = true ∧ (0x20 : Word).toNat / 32 % 2 = 1 ∧ (0x10 : Word).toNat / 32 % 2 = 0 ∧
      setFld (monCtlValue (box.mon 0 2 0) 0x10) 4 4 0 = setFld (box.mon 0 2 0) 4 4 0) ∧
    (32 * 0x20002 < devBytes ∧ (spGet (cached.slice 0).deep (0x20002 / 2)).isSome = true ∧ (spGet (cached.core 0).l1 (0x20002 / 2)).isSome = true) := by
  decide +kernel

/-! Tenancy. -/

/-- Slice 1 in RUN beside slice 0, a context in its partition, an idle core 16 that it may borrow or has borrowed. -/
def lender : State :=
  let s := box.setSreg 1 0 0x1103
  { s with cores := spPut s.cores 16 { present := true }, ctxs := spPut s.ctxs (ctxKey 0 5) {} }
def grantWord : Word := 0x01000500
def leased (st : Nat) : State := lender.modCore 16 (fun c => { c with lease := { st := st, first := 0, ctx := 5, scrubAt := 4 } })
/-- The slice's controller is changing firmware. -/
def busy1 : State := lender.modSlice 1 (fun v => { v with fwBusy := true })

theorem test_meets_leases :
    (lender.reaches .pf 1 = true ∧ grantWord.toNat / 2 ^ 24 % 4 = 1 ∧ grantWord.toNat / 2 ^ 18 % 2 ^ 6 = 0 ∧ grantWord.toNat / 2 ^ 26 = 0) ∧
    ((busy1.slice (busy1.first 1)).fwBusy = true ∧ (lender.slice (lender.first 1)).fwBusy = false ∧ lender.leaseRefused 1 grantWord.toNat = false ∧
      (leased 1).leaseRefused 1 grantWord.toNat = true) ∧
    (((leased 1).core 16).lease.st = 1 ∧ ((leased 2).core 16).lease.st = 2 ∧ (∀ e ∈ (leased 1).cores, ∀ m ∈ e.2.mcmds, m.onLease ≠ some 16) ∧
      (spGet (leased 1).cores 16).isSome = true) ∧
    (((leased 3).core 16).lease.st = 3 ∧ ((leased 3).core 16).lease.scrubAt ≤ (leased 3).clock) := by
  refine ⟨?_, ?_, ?_, ?_⟩ <;> decide +kernel

/-- No reserved bit set in a word of SLC_TMCMD, and of SLC_CTXCMD. -/
def pauseWord (v : Word) : Bool := decide (v.toNat / 2 ^ 10 % 2 ^ 6 = 0) && decide (v.toNat / 2 ^ 18 % 4 = 0) && decide (v.toNat / 2 ^ 21 = 0)
def ctxWord (v : Word) : Bool := decide (v.toNat / 2 ^ 10 % 2 ^ 6 = 0) && decide (v.toNat / 2 ^ 20 = 0)

/-- Context 0 in a state of a pause, its team gone. -/
def pausing (p : Nat) : State := ({ box with teams := [], groups := [], threads := [] } : State).modCtx 0 (fun c => { c with paused := p })

theorem test_meets_tenancy :
    (({ box with clock := 5000 } : State).slice 0).meterAt + 1750 ≤ ({ box with clock := 5000 } : State).clock ∧
    (box.reaches .pf 0 = true ∧ box.reaches (.vf 0) 0 = true ∧ Func.vf 0 ≠ .pf ∧
      (let others := ((upto (0 / 3 * 3) 3).filter (· ≠ 0)).foldl (fun n j => n + (box.sreg j 0x500C).toNat % 2 ^ 11) 0
       others + (100 : Word).toNat % 2 ^ 11 ≤ 1024 ∧ (100 : Word).toNat / 2 ^ 11 = 0 ∧ 1024 < others + (1025 : Word).toNat % 2 ^ 11)) ∧
    (box.booted = true ∧ box.timeOff + box.clock < 2 ^ 63) ∧
    (pauseWord 0x10000 = true ∧ pauseWord 0x110000 = true ∧ pauseWord 0x20000 = true ∧ (0x10000 : Word).toNat / 2 ^ 16 % 4 = 1 ∧ (0x20000 : Word).toNat / 2 ^ 16 % 4 = 2 ∧ (0x110000 : Word).toNat / 2 ^ 20 % 2 = 1 ∧
      (spGet box.ctxs 0).isSome = true ∧ (box.ctx 0).paused = 0 ∧ (spGet box.ctxs 5).isNone = true) ∧
    (∀ p ∈ [1, 2], ((pausing p).ctx 0).paused = p ∧ (pausing p).pauseReady 0 = true) ∧
    (((pausing 3).ctx 0).paused = 3 ∧ (pausing 3).tmCtx 0 = 0 ∧ (pausing 3).reaches .pf 0 = true ∧ (spGet (pausing 3).ctxs 0).isSome = true ∧
      (pausing 3).vtime 0 ≤ (5000 : DWord).toNat ∧ ((pausing 3).ctx 0).clockCount ≤ (5000 : DWord).toNat ∧ box.tmCtx 0 = 0) ∧
    (((0x101 : Word).toNat / 2 ^ 8 = 1 ∧ (0x101 : Word).toNat / 16 % 16 = 0 ∧ (0x101 : Word).toNat % 16 < 12) ∧ box.sec.fwSlice = none ∧
      ({ box with sec := { box.sec with fwSlice := some 0 } } : State).sec.fwSlice = some 0 ∧ (box.slice 0).errWait = [] ∧
      (spGet box.slices 1).isSome = true ∧ spRising none box.pf = true) ∧
    (((3 : Word).toNat / 2 ^ 5 = 0 ∧ 12 ≤ (13 : Word).toNat % 16 ∧ (13 : Word).toNat / 2 ^ 5 = 0 ∧ box.first 3 = 3 ∧ 2 < 24) ∧
      (3 : Word).toNat ≠ (box.pfreg 0x3508).toNat ∧ box.ceBusy 2 = false ∧ (box.setCe 2 { box.ce 2 with tail := 1 }).ceBusy 2 = true) := by
  refine ⟨?_, ?_, ?_, ?_, ?_, ?_, ?_, ?_⟩ <;> decide +kernel

/-- A signature is good or it is not: one of the two clauses of a firmware update applies. -/
theorem test_meets_firmware (a k : Nat) : Config.firmwareSigned a k = false ∨ Config.firmwareSigned a k = true := by
  cases Config.firmwareSigned a k <;> simp

/-! Contexts and pool engines. -/

/-- The context table of slice 0 at 0x500000; record 5 good, record 6 not; work queues at 0x700000. -/
def ctxBox : State :=
  let s := ({ tabled with teams := [], groups := [], threads := [], grids := [], clusters := [] } : State).setSreg 0 0x1008 0x500000
  let s := (s.setSreg 0 0x1000 0x700000).systemPut 0 1023 0 (0x500000 + 128 * 5) 128 (0x300000 + 0x100000 * 2 ^ 64 + 4 * 2 ^ 128)
  s.systemPut 0 1023 0 (0x500000 + 128 * 6) 128 (2 ^ 1023)
def haveCtx (n : Nat) : State := { ctxBox with ctxs := spPut ctxBox.ctxs (ctxKey 0 n) {} }
def ctxOk (e : Except Nat State) : Bool := match e with | .ok _ => true | .error _ => false

theorem test_meets_contexts :
    (ctxWord 0x10005 = true ∧ ctxWord 0x20005 = true ∧ ctxWord 0x30005 = true ∧ ctxBox.reaches .pf 0 = true ∧
      ctxBox.first 0 = 0 ∧ (spGet ctxBox.ctxs (ctxKey 0 5)).isNone = true ∧ (spGet (haveCtx 5).ctxs (ctxKey 0 5)).isSome = true) ∧
    (ctxOk (ctxBox.loadContext 0 (ctxKey 0 5) true) = true ∧ ctxOk (ctxBox.loadContext 0 (ctxKey 0 6) true) = false ∧
      ctxOk ((haveCtx 5).loadContext 0 (ctxKey 0 5) false) = true ∧ ctxOk ((haveCtx 6).loadContext 0 (ctxKey 0 6) false) = false) ∧
    (∃ e ∈ box.teams, e.2.ctx = ctxKey 0 0) ∧
    ((∀ e ∈ (haveCtx 5).teams, e.2.ctx ≠ ctxKey 0 5) ∧ (∀ e ∈ (haveCtx 5).grids, e.2.ctx ≠ ctxKey 0 5)) := by
  refine ⟨?_, ?_, ?_, ?_⟩ <;> decide +kernel

/-- A queue of 16 places, head 3 and tail 5. -/
def bellBox (en base : Nat) : State := (tabled.setSreg 0 0x1000 0x500000).systemPut 0 1023 0 0x500000 32 (base + en * 2 ^ 50 + 4 * 2 ^ 51 + 3 * 2 ^ 96 + 5 * 2 ^ 128)

theorem test_meets_doorbells :
    (∀ s ∈ [bellBox 1 0x600000, bellBox 0 0x600000, bellBox 1 (0x600000 + 2 ^ 56)], s.reaches (.vf 0) 0 = true ∧ (s.queueDesc 0 0).1 / 2 ^ 51 % 2 ^ 5 = 4 ∧
      (s.queueDesc 0 0).1 / 2 ^ 96 % 2 ^ 32 = 3 ∧ (s.queueDesc 0 0).1 / 2 ^ 128 % 2 ^ 32 = 5) ∧
    (((bellBox 1 0x600000).queueDesc 0 0).2.descBad 0 ((bellBox 1 0x600000).queueDesc 0 0).1 = false ∧
      ((bellBox 1 (0x600000 + 2 ^ 56)).queueDesc 0 0).2.descBad 0 ((bellBox 1 (0x600000 + 2 ^ 56)).queueDesc 0 0).1 = true) ∧
    (((bellBox 1 0x600000).queueDesc 0 0).1 / 2 ^ 50 % 2 = 1 ∧ ((bellBox 0 0x600000).queueDesc 0 0).1 / 2 ^ 50 % 2 ≠ 1 ∧
      ((bellBox 1 (0x600000 + 2 ^ 56)).queueDesc 0 0).1 / 2 ^ 50 % 2 = 1) ∧
    (2 ^ 4 < (20 + 2 ^ 32 - 3) % 2 ^ 32 ∧ (9 + 2 ^ 32 - 3) % 2 ^ 32 ≤ 2 ^ 4 ∧ (4 + 2 ^ 32 - 3) % 2 ^ 32 < (5 + 2 ^ 32 - 3) % 2 ^ 32 ∧
      (5 + 2 ^ 32 - 3) % 2 ^ 32 ≤ (9 + 2 ^ 32 - 3) % 2 ^ 32) := by
  refine ⟨?_, ?_, ?_, ?_⟩ <;> decide +kernel

/-- Pool engine 2 owned by slice 0, a ring at a base, one descriptor in it. -/
def ceBox (base d : Nat) : State :=
  ((tabled.setPfreg 0x3508 0x10).homePut 0 0 0 0x500000 32 d false).setCe 2 { base := BitVec.ofNat 64 base, ctl := 0x104, tail := 1 }
/-- Sixteen bytes from 0x500100 to 0x500200; the same to where no memory stands. -/
def ceDesc (dst len : Nat) : Nat := 0x500100 + dst * 2 ^ 64 + len * 2 ^ 128
def cePieced (s : State) (d : Nat) : CeRes :=
  (s.cePiece 0 { virt := false, addr := 0x500100, ctx := 0, write := false } { virt := false, addr := d, ctx := 0, write := true } 0 16).1

theorem test_meets_pool_engines :
    (∀ s ∈ [ceBox 0x500000 (ceDesc 0x500200 16), ceBox 0x500000 0, ceBox (2 ^ 45) 0], s.ceOwner 2 = some 0 ∧ (s.ce 2).ctl.toNat / 2 ^ 8 % 2 = 1 ∧
      (s.ce 2).head ≠ (s.ce 2).tail ∧ s.booted = true ∧ (s.ce 2).head.toNat = 0) ∧
    (box.ceOwner 2 = none ∧ (ceBox (2 ^ 45) 0).backed 0 (2 ^ 45) = false ∧ (ceBox 0x500000 0).backed 0 0x500000 = true ∧
      (ceBox 0x500000 0).inSealed 0x500000 = false) ∧
    (((ceBox 0x500000 0).homeBytes 0 (ctxKey 0 1023) 0 0x500000 32).2.1 = 0 ∧ ((ceBox 0x500000 0).homeBytes 0 (ctxKey 0 1023) 0 0x500000 32).1 = 0 ∧
      ((ceBox 0x500000 (ceDesc 0x500200 16)).homeBytes 0 (ctxKey 0 1023) 0 0x500000 32).1 = ceDesc 0x500200 16 ∧
      ceDesc 0x500200 16 / 2 ^ 128 % 2 ^ 32 = 16 ∧ ceDesc 0x500200 16 / 2 ^ 162 = 0) ∧
    (((ceBox 0x500000 0).modSlice 0 (fun v => { v with deep := spMod v.deep (0x500000 / 64) (fun x => { x with poison := 1 }) })).homeBytes 0 (ctxKey 0 1023) 0
      0x500000 32).2.1 ≠ 0 ∧
    (cePieces 0x500100 0x500200 16 16 0 = [(0, 16)] ∧
      (match cePieced (ceBox 0x500000 (ceDesc 0x500200 16)) 0x500200 with | .good => true | _ => false) = true ∧
      (match cePieced (ceBox 0x500000 (ceDesc (2 ^ 45) 16)) (2 ^ 45) with | .bad _ _ => true | _ => false) = true) := by
  refine ⟨?_, ?_, ?_, ?_, ?_⟩ <;> decide +kernel

/-- Empty memory reads as zero. -/
theorem empty_line (la : Nat) : Memory.line [] la = 0 := by
  have : Memory.read [] (64 * la) 64 = 0 := by
    unfold Memory.read
    rfl
  simp [Memory.line, this]

/-- Lines of peers read out of empty memory: zeros, the state as it was. -/
theorem peers_zero (s : State) (hm : s.mem = []) (first ctx comp pa n : Nat) (h : ∀ la, pa / 64 ≤ la → la < (pa + n + 63) / 64 → isPeerPa (64 * la) = true) :
    (s.homeBytes first ctx comp pa n).1 = 0 := by
  have key : ∀ (l : List Nat) (p : Nat), (∀ la ∈ l, isPeerPa (64 * la) = true) → (l.foldl (fun (v, p, s) la =>
      let lo := Nat.max pa (64 * la)
      let hi := Nat.min (pa + n) (64 * la + 64)
      let (g, s) := State.homeRead s first la ctx comp true 0
      let hits := g.poison &&& sectorsOf (byteMask (lo - 64 * la) (hi - lo))
      (v + lineGet g.data (lo - 64 * la) (hi - lo) * 2 ^ (8 * (lo - pa)),
       p + (if hits.getLsbD 0 then 1 else 0) + (if hits.getLsbD 1 then 1 else 0), s)) ((0 : Nat), p, s)).1 = 0 := by
    intro l
    induction l with
    | nil => intro p _; rfl
    | cons la l ih =>
      intro p hl
      have hp := hl la (by simp)
      have hr : s.homeRead first la ctx comp true 0 = ({ data := 0, poison := s.memPoisonOf la }, s) := by
        simp only [State.homeRead, hp, if_true, hm, empty_line]
      rw [List.foldl_cons]
      simp only [hr, lineGet]
      have hz : (0 : BitVec 512).toNat = 0 := by decide
      simp only [hz, Nat.zero_div, Nat.zero_mod, Nat.zero_mul, Nat.add_zero]
      exact ih _ (fun x hx => hl x (by simp [hx]))
  unfold State.homeBytes
  refine key _ _ (fun la hl => ?_)
  simp only [upto, List.mem_map, List.mem_range] at hl
  obtain ⟨i, hi, rfl⟩ := hl
  exact h _ (by omega) (by omega)

/-- Context 5 with no work, its queues in a peer's memory. -/
def idleCtx : State := ({ State.reset with booted := true, ctxs := [(5, {})] } : State).setSreg 0 0x1000 (2 ^ 50)

theorem test_meets_context_destroy :
    (idleCtx.reaches .pf 0 = true ∧ (spGet idleCtx.ctxs (ctxKey 0 5)).isSome = true) ∧ (∀ e ∈ idleCtx.teams, e.2.ctx ≠ ctxKey 0 5) ∧ (∀ e ∈ idleCtx.grids, e.2.ctx ≠ ctxKey 0 5) ∧
      idleCtx.queueNames 0 5 = false := by
  refine ⟨by decide +kernel, by decide +kernel, by decide +kernel, ?_⟩
  have hb : (idleCtx.sreg 0 0x1000).toNat = 2 ^ 50 := by decide +kernel
  have hm : idleCtx.mem = [] := by decide +kernel
  simp only [State.queueNames, List.any_eq_false, List.mem_range, hb]
  intro q hq
  rw [peers_zero _ hm]
  · decide
  · intro la h1 h2
    simp only [isPeerPa, Bool.and_eq_true, beq_iff_eq]
    omega

/-! Worlds and links. -/

/-- World 3 on slice 0, its first 4 MB sealed; counters asked for of line 1; owned by session 4. -/
def worldBox : State :=
  let s := ((box.setSreg 0 0x8000 1).setSreg 0 0x8018 64).setSreg 0 0x800C 1
  { s with sec := { s.sec with up := true, worlds := [(0, { num := 3, session := some 4 })], sessions := [(4, { world := some 3, finished := true }), (5, { finished := true })] } }
/-- A world that no session owns; no world. -/
def freeWorld : State := { worldBox with sec := { worldBox.sec with worlds := [(0, { num := 3 })] } }
def openWorld : State := ({ worldBox with ctxs := [] } : State).setState 0 stOpen

/-- A store of the context under way. -/
def worldStore : State :=
  { worldBox with nextId := 9, stores := [{ id := 5, tid := 0, team := 1, space := .glb, va := 0x40, pa := 0x40, size := 4, data := 0, scope := .team,
                                            pol := 0, setFull := false, et := false, acted := false }] }

/-- The stored level-3 node that the root counts once is poisoned. -/
def lostNode : State :=
  let s := worldBox.modSeal 0 (fun z => { z with root := [(0, 1)] })
  { s with memPoison := [s.metaPa 0 3 0 / 32] }

theorem test_meets_sealing :
    (box.reaches .pf 0 = true ∧ box.reaches (.vf 0) 0 = true ∧ box.slcState 0 ≠ stOpen ∧ (inState stOpen).reaches .pf 0 = true ∧
      (inState stOpen).slcState 0 = stOpen ∧ (inState stOpen).worldOf 0 = 0 ∧ (4096 : Word).toNat ≤ 4096) ∧
    ((worldBox.sreg 0 0x800C).toNat % 2 = 1 ∧ paSlice (4096 * 3) = 0 ∧ (1 : Word).toNat % 16 = 1 ∧ (0x102 : Word).toNat % 16 = 2 ∧ (1 : Word).toNat = 1) ∧
    (worldBox.dcmdStatus 0 1 = 0 ∧ worldBox.dcmdStatus 0 0x102 = 0 ∧ worldBox.dcmdStatus 0 2 ≠ 0 ∧ box.dcmdStatus 0 1 ≠ 0 ∧
      worldBox.reaches .pf 0 = true) ∧
    (worldBox.counterAt 0 ((worldBox.sreg 0 0x8018).toNat / 64) 0 = some (0, 0) ∧ lostNode.dcmdStatus 0 1 = 0 ∧
      lostNode.counterAt 0 ((lostNode.sreg 0 0x8018).toNat / 64) 0 = none) := by
  refine ⟨?_, ?_, ?_, ?_⟩ <;> decide +kernel

theorem test_meets_worlds :
    ((0x100 : Word).toNat / 256 % 4 = 1 ∧ (0x200 : Word).toNat / 256 % 4 = 2 ∧ worldBox.worldStatus 0x100 ≠ 0 ∧ (inState stOpen).worldStatus 0x100 = 0 ∧
      openWorld.worldStatus 0x200 = 0 ∧ (inState stOpen).worldStatus 0x200 ≠ 0 ∧ openWorld.booted = true ∧
      (inState stOpen).booted = true ∧ spRising none openWorld.sec.worlds = true ∧ (spGet openWorld.sec.worlds 0).isSome = true) ∧
    (box.first 0 = 0 ∧ box.worldStatus 0x100 = 1) ∧
    (worldBox.sec.up = true ∧ spRising none worldBox.sec.sessions = true ∧ spGet freeWorld.sec.sessions 5 = some { finished := true } ∧
      spGet freeWorld.sec.worlds 0 = some { num := 3 }) ∧
    (spGet worldBox.sec.sessions 4 = some { world := some 3, finished := true } ∧ spGet worldBox.sec.worlds 0 = some { num := 3, session := some 4 } ∧
      (spGet worldBox.ctxs (ctxKey 0 0)).isSome = true ∧ 0 < 255 ∧ 255 < 256 ∧
      (worldBox.flashClear (worldBox.wholeContext (ctxKey 0 0))).tinvOpen (worldBox.wholeContext (ctxKey 0 0)) = false ∧
      (worldStore.flashClear (worldStore.wholeContext (ctxKey 0 0))).tinvOpen (worldStore.wholeContext (ctxKey 0 0)) = true) ∧
    spGet worldBox.sec.sessions 5 = some { finished := true } := by
  refine ⟨?_, ?_, ?_, ?_, ?_⟩ <;> decide +kernel

/-- Keys on links; port 0 up, its window at the start of device memory, every access allowed. -/
def linkBox : State :=
  let s := ((box.setSreg 0 0xB008 0x400000).setSreg 0 0xB010 1).setSreg 0 0xB014 7
  ({ s with sec := { s.sec with linkKeys := [(3, 9)] } } : State).modSlice 0 (fun v => { v with linkUp := true })
def sealedLink : State := linkBox.setSreg 0 0x8000 4096

theorem test_meets_links :
    (linkReal (.ucie 1 true) = true ∧ linkNo (.ucie 1 true) = 3 ∧ (spGet linkBox.sec.linkKeys 3).isSome = true ∧ spRead 0 linkBox.sec.flits 3 + 1 < 2 ^ 48 ∧
      spRising none linkBox.sec.flits = true) ∧
    (box.presents .pf 0 = true ∧ box.slcState 0 ≠ stOff ∧ 0 < 8 ∧ 8 ≤ 8 ∧ (spGet box.slices 0).isSome = true ∧ spRising none (box.slice 0).regs = true) ∧
    (isDevPa 0x400000 = true ∧ isHostPa (2 ^ 51 + 5) = true ∧ isDevPa (2 ^ 51 + 5) = false ∧ box.homeOpen 0x400000 = true ∧
      (inState stReset).homeOpen 0x400000 = false ∧ box.meetsSealed 0x400000 8 = false ∧ sealedLink.meetsSealed 0x400000 8 = true ∧
      sealedLink.homeOpen 0x400000 = true ∧ sealedLink.homeOpen (0x400000 + 8 - 1) = true ∧ box.homeOpen (0x400000 + 8 - 1) = true) ∧
    ((linkBox.slice 0).linkUp = true ∧ linkNeeds (.read 8) = (8, 0) ∧ linkNeeds (.atomic .add64 1 0) = (8, 2) ∧
      (linkBox.sreg 0 0xB008).toNat = 0x400000 ∧ 0 + 8 ≤ (linkBox.sreg 0 0xB010).toNat * 0x200000 ∧ ¬ 0x200000 + 8 ≤ (linkBox.sreg 0 0xB010).toNat * 0x200000 ∧
      (∀ b < 3, (linkBox.sreg 0 0xB014).toNat / 2 ^ b % 2 = 1) ∧ linkBox.meetsSealed 0x400000 8 = false ∧ linkBox.homeOpen 0x400000 = true ∧
      (linkBox.partSlices (linkBox.first 0)).contains (paSlice 0x400000) = true ∧ linkBox.homeOpen (0x400000 + 8 - 1) = true ∧
      (linkBox.rmwGlb { core := 0, team := 0, ctx := 1023, first := 0 } .add64 1 1 0x400000 0 0 false).1 = some 0) ∧
    Memory.wf box.mem = true := by
  refine ⟨?_, ?_, ?_, ?_, ?_⟩ <;> decide +kernel

/-! The machine as a whole. -/

/-- faddF32 behind an FP prefix: the two words of 05 R87, and a machine that stands at them. -/
def prefixWord : Word := BitVec.ofNat 32 (0x3F * 2 ^ 25 + 1 * 2 ^ 23 + 2 * 2 ^ 20)
def faddWord : Word := BitVec.ofNat 32 (0x1B * 2 ^ 25 + 1 * 2 ^ 15 + 2 * 2 ^ 8 + 3 * 2)
def fadd : Instr := .faddF32 (some { rnd := .rz, sat := false, ftz := false, c := none }) 0 (.v 1) (.v 2) (.v 3)
def atFadd : State := State.reset.withFetchWord 64 (prefixWord.toNat + faddWord.toNat * 2 ^ 32)
def codePage : TlbEnt := { ctx := 0, base := 0x100000, size := 65536, leaf := 0x100109, leafAddr := 0x200000 }

theorem word_of_check {e : WordRes × State} {w : Word} (h : (match e.1 with | .ok x => decide (x = w) | _ => false) = true) : e = (.ok w, e.2) := by
  obtain ⟨r, s⟩ := e
  cases r <;> simp_all

theorem test_meets_fetch :
    ((0 : Word).toNat < (atFadd.ctx 0).codesize ∧ atFadd.tlbFind 0 0 (atFadd.codeVa 0 0) false = some codePage ∧ leafSys codePage.leaf = false ∧
      leafX codePage.leaf = true) ∧
    (∃ s1, atFadd.homeBytes (ctxFirst 0) 0 (leafComp codePage.leaf % 8) (codePage.pa (atFadd.codeVa 0 0)) 4 = (prefixWord.toNat, 0, s1)) ∧
    ((wordsFetched atFadd 0 0 0 2).map (·.1) = some [prefixWord, faddWord] ∧
      spaceOf ((atFadd.ctlFor 0 65536).memdef.toNat / 2 ^ 15 % 8) = .glb) ∧
    decode .glb [prefixWord, faddWord] = .ok (fadd, 2) ∧ Unfinished .glb ([prefixWord, faddWord].take 1) := by
  refine ⟨by decide +kernel, ⟨_, triple_of (by decide +kernel)⟩, by decide +kernel, rfl, ⟨_, rfl, rfl⟩⟩

/-- The state in which the choice is carried out, the threads that stand there, the state after the fetch, and the set that issues. -/
def atFadd0 : State := { atFadd with agenda := [] }
def lanes32 : List Nat := (List.range 32).map (tidOf 65536)
def standNow : List (Nat × Nat) := atFadd0.standingAt 1 0
def fetchedFadd : Issue := { team := 1, pc := 0, len := 2, word := faddWord }
def setNow : List Nat := issueSet ((atFadd0.fetch 65536 0).2.unheld fadd fetchedFadd standNow) lanes32 (perGroup fadd faddWord)
def issuing : State := { (atFadd0.fetch 65536 0).2 with cur := { fetchedFadd with tids := setNow } }
/-- Nothing is chosen or due; one event is due. -/
def idleBox : State := { atFadd0 with plan := some [], teams := [], groups := [], threads := [] }
def readyBox : State := { atFadd0.tick with plan := some [] }

theorem next_of_check {o : Host.Outcome State Fault Refusal} (h : (match o with | .next _ => true | _ => false) = true) : ∃ t, o = .next t := by
  cases o with
  | next t => exact ⟨t, rfl⟩
  | fault _ => simp at h
  | refused _ => simp at h

theorem test_meets_step :
    atFadd.agenda = .issue 1 0 lanes32 :: [] ∧ standNow = (t0, 0) :: standNow.drop 1 ∧ (∃ t ∈ lanes32, ∃ c, (t, c) ∈ standNow) ∧
    (atFadd0.fetch (gidOf t0) 0).1 = .instr fadd 2 faddWord ∧ setNow ≠ [] ∧
    (issuing.core (atFadd0.team 1).core).slots.room (clsOf faddWord) = true ∧ (issuing.core (atFadd0.team 1).core).admits 1 0 = true ∧
    (atFadd0.fetch 65536 0).2.yields (atFadd0.team 1).core (atFadd0.team 1).ctx 1 0 (clsOf faddWord) = false ∧
    (∃ t, exec fadd (((issuing.noteIssue (atFadd0.team 1).core (atFadd0.team 1).ctx 1 0 (clsOf faddWord) setNow).noteFetch setNow 0 2).startAcquires
      setNow) = .next t) ∧
    (∃ t, exec (.monClr 0 0) box = .next t) ∧ (idleBox.booted = true ∧ idleBox.agenda = []) ∧
    (let due : State := { idleBox with plan := some [.monClr 0 0] }
     due.plan.getD due.ownEvents = .monClr 0 0 :: [] ∧ ∃ t, exec (.monClr 0 0) { due with plan := some [] } = .next t) ∧
    (readyBox.plan.getD readyBox.ownEvents = [] ∧ readyBox.agenda = [] ∧ readyBox.booted = true ∧ readyBox.nextIssue.isSome = true) ∧
    (idleBox.plan.getD idleBox.ownEvents = [] ∧ idleBox.nextIssue = none) := by
  refine ⟨?_, ?_, ⟨t0, ?_, 0, ?_⟩, ?_, ?_, ?_, ?_, ?_, next_of_check ?_, next_of_check ?_, ?_, ⟨?_, next_of_check ?_⟩, ?_, ?_⟩ <;> decide +kernel

theorem test_meets_encodings :
    fadd.wf .glb = true ∧ encode fadd ≠ [] ∧ decode .glb [prefixWord, faddWord] = .ok (fadd, 2) := by
  refine ⟨by decide +kernel, by decide +kernel, rfl⟩

/-- Slice 0 in DRAIN with nothing under way, DRAINED shown; the next step is a clock. -/
def atRest : State :=
  { (({ box with teams := [], groups := [], threads := [] } : State).setState 0 stDrain).setDrained 0 1 with agenda := [], plan := some [] }

theorem test_meets_drained_invariant : DrainRight atRest ∧ (∃ t, step atRest = .next t) ∧ Drains atRest 0 ∧ (atRest.sreg 0 0).toNat / 8 % 2 = 1 := by
  have h : ∀ f < 12, atRest.first f = f → atRest.slcState f = stDrain → ∀ i ∈ atRest.partSlices f,
      ((atRest.sreg i 0).toNat / 8 % 2 = 1 ↔ atRest.drainedNow f = true) := by decide +kernel
  refine ⟨fun f hf i hi _ _ => h f hf.1 hf.2.1 hf.2.2 i hi, next_of_check (by decide +kernel), ?_, by decide +kernel⟩
  unfold Drains
  decide +kernel
end Sys2Proof.Tests
end

section
/-! Joint waits (03 R58-R60, R74; 11 R175): one lane at a time an instruction without operands, the masks that join and leave change,
and the releases tested afterwards. -/

namespace Sys2Proof.Machine

open Sys2Proof.Terms

/-! Updates of one group, read back. -/

theorem modThread_group (s : State) (tid gid : Nat) (f : Thread → Thread) : (s.modThread tid f).group gid = s.group gid := by
  rw [modThread_eq]
  rfl

theorem modGroup_of_none {s : State} {k : Nat} (f : Group → Group) (h : spGet s.groups k = none) : s.modGroup k f = s := by
  unfold State.modGroup
  rw [h]

theorem group_of_get {s : State} {k : Nat} {x : Group} (h : spGet s.groups k = some x) : s.group k = x := by
  simp [State.group, h]

theorem modGroup_group_ne (s : State) {k gid : Nat} (f : Group → Group) (h : gid ≠ k) : (s.modGroup k f).group gid = s.group gid := by
  cases hk : spGet s.groups k with
  | none => rw [modGroup_of_none f hk]
  | some x =>
    rw [modGroup_of_get s k f x hk]
    simp only [State.group, spGet_spPut_ne _ _ h]

/-- A group is changed by the update where it exists, and reads as before where it does not. -/
theorem modGroup_group_self (s : State) (k : Nat) (f : Group → Group) :
    (s.modGroup k f).group k = f (s.group k) ∨ s.group k = {} ∧ (s.modGroup k f).group k = {} := by
  cases hk : spGet s.groups k with
  | none =>
    have : s.group k = {} := by simp [State.group, hk]
    exact .inr ⟨this, by rw [modGroup_of_none f hk, this]⟩
  | some x =>
    refine .inl ?_
    rw [modGroup_of_get s k f x hk, group_of_get hk]
    simp [State.group]

/-- What an update keeps of the group it changes, it keeps of every group. -/
theorem modGroup_keeps {β : Type} (π : Group → β) (s : State) (k gid : Nat) (f : Group → Group) (h : ∀ x, π (f x) = π x) :
    π ((s.modGroup k f).group gid) = π (s.group gid) := by
  by_cases hk : gid = k
  · subst hk
    rcases modGroup_group_self s gid f with h1 | ⟨h0, h1⟩
    · rw [h1, h]
    · rw [h1, h0]
  · rw [modGroup_group_ne s f hk]

theorem modGroup_congr {s : State} {k : Nat} {f f' : Group → Group} (h : f (s.group k) = f' (s.group k)) :
    s.modGroup k f = s.modGroup k f' := by
  unfold State.modGroup
  split
  · rename_i x hx
    rw [← group_of_get hx, h]
  · rfl

theorem modGroup_withThreads (s : State) (m : Sp Thread) (k : Nat) (f : Group → Group) :
    (withThreads s m).modGroup k f = withThreads (s.modGroup k f) m := by
  unfold State.modGroup
  simp only [withThreads]
  split <;> rfl

/-! The masks changed for a list of threads. -/

theorem maskBits_snoc (s : State) (ts : List Nat) (tid k : Nat) (set : Bool) :
    maskBits s (ts ++ [tid]) k set = maskBits (maskBits s ts k set) [tid] k set := by
  simp [maskBits]

theorem maskBits_withThreads (s : State) (m : Sp Thread) (ts : List Nat) (k : Nat) (set : Bool) :
    maskBits (withThreads s m) ts k set = withThreads (maskBits s ts k set) m := by
  induction ts generalizing s with
  | nil => rfl
  | cons tid r ih =>
    simp only [maskBits, List.foldl_cons, modGroup_withThreads] at ih ⊢
    exact ih _

/-- Only groups change. -/
theorem maskBits_eq (s : State) (ts : List Nat) (k : Nat) (set : Bool) :
    maskBits s ts k set = { s with groups := (maskBits s ts k set).groups } := by
  induction ts generalizing s with
  | nil => rfl
  | cons tid r ih =>
    have := ih (maskBits s [tid] k set)
    simp only [maskBits, List.foldl_cons, List.foldl_nil] at this ⊢
    rw [this, modGroup_eq]

theorem maskBits_keeps {β : Type} (π : Group → β) (h : ∀ x m j l, π { x with masks := m, joined := j, left := l } = π x)
    (s : State) (ts : List Nat) (k : Nat) (set : Bool) (gid : Nat) : π ((maskBits s ts k set).group gid) = π (s.group gid) := by
  induction ts generalizing s with
  | nil => rfl
  | cons tid r ih =>
    refine (ih _).trans (modGroup_keeps π s _ gid _ fun x => ?_)
    exact h x _ _ _

/-- Lanes see nothing of a change of masks. -/
theorem maskBits_laneEnv (s : State) (ts : List Nat) (k : Nat) (set : Bool) (gid : Nat) :
    (maskBits s ts k set).laneEnv gid = s.laneEnv gid := by
  have hteam := maskBits_keeps Group.team (fun _ _ _ _ => rfl) s ts k set gid
  have hbinds := maskBits_keeps Group.binds (fun _ _ _ _ => rfl) s ts k set gid
  have hra := maskBits_keeps Group.inRa (fun _ _ _ _ => rfl) s ts k set gid
  unfold State.laneEnv
  simp only [hteam, hbinds, hra]
  rw [maskBits_eq]
  rfl

/-- The bit that a thread's own join or leave changes outside run-ahead. -/
theorem ownBit_of_known {x : Group} (h : x.inRa = false) (k tid : Nat) (set unk : Bool) :
    x.ownBit k tid set unk =
      { x with masks := withBits x.masks k (bitOf tid) set, joined := withBits x.joined k (bitOf tid) set,
               left := withBits x.left k (bitOf tid) (!set) } := by
  unfold Group.ownBit
  simp only [h, Bool.false_eq_true, if_false]
  cases set <;> rfl

theorem modGroup_ownBit {s : State} {tid : Nat} (h : (s.group (gidOf tid)).inRa = false) (k : Nat) (set unk : Bool) :
    s.modGroup (gidOf tid) (fun x => x.ownBit k tid set unk) = maskBits s [tid] k set :=
  modGroup_congr (ownBit_of_known h k tid set unk)

/-- The test of waitm: the mask has nothing at the lane's bit. -/
theorem and_laneBit_eq_zero (m : Word) (tid : Nat) : m &&& laneBit tid = 0 ↔ m.getLsbD (laneOf tid) = false := by
  have hl : laneOf tid < 32 := Nat.mod_lt _ (by decide)
  have hbit : ∀ i, i < 32 → (m &&& laneBit tid).getLsbD i = (m.getLsbD i && decide (i = laneOf tid)) := by
    intro i hi
    simp only [laneBit, BitVec.getLsbD_and, BitVec.getLsbD_shiftLeft, hi, decide_true, Bool.true_and]
    congr 1
    by_cases h : i = laneOf tid
    · simp [h]
    · have : ¬ (¬ i < laneOf tid ∧ i - laneOf tid = 0) := by omega
      simpa [h] using this
  constructor
  · intro h
    have := hbit _ hl
    simpa [h] using this.symm
  · intro h
    refine BitVec.eq_of_getLsbD_eq fun i hi => ?_
    rw [hbit i hi]
    by_cases he : i = laneOf tid
    · simp [he, h]
    · simp [he]

/-! Instructions without operands, lane by lane. -/

/-- A guard and what an active lane becomes: nothing read and nothing written. -/
def bare (g : Guard) (after : Thread → Thread → Thread) : LaneOp := { guard := g, after := fun t _ u => after t u }

theorem bare_run (g : Guard) (after : Thread → Thread → Thread) (nregs : Nat) (fpdef : Word) (t : Thread) :
    (bare g after).run nregs fpdef t = some ([], t) := rfl

theorem bare_member (g : Guard) (after : Thread → Thread → Thread) (s : State) (tid : Nat) :
    (bare g after).member s tid =
      if (s.thread tid).pred g.val then after (s.thread tid) ((s.thread tid).advance s.cur.len s.clock)
      else (s.thread tid).advance s.cur.len s.clock := rfl

/-- A ready set is ready whatever its active lanes become. -/
theorem laneReady_bare {s : State} {g : Guard} (h : Plain s g) (after : Nat → Thread → Thread → Thread) :
    LaneReady s (fun tid => bare g (after tid)) := h

/-- An active lane of a ready set pushes nothing to a copy channel. -/
theorem noPush_of_plain {s : State} {g : Guard} (h : Plain s g) {tid : Nat} (hm : tid ∈ s.members)
    (hp : (s.thread tid).pred g.val = true) : noPush (s.laneEnv (gidOf tid)).binds (s.thread tid) = true := by
  obtain ⟨-, -, -, hact⟩ := h.2 tid hm
  obtain ⟨-, xs, t, hrun, hno⟩ := hact hp
  have : some ([], s.thread tid) = some (xs, t) := hrun
  simp only [Option.some.injEq, Prod.mk.injEq] at this
  rw [this.2]
  exact hno

/-- What one member of the set does, beside the traps met so far. -/
def laneStep {α : Type} (g : Guard) (us : List Use) (body : Nat → LaneM α) (act : State → Nat → α → LaneSt → State)
    (acc : State × List (Nat × Cause)) (tid : Nat) : State × List (Nat × Cause) :=
  match laneRun (acc.1.laneEnv (gidOf tid)) g.val us (body tid) (acc.1.thread tid) with
  | .skip => (acc.1.passAll [tid], acc.2)
  | .ran a l => (act acc.1 tid a l, acc.2)
  | .trap c => (acc.1, acc.2 ++ [(tid, c)])
  | .block => (acc.1.retryAll [tid], acc.2)
  | .raEnd => (acc.1.endRunAhead [tid], acc.2)

theorem perLane_eq_foldl {α : Type} (s : State) (g : Guard) (us : List Use) (body : Nat → LaneM α)
    (act : State → Nat → α → LaneSt → State) :
    s.perLane g us body act =
      (s.members.foldl (laneStep g us body act) (s, [])).1.trapMembers (s.members.foldl (laneStep g us body act) (s, [])).2 := rfl

/-- A set in which every member runs or is skipped: where the step of each member takes the state of the members before it to the state of
these and itself, the instruction ends in the state of them all. -/
theorem perLane_of_steps {α : Type} {s : State} {g : Guard} {us : List Use} {body : Nat → LaneM α}
    {act : State → Nat → α → LaneSt → State} (st : List Nat → State) (h0 : st [] = s)
    (hstep : ∀ done tid rest, s.members = done ++ tid :: rest →
      laneRun ((st done).laneEnv (gidOf tid)) g.val us (body tid) ((st done).thread tid) = .skip ∧
          (st done).passAll [tid] = st (done ++ [tid]) ∨
      ∃ a l, laneRun ((st done).laneEnv (gidOf tid)) g.val us (body tid) ((st done).thread tid) = .ran a l ∧
          act (st done) tid a l = st (done ++ [tid])) :
    s.perLane g us body act = st s.members := by
  have key : ∀ (rest done : List Nat), s.members = done ++ rest →
      rest.foldl (laneStep g us body act) (st done, []) = (st s.members, []) := by
    intro rest
    induction rest with
    | nil =>
      intro done h
      rw [h, List.append_nil]
      rfl
    | cons tid r ih =>
      intro done h
      have hnext : laneStep g us body act (st done, []) tid = (st (done ++ [tid]), []) := by
        unfold laneStep
        rcases hstep done tid r h with ⟨hrun, hst⟩ | ⟨a, l, hrun, hst⟩ <;> simp only [hrun, hst]
      rw [List.foldl_cons, hnext, ih (done ++ [tid]) (by simp [h])]
  have hall := key s.members [] rfl
  rw [h0] at hall
  rw [perLane_eq_foldl, hall, trapMembers_nil]

/-! join and leave. -/

/-- The set after some of its members have joined or left: these past the instruction, the masks changed at the bits of their active ones. -/
def ownBitsOf (s : State) (g : Guard) (k : Nat) (set : Bool) (done : List Nat) : State :=
  maskBits (putThreads s done (fun tid => (s.thread tid).advance s.cur.len s.clock)) (done.filter (fun t => (s.thread t).pred g.val)) k set

section
variable (s : State) (g : Guard) (k : Nat) (set : Bool) (done : List Nat)

theorem ownBitsOf_threads : (ownBitsOf s g k set done).threads =
    (putThreads s done (fun tid => (s.thread tid).advance s.cur.len s.clock)).threads := by rw [ownBitsOf, maskBits_eq]

theorem ownBitsOf_cur : (ownBitsOf s g k set done).cur = s.cur := by rw [ownBitsOf, maskBits_eq]; rfl

theorem ownBitsOf_clock : (ownBitsOf s g k set done).clock = s.clock := by rw [ownBitsOf, maskBits_eq]; rfl

theorem ownBitsOf_laneEnv (gid : Nat) : (ownBitsOf s g k set done).laneEnv gid = s.laneEnv gid := maskBits_laneEnv _ _ k set gid

/-- A member that is still to come stands as before. -/
theorem ownBitsOf_get {tid : Nat} (h : tid ∉ done) : spGet (ownBitsOf s g k set done).threads tid = spGet s.threads tid := by
  rw [ownBitsOf_threads]
  exact spGet_foldl_ne done _ s.threads h

/-- The next member passes the instruction, and its bit changes where it is active. -/
theorem ownBitsOf_snoc (tid : Nat) :
    let u := withThreads (ownBitsOf s g k set done)
      (spPut (ownBitsOf s g k set done).threads tid ((s.thread tid).advance s.cur.len s.clock))
    ownBitsOf s g k set (done ++ [tid]) = if (s.thread tid).pred g.val then maskBits u [tid] k set else u := by
  have hput : putThreads s (done ++ [tid]) (fun tid => (s.thread tid).advance s.cur.len s.clock) =
      withThreads (putThreads s done (fun tid => (s.thread tid).advance s.cur.len s.clock))
        (spPut (ownBitsOf s g k set done).threads tid ((s.thread tid).advance s.cur.len s.clock)) := by
    simp [ownBitsOf_threads, putThreads, withThreads]
  intro u
  rw [ownBitsOf, hput, maskBits_withThreads, List.filter_append, List.filter_cons, List.filter_nil]
  by_cases hp : (s.thread tid).pred g.val = true
  · rw [if_pos hp, if_pos hp, maskBits_snoc, maskBits_withThreads]
    rfl
  · rw [if_neg hp, if_neg hp, List.append_nil]
    rfl

end

/-- R175: the members pass the instruction, and the masks change at the bits of the active ones. -/
theorem ownBits_eq {s : State} {g : Guard} (h : Plain s g) (k : Nat) (set : Bool) :
    s.ownBits g k set = maskBits (passed s) (actives s g) k set := by
  refine perLane_of_steps (ownBitsOf s g k set) rfl ?_
  intro done tid rest hsplit
  have hm : tid ∈ s.members := by simp [hsplit]
  have hnew : tid ∉ done := by
    have hnd := h.1
    rw [hsplit] at hnd
    exact fun hd => (List.nodup_append.1 hnd).2.2 tid hd tid (by simp) rfl
  obtain ⟨x, hx⟩ := members_get hm
  obtain ⟨hra, hst, hg, hact⟩ := h.2 tid hm
  have hget := (ownBitsOf_get s g k set done hnew).trans hx
  have hth : (ownBitsOf s g k set done).thread tid = s.thread tid := by rw [thread_of_get hget, thread_of_get hx]
  have henv := ownBitsOf_laneEnv s g k set done (gidOf tid)
  have hpass : ∀ f, (ownBitsOf s g k set done).modThread tid f =
      withThreads (ownBitsOf s g k set done) (spPut (ownBitsOf s g k set done).threads tid (f (s.thread tid))) := by
    intro f
    rw [modThread_of_mem (by simp [hget]), hth]
  rw [henv, hth, ownBitsOf_snoc]
  by_cases hp : (s.thread tid).pred g.val = true
  · refine .inr ⟨false, { th := s.thread tid }, laneRun_ran hra hst hg hp (hact hp).1 rfl, ?_⟩
    have hknown : ((ownBitsOf s g k set done).group (gidOf tid)).inRa = false := (congrArg LEnv.ra henv).trans hra
    rw [commitLane_quiet (by simp [hget]) (by rw [henv]; exact noPush_of_plain h hm hp), modGroup_withThreads, modGroup_ownBit hknown,
      if_pos hp, maskBits_withThreads, ownBitsOf_cur, ownBitsOf_clock]
  · refine .inl ⟨laneRun_skip hra hst hg (by simpa using hp), ?_⟩
    rw [if_neg hp, State.passAll, List.foldl_cons, List.foldl_nil, hpass, ownBitsOf_cur, ownBitsOf_clock]

/-! waitm. -/

/-- An instruction that only waits: the active members for which `q` holds wait, the others pass it. -/
theorem perLane_waiting {s : State} {g : Guard} (h : Plain s g) (w : Wait) (q : Nat → Bool)
    {act : State → Nat → Unit → LaneSt → State}
    (hact : ∀ tid m, spGet m tid = some (s.thread tid) → noPush (s.laneEnv (gidOf tid)).binds (s.thread tid) = true →
      act (withThreads s m) tid () { th := s.thread tid } =
        withThreads s (spPut m tid (if q tid then arrived s w (s.thread tid) else (s.thread tid).advance s.cur.len s.clock))) :
    s.perLane g [] (fun _ => noRunAhead) act = waiting s g w q := by
  rw [perLane_of (fun tid => bare g (fun t u => if q tid then arrived s w t else u)) (laneReady_bare h _) (fun _ => rfl) (fun _ => rfl) ?_]
  · unfold laneResult waiting
    congr 1
    funext tid
    rw [bare_member]
    cases (s.thread tid).pred g.val <;> simp
  · intro tid hm hp xs u hra hrun hno
    rw [bare_run] at hrun
    simp only [Option.some.injEq, Prod.mk.injEq] at hrun
    obtain ⟨rfl, rfl⟩ := hrun
    exact ⟨(), noRunAhead_ok hra, fun m hget => hact tid m hget hno⟩

theorem waitAll_one {s : State} {m : Sp Thread} {tid : Nat} (h : spGet m tid = some (s.thread tid)) (w : Wait) :
    (withThreads s m).waitAll [tid] w = withThreads s (spPut m tid (arrived s w (s.thread tid))) := by
  unfold State.waitAll
  rw [List.foldl_cons, List.foldl_nil, modThread_of_mem (s := withThreads s m) (by simp [withThreads, h]),
    thread_of_get (s := withThreads s m) h]
  rfl

theorem waitm_eq {s : State} {g : Guard} (h : Plain s g) (k : Fin 12) :
    exec (.waitm g k) s =
      .next (waiting s g (.mask k.val) (fun tid => (spRead 0 (s.group (gidOf tid)).masks k.val).getLsbD (laneOf tid))) := by
  refine congrArg Host.Outcome.next (perLane_waiting h _ _ ?_)
  intro tid m hget hno
  have hbit := and_laneBit_eq_zero (spRead 0 (s.group (gidOf tid)).masks k.val) tid
  cases hset : (spRead 0 (s.group (gidOf tid)).masks k.val).getLsbD (laneOf tid) with
  | false =>
    refine (if_pos (hbit.2 hset)).trans ?_
    exact commitLane_quiet (s := withThreads s m) (by simp [withThreads, hget]) hno
  | true =>
    refine (if_neg fun h0 => ?_).trans (waitAll_one hget _)
    rw [hbit.1 h0] at hset
    cases hset

/-! The updates of the clock, taken in at its end (11 R175). -/

/-- No update of a group's masks is noted. -/
def Unmarked (s : State) (gid : Nat) : Prop := (s.group gid).joined = [] ∧ (s.group gid).left = []

theorem unmarked_of_keeps {s t : State} {gid : Nat}
    (h : ((t.group gid).joined, (t.group gid).left) = ((s.group gid).joined, (s.group gid).left)) (hu : Unmarked s gid) :
    Unmarked t gid := by
  simp only [Prod.mk.injEq] at h
  exact ⟨h.1.trans hu.1, h.2.trans hu.2⟩

/-- A change of a thread leaves the updates noted of every group. -/
theorem modReal_marks (s : State) (tid gid : Nat) (f : Thread → Thread) :
    (((s.modReal tid f).group gid).joined, ((s.modReal tid f).group gid).left) = ((s.group gid).joined, (s.group gid).left) := by
  unfold State.modReal
  split
  · split
    · exact modGroup_keeps (fun x => (x.joined, x.left)) s _ gid _ (fun _ => rfl)
    · rw [modThread_group]
  · rw [modThread_group]

theorem releaseAll_unmarked {s : State} {gid : Nat} (ts : List (Nat × Thread)) (h : Unmarked s gid) : Unmarked (s.releaseAll ts) gid := by
  unfold State.releaseAll
  induction ts generalizing s with
  | nil => exact h
  | cons e r ih => exact ih (unmarked_of_keeps (modReal_marks s e.1 gid _) h)

theorem settleMask_unmarked {s : State} {gid : Nat} (g k : Nat) (h : Unmarked s gid) : Unmarked (s.settleMask g k) gid := by
  unfold State.settleMask
  extract_lets
  split
  · exact h
  · split
    · exact releaseAll_unmarked _ h
    · exact h

theorem settleMasks_unmarked {s : State} {gid : Nat} (g : Nat) (h : Unmarked s gid) : Unmarked (s.settleMasks g) gid := by
  unfold State.settleMasks
  generalize upto 1 11 = ks
  induction ks generalizing s with
  | nil => exact h
  | cons k r ih => exact ih (settleMask_unmarked g k h)

/-- At the end of a clock the updates noted of the group are dropped, and those of the other groups stay as they are. -/
theorem clearMarks_unmarked (s : State) (k gid : Nat) (h : Unmarked s gid ∨ gid = k) :
    Unmarked (s.modGroup k (fun g => { g with joined := [], left := [] })) gid := by
  by_cases hk : gid = k
  · subst hk
    rcases modGroup_group_self s gid (fun g => { g with joined := [], left := [] }) with h1 | ⟨-, h1⟩ <;> simp [Unmarked, h1]
  · have hu := h.resolve_right hk
    unfold Unmarked
    rw [modGroup_group_ne _ _ hk]
    exact hu

theorem spGet_none_of_not_mem {α : Type} {m : Sp α} {k : Nat} (h : k ∉ m.map (·.1)) : spGet m k = none := by
  induction m with
  | nil => rfl
  | cons e r ih =>
    obtain ⟨j, v⟩ := e
    simp only [List.map_cons, List.mem_cons, not_or] at h
    simp only [spGet, if_neg (Ne.symm h.1), ih h.2, ite_self]

theorem settleAllMasks_unmarked (s : State) (gid : Nat) : Unmarked s.settleAllMasks gid := by
  have key : ∀ (es : List (Nat × Group)) (u : State), Unmarked u gid ∨ gid ∈ es.map (·.1) →
      Unmarked (es.foldl (fun (s : State) e => (s.settleMasks e.1).modGroup e.1 (fun g => { g with joined := [], left := [] })) u) gid := by
    intro es
    induction es with
    | nil =>
      intro u h
      simpa using h
    | cons e r ih =>
      intro u h
      rw [List.foldl_cons]
      apply ih
      by_cases hr : gid ∈ r.map (·.1)
      · exact .inr hr
      · refine .inl (clearMarks_unmarked _ _ _ ?_)
        rcases h with h | h
        · exact .inl (settleMasks_unmarked e.1 h)
        · exact .inr (by simpa [hr] using h)
  refine key s.groups s ?_
  by_cases hm : gid ∈ s.groups.map (·.1)
  · exact .inr hm
  · have hg : s.group gid = {} := by simp [State.group, spGet_none_of_not_mem hm]
    exact .inl (by simp [Unmarked, hg])

/-! Releases outside run-ahead. -/

theorem realThread_unparked {s : State} {tid : Nat} (h : Unparked s (gidOf tid)) : s.realThread tid = spGet s.threads tid := by
  unfold State.realThread
  rw [show (s.group (gidOf tid)).park = none from h]

theorem realThreads_unparked {s : State} {gid : Nat} (h : Unparked s gid) : s.realThreads gid = s.threadsOfGroup gid := by
  unfold State.realThreads
  rw [show (s.group gid).park = none from h]

theorem realMask_unparked {s : State} {gid : Nat} (h : Unparked s gid) (k : Nat) : s.realMask gid k = spRead 0 (s.group gid).masks k := by
  unfold State.realMask
  rw [show (s.group gid).park = none from h]

theorem releaseAll_unparked {s : State} {ts : List (Nat × Thread)} (h : ∀ e ∈ ts, Unparked s (gidOf e.1)) :
    s.releaseAll ts = released s ts := by
  unfold State.releaseAll released
  induction ts generalizing s with
  | nil => rfl
  | cons e r ih =>
    rw [List.foldl_cons, List.foldl_cons, modReal_unparked (h e (by simp))]
    refine ih fun e' he' => ?_
    unfold Unparked
    rw [modThread_group]
    exact h e' (by simp [he'])

theorem realEntries_unparked {s : State} {es : List (Nat × Thread)} (h : ∀ e ∈ es, Unparked s (gidOf e.1)) :
    es.map (fun e => (e.1, (s.realThread e.1).getD e.2)) = es.map (fun e => (e.1, (spGet s.threads e.1).getD e.2)) :=
  List.map_congr_left fun e he => by rw [realThread_unparked (h e he)]

/-- The threads of a list of records leave their wait together where the list is not empty and all its records stand there. -/
theorem joint_release {s : State} {ts : List (Nat × Thread)} (h : ∀ e ∈ ts, Unparked s (gidOf e.1)) {b : Nat × Thread → Bool}
    {P : Nat × Thread → Prop} [Decidable (ts ≠ [] ∧ ∀ e ∈ ts, P e)] (hb : ∀ e, b e = true ↔ P e) :
    (if (!ts.isEmpty && ts.all b) = true then s.releaseAll ts else s) = if ts ≠ [] ∧ ∀ e ∈ ts, P e then released s ts else s := by
  have hall : (!ts.isEmpty && ts.all b) = true ↔ ts ≠ [] ∧ ∀ e ∈ ts, P e := by
    simp only [Bool.and_eq_true, Bool.not_eq_true', List.isEmpty_eq_false_iff, List.all_eq_true, hb]
  rw [releaseAll_unparked h]
  by_cases hjoint : ts ≠ [] ∧ ∀ e ∈ ts, P e
  · rw [if_pos (hall.2 hjoint), if_pos hjoint]
  · rw [if_neg (fun hc => hjoint (hall.1 hc)), if_neg hjoint]

theorem unparked_of_entries {s : State} {es : List (Nat × Thread)} (h : ∀ e ∈ es, Unparked s (gidOf e.1)) (f : Nat × Thread → Thread) :
    ∀ e ∈ es.map (fun e => (e.1, f e)), Unparked s (gidOf e.1) := by
  intro e he
  obtain ⟨e', he', rfl⟩ := List.mem_map.1 he
  exact h e' he'

theorem quiet_iff (x : Thread) : x.quiet = true ↔ x.ldc = 0 ∧ x.stc = 0 := by simp [Thread.quiet]

theorem settleBar_unparked {s : State} {t : Nat} (h : ∀ e ∈ s.threadsOfTeam t, Unparked s (gidOf e.1)) :
    let ts := (s.threadsOfTeam t).map (fun e => (e.1, (spGet s.threads e.1).getD e.2))
    s.settleBar t = if ts ≠ [] ∧ ∀ e ∈ ts, (e.2.wait = .bar ∨ (s.team t).binEntry.isSome = true ∧ e.2.wait = .clbar) ∧
        e.2.ldc = 0 ∧ e.2.stc = 0 then released s ts else s := by
  unfold State.settleBar
  simp only [realEntries_unparked h]
  exact joint_release (unparked_of_entries h _) fun e => by simp [waitsBar, quiet_iff]

theorem settleClbar_unparked {s : State} {c : Nat} (h : ∀ e ∈ s.threadsOfCluster c, Unparked s (gidOf e.1)) :
    let ts := (s.threadsOfCluster c).map (fun e => (e.1, (spGet s.threads e.1).getD e.2))
    s.settleClbar c = if ts ≠ [] ∧ ∀ e ∈ ts, e.2.wait = .clbar ∧ e.2.ldc = 0 ∧ e.2.stc = 0 then released s ts else s := by
  unfold State.settleClbar
  simp only [realEntries_unparked h]
  exact joint_release (unparked_of_entries h _) fun e => by simp [quiet_iff]

theorem onMask_eq (k : Nat) : onMask k = fun x => decide (x.wait = .mask k) && x.quiet := by
  funext x
  simp [onMask, Thread.quiet, Bool.and_assoc]

theorem maskFull_eq (s : State) (gid k : Nat) :
    maskFull s gid k =
      ((s.threadsOfGroup gid).any (fun e => decide (e.2.wait = .mask k)) &&
       (((s.threadsOfGroup gid).filter (fun e => decide (e.2.wait = .mask k))).all (fun e => e.2.quiet) &&
        (List.range 32).all (fun l => !(spRead 0 (s.group gid).masks k).getLsbD l ||
          ((spGet (s.threadsOfGroup gid) (tidOf gid l)).map (onMask k)).getD true))) := by
  unfold maskFull
  rw [Bool.and_assoc, List.all_filter]
  congr 2
  · refine congrArg (List.all _) (funext fun e => ?_)
    rw [onMask_eq]
    by_cases hw : e.2.wait = .mask k <;> simp [hw]
  · refine congrArg (List.all _) (funext fun l => ?_)
    cases spGet (s.threadsOfGroup gid) (tidOf gid l) <;> rfl

theorem settleMask_unparked {s : State} {gid : Nat} (h : Unparked s gid) (k : Nat) :
    s.settleMask gid k = if maskFull s gid k then
      released s ((s.threadsOfGroup gid).filter (fun e => decide (e.2.wait = .mask k))) else s := by
  have hrel : ∀ e ∈ (s.threadsOfGroup gid).filter (fun e => decide (e.2.wait = .mask k)), Unparked s (gidOf e.1) := by
    intro e he
    have hg : gidOf e.1 = gid := by simpa using (List.mem_filter.1 (List.mem_filter.1 he).1).2
    rw [hg]
    exact h
  have hempty : ((s.threadsOfGroup gid).filter (fun e => decide (e.2.wait = .mask k))).isEmpty =
      !(s.threadsOfGroup gid).any (fun e => decide (e.2.wait = .mask k)) := by
    rw [Bool.eq_iff_iff]
    simp [List.isEmpty_iff, List.filter_eq_nil_iff]
  unfold State.settleMask
  rw [maskFull_eq, onMask_eq]
  simp only [realThreads_unparked h, realMask_unparked h, releaseAll_unparked hrel, hempty]
  cases (s.threadsOfGroup gid).any (fun e => decide (e.2.wait = .mask k)) <;> rfl

/-- Settles O11: join and leave by following the set member by member, waitm as a lane instruction whose lanes wait, and the releases because
the threads of a group that is not parked are its own records. -/
theorem masksAndJointReleases : Obligations.masks_and_joint_releases := by
  unfold Obligations.masks_and_joint_releases
  refine ⟨fun g k s h => ⟨?_, ?_, waitm_eq h k⟩, settleAllMasks_unmarked, fun s gid k h => settleMask_unparked h k,
    fun s t h => settleBar_unparked h, fun s c h => settleClbar_unparked h⟩
  · exact congrArg Host.Outcome.next (ownBits_eq h k.val true)
  · exact congrArg Host.Outcome.next (ownBits_eq h k.val false)

end Sys2Proof.Machine
end

section
/-! PROOFS. Lane instructions on bits and predicates (09 R143-R151, R153, R154): each shape's value function in numbers, and from it the
whole next state of each instruction. -/

namespace Sys2Proof.Machine

open Sys2Proof.Terms

/-! Shift counts, immediates and moves (09 R143, R144, R153). -/

theorem shiftCount_ofNat (y : Nat) : shiftCount (BitVec.ofNat 32 y) = y % 256 := by
  rw [shiftCount, BitVec.toNat_ofNat, Nat.mod_mod_of_dvd y (by decide)]

/-- A binary operation of words with an immediate of the instruction, where it agrees with one of numbers. -/
theorem value_imm {op : Word → Word → Word} {F : Nat → Nat → Nat} (x : Nat) (imm : BitVec 8)
    (h : ∀ y, op (BitVec.ofNat 32 x) (BitVec.ofNat 32 y) = BitVec.ofNat 32 (F x y)) :
    op (BitVec.ofNat 32 x) (imm.signExtend 32) = BitVec.ofNat 32 (F x (wrap 32 (sgn 8 imm.toNat))) := by
  rw [signExtend_imm (by omega), h]

/-- An immediate into D (09 R144). -/
def moviBy (g : Guard) (d : Operand) (imm : BitVec 15) : LaneOp :=
  { guard := g, out := .dst d 1, f := fun _ _ _ => wrap 32 (sgn 15 imm.toNat) }

theorem execMovi_eq (g : Guard) (d : Operand) (imm : BitVec 15) (s : State) (hr : LaneReady s (fun _ => moviBy g d imm)) :
    execMovi g d imm s = .next (laneResult (fun _ => moviBy g d imm) s) := by
  refine congrArg _ (liftLane_eq s (moviBy g d imm) _ _ hr rfl rfl ?_)
  intro env t xs u hra _ h
  obtain ⟨-, -, u1, u2, hread, -, hw, rfl⟩ := run_dst (p := moviBy g d imm) rfl h
  cases hread
  exact wr1_ok hra hw (signExtend_imm (by omega) imm)

/-- Settles O2: each instruction has the shape D := f A, D := f A B or D := f A B D, and its word function is the number function of its
rule. -/
theorem shiftsBitsMoves : Obligations.shifts_bits_moves := by
  unfold Obligations.shifts_bits_moves
  intro i p s hi hr
  cases i with
  | shl g d a b =>
    cases hi
    exact laneBin1_eq g d a b s (fun x y _ _ => by rw [shiftCount_ofNat, value_shl]) hr
  | shr g d a b =>
    cases hi
    exact laneBin1_eq g d a b s (fun x y hx _ => by rw [shiftCount_ofNat, value_shr x _ hx]) hr
  | sar g d a b =>
    cases hi
    exact laneBin1_eq g d a b s (fun x y hx _ => by rw [shiftCount_ofNat, value_sar x _ hx]) hr
  | rol g d a b =>
    cases hi
    exact laneBin1_eq g d a b s (fun x y hx _ => by rw [shiftCount_ofNat, value_rol x _ hx]) hr
  | shi g d a k n =>
    cases hi
    exact laneUn1_eq g d a s (fun x hx => value_shi k x n.toNat hx) hr
  | addi g d a imm =>
    cases hi
    exact laneUn1_eq g d a s (fun x _ => value_imm x imm (fun y => (BitVec.ofNat_add x y).symm)) hr
  | andi g d a imm =>
    cases hi
    exact laneUn1_eq g d a s (fun x _ => value_imm x imm (value_and x)) hr
  | ori g d a imm =>
    cases hi
    exact laneUn1_eq g d a s (fun x _ => value_imm x imm (value_or x)) hr
  | xori g d a imm =>
    cases hi
    exact laneUn1_eq g d a s (fun x _ => value_imm x imm (value_xor x)) hr
  | movi g d imm =>
    cases hi
    exact execMovi_eq g d imm s hr
  | movB32 g d a =>
    cases hi
    exact laneUn1_eq g d a s (fun _ _ => rfl) hr
  | movB64 g d a =>
    cases hi
    exact laneUn2_eq g d a s (fun _ _ => rfl) hr
  | bfe g d a b =>
    cases hi
    exact laneBin1_eq g d a b s value_bfe hr
  | bfi g d a b =>
    cases hi
    exact laneAcc1_eq g d a b s (fun x y z _ hy => value_bfi x y z hy) hr
  | unopB32 g d a fn =>
    cases hi
    exact laneUn1_eq g d a s (value_unop (by omega) fn) hr
  | unopB64 g d a fn =>
    cases hi
    exact laneUn2_eq g d a s (value_unop (by omega) fn) hr
  | _ => cases hi

/-! Conditions and predicate words (09 R147, R150, R151). -/

theorem value_beq {w x y : Nat} (hx : x < 2 ^ w) (hy : y < 2 ^ w) : (BitVec.ofNat w x == BitVec.ofNat w y) = (x == y) := by
  rw [Bool.eq_iff_iff, beq_iff_eq, beq_iff_eq, ← BitVec.toNat_inj, BitVec.toNat_ofNat, BitVec.toNat_ofNat,
    Nat.mod_eq_of_lt hx, Nat.mod_eq_of_lt hy]

theorem value_condSigned {w x y : Nat} (lt : Bool) (hw : 0 < w) (hx : x < 2 ^ w) (hy : y < 2 ^ w) :
    condInt true lt (BitVec.ofNat w x) (BitVec.ofNat w y) = if lt then decide (sgn w x < sgn w y) else x == y := by
  simp only [condInt, if_true, value_slt hw hx hy, value_beq hx hy]

theorem value_condUnsigned {w x y : Nat} (lt : Bool) (hx : x < 2 ^ w) (hy : y < 2 ^ w) :
    condInt false lt (BitVec.ofNat w x) (BitVec.ofNat w y) = if lt then decide (x < y) else x == y := by
  simp only [condInt, Bool.false_eq_true, if_false, value_ult hx hy, value_beq hx hy]

theorem value_condFloat {w x y : Nat} (f : Fmt) (lt : Bool) (fp : Word) (hx : x < 2 ^ w) (hy : y < 2 ^ w) :
    condFloat f (fpFtz fp) lt (BitVec.ofNat w x).toNat (BitVec.ofNat w y).toNat = fcond f lt fp x y := by
  rw [BitVec.toNat_ofNat, BitVec.toNat_ofNat, Nat.mod_eq_of_lt hx, Nat.mod_eq_of_lt hy]
  rfl

theorem plogBit_eq (lut : BitVec 4) (a b : Bool) :
    plogBit lut a b = lut.getLsbD ((if a then 2 else 0) + (if b then 1 else 0)) := by
  cases a <;> cases b <;> rfl

/-- The old predicates as a number: bit 0 dropped. -/
theorem predWord_eq (p : BitVec 8) : predWord p = BitVec.ofNat 32 (p.toNat / 2 * 2) := by
  have hmask : p &&& (0xFE : BitVec 8) = p >>> 1 <<< 1 := by decide +revert
  have hp := p.isLt
  apply BitVec.eq_of_toNat_eq
  rw [predWord, hmask]
  simp only [BitVec.truncate_eq_setWidth, BitVec.toNat_setWidth, BitVec.toNat_shiftLeft, BitVec.toNat_ushiftRight, BitVec.toNat_ofNat,
    Nat.shiftLeft_eq, Nat.shiftRight_eq_div_pow]
  omega

/-! Selection, predicate logic and the read of an index register (09 R149-R151, R154). -/

/-- D := pN ? A : B at width `w`, with no guard: G names the selector (09 R149). -/
def selBy (w : Nat) (sg : Guard) (d a b : Operand) : LaneOp :=
  { guard := 0, srcs := [(a, w), (b, w)], reads := [sg.val], out := .dst d w,
    f := fun _ t xs => if t.pred sg.val then xs.getD 0 0 else xs.getD 1 0 }

theorem sel_body {W : Type} {rd : Operand → LaneM W} {wr : W → LaneM Unit} {w : Nat} {sg : Guard} {d a b : Operand} (of : Nat → W)
    (hrd : ∀ {env : LEnv} {t u : Thread} {o : Operand} {v : Nat}, env.ra = false → readSrc env.nregs t o w = some (v, u) →
      rd o env { th := t } = .ok (of v, { th := u }))
    (hwr : ∀ {env : LEnv} {t u : Thread} {v : Nat} {x : W}, env.ra = false → writeDst env.nregs t d w v = some u → x = of v →
      wr x env { th := t } = .ok ((), { th := u }))
    (env : LEnv) (t : Thread) (xs : List Nat) (u : Thread) (hra : env.ra = false)
    (h : (selBy w sg d a b).run env.nregs env.fpdef t = some (xs, u)) :
    (do let p ← readPred sg.val; let x ← rd a; let y ← rd b; wr (if p then x else y)) env { th := t } = .ok ((), { th := u }) := by
  obtain ⟨hsel, -, u1, u2, hr, -, hw, rfl⟩ := run_dst (p := selBy w sg d a b) rfl h
  obtain ⟨x, t1, ys, h1, hr2, rfl⟩ := readAll_cons hr
  obtain ⟨y, h2, rfl⟩ := readAll_one hr2
  have hclear : t.clear true sg.val = true := List.all_eq_true.1 hsel _ (List.mem_singleton_self _)
  rw [laneM_bind_ok (readPred_ok hra hclear), laneM_bind_ok (hrd hra h1), laneM_bind_ok (hrd hra h2)]
  exact hwr hra hw (apply_ite of (t.pred sg.val = true) x y).symm

theorem execSelB32_eq (sg : Guard) (d a b : Operand) (s : State) (hr : LaneReady s (fun _ => selBy 1 sg d a b)) :
    execSelB32 sg d a b s = .next (laneResult (fun _ => selBy 1 sg d a b) s) :=
  congrArg _ (liftLane_eq s (selBy 1 sg d a b) _ _ hr rfl rfl (fun env t xs u hra _ h =>
    sel_body (BitVec.ofNat 32) rd1_ok wr1_ok env t xs u hra h))

theorem execSelB64_eq (sg : Guard) (d a b : Operand) (s : State) (hr : LaneReady s (fun _ => selBy 2 sg d a b)) :
    execSelB64 sg d a b s = .next (laneResult (fun _ => selBy 2 sg d a b) s) :=
  congrArg _ (liftLane_eq s (selBy 2 sg d a b) _ _ hr rfl rfl (fun env t xs u hra _ h =>
    sel_body (BitVec.ofNat 64) rd2_ok wr2_ok env t xs u hra h))

/-- A predicate from a truth table of two predicates (09 R150). -/
def plogBy (g : Guard) (lut : BitVec 4) (pd pa pb : Guard) : LaneOp :=
  { guard := g, reads := [pa.val, pb.val], writes := [pd.val],
    post := fun _ t _ u => putPred u pd.val (lut.getLsbD ((if t.pred pa.val then 2 else 0) + (if t.pred pb.val then 1 else 0))) }

theorem execPlog_eq (g : Guard) (lut : BitVec 4) (pd pa pb : Guard) (s : State) (hr : LaneReady s (fun _ => plogBy g lut pd pa pb)) :
    execPlog g lut pd pa pb s = .next (laneResult (fun _ => plogBy g lut pd pa pb) s) := by
  refine congrArg _ (liftLane_eq s (plogBy g lut pd pa pb) _ _ hr rfl rfl ?_)
  intro env t xs u hra _ h
  obtain ⟨hreads, hwrites, u1, hr, -, rfl⟩ := run_none (p := plogBy g lut pd pa pb) rfl h
  cases hr
  have hclear := List.all_eq_true.1 hreads
  rw [laneM_bind_ok (readPred_ok hra (hclear _ List.mem_cons_self)),
    laneM_bind_ok (readPred_ok hra (hclear _ (List.mem_cons_of_mem _ List.mem_cons_self))), plogBit_eq]
  exact writePred_ok hra (List.all_eq_true.1 hwrites _ List.mem_cons_self)

/-- The old predicates into D, and the masked ones from A (09 R151). -/
def pmovBy (g : Guard) (d a : Operand) (mask : BitVec 7) : LaneOp :=
  { guard := g, srcs := [(a, 1)], reads := [1, 2, 3, 4, 5, 6, 7], out := .dst d 1,
    f := fun _ t _ => t.preds.toNat / 2 * 2,
    post := fun _ _ xs u => maskPreds mask (xs.getD 0 0) 7 u }

theorem execPmov_eq (g : Guard) (d a : Operand) (mask : BitVec 7) (s : State) (hr : LaneReady s (fun _ => pmovBy g d a mask)) :
    execPmov g d a mask s = .next (laneResult (fun _ => pmovBy g d a mask) s) := by
  refine congrArg _ (liftLane_eq s (pmovBy g d a mask) _ _ hr rfl rfl ?_)
  intro env t xs u hra _ h
  obtain ⟨hreads, -, u1, u2, hr, -, hw, rfl⟩ := run_dst (p := pmovBy g d a mask) rfl h
  obtain ⟨x, h1, rfl⟩ := readAll_one hr
  have hclear : ([1, 2, 3, 4, 5, 6, 7] : List Nat).all (fun k => u1.clear true k) = true := by
    simp only [clear_of_sb (read_sb h1)]
    exact hreads
  rw [laneM_bind_ok (rd1_ok hra h1), laneM_bind_ok (readPreds_ok hra hclear),
    laneM_bind_ok (writeMasked_ok hra x mask 7 (by omega) hclear), read_preds h1]
  exact wr1_ok hra hw (predWord_eq t.preds)

/-- An index register into D (09 R154). -/
def xgetBy (g : Guard) (d : Operand) (k : Fin 7) : LaneOp :=
  { guard := g, out := .dst d 1, f := fun _ t _ => (t.x k.val).toNat }

theorem readX_ok {env : LEnv} {t : Thread} (k : Nat) (hra : env.ra = false) : readX k env { th := t } = .ok (t.x k, { th := t }) := by
  simp only [readX, hra, Bool.false_and, Bool.or_false]

theorem execXget_eq (g : Guard) (d : Operand) (k : Fin 7) (s : State) (hr : LaneReady s (fun _ => xgetBy g d k)) :
    execXget g d k s = .next (laneResult (fun _ => xgetBy g d k) s) := by
  refine congrArg _ (liftLane_eq s (xgetBy g d k) _ _ hr rfl rfl ?_)
  intro env t xs u hra _ h
  obtain ⟨-, -, u1, u2, hread, -, hw, rfl⟩ := run_dst (p := xgetBy g d k) rfl h
  cases hread
  rw [laneM_bind_ok (readX_ok k.val hra)]
  exact wr1_ok hra hw ((BitVec.ofNat_toNat 32 _).trans (BitVec.setWidth_eq _)).symm

/-- Settles O3: a comparison has the shape PT, PF := A ? B and its condition is the number condition of its rule; the others are followed
access by access. -/
theorem compareSelectPredicates : Obligations.compare_select_predicates := by
  unfold Obligations.compare_select_predicates
  intro i p s hi hr
  cases i with
  | cmpS32 g pt pf lt a b =>
    cases hi
    exact laneCmp32_eq g pt pf a b s (fun _ _ _ hx hy => value_condSigned lt (by omega) hx hy) hr
  | cmpS64 g pt pf lt a b =>
    cases hi
    exact laneCmp64_eq g pt pf a b s (fun _ _ _ hx hy => value_condSigned lt (by omega) hx hy) hr
  | cmpZ32 g pt pf lt a b =>
    cases hi
    exact laneCmp32_eq g pt pf a b s (fun _ _ _ hx hy => value_condUnsigned lt hx hy) hr
  | cmpZ64 g pt pf lt a b =>
    cases hi
    exact laneCmp64_eq g pt pf a b s (fun _ _ _ hx hy => value_condUnsigned lt hx hy) hr
  | cmpF32 g pt pf lt a b =>
    cases hi
    exact laneCmp32_eq g pt pf a b s (fun env _ _ hx hy => value_condFloat f32 lt env.fpdef hx hy) hr
  | cmpF64 g pt pf lt a b =>
    cases hi
    exact laneCmp64_eq g pt pf a b s (fun env _ _ hx hy => value_condFloat f64 lt env.fpdef hx hy) hr
  | selB32 sg d a b =>
    cases hi
    exact execSelB32_eq sg d a b s hr
  | selB64 sg d a b =>
    cases hi
    exact execSelB64_eq sg d a b s hr
  | plog g lut pd pa pb =>
    cases hi
    exact execPlog_eq g lut pd pa pb s hr
  | pmov g d a mask =>
    cases hi
    exact execPmov_eq g d a mask s hr
  | xget g d k =>
    cases hi
    exact execXget_eq g d k s hr
  | _ => cases hi

end Sys2Proof.Machine
end
